-- ==== Sys2Proof/Word.lean ====
section
/-!
DEFINITION. The word types of the machine and the sparse lists its state is made of.
-/

namespace Sys2Proof

/-- One byte of memory (R7). -/
abbrev Byte := BitVec 8
/-- An instruction word, a lane register (R13, R47). -/
abbrev Word := BitVec 32
/-- A scalar register, an address, a pair (R25, R27). -/
abbrev DWord := BitVec 64
/-- An operand selector (R25). -/
abbrev Sel := BitVec 7
/-- A 256-bit digest or key. -/
abbrev Digest := BitVec 256

/-- A table with natural-number keys, in strictly rising key order: equal tables are equal lists. -/
abbrev FMap (α : Type) := List (Nat × α)

end Sys2Proof
end

