-- ==== Sys2Proof/Config.lean ====
section
/-!
DEFINITION. What the specification leaves to the device or takes from outside it: free values and
named standard functions. None has a body, so no proof can depend on a value of it.
-/

namespace Sys2Proof

/-- A free choice among several permitted outcomes (R12): the number is taken modulo the count of
outcomes. The argument is the state's own counter of choices made. Log entry 2. -/
opaque Config.freeChoice : Nat → Nat

/-- A free value that results where the specification states an effect and no value (R12). The argument
is the state's counter of free values drawn. Log entry 5. -/
opaque Config.freeWord : Nat → BitVec 64

/-- The device's result for an approximated function, before it is brought within the bound of R115 and
R128: operation number, format (as the bits of its largest value), source bits. "For a given source bit pattern, the device always
returns the same result." Log entry 6. -/
opaque Config.approx : Nat → Nat → BitVec 64 → Nat

/-- The SM3 digest of a byte string (R305, R316, R341, R354, R360). Log entry 7. -/
opaque Config.sm3 : List Byte → Digest

/-- The SM2 signature by the device identity key (R316, R354, R360). Log entry 7. -/
opaque Config.sm2Sign : Digest → BitVec 512

/-- AES-256-GCM decryption (R172): key, 96-bit IV, ciphertext; the plaintext. Log entry 7. -/
opaque Config.gcmDecrypt : Digest → BitVec 96 → List Byte → List Byte

/-- AES-256-GCM tag (R172): key, 96-bit IV, ciphertext; the 16-byte tag. Log entry 7. -/
opaque Config.gcmTag : Digest → BitVec 96 → List Byte → List Byte

/-- Digest of the device identity certificate (R316). Log entry 7. -/
opaque Config.certDigest : Digest

/-- Measurements of hub firmware, management-controller firmware and fused configuration (R305, R361):
the argument is 0, 1 or 2 and the count of configuration changes. Log entry 7. -/
opaque Config.measurement : Nat → Nat → Digest

/-- Where the device places the registers whose offsets only its directory gives (R302), by their place in the model's list.
Log entry 79. -/
opaque Config.regOffset : Nat → Nat

/-- Compute dies of PLV-AZB-P (R1, R3). -/
def Config.dieCount : Nat := 4

end Sys2Proof
end

