-- ==== Sys2Proof/Syntax.lean ====
section
/-!
DEFINITION. The instructions and the machine's other whole steps: one constructor per row of
spec/opcode_table.json. Operand fields are the bit fields of the words (R14, R15, R18); a step without
an encoding carries what the step needs to be named (which cluster, cohort, register, measured value).
Clusters are numbered `144 * die + c`, lane islands `256 * die + i`, wear units `1024 * die + u`.
-/

namespace Sys2Proof

/-- The fields of a modifier prefix (R18). Bits 11:0 are zero in every prefix that decodes. -/
structure Pfx where
  rnd : BitVec 3
  sat : Bool
  nf  : Bool
  gp  : BitVec 3
  ge  : Bool
  gn  : Bool
  ea  : Bool
  eb  : Bool
  ha  : Bool
  hb  : Bool
  ty  : BitVec 4
  deriving DecidableEq, Repr

/-- Words that form no assigned instruction (R16, R19, R35), with the words the trap frame records (R366). -/
inductive BadWords where
  /-- A tail that does not directly follow a head (R16). -/
  | orphanTail (w : Word)
  /-- A head whose next word is not a tail (R16), with the word of its modifier where it has one. -/
  | headWithoutTail (p : Option Word) (w : Word)
  /-- A modifier before a word that may not follow one (R19). -/
  | orphanPrefix (p : Word)
  /-- An unassigned slot or form (R35), or a nonzero `res` field (R14, R18, R73). -/
  | unassigned (p : Option Word) (w : Word)
  deriving DecidableEq, Repr

/-- The 128-bit registers (R301). -/
inductive Reg128 where
  | nrtEnt (i : Nat)
  | fabCgrp (g : Nat)
  | secSpadWorld (ci : Nat)
  deriving DecidableEq, Repr

/-- What a fabric switch showed in an attestation (R315): identity digest, measurement digest, and
whether its certificate chain verified against the fused roots. -/
structure SwitchReport where
  ident : Digest
  meas  : Digest
  chain : Bool
  deriving DecidableEq, Repr

/-- An array that can enter retention (R261). -/
inductive RetArray where
  | bank (ci b : Nat)
  | way (die slice w : Nat)
  deriving DecidableEq, Repr

/-- What asks for a package reset (R364): a write of HST_RESET, a conventional reset, an FLR of PF0. -/
inductive ResetCause where
  | hostWrite (v : Word)
  | conventional
  | flrPf0
  deriving DecidableEq, Repr

/-- Registers with fields that a read returns and clears (R8 code RC). -/
inductive RcReg where
  | cluBraDiverge | cluReformSkip | cluJoinNop
  | cluAtomNear | cluAtomFar | cluAtomGrant
  | cluMmaIssue | cluMmaDrop | cluEarlyPromo | cluNofferDup
  | cluCopyAlloc | cluCopyFault | cluTmarkDrop
  | cluXfifo | cluBankSpill | cluBinFull | cluBinAged | cluBinForced
  | cluRetWait | cluPromoStall | cluStray | cluEcc
  | slcEcc | homEcc
  | cxbRdcHit | cxbRdcMiss | nrtMerged | nrtUnmerged | nrtTabWait
  | xltL2Miss | xltWalks | xltCoalesce
  | lchPreempt | lchDrainOver | secHostDeny | mcErrLost | bbxDrop
  | drpFires | drpHophold
  deriving DecidableEq, Repr

/-- Registers whose write has no row of its own in the table (R8). -/
inductive RwReg where
  | cluQstallLim | cluHangLim
  | xltCtxtBase | xltFqBase | xltFqCfg | xltFqHead | xltFqResp | xltMigPa | xltCmd
  | lchQbase
  | mcErrBase | mcErrCfg | mcErrHead | mcEvaddr | mcEvstat
  | pwrProtStat | pwrPkgLim | pwrRsv | pwrCap | pwrSlide
  | pwrPqBase | pwrPqCfg | pwrPqHead | pwrRetIdle
  | wearCtl | wearLife | fabPortAlarm | bbxCtl | wearRpt
  /-- Any offset that holds a read-only register or none: the write is ignored (R8, R300). -/
  | readOnly
  deriving DecidableEq, Repr

/-- One row of spec/opcode_table.json per constructor: the instructions in the table's order, then the
words that form none, then the machine's other steps. -/
inductive Instr where
  /-- R75. Adds two integer sources and writes the wrapped or saturated sum to the destination. -/
  | add (p : Option Pfx) (d a b : Sel)
  /-- R75. Long I-form add of a register and the tail immediate. -/
  | addImm (p : Option Pfx) (d a b : Sel) (imm : BitVec 30)
  /-- R75. Subtracts the second integer source from the first. -/
  | sub (p : Option Pfx) (d a b : Sel)
  /-- R75. Long I-form subtract of the tail immediate. -/
  | subImm (p : Option Pfx) (d a b : Sel) (imm : BitVec 30)
  /-- R76. Adds with carry taken from and returned to p7. -/
  | addc (p : Option Pfx) (d a b : Sel)
  /-- R76. Long I-form add with carry. -/
  | addcImm (p : Option Pfx) (d a b : Sel) (imm : BitVec 30)
  /-- R76. Subtracts with borrow taken from and returned to p7. -/
  | subb (p : Option Pfx) (d a b : Sel)
  /-- R76. Long I-form subtract with borrow. -/
  | subbImm (p : Option Pfx) (d a b : Sel) (imm : BitVec 30)
  /-- R75. Multiplies two integer sources. -/
  | mul (p : Option Pfx) (d a b : Sel)
  /-- R75. Long I-form multiply by the tail immediate. -/
  | mulImm (p : Option Pfx) (d a b : Sel) (imm : BitVec 30)
  /-- R77. Writes the high half of the exact double-width product. -/
  | mulh (p : Option Pfx) (d a b : Sel)
  /-- R77. Long I-form high-half multiply. -/
  | mulhImm (p : Option Pfx) (d a b : Sel) (imm : BitVec 30)
  /-- R77. Integer multiply-add of three sources in C form. -/
  | mad (p : Option Pfx) (d a b c : Sel)
  /-- R77. Widening 32-bit multiply with a 64-bit addend and result. -/
  | madw (p : Option Pfx) (d a b c : Sel)
  /-- R78. Starts an integer division that marks its destination empty until the quotient is written. -/
  | div (p : Option Pfx) (d a b : Sel)
  /-- R78. Long I-form integer division. -/
  | divImm (p : Option Pfx) (d a b : Sel) (imm : BitVec 30)
  /-- R78. Starts an integer remainder that marks its destination empty until written. -/
  | rem (p : Option Pfx) (d a b : Sel)
  /-- R78. Long I-form integer remainder. -/
  | remImm (p : Option Pfx) (d a b : Sel) (imm : BitVec 30)
  /-- R75. Negates a signed integer. -/
  | neg (p : Option Pfx) (d a : Sel)
  /-- R75. Writes the absolute value of a signed integer. -/
  | abs (p : Option Pfx) (d a : Sel)
  /-- R75. Writes the smaller of two integers. -/
  | min (p : Option Pfx) (d a b : Sel)
  /-- R75. Long I-form integer minimum. -/
  | minImm (p : Option Pfx) (d a b : Sel) (imm : BitVec 30)
  /-- R75. Writes the larger of two integers. -/
  | max (p : Option Pfx) (d a b : Sel)
  /-- R75. Long I-form integer maximum. -/
  | maxImm (p : Option Pfx) (d a b : Sel) (imm : BitVec 30)
  /-- R79. Shifts left by a count from the second source. -/
  | shl (p : Option Pfx) (d a b : Sel)
  /-- R79. Long I-form shift left. -/
  | shlImm (p : Option Pfx) (d a b : Sel) (imm : BitVec 30)
  /-- R79. Logical shift right. -/
  | shr (p : Option Pfx) (d a b : Sel)
  /-- R79. Long I-form logical shift right. -/
  | shrImm (p : Option Pfx) (d a b : Sel) (imm : BitVec 30)
  /-- R79. Arithmetic shift right. -/
  | sar (p : Option Pfx) (d a b : Sel)
  /-- R79. Long I-form arithmetic shift right. -/
  | sarImm (p : Option Pfx) (d a b : Sel) (imm : BitVec 30)
  /-- R79. Rotates left by the count mod the width. -/
  | rotl (p : Option Pfx) (d a b : Sel)
  /-- R79. Long I-form rotate left. -/
  | rotlImm (p : Option Pfx) (d a b : Sel) (imm : BitVec 30)
  /-- R80. Computes base plus shifted index plus offset as a 64-bit address. -/
  | lea (p : Option Pfx) (d a b c : Sel) (sh : BitVec 3)
  /-- R80. Adds a sign-extended 32-bit value to a 64-bit address. -/
  | addp (p : Option Pfx) (d a b : Sel)
  /-- R80. Long I-form address add of a sign-extended immediate. -/
  | addpImm (p : Option Pfx) (d a b : Sel) (imm : BitVec 30)
  /-- R80. Subtracts two 64-bit addresses. -/
  | subp (p : Option Pfx) (d a b : Sel)
  /-- R81. Writes the extended tail immediate to the destination. -/
  | movi (p : Option Pfx) (d : Sel) (imm : BitVec 30)
  /-- R81. Copies a source to the destination, consuming queue or stream sources. -/
  | mov (p : Option Pfx) (d a : Sel)
  /-- R82. Bitwise and. -/
  | and (p : Option Pfx) (d a b : Sel)
  /-- R82. Long I-form bitwise and. -/
  | andImm (p : Option Pfx) (d a b : Sel) (imm : BitVec 30)
  /-- R82. Bitwise or. -/
  | or (p : Option Pfx) (d a b : Sel)
  /-- R82. Long I-form bitwise or. -/
  | orImm (p : Option Pfx) (d a b : Sel) (imm : BitVec 30)
  /-- R82. Bitwise exclusive or. -/
  | xor (p : Option Pfx) (d a b : Sel)
  /-- R82. Long I-form bitwise exclusive or. -/
  | xorImm (p : Option Pfx) (d a b : Sel) (imm : BitVec 30)
  /-- R82. Bitwise complement. -/
  | not (p : Option Pfx) (d a : Sel)
  /-- R82. Computes A and not B. -/
  | andn (p : Option Pfx) (d a b : Sel)
  /-- R82. Long I-form and-not. -/
  | andnImm (p : Option Pfx) (d a b : Sel) (imm : BitVec 30)
  /-- R83. Extracts a bit field, sign- or zero-extended. -/
  | bfe (p : Option Pfx) (d a b c : Sel) (pi : Bool) (pos wid : BitVec 7)
  /-- R83. Inserts a bit field of A into B. -/
  | bfi (p : Option Pfx) (d a b c : Sel) (pi : Bool) (pos wid : BitVec 7)
  /-- R85. Counts the one bits of the source. -/
  | popc (p : Option Pfx) (d a : Sel)
  /-- R85. Counts leading zero bits. -/
  | clz (p : Option Pfx) (d a : Sel)
  /-- R85. Counts trailing zero bits. -/
  | ctz (p : Option Pfx) (d a : Sel)
  /-- R85. Reverses the bit order of the source. -/
  | brev (p : Option Pfx) (d a : Sel)
  /-- R84. Builds each byte of D from an eight-byte pool under byte controls. -/
  | bshuf (p : Option Pfx) (d a b c : Sel)
  /-- R86. Compares two integers and writes a predicate. -/
  | cmp (p : Option Pfx) (q : BitVec 3) (cond : BitVec 4) (a b : Sel)
  /-- R86. Long I-form integer compare against the immediate. -/
  | cmpImm (p : Option Pfx) (q : BitVec 3) (cond : BitVec 4) (a b : Sel) (imm : BitVec 30)
  /-- R87. Selects A or B by a predicate. -/
  | sel (p : Option Pfx) (d a b : Sel) (n : Bool) (q : BitVec 3)
  /-- R88. Predicate and with optional operand negation. -/
  | pand (p : Option Pfx) (d : BitVec 3) (na : Bool) (a : BitVec 3) (nb : Bool) (b : BitVec 3)
  /-- R88. Predicate or. -/
  | por (p : Option Pfx) (d : BitVec 3) (na : Bool) (a : BitVec 3) (nb : Bool) (b : BitVec 3)
  /-- R88. Predicate exclusive or. -/
  | pxor (p : Option Pfx) (d : BitVec 3) (na : Bool) (a : BitVec 3) (nb : Bool) (b : BitVec 3)
  /-- R88. Predicate complement. -/
  | pnot (p : Option Pfx) (d : BitVec 3) (na : Bool) (a : BitVec 3)
  /-- R88. Predicate move with optional negation. -/
  | pmov (p : Option Pfx) (d : BitVec 3) (na : Bool) (a : BitVec 3)
  /-- R89. Writes each active lane a mask of lanes holding an equal value. -/
  | matchLanes (p : Option Pfx) (d a : Sel)
  /-- R108. Floating add rounded once through the result path. -/
  | fadd (p : Option Pfx) (d a b : Sel)
  /-- R108. Long I-form floating add. -/
  | faddImm (p : Option Pfx) (d a b : Sel) (imm : BitVec 30)
  /-- R108. Floating subtract. -/
  | fsub (p : Option Pfx) (d a b : Sel)
  /-- R108. Long I-form floating subtract. -/
  | fsubImm (p : Option Pfx) (d a b : Sel) (imm : BitVec 30)
  /-- R108. Floating multiply. -/
  | fmul (p : Option Pfx) (d a b : Sel)
  /-- R108. Long I-form floating multiply. -/
  | fmulImm (p : Option Pfx) (d a b : Sel) (imm : BitVec 30)
  /-- R108. Fused multiply-add with a single rounding. -/
  | fma (p : Option Pfx) (d a b c : Sel)
  /-- R109. Returns the smaller floating source with NaN rules. -/
  | fmin (p : Option Pfx) (d a b : Sel)
  /-- R109. Long I-form floating minimum. -/
  | fminImm (p : Option Pfx) (d a b : Sel) (imm : BitVec 30)
  /-- R109. Returns the larger floating source with NaN rules. -/
  | fmax (p : Option Pfx) (d a b : Sel)
  /-- R109. Long I-form floating maximum. -/
  | fmaxImm (p : Option Pfx) (d a b : Sel) (imm : BitVec 30)
  /-- R110. Clears the sign bit. -/
  | fabs (p : Option Pfx) (d a : Sel)
  /-- R110. Inverts the sign bit. -/
  | fneg (p : Option Pfx) (d a : Sel)
  /-- R111. Floating compare writing a predicate. -/
  | fcmp (p : Option Pfx) (q : BitVec 3) (cond : BitVec 4) (a b : Sel)
  /-- R111. Long I-form floating compare. -/
  | fcmpImm (p : Option Pfx) (q : BitVec 3) (cond : BitVec 4) (a b : Sel) (imm : BitVec 30)
  /-- R112. Writes a one-hot class mask of the source. -/
  | fclass (p : Option Pfx) (d a : Sel)
  /-- R113. Rounds to an integral value in the same format. -/
  | frint (p : Option Pfx) (d a : Sel)
  /-- R114. Starts a correctly rounded multi-cycle square root. -/
  | fsqrt (p : Option Pfx) (d a : Sel)
  /-- R115. Starts an approximate reciprocal. -/
  | frcp (p : Option Pfx) (d a : Sel)
  /-- R115. Starts an approximate reciprocal square root. -/
  | frsq (p : Option Pfx) (d a : Sel)
  /-- R108. Starts a correctly rounded multi-cycle division. -/
  | fdiv (p : Option Pfx) (d a b : Sel)
  /-- R108. Long I-form floating division. -/
  | fdivImm (p : Option Pfx) (d a b : Sel) (imm : BitVec 30)
  /-- R116. Multiplies A by two to the power B. -/
  | fscale (p : Option Pfx) (d a b : Sel)
  /-- R116. Long I-form scale by an immediate exponent. -/
  | fscaleImm (p : Option Pfx) (d a b : Sel) (imm : BitVec 30)
  /-- R117. Adds two packed half-precision pairs. -/
  | hadd2 (p : Option Pfx) (d a b : Sel)
  /-- R117. Packed binary16 fused multiply-add. -/
  | hfma2 (p : Option Pfx) (d a b c : Sel)
  /-- R117. Packed bfloat16 fused multiply-add. -/
  | bfma2 (p : Option Pfx) (d a b c : Sel)
  /-- R118. Two-element dot product with an f32 addend. -/
  | dot2 (p : Option Pfx) (d a b c : Sel)
  /-- R118. Four-element tapered dot product with an f32 addend. -/
  | dot4 (p : Option Pfx) (d a b c : Sel)
  /-- R120. Converts between the two types carried in the tail. -/
  | cvt (p : Option Pfx) (d a : Sel) (dt st : BitVec 4)
  /-- R121. Rounds two f32 values and packs them into one register. -/
  | pack (p : Option Pfx) (d a b : Sel)
  /-- R122. Converts one packed element, selected by a register, to f32. -/
  | unpack (p : Option Pfx) (d a b : Sel)
  /-- R122. Long I-form unpack with an immediate element index. -/
  | unpackImm (p : Option Pfx) (d a b : Sel) (imm : BitVec 30)
  /-- R124. Decodes one packed tapered element to f32. -/
  | tdec (p : Option Pfx) (d a : Sel) (e : BitVec 2)
  /-- R125. Encodes an f32 value into one tapered element of a copy of B. -/
  | tenc (p : Option Pfx) (d a b : Sel) (e : BitVec 2)
  /-- R126. Applies one block scale to each lane's value. -/
  | qscale (p : Option Pfx) (d a b : Sel) (neg : Bool) (bsel : BitVec 2)
  /-- R127. Starts a sine evaluation in the special-function unit. -/
  | sin (p : Option Pfx) (d a : Sel)
  /-- R127. Starts a cosine evaluation. -/
  | cos (p : Option Pfx) (d a : Sel)
  /-- R127. Starts a base-2 exponential. -/
  | fexp2 (p : Option Pfx) (d a : Sel)
  /-- R127. Starts a base-2 logarithm. -/
  | flog2 (p : Option Pfx) (d a : Sel)
  /-- R127. Starts a hyperbolic tangent. -/
  | tanh (p : Option Pfx) (d a : Sel)
  /-- R127. Starts a logistic sigmoid. -/
  | sig (p : Option Pfx) (d a : Sel)
  /-- R132. Reads a value from an absolute lane of the segment. -/
  | shfl (p : Option Pfx) (d a b c : Sel) (mk wr : Bool) (seg : BitVec 3) (ii : Bool) (idx : BitVec 6)
  /-- R132. Reads a value from a relative lane of the segment. -/
  | shflRel (p : Option Pfx) (d a b c : Sel) (mk wr : Bool) (seg : BitVec 3) (ii : Bool) (idx : BitVec 6)
  /-- R132. Reads a value from the lane at index xor idx. -/
  | shflXor (p : Option Pfx) (d a b c : Sel) (mk wr : Bool) (seg : BitVec 3) (ii : Bool) (idx : BitVec 6)
  /-- R133. Broadcasts one lane's value to every active lane. -/
  | bcast (p : Option Pfx) (d a c : Sel) (mk : Bool) (lsel : BitVec 2) (lane : BitVec 5)
  /-- R134. Computes a ballot, any, all, uniform or count of a predicate. -/
  | vote (p : Option Pfx) (d : Sel) (na : Bool) (a : BitVec 3) (c : Sel) (mk : Bool) (op : BitVec 3)
  /-- R135. Performs one butterfly reduction step across lanes. -/
  | lred (p : Option Pfx) (d a c : Sel) (mk : Bool) (op k : BitVec 3)
  /-- R141. Loads from memory into each active lane, marking the destination empty. -/
  | ld (p : Option Pfx) (d a b : Sel)
  /-- R141. Long M-form load with offset, cache class and index scale. -/
  | ldOfs (p : Option Pfx) (d a b : Sel) (ofs : BitVec 24) (cl : BitVec 2) (sx : Bool) (sh : BitVec 3)
  /-- R141. Stores each active lane's value to memory. -/
  | st (p : Option Pfx) (d a b : Sel)
  /-- R141. Long M-form store. -/
  | stOfs (p : Option Pfx) (d a b : Sel) (ofs : BitVec 24) (cl : BitVec 2) (sx : Bool) (sh : BitVec 3)
  /-- R141. Loads from the cohort's scratchpad. -/
  | ldsp (p : Option Pfx) (d a b : Sel)
  /-- R141. Long M-form scratchpad load. -/
  | ldspOfs (p : Option Pfx) (d a b : Sel) (ofs : BitVec 24) (cl : BitVec 2) (sx : Bool) (sh : BitVec 3)
  /-- R141. Stores to the cohort's scratchpad. -/
  | stsp (p : Option Pfx) (d a b : Sel)
  /-- R141. Long M-form scratchpad store. -/
  | stspOfs (p : Option Pfx) (d a b : Sel) (ofs : BitVec 24) (cl : BitVec 2) (sx : Bool) (sh : BitVec 3)
  /-- R145. Loads through the non-coherent constant cache. -/
  | ldc (p : Option Pfx) (d a b : Sel)
  /-- R145. Long M-form constant load. -/
  | ldcOfs (p : Option Pfx) (d a b : Sel) (ofs : BitVec 24) (cl : BitVec 2) (sx : Bool) (sh : BitVec 3)
  /-- R146. Loads into a load-completion queue entry. -/
  | ldq (p : Option Pfx) (d a b : Sel)
  /-- R146. Long M-form queued load. -/
  | ldqOfs (p : Option Pfx) (d a b : Sel) (ofs : BitVec 24) (cl : BitVec 2) (sx : Bool) (sh : BitVec 3)
  /-- R147. Requests lines into a cache level without effect on values. -/
  | pref (p : Option Pfx) (a b : Sel)
  /-- R147. Long M-form prefetch selecting the level filled. -/
  | prefOfs (p : Option Pfx) (a b : Sel) (ofs : BitVec 24) (cl : BitVec 2) (sx : Bool) (sh : BitVec 3)
  /-- R150. Indivisible read-modify-write returning the old value. -/
  | atom (p : Option Pfx) (d a b c : Sel) (op : BitVec 4) (sp : Bool)
  /-- R150. Indivisible read-modify-write returning the new value. -/
  | atomr (p : Option Pfx) (d a b c : Sel) (op : BitVec 4) (sp : Bool)
  /-- R150. Indivisible read-modify-write returning nothing. -/
  | red (p : Option Pfx) (a b : Sel) (op : BitVec 4) (sp : Bool)
  /-- R152. Orders the thread's accesses against its engine commands. -/
  | fenceEng (p : Option Pfx)
  /-- R152. Waits for the thread's NC accesses and host writes to complete at the host. -/
  | fenceSys (p : Option Pfx)
  /-- R153. Writes modified copies of each named line back to memory. -/
  | cflush (p : Option Pfx) (a b : Sel)
  /-- R153. Long M-form cache flush. -/
  | cflushOfs (p : Option Pfx) (a b : Sel) (ofs : BitVec 24) (cl : BitVec 2) (sx : Bool) (sh : BitVec 3)
  /-- R153. Drops cluster and remote copies of each named line. -/
  | cinval (p : Option Pfx) (a b : Sel)
  /-- R153. Long M-form cache invalidate. -/
  | cinvalOfs (p : Option Pfx) (a b : Sel) (ofs : BitVec 24) (cl : BitVec 2) (sx : Bool) (sh : BitVec 3)
  /-- R163. Binds a stream port to a strided pattern. -/
  | spat (p : Option Pfx) (d a b c : Sel) (dir : BitVec 2) (sp : Bool) (ety : BitVec 4) (rowlen : BitVec 12)
  /-- R165. Unbinds a stream port. -/
  | sfree (p : Option Pfx) (a : Sel)
  /-- R155. Binds a queue register to a kind and target and returns a status. -/
  | qbind (p : Option Pfx) (d a c : Sel) (kind : BitVec 4) (sig trapq : Bool)
  /-- R161. Non-blocking pop or push reporting success in a predicate. -/
  | qtry (p : Option Pfx) (d a : Sel) (q : BitVec 3)
  /-- R162. Writes the state of a queue binding without consuming. -/
  | qstat (p : Option Pfx) (d a : Sel)
  /-- R91. Uniform branch, splitting the group if the predicate diverges. -/
  | bra (ce n : Bool) (q : BitVec 3) (imm : BitVec 30)
  /-- R92. Divergent branch pushing a join entry. -/
  | brd (n : Bool) (q : BitVec 3) (tgt join : BitVec 15)
  /-- R93. Arrives at the top divergence entry or acts as nop. -/
  | join
  /-- R95. Files depth-zero threads into bins keyed by continuation address. -/
  | reform
  /-- R96. Writes the link and transfers to the target. -/
  | call (d : Sel) (imm : BitVec 30)
  /-- R96. Returns to a 64-bit address held in a register. -/
  | ret (a : Sel)
  /-- R96. Jumps to a 64-bit address held in a register. -/
  | jmp (a : Sel)
  /-- R97. Pushes a counted loop entry onto the loop stack. -/
  | loop (a : Sel) (stop : BitVec 14) (ci : Bool) (icount : BitVec 15)
  /-- R100. Pops the top loop entry and leaves its body. -/
  | lbrk
  /-- R102. Ends the thread and records its index as completed. -/
  | exit
  /-- R103. Raises SYSCALL with a 21-bit code. -/
  | trap (code : BitVec 21)
  /-- R103. Raises BREAK with a 21-bit code. -/
  | brk (code : BitVec 21)
  /-- R104. Does nothing. -/
  | nop
  /-- R169. Pushes a copy-engine command read from scratchpad. -/
  | cpy (p : Option Pfx) (d a : Sel) (tag : BitVec 8) (evt outq acq rel : Bool) (scope : BitVec 3) (ba : Bool) (barr : BitVec 4)
  /-- R169. Pushes a gather-engine command read from scratchpad. -/
  | gath (p : Option Pfx) (d a : Sel) (tag : BitVec 8) (evt outq acq rel : Bool) (scope : BitVec 3) (ba : Bool) (barr : BitVec 4)
  /-- R169. Pushes a collective-engine command read from scratchpad. -/
  | coll (p : Option Pfx) (d a : Sel) (tag : BitVec 8) (evt outq acq rel : Bool) (scope : BitVec 3) (ba : Bool) (barr : BitVec 4)
  /-- R174. Loads a 64-byte matrix descriptor into mdN. -/
  | mdesc (p : Option Pfx) (md : BitVec 3) (a : Sel) (sp : Bool)
  /-- R175. Signs a convergence round without naming a descriptor. -/
  | msign (p : Option Pfx) (cv : BitVec 3)
  /-- R175. Signs a convergence round naming a matrix descriptor. -/
  | mma (p : Option Pfx) (md cv : BitVec 3) (evt acq rel : Bool) (scope : BitVec 3)
  /-- R177. Queues one matrix operation per issue under compatibility mode. -/
  | mmaElect (p : Option Pfx) (md : BitVec 3) (evt acq rel : Bool) (scope : BitVec 3)
  /-- R179. Puts the accumulator tile's lines into accumulator state at +0. -/
  | maccInit (p : Option Pfx) (d : Sel) (md : BitVec 3)
  /-- R180. Converts and writes the shadow accumulator tile to memory. -/
  | maccFlush (p : Option Pfx) (d a : Sel) (md : BitVec 3) (keep evt : Bool) (scope : BitVec 3)
  /-- R181. Writes the sub-partition's MROW progress register. -/
  | mrow (p : Option Pfx) (d : Sel)
  /-- R181. Waits for the cohort's operations on a descriptor and then writes MROW. -/
  | mrowWait (p : Option Pfx) (d : Sel) (md : BitVec 3)
  /-- R183. Requests a named tile into scratchpad. -/
  | nwant (p : Option Pfx) (d a b : Sel)
  /-- R184. Offers a tile from memory to its name's home slice. -/
  | noffer (p : Option Pfx) (d a b : Sel)
  /-- R185. Closes iterations of a tensor up to a register-given iteration. -/
  | nclose (p : Option Pfx) (a b : Sel)
  /-- R185. Long I-form iteration close. -/
  | ncloseImm (p : Option Pfx) (a b : Sel) (imm : BitVec 30)
  /-- R185. Sets the thread's interest lifetime from a register. -/
  | nlife (p : Option Pfx) (a : Sel)
  /-- R185. Long I-form interest lifetime set. -/
  | nlifeImm (p : Option Pfx) (a : Sel) (imm : BitVec 30)
  /-- R186. Registers a landing buffer for a landing port. -/
  | mland (p : Option Pfx) (d a b : Sel) (port : BitVec 3) (ba : Bool) (barr : BitVec 4)
  /-- R188. Ends the prologue, captures the ewe and stamps lambs. -/
  | freeze
  /-- R189. A control lamb captures a child ewe and redirects index sources to a child range. -/
  | freezeNested (a : Sel)
  /-- R194. Completes the lamb's index and takes the next one or retires. -/
  | next
  /-- R195. Sets a convergence register to a fresh state from a crew mask. -/
  | convInit (cv : BitVec 3) (a : Sel)
  /-- R195. Long I-form convergence initialisation. -/
  | convInitImm (cv : BitVec 3) (a : Sel) (imm : BitVec 30)
  /-- R196. Initialises a phase-bit barrier with count and member crews. -/
  | barrInit (k : BitVec 4) (a b : Sel)
  /-- R196. Long I-form barrier initialisation. -/
  | barrInitImm (k : BitVec 4) (a b : Sel) (imm : BitVec 30)
  /-- R196. Adds each active thread's arrival to a barrier. -/
  | barrArrive (k : BitVec 4)
  /-- R197. Blocks until the barrier's phase differs from the operand. -/
  | barrWait (k : BitVec 4) (a : Sel)
  /-- R197. Long I-form barrier wait. -/
  | barrWaitImm (k : BitVec 4) (a : Sel) (imm : BitVec 30)
  /-- R197. Writes a predicate telling whether the phase differs. -/
  | barrTest (q : BitVec 3) (a : Sel) (k : BitVec 4)
  /-- R197. Long I-form barrier test. -/
  | barrTestImm (q : BitVec 3) (a : Sel) (k : BitVec 4) (imm : BitVec 30)
  /-- R199. Reads a special register. -/
  | movs (d a : Sel)
  /-- R199. Writes a special register. -/
  | mtsr (d a : Sel)
  /-- R201. Sets the register window base from a register. -/
  | wbase (a : Sel)
  /-- R201. Long I-form window base set. -/
  | wbaseImm (a : Sel) (imm : BitVec 30)
  /-- R193. Releases the crew's physical registers of a slot range. -/
  | rfree (a b : Sel)
  /-- R202. Enters a region and captures restart state. -/
  | region (i : BitVec 12)
  /-- R203. Posts a power request to the host policy ring. -/
  | preq (d a b c : Sel)
  /-- R204. Asks for a boosted lane point, costed against the life budget. -/
  | boost (d a : Sel)
  /-- R205. Calls a device service such as launch or query. -/
  | sysc (d a b : Sel)
  /-- R205. Long I-form service call with an immediate service number. -/
  | syscImm (d a b : Sel) (imm : BitVec 30)
  /-- R207. Returns from a trap handler by reloading the newest frame. -/
  | tret
  /-- R208. Ends the grid with a halt code. -/
  | halt (a : Sel)
  /-- R209. Appends a mark event to the black box. -/
  | tmark (a : Sel)
  /-- R209. Long I-form black-box mark. -/
  | tmarkImm (a : Sel) (imm : BitVec 30)
  /-- R210. Starts a direct copy from memory into scratchpad arriving at a barrier. -/
  | bload (a b c : Sel) (barr : BitVec 4)
  /-- R35. Issue of a word that forms no assigned instruction (unassigned slot or form, orphan tail, head without tail, prefix before a group 5 or 7 word, prefix or tail) raises ILLEGAL_OP or ORPHAN_PREFIX. -/
  | illegalOp (w : BadWords)
  /-- R241. A bin whose age reaches BINAGE becomes drawable as aged. -/
  | binAgeExpiry (ci sp bin : Nat)
  /-- R144. Returned load data is written and the destination set full. -/
  | loadComplete (co id : Nat)
  /-- R78. A division or remainder result is written and set full. -/
  | divRemComplete (co id : Nat)
  /-- R107. A multi-cycle floating or special-function result is written and set full. -/
  | multicycleComplete (co id : Nat)
  /-- R159. A blocked push exceeds CLU_QSTALL_LIM and traps. -/
  | queueStall (co g : Nat)
  /-- R171. The copy engine starts a copy command moving rows. -/
  | copy (id : Nat)
  /-- R172. The copy engine starts an AES-GCM decrypting copy through quarantine. -/
  | decryptingCopy (id : Nat)
  /-- R171. The gather engine starts an indexed gather or scatter. -/
  | gather (id : Nat)
  /-- R171. The collective engine starts a reduction or exchange with a group. -/
  | collective (id : Nat) (peers : List (List DWord)) (tagFail : Bool)
  /-- R169. A signal-class command waits for earlier commands of the cohort on its engine. -/
  | signal (id : Nat)
  /-- R173. A finished command posts completion records and barrier arrivals. -/
  | engineCommandComplete (id : Nat)
  /-- R178. A matrix unit starts its head queued operation, loading K rows. -/
  | matrixOperation (ci sp : Nat)
  /-- R178. The last partial is added and the operation posts its record. -/
  | matrixOperationComplete (ci sp : Nat)
  /-- R71. A slice adds an arriving partial into a shadow accumulator element. -/
  | slicePartialAdd (id : Nat)
  /-- R158. A message reaches a receive port, buffered or dropped as stray. -/
  | messageArrive (id : Nat)
  /-- R186. A multicast copy fills a landing slot or is dropped. -/
  | multicastDelivery (id ci : Nat)
  /-- R267. All destinations accepted or dropped; credit returns and failures are reported. -/
  | multicastSendComplete (id : Nat)
  /-- R210. Bytes of a bload land in scratchpad and arrive at the barrier. -/
  | bloadLand (id line : Nat)
  /-- R270. An interest reaches the home slice and is recorded or served. -/
  | interestRecord (id : Nat)
  /-- R271. A returned tile is written to requesting clusters and entries pushed. -/
  | tileReturn (id : Nat)
  /-- R272. An interest's deadline falls and merged requests complete EXPIRED. -/
  | interestDeadline (name : DWord)
  /-- R189. A parent resumes once its child range is exhausted. -/
  | nestedFreezeResume (co : Nat)
  /-- R226. The hang watchdog count reaches CLU_HANG_LIM and a hang is reported. -/
  | hangReport (ci : Nat)
  /-- R221. The droop detector fires, stretching lane cycles and halving issue. -/
  | droopFire (ci : Nat) (peak : BitVec 8)
  /-- R221. The six stretched lane cycles end. -/
  | droopStretchEnd (ci : Nat)
  /-- R221. The 64 front-end cycles of halved issue run out. -/
  | halvedIssueEnd (ci : Nat)
  /-- R223. The lane clock switches synthesisers with a gap. -/
  | clockHop (ci : Nat)
  /-- R223. The new source's first edge ends the hop and any hold. -/
  | hopComplete (ci : Nat)
  /-- R212. Privileged write of the front-end issue RATE. -/
  | cluClkWrite (ci : Nat) (v : Word)
  /-- R220. Writes droop enable and a clamped threshold. -/
  | drpCtlWrite (ci : Nat) (v : Word)
  /-- R280. Doorbell write that exposes new launch records to the launcher. -/
  | lchQtailWrite (fn q : Nat) (v : BitVec 16)
  /-- R279. Configures a launch queue, dropped if invalid. -/
  | lchQcfgWrite (q : Nat) (v : Word)
  /-- R280. The launcher reads a record, assigns a sequence number and advances HEAD. -/
  | launchAccept (q : Nat)
  /-- R283. A record starts once all its waited launches have completed. -/
  | launchStart (seq : Nat)
  /-- R287. The launcher places a cohort on an eligible cluster. -/
  | placeCohort (seq : Nat)
  /-- R231. An ending cohort retires once its commands and operations complete. -/
  | cohortRetire (co : Nat)
  /-- R284. The launcher writes the grid's completion record. -/
  | gridComplete (seq : Nat)
  /-- R289. A victim cohort is asked to yield and idempotent threads are discarded. -/
  | yieldRequest (co seq : Nat)
  /-- R289. A drain thread passes its limit and raises REGION_VIOLATION. -/
  | drainLimitExpiry (co key : Nat)
  /-- R290. With no thread running, the cohort's state is saved and resources released. -/
  | yieldSave (co : Nat)
  /-- R297. XLT_FQ_RESP replay makes parked agents translate again. -/
  | faultReplay (ctx page : Nat)
  /-- R297. XLT_FQ_RESP decline ends the context. -/
  | faultDecline (ctx page : Nat)
  /-- R298. XLT_CMD op 1 drops every TLB entry of a context. -/
  | invalidateContext (ctx : Nat)
  /-- R298. XLT_CMD op 2 drops entries of one page. -/
  | invalidatePage (ctx page : Nat)
  /-- R298. XLT_CMD op 3 drops every TLB entry. -/
  | invalidateAll
  /-- R260. XLT_CMD op 4 migrates a page to a new physical base. -/
  | migratePage (ctx page : Nat)
  /-- R298. XLT_CMD op 5 ends a context with TEARDOWN. -/
  | teardown (ctx : Nat)
  /-- R298. A running translation command finishes and reports status. -/
  | xltCmdComplete
  /-- R301. A write to the lower 96 bits of a 128-bit register goes to staging. -/
  | reg128StagingWrite (r : Reg128) (word : Nat) (wide : Bool) (v : DWord)
  /-- R301. A read of the low part latches the upper 96 bits. -/
  | reg128LowRead (r : Reg128)
  /-- R268. Committing a name routing entry updates every die's copy. -/
  | nrtEntWrite (i : Nat) (wide : Bool) (v : DWord)
  /-- R314. Committing a collective group entry clears ATT and starts attestation. -/
  | fabCgrpWrite (g : Nat) (wide : Bool) (v : DWord) (reports : List SwitchReport)
  /-- R315. Writing the switch reference list re-attests every valid group. -/
  | mcSwrefWrite (v : DWord) (reports : List (Nat × List SwitchReport))
  /-- R315. A switch failing or closing its session clears ATT of its groups. -/
  | switchSessionClose (ident : Digest)
  /-- R306. Assigns sub-partitions to worlds, zeroing on change. -/
  | secSpWorldWrite (ci : Nat) (v : Word)
  /-- R306. Reassigns slice ways to worlds after write-back. -/
  | slcWaymapWrite (die : Nat) (v : DWord)
  /-- R304. Moves a TDI to CONFIG_LOCKED and draws a seal key. -/
  | lockInterfaceRequest (n : Nat)
  /-- R304. Moves a locked TDI to RUN. -/
  | startInterfaceRequest (n : Nat)
  /-- R304. Returns a TDI to CONFIG_UNLOCKED, ending contexts and zeroing resources. -/
  | stopInterfaceRequest (n : Nat)
  /-- R303. A MAC check or counter failure makes a stream insecure and TDIs ERROR. -/
  | ideFailure (stream : Option Nat)
  /-- R310. A host CXL.mem or BAR2 read of device memory. -/
  | hostMemoryRead (pa len : Nat)
  /-- R310. A host CXL.mem or BAR2 write of device memory. -/
  | hostMemoryWrite (pa : Nat) (bytes : List Byte)
  /-- R305. SPDM request answered by the responder. -/
  | getVersion
  /-- R305. SPDM capabilities request. -/
  | getCapabilities
  /-- R305. SPDM algorithm negotiation. -/
  | negotiateAlgorithms
  /-- R305. SPDM certificate digest request. -/
  | getDigests
  /-- R305. SPDM certificate request. -/
  | getCertificate
  /-- R305. SPDM challenge request. -/
  | challenge (nonce : Digest)
  /-- R305. SPDM measurement request. -/
  | getMeasurements (nonce : Digest)
  /-- R305. SPDM session key exchange. -/
  | keyExchange (fn : Nat)
  /-- R305. SPDM session establishment finish. -/
  | finish (sess : Nat)
  /-- R305. SPDM session key update. -/
  | keyUpdate (sess : Nat)
  /-- R305. SPDM session heartbeat. -/
  | heartbeat (sess : Nat)
  /-- R305. Ends an SPDM session. -/
  | endSession (sess : Nat)
  /-- R311. Loads a key into a free slot for a context and resets LastCtr. -/
  | keySet (sess slot world ctx : Nat) (key : Digest)
  /-- R311. Clears and zeroes a key slot. -/
  | keyClear (sess slot : Nat)
  /-- R316. MC_EVREQ GO makes the controller write a signed evidence record. -/
  | jobEvidenceRequest (v : Word)
  /-- R313. Each 1 ms the port health is sampled and compared with alarms. -/
  | portHealthSample (port : Nat) (eye : BitVec 8) (cfr : BitVec 24) (ttf : Word)
  /-- R313. A port reaching the failure level finishes retraining and DOWN clears. -/
  | linkRetrainComplete (port : Nat)
  /-- R261. An idle array enters low-voltage retention. -/
  | retentionEntry (arr : RetArray)
  /-- R261. An array in retention exits for a waiting access. -/
  | retentionExit (arr : RetArray) (waited : Nat)
  /-- R321. Commands an island voltage or gate, checked against the pair. -/
  | pwrIslVsetWrite (die isl : Nat) (v : Word)
  /-- R321. Commands a lane island frequency, checked against the pair. -/
  | pwrIslFsetWrite (die isl : Nat) (v : Word)
  /-- R322. The idle synthesiser locks and a pending hop may proceed. -/
  | synthLockComplete (die isl : Nat)
  /-- R322. Each 1 µs the island voltage moves one step toward its target. -/
  | voltageStep (die isl : Nat)
  /-- R323. Stage registers are refreshed at each 1 ms boundary. -/
  | stageTelemetryRefresh (vi0 te0 vi1 te1 : DWord)
  /-- R324. PWR_ISL_TEL is refreshed every 10 µs. -/
  | islandTelemetryRefresh (die isl : Nat) (v : DWord)
  /-- R325. CLU_ISSUE_STALL is rewritten at the end of each 10 µs window. -/
  | stallWindow (ci : Nat)
  /-- R327. Every 1 ms the controller sets MSHARE and recomputes limits and energy: the bytes read from and written to the
  stacks, and whether the host has installed a policy table, or removed it, in the interval. -/
  | powerBoundary (read written : Nat) (table : Option Bool)
  /-- R328. A 10 µs memory-rail sample clamps or relaxes stack command rate. -/
  | memoryRailSample (watts : Nat)
  /-- R329. A 10 µs die power sample steps the boiling-limit clamp. -/
  | diePowerSample (die : Nat)
  /-- R317. An island at 100 °C or more drops to minimum frequency. -/
  | thermalClampStart (die isl : Nat) (temp : BitVec 12)
  /-- R317. An island at 110 °C or more stops its clocks. -/
  | thermalTrip (die isl : Nat) (temp : BitVec 12)
  /-- R317. Temperature at 95 °C or less ends the clamp or trip. -/
  | thermalRecover (die isl : Nat) (temp : BitVec 12)
  /-- R332. A boost's duration ends and ceiling enforcement applies. -/
  | boostEnd (die isl : Nat)
  /-- R331. A PWR_PQ_RESP write answers a ticket and posts a record. -/
  | policyAnswer (v : DWord)
  /-- R346. Each 1 ms wear records, allowance and rotation are updated. -/
  | wearBoundary (activity : List (Nat × Nat))
  /-- R365. The update publishes its results and commits them to MRAM. -/
  | wearUpdateComplete
  /-- R348. A pending cluster with no resident crew begins its rest. -/
  | restStart (ci : Nat)
  /-- R348. After RLEN ms the cluster returns to active and ramps up. -/
  | restEnd (ci : Nat)
  /-- R354. WEAR_RPT GO writes a signed wear report. -/
  | wearReport (v : DWord)
  /-- R360. Writing BBX_CTL.COMMIT forces a black-box commit. -/
  | bbxCommitRequest (v : DWord)
  /-- R360. BBX_CTL GO dumps a slot or the live ring to memory. -/
  | bbxDump (v : DWord)
  /-- R360. The 50 V input falls below 40 V. -/
  | inputUndervoltage
  /-- R360. The management controller's watchdog expires. -/
  | mcWatchdogExpiry
  /-- R361. Boot ROM checks firmware, measures, loads records and zeroes memory. -/
  | powerOn (fwOk stacksOk : Bool)
  /-- R364. HST_RESET with key, conventional reset or PF0 FLR resets the package. -/
  | packageReset (cause : ResetCause) (fwOk stacksOk : Bool)
  /-- R364. An FLR of VF n ends world n's contexts and zeroes its lines. -/
  | vfFlr (n : Nat)
  /-- R363. MC_SPARE_CALL kind 0 starts replacing a cluster by its spare. -/
  | clusterSpareCall (v : Word)
  /-- R363. With no crew resident, the island is switched to the spare and remap written. -/
  | clusterSpareSwitch
  /-- R363. MC_SPARE_CALL kind 1 copies a slice into a spare and remaps it. -/
  | sliceSpareCall (v : Word)
  /-- R8. A read of an RC counter returns and clears it. -/
  | rcRead (r : RcReg) (i : Nat)
  /-- R8. A write to a register with no behaviour of its own. -/
  | registerWrite (r : RwReg) (i : Nat) (v : DWord)
  /-- R180. A macc.flush finishes its last write, its lines leave accumulator state, its status destination becomes full as a release, and its SOURCE 4 record is posted. -/
  | flushComplete (co id : Nat)
  /-- R168. The status destination of a qbind, macc.init, noffer or mland becomes full once the binding, initialisation, tile read or registration has been made or refused. -/
  | statusDestinationFull (co id : Nat)
  /-- R220. A fired droop detector becomes able to fire again once the island's shortfall falls to THR − 2 mV or below. -/
  | droopRearm (ci : Nat)
  /-- R360. An uncorrectable error in the hub or the MRAM is a fatal event that commits the black box. -/
  | hubUncorrectableError (mram : Bool)
  /-- R360. A black-box commit ends: COMMIT clears, BBX_SEQ rises, and a further commit owed to a fatal event during it starts. -/
  | blackBoxCommitComplete
  deriving DecidableEq, Repr

end Sys2Proof
end

