-- ==== Sys2Proof/Machine/Types.lean ====
section
/-!
DEFINITION. Element types, rounding modes, trap codes, statuses and the small number helpers every
instruction family shares.
-/

namespace Sys2Proof.Machine

/-- Element types (R23, R47, R48, R51). -/
inductive Ety where
  | s8 | s16 | s32 | s64 | n8 | n16 | n32 | n64 | b32 | b64
  | f16 | bf16 | f32 | f64 | a48 | t8 | t6
  deriving DecidableEq, Repr

/-- Rounding modes (R58). -/
inductive Rnd where
  | rne | rtz | rdn | rup | rna
  deriving DecidableEq, Repr

/-- Trap codes (R44). -/
inductive Trap where
  | illegalOp | orphanPrefix | misalignedTarget | reservedField | privilege
  | emptyRead | queueStall | copyFault | templateWrite | maskSelf | divOverflow | loopOverflow
  | pageFault | accessFault | worldFault | alignFault | poison | integrityFault
  | barrierUnreachable | neverProduced | interestExpired | regionViolation
  | fpTrap | intDivzero | brk | syscall
  deriving DecidableEq, Repr

/-- The code a trap frame records (R44). -/
def Trap.code : Trap → Nat
  | .illegalOp => 0x01 | .orphanPrefix => 0x02 | .misalignedTarget => 0x03 | .reservedField => 0x04
  | .privilege => 0x05 | .emptyRead => 0x08 | .queueStall => 0x09 | .copyFault => 0x0A
  | .templateWrite => 0x0B | .maskSelf => 0x0C | .divOverflow => 0x0D | .loopOverflow => 0x0E
  | .pageFault => 0x10 | .accessFault => 0x11 | .worldFault => 0x12 | .alignFault => 0x13
  | .poison => 0x14 | .integrityFault => 0x15 | .barrierUnreachable => 0x18 | .neverProduced => 0x19
  | .interestExpired => 0x1A | .regionViolation => 0x1C | .fpTrap => 0x20 | .intDivzero => 0x21
  | .brk => 0x30 | .syscall => 0x31

/-- Statuses returned in a register (R46). -/
inductive Status where
  | ok | busy | refused | vfloor | vceil | tagfail | ivReuse | partialDone | expired
  deriving DecidableEq, Repr

/-- The value of a status (R46). -/
def Status.code : Status → Nat
  | .ok => 0 | .busy => 1 | .refused => 2 | .vfloor => 3 | .vceil => 4 | .tagfail => 5
  | .ivReuse => 6 | .partialDone => 7 | .expired => 8

/-- Bits `lo + n - 1 : lo` of a number. -/
def bits (x lo n : Nat) : Nat := x / 2 ^ lo % 2 ^ n

/-- Bit `k` of a number. -/
def bit (x k : Nat) : Bool := x / 2 ^ k % 2 == 1

/-- A number with bits `lo + n - 1 : lo` replaced. -/
def setBits (x lo n v : Nat) : Nat :=
  x / 2 ^ (lo + n) * 2 ^ (lo + n) + v % 2 ^ n * 2 ^ lo + x % 2 ^ lo

/-- The low `w` bits of a number read as two's complement (R47). -/
def toSigned (w x : Nat) : Int :=
  if x % 2 ^ w < 2 ^ (w - 1) then (x % 2 ^ w : Nat) else (x % 2 ^ w : Nat) - (2 ^ w : Nat)

/-- `x` modulo `2 ^ w` (R74). -/
def wrapNat (w : Nat) (x : Int) : Nat := (x % (2 ^ w : Nat)).toNat

/-- The width of a type (R47, R48, R51). -/
def Ety.width : Ety → Nat
  | .s8 | .n8 | .t8 => 8
  | .s16 | .n16 | .f16 | .bf16 => 16
  | .s32 | .n32 | .b32 | .f32 => 32
  | .s64 | .n64 | .b64 | .f64 => 64
  | .a48 => 48
  | .t6 => 6

/-- A type whose register operand is a pair (R27, R49). -/
def Ety.isPair : Ety → Bool
  | .s64 | .n64 | .b64 | .f64 | .a48 => true
  | _ => false

/-- The s-types (R47). -/
def Ety.isS : Ety → Bool
  | .s8 | .s16 | .s32 | .s64 => true
  | _ => false

/-- The n-types (R47). -/
def Ety.isN : Ety → Bool
  | .n8 | .n16 | .n32 | .n64 => true
  | _ => false

/-- The raw-bit types (R47). -/
def Ety.isB : Ety → Bool
  | .b32 | .b64 => true
  | _ => false

/-- The floating formats of R48. -/
def Ety.isF : Ety → Bool
  | .f16 | .bf16 | .f32 | .f64 | .a48 => true
  | _ => false

/-- The tapered formats (R51). -/
def Ety.isT : Ety → Bool
  | .t8 | .t6 => true
  | _ => false

/-- The width at which an instruction reads or writes an element operand of a type (R31): 64 for a
pair; a tapered scalar occupies a byte of a stream (R55). -/
def Ety.opWidth : Ety → Nat
  | .a48 => 64
  | .t6 => 8
  | t => t.width

/-- Type codes of groups 0, 1 and 4 (R23); `none` for a code not assigned. -/
def tyInt : Nat → Option Ety
  | 1 => some .s8 | 2 => some .s16 | 3 => some .s32 | 4 => some .s64
  | 5 => some .n8 | 6 => some .n16 | 7 => some .n32 | 8 => some .n64
  | 9 => some .b32 | 10 => some .b64
  | _ => none

/-- Type codes of groups 2, 3 and 6 (R23); `none` for a code not assigned. -/
def tyFloat : Nat → Option Ety
  | 1 => some .f16 | 2 => some .bf16 | 3 => some .f32 | 4 => some .f64
  | 5 => some .t8 | 6 => some .t6 | 7 => some .a48 | 8 => some .b32 | 9 => some .b64
  | 10 => some .s32 | 11 => some .n32 | 12 => some .s64 | 13 => some .n64
  | _ => none

/-- The rounding mode of an RND or MODE code (R18, R58); `none` for a reserved code. -/
def rndOf : Nat → Option Rnd
  | 1 => some .rne | 2 => some .rtz | 3 => some .rdn | 4 => some .rup | 5 => some .rna
  | _ => none

/-- A value of a type's width as it stands in a register (R47, R49, R55): 8- and 16-bit s-types are
sign-extended to 32 bits, everything else zero-extended. -/
def Ety.toReg (t : Ety) (x : Nat) : Nat :=
  if t.isS ∧ t.width < 32 then wrapNat 32 (toSigned t.width x) else x % 2 ^ t.width

/-- The clamp bounds of an integer type (R63). -/
def Ety.bounds (t : Ety) : Int × Int :=
  if t.isS then (-(2 ^ (t.width - 1) : Nat), (2 ^ (t.width - 1) : Nat) - 1)
  else (0, (2 ^ t.width : Nat) - 1)

/-- The number a value of an integer type stands for (R47). -/
def Ety.num (t : Ety) (x : Nat) : Int := if t.isS then toSigned t.width x else (x % 2 ^ t.width : Nat)

/-- `Wrap(x, type)` (R74). -/
def Ety.wrap (t : Ety) (x : Int) : Nat := wrapNat t.width x

/-- `Sat(x, type)` for an integer type (R63, R74). -/
def Ety.sat (t : Ety) (x : Int) : Nat :=
  wrapNat t.width (if x < t.bounds.1 then t.bounds.1 else if t.bounds.2 < x then t.bounds.2 else x)

/-- The immediate as an operand of a type (R30). -/
def Ety.ext (t : Ety) (imm : BitVec 30) : Nat :=
  match t with
  | .f32 => imm.toNat * 2 ^ 2
  | .f64 => imm.toNat * 2 ^ 34
  | .a48 => imm.toNat * 2 ^ 18
  | .f16 | .bf16 => imm.toNat % 2 ^ 16
  | .t8 => imm.toNat % 2 ^ 8
  | .t6 => imm.toNat % 2 ^ 6
  | _ => wrapNat t.width imm.toInt

/-- The bits of IMM that R30 requires to be zero are zero. -/
def Ety.extOk (t : Ety) (imm : BitVec 30) : Bool :=
  match t with
  | .f16 | .bf16 => imm.toNat < 2 ^ 16
  | .t8 => imm.toNat < 2 ^ 8
  | .t6 => imm.toNat < 2 ^ 6
  | _ => true

end Sys2Proof.Machine
end

