-- ==== Sys2Proof/Machine/Float.lean ====
section
/-!
DEFINITION. Floating and tapered number formats, rounding and the exceptions it raises (R48 to R54,
R58, R60, R63, R65).
-/

namespace Sys2Proof.Machine

/-- Exception flags in the layout of FLAGS (R60). -/
abbrev Fl := BitVec 5

/-- NV (R60). -/
def flNV : Fl := 1
/-- DZ (R60). -/
def flDZ : Fl := 2
/-- OF (R60). -/
def flOF : Fl := 4
/-- UF (R60). -/
def flUF : Fl := 8
/-- NX (R60). -/
def flNX : Fl := 16

/-- A value of a floating or tapered format, exactly: the magnitude of `num` is `n / d * 2 ^ e`, with
`d` positive; zero when `n` is 0. -/
inductive FVal where
  | nan (signalling : Bool)
  | inf (neg : Bool)
  | num (neg : Bool) (n d : Nat) (e : Int)
  deriving DecidableEq, Repr

/-- Exponent and fraction widths of a floating format (R48). -/
def Ety.ef : Ety → Nat × Nat
  | .f16 => (5, 10)
  | .bf16 => (8, 7)
  | .f32 => (8, 23)
  | .a48 => (11, 36)
  | _ => (11, 52)

/-- Exponent bias (R48). -/
def Ety.bias (t : Ety) : Nat := 2 ^ (t.ef.1 - 1) - 1

/-- The default NaN of a format (R50). -/
def Ety.defaultNan (t : Ety) : Nat := (2 ^ t.ef.1 - 1) * 2 ^ t.ef.2 + 2 ^ (t.ef.2 - 1)

/-- The infinity of a sign (R48). -/
def Ety.infBits (t : Ety) (neg : Bool) : Nat :=
  neg.toNat * 2 ^ (t.ef.1 + t.ef.2) + (2 ^ t.ef.1 - 1) * 2 ^ t.ef.2

/-- The largest finite value of a sign (R48, R54). -/
def Ety.maxBits (t : Ety) (neg : Bool) : Nat :=
  if t.isT then neg.toNat * 2 ^ (t.width - 1) + (2 ^ (t.width - 1) - 1)
  else neg.toNat * 2 ^ (t.ef.1 + t.ef.2) + ((2 ^ t.ef.1 - 1) * 2 ^ t.ef.2 - 1)

/-- The zero of a sign. -/
def Ety.zeroBits (t : Ety) (neg : Bool) : Nat := neg.toNat * 2 ^ (t.width - 1)

/-- Length of the run of bits equal to `b` from bit `k - 1` of `x` down (R51). -/
def runLen (x : Nat) (b : Bool) : Nat → Nat
  | 0 => 0
  | k + 1 => if bit x k == b then runLen x b k + 1 else 0

/-- The magnitude of a tapered body of `w` bits (R51): `n * 2 ^ e`. -/
def tapMag (w body : Nat) : Nat × Int :=
  if body = 0 then (0, 0) else
  let b := bit body (w - 1)
  let m := runLen body b w
  let k : Int := if b then (m : Int) - 1 else -(m : Int)
  let rest := w - (m + 1)
  let e := if rest = 0 then 0 else (bit body (rest - 1)).toNat
  let fb := rest - 1
  (2 ^ fb + body % 2 ^ fb, 2 * k + e - fb)

/-- The exact value of the bits of a floating or tapered format (R48, R51). -/
def Ety.val (t : Ety) (x : Nat) : FVal :=
  if t.isT then
    let m := tapMag (t.width - 1) (x % 2 ^ (t.width - 1))
    .num (bit x (t.width - 1)) m.1 1 m.2
  else
    let neg := bit x (t.width - 1)
    let E := bits x t.ef.2 t.ef.1
    let F := x % 2 ^ t.ef.2
    if E = 2 ^ t.ef.1 - 1 then
      if F = 0 then .inf neg else .nan (!bit F (t.ef.2 - 1))
    else if E = 0 then .num neg F 1 (1 - t.bias - t.ef.2)
    else .num neg (2 ^ t.ef.2 + F) 1 ((E : Int) - t.bias - t.ef.2)

/-- Whether the bits are a subnormal of a floating format (R48). -/
def Ety.isSubnormal (t : Ety) (x : Nat) : Bool :=
  t.isF && bits x t.ef.2 t.ef.1 == 0 && x % 2 ^ t.ef.2 != 0

/-- Formats FTZ applies to (R62). -/
def Ety.ftz : Ety → Bool
  | .f16 | .bf16 | .f32 => true
  | _ => false

/-- A source after the flush of R62. -/
def Ety.flush (t : Ety) (ftz : Bool) (x : Nat) : Nat :=
  if ftz && t.ftz && t.isSubnormal x then t.zeroBits (bit x (t.width - 1)) else x % 2 ^ t.width

/-- `n / d * 2 ^ s` as a ratio of natural numbers. -/
def scaleRat (n d : Nat) (s : Int) : Nat × Nat :=
  if 0 ≤ s then (n * 2 ^ s.toNat, d) else (n, d * 2 ^ (-s).toNat)

/-- `Floor(Log2(n / d))` of positive numbers. -/
def log2Rat (n d : Nat) : Int :=
  let t : Int := (n.log2 : Int) - d.log2
  let r := scaleRat n d (-t)
  if r.1 < r.2 then t - 1 else t

/-- The magnitude `n / d` rounded to an integer for a value of the given sign (R58), and whether the
result differs. -/
def roundInt (mode : Rnd) (neg : Bool) (n d : Nat) : Nat × Bool :=
  let q := n / d
  let r := n % d
  if r = 0 then (q, false) else
  let up : Bool := match mode with
    | .rne => 2 * r > d || (2 * r == d && q % 2 == 1)
    | .rna => 2 * r ≥ d
    | .rtz => false
    | .rdn => neg
    | .rup => !neg
  (q + up.toNat, true)

/-- The overflow result of R58. -/
def Ety.overflow (t : Ety) (mode : Rnd) (neg : Bool) : Nat :=
  let toInf : Bool := match mode with
    | .rne | .rna => true
    | .rtz => false
    | .rdn => neg
    | .rup => !neg
  if toInf then t.infBits neg else t.maxBits neg

/-- A nonzero magnitude `n / d * 2 ^ e` rounded into a floating format (R58) with the exceptions OF, UF
and NX (R60): tininess is judged on the result rounded with unbounded exponent. -/
def Ety.roundFloat (t : Ety) (mode : Rnd) (neg : Bool) (n d : Nat) (e : Int) : Nat × Fl :=
  let fb := t.ef.2
  let emin : Int := 1 - t.bias
  let ex := log2Rat n d + e
  let ru := scaleRat n d (e - (ex - fb))
  let mu := (roundInt mode neg ru.1 ru.2).1
  let tiny : Bool := decide (ex < emin) && (decide (ex + 1 < emin) || decide (mu < 2 ^ (fb + 1)))
  let q := max ex emin - fb
  let r := scaleRat n d (e - q)
  let m := roundInt mode neg r.1 r.2
  let sig := if m.1 ≥ 2 ^ (fb + 1) then m.1 / 2 else m.1
  let q' := if m.1 ≥ 2 ^ (fb + 1) then q + 1 else q
  let fl : Fl := if m.2 then (if tiny then flNX ||| flUF else flNX) else 0
  let sgn := neg.toNat * 2 ^ (t.ef.1 + fb)
  if sig ≥ 2 ^ fb then
    let E := q' + fb + t.bias
    if E ≥ (2 ^ t.ef.1 : Nat) - 1 then (t.overflow mode neg, fl ||| flOF ||| flNX)
    else (sgn + E.toNat * 2 ^ fb + sig % 2 ^ fb, fl)
  else (sgn + sig, fl)

/-- The tapered body chosen for a magnitude `n / d * 2 ^ e` (R54): the greatest body whose magnitude is
at most it, searched from `k` down. -/
def tapFloor (w n d : Nat) (e : Int) : Nat → Nat
  | 0 => 0
  | k + 1 =>
    let m := tapMag w (k + 1)
    let r := scaleRat n d (e - m.2)
    if m.1 * r.2 ≤ r.1 then k + 1 else tapFloor w n d e k

/-- `RoundTap` of a nonzero finite value (R54). -/
def Ety.roundTap (t : Ety) (mode : Rnd) (neg : Bool) (n d : Nat) (e : Int) : Nat × Fl :=
  let w := t.width - 1
  let sgn := neg.toNat * 2 ^ w
  let top := 2 ^ w - 1
  let lo := tapFloor w n d e top
  -- all magnitudes are multiples of 2 ^ -12
  let x := scaleRat n d (e + 12)
  let fix (b : Nat) : Nat := (scaleRat (tapMag w b).1 1 ((tapMag w b).2 + 12)).1
  if fix lo * x.2 = x.1 then (sgn + lo, 0)
  else if lo = top then (sgn + top, flOF ||| flNX)
  else
    let twice := 2 * x.1
    let mid := (fix lo + fix (lo + 1)) * x.2
    let up : Bool := match mode with
      | .rtz => false
      | .rdn => neg
      | .rup => !neg
      | .rna => decide (twice ≥ mid)
      | .rne => decide (twice > mid) || (twice == mid && lo % 2 == 1)
    let b := lo + up.toNat
    (sgn + b, if b ≤ 1 then flNX ||| flUF else flNX)

/-- An exact value brought into a floating or tapered format: R58 and R60, R54 and R65 for tapered,
R50 for NaN. A signalling NaN raises NV (R50). No flush, no saturation. -/
def Ety.roundVal (t : Ety) (mode : Rnd) (v : FVal) : Nat × Fl :=
  match v with
  | .nan sg => if t.isT then (0, flNV) else (t.defaultNan, if sg then flNV else 0)
  | .inf neg => if t.isT then (t.maxBits neg, flNV) else (t.infBits neg, 0)
  | .num neg n d e =>
    if n = 0 then (t.zeroBits neg, 0)
    else if t.isT then t.roundTap mode neg n d e
    else t.roundFloat mode neg n d e

/-- Saturation of a floating or tapered result (R63). -/
def Ety.satF (t : Ety) (x : Nat) : Nat :=
  if t.isT then x else
  match t.val x with
  | .inf neg => t.maxBits neg
  | .nan _ => 0
  | .num .. => x

/-- The last steps of the result path (R64): result flush (R62) and saturation (R63) of rounded bits. -/
def Ety.finish (t : Ety) (ftz sat : Bool) (r : Nat × Fl) : Nat × Fl :=
  let flushed := ftz && t.ftz && t.isSubnormal r.1
  let x := if flushed then t.zeroBits (bit r.1 (t.width - 1)) else r.1
  (if sat then t.satF x else x, r.2 ||| (if flushed then flUF ||| flNX else 0))

/-- The result path of R64 from the exact result on; `fl` holds the exceptions the operation raised. -/
def Ety.result (t : Ety) (mode : Rnd) (ftz sat : Bool) (v : FVal) (fl : Fl) : Nat × Fl :=
  let r := t.roundVal mode v
  t.finish ftz sat (r.1, fl ||| r.2)

/-- Conversion of a value to an integer type (R65, R120): the integer and the flags. -/
def Ety.toInt (t : Ety) (mode : Rnd) (v : FVal) : Int × Fl :=
  let lo := t.bounds.1
  let hi := t.bounds.2
  match v with
  | .nan _ => (0, flNV)
  | .inf neg => (if neg then lo else hi, flNV)
  | .num neg n d e =>
    let r := scaleRat n d e
    let m := roundInt mode neg r.1 r.2
    let x : Int := if neg then -(m.1 : Int) else m.1
    if x < lo then (lo, flNV) else if hi < x then (hi, flNV)
    else (x, if m.2 then flNX else 0)

/-- The exact value of an integer. -/
def ofInt (x : Int) : FVal := .num (decide (x < 0)) x.natAbs 1 0

/-- The negation of a value. -/
def FVal.neg : FVal → FVal
  | .nan s => .nan s
  | .inf n => .inf (!n)
  | .num s n d e => .num (!s) n d e

/-- Whether a value is a NaN. -/
def FVal.isNan : FVal → Bool
  | .nan _ => true
  | _ => false

/-- Whether a value is a signalling NaN. -/
def FVal.isSnan : FVal → Bool
  | .nan s => s
  | _ => false

/-- Whether a value is zero. -/
def FVal.isZero : FVal → Bool
  | .num _ n _ _ => n == 0
  | _ => false

/-- The sign of a value that is no NaN. -/
def FVal.sign : FVal → Bool
  | .nan _ => false
  | .inf n => n
  | .num s _ _ _ => s

/-- A finite value as an integer multiple of `2 ^ e / d` for a common `d` and `e`. -/
def signedMag (s : Bool) (n : Nat) : Int := if s then -(n : Int) else n

/-- The exact sum of two finite values; `none` when it is zero. -/
def addFin (s1 : Bool) (n1 d1 : Nat) (e1 : Int) (s2 : Bool) (n2 d2 : Nat) (e2 : Int) :
    Option (Bool × Nat × Nat × Int) :=
  let e := min e1 e2
  let a := signedMag s1 (n1 * 2 ^ (e1 - e).toNat * d2)
  let b := signedMag s2 (n2 * 2 ^ (e2 - e).toNat * d1)
  if a + b = 0 then none else some (decide (a + b < 0), (a + b).natAbs, d1 * d2, e)

/-- The exact sum of two values with its invalid case and its zero sign (R108). -/
def addVal (mode : Rnd) (x y : FVal) : FVal × Fl :=
  match x, y with
  | .nan s, .nan s' => (.nan false, if s || s' then flNV else 0)
  | .nan s, _ => (.nan false, if s then flNV else 0)
  | _, .nan s => (.nan false, if s then flNV else 0)
  | .inf a, .inf b => if a == b then (.inf a, 0) else (.nan false, flNV)
  | .inf a, .num .. => (.inf a, 0)
  | .num .., .inf b => (.inf b, 0)
  | .num s1 n1 d1 e1, .num s2 n2 d2 e2 =>
    match addFin s1 n1 d1 e1 s2 n2 d2 e2 with
    | some (s, n, d, e) => (.num s n d e, 0)
    | none =>
      if n1 = 0 ∧ n2 = 0 ∧ s1 = s2 then (.num s1 0 1 0, 0)
      else (.num (mode == .rdn) 0 1 0, 0)

/-- The exact product of two values with its invalid case (R108). -/
def mulVal (x y : FVal) : FVal × Fl :=
  match x, y with
  | .nan s, .nan s' => (.nan false, if s || s' then flNV else 0)
  | .nan s, _ => (.nan false, if s then flNV else 0)
  | _, .nan s => (.nan false, if s then flNV else 0)
  | .inf a, .inf b => (.inf (a != b), 0)
  | .inf a, .num s n _ _ => if n = 0 then (.nan false, flNV) else (.inf (a != s), 0)
  | .num s n _ _, .inf b => if n = 0 then (.nan false, flNV) else (.inf (s != b), 0)
  | .num s1 n1 d1 e1, .num s2 n2 d2 e2 => (.num (s1 != s2) (n1 * n2) (d1 * d2) (e1 + e2), 0)

/-- The exact quotient of two values with its special cases (R108). -/
def divVal (x y : FVal) : FVal × Fl :=
  match x, y with
  | .nan s, .nan s' => (.nan false, if s || s' then flNV else 0)
  | .nan s, _ => (.nan false, if s then flNV else 0)
  | _, .nan s => (.nan false, if s then flNV else 0)
  | .inf _, .inf _ => (.nan false, flNV)
  | .inf a, .num s _ _ _ => (.inf (a != s), 0)
  | .num s _ _ _, .inf b => (.num (s != b) 0 1 0, 0)
  | .num s1 n1 d1 e1, .num s2 n2 d2 e2 =>
    if n2 = 0 then
      if n1 = 0 then (.nan false, flNV) else (.inf (s1 != s2), flDZ)
    else (.num (s1 != s2) (n1 * d2) (d1 * n2) (e1 - e2), 0)

/-- `A * B + C` exactly (R108): the product's invalid case holds even when C is a quiet NaN. -/
def fmaVal (mode : Rnd) (x y z : FVal) : FVal × Fl :=
  let p := mulVal x y
  let r := addVal mode p.1 z
  (r.1, p.2 ||| r.2)

/-- The order of two values that are no NaN, -0 equal to +0: `lt`, `eq` or `gt`. -/
def cmpVal (x y : FVal) : Ordering :=
  match x, y with
  | .inf a, .inf b => if a == b then .eq else if a then .lt else .gt
  | .inf a, _ => if a then .lt else .gt
  | _, .inf b => if b then .gt else .lt
  | .num s1 n1 d1 e1, .num s2 n2 d2 e2 =>
    match addFin s1 n1 d1 e1 (!s2) n2 d2 e2 with
    | none => .eq
    | some (neg, _, _, _) => if neg then .lt else .gt
  | _, _ => .eq

/-- `Floor` of the square root, by one result bit a step from bit `k - 1` down. -/
def isqrtBits (n : Nat) : Nat → Nat → Nat
  | 0, r => r
  | k + 1, r =>
    let c := r + 2 ^ k
    isqrtBits n k (if c * c ≤ n then c else r)

/-- `Floor` of the square root. -/
def isqrt (n : Nat) : Nat := isqrtBits n (n.log2 / 2 + 1) 0

/-- A value that rounds as the square root of `n * 2 ^ e` does into any format of at most 53
significand bits: the floor of the root carried to at least 60 bits, with a half unit for a remainder. -/
def sqrtVal (n : Nat) (e : Int) : FVal :=
  let n' := if e % 2 = 0 then n else 2 * n
  let e' := if e % 2 = 0 then e else e - 1
  let k : Nat := 64
  let big := n' * 2 ^ (2 * k)
  let r := isqrt big
  .num false (2 * r + (if r * r = big then 0 else 1)) 1 (e' / 2 - k - 1)

end Sys2Proof.Machine
end

