-- ==== Sys2Proof/Machine/Approx.lean ====
section
/-!
DEFINITION. The approximated functions (R66, R115, R127, R128): tight enclosures of the exact result in
fixed point, and the device's result as a free choice among the values of the format within the bound.
-/

namespace Sys2Proof.Machine

/-- Fraction bits of the fixed-point numbers below. -/
def fxBits : Nat := 320

/-- One in fixed point. -/
def fxOne : Nat := 2 ^ fxBits

/-- pi in fixed point, rounded down. -/
def fxPi : Nat := 6710401180212168915155840974220003240804194089427148950727106424351713218671805380099500388914039

/-- The natural logarithm of 2 in fixed point, rounded down. -/
def fxLn2 : Nat := 1480553391661173448385607439722553250922680800745876974795605978609098082859138712941075737848984

/-- An enclosure: the exact result lies between `lo * 2 ^ e` and `hi * 2 ^ e`. -/
structure Encl where
  lo : Int
  hi : Int
  e  : Int
  deriving DecidableEq, Repr

/-- The enclosure around a fixed-point number that the truncations below cannot leave. -/
def fxEncl (x : Int) (shift : Int) : Encl := ⟨x - 2 ^ 40, x + 2 ^ 40, shift - fxBits⟩

/-- Terms `y ^ k / k!` summed with sign pattern `alt` from `k` on, `n` terms. -/
def fxExpSeries (y : Nat) (alt : Bool) : Nat → Nat → Nat → Int → Int
  | 0, _, _, acc => acc
  | n + 1, k, term, acc =>
    let acc' := if alt && k % 2 == 1 then acc - term else acc + term
    fxExpSeries y alt n (k + 1) (term * y / fxOne / (k + 1)) acc'

/-- `exp y` for `y` from 0 to 1, or `exp (-y)`. -/
def fxExp (y : Nat) (alt : Bool) : Int := fxExpSeries y alt 90 0 fxOne 0

/-- The sum of `(-1) ^ j * y ^ (2 j + p) / (2 j + p)!`, given its current term. -/
def fxTrigSeries (y2 : Nat) : Nat → Nat → Nat → Bool → Int → Int
  | 0, _, _, _, acc => acc
  | n + 1, k, term, neg, acc =>
    fxTrigSeries y2 n (k + 2) (term * y2 / fxOne / ((k + 1) * (k + 2))) (!neg)
      (if neg then acc - term else acc + term)

/-- The sum of `z ^ (2 j + 1) / (2 j + 1)`. -/
def fxAtanhSeries (z2 : Nat) : Nat → Nat → Nat → Nat → Nat
  | 0, _, _, acc => acc
  | n + 1, k, pow, acc => fxAtanhSeries z2 n (k + 2) (pow * z2 / fxOne) (acc + pow / k)

/-- A positive finite magnitude in fixed point, rounded down. -/
def fxOf (n : Nat) (e : Int) : Nat :=
  let r := scaleRat n 1 (e + fxBits)
  r.1 / r.2

/-- `sin` (`odd`) or `cos` of a magnitude below 2 ^ 18, reduced by multiples of pi / 2 (R66). -/
def enclTrig (isSin neg : Bool) (n : Nat) (e : Int) : Encl :=
  let x := fxOf n e
  let h := fxPi / 2
  let q := (2 * x + h) / (2 * h)
  let r : Int := (x : Int) - q * h
  let m := r.natAbs
  let y2 := m * m / fxOne
  let s := fxTrigSeries y2 60 1 m false 0
  let c := fxTrigSeries y2 60 0 fxOne false 0
  let s := if r < 0 then -s else s
  let v :=
    if isSin then
      match q % 4 with
      | 0 => s
      | 1 => c
      | 2 => -s
      | _ => -c
    else
      match q % 4 with
      | 0 => c
      | 1 => -s
      | 2 => -c
      | _ => s
  fxEncl (if isSin && neg then -v else v) 0

/-- `2 ^ A` (R127). -/
def enclExp2 (neg : Bool) (n : Nat) (e : Int) : Encl :=
  let x := fxOf n e
  let fl : Int := if neg then -(((x + fxOne - 1) / fxOne : Nat) : Int) else ((x / fxOne : Nat) : Int)
  let f : Nat := if neg then (fxOne - x % fxOne) % fxOne else x % fxOne
  fxEncl (fxExp (f * fxLn2 / fxOne) false) fl

/-- `log2 A` of a positive value (R127). -/
def enclLog2 (n : Nat) (e : Int) : Encl :=
  let L := n.log2
  let m := n * fxOne / 2 ^ L
  let z := (m - fxOne) * fxOne / (m + fxOne)
  let ln := 2 * fxAtanhSeries (z * z / fxOne) 110 1 z 0
  fxEncl (((ln * fxOne / fxLn2 : Nat) : Int) + ((L : Int) + e) * fxOne) 0

/-- `exp (-y)` of a magnitude in fixed point; 0 where it is below the resolution. -/
def fxExpNeg (y : Nat) : Nat :=
  let k := y / fxLn2
  if k > 300 then 0 else (fxExp (y % fxLn2) true).toNat / 2 ^ k

/-- `tanh A` (R127). -/
def enclTanh (neg : Bool) (n : Nat) (e : Int) : Encl :=
  let E := fxExpNeg (2 * fxOf n e)
  let v : Int := (((fxOne - E) * fxOne / (fxOne + E) : Nat) : Int)
  fxEncl (if neg then -v else v) 0

/-- `1 / (1 + exp (-A))` (R127). -/
def enclSig (neg : Bool) (n : Nat) (e : Int) : Encl :=
  let E := fxExpNeg (fxOf n e)
  let v := (if neg then E * fxOne else fxOne * fxOne) / (fxOne + E)
  fxEncl v 0

/-- `1 / (n * 2 ^ e)` (R115). -/
def enclRcp (neg : Bool) (n : Nat) (e : Int) : Encl :=
  let k := 200 + n.log2
  let q := 2 ^ k / n
  if neg then ⟨-(q + 1 : Nat), -(q : Int), -e - k⟩ else ⟨q, (q + 1 : Nat), -e - k⟩

/-- `1 / sqrt (n * 2 ^ e)` (R115). -/
def enclRsq (n : Nat) (e : Int) : Encl :=
  let n' := if e % 2 = 0 then n else 2 * n
  let e' := if e % 2 = 0 then e else e - 1
  let k := 200 + n'.log2
  let r := isqrt (2 ^ (2 * k) / n')
  ⟨r, r + 1, -(e' / 2) - k⟩

/-- Place of a value of a format in rising order: 0 for zero. -/
def magUp (t : Ety) (m : Nat) (e : Int) : Nat :=
  if m = 0 then 0 else (t.roundFloat .rup false m 1 e).1

/-- The greatest finite magnitude at most `m * 2 ^ e`, as its bits. -/
def magDown (t : Ety) (m : Nat) (e : Int) : Nat :=
  if m = 0 then 0 else (t.roundFloat .rtz false m 1 e).1

/-- Least place at or above `x * 2 ^ e`. -/
def ordUp (t : Ety) (x e : Int) : Int :=
  if 0 ≤ x then magUp t x.toNat e else -(magDown t x.natAbs e : Int)

/-- Greatest place at or below `x * 2 ^ e`. -/
def ordDown (t : Ety) (x e : Int) : Int :=
  if 0 ≤ x then magDown t x.toNat e else -(magUp t x.natAbs e : Int)

/-- The bits at a place. DESIGN CHOICE (log entry 6): the zero among the values that a bound admits is +0. -/
def ofOrd (t : Ety) (x : Int) : Nat := if x < 0 then 2 ^ (t.width - 1) + x.natAbs else x.toNat

/-- The exponent of one ulp at an enclosure (R115). -/
def enclUlp (t : Ety) (c : Encl) : Int :=
  let emin : Int := 1 - t.bias
  let E := if c.lo = 0 then emin else (c.lo.natAbs.log2 : Int) + c.e
  max E emin - t.ef.2

/-- The device's result: some value of the format within `m * 2 ^ ex` of the exact result (R115, R128),
the same one for the same operation, format and source bits. -/
def approxIn (t : Ety) (op : Nat) (src : Nat) (c : Encl) (m : Nat) (ex : Int) : Nat :=
  let e := min c.e ex
  let tol : Int := m * 2 ^ (ex - e).toNat
  let sc : Int := 2 ^ (c.e - e).toNat
  let top : Int := t.maxBits false
  let lo := max (ordUp t (c.hi * sc - tol) e) (-top)
  let hi := min (ordDown t (c.lo * sc + tol) e) top
  ofOrd t (lo + (Config.approx op (t.maxBits false) (BitVec.ofNat 64 src) % (hi - lo + 1).toNat : Nat))

/-- An inexact result with its flags: NX, OF and UF as R60 judges the exact result; an overflow gives
the infinity of its sign. -/
def approxResult (t : Ety) (op src : Nat) (c : Encl) (m : Nat) (ex : Int) : Nat × Fl :=
  let neg : Bool := decide (c.lo < 0)
  let ref := if c.lo.natAbs = 0 then (0, flUF) else t.roundFloat .rne neg c.lo.natAbs 1 c.e
  if ref.2 &&& flOF ≠ 0 then (t.infBits neg, ref.2 ||| flNX)
  else (approxIn t op src c m ex, ref.2 ||| flNX)

/-- Whether a magnitude `n * 2 ^ e` is a power of two, and which. -/
def pow2Of (n : Nat) (e : Int) : Option Int :=
  if n = 2 ^ n.log2 then some ((n.log2 : Int) + e) else none

/-- `frcp` (R115) on a flushed source. -/
def frcpVal (t : Ety) (src : Nat) : Nat × Fl :=
  match t.val src with
  | .nan s => (t.defaultNan, if s then flNV else 0)
  | .inf n => (t.zeroBits n, 0)
  | .num neg n _ e =>
    if n = 0 then (t.infBits neg, flDZ) else
    match pow2Of n e with
    | some k =>
      let r := t.roundFloat .rne neg 1 1 (-k)
      if r.2 = 0 then r else approxResult t 0 src (enclRcp neg n e) 1 (enclUlp t (enclRcp neg n e))
    | none => approxResult t 0 src (enclRcp neg n e) 1 (enclUlp t (enclRcp neg n e))

/-- `frsq` (R115) on a flushed source. -/
def frsqVal (t : Ety) (src : Nat) : Nat × Fl :=
  match t.val src with
  | .nan s => (t.defaultNan, if s then flNV else 0)
  | .inf n => if n then (t.defaultNan, flNV) else (0, 0)
  | .num neg n _ e =>
    if n = 0 then (t.infBits neg, flDZ)
    else if neg then (t.defaultNan, flNV)
    else
      let c := enclRsq n e
      let ulps := if t.width = 16 then 1 else 2
      match pow2Of n e with
      | some k => if k % 2 = 0 then t.roundFloat .rne false 1 1 (-(k / 2)) else approxResult t 1 src c ulps (enclUlp t c)
      | none => approxResult t 1 src c ulps (enclUlp t c)

/-- A tolerance of `k` ulp, or of `2 ^ -22` where that is larger (R128). -/
def tolMax (t : Ety) (c : Encl) (k : Nat) : Nat × Int :=
  let u := enclUlp t c
  if u ≥ -22 then (k, u) else (1, -22)

/-- `sin` and `cos` (R66, R127, R128) on a flushed source. -/
def trigVal (isSin : Bool) (t : Ety) (src : Nat) : Nat × Fl :=
  match t.val src with
  | .nan s => (t.defaultNan, if s then flNV else 0)
  | .inf _ => (t.defaultNan, flNV)
  | .num neg n d e =>
    let r := scaleRat n d e
    if n = 0 then (if isSin then (t.zeroBits neg, 0) else t.roundVal .rne (ofInt 1))
    else if r.1 ≥ 2 ^ 18 * r.2 then (t.defaultNan, flNV)
    else
      let c := enclTrig isSin neg n e
      let tol := if t.width = 16 then tolMax t c 1 else (1, -22)
      approxResult t (if isSin then 2 else 3) src c tol.1 tol.2

/-- `fexp2` (R127, R128) on a flushed source. -/
def exp2Val (t : Ety) (src : Nat) : Nat × Fl :=
  match t.val src with
  | .nan s => (t.defaultNan, if s then flNV else 0)
  | .inf neg => (if neg then 0 else t.infBits false, 0)
  | .num neg n d e =>
    let r := scaleRat n d e
    let lim := 2 ^ 12
    if r.1 ≥ lim * r.2 then
      if neg then approxResult t 4 src ⟨0, 1, -4000⟩ (if t.width = 16 then 1 else 2) (1 - t.bias - t.ef.2)
      else (t.infBits false, flOF ||| flNX)
    else
      let whole : Option Int := if r.1 % r.2 = 0 then some (signedMag neg (r.1 / r.2)) else none
      let c := enclExp2 neg n e
      let inexact := approxResult t 4 src c (if t.width = 16 then 1 else 2) (enclUlp t c)
      match whole with
      | some k =>
        let x := t.roundFloat .rne false 1 1 k
        if x.2 = 0 then x else inexact
      | none => inexact

/-- `flog2` (R127, R128) on a flushed source. -/
def log2Val (t : Ety) (src : Nat) : Nat × Fl :=
  match t.val src with
  | .nan s => (t.defaultNan, if s then flNV else 0)
  | .inf neg => if neg then (t.defaultNan, flNV) else (t.infBits false, 0)
  | .num neg n _ e =>
    if n = 0 then (t.infBits true, flDZ)
    else if neg then (t.defaultNan, flNV)
    else match pow2Of n e with
      | some k => t.roundVal .rne (ofInt k)
      | none =>
        let c := enclLog2 n e
        let E := (n.log2 : Int) + e
        let tol : Nat × Int :=
          if t.width = 16 then (1, enclUlp t c)
          else if E = -1 ∨ E = 0 then (1, -22) else (2, enclUlp t c)
        approxResult t 5 src c tol.1 tol.2

/-- `tanh` (R127, R128) on a flushed source. -/
def tanhVal (t : Ety) (src : Nat) : Nat × Fl :=
  match t.val src with
  | .nan s => (t.defaultNan, if s then flNV else 0)
  | .inf neg => t.roundVal .rne (ofInt (if neg then -1 else 1))
  | .num neg n _ e =>
    if n = 0 then (t.zeroBits neg, 0) else
    let c := enclTanh neg n e
    approxResult t 6 src c (if t.width = 16 then 1 else 2) (enclUlp t c)

/-- `sig` (R127, R128) on a flushed source. -/
def sigVal (t : Ety) (src : Nat) : Nat × Fl :=
  match t.val src with
  | .nan s => (t.defaultNan, if s then flNV else 0)
  | .inf neg => if neg then (0, 0) else t.roundVal .rne (ofInt 1)
  | .num neg n _ e =>
    if n = 0 then t.roundVal .rne (.num false 1 1 (-1)) else
    let c := enclSig neg n e
    approxResult t 7 src c (if t.width = 16 then 1 else 2) (enclUlp t c)

end Sys2Proof.Machine
end

