-- ==== Sys2Proof/WellFormed.lean ====
section
/-!
DEFINITION. Which terms of `Instr` are well formed: each check has its own name.
-/

namespace Sys2Proof

/-- A selector that may stand as a source: not the reserved one (R25). -/
def srcSel (x : Sel) : Bool := x.toNat != 127

/-- A selector that may stand as a destination: not `ext`, `lid` or the reserved one (R25). -/
def dstSel (x : Sel) : Bool := x.toNat < 125

/-- No prefix field holds a reserved value (R20, R21). -/
def pfxOk (p : Option Pfx) : Bool :=
  match p with
  | none => true
  | some p => p.rnd.toNat < 6 && p.ty.toNat < 14 && (p.ge || (p.gp == 0 && !p.gn))

/-- The prefix of an instruction. -/
def Instr.pfx : Instr → Option Pfx
  | .add p _ _ _ => p
  | .addImm p _ _ _ _ => p
  | .sub p _ _ _ => p
  | .subImm p _ _ _ _ => p
  | .addc p _ _ _ => p
  | .addcImm p _ _ _ _ => p
  | .subb p _ _ _ => p
  | .subbImm p _ _ _ _ => p
  | .mul p _ _ _ => p
  | .mulImm p _ _ _ _ => p
  | .mulh p _ _ _ => p
  | .mulhImm p _ _ _ _ => p
  | .mad p _ _ _ _ => p
  | .madw p _ _ _ _ => p
  | .div p _ _ _ => p
  | .divImm p _ _ _ _ => p
  | .rem p _ _ _ => p
  | .remImm p _ _ _ _ => p
  | .neg p _ _ => p
  | .abs p _ _ => p
  | .min p _ _ _ => p
  | .minImm p _ _ _ _ => p
  | .max p _ _ _ => p
  | .maxImm p _ _ _ _ => p
  | .shl p _ _ _ => p
  | .shlImm p _ _ _ _ => p
  | .shr p _ _ _ => p
  | .shrImm p _ _ _ _ => p
  | .sar p _ _ _ => p
  | .sarImm p _ _ _ _ => p
  | .rotl p _ _ _ => p
  | .rotlImm p _ _ _ _ => p
  | .lea p _ _ _ _ _ => p
  | .addp p _ _ _ => p
  | .addpImm p _ _ _ _ => p
  | .subp p _ _ _ => p
  | .movi p _ _ => p
  | .mov p _ _ => p
  | .and p _ _ _ => p
  | .andImm p _ _ _ _ => p
  | .or p _ _ _ => p
  | .orImm p _ _ _ _ => p
  | .xor p _ _ _ => p
  | .xorImm p _ _ _ _ => p
  | .not p _ _ => p
  | .andn p _ _ _ => p
  | .andnImm p _ _ _ _ => p
  | .bfe p _ _ _ _ _ _ _ => p
  | .bfi p _ _ _ _ _ _ _ => p
  | .popc p _ _ => p
  | .clz p _ _ => p
  | .ctz p _ _ => p
  | .brev p _ _ => p
  | .bshuf p _ _ _ _ => p
  | .cmp p _ _ _ _ => p
  | .cmpImm p _ _ _ _ _ => p
  | .sel p _ _ _ _ _ => p
  | .pand p _ _ _ _ _ => p
  | .por p _ _ _ _ _ => p
  | .pxor p _ _ _ _ _ => p
  | .pnot p _ _ _ => p
  | .pmov p _ _ _ => p
  | .matchLanes p _ _ => p
  | .fadd p _ _ _ => p
  | .faddImm p _ _ _ _ => p
  | .fsub p _ _ _ => p
  | .fsubImm p _ _ _ _ => p
  | .fmul p _ _ _ => p
  | .fmulImm p _ _ _ _ => p
  | .fma p _ _ _ _ => p
  | .fmin p _ _ _ => p
  | .fminImm p _ _ _ _ => p
  | .fmax p _ _ _ => p
  | .fmaxImm p _ _ _ _ => p
  | .fabs p _ _ => p
  | .fneg p _ _ => p
  | .fcmp p _ _ _ _ => p
  | .fcmpImm p _ _ _ _ _ => p
  | .fclass p _ _ => p
  | .frint p _ _ => p
  | .fsqrt p _ _ => p
  | .frcp p _ _ => p
  | .frsq p _ _ => p
  | .fdiv p _ _ _ => p
  | .fdivImm p _ _ _ _ => p
  | .fscale p _ _ _ => p
  | .fscaleImm p _ _ _ _ => p
  | .hadd2 p _ _ _ => p
  | .hfma2 p _ _ _ _ => p
  | .bfma2 p _ _ _ _ => p
  | .dot2 p _ _ _ _ => p
  | .dot4 p _ _ _ _ => p
  | .cvt p _ _ _ _ => p
  | .pack p _ _ _ => p
  | .unpack p _ _ _ => p
  | .unpackImm p _ _ _ _ => p
  | .tdec p _ _ _ => p
  | .tenc p _ _ _ _ => p
  | .qscale p _ _ _ _ _ => p
  | .sin p _ _ => p
  | .cos p _ _ => p
  | .fexp2 p _ _ => p
  | .flog2 p _ _ => p
  | .tanh p _ _ => p
  | .sig p _ _ => p
  | .shfl p _ _ _ _ _ _ _ _ _ => p
  | .shflRel p _ _ _ _ _ _ _ _ _ => p
  | .shflXor p _ _ _ _ _ _ _ _ _ => p
  | .bcast p _ _ _ _ _ _ => p
  | .vote p _ _ _ _ _ _ => p
  | .lred p _ _ _ _ _ _ => p
  | .ld p _ _ _ => p
  | .ldOfs p _ _ _ _ _ _ _ => p
  | .st p _ _ _ => p
  | .stOfs p _ _ _ _ _ _ _ => p
  | .ldsp p _ _ _ => p
  | .ldspOfs p _ _ _ _ _ _ _ => p
  | .stsp p _ _ _ => p
  | .stspOfs p _ _ _ _ _ _ _ => p
  | .ldc p _ _ _ => p
  | .ldcOfs p _ _ _ _ _ _ _ => p
  | .ldq p _ _ _ => p
  | .ldqOfs p _ _ _ _ _ _ _ => p
  | .pref p _ _ => p
  | .prefOfs p _ _ _ _ _ _ => p
  | .atom p _ _ _ _ _ _ => p
  | .atomr p _ _ _ _ _ _ => p
  | .red p _ _ _ _ => p
  | .fenceEng p => p
  | .fenceSys p => p
  | .cflush p _ _ => p
  | .cflushOfs p _ _ _ _ _ _ => p
  | .cinval p _ _ => p
  | .cinvalOfs p _ _ _ _ _ _ => p
  | .spat p _ _ _ _ _ _ _ _ => p
  | .sfree p _ => p
  | .qbind p _ _ _ _ _ _ => p
  | .qtry p _ _ _ => p
  | .qstat p _ _ => p
  | .cpy p _ _ _ _ _ _ _ _ _ _ => p
  | .gath p _ _ _ _ _ _ _ _ _ _ => p
  | .coll p _ _ _ _ _ _ _ _ _ _ => p
  | .mdesc p _ _ _ => p
  | .msign p _ => p
  | .mma p _ _ _ _ _ _ => p
  | .mmaElect p _ _ _ _ _ => p
  | .maccInit p _ _ => p
  | .maccFlush p _ _ _ _ _ _ => p
  | .mrow p _ => p
  | .mrowWait p _ _ => p
  | .nwant p _ _ _ => p
  | .noffer p _ _ _ => p
  | .nclose p _ _ => p
  | .ncloseImm p _ _ _ => p
  | .nlife p _ => p
  | .nlifeImm p _ _ => p
  | .mland p _ _ _ _ _ _ => p
  | _ => none

/-- No reserved or misused selector (R25). -/
def selsOk : Instr → Bool
  | .add _ d a b => srcSel a && srcSel b && dstSel d
  | .addImm _ d a b _ => srcSel a && srcSel b && dstSel d
  | .sub _ d a b => srcSel a && srcSel b && dstSel d
  | .subImm _ d a b _ => srcSel a && srcSel b && dstSel d
  | .addc _ d a b => srcSel a && srcSel b && dstSel d
  | .addcImm _ d a b _ => srcSel a && srcSel b && dstSel d
  | .subb _ d a b => srcSel a && srcSel b && dstSel d
  | .subbImm _ d a b _ => srcSel a && srcSel b && dstSel d
  | .mul _ d a b => srcSel a && srcSel b && dstSel d
  | .mulImm _ d a b _ => srcSel a && srcSel b && dstSel d
  | .mulh _ d a b => srcSel a && srcSel b && dstSel d
  | .mulhImm _ d a b _ => srcSel a && srcSel b && dstSel d
  | .mad _ d a b c => srcSel a && srcSel b && srcSel c && dstSel d
  | .madw _ d a b c => srcSel a && srcSel b && srcSel c && dstSel d
  | .div _ d a b => srcSel a && srcSel b && dstSel d
  | .divImm _ d a b _ => srcSel a && srcSel b && dstSel d
  | .rem _ d a b => srcSel a && srcSel b && dstSel d
  | .remImm _ d a b _ => srcSel a && srcSel b && dstSel d
  | .neg _ d a => srcSel a && dstSel d
  | .abs _ d a => srcSel a && dstSel d
  | .min _ d a b => srcSel a && srcSel b && dstSel d
  | .minImm _ d a b _ => srcSel a && srcSel b && dstSel d
  | .max _ d a b => srcSel a && srcSel b && dstSel d
  | .maxImm _ d a b _ => srcSel a && srcSel b && dstSel d
  | .shl _ d a b => srcSel a && srcSel b && dstSel d
  | .shlImm _ d a b _ => srcSel a && srcSel b && dstSel d
  | .shr _ d a b => srcSel a && srcSel b && dstSel d
  | .shrImm _ d a b _ => srcSel a && srcSel b && dstSel d
  | .sar _ d a b => srcSel a && srcSel b && dstSel d
  | .sarImm _ d a b _ => srcSel a && srcSel b && dstSel d
  | .rotl _ d a b => srcSel a && srcSel b && dstSel d
  | .rotlImm _ d a b _ => srcSel a && srcSel b && dstSel d
  | .lea _ d a b c _ => srcSel a && srcSel b && srcSel c && dstSel d
  | .addp _ d a b => srcSel a && srcSel b && dstSel d
  | .addpImm _ d a b _ => srcSel a && srcSel b && dstSel d
  | .subp _ d a b => srcSel a && srcSel b && dstSel d
  | .movi _ d _ => dstSel d
  | .mov _ d a => srcSel a && dstSel d
  | .and _ d a b => srcSel a && srcSel b && dstSel d
  | .andImm _ d a b _ => srcSel a && srcSel b && dstSel d
  | .or _ d a b => srcSel a && srcSel b && dstSel d
  | .orImm _ d a b _ => srcSel a && srcSel b && dstSel d
  | .xor _ d a b => srcSel a && srcSel b && dstSel d
  | .xorImm _ d a b _ => srcSel a && srcSel b && dstSel d
  | .not _ d a => srcSel a && dstSel d
  | .andn _ d a b => srcSel a && srcSel b && dstSel d
  | .andnImm _ d a b _ => srcSel a && srcSel b && dstSel d
  | .bfe _ d a b c _ _ _ => srcSel a && srcSel b && srcSel c && dstSel d
  | .bfi _ d a b c _ _ _ => srcSel a && srcSel b && srcSel c && dstSel d
  | .popc _ d a => srcSel a && dstSel d
  | .clz _ d a => srcSel a && dstSel d
  | .ctz _ d a => srcSel a && dstSel d
  | .brev _ d a => srcSel a && dstSel d
  | .bshuf _ d a b c => srcSel a && srcSel b && srcSel c && dstSel d
  | .cmp _ _ _ a b => srcSel a && srcSel b
  | .cmpImm _ _ _ a b _ => srcSel a && srcSel b
  | .sel _ d a b _ _ => srcSel a && srcSel b && dstSel d
  | .matchLanes _ d a => srcSel a && dstSel d
  | .fadd _ d a b => srcSel a && srcSel b && dstSel d
  | .faddImm _ d a b _ => srcSel a && srcSel b && dstSel d
  | .fsub _ d a b => srcSel a && srcSel b && dstSel d
  | .fsubImm _ d a b _ => srcSel a && srcSel b && dstSel d
  | .fmul _ d a b => srcSel a && srcSel b && dstSel d
  | .fmulImm _ d a b _ => srcSel a && srcSel b && dstSel d
  | .fma _ d a b c => srcSel a && srcSel b && srcSel c && dstSel d
  | .fmin _ d a b => srcSel a && srcSel b && dstSel d
  | .fminImm _ d a b _ => srcSel a && srcSel b && dstSel d
  | .fmax _ d a b => srcSel a && srcSel b && dstSel d
  | .fmaxImm _ d a b _ => srcSel a && srcSel b && dstSel d
  | .fabs _ d a => srcSel a && dstSel d
  | .fneg _ d a => srcSel a && dstSel d
  | .fcmp _ _ _ a b => srcSel a && srcSel b
  | .fcmpImm _ _ _ a b _ => srcSel a && srcSel b
  | .fclass _ d a => srcSel a && dstSel d
  | .frint _ d a => srcSel a && dstSel d
  | .fsqrt _ d a => srcSel a && dstSel d
  | .frcp _ d a => srcSel a && dstSel d
  | .frsq _ d a => srcSel a && dstSel d
  | .fdiv _ d a b => srcSel a && srcSel b && dstSel d
  | .fdivImm _ d a b _ => srcSel a && srcSel b && dstSel d
  | .fscale _ d a b => srcSel a && srcSel b && dstSel d
  | .fscaleImm _ d a b _ => srcSel a && srcSel b && dstSel d
  | .hadd2 _ d a b => srcSel a && srcSel b && dstSel d
  | .hfma2 _ d a b c => srcSel a && srcSel b && srcSel c && dstSel d
  | .bfma2 _ d a b c => srcSel a && srcSel b && srcSel c && dstSel d
  | .dot2 _ d a b c => srcSel a && srcSel b && srcSel c && dstSel d
  | .dot4 _ d a b c => srcSel a && srcSel b && srcSel c && dstSel d
  | .cvt _ d a _ _ => srcSel a && dstSel d
  | .pack _ d a b => srcSel a && srcSel b && dstSel d
  | .unpack _ d a b => srcSel a && srcSel b && dstSel d
  | .unpackImm _ d a b _ => srcSel a && srcSel b && dstSel d
  | .tdec _ d a _ => srcSel a && dstSel d
  | .tenc _ d a b _ => srcSel a && srcSel b && dstSel d
  | .qscale _ d a b _ _ => srcSel a && srcSel b && dstSel d
  | .sin _ d a => srcSel a && dstSel d
  | .cos _ d a => srcSel a && dstSel d
  | .fexp2 _ d a => srcSel a && dstSel d
  | .flog2 _ d a => srcSel a && dstSel d
  | .tanh _ d a => srcSel a && dstSel d
  | .sig _ d a => srcSel a && dstSel d
  | .shfl _ d a b c _ _ _ _ _ => srcSel a && srcSel b && srcSel c && dstSel d
  | .shflRel _ d a b c _ _ _ _ _ => srcSel a && srcSel b && srcSel c && dstSel d
  | .shflXor _ d a b c _ _ _ _ _ => srcSel a && srcSel b && srcSel c && dstSel d
  | .bcast _ d a c _ _ _ => srcSel a && srcSel c && dstSel d
  | .vote _ d _ _ c _ _ => srcSel c && dstSel d
  | .lred _ d a c _ _ _ => srcSel a && srcSel c && dstSel d
  | .ld _ d a b => srcSel a && srcSel b && dstSel d
  | .ldOfs _ d a b _ _ _ _ => srcSel a && srcSel b && dstSel d
  | .st _ d a b => srcSel d && srcSel a && srcSel b
  | .stOfs _ d a b _ _ _ _ => srcSel d && srcSel a && srcSel b
  | .ldsp _ d a b => srcSel a && srcSel b && dstSel d
  | .ldspOfs _ d a b _ _ _ _ => srcSel a && srcSel b && dstSel d
  | .stsp _ d a b => srcSel d && srcSel a && srcSel b
  | .stspOfs _ d a b _ _ _ _ => srcSel d && srcSel a && srcSel b
  | .ldc _ d a b => srcSel a && srcSel b && dstSel d
  | .ldcOfs _ d a b _ _ _ _ => srcSel a && srcSel b && dstSel d
  | .ldq _ d a b => srcSel a && srcSel b && dstSel d
  | .ldqOfs _ d a b _ _ _ _ => srcSel a && srcSel b && dstSel d
  | .pref _ a b => srcSel a && srcSel b
  | .prefOfs _ a b _ _ _ _ => srcSel a && srcSel b
  | .atom _ d a b c _ _ => srcSel a && srcSel b && srcSel c && dstSel d
  | .atomr _ d a b c _ _ => srcSel a && srcSel b && srcSel c && dstSel d
  | .red _ a b _ _ => srcSel a && srcSel b
  | .cflush _ a b => srcSel a && srcSel b
  | .cflushOfs _ a b _ _ _ _ => srcSel a && srcSel b
  | .cinval _ a b => srcSel a && srcSel b
  | .cinvalOfs _ a b _ _ _ _ => srcSel a && srcSel b
  | .spat _ d a b c _ _ _ _ => srcSel a && srcSel b && srcSel c && dstSel d
  | .sfree _ a => srcSel a
  | .qbind _ d a c _ _ _ => srcSel a && srcSel c && dstSel d
  | .qtry _ d a _ => srcSel a && dstSel d
  | .qstat _ d a => srcSel a && dstSel d
  | .call d _ => dstSel d
  | .ret a => srcSel a
  | .jmp a => srcSel a
  | .loop a _ _ _ => srcSel a
  | .cpy _ d a _ _ _ _ _ _ _ _ => srcSel a && dstSel d
  | .gath _ d a _ _ _ _ _ _ _ _ => srcSel a && dstSel d
  | .coll _ d a _ _ _ _ _ _ _ _ => srcSel a && dstSel d
  | .mdesc _ _ a _ => srcSel a
  | .maccInit _ d _ => dstSel d
  | .maccFlush _ d a _ _ _ _ => srcSel a && dstSel d
  | .mrow _ d => dstSel d
  | .mrowWait _ d _ => dstSel d
  | .nwant _ d a b => srcSel a && srcSel b && dstSel d
  | .noffer _ d a b => srcSel a && srcSel b && dstSel d
  | .nclose _ a b => srcSel a && srcSel b
  | .ncloseImm _ a b _ => srcSel a && srcSel b
  | .nlife _ a => srcSel a
  | .nlifeImm _ a _ => srcSel a
  | .mland _ d a b _ _ _ => srcSel a && srcSel b && dstSel d
  | .freezeNested a => srcSel a
  | .convInit _ a => srcSel a
  | .convInitImm _ a _ => srcSel a
  | .barrInit _ a b => srcSel a && srcSel b
  | .barrInitImm _ a b _ => srcSel a && srcSel b
  | .barrWait _ a => srcSel a
  | .barrWaitImm _ a _ => srcSel a
  | .barrTest _ a _ => srcSel a
  | .barrTestImm _ a _ _ => srcSel a
  | .movs d _ => dstSel d
  | .mtsr _ a => srcSel a
  | .wbase a => srcSel a
  | .wbaseImm a _ => srcSel a
  | .rfree a b => srcSel a && srcSel b
  | .preq d a b c => srcSel a && srcSel b && srcSel c && dstSel d
  | .boost d a => srcSel a && dstSel d
  | .sysc d a b => srcSel a && srcSel b && dstSel d
  | .syscImm d a b _ => srcSel a && srcSel b && dstSel d
  | .halt a => srcSel a
  | .tmark a => srcSel a
  | .tmarkImm a _ => srcSel a
  | .bload a b c _ => srcSel a && srcSel b && srcSel c
  | _ => true

/-- Fields that another field leaves unused hold zero (R83, R90, R131, R149). -/
def unusedZero : Instr → Bool
  | .bfe _ _ _ b c pi _ _ => !pi || (b == 0 && c == 0)
  | .bfi _ _ _ _ c pi _ _ => !pi || c == 0
  | .shfl _ _ _ b c mk _ _ ii _ => (mk || c == 0) && (!ii || b == 0)
  | .shflRel _ _ _ b c mk _ _ ii _ => (mk || c == 0) && (!ii || b == 0)
  | .shflXor _ _ _ b c mk _ _ ii _ => (mk || c == 0) && (!ii || b == 0)
  | .bcast _ _ _ c mk lsel lane => (mk || c == 0) && (lsel == 0 || lane == 0)
  | .vote _ _ _ _ c mk _ => mk || c == 0
  | .lred _ _ _ c mk _ _ => mk || c == 0
  | .atom _ _ _ _ c op _ => op == 7 || c == 0
  | .atomr _ _ _ _ c op _ => op == 7 || c == 0
  | .bra ce n q _ => ce || (!n && q == 0)
  | .loop a _ ci _ => !ci || a == 0
  | .freezeNested a => a.toNat != 124
  | _ => true

/-- A cluster number (R4): 144 for each of four dies. -/
def cluster (ci : Nat) : Bool := ci < 576

/-- An island of a die (R3). -/
def island (die isl : Nat) : Bool := die < 4 && isl < 256

/-- The instance number of a 128-bit register (R301). -/
def reg128 : Reg128 → Bool
  | .nrtEnt i => i < 4096
  | .fabCgrp g => g < 256
  | .secSpadWorld ci => cluster ci

/-- Indices of machine steps lie in their ranges. -/
def indexOk : Instr → Bool
  | .binAgeExpiry ci sp _ => cluster ci && sp < 4
  | .matrixOperation ci sp => cluster ci && sp < 4
  | .matrixOperationComplete ci sp => cluster ci && sp < 4
  | .multicastDelivery _ ci => cluster ci
  | .hangReport ci => cluster ci
  | .droopFire ci _ => cluster ci
  | .droopStretchEnd ci => cluster ci
  | .halvedIssueEnd ci => cluster ci
  | .clockHop ci => cluster ci
  | .hopComplete ci => cluster ci
  | .cluClkWrite ci _ => cluster ci
  | .drpCtlWrite ci _ => cluster ci
  | .lchQtailWrite fn q _ => fn < 16 && q < 256
  | .lchQcfgWrite q _ => q < 256
  | .launchAccept q => q < 256
  | .faultReplay ctx page => ctx < 256 && page < 2 ^ 36
  | .faultDecline ctx page => ctx < 256 && page < 2 ^ 36
  | .invalidateContext ctx => ctx < 256
  | .invalidatePage ctx page => ctx < 256 && page < 2 ^ 36
  | .migratePage ctx page => ctx < 256 && page < 2 ^ 36
  | .teardown ctx => ctx < 256
  | .reg128StagingWrite r w _ _ => reg128 r && w < 4
  | .reg128LowRead r => reg128 r
  | .nrtEntWrite i _ _ => i < 4096
  | .fabCgrpWrite g _ _ _ => g < 256
  | .secSpWorldWrite ci _ => cluster ci
  | .slcWaymapWrite die _ => die < 4
  | .lockInterfaceRequest n => n < 16
  | .startInterfaceRequest n => n < 16
  | .stopInterfaceRequest n => n < 16
  | .portHealthSample port _ _ _ => port < 36
  | .linkRetrainComplete port => port < 36
  | .pwrIslVsetWrite die isl _ => island die isl
  | .pwrIslFsetWrite die isl _ => island die isl
  | .synthLockComplete die isl => island die isl
  | .voltageStep die isl => island die isl
  | .islandTelemetryRefresh die isl _ => island die isl
  | .stallWindow ci => cluster ci
  | .memoryRailSample _ => true
  | .diePowerSample die => die < 4
  | .thermalClampStart die isl _ => island die isl
  | .thermalTrip die isl _ => island die isl
  | .thermalRecover die isl _ => island die isl
  | .boostEnd die isl => island die isl
  | .restStart ci => cluster ci
  | .restEnd ci => cluster ci
  | .vfFlr n => n < 16
  | .droopRearm ci => cluster ci
  | _ => true

/-- The words of an `illegalOp` have the kinds their case says (R13, R16, R19). -/
def badWordsOk : Instr → Bool
  | .illegalOp (.orphanTail w) => w.toNat / 2 ^ 30 == 3
  | .illegalOp (.headWithoutTail _ w) => w.toNat / 2 ^ 30 == 1
  | .illegalOp (.orphanPrefix w) => w.toNat / 2 ^ 30 == 2
  | .illegalOp (.unassigned _ w) => w.toNat / 2 ^ 30 < 2
  | _ => true

/-- A well-formed instruction. -/
def Instr.wellFormed (i : Instr) : Bool :=
  pfxOk i.pfx && selsOk i && unusedZero i && indexOk i && badWordsOk i

end Sys2Proof
end

