-- ==== Sys2Proof/Decode.lean ====
section
/-!
DEFINITION. Decoding of instruction words (R13 to R19, R33 to R35) and, after it, their encoding.
Decoding is total: words that form no instruction decode to `illegalOp`, which names what is wrong
with them; only words that are missing from the list are rejected.
-/

namespace Sys2Proof

/-- Bits `lo + n - 1 : lo` of a word. -/
def fld (n lo : Nat) (w : Word) : BitVec n := BitVec.ofNat n (w.toNat / 2 ^ lo)

/-- Bit `lo` of a word. -/
def flag (lo : Nat) (w : Word) : Bool := w.toNat / 2 ^ lo % 2 == 1

/-- The `n` bits from `lo` on are a `res` field that is zero (R14, R15). -/
def zeroAt (lo n : Nat) (w : Word) : Bool := w.toNat / 2 ^ lo % 2 ^ n == 0

/-- KIND (R13). -/
def kindOf (w : Word) : Nat := w.toNat / 2 ^ 30

/-- OP (R14). -/
def opOf (w : Word) : Nat := w.toNat / 2 ^ 21 % 512

/-- Why a list of words decodes to nothing: words are missing from it. -/
inductive DecodeReject where
  /-- The list is empty, or its bytes are fewer than a word. -/
  | noWord
  /-- A head or a prefix is the last word. -/
  | missingSecond
  /-- A prefix and a head are the last words. -/
  | missingThird
  deriving DecidableEq, Repr

/-- The fields of a prefix word (R18). -/
def decPfx (w : Word) : Pfx where
  rnd := fld 3 27 w
  sat := flag 26 w
  nf := flag 25 w
  gp := fld 3 22 w
  ge := flag 21 w
  gn := flag 20 w
  ea := flag 19 w
  eb := flag 18 w
  ha := flag 17 w
  hb := flag 16 w
  ty := fld 4 12 w

/-- The short map of group 0 (R34), by index; `none` for an unassigned slot or a nonzero `res` field. -/
def decShort0 (p : Option Pfx) (h : Word) : Nat → Option Instr
  | 0 => some (.add p (fld 7 14 h) (fld 7 7 h) (fld 7 0 h))
  | 1 => some (.sub p (fld 7 14 h) (fld 7 7 h) (fld 7 0 h))
  | 2 => some (.addc p (fld 7 14 h) (fld 7 7 h) (fld 7 0 h))
  | 3 => some (.subb p (fld 7 14 h) (fld 7 7 h) (fld 7 0 h))
  | 4 => some (.mul p (fld 7 14 h) (fld 7 7 h) (fld 7 0 h))
  | 5 => some (.mulh p (fld 7 14 h) (fld 7 7 h) (fld 7 0 h))
  | 8 => some (.div p (fld 7 14 h) (fld 7 7 h) (fld 7 0 h))
  | 9 => some (.rem p (fld 7 14 h) (fld 7 7 h) (fld 7 0 h))
  | 10 => if zeroAt 0 7 h then some (.neg p (fld 7 14 h) (fld 7 7 h)) else none
  | 11 => if zeroAt 0 7 h then some (.abs p (fld 7 14 h) (fld 7 7 h)) else none
  | 12 => some (.min p (fld 7 14 h) (fld 7 7 h) (fld 7 0 h))
  | 13 => some (.max p (fld 7 14 h) (fld 7 7 h) (fld 7 0 h))
  | 14 => some (.shl p (fld 7 14 h) (fld 7 7 h) (fld 7 0 h))
  | 15 => some (.shr p (fld 7 14 h) (fld 7 7 h) (fld 7 0 h))
  | 16 => some (.sar p (fld 7 14 h) (fld 7 7 h) (fld 7 0 h))
  | 17 => some (.rotl p (fld 7 14 h) (fld 7 7 h) (fld 7 0 h))
  | 19 => some (.addp p (fld 7 14 h) (fld 7 7 h) (fld 7 0 h))
  | 20 => some (.subp p (fld 7 14 h) (fld 7 7 h) (fld 7 0 h))
  | 22 => if zeroAt 0 7 h then some (.mov p (fld 7 14 h) (fld 7 7 h)) else none
  | _ => none

/-- The long map of group 0 (R34), by index; `none` for an unassigned slot or a nonzero `res` field. -/
def decLong0 (p : Option Pfx) (h t : Word) : Nat → Option Instr
  | 0 => some (.addImm p (fld 7 14 h) (fld 7 7 h) (fld 7 0 h) (fld 30 0 t))
  | 1 => some (.subImm p (fld 7 14 h) (fld 7 7 h) (fld 7 0 h) (fld 30 0 t))
  | 2 => some (.addcImm p (fld 7 14 h) (fld 7 7 h) (fld 7 0 h) (fld 30 0 t))
  | 3 => some (.subbImm p (fld 7 14 h) (fld 7 7 h) (fld 7 0 h) (fld 30 0 t))
  | 4 => some (.mulImm p (fld 7 14 h) (fld 7 7 h) (fld 7 0 h) (fld 30 0 t))
  | 5 => some (.mulhImm p (fld 7 14 h) (fld 7 7 h) (fld 7 0 h) (fld 30 0 t))
  | 6 => if zeroAt 0 23 t then some (.mad p (fld 7 14 h) (fld 7 7 h) (fld 7 0 h) (fld 7 23 t)) else none
  | 7 => if zeroAt 0 23 t then some (.madw p (fld 7 14 h) (fld 7 7 h) (fld 7 0 h) (fld 7 23 t)) else none
  | 8 => some (.divImm p (fld 7 14 h) (fld 7 7 h) (fld 7 0 h) (fld 30 0 t))
  | 9 => some (.remImm p (fld 7 14 h) (fld 7 7 h) (fld 7 0 h) (fld 30 0 t))
  | 12 => some (.minImm p (fld 7 14 h) (fld 7 7 h) (fld 7 0 h) (fld 30 0 t))
  | 13 => some (.maxImm p (fld 7 14 h) (fld 7 7 h) (fld 7 0 h) (fld 30 0 t))
  | 14 => some (.shlImm p (fld 7 14 h) (fld 7 7 h) (fld 7 0 h) (fld 30 0 t))
  | 15 => some (.shrImm p (fld 7 14 h) (fld 7 7 h) (fld 7 0 h) (fld 30 0 t))
  | 16 => some (.sarImm p (fld 7 14 h) (fld 7 7 h) (fld 7 0 h) (fld 30 0 t))
  | 17 => some (.rotlImm p (fld 7 14 h) (fld 7 7 h) (fld 7 0 h) (fld 30 0 t))
  | 18 => if zeroAt 0 20 t then some (.lea p (fld 7 14 h) (fld 7 7 h) (fld 7 0 h) (fld 7 23 t) (fld 3 20 t)) else none
  | 19 => some (.addpImm p (fld 7 14 h) (fld 7 7 h) (fld 7 0 h) (fld 30 0 t))
  | 21 => if fld 7 0 h == 125#7 && zeroAt 1 1 h && zeroAt 7 7 h then some (.movi p (fld 7 14 h) (fld 30 0 t)) else none
  | _ => none

/-- The short map of group 1 (R34), by index; `none` for an unassigned slot or a nonzero `res` field. -/
def decShort1 (p : Option Pfx) (h : Word) : Nat → Option Instr
  | 0 => some (.and p (fld 7 14 h) (fld 7 7 h) (fld 7 0 h))
  | 1 => some (.or p (fld 7 14 h) (fld 7 7 h) (fld 7 0 h))
  | 2 => some (.xor p (fld 7 14 h) (fld 7 7 h) (fld 7 0 h))
  | 3 => if zeroAt 0 7 h then some (.not p (fld 7 14 h) (fld 7 7 h)) else none
  | 4 => some (.andn p (fld 7 14 h) (fld 7 7 h) (fld 7 0 h))
  | 7 => if zeroAt 0 7 h then some (.popc p (fld 7 14 h) (fld 7 7 h)) else none
  | 8 => if zeroAt 0 7 h then some (.clz p (fld 7 14 h) (fld 7 7 h)) else none
  | 9 => if zeroAt 0 7 h then some (.ctz p (fld 7 14 h) (fld 7 7 h)) else none
  | 10 => if zeroAt 0 7 h then some (.brev p (fld 7 14 h) (fld 7 7 h)) else none
  | 12 => some (.cmp p (fld 3 14 h) (fld 4 17 h) (fld 7 7 h) (fld 7 0 h))
  | 14 => if zeroAt 4 3 h && zeroAt 11 3 h && zeroAt 17 4 h then some (.pand p (fld 3 14 h) (flag 10 h) (fld 3 7 h) (flag 3 h) (fld 3 0 h)) else none
  | 15 => if zeroAt 4 3 h && zeroAt 11 3 h && zeroAt 17 4 h then some (.por p (fld 3 14 h) (flag 10 h) (fld 3 7 h) (flag 3 h) (fld 3 0 h)) else none
  | 16 => if zeroAt 4 3 h && zeroAt 11 3 h && zeroAt 17 4 h then some (.pxor p (fld 3 14 h) (flag 10 h) (fld 3 7 h) (flag 3 h) (fld 3 0 h)) else none
  | 17 => if zeroAt 0 7 h && zeroAt 11 3 h && zeroAt 17 4 h then some (.pnot p (fld 3 14 h) (flag 10 h) (fld 3 7 h)) else none
  | 18 => if zeroAt 0 7 h && zeroAt 11 3 h && zeroAt 17 4 h then some (.pmov p (fld 3 14 h) (flag 10 h) (fld 3 7 h)) else none
  | 19 => if zeroAt 0 7 h then some (.matchLanes p (fld 7 14 h) (fld 7 7 h)) else none
  | _ => none

/-- The long map of group 1 (R34), by index; `none` for an unassigned slot or a nonzero `res` field. -/
def decLong1 (p : Option Pfx) (h t : Word) : Nat → Option Instr
  | 0 => some (.andImm p (fld 7 14 h) (fld 7 7 h) (fld 7 0 h) (fld 30 0 t))
  | 1 => some (.orImm p (fld 7 14 h) (fld 7 7 h) (fld 7 0 h) (fld 30 0 t))
  | 2 => some (.xorImm p (fld 7 14 h) (fld 7 7 h) (fld 7 0 h) (fld 30 0 t))
  | 4 => some (.andnImm p (fld 7 14 h) (fld 7 7 h) (fld 7 0 h) (fld 30 0 t))
  | 5 => if zeroAt 0 8 t then some (.bfe p (fld 7 14 h) (fld 7 7 h) (fld 7 0 h) (fld 7 23 t) (flag 22 t) (fld 7 15 t) (fld 7 8 t)) else none
  | 6 => if zeroAt 0 8 t then some (.bfi p (fld 7 14 h) (fld 7 7 h) (fld 7 0 h) (fld 7 23 t) (flag 22 t) (fld 7 15 t) (fld 7 8 t)) else none
  | 11 => if zeroAt 0 23 t then some (.bshuf p (fld 7 14 h) (fld 7 7 h) (fld 7 0 h) (fld 7 23 t)) else none
  | 12 => some (.cmpImm p (fld 3 14 h) (fld 4 17 h) (fld 7 7 h) (fld 7 0 h) (fld 30 0 t))
  | 13 => if zeroAt 4 26 t then some (.sel p (fld 7 14 h) (fld 7 7 h) (fld 7 0 h) (flag 3 t) (fld 3 0 t)) else none
  | _ => none

/-- The short map of group 2 (R34), by index; `none` for an unassigned slot or a nonzero `res` field. -/
def decShort2 (p : Option Pfx) (h : Word) : Nat → Option Instr
  | 0 => some (.fadd p (fld 7 14 h) (fld 7 7 h) (fld 7 0 h))
  | 1 => some (.fsub p (fld 7 14 h) (fld 7 7 h) (fld 7 0 h))
  | 2 => some (.fmul p (fld 7 14 h) (fld 7 7 h) (fld 7 0 h))
  | 4 => some (.fmin p (fld 7 14 h) (fld 7 7 h) (fld 7 0 h))
  | 5 => some (.fmax p (fld 7 14 h) (fld 7 7 h) (fld 7 0 h))
  | 6 => if zeroAt 0 7 h then some (.fabs p (fld 7 14 h) (fld 7 7 h)) else none
  | 7 => if zeroAt 0 7 h then some (.fneg p (fld 7 14 h) (fld 7 7 h)) else none
  | 8 => some (.fcmp p (fld 3 14 h) (fld 4 17 h) (fld 7 7 h) (fld 7 0 h))
  | 9 => if zeroAt 0 7 h then some (.fclass p (fld 7 14 h) (fld 7 7 h)) else none
  | 10 => if zeroAt 0 7 h then some (.frint p (fld 7 14 h) (fld 7 7 h)) else none
  | 11 => if zeroAt 0 7 h then some (.fsqrt p (fld 7 14 h) (fld 7 7 h)) else none
  | 12 => if zeroAt 0 7 h then some (.frcp p (fld 7 14 h) (fld 7 7 h)) else none
  | 13 => if zeroAt 0 7 h then some (.frsq p (fld 7 14 h) (fld 7 7 h)) else none
  | 14 => some (.fdiv p (fld 7 14 h) (fld 7 7 h) (fld 7 0 h))
  | 15 => some (.fscale p (fld 7 14 h) (fld 7 7 h) (fld 7 0 h))
  | 16 => some (.hadd2 p (fld 7 14 h) (fld 7 7 h) (fld 7 0 h))
  | _ => none

/-- The long map of group 2 (R34), by index; `none` for an unassigned slot or a nonzero `res` field. -/
def decLong2 (p : Option Pfx) (h t : Word) : Nat → Option Instr
  | 0 => some (.faddImm p (fld 7 14 h) (fld 7 7 h) (fld 7 0 h) (fld 30 0 t))
  | 1 => some (.fsubImm p (fld 7 14 h) (fld 7 7 h) (fld 7 0 h) (fld 30 0 t))
  | 2 => some (.fmulImm p (fld 7 14 h) (fld 7 7 h) (fld 7 0 h) (fld 30 0 t))
  | 3 => if zeroAt 0 23 t then some (.fma p (fld 7 14 h) (fld 7 7 h) (fld 7 0 h) (fld 7 23 t)) else none
  | 4 => some (.fminImm p (fld 7 14 h) (fld 7 7 h) (fld 7 0 h) (fld 30 0 t))
  | 5 => some (.fmaxImm p (fld 7 14 h) (fld 7 7 h) (fld 7 0 h) (fld 30 0 t))
  | 8 => some (.fcmpImm p (fld 3 14 h) (fld 4 17 h) (fld 7 7 h) (fld 7 0 h) (fld 30 0 t))
  | 14 => some (.fdivImm p (fld 7 14 h) (fld 7 7 h) (fld 7 0 h) (fld 30 0 t))
  | 15 => some (.fscaleImm p (fld 7 14 h) (fld 7 7 h) (fld 7 0 h) (fld 30 0 t))
  | 17 => if zeroAt 0 23 t then some (.hfma2 p (fld 7 14 h) (fld 7 7 h) (fld 7 0 h) (fld 7 23 t)) else none
  | 18 => if zeroAt 0 23 t then some (.bfma2 p (fld 7 14 h) (fld 7 7 h) (fld 7 0 h) (fld 7 23 t)) else none
  | 19 => if zeroAt 0 23 t then some (.dot2 p (fld 7 14 h) (fld 7 7 h) (fld 7 0 h) (fld 7 23 t)) else none
  | 20 => if zeroAt 0 23 t then some (.dot4 p (fld 7 14 h) (fld 7 7 h) (fld 7 0 h) (fld 7 23 t)) else none
  | _ => none

/-- The short map of group 3 (R34), by index; `none` for an unassigned slot or a nonzero `res` field. -/
def decShort3 (p : Option Pfx) (h : Word) : Nat → Option Instr
  | 1 => some (.pack p (fld 7 14 h) (fld 7 7 h) (fld 7 0 h))
  | 2 => some (.unpack p (fld 7 14 h) (fld 7 7 h) (fld 7 0 h))
  | 6 => if zeroAt 0 7 h then some (.sin p (fld 7 14 h) (fld 7 7 h)) else none
  | 7 => if zeroAt 0 7 h then some (.cos p (fld 7 14 h) (fld 7 7 h)) else none
  | 8 => if zeroAt 0 7 h then some (.fexp2 p (fld 7 14 h) (fld 7 7 h)) else none
  | 9 => if zeroAt 0 7 h then some (.flog2 p (fld 7 14 h) (fld 7 7 h)) else none
  | 10 => if zeroAt 0 7 h then some (.tanh p (fld 7 14 h) (fld 7 7 h)) else none
  | 11 => if zeroAt 0 7 h then some (.sig p (fld 7 14 h) (fld 7 7 h)) else none
  | _ => none

/-- The long map of group 3 (R34), by index; `none` for an unassigned slot or a nonzero `res` field. -/
def decLong3 (p : Option Pfx) (h t : Word) : Nat → Option Instr
  | 0 => if zeroAt 0 7 h && zeroAt 0 15 t && zeroAt 23 7 t then some (.cvt p (fld 7 14 h) (fld 7 7 h) (fld 4 19 t) (fld 4 15 t)) else none
  | 2 => some (.unpackImm p (fld 7 14 h) (fld 7 7 h) (fld 7 0 h) (fld 30 0 t))
  | 3 => if zeroAt 0 7 h && zeroAt 0 21 t && zeroAt 23 7 t then some (.tdec p (fld 7 14 h) (fld 7 7 h) (fld 2 21 t)) else none
  | 4 => if zeroAt 0 21 t && zeroAt 23 7 t then some (.tenc p (fld 7 14 h) (fld 7 7 h) (fld 7 0 h) (fld 2 21 t)) else none
  | 5 => if zeroAt 0 20 t && zeroAt 23 7 t then some (.qscale p (fld 7 14 h) (fld 7 7 h) (fld 7 0 h) (flag 22 t) (fld 2 20 t)) else none
  | 12 => if zeroAt 0 11 t then some (.shfl p (fld 7 14 h) (fld 7 7 h) (fld 7 0 h) (fld 7 23 t) (flag 22 t) (flag 21 t) (fld 3 18 t) (flag 17 t) (fld 6 11 t)) else none
  | 13 => if zeroAt 0 11 t then some (.shflRel p (fld 7 14 h) (fld 7 7 h) (fld 7 0 h) (fld 7 23 t) (flag 22 t) (flag 21 t) (fld 3 18 t) (flag 17 t) (fld 6 11 t)) else none
  | 14 => if zeroAt 0 11 t then some (.shflXor p (fld 7 14 h) (fld 7 7 h) (fld 7 0 h) (fld 7 23 t) (flag 22 t) (flag 21 t) (fld 3 18 t) (flag 17 t) (fld 6 11 t)) else none
  | 15 => if zeroAt 0 7 h && zeroAt 0 15 t then some (.bcast p (fld 7 14 h) (fld 7 7 h) (fld 7 23 t) (flag 22 t) (fld 2 20 t) (fld 5 15 t)) else none
  | 16 => if zeroAt 0 7 h && zeroAt 11 3 h && zeroAt 0 19 t then some (.vote p (fld 7 14 h) (flag 10 h) (fld 3 7 h) (fld 7 23 t) (flag 22 t) (fld 3 19 t)) else none
  | 17 => if zeroAt 0 7 h && zeroAt 0 16 t then some (.lred p (fld 7 14 h) (fld 7 7 h) (fld 7 23 t) (flag 22 t) (fld 3 19 t) (fld 3 16 t)) else none
  | _ => none

/-- The short map of group 4 (R34), by index; `none` for an unassigned slot or a nonzero `res` field. -/
def decShort4 (p : Option Pfx) (h : Word) : Nat → Option Instr
  | 0 => some (.ld p (fld 7 14 h) (fld 7 7 h) (fld 7 0 h))
  | 1 => some (.st p (fld 7 14 h) (fld 7 7 h) (fld 7 0 h))
  | 2 => some (.ldsp p (fld 7 14 h) (fld 7 7 h) (fld 7 0 h))
  | 3 => some (.stsp p (fld 7 14 h) (fld 7 7 h) (fld 7 0 h))
  | 4 => some (.ldc p (fld 7 14 h) (fld 7 7 h) (fld 7 0 h))
  | 5 => some (.ldq p (fld 7 14 h) (fld 7 7 h) (fld 7 0 h))
  | 6 => if zeroAt 14 7 h then some (.pref p (fld 7 7 h) (fld 7 0 h)) else none
  | 10 => if zeroAt 0 21 h then some (.fenceEng p) else none
  | 11 => if zeroAt 0 21 h then some (.fenceSys p) else none
  | 12 => if zeroAt 14 7 h then some (.cflush p (fld 7 7 h) (fld 7 0 h)) else none
  | 13 => if zeroAt 14 7 h then some (.cinval p (fld 7 7 h) (fld 7 0 h)) else none
  | 15 => if zeroAt 0 7 h && zeroAt 14 7 h then some (.sfree p (fld 7 7 h)) else none
  | 17 => if zeroAt 3 4 h then some (.qtry p (fld 7 14 h) (fld 7 7 h) (fld 3 0 h)) else none
  | 18 => if zeroAt 0 7 h then some (.qstat p (fld 7 14 h) (fld 7 7 h)) else none
  | _ => none

/-- The long map of group 4 (R34), by index; `none` for an unassigned slot or a nonzero `res` field. -/
def decLong4 (p : Option Pfx) (h t : Word) : Nat → Option Instr
  | 0 => some (.ldOfs p (fld 7 14 h) (fld 7 7 h) (fld 7 0 h) (fld 24 6 t) (fld 2 4 t) (flag 3 t) (fld 3 0 t))
  | 1 => some (.stOfs p (fld 7 14 h) (fld 7 7 h) (fld 7 0 h) (fld 24 6 t) (fld 2 4 t) (flag 3 t) (fld 3 0 t))
  | 2 => some (.ldspOfs p (fld 7 14 h) (fld 7 7 h) (fld 7 0 h) (fld 24 6 t) (fld 2 4 t) (flag 3 t) (fld 3 0 t))
  | 3 => some (.stspOfs p (fld 7 14 h) (fld 7 7 h) (fld 7 0 h) (fld 24 6 t) (fld 2 4 t) (flag 3 t) (fld 3 0 t))
  | 4 => some (.ldcOfs p (fld 7 14 h) (fld 7 7 h) (fld 7 0 h) (fld 24 6 t) (fld 2 4 t) (flag 3 t) (fld 3 0 t))
  | 5 => some (.ldqOfs p (fld 7 14 h) (fld 7 7 h) (fld 7 0 h) (fld 24 6 t) (fld 2 4 t) (flag 3 t) (fld 3 0 t))
  | 6 => if zeroAt 14 7 h then some (.prefOfs p (fld 7 7 h) (fld 7 0 h) (fld 24 6 t) (fld 2 4 t) (flag 3 t) (fld 3 0 t)) else none
  | 7 => if zeroAt 0 18 t then some (.atom p (fld 7 14 h) (fld 7 7 h) (fld 7 0 h) (fld 7 23 t) (fld 4 19 t) (flag 18 t)) else none
  | 8 => if zeroAt 0 18 t then some (.atomr p (fld 7 14 h) (fld 7 7 h) (fld 7 0 h) (fld 7 23 t) (fld 4 19 t) (flag 18 t)) else none
  | 9 => if zeroAt 14 7 h && zeroAt 0 18 t && zeroAt 23 7 t then some (.red p (fld 7 7 h) (fld 7 0 h) (fld 4 19 t) (flag 18 t)) else none
  | 12 => if zeroAt 14 7 h then some (.cflushOfs p (fld 7 7 h) (fld 7 0 h) (fld 24 6 t) (fld 2 4 t) (flag 3 t) (fld 3 0 t)) else none
  | 13 => if zeroAt 14 7 h then some (.cinvalOfs p (fld 7 7 h) (fld 7 0 h) (fld 24 6 t) (fld 2 4 t) (flag 3 t) (fld 3 0 t)) else none
  | 14 => if zeroAt 0 4 t then some (.spat p (fld 7 14 h) (fld 7 7 h) (fld 7 0 h) (fld 7 23 t) (fld 2 21 t) (flag 20 t) (fld 4 16 t) (fld 12 4 t)) else none
  | 16 => if zeroAt 0 7 h && zeroAt 0 17 t then some (.qbind p (fld 7 14 h) (fld 7 7 h) (fld 7 23 t) (fld 4 19 t) (flag 18 t) (flag 17 t)) else none
  | _ => none

/-- The short map of group 5 (R34), by index; `none` for an unassigned slot or a nonzero `res` field. -/
def decShort5 (h : Word) : Nat → Option Instr
  | 2 => if zeroAt 0 21 h then some (.join) else none
  | 3 => if zeroAt 0 21 h then some (.reform) else none
  | 5 => if zeroAt 0 7 h && zeroAt 14 7 h then some (.ret (fld 7 7 h)) else none
  | 6 => if zeroAt 0 7 h && zeroAt 14 7 h then some (.jmp (fld 7 7 h)) else none
  | 8 => if zeroAt 0 21 h then some (.lbrk) else none
  | 9 => if zeroAt 0 21 h then some (.exit) else none
  | 10 => some (.trap (fld 21 0 h))
  | 11 => some (.brk (fld 21 0 h))
  | 12 => if zeroAt 0 21 h then some (.nop) else none
  | _ => none

/-- The long map of group 5 (R34), by index; `none` for an unassigned slot or a nonzero `res` field. -/
def decLong5 (h t : Word) : Nat → Option Instr
  | 0 => if zeroAt 0 14 h && zeroAt 19 2 h then some (.bra (flag 18 h) (flag 17 h) (fld 3 14 h) (fld 30 0 t)) else none
  | 1 => if zeroAt 0 14 h && zeroAt 18 3 h then some (.brd (flag 17 h) (fld 3 14 h) (fld 15 15 t) (fld 15 0 t)) else none
  | 4 => if zeroAt 0 14 h then some (.call (fld 7 14 h) (fld 30 0 t)) else none
  | 7 => if zeroAt 0 7 h && zeroAt 14 7 h then some (.loop (fld 7 7 h) (fld 14 16 t) (flag 15 t) (fld 15 0 t)) else none
  | _ => none

/-- The short map of group 6 (R34), by index; `none` for an unassigned slot or a nonzero `res` field. -/
def decShort6 (p : Option Pfx) (h : Word) : Nat → Option Instr
  | 4 => if zeroAt 0 7 h && zeroAt 10 11 h then some (.msign p (fld 3 7 h)) else none
  | 5 => if zeroAt 0 1 h && zeroAt 10 4 h && zeroAt 17 4 h then some (.mma p (fld 3 14 h) (fld 3 7 h) (flag 6 h) (flag 5 h) (flag 4 h) (fld 3 1 h)) else none
  | 6 => if zeroAt 0 1 h && zeroAt 7 7 h && zeroAt 17 4 h then some (.mmaElect p (fld 3 14 h) (flag 6 h) (flag 5 h) (flag 4 h) (fld 3 1 h)) else none
  | 7 => if zeroAt 0 7 h && zeroAt 10 4 h then some (.maccInit p (fld 7 14 h) (fld 3 7 h)) else none
  | 9 => if flag 10 h then (if zeroAt 0 7 h && zeroAt 11 3 h then some (.mrowWait p (fld 7 14 h) (fld 3 7 h)) else none) else (if zeroAt 0 14 h then some (.mrow p (fld 7 14 h)) else none)
  | 10 => some (.nwant p (fld 7 14 h) (fld 7 7 h) (fld 7 0 h))
  | 11 => some (.noffer p (fld 7 14 h) (fld 7 7 h) (fld 7 0 h))
  | 12 => if zeroAt 14 7 h then some (.nclose p (fld 7 7 h) (fld 7 0 h)) else none
  | 13 => if zeroAt 0 7 h && zeroAt 14 7 h then some (.nlife p (fld 7 7 h)) else none
  | _ => none

/-- The long map of group 6 (R34), by index; `none` for an unassigned slot or a nonzero `res` field. -/
def decLong6 (p : Option Pfx) (h t : Word) : Nat → Option Instr
  | 0 => if zeroAt 0 7 h && zeroAt 0 3 t && zeroAt 23 7 t then some (.cpy p (fld 7 14 h) (fld 7 7 h) (fld 8 15 t) (flag 14 t) (flag 13 t) (flag 12 t) (flag 11 t) (fld 3 8 t) (flag 7 t) (fld 4 3 t)) else none
  | 1 => if zeroAt 0 7 h && zeroAt 0 3 t && zeroAt 23 7 t then some (.gath p (fld 7 14 h) (fld 7 7 h) (fld 8 15 t) (flag 14 t) (flag 13 t) (flag 12 t) (flag 11 t) (fld 3 8 t) (flag 7 t) (fld 4 3 t)) else none
  | 2 => if zeroAt 0 7 h && zeroAt 0 3 t && zeroAt 23 7 t then some (.coll p (fld 7 14 h) (fld 7 7 h) (fld 8 15 t) (flag 14 t) (flag 13 t) (flag 12 t) (flag 11 t) (fld 3 8 t) (flag 7 t) (fld 4 3 t)) else none
  | 3 => if zeroAt 0 7 h && zeroAt 17 4 h && zeroAt 0 22 t && zeroAt 23 7 t then some (.mdesc p (fld 3 14 h) (fld 7 7 h) (flag 22 t)) else none
  | 8 => if zeroAt 3 4 h && zeroAt 0 18 t && zeroAt 23 7 t then some (.maccFlush p (fld 7 14 h) (fld 7 7 h) (fld 3 0 h) (flag 22 t) (flag 21 t) (fld 3 18 t)) else none
  | 12 => if zeroAt 14 7 h then some (.ncloseImm p (fld 7 7 h) (fld 7 0 h) (fld 30 0 t)) else none
  | 13 => if zeroAt 0 7 h && zeroAt 14 7 h then some (.nlifeImm p (fld 7 7 h) (fld 30 0 t)) else none
  | 14 => if zeroAt 0 15 t && zeroAt 23 7 t then some (.mland p (fld 7 14 h) (fld 7 7 h) (fld 7 0 h) (fld 3 20 t) (flag 19 t) (fld 4 15 t)) else none
  | _ => none

/-- The short map of group 7 (R34), by index; `none` for an unassigned slot or a nonzero `res` field. -/
def decShort7 (h : Word) : Nat → Option Instr
  | 0 => if fld 7 7 h == 124#7 then (if zeroAt 0 9 h && zeroAt 14 7 h then some (.freeze) else none) else (if zeroAt 0 7 h && zeroAt 14 7 h then some (.freezeNested (fld 7 7 h)) else none)
  | 1 => if zeroAt 0 21 h then some (.next) else none
  | 2 => if zeroAt 0 7 h && zeroAt 17 4 h then some (.convInit (fld 3 14 h) (fld 7 7 h)) else none
  | 3 => if zeroAt 18 3 h then some (.barrInit (fld 4 14 h) (fld 7 7 h) (fld 7 0 h)) else none
  | 4 => if zeroAt 0 14 h && zeroAt 18 3 h then some (.barrArrive (fld 4 14 h)) else none
  | 5 => if zeroAt 0 7 h && zeroAt 18 3 h then some (.barrWait (fld 4 14 h) (fld 7 7 h)) else none
  | 6 => if zeroAt 4 3 h && zeroAt 17 4 h then some (.barrTest (fld 3 14 h) (fld 7 7 h) (fld 4 0 h)) else none
  | 7 => if zeroAt 0 7 h then some (.movs (fld 7 14 h) (fld 7 7 h)) else none
  | 8 => if zeroAt 0 7 h then some (.mtsr (fld 7 14 h) (fld 7 7 h)) else none
  | 9 => if zeroAt 0 7 h && zeroAt 14 7 h then some (.wbase (fld 7 7 h)) else none
  | 10 => if zeroAt 14 7 h then some (.rfree (fld 7 7 h) (fld 7 0 h)) else none
  | 11 => if zeroAt 12 9 h then some (.region (fld 12 0 h)) else none
  | 13 => if zeroAt 0 7 h then some (.boost (fld 7 14 h) (fld 7 7 h)) else none
  | 14 => some (.sysc (fld 7 14 h) (fld 7 7 h) (fld 7 0 h))
  | 15 => if zeroAt 0 21 h then some (.tret) else none
  | 16 => if zeroAt 0 7 h && zeroAt 14 7 h then some (.halt (fld 7 7 h)) else none
  | 17 => if zeroAt 0 7 h && zeroAt 14 7 h then some (.tmark (fld 7 7 h)) else none
  | _ => none

/-- The long map of group 7 (R34), by index; `none` for an unassigned slot or a nonzero `res` field. -/
def decLong7 (h t : Word) : Nat → Option Instr
  | 2 => if zeroAt 0 7 h && zeroAt 17 4 h then some (.convInitImm (fld 3 14 h) (fld 7 7 h) (fld 30 0 t)) else none
  | 3 => if zeroAt 18 3 h then some (.barrInitImm (fld 4 14 h) (fld 7 7 h) (fld 7 0 h) (fld 30 0 t)) else none
  | 5 => if zeroAt 0 7 h && zeroAt 18 3 h then some (.barrWaitImm (fld 4 14 h) (fld 7 7 h) (fld 30 0 t)) else none
  | 6 => if zeroAt 4 3 h && zeroAt 17 4 h then some (.barrTestImm (fld 3 14 h) (fld 7 7 h) (fld 4 0 h) (fld 30 0 t)) else none
  | 9 => if zeroAt 0 7 h && zeroAt 14 7 h then some (.wbaseImm (fld 7 7 h) (fld 30 0 t)) else none
  | 12 => if zeroAt 0 23 t then some (.preq (fld 7 14 h) (fld 7 7 h) (fld 7 0 h) (fld 7 23 t)) else none
  | 14 => some (.syscImm (fld 7 14 h) (fld 7 7 h) (fld 7 0 h) (fld 30 0 t))
  | 17 => if zeroAt 0 7 h && zeroAt 14 7 h then some (.tmarkImm (fld 7 7 h) (fld 30 0 t)) else none
  | 18 => if zeroAt 14 7 h && zeroAt 0 19 t then some (.bload (fld 7 7 h) (fld 7 0 h) (fld 7 23 t) (fld 4 19 t)) else none
  | _ => none

/-- The short map (R33): group OP<8:6>, index OP<5:0>. -/
def decShort (p : Option Pfx) (h : Word) : Option Instr :=
  match opOf h / 64 with
  | 0 => decShort0 p h (opOf h % 64)
  | 1 => decShort1 p h (opOf h % 64)
  | 2 => decShort2 p h (opOf h % 64)
  | 3 => decShort3 p h (opOf h % 64)
  | 4 => decShort4 p h (opOf h % 64)
  | 5 => decShort5 h (opOf h % 64)
  | 6 => decShort6 p h (opOf h % 64)
  | 7 => decShort7 h (opOf h % 64)
  | _ => none

/-- The long map (R33): group OP<8:6>, index OP<5:0>. -/
def decLong (p : Option Pfx) (h t : Word) : Option Instr :=
  match opOf h / 64 with
  | 0 => decLong0 p h t (opOf h % 64)
  | 1 => decLong1 p h t (opOf h % 64)
  | 2 => decLong2 p h t (opOf h % 64)
  | 3 => decLong3 p h t (opOf h % 64)
  | 4 => decLong4 p h t (opOf h % 64)
  | 5 => decLong5 h t (opOf h % 64)
  | 6 => decLong6 p h t (opOf h % 64)
  | 7 => decLong7 h t (opOf h % 64)
  | _ => none

/-- Fields that are `res` because of the value of another field hold zero: R83 (PI), R90 (CE, CI),
R131 (MK, II, LSEL), R149 (C without `cas`). -/
def resOk : Instr → Bool
  | .bfe _ _ _ b c pi _ _ => !pi || (b == 0 && c == 0)
  | .bfi _ _ _ _ c pi _ _ => !pi || c == 0
  | .shfl _ _ _ b c mk _ _ ii _ | .shflRel _ _ _ b c mk _ _ ii _ | .shflXor _ _ _ b c mk _ _ ii _ =>
    (mk || c == 0) && (!ii || b == 0)
  | .bcast _ _ _ c mk lsel lane => (mk || c == 0) && (lsel == 0 || lane == 0)
  | .vote _ _ _ _ c mk _ => mk || c == 0
  | .lred _ _ _ c mk _ _ => mk || c == 0
  | .atom _ _ _ _ c op _ | .atomr _ _ _ _ c op _ => op == 7 || c == 0
  | .bra ce n q _ => ce || (!n && q == 0)
  | .loop a _ ci _ => !ci || a == 0
  | _ => true

/-- The instruction of decoded fields, or the words that form none (R35). -/
def assigned (p : Option Word) (w : Word) (i : Option Instr) : Instr :=
  match i with
  | some i => if resOk i then i else .illegalOp (.unassigned p w)
  | none => .illegalOp (.unassigned p w)

/-- The group of a short word or a head. -/
def opGroupOf (w : Word) : Nat := opOf w / 64

/-- Whether a word may follow a prefix (R19). -/
def acceptsPfx (w : Word) : Bool := kindOf w < 2 && opGroupOf w != 5 && opGroupOf w != 7

/-- Decodes the instruction that the words begin with, and says how many words it takes (R16, R19). -/
def decodeWords : List Word → Except DecodeReject (Instr × Nat)
  | [] => .error .noWord
  | w :: rest =>
    match kindOf w with
    | 0 => .ok (assigned none w (decShort none w), 1)
    | 1 =>
      match rest with
      | [] => .error .missingSecond
      | t :: _ =>
        if kindOf t = 3 then .ok (assigned none w (decLong none w t), 2)
        else .ok (.illegalOp (.headWithoutTail none w), 1)
    | 2 =>
      match rest with
      | [] => .error .missingSecond
      | h :: rest =>
        if !acceptsPfx h then .ok (.illegalOp (.orphanPrefix w), 1)
        else if kindOf h = 0 then
          .ok (if zeroAt 0 12 w then assigned (some w) h (decShort (some (decPfx w)) h)
            else .illegalOp (.unassigned (some w) h), 2)
        else
          match rest with
          | [] => .error .missingThird
          | t :: _ =>
            if kindOf t = 3 then
              .ok (if zeroAt 0 12 w then assigned (some w) h (decLong (some (decPfx w)) h t)
                else .illegalOp (.unassigned (some w) h), 3)
            else .ok (.illegalOp (.headWithoutTail (some w) h), 2)
    | _ => .ok (.illegalOp (.orphanTail w), 1)

/-- The word of four bytes, lowest address first (R13). -/
def wordOfBytes (b0 b1 b2 b3 : Byte) : Word :=
  BitVec.ofNat 32 (b0.toNat + b1.toNat * 2 ^ 8 + b2.toNat * 2 ^ 16 + b3.toNat * 2 ^ 24)

/-- The whole words of a list of bytes. -/
def wordsOfBytes : List Byte → List Word
  | b0 :: b1 :: b2 :: b3 :: rest => wordOfBytes b0 b1 b2 b3 :: wordsOfBytes rest
  | _ => []

/-- Decodes the instruction that the bytes begin with, and says how many bytes it takes. -/
def decodeBytes (bs : List Byte) : Except DecodeReject (Instr × Nat) :=
  match decodeWords (wordsOfBytes bs) with
  | .ok (i, n) => .ok (i, 4 * n)
  | .error e => .error e

/-- The instruction the decoder reads from the bits `w`, the first word in bits 31:0, every bit above
`nbits` zero. -/
def decodeTableWord (nbits w : Nat) : Option Instr :=
  let v := w % 2 ^ nbits
  match decodeWords [BitVec.ofNat 32 v, BitVec.ofNat 32 (v / 2 ^ 32), BitVec.ofNat 32 (v / 2 ^ 64)] with
  | .ok (i, _) => some i
  | .error _ => none

/-- The word of a number. -/
def wd (n : Nat) : Word := BitVec.ofNat 32 n

/-- A word with fixed bits `c` and fields, each given by its lowest bit and its value. -/
def put (c : Nat) (fs : List (Nat × Nat)) : Word := wd (fs.foldr (fun f n => f.2 * 2 ^ f.1 + n) c)

/-- The prefix word of fields (R18). -/
def encPfxWord (p : Pfx) : Word :=
  put 2147483648 [(27, p.rnd.toNat), (26, p.sat.toNat), (25, p.nf.toNat), (22, p.gp.toNat),
    (21, p.ge.toNat), (20, p.gn.toNat), (19, p.ea.toNat), (18, p.eb.toNat), (17, p.ha.toNat),
    (16, p.hb.toNat), (12, p.ty.toNat)]

/-- The words of an optional prefix. -/
def encPfx : Option Pfx → List Word
  | none => []
  | some p => [encPfxWord p]

/-- The words `illegalOp` was read from. -/
def badWords : BadWords → List Word
  | .orphanTail w => [w]
  | .headWithoutTail p w => p.toList ++ [w]
  | .orphanPrefix p => [p]
  | .unassigned p w => p.toList ++ [w]

/-- The words of an instruction (R13 to R18, R34 and each instruction's own rule); a machine step
without an encoding has none. -/
def encode : Instr → List Word
  | .add p d a b => encPfx p ++ [put 0 [(14, d.toNat), (7, a.toNat), (0, b.toNat)]]
  | .addImm p d a b imm => encPfx p ++ [put 1073741824 [(14, d.toNat), (7, a.toNat), (0, b.toNat)], put 3221225472 [(0, imm.toNat)]]
  | .sub p d a b => encPfx p ++ [put 2097152 [(14, d.toNat), (7, a.toNat), (0, b.toNat)]]
  | .subImm p d a b imm => encPfx p ++ [put 1075838976 [(14, d.toNat), (7, a.toNat), (0, b.toNat)], put 3221225472 [(0, imm.toNat)]]
  | .addc p d a b => encPfx p ++ [put 4194304 [(14, d.toNat), (7, a.toNat), (0, b.toNat)]]
  | .addcImm p d a b imm => encPfx p ++ [put 1077936128 [(14, d.toNat), (7, a.toNat), (0, b.toNat)], put 3221225472 [(0, imm.toNat)]]
  | .subb p d a b => encPfx p ++ [put 6291456 [(14, d.toNat), (7, a.toNat), (0, b.toNat)]]
  | .subbImm p d a b imm => encPfx p ++ [put 1080033280 [(14, d.toNat), (7, a.toNat), (0, b.toNat)], put 3221225472 [(0, imm.toNat)]]
  | .mul p d a b => encPfx p ++ [put 8388608 [(14, d.toNat), (7, a.toNat), (0, b.toNat)]]
  | .mulImm p d a b imm => encPfx p ++ [put 1082130432 [(14, d.toNat), (7, a.toNat), (0, b.toNat)], put 3221225472 [(0, imm.toNat)]]
  | .mulh p d a b => encPfx p ++ [put 10485760 [(14, d.toNat), (7, a.toNat), (0, b.toNat)]]
  | .mulhImm p d a b imm => encPfx p ++ [put 1084227584 [(14, d.toNat), (7, a.toNat), (0, b.toNat)], put 3221225472 [(0, imm.toNat)]]
  | .mad p d a b c => encPfx p ++ [put 1086324736 [(14, d.toNat), (7, a.toNat), (0, b.toNat)], put 3221225472 [(23, c.toNat)]]
  | .madw p d a b c => encPfx p ++ [put 1088421888 [(14, d.toNat), (7, a.toNat), (0, b.toNat)], put 3221225472 [(23, c.toNat)]]
  | .div p d a b => encPfx p ++ [put 16777216 [(14, d.toNat), (7, a.toNat), (0, b.toNat)]]
  | .divImm p d a b imm => encPfx p ++ [put 1090519040 [(14, d.toNat), (7, a.toNat), (0, b.toNat)], put 3221225472 [(0, imm.toNat)]]
  | .rem p d a b => encPfx p ++ [put 18874368 [(14, d.toNat), (7, a.toNat), (0, b.toNat)]]
  | .remImm p d a b imm => encPfx p ++ [put 1092616192 [(14, d.toNat), (7, a.toNat), (0, b.toNat)], put 3221225472 [(0, imm.toNat)]]
  | .neg p d a => encPfx p ++ [put 20971520 [(14, d.toNat), (7, a.toNat)]]
  | .abs p d a => encPfx p ++ [put 23068672 [(14, d.toNat), (7, a.toNat)]]
  | .min p d a b => encPfx p ++ [put 25165824 [(14, d.toNat), (7, a.toNat), (0, b.toNat)]]
  | .minImm p d a b imm => encPfx p ++ [put 1098907648 [(14, d.toNat), (7, a.toNat), (0, b.toNat)], put 3221225472 [(0, imm.toNat)]]
  | .max p d a b => encPfx p ++ [put 27262976 [(14, d.toNat), (7, a.toNat), (0, b.toNat)]]
  | .maxImm p d a b imm => encPfx p ++ [put 1101004800 [(14, d.toNat), (7, a.toNat), (0, b.toNat)], put 3221225472 [(0, imm.toNat)]]
  | .shl p d a b => encPfx p ++ [put 29360128 [(14, d.toNat), (7, a.toNat), (0, b.toNat)]]
  | .shlImm p d a b imm => encPfx p ++ [put 1103101952 [(14, d.toNat), (7, a.toNat), (0, b.toNat)], put 3221225472 [(0, imm.toNat)]]
  | .shr p d a b => encPfx p ++ [put 31457280 [(14, d.toNat), (7, a.toNat), (0, b.toNat)]]
  | .shrImm p d a b imm => encPfx p ++ [put 1105199104 [(14, d.toNat), (7, a.toNat), (0, b.toNat)], put 3221225472 [(0, imm.toNat)]]
  | .sar p d a b => encPfx p ++ [put 33554432 [(14, d.toNat), (7, a.toNat), (0, b.toNat)]]
  | .sarImm p d a b imm => encPfx p ++ [put 1107296256 [(14, d.toNat), (7, a.toNat), (0, b.toNat)], put 3221225472 [(0, imm.toNat)]]
  | .rotl p d a b => encPfx p ++ [put 35651584 [(14, d.toNat), (7, a.toNat), (0, b.toNat)]]
  | .rotlImm p d a b imm => encPfx p ++ [put 1109393408 [(14, d.toNat), (7, a.toNat), (0, b.toNat)], put 3221225472 [(0, imm.toNat)]]
  | .lea p d a b c sh => encPfx p ++ [put 1111490560 [(14, d.toNat), (7, a.toNat), (0, b.toNat)], put 3221225472 [(23, c.toNat), (20, sh.toNat)]]
  | .addp p d a b => encPfx p ++ [put 39845888 [(14, d.toNat), (7, a.toNat), (0, b.toNat)]]
  | .addpImm p d a b imm => encPfx p ++ [put 1113587712 [(14, d.toNat), (7, a.toNat), (0, b.toNat)], put 3221225472 [(0, imm.toNat)]]
  | .subp p d a b => encPfx p ++ [put 41943040 [(14, d.toNat), (7, a.toNat), (0, b.toNat)]]
  | .movi p d imm => encPfx p ++ [put 1117782141 [(14, d.toNat)], put 3221225472 [(0, imm.toNat)]]
  | .mov p d a => encPfx p ++ [put 46137344 [(14, d.toNat), (7, a.toNat)]]
  | .and p d a b => encPfx p ++ [put 134217728 [(14, d.toNat), (7, a.toNat), (0, b.toNat)]]
  | .andImm p d a b imm => encPfx p ++ [put 1207959552 [(14, d.toNat), (7, a.toNat), (0, b.toNat)], put 3221225472 [(0, imm.toNat)]]
  | .or p d a b => encPfx p ++ [put 136314880 [(14, d.toNat), (7, a.toNat), (0, b.toNat)]]
  | .orImm p d a b imm => encPfx p ++ [put 1210056704 [(14, d.toNat), (7, a.toNat), (0, b.toNat)], put 3221225472 [(0, imm.toNat)]]
  | .xor p d a b => encPfx p ++ [put 138412032 [(14, d.toNat), (7, a.toNat), (0, b.toNat)]]
  | .xorImm p d a b imm => encPfx p ++ [put 1212153856 [(14, d.toNat), (7, a.toNat), (0, b.toNat)], put 3221225472 [(0, imm.toNat)]]
  | .not p d a => encPfx p ++ [put 140509184 [(14, d.toNat), (7, a.toNat)]]
  | .andn p d a b => encPfx p ++ [put 142606336 [(14, d.toNat), (7, a.toNat), (0, b.toNat)]]
  | .andnImm p d a b imm => encPfx p ++ [put 1216348160 [(14, d.toNat), (7, a.toNat), (0, b.toNat)], put 3221225472 [(0, imm.toNat)]]
  | .bfe p d a b c pi pos wid => encPfx p ++ [put 1218445312 [(14, d.toNat), (7, a.toNat), (0, b.toNat)], put 3221225472 [(23, c.toNat), (22, pi.toNat), (15, pos.toNat), (8, wid.toNat)]]
  | .bfi p d a b c pi pos wid => encPfx p ++ [put 1220542464 [(14, d.toNat), (7, a.toNat), (0, b.toNat)], put 3221225472 [(23, c.toNat), (22, pi.toNat), (15, pos.toNat), (8, wid.toNat)]]
  | .popc p d a => encPfx p ++ [put 148897792 [(14, d.toNat), (7, a.toNat)]]
  | .clz p d a => encPfx p ++ [put 150994944 [(14, d.toNat), (7, a.toNat)]]
  | .ctz p d a => encPfx p ++ [put 153092096 [(14, d.toNat), (7, a.toNat)]]
  | .brev p d a => encPfx p ++ [put 155189248 [(14, d.toNat), (7, a.toNat)]]
  | .bshuf p d a b c => encPfx p ++ [put 1231028224 [(14, d.toNat), (7, a.toNat), (0, b.toNat)], put 3221225472 [(23, c.toNat)]]
  | .cmp p q cond a b => encPfx p ++ [put 159383552 [(14, q.toNat), (17, cond.toNat), (7, a.toNat), (0, b.toNat)]]
  | .cmpImm p q cond a b imm => encPfx p ++ [put 1233125376 [(14, q.toNat), (17, cond.toNat), (7, a.toNat), (0, b.toNat)], put 3221225472 [(0, imm.toNat)]]
  | .sel p d a b n q => encPfx p ++ [put 1235222528 [(14, d.toNat), (7, a.toNat), (0, b.toNat)], put 3221225472 [(3, n.toNat), (0, q.toNat)]]
  | .pand p d na a nb b => encPfx p ++ [put 163577856 [(14, d.toNat), (10, na.toNat), (7, a.toNat), (3, nb.toNat), (0, b.toNat)]]
  | .por p d na a nb b => encPfx p ++ [put 165675008 [(14, d.toNat), (10, na.toNat), (7, a.toNat), (3, nb.toNat), (0, b.toNat)]]
  | .pxor p d na a nb b => encPfx p ++ [put 167772160 [(14, d.toNat), (10, na.toNat), (7, a.toNat), (3, nb.toNat), (0, b.toNat)]]
  | .pnot p d na a => encPfx p ++ [put 169869312 [(14, d.toNat), (10, na.toNat), (7, a.toNat)]]
  | .pmov p d na a => encPfx p ++ [put 171966464 [(14, d.toNat), (10, na.toNat), (7, a.toNat)]]
  | .matchLanes p d a => encPfx p ++ [put 174063616 [(14, d.toNat), (7, a.toNat)]]
  | .fadd p d a b => encPfx p ++ [put 268435456 [(14, d.toNat), (7, a.toNat), (0, b.toNat)]]
  | .faddImm p d a b imm => encPfx p ++ [put 1342177280 [(14, d.toNat), (7, a.toNat), (0, b.toNat)], put 3221225472 [(0, imm.toNat)]]
  | .fsub p d a b => encPfx p ++ [put 270532608 [(14, d.toNat), (7, a.toNat), (0, b.toNat)]]
  | .fsubImm p d a b imm => encPfx p ++ [put 1344274432 [(14, d.toNat), (7, a.toNat), (0, b.toNat)], put 3221225472 [(0, imm.toNat)]]
  | .fmul p d a b => encPfx p ++ [put 272629760 [(14, d.toNat), (7, a.toNat), (0, b.toNat)]]
  | .fmulImm p d a b imm => encPfx p ++ [put 1346371584 [(14, d.toNat), (7, a.toNat), (0, b.toNat)], put 3221225472 [(0, imm.toNat)]]
  | .fma p d a b c => encPfx p ++ [put 1348468736 [(14, d.toNat), (7, a.toNat), (0, b.toNat)], put 3221225472 [(23, c.toNat)]]
  | .fmin p d a b => encPfx p ++ [put 276824064 [(14, d.toNat), (7, a.toNat), (0, b.toNat)]]
  | .fminImm p d a b imm => encPfx p ++ [put 1350565888 [(14, d.toNat), (7, a.toNat), (0, b.toNat)], put 3221225472 [(0, imm.toNat)]]
  | .fmax p d a b => encPfx p ++ [put 278921216 [(14, d.toNat), (7, a.toNat), (0, b.toNat)]]
  | .fmaxImm p d a b imm => encPfx p ++ [put 1352663040 [(14, d.toNat), (7, a.toNat), (0, b.toNat)], put 3221225472 [(0, imm.toNat)]]
  | .fabs p d a => encPfx p ++ [put 281018368 [(14, d.toNat), (7, a.toNat)]]
  | .fneg p d a => encPfx p ++ [put 283115520 [(14, d.toNat), (7, a.toNat)]]
  | .fcmp p q cond a b => encPfx p ++ [put 285212672 [(14, q.toNat), (17, cond.toNat), (7, a.toNat), (0, b.toNat)]]
  | .fcmpImm p q cond a b imm => encPfx p ++ [put 1358954496 [(14, q.toNat), (17, cond.toNat), (7, a.toNat), (0, b.toNat)], put 3221225472 [(0, imm.toNat)]]
  | .fclass p d a => encPfx p ++ [put 287309824 [(14, d.toNat), (7, a.toNat)]]
  | .frint p d a => encPfx p ++ [put 289406976 [(14, d.toNat), (7, a.toNat)]]
  | .fsqrt p d a => encPfx p ++ [put 291504128 [(14, d.toNat), (7, a.toNat)]]
  | .frcp p d a => encPfx p ++ [put 293601280 [(14, d.toNat), (7, a.toNat)]]
  | .frsq p d a => encPfx p ++ [put 295698432 [(14, d.toNat), (7, a.toNat)]]
  | .fdiv p d a b => encPfx p ++ [put 297795584 [(14, d.toNat), (7, a.toNat), (0, b.toNat)]]
  | .fdivImm p d a b imm => encPfx p ++ [put 1371537408 [(14, d.toNat), (7, a.toNat), (0, b.toNat)], put 3221225472 [(0, imm.toNat)]]
  | .fscale p d a b => encPfx p ++ [put 299892736 [(14, d.toNat), (7, a.toNat), (0, b.toNat)]]
  | .fscaleImm p d a b imm => encPfx p ++ [put 1373634560 [(14, d.toNat), (7, a.toNat), (0, b.toNat)], put 3221225472 [(0, imm.toNat)]]
  | .hadd2 p d a b => encPfx p ++ [put 301989888 [(14, d.toNat), (7, a.toNat), (0, b.toNat)]]
  | .hfma2 p d a b c => encPfx p ++ [put 1377828864 [(14, d.toNat), (7, a.toNat), (0, b.toNat)], put 3221225472 [(23, c.toNat)]]
  | .bfma2 p d a b c => encPfx p ++ [put 1379926016 [(14, d.toNat), (7, a.toNat), (0, b.toNat)], put 3221225472 [(23, c.toNat)]]
  | .dot2 p d a b c => encPfx p ++ [put 1382023168 [(14, d.toNat), (7, a.toNat), (0, b.toNat)], put 3221225472 [(23, c.toNat)]]
  | .dot4 p d a b c => encPfx p ++ [put 1384120320 [(14, d.toNat), (7, a.toNat), (0, b.toNat)], put 3221225472 [(23, c.toNat)]]
  | .cvt p d a dt st => encPfx p ++ [put 1476395008 [(14, d.toNat), (7, a.toNat)], put 3221225472 [(19, dt.toNat), (15, st.toNat)]]
  | .pack p d a b => encPfx p ++ [put 404750336 [(14, d.toNat), (7, a.toNat), (0, b.toNat)]]
  | .unpack p d a b => encPfx p ++ [put 406847488 [(14, d.toNat), (7, a.toNat), (0, b.toNat)]]
  | .unpackImm p d a b imm => encPfx p ++ [put 1480589312 [(14, d.toNat), (7, a.toNat), (0, b.toNat)], put 3221225472 [(0, imm.toNat)]]
  | .tdec p d a e => encPfx p ++ [put 1482686464 [(14, d.toNat), (7, a.toNat)], put 3221225472 [(21, e.toNat)]]
  | .tenc p d a b e => encPfx p ++ [put 1484783616 [(14, d.toNat), (7, a.toNat), (0, b.toNat)], put 3221225472 [(21, e.toNat)]]
  | .qscale p d a b neg bsel => encPfx p ++ [put 1486880768 [(14, d.toNat), (7, a.toNat), (0, b.toNat)], put 3221225472 [(22, neg.toNat), (20, bsel.toNat)]]
  | .sin p d a => encPfx p ++ [put 415236096 [(14, d.toNat), (7, a.toNat)]]
  | .cos p d a => encPfx p ++ [put 417333248 [(14, d.toNat), (7, a.toNat)]]
  | .fexp2 p d a => encPfx p ++ [put 419430400 [(14, d.toNat), (7, a.toNat)]]
  | .flog2 p d a => encPfx p ++ [put 421527552 [(14, d.toNat), (7, a.toNat)]]
  | .tanh p d a => encPfx p ++ [put 423624704 [(14, d.toNat), (7, a.toNat)]]
  | .sig p d a => encPfx p ++ [put 425721856 [(14, d.toNat), (7, a.toNat)]]
  | .shfl p d a b c mk wr seg ii idx => encPfx p ++ [put 1501560832 [(14, d.toNat), (7, a.toNat), (0, b.toNat)], put 3221225472 [(23, c.toNat), (22, mk.toNat), (21, wr.toNat), (18, seg.toNat), (17, ii.toNat), (11, idx.toNat)]]
  | .shflRel p d a b c mk wr seg ii idx => encPfx p ++ [put 1503657984 [(14, d.toNat), (7, a.toNat), (0, b.toNat)], put 3221225472 [(23, c.toNat), (22, mk.toNat), (21, wr.toNat), (18, seg.toNat), (17, ii.toNat), (11, idx.toNat)]]
  | .shflXor p d a b c mk wr seg ii idx => encPfx p ++ [put 1505755136 [(14, d.toNat), (7, a.toNat), (0, b.toNat)], put 3221225472 [(23, c.toNat), (22, mk.toNat), (21, wr.toNat), (18, seg.toNat), (17, ii.toNat), (11, idx.toNat)]]
  | .bcast p d a c mk lsel lane => encPfx p ++ [put 1507852288 [(14, d.toNat), (7, a.toNat)], put 3221225472 [(23, c.toNat), (22, mk.toNat), (20, lsel.toNat), (15, lane.toNat)]]
  | .vote p d na a c mk op => encPfx p ++ [put 1509949440 [(14, d.toNat), (10, na.toNat), (7, a.toNat)], put 3221225472 [(23, c.toNat), (22, mk.toNat), (19, op.toNat)]]
  | .lred p d a c mk op k => encPfx p ++ [put 1512046592 [(14, d.toNat), (7, a.toNat)], put 3221225472 [(23, c.toNat), (22, mk.toNat), (19, op.toNat), (16, k.toNat)]]
  | .ld p d a b => encPfx p ++ [put 536870912 [(14, d.toNat), (7, a.toNat), (0, b.toNat)]]
  | .ldOfs p d a b ofs cl sx sh => encPfx p ++ [put 1610612736 [(14, d.toNat), (7, a.toNat), (0, b.toNat)], put 3221225472 [(6, ofs.toNat), (4, cl.toNat), (3, sx.toNat), (0, sh.toNat)]]
  | .st p d a b => encPfx p ++ [put 538968064 [(14, d.toNat), (7, a.toNat), (0, b.toNat)]]
  | .stOfs p d a b ofs cl sx sh => encPfx p ++ [put 1612709888 [(14, d.toNat), (7, a.toNat), (0, b.toNat)], put 3221225472 [(6, ofs.toNat), (4, cl.toNat), (3, sx.toNat), (0, sh.toNat)]]
  | .ldsp p d a b => encPfx p ++ [put 541065216 [(14, d.toNat), (7, a.toNat), (0, b.toNat)]]
  | .ldspOfs p d a b ofs cl sx sh => encPfx p ++ [put 1614807040 [(14, d.toNat), (7, a.toNat), (0, b.toNat)], put 3221225472 [(6, ofs.toNat), (4, cl.toNat), (3, sx.toNat), (0, sh.toNat)]]
  | .stsp p d a b => encPfx p ++ [put 543162368 [(14, d.toNat), (7, a.toNat), (0, b.toNat)]]
  | .stspOfs p d a b ofs cl sx sh => encPfx p ++ [put 1616904192 [(14, d.toNat), (7, a.toNat), (0, b.toNat)], put 3221225472 [(6, ofs.toNat), (4, cl.toNat), (3, sx.toNat), (0, sh.toNat)]]
  | .ldc p d a b => encPfx p ++ [put 545259520 [(14, d.toNat), (7, a.toNat), (0, b.toNat)]]
  | .ldcOfs p d a b ofs cl sx sh => encPfx p ++ [put 1619001344 [(14, d.toNat), (7, a.toNat), (0, b.toNat)], put 3221225472 [(6, ofs.toNat), (4, cl.toNat), (3, sx.toNat), (0, sh.toNat)]]
  | .ldq p d a b => encPfx p ++ [put 547356672 [(14, d.toNat), (7, a.toNat), (0, b.toNat)]]
  | .ldqOfs p d a b ofs cl sx sh => encPfx p ++ [put 1621098496 [(14, d.toNat), (7, a.toNat), (0, b.toNat)], put 3221225472 [(6, ofs.toNat), (4, cl.toNat), (3, sx.toNat), (0, sh.toNat)]]
  | .pref p a b => encPfx p ++ [put 549453824 [(7, a.toNat), (0, b.toNat)]]
  | .prefOfs p a b ofs cl sx sh => encPfx p ++ [put 1623195648 [(7, a.toNat), (0, b.toNat)], put 3221225472 [(6, ofs.toNat), (4, cl.toNat), (3, sx.toNat), (0, sh.toNat)]]
  | .atom p d a b c op sp => encPfx p ++ [put 1625292800 [(14, d.toNat), (7, a.toNat), (0, b.toNat)], put 3221225472 [(23, c.toNat), (19, op.toNat), (18, sp.toNat)]]
  | .atomr p d a b c op sp => encPfx p ++ [put 1627389952 [(14, d.toNat), (7, a.toNat), (0, b.toNat)], put 3221225472 [(23, c.toNat), (19, op.toNat), (18, sp.toNat)]]
  | .red p a b op sp => encPfx p ++ [put 1629487104 [(7, a.toNat), (0, b.toNat)], put 3221225472 [(19, op.toNat), (18, sp.toNat)]]
  | .fenceEng p => encPfx p ++ [put 557842432 []]
  | .fenceSys p => encPfx p ++ [put 559939584 []]
  | .cflush p a b => encPfx p ++ [put 562036736 [(7, a.toNat), (0, b.toNat)]]
  | .cflushOfs p a b ofs cl sx sh => encPfx p ++ [put 1635778560 [(7, a.toNat), (0, b.toNat)], put 3221225472 [(6, ofs.toNat), (4, cl.toNat), (3, sx.toNat), (0, sh.toNat)]]
  | .cinval p a b => encPfx p ++ [put 564133888 [(7, a.toNat), (0, b.toNat)]]
  | .cinvalOfs p a b ofs cl sx sh => encPfx p ++ [put 1637875712 [(7, a.toNat), (0, b.toNat)], put 3221225472 [(6, ofs.toNat), (4, cl.toNat), (3, sx.toNat), (0, sh.toNat)]]
  | .spat p d a b c dir sp ety rowlen => encPfx p ++ [put 1639972864 [(14, d.toNat), (7, a.toNat), (0, b.toNat)], put 3221225472 [(23, c.toNat), (21, dir.toNat), (20, sp.toNat), (16, ety.toNat), (4, rowlen.toNat)]]
  | .sfree p a => encPfx p ++ [put 568328192 [(7, a.toNat)]]
  | .qbind p d a c kind sig trapq => encPfx p ++ [put 1644167168 [(14, d.toNat), (7, a.toNat)], put 3221225472 [(23, c.toNat), (19, kind.toNat), (18, sig.toNat), (17, trapq.toNat)]]
  | .qtry p d a q => encPfx p ++ [put 572522496 [(14, d.toNat), (7, a.toNat), (0, q.toNat)]]
  | .qstat p d a => encPfx p ++ [put 574619648 [(14, d.toNat), (7, a.toNat)]]
  | .bra ce n q imm => [put 1744830464 [(18, ce.toNat), (17, n.toNat), (14, q.toNat)], put 3221225472 [(0, imm.toNat)]]
  | .brd n q tgt join => [put 1746927616 [(17, n.toNat), (14, q.toNat)], put 3221225472 [(15, tgt.toNat), (0, join.toNat)]]
  | .join => [put 675282944 []]
  | .reform => [put 677380096 []]
  | .call d imm => [put 1753219072 [(14, d.toNat)], put 3221225472 [(0, imm.toNat)]]
  | .ret a => [put 681574400 [(7, a.toNat)]]
  | .jmp a => [put 683671552 [(7, a.toNat)]]
  | .loop a stop ci icount => [put 1759510528 [(7, a.toNat)], put 3221225472 [(16, stop.toNat), (15, ci.toNat), (0, icount.toNat)]]
  | .lbrk => [put 687865856 []]
  | .exit => [put 689963008 []]
  | .trap code => [put 692060160 [(0, code.toNat)]]
  | .brk code => [put 694157312 [(0, code.toNat)]]
  | .nop => [put 696254464 []]
  | .cpy p d a tag evt outq acq rel scope ba barr => encPfx p ++ [put 1879048192 [(14, d.toNat), (7, a.toNat)], put 3221225472 [(15, tag.toNat), (14, evt.toNat), (13, outq.toNat), (12, acq.toNat), (11, rel.toNat), (8, scope.toNat), (7, ba.toNat), (3, barr.toNat)]]
  | .gath p d a tag evt outq acq rel scope ba barr => encPfx p ++ [put 1881145344 [(14, d.toNat), (7, a.toNat)], put 3221225472 [(15, tag.toNat), (14, evt.toNat), (13, outq.toNat), (12, acq.toNat), (11, rel.toNat), (8, scope.toNat), (7, ba.toNat), (3, barr.toNat)]]
  | .coll p d a tag evt outq acq rel scope ba barr => encPfx p ++ [put 1883242496 [(14, d.toNat), (7, a.toNat)], put 3221225472 [(15, tag.toNat), (14, evt.toNat), (13, outq.toNat), (12, acq.toNat), (11, rel.toNat), (8, scope.toNat), (7, ba.toNat), (3, barr.toNat)]]
  | .mdesc p md a sp => encPfx p ++ [put 1885339648 [(14, md.toNat), (7, a.toNat)], put 3221225472 [(22, sp.toNat)]]
  | .msign p cv => encPfx p ++ [put 813694976 [(7, cv.toNat)]]
  | .mma p md cv evt acq rel scope => encPfx p ++ [put 815792128 [(14, md.toNat), (7, cv.toNat), (6, evt.toNat), (5, acq.toNat), (4, rel.toNat), (1, scope.toNat)]]
  | .mmaElect p md evt acq rel scope => encPfx p ++ [put 817889280 [(14, md.toNat), (6, evt.toNat), (5, acq.toNat), (4, rel.toNat), (1, scope.toNat)]]
  | .maccInit p d md => encPfx p ++ [put 819986432 [(14, d.toNat), (7, md.toNat)]]
  | .maccFlush p d a md keep evt scope => encPfx p ++ [put 1895825408 [(14, d.toNat), (7, a.toNat), (0, md.toNat)], put 3221225472 [(22, keep.toNat), (21, evt.toNat), (18, scope.toNat)]]
  | .mrow p d => encPfx p ++ [put 824180736 [(14, d.toNat)]]
  | .mrowWait p d md => encPfx p ++ [put 824181760 [(14, d.toNat), (7, md.toNat)]]
  | .nwant p d a b => encPfx p ++ [put 826277888 [(14, d.toNat), (7, a.toNat), (0, b.toNat)]]
  | .noffer p d a b => encPfx p ++ [put 828375040 [(14, d.toNat), (7, a.toNat), (0, b.toNat)]]
  | .nclose p a b => encPfx p ++ [put 830472192 [(7, a.toNat), (0, b.toNat)]]
  | .ncloseImm p a b imm => encPfx p ++ [put 1904214016 [(7, a.toNat), (0, b.toNat)], put 3221225472 [(0, imm.toNat)]]
  | .nlife p a => encPfx p ++ [put 832569344 [(7, a.toNat)]]
  | .nlifeImm p a imm => encPfx p ++ [put 1906311168 [(7, a.toNat)], put 3221225472 [(0, imm.toNat)]]
  | .mland p d a b port ba barr => encPfx p ++ [put 1908408320 [(14, d.toNat), (7, a.toNat), (0, b.toNat)], put 3221225472 [(20, port.toNat), (19, ba.toNat), (15, barr.toNat)]]
  | .freeze => [put 939539968 []]
  | .freezeNested a => [put 939524096 [(7, a.toNat)]]
  | .next => [put 941621248 []]
  | .convInit cv a => [put 943718400 [(14, cv.toNat), (7, a.toNat)]]
  | .convInitImm cv a imm => [put 2017460224 [(14, cv.toNat), (7, a.toNat)], put 3221225472 [(0, imm.toNat)]]
  | .barrInit k a b => [put 945815552 [(14, k.toNat), (7, a.toNat), (0, b.toNat)]]
  | .barrInitImm k a b imm => [put 2019557376 [(14, k.toNat), (7, a.toNat), (0, b.toNat)], put 3221225472 [(0, imm.toNat)]]
  | .barrArrive k => [put 947912704 [(14, k.toNat)]]
  | .barrWait k a => [put 950009856 [(14, k.toNat), (7, a.toNat)]]
  | .barrWaitImm k a imm => [put 2023751680 [(14, k.toNat), (7, a.toNat)], put 3221225472 [(0, imm.toNat)]]
  | .barrTest q a k => [put 952107008 [(14, q.toNat), (7, a.toNat), (0, k.toNat)]]
  | .barrTestImm q a k imm => [put 2025848832 [(14, q.toNat), (7, a.toNat), (0, k.toNat)], put 3221225472 [(0, imm.toNat)]]
  | .movs d a => [put 954204160 [(14, d.toNat), (7, a.toNat)]]
  | .mtsr d a => [put 956301312 [(14, d.toNat), (7, a.toNat)]]
  | .wbase a => [put 958398464 [(7, a.toNat)]]
  | .wbaseImm a imm => [put 2032140288 [(7, a.toNat)], put 3221225472 [(0, imm.toNat)]]
  | .rfree a b => [put 960495616 [(7, a.toNat), (0, b.toNat)]]
  | .region i => [put 962592768 [(0, i.toNat)]]
  | .preq d a b c => [put 2038431744 [(14, d.toNat), (7, a.toNat), (0, b.toNat)], put 3221225472 [(23, c.toNat)]]
  | .boost d a => [put 966787072 [(14, d.toNat), (7, a.toNat)]]
  | .sysc d a b => [put 968884224 [(14, d.toNat), (7, a.toNat), (0, b.toNat)]]
  | .syscImm d a b imm => [put 2042626048 [(14, d.toNat), (7, a.toNat), (0, b.toNat)], put 3221225472 [(0, imm.toNat)]]
  | .tret => [put 970981376 []]
  | .halt a => [put 973078528 [(7, a.toNat)]]
  | .tmark a => [put 975175680 [(7, a.toNat)]]
  | .tmarkImm a imm => [put 2048917504 [(7, a.toNat)], put 3221225472 [(0, imm.toNat)]]
  | .bload a b c barr => [put 2051014656 [(7, a.toNat), (0, b.toNat)], put 3221225472 [(23, c.toNat), (19, barr.toNat)]]
  | .binAgeExpiry _ _ _ => []
  | .loadComplete _ _ => []
  | .divRemComplete _ _ => []
  | .multicycleComplete _ _ => []
  | .queueStall _ _ => []
  | .copy _ => []
  | .decryptingCopy _ => []
  | .gather _ => []
  | .collective _ _ _ => []
  | .signal _ => []
  | .engineCommandComplete _ => []
  | .matrixOperation _ _ => []
  | .matrixOperationComplete _ _ => []
  | .slicePartialAdd _ => []
  | .messageArrive _ => []
  | .multicastDelivery _ _ => []
  | .multicastSendComplete _ => []
  | .bloadLand _ _ => []
  | .interestRecord _ => []
  | .tileReturn _ => []
  | .interestDeadline _ => []
  | .nestedFreezeResume _ => []
  | .hangReport _ => []
  | .droopFire _ _ => []
  | .droopStretchEnd _ => []
  | .halvedIssueEnd _ => []
  | .clockHop _ => []
  | .hopComplete _ => []
  | .cluClkWrite _ _ => []
  | .drpCtlWrite _ _ => []
  | .lchQtailWrite _ _ _ => []
  | .lchQcfgWrite _ _ => []
  | .launchAccept _ => []
  | .launchStart _ => []
  | .placeCohort _ => []
  | .cohortRetire _ => []
  | .gridComplete _ => []
  | .yieldRequest _ _ => []
  | .drainLimitExpiry _ _ => []
  | .yieldSave _ => []
  | .faultReplay _ _ => []
  | .faultDecline _ _ => []
  | .invalidateContext _ => []
  | .invalidatePage _ _ => []
  | .invalidateAll => []
  | .migratePage _ _ => []
  | .teardown _ => []
  | .xltCmdComplete => []
  | .reg128StagingWrite _ _ _ _ => []
  | .reg128LowRead _ => []
  | .nrtEntWrite _ _ _ => []
  | .fabCgrpWrite _ _ _ _ => []
  | .mcSwrefWrite _ _ => []
  | .switchSessionClose _ => []
  | .secSpWorldWrite _ _ => []
  | .slcWaymapWrite _ _ => []
  | .lockInterfaceRequest _ => []
  | .startInterfaceRequest _ => []
  | .stopInterfaceRequest _ => []
  | .ideFailure _ => []
  | .hostMemoryRead _ _ => []
  | .hostMemoryWrite _ _ => []
  | .getVersion => []
  | .getCapabilities => []
  | .negotiateAlgorithms => []
  | .getDigests => []
  | .getCertificate => []
  | .challenge _ => []
  | .getMeasurements _ => []
  | .keyExchange _ => []
  | .finish _ => []
  | .keyUpdate _ => []
  | .heartbeat _ => []
  | .endSession _ => []
  | .keySet _ _ _ _ _ => []
  | .keyClear _ _ => []
  | .jobEvidenceRequest _ => []
  | .portHealthSample _ _ _ _ => []
  | .linkRetrainComplete _ => []
  | .retentionEntry _ => []
  | .retentionExit _ _ => []
  | .pwrIslVsetWrite _ _ _ => []
  | .pwrIslFsetWrite _ _ _ => []
  | .synthLockComplete _ _ => []
  | .voltageStep _ _ => []
  | .stageTelemetryRefresh _ _ _ _ => []
  | .islandTelemetryRefresh _ _ _ => []
  | .stallWindow _ => []
  | .powerBoundary _ _ _ => []
  | .memoryRailSample _ => []
  | .diePowerSample _ => []
  | .thermalClampStart _ _ _ => []
  | .thermalTrip _ _ _ => []
  | .thermalRecover _ _ _ => []
  | .boostEnd _ _ => []
  | .policyAnswer _ => []
  | .wearBoundary _ => []
  | .wearUpdateComplete => []
  | .restStart _ => []
  | .restEnd _ => []
  | .wearReport _ => []
  | .bbxCommitRequest _ => []
  | .bbxDump _ => []
  | .inputUndervoltage => []
  | .mcWatchdogExpiry => []
  | .powerOn _ _ => []
  | .packageReset _ _ _ => []
  | .vfFlr _ => []
  | .clusterSpareCall _ => []
  | .clusterSpareSwitch => []
  | .sliceSpareCall _ => []
  | .rcRead _ _ => []
  | .registerWrite _ _ _ => []
  | .illegalOp w => badWords w
  | .flushComplete _ _ => []
  | .statusDestinationFull _ _ => []
  | .droopRearm _ => []
  | .hubUncorrectableError _ => []
  | .blackBoxCommitComplete => []

end Sys2Proof
end

