-- ==== Sys2Proof/Machine/Map.lean ====
section
/-!
DEFINITION. Sparse tables with natural-number keys in strictly rising order, and memory as such a table
of bytes in its one canonical form.
-/

namespace Sys2Proof.Machine

/-- The value at a key. -/
def find? {α : Type} (m : FMap α) (k : Nat) : Option α :=
  match m with
  | [] => none
  | (k', v) :: rest => if k' = k then some v else find? rest k

/-- The value at a key, or a default. -/
def findD {α : Type} (m : FMap α) (k : Nat) (d : α) : α := (find? m k).getD d

/-- The table with a value at a key. -/
def insert {α : Type} (m : FMap α) (k : Nat) (v : α) : FMap α :=
  match m with
  | [] => [(k, v)]
  | (k', v') :: rest =>
    if k < k' then (k, v) :: (k', v') :: rest
    else if k = k' then (k, v) :: rest
    else (k', v') :: insert rest k v

/-- The table without a key. -/
def erase {α : Type} (m : FMap α) (k : Nat) : FMap α :=
  match m with
  | [] => []
  | (k', v') :: rest => if k' = k then rest else (k', v') :: erase rest k

/-- The table with the value at a key changed, where there is one. -/
def modify {α : Type} (m : FMap α) (k : Nat) (f : α → α) : FMap α :=
  m.map fun p => if p.1 = k then (p.1, f p.2) else p

/-- The table with every value changed. -/
def mapVals {α β : Type} (m : FMap α) (f : Nat → α → β) : FMap β := m.map fun p => (p.1, f p.1 p.2)

/-- The entries a test holds for. -/
def filterMap {α : Type} (m : FMap α) (f : Nat → α → Bool) : FMap α := m.filter fun p => f p.1 p.2

/-- The keys in rising order. -/
def keys {α : Type} (m : FMap α) : List Nat := m.map Prod.fst

/-- The least key above every key of the table. -/
def freshKey {α : Type} (m : FMap α) : Nat := m.foldl (fun n p => max n (p.1 + 1)) 0

/-- Keys rise strictly. -/
def rising {α : Type} : FMap α → Bool
  | [] => true
  | [_] => true
  | (a, _) :: (b, v) :: rest => decide (a < b) && rising ((b, v) :: rest)

/-- Memory: a byte for each listed address; every other address reads as zero (R361 step 4). -/
abbrev Memory := List Host.Cell

/-- What an address that is not listed reads as. -/
def Memory.absent : Byte := 0

/-- The canonical form: addresses rise strictly and no listed byte is what an unlisted address reads as. -/
def Memory.wf (m : Memory) : Bool := rising m && m.all fun c => c.2 != Memory.absent

/-- The byte at an address. -/
def Memory.get (m : Memory) (a : Nat) : Byte := findD m a Memory.absent

/-- Memory with a byte stored at an address. -/
def Memory.set (m : Memory) (a : Nat) (b : Byte) : Memory :=
  if b = Memory.absent then erase m a else insert m a b

/-- The bytes at `n` addresses from `a` on. -/
def Memory.getBytes (m : Memory) (a : Nat) : Nat → List Byte
  | 0 => []
  | n + 1 => m.get a :: m.getBytes (a + 1) n

/-- Memory with bytes stored from `a` on. -/
def Memory.setBytes (m : Memory) (a : Nat) : List Byte → Memory
  | [] => m
  | b :: bs => (m.set a b).setBytes (a + 1) bs

/-- The number of little-endian bytes (R13, R41). -/
def ofBytes : List Byte → Nat
  | [] => 0
  | b :: bs => b.toNat + 2 ^ 8 * ofBytes bs

/-- `n` little-endian bytes of a number. -/
def toBytes (x : Nat) : Nat → List Byte
  | 0 => []
  | n + 1 => BitVec.ofNat 8 x :: toBytes (x / 2 ^ 8) n

/-- The number of `n` bytes at an address. -/
def Memory.read (m : Memory) (a n : Nat) : Nat := ofBytes (m.getBytes a n)

/-- Memory with the `n` low bytes of a number stored at an address. -/
def Memory.write (m : Memory) (a n x : Nat) : Memory := m.setBytes a (toBytes x n)

/-- The element at a place of a list, or a default. -/
def nth {α : Type} (l : List α) (i : Nat) (d : α) : α := (l[i]?).getD d

/-- The list with the element at a place replaced. -/
def setNth {α : Type} (l : List α) (i : Nat) (v : α) : List α := l.set i v

end Sys2Proof.Machine
end

