-- ==== Sys2Proof/Machine/Parts.lean ====
section
/-!
DEFINITION. The pieces of state that live with a kernel: threads, crews, cohorts, clusters, commands,
matrix operations, messages and named tiles. Plain data only.
-/

namespace Sys2Proof.Machine

/-- A vector of 32 lane words: a queue entry, a message, a physical register. -/
abbrev Lanes := List Word

/-- One level of a thread's loop stack (R97). -/
structure LoopEntry where
  start : DWord
  stop  : DWord
  count : Word
  deriving DecidableEq, Repr

/-- What a thread is doing (R239, R241): issuing in a group, or waiting. `next` is where it goes on, `g`
the group it waited out of: threads of one group that are released together form one group again. -/
inductive Run where
  /-- Member of issue group `g` of its cohort. -/
  | group (g : Nat)
  /-- Arrived at the `join` of its top divergence entry (R93). -/
  | join (next : DWord)
  /-- Waiting for its turn in a serial overflow run (R94). -/
  | serialWait (run : Nat)
  /-- Arrived at the `join` that ends a serial overflow run (R94). -/
  | serialDone (run : Nat) (next : DWord)
  /-- Filed in a bin of its sub-partition (R95). -/
  | binned (bin : Nat)
  /-- Blocked in `barr.wait` (R197). -/
  | barWait (g k : Nat) (phase : Bool) (next : DWord)
  /-- A member that waits for the flip before it arrives again (R196): its instruction issues again. -/
  | barArrive (g k : Nat)
  /-- A signer that waits for its round to complete (R175): its instruction issues again. -/
  | convWait (g cv : Nat)
  /-- Parked on a replayable PAGE_FAULT of a page of its context (R297): its instruction issues again. -/
  | faulted (g page : Nat)
  /-- Parked under COPY_FAULT (R192), with its place in the order of parking: it issues again. -/
  | parked (g order : Nat)
  /-- The parent of a nested freeze (R189). -/
  | nested (next : DWord)
  /-- Waiting at `next` for the parent range to return (R189). -/
  | atNext (g : Nat)
  /-- Stopped at a region marker, a `next` or its end during a yield (R289). -/
  | stopped (g : Nat)
  /-- Discarded during a yield (R289): only its identity and capture are left. -/
  | discarded
  deriving DecidableEq, Repr

/-- A divergence entry, one object shared by its threads (R92, R207): the threads of its mask that have
not left it. Bit L of the mask in a frame names the thread of home lane L. -/
structure DivEntry where
  join    : DWord
  members : List Nat
  deriving DecidableEq, Repr

/-- A serial overflow run (R94): its threads in ascending lane order, those not yet started first. -/
structure SerialRun where
  waiting : List Nat
  members : List Nat
  deriving DecidableEq, Repr

/-- A queue or stream binding kept by a capture or a cohort (R155, R157). `entries` are the entries that
live with the binding itself (kinds 3 and 7): ready ones carry their lanes. -/
structure QBind where
  kind    : Nat
  sig     : Bool
  trapq   : Bool
  target  : DWord
  /-- The clusters of the multicast descriptor read at binding (R157). -/
  dests   : List Nat
  landing : Nat
  entries : List (Nat × Option Lanes)
  /-- Distinguishes this binding from an earlier one of the same register. -/
  serial  : Nat
  deriving DecidableEq, Repr

/-- A stream binding (R163). -/
structure Stream where
  base   : DWord
  count  : Word
  estride : Word
  rstride : Word
  rowlen : Nat
  ety    : Nat
  write  : Bool
  sp     : Bool
  pos    : Nat
  deriving DecidableEq, Repr

/-- What a region entry captures for a thread (R166, R202, R101). -/
structure Capture where
  pc      : DWord
  wbase   : Nat
  mode    : Word
  nlife   : Word
  loops   : List LoopEntry
  /-- The identity and join address of each divergence entry. -/
  divs    : List (Nat × DWord)
  ovf     : Nat
  queues  : FMap QBind
  streams : FMap Stream
  deriving DecidableEq, Repr

/-- The region a thread is in (R202, R288). -/
inductive Region where
  | entry
  | inside (index : Nat) (drain : Bool) (limit : Nat)
  deriving DecidableEq, Repr

/-- A trap frame a thread holds (R206, R207): its slot and the identities of the saved entries. -/
structure Frame where
  slot : Nat
  divs : List (Nat × DWord × BitVec 32)
  /-- The address of the `trap` or `brk` that it resumes after (R98, R103). -/
  edge : Option DWord
  /-- The overflow count it saves. -/
  ovf  : Nat
  deriving DecidableEq, Repr

/-- A thread (R6). -/
structure Thread where
  crew    : Nat
  lane    : Nat
  role    : Nat
  pc      : DWord
  preds   : BitVec 8
  flags   : BitVec 5
  mode    : Word
  wbase   : Nat
  nlife   : Word
  idx     : Nat
  loops   : List LoopEntry
  divs    : List Nat
  ovf     : Nat
  frames  : List Frame
  region  : Region
  capture : Capture
  /-- Arrivals per barrier and signatures per convergence register (16 + cv) since region entry (R290). -/
  acts    : FMap Nat
  /-- Arrivals and signatures a restart absorbs (R290). -/
  absorb  : FMap Nat
  /-- It restarts at a region's marker, which then keeps what it absorbs (R290). -/
  again   : Bool
  /-- Operand values already consumed by an instruction that is to be replayed (R142, R164). -/
  latched : List Nat
  /-- The word at PC has not been checked under R24 because it could not be read. -/
  land    : Bool
  /-- The level of the template whose index it runs (R189). -/
  level   : Nat
  /-- The code of a trap it is to take when it next issues (R198). -/
  due     : Option Nat
  run     : Run
  deriving DecidableEq, Repr

/-- A physical crew register (R191): its bank (R218), its 32 lanes and the lanes marked poisoned. -/
structure PhysReg where
  bank   : Nat
  vals   : Vector Word 32
  poison : BitVec 32
  deriving DecidableEq, Repr

/-- A crew (R191, R235): its register map and its divergence-stack registers by bank. -/
structure Crew where
  sp   : Nat
  role : Nat
  regs : FMap PhysReg
  divBanks : List Nat
  deriving DecidableEq, Repr

/-- An ewe image (R234); what is not listed is zero. `sick` are the registers whose word is poisoned (R356, R357). -/
structure Ewe where
  v    : FMap Word
  s    : FMap DWord
  p    : BitVec 8
  sick : List Nat
  deriving DecidableEq, Repr

/-- The empty ewe. -/
def Ewe.empty : Ewe := ⟨[], [], 0, []⟩

/-- One level of the template (R189, R190): its range, the parent that waits for it, and for each role
how many indices of the range have been taken. -/
structure Level where
  first  : Nat
  count  : Nat
  parent : Option Nat
  taken  : List Nat
  deriving DecidableEq, Repr

/-- A phase-bit barrier (R196). -/
structure Barrier where
  inert   : Bool
  count   : Nat
  arrived : Nat
  phase   : Bool
  broken  : Bool
  members : BitVec 32
  /-- Members that have arrived in the current phase. -/
  marks   : List Nat
  /-- Decrements of COUNT held for the next flip (R198). -/
  held    : Nat
  deriving DecidableEq, Repr

/-- A matrix descriptor (R174). -/
structure MDesc where
  aaddr : DWord
  baddr : DWord
  caddr : DWord
  astride : Nat
  bstride : Nat
  cstride : Nat
  fstride : Nat
  k : Nat
  m : Nat
  n : Nat
  efmt : Nat
  afmt : Nat
  promo : Nat
  sca : Nat
  scb : Nat
  bsela : Nat
  bselb : Nat
  deriving DecidableEq, Repr

/-- Flags of a matrix issue (R170, R175). -/
structure MFlags where
  evt : Bool
  acq : Bool
  rel : Bool
  scope : Nat
  deriving DecidableEq, Repr

/-- A convergence register (R175, R195). -/
structure Conv where
  inert   : Bool
  expect  : Nat
  members : List Nat
  crews   : BitVec 32
  signed  : Nat
  marks   : List Nat
  /-- The descriptor index and its value as captured by the signature that set it. -/
  md      : Option (Nat × MDesc)
  flags   : MFlags
  /-- The last thread that signed (R176). -/
  last    : Option Nat
  deriving DecidableEq, Repr

/-- Where a delayed result goes: an absolute vector register of each thread's home crew, or a scalar. -/
inductive PDest where
  | vreg (reg : Nat) (pair : Bool)
  | sreg (n : Nat) (ety : Ety)
  | drop
  deriving DecidableEq, Repr

/-- A tile flush in progress (R180). -/
structure FlushOp where
  md     : Nat
  desc   : MDesc
  keep   : Bool
  evt    : Bool
  ety    : Ety
  rnd    : Rnd
  sat    : Bool
  /-- Physical address of each accumulator line, row by row. -/
  lines  : List Nat
  /-- Physical address and page tag of each element's destination, row by row. -/
  dests  : List (Nat × Nat)
  deriving DecidableEq, Repr

/-- What completes a delayed result. -/
inductive PKind where
  | load
  | ldq (role q serial : Nat) (entries : List Nat)
  | div
  | multi (sfu : Bool)
  /-- A binding that `statusDestinationFull` makes or refuses (R155). -/
  | qbind (role q kind : Nat) (sig trapq : Bool) (target : DWord)
  /-- `macc.init` of some lines, each with its page's tag, in an accumulator format. -/
  | maccInit (lines : List (Nat × Nat)) (fmt : Ety)
  /-- An offer: its name, and the physical address and page tag of each of its source's lines. -/
  | noffer (name : DWord) (lines : List (Nat × Nat))
  | mland (port off slots : Nat) (ba : Bool) (barr : Nat)
  /-- A status known at issue (R203 to R205). -/
  | known
  /-- TIMER, or CYCLES, as it stands when the instruction starts in the lanes (R225, R229). -/
  | sample (cycles : Bool)
  /-- Waits for the launcher's acceptance of a record of queue `q` at slot `slot` (R205). -/
  | launch (q slot : Nat)
  | flush (f : FlushOp)
  | mrow (md sp : Nat)
  /-- Another register of the status that result `id` brings, where the threads' windows differ. -/
  | follow (id : Nat)
  deriving DecidableEq, Repr

/-- A delayed result (R22, R144): the lanes it is for (thread, value) and where it goes; `issue` is the same for the
results of one issue. -/
structure Pend where
  kind  : PKind
  dest  : PDest
  sp    : Nat
  lanes : List (Nat × Nat)
  issue : Nat
  deriving DecidableEq, Repr

/-- What a push of an issue group waits for (R159). -/
inductive PushWait where
  /-- `n` slots of the push binding `key` (`8 * role + q`), for a push of a crew. -/
  | slot (key n crew : Nat)
  /-- Room for `n` entries of the load-completion binding `key` (R146). -/
  | loads (key n : Nat)
  /-- A request of the named-tile binding of a role's queue (R183). -/
  | request (role q : Nat)
  /-- A place on a sub-partition's matrix unit (R176, R177). -/
  | unit (sp : Nat)
  deriving DecidableEq, Repr

/-- An issue group (R239): its sub-partition, its place in the order of R241, whether it was waiting when it was last
tried, and on memory then (R325), and since when its blocked push has waited, with what it waits for. -/
structure Group where
  sp     : Nat
  stamp  : Nat
  waited : Bool
  memory : Bool
  since  : Option (Nat × PushWait)
  deriving DecidableEq, Repr

/-- A region table entry (R42). -/
structure RegionEntry where
  start : Nat
  stop  : Nat
  drain : Bool
  limit : Nat
  deriving DecidableEq, Repr

/-- A shape bucket (R42). -/
structure Bucket where
  lo : List Nat
  hi : List Nat
  prologue : Nat
  deriving DecidableEq, Repr

/-- A named-tile table entry (R42). -/
structure TileEntry where
  tid  : Nat
  log  : Nat
  life : Nat
  deriving DecidableEq, Repr

/-- The kernel header and its tables (R41, R42). -/
structure Header where
  rounding : Nat
  ftz      : Bool
  compat   : Bool
  divover  : Bool
  divdepth : Nat
  template : Nat
  stage    : Nat
  world    : Nat
  binage   : Nat
  crews    : List Nat
  window   : List Nat
  codeBase : DWord
  prologue : Nat
  entries  : List Nat
  codeSize : Nat
  regions  : List RegionEntry
  buckets  : List Bucket
  tiles    : List TileEntry
  deriving DecidableEq, Repr

/-- The states of a cohort (R231) and the two it is in around a pre-emption (R289, R290). -/
inductive Phase where
  | prologue
  | flock
  | ending
  | saved
  deriving DecidableEq, Repr

/-- A yield in progress (R289): its tick and the grid it makes room for. -/
structure Yield where
  t0   : Nat
  seq  : Nat
  deriving DecidableEq, Repr

/-- A cohort (R6, R231, R232). Threads are keyed `32 * crew + lane`. -/
structure Cohort where
  grid    : Nat
  coh     : Nat
  ctx     : Nat
  world   : Nat
  /-- The cluster it is on, `144 * die + c`; its previous one while it is saved. -/
  ci      : Nat
  phase   : Phase
  homes   : List Nat
  banks   : List Nat
  hdr     : Header
  placed  : Nat
  depth   : Nat
  /-- The first of the consecutive entries of the template store that it has (R234). -/
  entry   : Nat
  ewes    : List Ewe
  levels  : List Level
  s       : FMap DWord
  threads : FMap Thread
  crews   : FMap Crew
  divs    : FMap DivEntry
  serials : FMap SerialRun
  groups  : FMap Group
  bars    : FMap Barrier
  convs   : FMap Conv
  mds     : FMap MDesc
  /-- Bindings by `8 * role + q`. -/
  queues  : FMap QBind
  /-- Stream ports by `4 * role + n`. -/
  streams : FMap Stream
  pends   : FMap Pend
  /-- End of the template-owned range and the high-water mark of scratchpad writes (R188). -/
  owned   : Nat
  high    : Nat
  yielding : Option Yield
  /-- Scratchpad contents and poison while it is saved (R290). -/
  saved   : Memory
  savedPoison : List Nat
  /-- Event-queue records while it is saved. -/
  savedEvents : List Lanes
  /-- Unread records of the engine outputs it had bound, by engine, while it is saved. -/
  savedOuts : FMap (List Lanes)
  /-- Grids whose request that it yield was withdrawn (R289). -/
  kept    : List Nat
  fresh   : Nat
  deriving DecidableEq, Repr

/-- Which binding owns a queue of the cluster: cohort, role, register. -/
structure Owner where
  cohort : Nat
  role   : Nat
  q      : Nat
  deriving DecidableEq, Repr

/-- A queue of the cluster that one binding may own: an event queue, an engine output, a receive port. -/
structure Port where
  owner : Option Owner
  items : List Lanes
  deriving DecidableEq, Repr

/-- A landing registration (R186). -/
structure Landing where
  cohort : Nat
  off    : Nat
  slots  : Nat
  filled : Nat
  ba     : Bool
  barr   : Nat
  deriving DecidableEq, Repr

/-- Bytes that a store replaced (R170): the threads of its issue, which have not ordered it by `fence.eng`, and where: a
scratchpad offset of the cohort, or a physical address. -/
structure Stale where
  cohort  : Nat
  threads : List Nat
  sp      : Bool
  pos     : Nat
  old     : List Byte
  deriving DecidableEq, Repr

/-- A write of a command without REL that is still to take its place in the single order (R170). -/
structure Late where
  ci      : Nat
  cohort  : Nat
  threads : List Nat
  /-- The command. -/
  serial  : Nat
  sp      : Bool
  world   : Nat
  pos     : Nat
  bytes   : List Byte
  deriving DecidableEq, Repr

/-- How far an engine command has come. -/
inductive CmdState where
  | queued
  | running
  /-- Ended with a status, a fault code, its progress and a faulting address (R171, R173). -/
  | ended (status fault addr : Nat)
  deriving DecidableEq, Repr

/-- An engine command (R169). `engine` is 0 copy, 1 gather, 2 collective. -/
structure Cmd where
  ci      : Nat
  engine  : Nat
  cohort  : Nat
  ctx     : Nat
  world   : Nat
  /-- The threads of the issue that pushed it. -/
  threads : List Nat
  words   : List Word
  /-- The engine-input binding it was pushed through (R336). -/
  key     : Nat
  /-- The crew whose reserved slot it took (R159). -/
  reserved : Option Nat
  state   : CmdState
  progress : Nat
  /-- The page on whose fault it is parked (R297). -/
  parked  : Option Nat
  /-- A decrypting copy whose counter was accepted: the key, and the plaintext in quarantine once its tag has
  passed (R172). -/
  slotKey : Option Digest
  plain   : Option (List Byte)
  /-- Locations a scatter has written (R171). -/
  seen    : List Nat
  /-- What its reads may still find in place of its threads' stores before the push, newest first (R170). -/
  stale   : List Stale
  serial  : Nat
  deriving DecidableEq, Repr

/-- A queued matrix operation (R176 to R178). -/
structure MatOp where
  cohort : Nat
  ctx    : Nat
  world  : Nat
  md     : Nat
  cv     : Nat
  desc   : MDesc
  flags  : MFlags
  /-- Scale registers A and B, each a list of registers of 32 lanes; empty for work without scales. -/
  scA    : List Lanes
  scB    : List Lanes
  krow   : Nat
  /-- The K rows of the current block already loaded: column k of A and row k of B as raw elements. -/
  rowsA  : List (List Nat)
  rowsB  : List (List Nat)
  /-- The engine accumulators, row by row (R68). -/
  acc    : List Nat
  /-- Physical address of each accumulator line, row by row, once the operation has started. -/
  lines  : List Nat
  parked : Option Nat
  started : Bool
  /-- Status, fault code and faulting address once no further partial will be sent. -/
  result : Option (Nat × Nat × Nat)
  /-- Identity that its partials carry. -/
  serial : Nat
  /-- What its reads may still find in place of its signers' stores before they signed, newest first (R170). -/
  stale  : List Stale
  deriving DecidableEq, Repr

/-- A partial on its way to its slice (R71). -/
structure Partial where
  ci     : Nat
  sp     : Nat
  op     : Nat
  va     : Nat
  pa     : Nat
  fmt    : Ety
  value  : DWord
  deriving DecidableEq, Repr

/-- A shadow accumulator line (R179): its 16 elements in the accumulator format. -/
structure Shadow where
  ctx    : Nat
  world  : Nat
  fmt    : Ety
  elems  : List DWord
  poison : Bool
  deriving DecidableEq, Repr

/-- A message between clusters (R158). -/
structure Msg where
  src    : Nat
  sender : Owner
  serial : Nat
  dest   : Nat
  port   : Nat
  words  : Lanes
  deriving DecidableEq, Repr

/-- A multicast send in flight (R267). -/
structure Mcast where
  src    : Nat
  sender : Owner
  serial : Nat
  world  : Nat
  port   : Nat
  left   : List Nat
  failed : List Nat
  words  : Lanes
  deriving DecidableEq, Repr

/-- A `bload` in flight (R210): for each 128-byte line still to land, its physical address, its page's tag and
its scratchpad offset. -/
structure Bload where
  cohort : Nat
  ci     : Nat
  barr   : Nat
  left   : List (Nat × Nat × Nat)
  deriving DecidableEq, Repr

/-- How far a request has come (R270): only recorded in its cluster; on its way to its home slice, which it waits for,
`merged` where its group's merge table has the entry it opened, `full` where it has met a full table; recorded there, or
merged into another's interest. -/
inductive WantState where
  | issued
  | waiting (merged full : Bool)
  | recorded
  deriving DecidableEq, Repr

/-- An interest under way to its home slice that a merge entry stands for. -/
def WantState.leads : WantState → Bool
  | .waiting merged _ => merged
  | _ => false

/-- A named-tile request (R183, R270). -/
structure Want where
  cohort   : Nat
  ci       : Nat
  role     : Nat
  q        : Nat
  serial   : Nat
  name     : DWord
  off      : Nat
  /-- Tile bytes. -/
  bytes    : Nat
  deadline : Nat
  state    : WantState
  deriving DecidableEq, Repr

/-- An interest at a home slice (R270): the groups of its vectors, and the clusters whose interests no merge table
holds. -/
structure Interest where
  deadline : Nat
  groups   : List Nat
  direct   : List Nat
  deriving DecidableEq, Repr

/-- An entry of a group's merge table (R270): keyed by group and name in the list that holds it. -/
structure Merge where
  group    : Nat
  name     : DWord
  deadline : Nat
  clusters : List Nat
  deriving DecidableEq, Repr

/-- A stored tile (R271). -/
structure Tile where
  name   : DWord
  bytes  : List Byte
  poison : List Nat
  grid   : Nat
  world  : Nat
  deriving DecidableEq, Repr

/-- A tile on its way back (R271): to the groups of the interest's vectors, and to the clusters that it was for when it
left. -/
structure Return where
  name   : DWord
  bytes  : List Byte
  poison : List Nat
  groups : List Nat
  direct : List Nat
  deriving DecidableEq, Repr

/-- A bin (R95, R240): its sub-partition, its key and its age in front-end cycles; `aged` once BIN_AGE_EXPIRY
has made it drawable. -/
structure Bin where
  sp     : Nat
  cohort : Nat
  key    : DWord
  age    : Nat
  aged   : Bool
  deriving DecidableEq, Repr

/-- A TLB entry (R293 to R295). -/
structure TlbEntry where
  ctx   : Nat
  page  : Nat
  size  : Nat
  pa    : Nat
  r     : Bool
  w     : Bool
  x     : Bool
  attr  : Nat
  world : Nat
  deriving DecidableEq, Repr

/-- Marks of a 128-byte line of device or host memory (R308, R309, R356, R357). -/
structure Line where
  tag    : Nat
  epoch  : Nat
  writes : Nat
  poison : Bool
  failed : Bool
  /-- Bits in error that its code will find: 0, 1 correctable, 2 uncorrectable. -/
  latent : Nat
  /-- A modified copy is held in the ways of this world; with it, the bytes the memory still holds. -/
  held   : Option (Nat × List Byte)
  /-- Halves the host has written since the mark (R357). -/
  halves : Nat
  deriving DecidableEq, Repr

end Sys2Proof.Machine
end

