-- ==== Sys2Proof/Machine/HubParts.lean ====
section
/-!
DEFINITION. The pieces of state of the clusters' front ends, the hub, the power system, the wear records
and the error machinery. Plain data only.
-/

namespace Sys2Proof.Machine

/-- Which edge the 64 front-end cycles of halved issue wait for (R221 to R223): none are due; the lane edge that ends the
lane cycle of the firing; the next front-end edge, which begins the first of them. -/
inductive Arming where
  | no
  | lane
  | front
  deriving DecidableEq, Repr

/-- The droop registers and clock state of a lane island (R220 to R224, R212). -/
structure Clock where
  drpCtl  : Word
  peak    : Nat
  /-- The detector has fired and its shortfall has not fallen to THR - 2 mV. -/
  tripped : Bool
  /-- A clock-source hop is in progress, to this frequency in MHz (R223), and the tick by which it completes. -/
  hop     : Option Nat
  hopEnd  : Nat
  /-- The detector has fired in this hop; issue is held until the hop completes (R223). -/
  fired   : Bool
  hold    : Bool
  /-- A stretch begins at the next lane edge; one is in progress; stretched lane cycles still to begin (R221). -/
  strDue  : Bool
  str     : Bool
  stretch : Nat
  /-- Halved issue is due; issue is halved; front-end cycles of it remaining (R221). -/
  arm     : Arming
  halving : Bool
  halve   : Nat
  /-- Lane frequency in MHz of the source in use (R212). -/
  lmhz    : Nat
  deriving DecidableEq, Repr

/-- An entry of a clock-crossing FIFO (R215): lane edges since it was written, and the samples of TIMER and CYCLES that
its start takes (R229): their cohort and results. -/
structure FifoEntry where
  age     : Nat
  cohort  : Nat
  samples : List Nat
  deriving DecidableEq, Repr

/-- What the front end keeps for a sub-partition (R213, R215, R241). -/
structure FrontEnd where
  /-- Instructions the lanes have not taken, oldest first. -/
  fifo  : List FifoEntry
  /-- Instructions issued in this front-end cycle, which the edge that ends it writes (R229). -/
  wr    : List FifoEntry
  /-- How many entries the lanes took at the last lane edge, and at the one before. -/
  took  : Nat × Nat
  /-- Highest occupancy since the last read. -/
  hw    : Nat
  /-- Issue opportunities left in this front-end cycle. -/
  left  : Nat
  /-- Front-end cycles since the last one that held an opportunity, where the width is below 1. -/
  skip  : Nat
  /-- The last opportunity went to a drawn bin (R241). -/
  drew  : Bool
  /-- The kind of bin drawn last: an aged one; also before the first draw, so that full comes first. -/
  aged  : Bool
  deriving DecidableEq, Repr

/-- The true occupancy of the FIFO, OCC (R215). -/
def FrontEnd.occ (f : FrontEnd) : Nat := f.fifo.length

/-- A cluster (R3, R4): the units and registers that live as long as the cluster. -/
structure Cluster where
  rate    : Nat
  clock   : Clock
  cycles  : Nat
  fe      : List FrontEnd
  bins    : FMap Bin
  spWorld : Word
  spadWorld : BitVec 128
  scratch : Memory
  scratchPoison : List Nat
  events  : Port
  outs    : List Port
  ports   : List Port
  landing : FMap Landing
  mxu     : List (List MatOp)
  /-- Lines of the constant cache with the bytes they were filled with (R145). -/
  ccache  : FMap (List Byte)
  /-- The grid whose cohort was placed last. -/
  ccGrid  : Nat
  /-- Copies of lines of NC-cacheable host pages in its L1 (R148, R153), by `16 * line + world`. -/
  nc      : FMap (List Byte)
  tlb     : List TlbEntry
  qstall  : Word
  hangLim : Word
  hangCount : Nat
  /-- Lane edges delivered in the running window of 1,000 ticks. -/
  hangEdges : Nat
  hangReported : Bool
  /-- Opportunities and stalls of the running 10 µs window (R325). -/
  winOpp  : Nat
  winStall : Nat
  issueStall : DWord
  /-- Ticks of the marks and of the trap events of the last 10,000 ticks (R209, R359). -/
  marks   : List Nat
  traps   : List Nat
  /-- Per line, the ticks of recent atomics, and the lines granted to the cluster (R151). -/
  recent  : List (Nat × Nat)
  granted : List Nat
  /-- The tick of the last access to each scratchpad bank (R261). -/
  touched : FMap Nat
  deriving DecidableEq, Repr

/-- The states of a grid (R280 to R284). -/
inductive GState where
  | waiting
  | running
  /-- Every cohort retired, halted or ended; its completion record is still to be written. -/
  | finished (ending code : Nat)
  /-- Completed: END and CODE of its record. -/
  | complete (ending code : Nat)
  deriving DecidableEq, Repr

/-- A launch record (R281). -/
structure Record where
  header : DWord
  shape  : List Nat
  cohsz  : Nat
  banks  : Nat
  sig    : Bool
  waits  : List Nat
  bmap   : DWord
  cpl    : DWord
  locpa  : DWord
  trapa  : DWord
  save   : DWord
  /-- Every `res` byte is zero and, where SIG is 1, every field that must be. -/
  clean  : Bool
  deriving DecidableEq, Repr

/-- A grid (R6): an accepted record. -/
structure Grid where
  queue  : Nat
  ctx    : Nat
  world  : Nat
  prio   : Nat
  record : Record
  state  : GState
  hdr    : Option Header
  extents : List Nat
  prologue : Nat
  total  : Nat
  ncoh   : Nat
  placed : Nat
  retired : Nat
  /-- Highest iteration of each tensor into which it offered a tile (R269). -/
  offered : FMap Nat
  deriving DecidableEq, Repr

/-- A launch queue (R279). -/
structure LQueue where
  base : DWord
  cfg  : Word
  tail : Nat
  head : Nat
  deriving DecidableEq, Repr

/-- A cached context descriptor (R277). -/
structure Ctx where
  root    : Nat
  world   : Nat
  priv    : Bool
  replay  : Bool
  devq    : Nat
  trapvec : DWord
  /-- ENERGY: total charged in µJ (R333). -/
  energy  : Nat
  /-- It has not ended (R278). -/
  live    : Bool
  deriving DecidableEq, Repr

/-- The launcher (R279 to R292). -/
structure Launcher where
  queues  : FMap LQueue
  seq     : Nat
  grids   : FMap Grid
  /-- Queue last served among those of equal priority (R283). -/
  turn    : Nat
  /-- Contexts and pages on whose faults the launcher is parked (R297). -/
  parked  : List (Nat × Nat)
  deriving DecidableEq, Repr

/-- A die's L2 TLB, the lines its remote-data cache holds with the world that filled each, its copies of lines of
NC-cacheable host pages by `16 * line + world`, its way map, and the walks of its latest tick with one: tick, context
and 4 KiB page (R295, R252, R153, R306, R307). -/
structure DieNet where
  tlb     : List TlbEntry
  walks   : List (Nat × Nat × Nat)
  rdc     : List (Nat × Nat)
  nc      : FMap (List Byte)
  wayMap  : DWord
  deriving DecidableEq, Repr

/-- The XLT_ block (R276, R297, R298). -/
structure Xlt where
  ctxBase : DWord
  ctxs    : FMap Ctx
  fqBase  : DWord
  fqEn    : Bool
  fqLogn  : Nat
  fqTail  : Nat
  fqHead  : Nat
  /-- Pages with faults outstanding: context, 4 KiB page. -/
  pages   : List (Nat × Nat)
  /-- Fault entries that wait for room in the ring: the 32-byte entry without its address, by page. -/
  waiting : List (Nat × Nat × List Byte)
  cmd     : DWord
  migPa   : DWord
  busy    : Bool
  status  : Nat
  /-- The ranges of memory whose outstanding accesses the running invalidation waits for (R298). -/
  awaits  : List (Nat × Nat)
  deriving DecidableEq, Repr

/-- Name routing and named tiles (R268 to R272). -/
structure Names where
  ents     : FMap (BitVec 128)
  /-- Entries the launcher installed, with the context they live for (R269). -/
  owners   : FMap Nat
  wants    : FMap Want
  merges   : List Merge
  interests : FMap Interest
  tiles    : List Tile
  returns  : FMap Return
  deriving DecidableEq, Repr

/-- A key slot (R311). -/
structure KeySlot where
  world : Nat
  ctx   : Nat
  key   : Digest
  last  : Nat
  deriving DecidableEq, Repr

/-- A TDI (R304). -/
structure Tdi where
  state  : Nat
  /-- Its selective stream is secure. -/
  ide    : Bool
  /-- Number of the seal key drawn last; 0 where none is held (R308). -/
  epoch  : Nat
  deriving DecidableEq, Repr

/-- How far the SPDM requester has come (R305): versions, capabilities, algorithms. -/
structure Spdm where
  stage    : Nat
  /-- Open sessions: number, the function that opened it, finished. -/
  sessions : List (Nat × Nat × Bool)
  deriving DecidableEq, Repr

/-- The security blocks (R303 to R311, R316). -/
structure Security where
  tdis   : FMap Tdi
  epochs : Nat
  /-- The link stream is secure. -/
  link   : Bool
  slots  : FMap KeySlot
  spdm   : Spdm
  evAddr : DWord
  evReq  : Word
  evDone : Bool
  evStatus : Nat
  deriving DecidableEq, Repr

/-- A Zhevip port (R313). -/
structure FabPort where
  health : DWord
  alarm  : DWord
  deriving DecidableEq, Repr

/-- The fabric (R313 to R315). -/
structure Fabric where
  ports  : FMap FabPort
  groups : FMap (BitVec 128)
  /-- What each switch of a group's tree showed at its last attestation. -/
  switches : FMap (List (Digest × Digest))
  /-- Packets sent under each group's key (R314). -/
  counters : FMap Nat
  swref  : DWord
  deriving DecidableEq, Repr

/-- Where a transition of an island stands (R322). -/
structure Move where
  target : Nat
  freq   : Nat
  locked : Bool
  /-- A ramp that a clamp does not hold up (R335). -/
  ramp   : Bool
  deriving DecidableEq, Repr

/-- An island (R318 to R322, R324). -/
structure Island where
  gate   : Bool
  mv     : Nat
  mhz    : Nat
  n      : Nat
  f      : Nat
  ceilf  : Nat
  status : Nat
  move   : Option Move
  /-- 0 none, 1 thermal clamp, 2 thermal trip (R317). -/
  thermal : Nat
  /-- End tick of the boost in force (R204). -/
  boost  : Option Nat
  tel    : DWord
  deriving DecidableEq, Repr

/-- A power request whose answer is outstanding (R330). -/
structure Ticket where
  ctx  : Nat
  ci   : Nat
  kind : Nat
  value : Nat
  dur  : Nat
  deriving DecidableEq, Repr

/-- An array in retention (R261): since when, and the tick at which it is awake again, once an access has reached it. -/
structure Asleep where
  arr   : RetArray
  since : Nat
  wake  : Option Nat
  deriving DecidableEq, Repr

/-- The PWR_ block (R317, R323 to R331, R334, R338). -/
structure Power where
  islands : FMap Island
  prot    : DWord
  stages  : List DWord
  pkgLim  : Nat
  rsv     : Nat
  caps    : List Nat
  lcomp   : Nat
  lmem    : Nat
  mshare  : Nat
  dieLim  : List Nat
  /-- Opportunities and stalls of the stall windows that ended in the running 1 ms (R327). -/
  sumOpp  : Nat
  sumStall : Nat
  /-- Command rate of the home agents in sixteenths, and samples at or below 0.95 LMEM in a row. -/
  memRate : Nat
  memLow  : Nat
  quiet   : List Nat
  halved  : List Bool
  /-- The tick of the last 1 ms boundary, and whether the host has installed a policy table (R317, R327). -/
  bound   : Option Nat
  table   : Bool
  hint    : Option (Nat × Option Nat)
  nextHint : Option (Nat × Option Nat)
  pqBase  : DWord
  pqEn    : Bool
  pqLogn  : Nat
  pqTail  : Nat
  pqHead  : Nat
  ticket  : Nat
  tickets : FMap Ticket
  retIdle : List DWord
  /-- Arrays in retention (R261). -/
  asleep  : List Asleep
  /-- The energy of each island over the interval in µJ, and how often it worked for each context, by
  `256 * island + context` (R333). -/
  energy  : FMap Nat
  takers  : FMap Nat
  deriving DecidableEq, Repr

/-- The record of a wear unit (R340) with what the running interval has gathered. -/
structure WearUnit where
  b     : Nat
  h     : Nat
  e     : Nat
  base  : Nat
  pool  : Nat
  state : Nat
  rleft : Nat
  rgap  : Nat
  widx  : Nat
  allow : Nat
  hold  : Nat
  vb    : Nat
  tb    : Nat
  jb    : Nat
  fb    : Nat
  fah   : Nat
  deriving DecidableEq, Repr

/-- What the running interval has gathered for an island (R342, R346). -/
structure Gather where
  vSum  : Nat
  tSum  : Int
  iSum  : Nat
  count : Nat
  rev   : Nat
  off   : Nat
  /-- Ticks of the interval before the unit was called as a spare (R349). -/
  cold  : Nat
  deriving DecidableEq, Repr

/-- A copy of the wear records in the MRAM (R341): its records, its SEQ, and whether its SM3 digest still is that of its
words, which an uncorrectable error in one ends (R356). -/
structure MramCopy where
  units : FMap WearUnit
  seq   : Nat
  sound : Bool
  deriving DecidableEq, Repr

/-- The WEAR_ block (R339 to R354). -/
structure Wear where
  units  : FMap WearUnit
  seq    : Nat
  /-- Results of the update in progress, not yet published (R341). -/
  next   : Option (FMap WearUnit)
  /-- The tick of the last boundary. -/
  last   : Nat
  /-- The MRAM's two copies, the newer one first. -/
  mram   : List MramCopy
  gather : FMap Gather
  /-- Lane cycles of the interval in which a physical cluster started an instruction, by unit (R345). -/
  started : FMap Nat
  ctl    : DWord
  ctlNew : DWord
  tgt    : Nat
  arate  : Nat
  eol    : Nat
  rpt    : DWord
  /-- End tick of each rest in progress, by cluster, and whether it is reverse-biased. -/
  rests  : FMap (Nat × Bool)
  deriving DecidableEq, Repr

/-- A black-box event (R359). -/
structure BbxEvent where
  tick  : Nat
  kind  : Nat
  die   : Nat
  unit  : Nat
  world : Nat
  ctx   : Nat
  data  : List Byte
  deriving DecidableEq, Repr

/-- A committed slot of the black box (R360). -/
structure BbxSlot where
  events : List BbxEvent
  cause  : Nat
  seq    : Nat
  tick   : Nat
  deriving DecidableEq, Repr

/-- Error ring, black box, remap tables, boot (R358 to R364). -/
structure Mc where
  errBase : DWord
  errEn   : Bool
  errLogn : Nat
  errTail : Nat
  errHead : Nat
  /-- The newest entry: class, synclass, unit, world, address, tick, count. -/
  newest  : Option (List Nat)
  ring    : List BbxEvent
  bbxCtl  : DWord
  bbxSeq  : Nat
  slots   : FMap BbxSlot
  /-- A commit in progress: its cause, its tick and the events it holds; and the cause of a further one owed. -/
  commit  : Option (Nat × Nat × List BbxEvent)
  owed    : Option Nat
  remapClu : FMap Word
  remapSlc : FMap Word
  spareCall : Word
  spareStat : Nat
  /-- Changes of the measured configuration (R361, R363). -/
  configs : Nat
  boot    : Nat
  deriving DecidableEq, Repr

/-- The ordering codes (R1): the package; a package of the customer's that is built from compute dies; the package with an
isolated converter. -/
inductive OrderCode where
  | package
  | dies
  | module
  deriving DecidableEq, Repr

/-- What the host last read: poisoned or not, the bytes, and whether the request succeeded. -/
structure Reply where
  ok     : Bool
  poison : Bool
  bytes  : List Byte
  deriving DecidableEq, Repr

/-- An error that an access finds in a storage array (R356); `bad` where its code cannot correct it. -/
inductive ArrayError where
  /-- A lane word of a crew's register: cohort, thread, register. -/
  | register (co k reg : Nat) (bad : Bool)
  /-- A line of a cluster's scratchpad. -/
  | scratch (ci line : Nat) (bad : Bool)
  /-- A word of a template-store entry: cohort, entry, register. -/
  | template (co entry reg : Nat) (bad : Bool)
  /-- A line in a cluster's L1, a slice, a memory-side cache or a die's remote-data cache: `level` 0, 1, 2 or 3, with the
  cluster that read it. -/
  | cached (level ci line : Nat) (bad : Bool)
  /-- Parity of the tag entry of such a line; `dirty` where the line there is modified. -/
  | tag (level ci line : Nat) (dirty : Bool)
  /-- A word of a copy of the wear records in the MRAM, the newest being 0. -/
  | mram (copy : Nat) (bad : Bool)
  /-- A shadow accumulator line in its slice. -/
  | shadow (line : Nat) (bad : Bool)
  /-- A line in its memory stack, which the next read of it finds. -/
  | stack (line : Nat) (bad : Bool)
  /-- Parity of an entry of a cluster's TLB, by place, or of a die's. -/
  | clusterTlb (ci i : Nat)
  | dieTlb (die i : Nat)
  /-- Parity of an entry of a queue or of the bin store that a cohort owns. -/
  | queue (co : Nat)
  deriving DecidableEq, Repr

/-- What comes from outside with a write of a register: what switches show where the write has groups attested (R315), and
what a boot finds where it resets the package (R361). -/
structure WriteEnv where
  reports  : List SwitchReport
  groups   : List (Nat × List SwitchReport)
  fwOk     : Bool
  stacksOk : Bool
  deriving DecidableEq, Repr

/-- What the model's tape says comes next (R241, R264): log entry 2. -/
inductive Tape where
  /-- Reference ticks pass. -/
  | ticks (n : Nat)
  /-- A front-end cycle of a cluster begins. -/
  | frontEdge (ci : Nat)
  /-- A lane edge is delivered to a cluster. -/
  | laneEdge (ci : Nat)
  /-- A write of a command without REL takes its place (R170). -/
  | late (id : Nat)
  /-- An access meets an error in an array. -/
  | error (a : ArrayError)
  /-- A modified line leaves the ways of its world (R308). -/
  | evict (line : Nat)
  /-- IDE_KM programs the keys of a stream in a session (R303, R305). -/
  | ideKm (sess stream : Nat)
  /-- An issue opportunity of a sub-partition, and the ready group of a cohort that is to take it. -/
  | issue (ci sp : Nat) (pick : Option (Nat × Nat))
  /-- An access of BAR0 of PF0, or of VF `fn`: offset, bytes, and the value written (R300). -/
  | barRead (fn off n : Nat)
  | barWrite (fn off n : Nat) (v : DWord) (env : WriteEnv)
  /-- Another whole step of the machine. -/
  | event (i : Instr)
  deriving DecidableEq, Repr

end Sys2Proof.Machine
end

