-- ==== Sys2Proof/Machine/State.lean ====
section
/-!
DEFINITION. The state of the machine, the reasons a step can stop, and the state after reset.
-/

namespace Sys2Proof.Machine

/-- The machine: a whole package (R1). -/
structure State where
  /-- Its ordering code, and how many compute dies the count fused into the hub gives it (R1, R2): no step changes them. -/
  code     : OrderCode
  dieCount : Nat
  /-- TIMER: ticks since package reset (R225). -/
  timer    : Nat
  /-- The steps to come (log entry 2); empty: the machine goes on by itself. -/
  tape     : List Tape
  /-- The issue group that an instruction's meaning acts for: cohort and group. -/
  sel      : Option (Nat × Nat)
  /-- Choices to come among permitted outcomes (log entry 2), and the counts of choices and of free
  values drawn so far. -/
  choices  : List Nat
  choiceCtr : Nat
  freeCtr  : Nat
  mem      : Memory
  lines    : FMap Line
  clusters : FMap Cluster
  cohorts  : FMap Cohort
  cmds     : FMap Cmd
  /-- Writes of commands that may come after their completion, and what threads' stores replaced (R170). -/
  late     : FMap Late
  stale    : List Stale
  partials : FMap Partial
  shadows  : FMap Shadow
  msgs     : FMap Msg
  mcasts   : FMap Mcast
  bloads   : FMap Bload
  dies     : FMap DieNet
  xlt      : Xlt
  lch      : Launcher
  names    : Names
  sec      : Security
  fab      : Fabric
  pwr      : Power
  wear     : Wear
  mc       : Mc
  /-- RC counters by register and instance (R8); what is not listed is 0. -/
  counters : FMap Nat
  /-- Staging copies and read latches of the 128-bit registers (R301). -/
  staging  : List (Reg128 × BitVec 128)
  latches  : List (Reg128 × BitVec 96)
  /-- Halves of pages' host lines and other replies: what the host last read. -/
  reply    : Reply
  /-- The identity given to the next command, message, operation or cohort. -/
  fresh    : Nat
  deriving DecidableEq, Repr

/-- Why the machine stops with a fault. -/
inductive Fault where
  /-- Raised by `step` where the tape names a step of a part no package has (a cluster number above 575,
  say): safe, since no hardware takes such a step. -/
  | noSuchStep
  deriving DecidableEq, Repr

/-- Why an instruction has no meaning here. -/
inductive Refusal where
  /-- Raised by `exec` for an instruction that is not modelled yet: safe. -/
  | notModelled (mnemonic : String)
  deriving DecidableEq, Repr

/-- A lane clock after reset (R212, R220, R224). -/
def Clock.reset : Clock where
  drpCtl := 0x80000028
  peak := 0
  tripped := false
  hop := none
  hopEnd := 0
  fired := false
  hold := false
  strDue := false
  str := false
  stretch := 0
  arm := .no
  halving := false
  halve := 0
  lmhz := 2250

/-- A front end after reset (R213, R215); its opportunities are log entry 13. -/
def FrontEnd.reset : FrontEnd where
  fifo := []
  wr := []
  took := (0, 0)
  hw := 0
  left := 2
  skip := 0
  drew := false
  aged := true

/-- A queue no binding owns. -/
def Port.reset : Port := ⟨none, []⟩

/-- A cluster after reset: the Reset columns of R160, R212, R215, R226, R306, R325; scratchpad bytes are
log entry 4. -/
def Cluster.reset : Cluster where
  rate := 2
  clock := Clock.reset
  cycles := 0
  fe := [FrontEnd.reset, FrontEnd.reset, FrontEnd.reset, FrontEnd.reset]
  bins := []
  spWorld := 0
  spadWorld := 0
  scratch := []
  scratchPoison := []
  events := Port.reset
  outs := [Port.reset, Port.reset, Port.reset]
  ports := [Port.reset, Port.reset, Port.reset, Port.reset, Port.reset, Port.reset, Port.reset, Port.reset]
  landing := []
  mxu := [[], [], [], []]
  ccache := []
  ccGrid := 0
  nc := []
  tlb := []
  qstall := 0x000F4240
  hangLim := 0x3B9ACA00
  hangCount := 0
  hangEdges := 0
  hangReported := false
  winOpp := 0
  winStall := 0
  issueStall := 0
  marks := []
  traps := []
  recent := []
  granted := []
  touched := []

/-- The line marks of a line that has none (R361 step 4). -/
def Line.none : Line := ⟨0, 0, 0, false, false, 0, Option.none, 0⟩

/-- A launch queue after reset (R279). -/
def LQueue.reset : LQueue := ⟨0, 0, 0, 0⟩

/-- A die's network after reset (R252, R295, R306). -/
def DieNet.reset : DieNet := ⟨[], [], [], [], 0⟩

/-- A TDI after reset (R304). -/
def Tdi.reset : Tdi := ⟨0, false, 0⟩

/-- A fabric port after reset (R313). -/
def FabPort.reset : FabPort := ⟨0x00000000FFFFFFFF, 0x0030002710_36EE80⟩

/-- The fixed frequency of islands 128 to 255, and the reset frequency of lanes (R318, R321). -/
def islandMhz (isl : Nat) : Nat :=
  if isl < 128 then 2250 else if isl < 144 then 1125 else if isl < 240 then 1500
  else if isl < 244 then 1600 else if isl < 253 then 1750 else if isl < 254 then 2250
  else if isl < 255 then 2000 else 500

/-- The voltage range of an island in steps of 12.5 mV (R318). -/
def islandRange (isl : Nat) : Nat × Nat :=
  if isl < 128 then (48, 64) else if isl < 144 then (56, 64) else if isl < 240 then (56, 68)
  else if isl < 244 then (60, 68) else if isl < 253 then (64, 72) else if isl < 255 then (60, 68)
  else (64, 64)

/-- An island after reset (R321, R322): lanes at nominal; the voltage of the others is log entry 15. -/
def Island.reset (isl : Nat) : Island where
  gate := false
  mv := 25 * (islandRange isl).2
  mhz := islandMhz isl
  n := (islandRange isl).2
  f := islandMhz isl
  ceilf := 2600
  status := 0
  move := none
  thermal := 0
  boost := none
  tel := 0

/-- The record of a wear unit as the part ships (R340, R342, R349; log entry 16): clusters at the ninth
position of their group, their matrix units, and slices 96 to 99 are cold spares; there is no unit from 829 on (R339). -/
def WearUnit.shipped (u : Nat) : WearUnit where
  b := 0
  h := 0
  e := 0
  base := 0
  pool := 0
  state := if (u < 144 ∧ u % 9 = 8) ∨ (144 ≤ u ∧ u < 720 ∧ (u - 144) / 4 % 9 = 8) ∨ (816 ≤ u ∧ u < 820) then 3 else 0
  rleft := 0
  rgap := 0
  widx := 0
  allow := 0
  hold := 0
  vb := if u < 829 then 8 else 0
  tb := if u < 829 then 5 else 0
  jb := if u < 829 then 8 else 0
  fb := 0
  fah := 0

/-- An event that the hub enters as it resets or boots (R359, R361): a KIND 10 or 11 event. -/
def bootEvent (kind n : Nat) : BbxEvent := ⟨0, kind, 0xFF, 7 * 2 ^ 10 + 1, 0, 0xFF, toBytes n 16⟩

/-- The machine right after reset: the Reset columns of the register maps, and empty queues, tables and
rings; where the specification gives no value, the log entries that INVENTORY.md names. -/
def State.reset : State where
  code := .package
  dieCount := Config.dieCount
  timer := 0
  tape := []
  sel := none
  choices := []
  choiceCtr := 0
  freeCtr := 0
  mem := []
  lines := []
  clusters := []
  cohorts := []
  cmds := []
  late := []
  stale := []
  partials := []
  shadows := []
  msgs := []
  mcasts := []
  bloads := []
  dies := []
  xlt := {
    ctxBase := 0, ctxs := [], fqBase := 0, fqEn := false, fqLogn := 6, fqTail := 0, fqHead := 0,
    pages := [], waiting := [], cmd := 0, migPa := 0, busy := false, status := 0,
    awaits := [] }
  lch := { queues := [], seq := 1, grids := [], turn := 0, parked := [] }
  names := { ents := [], owners := [], wants := [], merges := [], interests := [], tiles := [], returns := [] }
  sec := {
    tdis := [], epochs := 0, link := false, slots := [], spdm := ⟨0, []⟩,
    evAddr := 0, evReq := 0, evDone := false, evStatus := 0 }
  fab := { ports := [], groups := [], switches := [], counters := [], swref := 0 }
  pwr := {
    islands := [], prot := 0, stages := [0, 0, 0, 0], pkgLim := 6000, rsv := 280,
    caps := [1350, 1350, 1350, 1350], lcomp := 5158, lmem := 562, mshare := 96,
    dieLim := [1289, 1289, 1289, 1289], sumOpp := 0, sumStall := 0, memRate := 16, memLow := 0,
    quiet := [0, 0, 0, 0], halved := [false, false, false, false], bound := none, table := false, hint := none, nextHint := none,
    pqBase := 0, pqEn := false, pqLogn := 4, pqTail := 0, pqHead := 0, ticket := 1, tickets := [],
    retIdle := [0x000F4240000186A0, 0x000F4240000186A0, 0x000F4240000186A0, 0x000F4240000186A0],
    asleep := [], energy := [], takers := [] }
  wear := {
    units := [], seq := 0, next := none, last := 0, mram := [⟨[], 0, true⟩, ⟨[], 0, true⟩], gather := [], started := [], ctl := 0x0000001088041400,
    ctlNew := 0x0000001088041400, tgt := 2557, arate := 1200, eol := 265109760000000, rpt := 0, rests := [] }
  mc := {
    errBase := 0, errEn := false, errLogn := 6, errTail := 0, errHead := 0, newest := none, ring := [bootEvent 10 1, bootEvent 11 0],
    bbxCtl := 0, bbxSeq := 0, slots := [], commit := none, owed := none, remapClu := [], remapSlc := [],
    spareCall := 0, spareStat := 0, configs := 0, boot := 0 }
  counters := []
  staging := []
  latches := []
  reply := ⟨true, false, []⟩
  fresh := 1

end Sys2Proof.Machine
end

