-- ==== Sys2Proof/Machine/Base.lean ====
section
/-!
DEFINITION. Access to the parts of the state, counters, free choices, free values, black-box events and
error records.
-/

namespace Sys2Proof.Machine

/-- Cluster `ci` (R4): clusters that nothing has changed are as after reset. -/
def State.cluster (s : State) (ci : Nat) : Cluster := findD s.clusters ci Cluster.reset

/-- The state with a cluster replaced. -/
def State.setCluster (s : State) (ci : Nat) (c : Cluster) : State :=
  { s with clusters := insert s.clusters ci c }

/-- The state with a cluster changed. -/
def State.modCluster (s : State) (ci : Nat) (f : Cluster → Cluster) : State :=
  s.setCluster ci (f (s.cluster ci))

/-- A die's network. -/
def State.die (s : State) (d : Nat) : DieNet := findD s.dies d DieNet.reset

/-- The state with a die's network changed. -/
def State.modDie (s : State) (d : Nat) (f : DieNet → DieNet) : State :=
  { s with dies := insert s.dies d (f (s.die d)) }

/-- The state with a cohort replaced. -/
def State.setCohort (s : State) (co : Nat) (c : Cohort) : State :=
  { s with cohorts := insert s.cohorts co c }

/-- The state with a cohort changed, where there is one. -/
def State.modCohort (s : State) (co : Nat) (f : Cohort → Cohort) : State :=
  { s with cohorts := modify s.cohorts co f }

/-- A thread of a cohort. -/
def State.thread? (s : State) (co k : Nat) : Option Thread :=
  (find? s.cohorts co).bind fun c => find? c.threads k

/-- The state with a thread changed, where there is one. -/
def State.modThread (s : State) (co k : Nat) (f : Thread → Thread) : State :=
  s.modCohort co fun c => { c with threads := modify c.threads k f }

/-- The state with several threads of a cohort changed. -/
def State.modThreads (s : State) (co : Nat) (ks : List Nat) (f : Nat → Thread → Thread) : State :=
  s.modCohort co fun c =>
    { c with threads := c.threads.map fun p => if ks.contains p.1 then (p.1, f p.1 p.2) else p }

/-- A TDI (R304). -/
def State.tdi (s : State) (n : Nat) : Tdi := findD s.sec.tdis n Tdi.reset

/-- An island (R318), by `256 * die + i`. -/
def State.island (s : State) (i : Nat) : Island := findD s.pwr.islands i (Island.reset (i % 256))

/-- The state with an island changed. -/
def State.modIsland (s : State) (i : Nat) (f : Island → Island) : State :=
  { s with pwr := { s.pwr with islands := insert s.pwr.islands i (f (s.island i)) } }

/-- A wear unit (R339), by `1024 * die + u`. -/
def State.wunit (s : State) (i : Nat) : WearUnit := findD s.wear.units i (WearUnit.shipped (i % 1024))

/-- A launch queue (R279). -/
def State.queue (s : State) (i : Nat) : LQueue := findD s.lch.queues i LQueue.reset

/-- The state with a launch queue changed. -/
def State.modQueue (s : State) (i : Nat) (f : LQueue → LQueue) : State :=
  { s with lch := { s.lch with queues := insert s.lch.queues i (f (s.queue i)) } }

/-- The state with a grid changed. -/
def State.modGrid (s : State) (seq : Nat) (f : Grid → Grid) : State :=
  { s with lch := { s.lch with grids := modify s.lch.grids seq f } }

/-- An island has worked for a context: an issue opportunity that a thread of it took, or a request of it that was served
(R333). -/
def State.takes (s : State) (i ctx : Nat) : State :=
  let key := 256 * i + ctx
  { s with pwr := { s.pwr with takers := insert s.pwr.takers key (findD s.pwr.takers key 0 + 1) } }

/-- A fabric port (R313). -/
def State.fabPort (s : State) (p : Nat) : FabPort := findD s.fab.ports p FabPort.reset

/-- The number by which the counters of a register are kept. -/
def rcCode : RcReg → Nat
  | .cluBraDiverge => 0 | .cluReformSkip => 1 | .cluJoinNop => 2 | .cluAtomNear => 3 | .cluAtomFar => 4
  | .cluAtomGrant => 5 | .cluMmaIssue => 6 | .cluMmaDrop => 7 | .cluEarlyPromo => 8 | .cluNofferDup => 9
  | .cluCopyAlloc => 10 | .cluCopyFault => 11 | .cluTmarkDrop => 12 | .cluXfifo => 13
  | .cluBankSpill => 14 | .cluBinFull => 15 | .cluBinAged => 16 | .cluBinForced => 17
  | .cluRetWait => 18 | .cluPromoStall => 19 | .cluStray => 20 | .cluEcc => 21 | .slcEcc => 22
  | .homEcc => 23 | .cxbRdcHit => 24 | .cxbRdcMiss => 25 | .nrtMerged => 26 | .nrtUnmerged => 27
  | .nrtTabWait => 28 | .xltL2Miss => 29 | .xltWalks => 30 | .xltCoalesce => 31 | .lchPreempt => 32
  | .lchDrainOver => 33 | .secHostDeny => 34 | .mcErrLost => 35 | .bbxDrop => 36 | .drpFires => 37
  | .drpHophold => 38

/-- The key of a counter: its register and the instance of the block. -/
def rcKey (r : RcReg) (i : Nat) : Nat := rcCode r * 2 ^ 16 + i

/-- A counter (R8). -/
def State.counter (s : State) (r : RcReg) (i : Nat) : Nat := findD s.counters (rcKey r i) 0

/-- A counter raised by `n`; nothing changes for 0. -/
def State.bump (s : State) (r : RcReg) (i n : Nat) : State :=
  if n = 0 then s
  else { s with counters := insert s.counters (rcKey r i) ((s.counter r i + n) % 2 ^ 64) }

/-- The state with a step of a part made, where it has one. -/
def State.also (s : State) (f : State → Host.Outcome State Fault Refusal) : State :=
  match f s with
  | .next t => t
  | _ => s

/-- A choice among `n` permitted outcomes (R12): none is made where only one is permitted. -/
def State.choose (s : State) (n : Nat) : Nat × State :=
  if n ≤ 1 then (0, s) else
  match s.choices with
  | c :: cs => (c % n, { s with choices := cs })
  | [] => (Config.freeChoice s.choiceCtr % n, { s with choiceCtr := s.choiceCtr + 1 })

/-- A free value (log entry 5). -/
def State.freeValue (s : State) : DWord × State :=
  (Config.freeWord s.freeCtr, { s with freeCtr := s.freeCtr + 1 })

/-- A new identity. -/
def State.newId (s : State) : Nat × State := (s.fresh, { s with fresh := s.fresh + 1 })

/-- The die of a cluster. -/
def dieOf (ci : Nat) : Nat := ci / 144

/-- The position of a cluster in its group is a spare one (R4). -/
def isSparePos (ci : Nat) : Bool := ci % 144 % 9 == 8

/-- The lane island of a logical cluster (R318), by `256 * die + i`. -/
def laneIsland (ci : Nat) : Nat := 256 * dieOf ci + 8 * (ci % 144 / 9) + ci % 144 % 9

/-- The front-end island of a cluster's group (R318). -/
def frontIsland (ci : Nat) : Nat := 256 * dieOf ci + 128 + ci % 144 / 9

/-- The physical cluster that serves a logical one (R362), by `144 * die + c`. -/
def State.physCluster (s : State) (ci : Nat) : Nat :=
  let d := dieOf ci
  let g := ci % 144 / 9
  let p := ci % 144 % 9
  let pos := if p = 8 then 8 else bits (findD s.mc.remapClu (16 * d + g) 0x76543210).toNat (4 * p) 4
  144 * d + 9 * g + pos

/-- The wear unit of the physical cluster that serves a logical one (R339). -/
def State.clusterUnit (s : State) (ci : Nat) : Nat := 1024 * dieOf ci + s.physCluster ci % 144

/-- The physical slice that serves a logical one of a die (R362). -/
def State.physSlice (s : State) (d sl : Nat) : Nat :=
  let m := (findD s.mc.remapSlc d 0).toNat
  match (List.range 4).find? (fun k => bits m (8 * k) 8 == 128 + sl) with
  | some k => 96 + k
  | none => sl

/-- The slice has failed and no spare serves it (R363). -/
def State.sliceFailed (s : State) (d sl : Nat) : Bool :=
  (s.wunit (1024 * d + 720 + s.physSlice d sl)).state == 4

/-- UNIT of an error record or event (R312, R358). -/
def unitCode (die kind n : Nat) : Nat := die % 4 * 2 ^ 14 + kind % 16 * 2 ^ 10 + n % 2 ^ 10

/-- UNIT of a logical cluster. -/
def clusterCode (ci : Nat) : Nat := unitCode (dieOf ci) 0 (ci % 144)

/-- The ring of events with one more (R359): it keeps the 4,096 most recent ones. -/
def ringPush (r : List BbxEvent) (e : BbxEvent) : List BbxEvent := (r ++ [e]).drop (r.length + 1 - 4096)

/-- Enters an event in the black box (R359). -/
def State.bbx (s : State) (kind die unit world ctx : Nat) (data : List Byte) : State :=
  { s with mc := { s.mc with ring := ringPush s.mc.ring ⟨s.timer, kind, die, unit, world, ctx, data⟩ } }

/-- DATA of an event: the bytes at their offsets, zero elsewhere, 16 in all. -/
def evData (bs : List Byte) : List Byte := (bs ++ List.replicate 16 0).take 16

/-- The marks of a line (R308, R309), by line number. -/
def State.line (s : State) (n : Nat) : Line := findD s.lines n Line.none

/-- The state with a line's marks replaced; a line without marks is not listed. -/
def State.setLine (s : State) (n : Nat) (l : Line) : State :=
  { s with lines := if l = Line.none then erase s.lines n else insert s.lines n l }

/-- A run of bytes cut at line boundaries: physical address and bytes of each piece. -/
def cutLines (pa : Nat) : List Byte → List (Nat × List Byte)
  | [] => []
  | b :: bs =>
    match cutLines (pa + 1) bs with
    | [] => [(pa, [b])]
    | (q, cs) :: rest => if q / 128 = pa / 128 then (pa, b :: cs) :: rest else (pa, [b]) :: (q, cs) :: rest

/-- An access by a cluster recalls the grants of the others on the line (R151, R259). -/
def State.recall (s : State) (ci n : Nat) : State :=
  if s.clusters.any fun p => p.1 != ci && p.2.granted.contains n then
    { s with clusters := mapVals s.clusters fun j cl =>
        if j = ci then cl else { cl with granted := cl.granted.filter (· != n) } }
  else s

/-- What the stores of some threads replaced that a command with ACQ = 0 may still find (R170). -/
def State.staleOf (s : State) (co : Nat) (ks : List Nat) (acq : Bool) : List Stale :=
  if acq then [] else s.stale.filter fun e => e.cohort == co && e.threads.any ks.contains

/-- Threads have ordered their stores before the reads of what they push from now on (R152). -/
def State.dropStale (s : State) (co : Nat) (ks : List Nat) : State :=
  { s with stale := s.stale.filterMap fun e =>
      let ts := if e.cohort = co then e.threads.filter fun k => !ks.contains k else e.threads
      if ts.isEmpty then none else some { e with threads := ts } }

/-- A store of an issue replaces some bytes (R170). -/
def State.noteStale (s : State) (e : Stale) (new : List Byte) : State :=
  if e.old = new then s else { s with stale := e :: s.stale }

/-- Bytes as they were before a store. -/
def Stale.undo (e : Stale) (pos : Nat) (bs : List Byte) : List Byte :=
  bs.mapIdx fun i b => if e.pos ≤ pos + i ∧ pos + i < e.pos + e.old.length then nth e.old (pos + i - e.pos) b else b

/-- What a read that some stores do not precede gives (R170): the bytes as they are, or as they were before one of them. -/
def State.olderBytes (s : State) (es : List Stale) (sp : Bool) (pos : Nat) (bs : List Byte) : List Byte × State :=
  let hits := es.filter fun e => e.sp == sp && decide (e.pos < pos + bs.length ∧ pos < e.pos + e.old.length)
  let c := s.choose (hits.length + 1)
  ((hits.take c.1).foldl (fun bs e => e.undo pos bs) bs, c.2)

/-- No cluster has this number: an access by an agent outside the clusters recalls every grant (R259). -/
def hostAgent : Nat := 576

/-- Bytes the hub writes at a physical address (R297, R312, R330, R354, R360), in plaintext: a whole line
is stored with tag 0 (R308); a part of one is merged, unless the line is sealed or failed (R367). -/
def State.hubWrite (s : State) (pa : Nat) (bs : List Byte) : State :=
  (cutLines pa bs).foldl (fun s p =>
    let n := p.1 / 128
    let l := s.line n
    let s := s.recall hostAgent n
    if p.2.length = 128 then ({ s with mem := s.mem.setBytes p.1 p.2 }).setLine n { Line.none with writes := l.writes }
    else if l.tag = 0 ∧ l.held.isNone ∧ !l.failed then { s with mem := s.mem.setBytes p.1 p.2 }
    else s) s

/-- An error record's bytes (R312). -/
def errBytes (cls syn unit world tick count synd addr : Nat) : List Byte :=
  toBytes cls 1 ++ toBytes syn 1 ++ toBytes unit 2 ++ toBytes world 1 ++ toBytes 0 3 ++ toBytes tick 8
    ++ toBytes count 4 ++ toBytes synd 4 ++ toBytes addr 8

/-- Posts an error record (R312, R358): merged into the newest unconsumed entry, written as a new one, or
lost; a record that is not merged enters a KIND 8 event (R359). -/
def State.postError (s : State) (cls syn unit world synd addr : Nat) : State :=
  let addr' := if world = 0 then addr else 0
  let synd' := if world = 0 then synd else 0
  let key := [cls, syn, unit, world, addr']
  let size := 2 ^ s.mc.errLogn
  let at_ (i : Nat) : Nat := s.mc.errBase.toNat + 32 * (i % size)
  let merges : Bool :=
    match s.mc.newest with
    | some m => decide (s.mc.errHead ≠ s.mc.errTail) && m.take 5 == key && decide (s.timer ≤ nth m 5 0 + 1000000)
    | none => false
  if merges then
    let m := s.mc.newest.getD []
    let count := nth m 6 0 + 1
    let s := s.hubWrite (at_ (s.mc.errTail + size - 1) + 0x10) (toBytes count 4)
    { s with mc := { s.mc with newest := some (key ++ [nth m 5 0, count]) } }
  else
    let lost : Bool := !s.mc.errEn || (s.mc.errTail + 1) % size == s.mc.errHead % size
    let data := evData (toBytes cls 1 ++ toBytes syn 1 ++ toBytes lost.toNat 1 ++ toBytes 0 5 ++ toBytes addr' 8)
    let s := s.bbx 8 (if bits unit 10 4 = 7 then 0xFF else unit / 2 ^ 14) unit world 0xFF data
    if lost then s.bump .mcErrLost 0 1
    else
      let s := s.hubWrite (at_ s.mc.errTail) (errBytes cls syn unit world s.timer 1 synd' addr')
      { s with mc := { s.mc with
          errTail := (s.mc.errTail + 1) % size
          newest := some (key ++ [s.timer, 1]) } }

end Sys2Proof.Machine
end

