-- ==== Sys2Proof/Machine/Threads.lean ====
section
/-!
DEFINITION. Threads, issue groups, divergence entries, registers of crews, barriers and convergence
registers: how they are read, split, merged, released and left.
-/

namespace Sys2Proof.Machine

/-- Threads in ascending home lane. -/
def byLane (ks : List Nat) : List Nat := (List.range 32).flatMap fun l => ks.filter fun k => k % 32 == l

/-- The threads of an issue group (R6), in ascending lane order. -/
def Cohort.members (c : Cohort) (g : Nat) : List Nat :=
  byLane (keys (filterMap c.threads fun _ t => t.run == .group g))

/-- The thread of a key, or `none`. -/
def Cohort.thread? (c : Cohort) (k : Nat) : Option Thread := find? c.threads k

/-- The crew of a thread. -/
def Cohort.crewOf (c : Cohort) (k : Nat) : Crew := findD c.crews (k / 32) ⟨0, 0, [], []⟩

/-- Groups without a thread are gone (R239). -/
def Cohort.tidy (c : Cohort) : Cohort :=
  { c with groups := filterMap c.groups fun g _ => c.threads.any fun p => p.2.run == .group g }

/-- Bins without a thread are closed (R240). -/
def State.tidyBins (s : State) (co : Nat) : State :=
  match find? s.cohorts co with
  | none => s
  | some c =>
    s.modCluster c.ci fun cl =>
      { cl with bins := filterMap cl.bins fun b x => x.cohort != co || c.threads.any fun p => p.2.run == .binned b }

/-- Threads of a cohort at one address become one issue group, the last in the order of R241. -/
def State.groupUp (s : State) (co : Nat) (ks : List Nat) : State :=
  match ks, find? s.cohorts co with
  | [], _ => s
  | _, none => s
  | k :: _, some c =>
    let g := c.fresh
    let c := { c with
      fresh := g + 1
      threads := mapVals c.threads fun k t => if ks.contains k then { t with run := .group g } else t
      groups := insert c.groups g ⟨(c.crewOf k).sp, s.fresh, false, false, none⟩ }
    { s.setCohort co c.tidy with fresh := s.fresh + 1 }

/-- Threads of a cohort that go on together: one issue group for each address (R239). -/
def State.regroup (s : State) (co : Nat) (ks : List Nat) : State :=
  match find? s.cohorts co with
  | none => s
  | some c =>
    let pcOf (k : Nat) : Option DWord := (c.thread? k).map Thread.pc
    ((ks.map pcOf).eraseDups).foldl (fun s a => s.groupUp co (ks.filter fun k => pcOf k == a)) s

/-- The group that a thread issues in or waited out of. -/
def Run.origin : Run → Nat
  | .group g | .barWait g _ _ _ | .barArrive g _ | .convWait g _ | .faulted g _ | .parked g _ | .atNext g | .stopped g => g
  | _ => 0

/-- Waiting threads released together: those that waited out of one group form one group (R239). -/
def State.release (s : State) (co : Nat) (ks : List Nat) : State :=
  match find? s.cohorts co with
  | none => s
  | some c =>
    let org (k : Nat) : Nat := ((c.thread? k).map fun t => t.run.origin).getD 0
    let gs := (ks.map org).eraseDups
    gs.foldl (fun s g => s.regroup co (byLane (ks.filter fun k => org k == g))) s

/-- Loop entries after the instruction at `e` completed without a taken transfer, and where the thread
goes on (R98). -/
def backEdge (e next : DWord) : List LoopEntry → DWord × List LoopEntry
  | [] => (next, [])
  | top :: rest =>
    if top.stop = e then
      if 1 < top.count.toNat then (top.start, { top with count := top.count - 1 } :: rest)
      else backEdge e next rest
    else (next, top :: rest)

/-- Loop entries left after a taken transfer to `t` (R99). -/
def unwind (t : DWord) (ls : List LoopEntry) : List LoopEntry :=
  ls.dropWhile fun l => !(l.start.toNat ≤ t.toNat && t.toNat ≤ l.stop.toNat)

/-- A thread whose instruction at PC completed without a taken transfer and goes on at `next`, or at the
start of a loop body, whose first word is then checked (R24). -/
def Thread.resume (next : DWord) (t : Thread) : Thread :=
  let r := backEdge t.pc next t.loops
  { t with pc := r.1, loops := r.2, latched := [], land := r.1 != next }

/-- A thread whose instruction at PC, of `len` bytes, completed without a taken transfer. -/
def Thread.advance (len : Nat) (t : Thread) : Thread := t.resume (t.pc + BitVec.ofNat 64 len)

/-- A thread that goes on after the `join` it waited at: its word is checked under R24. -/
def Thread.joined (next : DWord) (t : Thread) : Thread := { t.resume next with land := true }

/-- A thread that takes a transfer to `a` (R99). -/
def Thread.goto (a : DWord) (t : Thread) : Thread :=
  { t with pc := a, loops := unwind a t.loops, latched := [] }

/-- The ewe value of a register for a thread's template level (R234). -/
def Cohort.eweVal (c : Cohort) (level reg : Nat) : Word :=
  findD (nth c.ewes (level - 1) Ewe.empty).v reg 0

/-- A word whose bits are the members of a list that lie in a range of 32. -/
def bitsIn (l : List Nat) (base : Nat) : Nat :=
  (List.range 32).foldl (fun n b => if l.contains (base + b) then n + 2 ^ b else n) 0

/-- The ewe word of a register at a template level is poisoned (R356). -/
def Cohort.eweSick (c : Cohort) (level reg : Nat) : Bool := (nth c.ewes (level - 1) Ewe.empty).sick.contains reg

/-- The physical register a crew's register is mapped to (R191). -/
def Cohort.phys? (c : Cohort) (crew reg : Nat) : Option PhysReg :=
  (find? c.crews crew).bind fun w => find? w.regs reg

/-- A lane word of a register. -/
def PhysReg.word (r : PhysReg) (lane : Nat) : Word := r.vals[lane % 32]'(Nat.mod_lt _ (by decide))

/-- A register with a lane word written, which clears its poison (R357). -/
def PhysReg.put (r : PhysReg) (lane : Nat) (v : Word) : PhysReg :=
  { r with
    vals := r.vals.set (lane % 32) v (Nat.mod_lt _ (by decide))
    poison := r.poison &&& ~~~(1#32 <<< (lane % 32)) }

/-- A vector register as a thread reads it (R191, R234), and whether the lane word is poisoned. -/
def Cohort.vreg (c : Cohort) (k reg : Nat) : Word × Bool :=
  match c.phys? (k / 32) reg with
  | some r => (r.word k, r.poison.getLsbD (k % 32))
  | none =>
    let level := ((c.thread? k).map Thread.level).getD 1
    (c.eweVal level reg, c.eweSick level reg)

/-- All 32 lanes of a crew's register. -/
def Cohort.vregLanes (c : Cohort) (crew level reg : Nat) : Lanes :=
  match c.phys? crew reg with
  | some r => r.vals.toList
  | none => List.replicate 32 (c.eweVal level reg)

/-- Physical registers of a bank in use on a sub-partition of a cluster (R235). -/
def State.bankUsed (s : State) (ci sp bank : Nat) : Nat :=
  s.cohorts.foldl (fun n p =>
    if p.2.ci = ci ∧ p.2.phase ≠ .saved then
      p.2.crews.foldl (fun n w =>
        if w.2.sp = sp then
          n + (w.2.regs.filter fun r => r.2.bank == bank).length + (w.2.divBanks.filter (· == bank)).length
        else n) n
    else n) 0

/-- Free physical registers of a bank: 512 less those in use (R218). -/
def State.bankFree (s : State) (ci sp bank : Nat) : Nat := 512 - s.bankUsed ci sp bank

/-- Free physical registers of a sub-partition (R237). -/
def State.poolFree (s : State) (ci sp : Nat) : Nat :=
  s.bankFree ci sp 0 + s.bankFree ci sp 1 + s.bankFree ci sp 2 + s.bankFree ci sp 3

/-- The bank an allocation of register `reg` takes (R218): `reg mod 4`, else a free other one of the
device's choice. -/
def State.pickBank (s : State) (ci sp reg : Nat) : Option Nat × State :=
  if 0 < s.bankFree ci sp (reg % 4) then (some (reg % 4), s)
  else
    let others := (List.range 4).filter fun b => decide (0 < s.bankFree ci sp b)
    match others with
    | [] => (none, s)
    | b :: _ =>
      let r := s.choose others.length
      (some (nth others r.1 b), r.2.bump .cluBankSpill ci 1)

/-- The lane words of a register that a crew is given (R191, R234): each lane takes its ewe value, at the level of its
thread, or at `level` where the lane has none. -/
def Cohort.eweLanes (c : Cohort) (crew level reg : Nat) : Vector Word 32 :=
  ⟨((List.range 32).map fun l => c.eweVal (((c.thread? (32 * crew + l)).map Thread.level).getD level) reg).toArray, by simp⟩

/-- The lane words of a register that a crew is given whose ewe words are poisoned (R357). -/
def Cohort.eweSickLanes (c : Cohort) (crew level reg : Nat) : BitVec 32 :=
  BitVec.ofNat 32 (bitsIn ((List.range 32).filter fun l =>
    c.eweSick (((c.thread? (32 * crew + l)).map Thread.level).getD level) reg) 0)

/-- A crew with a register mapped. -/
def Cohort.mapReg (c : Cohort) (crew reg : Nat) (r : PhysReg) : Cohort :=
  let w := c.crewOf (32 * crew)
  { c with crews := insert c.crews crew { w with regs := insert w.regs reg r } }

/-- Allocates a crew's register (R191) unless it is mapped already: all 32 lanes take the ewe value.
`none` where the pool has no register. -/
def State.allocReg (s : State) (co crew level reg : Nat) : Option State :=
  match find? s.cohorts co with
  | none => none
  | some c =>
    match c.phys? crew reg with
    | some _ => some s
    | none =>
      let sp := (c.crewOf (32 * crew)).sp
      match s.pickBank c.ci sp reg with
      | (none, _) => none
      | (some b, s) =>
        some ((s.setCohort co (c.mapReg crew reg ⟨b, c.eweLanes crew level reg, c.eweSickLanes crew level reg⟩)).bump .cluCopyAlloc c.ci 1)

/-- Allocates several registers of a crew, all or none. -/
def State.allocRegs (s : State) (co crew level : Nat) : List Nat → Option State
  | [] => some s
  | r :: rs => (s.allocReg co crew level r).bind fun s => s.allocRegs co crew level rs

/-- A lane word of a mapped register written. -/
def Cohort.putLane (c : Cohort) (k reg : Nat) (v : Word) : Cohort :=
  { c with crews := modify c.crews (k / 32) fun w => { w with regs := modify w.regs reg fun r => r.put k v } }

/-- Writes one lane word of an allocated register. -/
def State.setLane (s : State) (co k reg : Nat) (v : Word) : State := s.modCohort co fun c => c.putLane k reg v

/-- The parkings under COPY_FAULT of a cluster's threads whose pool has a free register, each with its cohort, by their
place in the order of parking. -/
def State.parkings (s : State) (ci : Nat) : FMap Nat :=
  s.cohorts.foldl (fun m p =>
    if p.2.ci = ci then
      p.2.threads.foldl (fun m t => match t.2.run with
        | .parked _ order => if 0 < s.poolFree ci (p.2.crewOf t.1).sp then insert m order p.1 else m
        | _ => m) m
    else m) []

/-- Threads parked under COPY_FAULT on a cluster wake, oldest first, when registers have returned to their pool (R192):
the threads of one crew parked at one instruction reissue as one group (R236). -/
def State.wakeParked (s : State) (ci : Nat) : State :=
  (s.parkings ci).foldl (fun s p =>
    match find? s.cohorts p.2 with
    | none => s
    | some c => s.release p.2 (keys (filterMap c.threads fun _ t => match t.run with
      | .parked _ order => order == p.1
      | _ => false))) s

/-- Returns a crew's registers to the pool (R191). -/
def State.freeCrew (s : State) (co crew : Nat) : State :=
  match find? s.cohorts co with
  | none => s
  | some c => (s.modCohort co fun c => { c with crews := erase c.crews crew }).wakeParked c.ci

/-- Several departures of members that have not arrived, one after another: each may flip the barrier (R198). -/
def Barrier.departs (flip : Barrier → Barrier) : Nat → Barrier → Barrier
  | 0, b => b
  | n + 1, b => if b.inert then b else departs flip n (flip { b with count := b.count - 1 })

/-- A barrier that nothing has initialised (R196). -/
def Barrier.inertOne : Barrier := ⟨true, 0, 0, false, false, 0, [], 0⟩

/-- A convergence register that nothing has initialised (R195). -/
def Conv.inertOne : Conv := ⟨true, 0, [], 0, 0, [], none, ⟨false, false, false, 0⟩, none⟩

/-- A cohort's barrier. -/
def Cohort.bar (c : Cohort) (k : Nat) : Barrier := findD c.bars k Barrier.inertOne

/-- A cohort's convergence register. -/
def Cohort.conv (c : Cohort) (k : Nat) : Conv := findD c.convs k Conv.inertOne

/-- The flips of one step (R196, R198) and how many there were: each toggles PHASE, takes COUNT from
ARRIVED and clears the marks; the first applies the held decrements. A departure that leaves COUNT at 0 makes
the barrier inert without a flip, as the last step of that chapter's worked example shows. -/
def Barrier.flip (b : Barrier) : Barrier × Nat :=
  if b.inert ∨ b.arrived < b.count then (b, 0)
  else if b.count = 0 then ({ b with inert := true, held := 0, marks := [] }, 0)
  else
    let a := b.arrived - b.count
    let n := b.count - b.held
    if n = 0 then
      ({ b with inert := true, arrived := a, count := 0, held := 0, marks := [], phase := !b.phase }, 1)
    else
      let ph := if a / n % 2 = 0 then !b.phase else b.phase
      ({ b with arrived := a % n, count := n, held := 0, marks := [], phase := ph }, 1 + a / n)

/-- A crew is named in a mask. -/
def inMask (m : BitVec 32) (crew : Nat) : Bool := m.getLsbD crew

/-- Arrivals still owed to barrier `k` (R198): accepted commands, `bload` bytes, and landing slots with a
message on its way. -/
def State.owed (s : State) (co k : Nat) : Nat :=
  let cmds := (s.cmds.filter fun p =>
    p.2.cohort == co && (nth p.2.words 0 0).getLsbD 16 && bits (nth p.2.words 0 0).toNat 12 4 == k).length
  let bl := s.bloads.foldl (fun n p =>
    if p.2.cohort = co ∧ p.2.barr = k then n + 128 * p.2.left.length else n) 0
  let land := match find? s.cohorts co with
    | none => 0
    | some c =>
      (s.cluster c.ci).landing.foldl (fun n p =>
        if p.2.cohort = co ∧ p.2.ba ∧ p.2.barr = k then
          n + min (p.2.slots - p.2.filled)
            (s.mcasts.filter fun m => m.2.port == p.1 && m.2.left.contains c.ci).length
        else n) 0
  cmds + bl + land

/-- Live members of a barrier that have not arrived in the current phase (R198). -/
def Cohort.missing (c : Cohort) (b : Barrier) : Nat :=
  (c.threads.filter fun p => inMask b.members (p.1 / 32) && !b.marks.contains p.1).length

/-- Threads blocked in `barr.wait` on barrier `k`. -/
def Cohort.waiters (c : Cohort) (k : Nat) : List Nat :=
  keys (filterMap c.threads fun _ t => match t.run with | .barWait _ j _ _ => j == k | _ => false)

/-- The test for BROKEN (R198), made from `freeze` on (R233): every blocked waiter takes
BARRIER_UNREACHABLE. -/
def State.testBroken (s : State) (co k : Nat) : State :=
  match find? s.cohorts co with
  | none => s
  | some c =>
    let b := c.bar k
    if b.inert ∨ b.broken ∨ c.phase = .prologue ∨ b.count ≤ b.arrived + c.missing b + s.owed co k then s
    else
      let ks := c.waiters k
      let s := s.modCohort co fun c => { c with bars := insert c.bars k { b with broken := true } }
      let s := s.release co ks
      s.modThreads co ks fun _ t => { t with due := some Trap.barrierUnreachable.code }

/-- The test for BROKEN of every barrier of a cohort, where arrivals that were owed may have gone (R198, R248). -/
def State.testBars (s : State) (co : Nat) : State := (List.range 16).foldl (fun s k => s.testBroken co k) s

/-- Stores a barrier after arrivals or departures: it flips as often as R196 says, which lets every
blocked waiter pass and every member that waits to arrive again issue again; then the test for BROKEN. -/
def State.settleBar (s : State) (co k : Nat) (b : Barrier) : State :=
  let r := b.flip
  let s := s.modCohort co fun c => { c with bars := insert c.bars k r.1 }
  let s :=
    if r.2 = 0 then s else
    match find? s.cohorts co with
    | none => s
    | some c =>
      let ks := c.waiters k
      let again := keys (filterMap c.threads fun _ t => match t.run with | .barArrive _ j => j == k | _ => false)
      let s := s.modThreads co ks fun _ t =>
        match t.run with
        | .barWait _ _ _ next => t.resume next
        | _ => t
      s.release co (ks ++ again)
  s.testBroken co k

/-- `n` arrivals that no thread makes (R196); `none` where the barrier is inert. -/
def State.arriveBar (s : State) (co k n : Nat) : Option State :=
  match find? s.cohorts co with
  | none => none
  | some c =>
    let b := c.bar k
    if b.inert then none else some (s.settleBar co k { b with arrived := b.arrived + n })

/-- A member departs from every barrier that lists it (R198). -/
def State.departBars (s : State) (co key : Nat) : State :=
  (List.range 16).foldl (fun s k =>
    match find? s.cohorts co with
    | none => s
    | some c =>
      let b := c.bar k
      if b.inert ∨ !inMask b.members (key / 32) then s
      else if b.marks.contains key then s.settleBar co k { b with held := b.held + 1, marks := b.marks.filter (· != key) }
      else s.settleBar co k { b with count := b.count - 1 }) s

/-- The 32-lane scale registers of an operation (R57, R174): from the first to the highest one read. -/
def Cohort.scales (c : Cohort) (crew level base bsel k : Nat) : List Lanes :=
  (List.range ((bsel + k / 32 - 1) / 4 + 1)).map fun i => c.vregLanes crew level (base + i)

/-- A tapered descriptor's scale registers lie below a role's ceiling (R174). -/
def MDesc.scalesOk (d : MDesc) (window : Nat) : Bool :=
  !(d.efmt == 5 || d.efmt == 6) ||
    (d.sca + (d.bsela + d.k / 32 - 1) / 4 < 32 * window && d.scb + (d.bselb + d.k / 32 - 1) / 4 < 32 * window)

/-- A register of a crew that some lane still awaits a result for (R22). -/
def Cohort.crewEmpty (c : Cohort) (crew reg : Nat) : Bool :=
  c.pends.any fun p =>
    match p.2.dest with
    | .vreg r pair => (r == reg || (pair && r + 1 == reg)) && p.2.lanes.any fun l => l.1 / 32 == crew
    | _ => false

/-- Queues a matrix operation on a sub-partition's unit (R176, R177) with the scales of thread `k`'s home
crew, for the threads `ks` that signed; an operation whose scale registers fail the ceiling there ends at once with
nothing added (R174). -/
def State.queueOp (s : State) (co k : Nat) (ks : List Nat) (md cv : Nat) (d : MDesc) (fl : MFlags) : State :=
  match find? s.cohorts co with
  | none => s
  | some c =>
    let crew := k / 32
    let w := c.crewOf k
    let tap := d.efmt == 5 || d.efmt == 6
    let level := ((c.thread? k).map Thread.level).getD c.depth
    let ok := d.scalesOk (nth c.hdr.window w.role 0)
    let id := s.newId
    let op : MatOp := {
      cohort := co, ctx := c.ctx, world := c.world, md := md, cv := cv, desc := d, flags := fl
      scA := if tap && ok then c.scales crew level d.sca d.bsela d.k else []
      scB := if tap && ok then c.scales crew level d.scb d.bselb d.k else []
      krow := 0, rowsA := [], rowsB := [], acc := [], lines := [], parked := none, started := false
      result := if ok then none else some (Status.partialDone.code, Trap.reservedField.code, 0)
      serial := id.1, stale := s.staleOf co ks fl.acq }
    let s := id.2.modCluster c.ci fun cl => { cl with mxu := cl.mxu.modify w.sp (· ++ [op]) }
    s.bump .cluMmaIssue c.ci 1

/-- The registers that hold a descriptor's scales are full in a crew (R176). -/
def Cohort.scalesFull (c : Cohort) (crew : Nat) (d : MDesc) : Bool :=
  !(d.efmt == 5 || d.efmt == 6) ||
    ((List.range ((d.bsela + d.k / 32 - 1) / 4 + 1)).all fun i => !c.crewEmpty crew (d.sca + i))
    && ((List.range ((d.bselb + d.k / 32 - 1) / 4 + 1)).all fun i => !c.crewEmpty crew (d.scb + i))

/-- The unit of thread `k` has a place for the operation of the round of `v` (R176). -/
def State.unitCan (s : State) (co k : Nat) (v : Conv) : Bool :=
  match find? s.cohorts co, v.md with
  | some c, some _ => (nth (s.cluster c.ci).mxu (c.crewOf k).sp []).length < 4
  | _, _ => true

/-- The unit of thread `k` has room, and the scales are full, for the round of `v` to complete. -/
def State.roundCan (s : State) (co k : Nat) (v : Conv) : Bool :=
  s.unitCan co k v &&
    match find? s.cohorts co, v.md with
    | some c, some (_, d) => c.scalesFull (k / 32) d
    | _, _ => true

/-- A convergence register after its round: EXPECT is kept (R176; log entry 36 for a signer that has ended). -/
def Conv.afterRound (v : Conv) : Conv :=
  { v with signed := 0, md := none, marks := [], flags := ⟨false, false, false, 0⟩, last := none }

/-- CompleteRound (R176) where SIGNED equals EXPECT and the unit can take the operation. -/
def State.completeRound (s : State) (co cv : Nat) : State :=
  match find? s.cohorts co with
  | none => s
  | some c =>
    let v := c.conv cv
    if v.inert ∨ v.signed = 0 ∨ v.signed < v.expect then s else
    let k := v.last.getD 0
    if !s.roundCan co k v then s else
    let s := match v.md with
      | some (md, d) => s.queueOp co k v.marks md cv d v.flags
      | none => s.bump .cluMmaDrop c.ci 1
    let s := s.modCohort co fun c => { c with convs := insert c.convs cv v.afterRound }
    s.release co (keys (filterMap c.threads fun _ t => match t.run with | .convWait _ j => j == cv | _ => false))

/-- Rounds that waited for room or for their scales complete (R176). -/
def State.completeRounds (s : State) (co : Nat) : State :=
  (List.range 8).foldl (fun s cv => s.completeRound co cv) s

/-- A member that leaves before signing leaves every convergence register that lists it (R176). -/
def State.departConvs (s : State) (co key : Nat) : State :=
  (List.range 8).foldl (fun s cv =>
    match find? s.cohorts co with
    | none => s
    | some c =>
      let v := c.conv cv
      if v.inert ∨ !v.members.contains key ∨ v.marks.contains key then s
      else
        let e := v.expect - 1
        let v' := { v with expect := e, members := v.members.filter (· != key), inert := e == 0 && v.signed == 0 }
        let s := s.modCohort co fun c => { c with convs := insert c.convs cv v' }
        if e = 0 ∧ v.signed = 0 then s.bump .cluMmaDrop c.ci 1 else s.completeRound co cv) s

/-- Releases the waiters of a divergence entry once every thread of its mask has arrived or left (R93). -/
def State.releaseJoin (s : State) (co id : Nat) : State :=
  match find? s.cohorts co with
  | none => s
  | some c =>
    match find? c.divs id with
    | none => s
    | some e =>
      let waits (k : Nat) : Bool := match c.thread? k with
        | some t => (match t.run with | .join _ => t.divs.head? == some id | _ => false)
        | none => false
      if !e.members.all waits then s
      else
        let s := s.modCohort co fun c => { c with divs := erase c.divs id }
        let s := s.modThreads co e.members fun _ t =>
          match t.run with
          | .join next => { t.joined next with divs := t.divs.tail }
          | _ => t
        s.regroup co (byLane e.members)

/-- The thread leaves the masks of its divergence entries (R242). -/
def State.leaveMasks (s : State) (co key : Nat) (ids : List Nat) : State :=
  ids.foldl (fun s id =>
    (s.modCohort co fun c =>
      { c with divs := modify c.divs id fun e => { e with members := e.members.filter (· != key) } }).releaseJoin co id) s

/-- The next lane of a serial run starts, or its threads go on together once none is left (R94). -/
def State.serialNext (s : State) (co run : Nat) : State :=
  match find? s.cohorts co with
  | none => s
  | some c =>
    match find? c.serials run with
    | none => s
    | some r =>
      match r.waiting with
      | k :: rest =>
        let s := s.modCohort co fun c => { c with serials := insert c.serials run { r with waiting := rest } }
        s.regroup co [k]
      | [] =>
        let done := r.members.filter fun k => match (c.thread? k).map Thread.run with
          | some (.serialDone j _) => j == run
          | _ => false
        let s := s.modCohort co fun c => { c with serials := erase c.serials run }
        let s := s.modThreads co done fun _ t =>
          match t.run with
          | .serialDone _ next => t.joined next
          | _ => t
        s.regroup co (byLane done)

/-- The serial run whose running thread a thread is (R94): started, and not yet arrived; of runs that nest, through a
trap handler's own `brd`, the inmost. -/
def Cohort.serialOf (c : Cohort) (key : Nat) : Option Nat :=
  let arrived : Bool := match (c.thread? key).map Thread.run with
    | some (.serialDone ..) => true
    | _ => false
  if arrived then none
  else (c.serials.reverse.find? fun r => r.2.members.contains key && !r.2.waiting.contains key).map Prod.fst

/-- A thread leaves the serial run that holds it; where it was the running one, the next lane starts. -/
def State.leaveSerial (s : State) (co key : Nat) : State :=
  match find? s.cohorts co with
  | none => s
  | some c =>
    let running := c.serialOf key
    let s := s.modCohort co fun c =>
      { c with serials := mapVals c.serials fun _ r =>
          { waiting := r.waiting.filter (· != key), members := r.members.filter (· != key) } }
    match running with
    | some run => s.serialNext co run
    | none => s

/-- A value as a scalar register takes it (R28). -/
def scalarExt (wide : Bool) (ety : Ety) (v : Nat) : DWord :=
  BitVec.ofNat 64 (if wide then v else if ety.isS then wrapNat 64 (toSigned 32 v) else v % 2 ^ 32)

/-- Writes the registers of a delayed result (R27, R28). -/
def State.putResult (s : State) (co : Nat) (p : Pend) : State :=
  match p.dest with
  | .vreg r wide => p.lanes.foldl (fun s l =>
      let s := s.setLane co l.1 r (BitVec.ofNat 32 l.2)
      if wide then s.setLane co l.1 (r + 1) (BitVec.ofNat 32 (l.2 / 2 ^ 32)) else s) s
  | .sreg n ety =>
    match p.lanes with
    | [] => s
    | l :: _ => s.modCohort co fun c => { c with s := insert c.s n (scalarExt ety.isPair ety l.2) }
  | .drop => s

/-- The 32 lanes of half `h` of a delayed queue entry. -/
def Pend.half (p : Pend) (h : Nat) : Lanes :=
  (List.range 32).map fun i =>
    match p.lanes.find? fun l => l.1 % 32 == i with
    | some l => BitVec.ofNat 32 (l.2 / 2 ^ (32 * h))
    | none => 0

/-- Fills the queue entries that a delayed result reserved (R146). -/
def State.putEntries (s : State) (co : Nat) (p : Pend) : State :=
  match p.kind with
  | .ldq role q serial es =>
    s.modCohort co fun c => { c with queues := modify c.queues (8 * role + q) fun b =>
      if b.serial = serial then
        { b with entries := b.entries.map fun e =>
            if e.1 = nth es 0 0 then (e.1, some (p.half 0))
            else if es.length = 2 ∧ e.1 = nth es 1 0 then (e.1, some (p.half 1)) else e }
      else b }
  | _ => s

/-- A delayed result is written whole: registers and queue entries, and it is no longer outstanding (R78, R107,
R144, R146). -/
def State.landPend (s : State) (co id : Nat) : State :=
  match (find? s.cohorts co).bind fun c => find? c.pends id with
  | none => s
  | some p => ((s.putResult co p).putEntries co p).modCohort co fun c => { c with pends := erase c.pends id }

/-- A delayed result is written, and a round that waited for it as a scale register completes (R176). -/
def State.applyPend (s : State) (co id : Nat) : State := (s.landPend co id).completeRounds co

/-- The results of some kinds that a thread is still owed are written. -/
def State.drainKinds (s : State) (co k : Nat) (f : PKind → Bool) : State :=
  match find? s.cohorts co with
  | none => s
  | some c =>
    (keys (filterMap c.pends fun _ p => f p.kind && p.lanes.any fun l => l.1 == k)).foldl (fun s id => s.applyPend co id) s

/-- A result of a division or a multi-cycle instruction (R78, R107). -/
def PKind.long : PKind → Bool
  | .div | .multi _ => true
  | _ => false

/-- A result of a load. -/
def PKind.loaded : PKind → Bool
  | .load | .ldq .. => true
  | _ => false

/-- The results a thread's loads, divisions and multi-cycle instructions still owe are written before a
frame is saved or the index changes (R107, R144). -/
def State.drainPends (s : State) (co k : Nat) : State := s.drainKinds co k fun x => x.long || x.loaded

/-- Delayed results of a thread are dropped (R102). DESIGN CHOICE (log entry 67): an `ldq` entry that waits for it takes zero
for its lane. -/
def Cohort.dropPends (c : Cohort) (key : Nat) : Cohort :=
  { c with pends := (mapVals c.pends fun _ p => { p with lanes := p.lanes.filter fun l => l.1 != key }) }

/-- The divergence entries whose masks name a thread: those of its stack and those its frames save (R207). -/
def Thread.masks (t : Thread) : List Nat := t.divs ++ t.frames.flatMap fun f => f.divs.map Prod.fst

/-- A thread leaves (R242): its long results are written (R107), and it leaves masks, bins, groups, barriers,
convergence registers, and its crew's registers where it was the last of the crew; with no thread left the cohort is
ending (R231). -/
def State.leave (s : State) (co key : Nat) : State :=
  match s.thread? co key with
  | none => s
  | some t =>
    let s := s.drainKinds co key PKind.long
    let s := s.leaveSerial co key
    let s := s.modCohort co fun c => ({ c with threads := erase c.threads key }).dropPends key
    let s := s.leaveMasks co key t.masks
    let s := ((s.modCohort co Cohort.tidy).tidyBins co).dropStale co [key]
    let s := s.departBars co key
    let s := s.departConvs co key
    match find? s.cohorts co with
    | none => s
    | some c =>
      let s := if c.threads.any fun p => p.1 / 32 == key / 32 then s else s.freeCrew co (key / 32)
      if c.threads.isEmpty ∧ c.phase ≠ .saved then s.modCohort co fun c => { c with phase := .ending } else s

/-- Several threads leave. -/
def State.leaveAll (s : State) (co : Nat) (ks : List Nat) : State := ks.foldl (fun s k => s.leave co k) s

end Sys2Proof.Machine
end

