-- ==== Sys2Proof/Machine/Context.lean ====
section
/-!
DEFINITION. The end of a context (R278) and a TDI that goes to ERROR (R304).
-/

namespace Sys2Proof.Machine

/-- A context as the device has cached it (R277). -/
def State.ctx? (s : State) (n : Nat) : Option Ctx := find? s.xlt.ctxs n

/-- The 64 bytes of a context descriptor, where they are valid (R277). -/
def ctxOf (bs : List Byte) : Option Ctx :=
  let r (o n : Nat) : Nat := ofBytes ((bs.drop o).take n)
  let flags := r 0x09 1
  if bit flags 0 ∧ flags < 8 ∧ r 0 8 % 2 ^ 12 = 0 ∧ r 0x08 1 < 16 ∧ r 0x0C 4 = 0 ∧ r 0x18 40 = 0 then
    some {
      root := r 0 8, world := r 0x08 1, priv := bit flags 1, replay := bit flags 2
      devq := r 0x0A 1, trapvec := BitVec.ofNat 64 (r 0x10 8), energy := 0, live := true }
  else none

/-- The state with a cached context changed. -/
def State.modCtx (s : State) (n : Nat) (f : Ctx → Ctx) : State :=
  { s with xlt := { s.xlt with ctxs := modify s.xlt.ctxs n f } }

/-- Fields of a routing entry (R268). -/
def nrtTid (e : BitVec 128) : Nat := bits e.toNat 112 16
def nrtValid (e : BitVec 128) : Bool := bit e.toNat 111
def nrtHome (e : BitVec 128) : Nat := bits e.toNat 109 2
def nrtStage (e : BitVec 128) : Nat := bits e.toNat 106 3
def nrtWorld (e : BitVec 128) : Nat := bits e.toNat 102 4
def nrtBytes (e : BitVec 128) : Nat := 4096 * 2 ^ bits e.toNat 99 3
def nrtLife (e : BitVec 128) : Nat := bits e.toNat 64 32
def nrtClosed (e : BitVec 128) : Nat := bits e.toNat 48 16
def nrtCv (e : BitVec 128) : Bool := bit e.toNat 47
def nrtQuota (e : BitVec 128) : Nat := 4096 * bits e.toNat 32 8

/-- The staging copy of a register takes the register's value again (R301): what was written to it is gone. -/
def State.restage (s : State) (p : Reg128 → Bool) : State :=
  { s with staging := s.staging.filter fun x => !p x.1 }

/-- The device changes or removes a routing entry (R268, R301). -/
def State.setEnt (s : State) (i : Nat) (e : Option (BitVec 128)) : State :=
  { s.restage (· == .nrtEnt i) with names := { s.names with ents := match e with
      | some v => insert s.names.ents i v
      | none => erase s.names.ents i } }

/-- Tensor id and iteration of a name (R183). -/
def nameTid (n : DWord) : Nat := bits n.toNat 48 16
def nameIter (n : DWord) : Nat := bits n.toNat 32 16

/-- The valid routing entry of a tensor id: its index and value (R268). -/
def State.nrt? (s : State) (tid : Nat) : Option (Nat × BitVec 128) :=
  s.names.ents.find? fun p => nrtValid p.2 && nrtTid p.2 == tid

/-- An iteration is closed (R185). -/
def nrtShut (e : BitVec 128) (iter : Nat) : Bool := nrtCv e && decide (iter ≤ nrtClosed e)

/-- The group of a cluster (R262), by `16 * die + g`. -/
def groupOf (ci : Nat) : Nat := 16 * dieOf ci + ci % 144 / 9

/-- Stored tiles of closed iterations that no request waits for are released (R184), and those whose tensor
has no routing entry. -/
def State.sweepTiles (s : State) : State :=
  let keep (t : Tile) : Bool :=
    match s.nrt? (nameTid t.name) with
    | none => false
    | some (_, e) =>
      !nrtShut e (nameIter t.name) || (s.names.wants.any fun w => w.2.name == t.name)
        || s.names.returns.any fun r => r.2.name == t.name
  { s with names := { s.names with tiles := s.names.tiles.filter keep } }

/-- A request that waited for its home slice's table is gone: another of its group that merged into it waits
there in its place. -/
def promoteWant (wants : FMap Want) (gone : Want) : FMap Want :=
  match wants.find? (fun p => p.2.name == gone.name && groupOf p.2.ci == groupOf gone.ci && p.2.state == .recorded) with
  | some p => modify wants p.1 fun w => { w with state := .waiting true false }
  | none => wants

/-- Requests that a test holds for are withdrawn (R183, R272): the cluster's bit goes from every merge entry that none of
its requests is left for, and the interests at the home slices stay. With the last request of an interest that had not
reached its home slice, the entry it opened goes too. -/
def State.withdraw (s : State) (co : Nat) (p : Want → Bool) : State :=
  let gone := filterMap s.names.wants fun _ w => w.cohort == co && p w
  let wants := filterMap s.names.wants fun _ w => !(w.cohort == co && p w)
  let wants := gone.foldl (fun l g => if g.2.state.leads then promoteWant l g.2 else l) wants
  let lost (m : Merge) : Bool :=
    (gone.any fun g => g.2.state.leads && g.2.name == m.name && groupOf g.2.ci == m.group)
      && !(wants.any fun w => w.2.state.leads && w.2.name == m.name && groupOf w.2.ci == m.group)
  let lone (ci : Nat) (name : DWord) : Bool :=
    (gone.any fun g => g.2.ci == ci && g.2.name == name) && !(wants.any fun w => w.2.ci == ci && w.2.name == name)
  State.sweepTiles { s with names := { s.names with
      wants := wants
      merges := (s.names.merges.filter fun m => !lost m).map fun m =>
        { m with clusters := m.clusters.filter fun ci => !lone ci m.name } } }

/-- A binding's port is freed (R156): messages at a receive port are dropped and counted in CLU_STRAY. -/
def State.freePort (s : State) (ci : Nat) (receive : Bool) (p : Port) : Port × State :=
  (Port.reset, if receive then s.bump .cluStray ci p.items.length else s)

/-- The queues of its cluster that a cohort's bindings own are freed, and its landing registrations end (R156,
R186). -/
def State.freePorts (s : State) (co : Nat) : State :=
  match find? s.cohorts co with
  | none => s
  | some c =>
    let own (p : Port) : Bool := match p.owner with
      | some o => o.cohort == co
      | none => false
    let cl := s.cluster c.ci
    let stray := ((cl.ports.filter own).map fun p => p.items.length).foldl (· + ·) 0
    let wipe (p : Port) : Port := if own p then Port.reset else p
    let s := s.setCluster c.ci { cl with
      events := wipe cl.events
      outs := cl.outs.map wipe
      ports := cl.ports.map wipe
      landing := filterMap cl.landing fun _ l => l.cohort != co }
    s.bump .cluStray c.ci stray

/-- The bindings and landing registrations of a cohort end (R186, R232, R278). -/
def State.endBindings (s : State) (co : Nat) : State :=
  (s.freePorts co).modCohort co fun c => { c with queues := [], streams := [] }

/-- A context ends (R278): with it its key slots (R311) and the faults of its that were not posted yet. -/
def State.endContext (s : State) (n code : Nat) : State :=
  match s.ctx? n with
  | none => s
  | some x =>
    if !x.live then s else
    let at_ := s.xlt.ctxBase.toNat + 64 * n
    let s := s.hubWrite (at_ + 0x0B) (toBytes code 1)
    let s := s.hubWrite (at_ + 0x09) (toBytes (x.priv.toNat * 2 + x.replay.toNat * 4) 1)
    let s := s.modCtx n fun x => { x with live := false }
    let s := s.bbx 9 0xFF (unitCode 0 7 1) x.world n (evData (toBytes code 1))
    let cos := keys (filterMap s.cohorts fun _ c => c.ctx == n)
    -- 1: threads
    let s := cos.foldl (fun s co =>
      match find? s.cohorts co with
      | none => s
      | some c =>
        if c.phase = .saved then { s with cohorts := erase s.cohorts co }
        else
          let s := s.leaveAll co (keys c.threads)
          s.modCohort co fun c => { c with phase := .ending, yielding := none, pends := [] }) s
    -- 2: commands and operations
    let s := { s with
      cmds := filterMap s.cmds fun _ c => c.ctx != n
      clusters := mapVals s.clusters fun _ cl =>
        { cl with mxu := cl.mxu.map fun (q : List MatOp) => q.filter fun o => o.ctx != n } }
    -- 3: shadows, interests, routing entries
    let s := { s with shadows := filterMap s.shadows fun _ sh => sh.ctx != n }
    let s := cos.foldl (fun s co => s.withdraw co fun _ => true) s
    let mine := keys (filterMap s.names.owners fun _ c => c == n)
    let s := mine.foldl (fun s i => s.setEnt i none) s
    let s := { s with names := { s.names with owners := filterMap s.names.owners fun _ c => c != n } }
    let s := { s with sec := { s.sec with slots := filterMap s.sec.slots fun _ k => k.ctx != n } }
    let s := { s with
      xlt := { s.xlt with waiting := s.xlt.waiting.filter fun w => w.1 != n }
      lch := { s.lch with parked := s.lch.parked.filter fun w => w.1 != n } }
    -- 4: bindings and landing registrations
    let s := cos.foldl (fun s co => s.endBindings co) s
    -- 5, 6: grids and records
    { s with lch := { s.lch with grids := mapVals s.lch.grids fun _ g =>
        if g.ctx = n then
          match g.state with
          | .waiting => { g with state := .finished 3 5 }
          | .running => { g with state := .finished 2 code }
          | .finished e c => { g with state := if e = 3 then .finished e c else .finished 2 code }
          | _ => g
        else g } }

/-- The device holds every valid context of a world: what is in the table (R277). -/
def State.cacheWorld (s : State) (w : Nat) : State :=
  (List.range 256).foldl (fun s n =>
    let at_ := s.xlt.ctxBase.toNat + 64 * n
    if (s.ctx? n).isSome ∨ !bit (s.mem.read (at_ + 9) 1) 0 then s
    else
      match ctxOf (s.mem.getBytes at_ 64) with
      | some x => if x.world = w then { s with xlt := { s.xlt with ctxs := insert s.xlt.ctxs n x } } else s
      | none => s) s

/-- Every context of a world ends with TEARDOWN (R304). -/
def State.endWorld (s : State) (w : Nat) : State :=
  let s := s.cacheWorld w
  (keys (filterMap s.xlt.ctxs fun _ x => x.world == w && x.live)).foldl (fun s n => s.endContext n 0x05) s

/-- The state with a TDI changed. -/
def State.modTdi (s : State) (n : Nat) (f : Tdi → Tdi) : State :=
  { s with sec := { s.sec with tdis := insert s.sec.tdis n (f (s.tdi n)) } }

/-- The TDI of a world goes from LOCKED or RUN to ERROR (R304): its contexts end and its key slots are
cleared. -/
def State.tdiError (s : State) (w : Nat) : State :=
  if (s.tdi w).state = 1 ∨ (s.tdi w).state = 2 then
    let s := s.modTdi w fun t => { t with state := 3 }
    let s := { s with sec := { s.sec with slots := filterMap s.sec.slots fun _ k => k.world != w } }
    s.endWorld w
  else s

/-- The TDI of a world is LOCKED or RUN: its assignment is frozen (R306). -/
def State.frozenWorld (s : State) (w : Nat) : Bool :=
  w != 0 && ((s.tdi w).state == 1 || (s.tdi w).state == 2)

end Sys2Proof.Machine
end

