-- ==== Sys2Proof/Machine/Mem.lean ====
section
/-!
DEFINITION. Physical memory: which addresses have a target, the marks of lines, and reads and writes of a
piece of one line under the checks of R309 and R367.
-/

namespace Sys2Proof.Machine

/-- Bytes of device memory one die homes (R250). -/
def dieBytes : Nat := 192 * 2 ^ 30

/-- A physical address of device memory (R250, R2). -/
def State.isDevice (s : State) (pa : Nat) : Bool := decide (pa / dieBytes < s.dieCount)

/-- A physical address of host memory (R250). -/
def isHost (pa : Nat) : Bool := 2 ^ 40 ≤ pa && pa < 2 ^ 52

/-- A physical address with a target (R250). -/
def State.hasTarget (s : State) (pa : Nat) : Bool := s.isDevice pa || isHost pa

/-- `SliceOf(pa)` (R251). -/
def sliceOf (pa : Nat) : Nat := (pa / 2 ^ 7 ^^^ pa / 2 ^ 20 ^^^ pa / 2 ^ 33) % 2 ^ 16 % 96

/-- `StackOf(pa)` (R251). -/
def stackOf (pa : Nat) : Nat := 4 * (pa / dieBytes) + (pa / 2 ^ 7 ^^^ pa / 2 ^ 14 ^^^ pa / 2 ^ 21) % 4

/-- What a read of a line under R309 finds. -/
inductive LineRead where
  | ok
  /-- Never sealed for the reading world: 128 zero bytes (step 3). -/
  | zeros
  | fails (t : Trap)
  deriving DecidableEq, Repr

/-- UNIT of a record about a line: its home agent and stack (R309, R358). -/
def lineUnit (n : Nat) : Nat := unitCode (128 * n / dieBytes) 3 (stackOf (128 * n))

/-- A modified copy is sealed under its world and written back (R308). -/
def State.writeBack (s : State) (n : Nat) : State :=
  let l := s.line n
  match l.held with
  | none => s
  | some (w, _) =>
    s.setLine n { l with tag := w, epoch := (s.tdi w).epoch, writes := (l.writes + 1) % 2 ^ 64, held := none }

/-- The checks of R309 on a line of memory, steps 1 to 5, for a page tag `w`. -/
def State.checkStored (s : State) (w n : Nat) : LineRead × State :=
  let l := s.line n
  if l.poison then (.fails .poison, s)
  else if l.latent = 2 then
    let f := s.freeValue
    let s := (f.2.setLine n { l with poison := true, latent := 0, halves := 0 }).bump .homEcc (stackOf (128 * n)) 1
    (.fails .poison, s.postError 2 3 (lineUnit n) w (f.1.toNat % 2 ^ 32) (128 * n))
  else
    let s :=
      if l.latent = 1 then
        let f := s.freeValue
        let s := (f.2.setLine n { l with latent := 0 }).bump .homEcc (stackOf (128 * n)) (2 ^ 32)
        s.postError 1 2 (lineUnit n) w (f.1.toNat % 2 ^ 32) (128 * n)
      else s
    if l.failed then (.fails .integrityFault, s.postError 3 4 (lineUnit n) l.tag 0 (128 * n))
    else if l.tag = 0 then (if w = 0 then .ok else .zeros, s)
    else if l.tag ≠ w then (.fails .integrityFault, s.postError 3 5 (lineUnit n) l.tag 0 (128 * n))
    else if l.epoch = (s.tdi w).epoch then (.ok, s)
    else
      let s := s.setLine n { s.line n with failed := true }
      (.fails .integrityFault, (s.postError 3 4 (lineUnit n) l.tag 0 (128 * n)).tdiError l.tag)

/-- A read of a line through a page of tag `w`: a copy held in the ways of `w` needs no check; a copy
another world holds is written back first. A cached line of host memory has a mark only where its copy is poisoned
(R356). -/
def State.checkLine (s : State) (w n : Nat) : LineRead × State :=
  if !s.isDevice (128 * n) then (if (s.line n).poison then .fails .poison else .ok, s)
  else
    let l := s.line n
    match l.held with
    | none => s.checkStored w n
    | some (v, _) =>
      if v = w then (if l.poison then .fails .poison else .ok, s)
      else (s.writeBack n).checkStored w n

/-- A piece of one line read through a page of tag `w` (R309). -/
def State.readLine (s : State) (w pa k : Nat) : Except Trap (List Byte) × State :=
  let r := s.checkLine w (pa / 128)
  match r.1 with
  | .ok => (.ok (r.2.mem.getBytes pa k), r.2)
  | .zeros => (.ok (List.replicate k 0), r.2)
  | .fails t => (.error t, r.2)

/-- A world has a way on a die (R307). -/
def State.hasWay (s : State) (d w : Nat) : Bool := (List.range 16).any fun i => bits (s.die d).wayMap.toNat (4 * i) 4 == w

/-- A line that world `w` has written: held in its ways where it has one on the home die, sealed at once
otherwise (R307, R308); `old` is what memory holds. -/
def State.holdLine (s : State) (w n : Nat) (old : List Byte) : State :=
  let l := s.line n
  if w = 0 then s.setLine n { l with tag := 0, epoch := 0, held := none }
  else
    let keep := match l.held with
      | some (_, o) => o
      | none => old
    let s := s.setLine n { l with held := some (w, keep) }
    if s.hasWay (128 * n / dieBytes) w && !s.sliceFailed (128 * n / dieBytes) (sliceOf (128 * n)) then s else s.writeBack n

/-- A piece of one line written through a page of tag `w` (R308, R309, R367): INTEGRITY_FAULT where the
write is refused. -/
def State.writeLine (s : State) (w pa : Nat) (bs : List Byte) : Option Trap × State :=
  let n := pa / 128
  if !s.isDevice pa then
    let s := if bs.length = 128 then s.setLine n { s.line n with poison := false } else s
    (none, { s with mem := s.mem.setBytes pa bs })
  else if bs.length = 128 then
    let l := s.line n
    let old := s.mem.getBytes (128 * n) 128
    let s := { s with mem := s.mem.setBytes pa bs }
    let held := match l.held with
      | some (v, o) => if v = w then some (v, o) else none
      | none => none
    let s := s.setLine n { l with poison := false, failed := false, latent := 0, halves := 0, held := held }
    (none, s.holdLine w n old)
  else
    let r := s.checkLine w n
    let s := r.2
    let old := s.mem.getBytes (128 * n) 128
    match r.1 with
    | .ok | .fails .poison => (none, ({ s with mem := s.mem.setBytes pa bs }).holdLine w n old)
    | .zeros =>
      let m := s.mem.setBytes (128 * n) (List.replicate 128 0)
      (none, ({ s with mem := m.setBytes pa bs }).holdLine w n old)
    | .fails t => (some t, s)

/-- A run of bytes read through a page of tag `w`, piece by piece; the first piece that fails ends it. -/
def State.readRun (s : State) (w : Nat) (pieces : List (Nat × List Byte)) : Except Trap (List Byte) × State :=
  match pieces with
  | [] => (.ok [], s)
  | p :: ps =>
    match s.readLine w p.1 p.2.length with
    | (.error t, s) => (.error t, s)
    | (.ok bs, s) =>
      match s.readRun w ps with
      | (.error t, s) => (.error t, s)
      | (.ok cs, s) => (.ok (bs ++ cs), s)

/-- `k` bytes at a physical address through a page of tag `w`. -/
def State.readPhys (s : State) (w pa k : Nat) : Except Trap (List Byte) × State :=
  s.readRun w (cutLines pa (List.replicate k 0))

/-- Bytes stored at a physical address through a page of tag `w`: the first piece refused ends it. -/
def State.writePhys (s : State) (w pa : Nat) (bs : List Byte) : Option Trap × State :=
  (cutLines pa bs).foldl (fun r p =>
    match r.1 with
    | some _ => r
    | none => r.2.writeLine w p.1 p.2) (none, s)

/-- The whole lines a run of bytes touches. -/
def linesOf (pa k : Nat) : List Nat := (List.range ((pa + k - 1) / 128 - pa / 128 + 1)).map (pa / 128 + ·)

/-- Destroying a world's ways (R304, R364): what they held is lost, and memory has its own bytes again. -/
def State.dropHeld (s : State) (p : Nat → Nat → Bool) : State :=
  s.lines.foldl (fun s x =>
    match x.2.held with
    | some (w, old) =>
      if p x.1 w then ({ s with mem := s.mem.setBytes (128 * x.1) old }).setLine x.1 { x.2 with held := none } else s
    | none => s) s

/-- Every modified copy a test holds for is written back (R306, R308). -/
def State.writeBackAll (s : State) (p : Nat → Nat → Bool) : State :=
  s.lines.foldl (fun s x =>
    match x.2.held with
    | some (w, _) => if p x.1 w then s.writeBack x.1 else s
    | none => s) s

/-- A remote-data cache holds at most this many lines (R249). -/
def rdcLines : Nat := 48 * 2 ^ 20 / 128

/-- A line enters a die's remote-data cache for a world, which has a way there (R252, R307); the oldest one leaves a full
cache, with its copy. -/
def State.fillRdc (s : State) (d n w : Nat) : State :=
  if w ≠ 0 ∧ !s.hasWay d w then s
  else
    s.modDie d fun x =>
      let l := (x.rdc.filter (· != (n, w))) ++ [(n, w)]
      let gone := l.take (l.length - rdcLines)
      { x with
        rdc := l.drop (l.length - rdcLines)
        nc := filterMap x.nc fun key _ => !gone.contains (key / 16, key % 16) }

/-- A read by a cluster, through a page of tag `w`, of a line homed elsewhere (R252): served by the die's remote-data
cache or forwarded, and filled there unless the cache class is 3 or the page is non-cacheable. A line that one world
filled serves no other (R307). -/
def State.countRdc (s : State) (d pa w attr cl : Nat) : State :=
  if s.isDevice pa ∧ pa / dieBytes = d then s
  else if attr ≠ 0 then s.bump .cxbRdcMiss d 1
  else if (s.die d).rdc.contains (pa / 128, w) then s.bump .cxbRdcHit d 1
  else if cl = 3 then s.bump .cxbRdcMiss d 1
  else (s.bump .cxbRdcMiss d 1).fillRdc d (pa / 128) w

/-- A cache of copies of lines, of a capacity, with one filled; where it is full another leaves, by a choice. -/
def State.fillCopy (s : State) (cap : Nat) (m : FMap (List Byte)) (key : Nat) (bs : List Byte) :
    FMap (List Byte) × State :=
  let old := erase m key
  if old.length < cap then (insert old key bs, s)
  else
    let c := s.choose old.length
    (insert (old.eraseIdx c.1) key bs, c.2)

end Sys2Proof.Machine
end

