-- ==== Sys2Proof/Machine/Xlat.lean ====
section
/-!
DEFINITION. Context descriptors, translation, TLBs, permissions and the fault queue (R277, R293 to R297).
-/

namespace Sys2Proof.Machine

/-- A context descriptor as a read of it finds it now (R277, R309; log entry 76): one that cannot be read is not valid. -/
def State.readCtx (s : State) (n : Nat) : Option Ctx × State :=
  match s.readPhys 0 (s.xlt.ctxBase.toNat + 64 * n) 64 with
  | (.ok bs, s) => (ctxOf bs, s)
  | (.error _, s) => (none, s)

/-- The context descriptor is read and cached where the device does not hold it (R277). -/
def State.cacheCtx (s : State) (n : Nat) : State :=
  match s.ctx? n with
  | some _ => s
  | none =>
    match s.readCtx n with
    | (some x, s) => { s with xlt := { s.xlt with ctxs := insert s.xlt.ctxs n x } }
    | (none, s) => s

/-- The permissions an access needs (R296). -/
structure Need where
  r : Bool
  w : Bool
  x : Bool
  deriving DecidableEq, Repr

/-- Loads and other reads (R296). -/
def Need.read : Need := ⟨true, false, false⟩
/-- Stores and other writes (R296). -/
def Need.write : Need := ⟨false, true, false⟩
/-- Instruction fetch (R296). -/
def Need.fetch : Need := ⟨false, false, true⟩
/-- Atomics (R296). -/
def Need.atomic : Need := ⟨true, true, false⟩
/-- `pref` (R296). -/
def Need.nothing : Need := ⟨false, false, false⟩

/-- Why a translation fails. -/
inductive XFail where
  /-- PAGE_FAULT: the level whose entry had V = 0. -/
  | page (level : Nat)
  /-- ACCESS_FAULT, or the trap of a table that cannot be read (R309; log entry 76). -/
  | trap (t : Trap)
  deriving DecidableEq, Repr

/-- Address bits below a page of a SIZE code (R294). -/
def pageShift (size : Nat) : Nat := nth [12, 16, 21, 25, 27, 30, 32, 36] size 12

/-- Entries in a run of a SIZE code (R294). -/
def pageRun (size : Nat) : Nat := nth [1, 16, 1, 16, 64, 1, 4, 64] size 1

/-- A level allows a SIZE code in its leaves (R294). -/
def sizeAt (level size : Nat) : Bool :=
  match level with
  | 0 => size < 2
  | 1 => 2 ≤ size && size < 5
  | 2 => 5 ≤ size
  | _ => false

/-- Fields of a table entry (R293). -/
def pteWorld (e : Nat) : Nat := bits e 60 4
def pteAttr (e : Nat) : Nat := bits e 58 2
def ptePa (e : Nat) : Nat := bits e 12 40 * 2 ^ 12
def pteSize (e : Nat) : Nat := bits e 2 3

/-- A leaf entry obeys the rules of R293. -/
def State.leafOk (s : State) (level e : Nat) : Bool :=
  level != 3 && bits e 52 6 == 0 && bits e 8 4 == 0 && sizeAt level (pteSize e)
    && ptePa e % 2 ^ pageShift (pteSize e) == 0 && pteAttr e != 3
    && !((pteAttr e == 1 || pteAttr e == 2) && s.isDevice (ptePa e))

/-- A non-leaf entry obeys the rules of R293. -/
def State.tableOk (s : State) (level e : Nat) : Bool := level != 0 && e == ptePa e + 1 && s.hasTarget (ptePa e)

/-- A leaf as a TLB entry. -/
def leafEntry (ctx va e : Nat) : TlbEntry where
  ctx := ctx
  page := va / 2 ^ pageShift (pteSize e) * 2 ^ (pageShift (pteSize e) - 12)
  size := pteSize e
  pa := ptePa e
  r := bit e 5
  w := bit e 6
  x := bit e 7
  attr := pteAttr e
  world := pteWorld e

/-- A leaf entry, once it is the one the walker uses. -/
def State.useLeaf (s : State) (ctx va level e : Nat) : Except XFail TlbEntry :=
  if !bit e 0 then .error (.page level)
  else if bit e 1 && s.leafOk level e then .ok (leafEntry ctx va e) else .error (.trap .accessFault)

/-- A table entry as a read of it finds it (R309; log entry 76). -/
def State.entryAt (s : State) (pa : Nat) : Except XFail Nat × State :=
  match s.readPhys 0 pa 8 with
  | (.ok bs, s) => (.ok (ofBytes bs), s)
  | (.error t, s) => (.error (.trap t), s)

/-- The walk from a table at a level (R293): of a run whose entries differ, one is used (R294). -/
def State.walk (s : State) (ctx va : Nat) (level table : Nat) : Except XFail TlbEntry × State :=
  let at_ := table + 8 * bits va (12 + 9 * level) 9
  match s.entryAt at_ with
  | (.error f, s) => (.error f, s)
  | (.ok e, s) =>
    if !bit e 0 then (.error (.page level), s)
    else if bit e 1 then
      if !s.leafOk level e then (.error (.trap .accessFault), s)
      else
        let n := pageRun (pteSize e)
        let base := at_ / (8 * n) * (8 * n)
        if (List.range n).all fun i => s.mem.read (base + 8 * i) 8 == e then (s.useLeaf ctx va level e, s)
        else
          let c := s.choose n
          match c.2.entryAt (base + 8 * c.1) with
          | (.error f, s) => (.error f, s)
          | (.ok e, s) => (s.useLeaf ctx va level e, s)
    else if !s.tableOk level e then (.error (.trap .accessFault), s)
    else
      match level with
      | 0 => (.error (.trap .accessFault), s)
      | l + 1 => s.walk ctx va l (ptePa e)

/-- A TLB entry translates a page of a context. -/
def TlbEntry.hits (e : TlbEntry) (ctx va : Nat) : Bool :=
  e.ctx == ctx && e.page == va / 2 ^ pageShift e.size * 2 ^ (pageShift e.size - 12)

/-- A TLB of a capacity with an entry filled; a full one gives up an entry of the device's choice. -/
def State.fillTlb (s : State) (cap : Nat) (t : List TlbEntry) (e : TlbEntry) : List TlbEntry × State :=
  if t.length < cap then (t ++ [e], s)
  else
    let c := s.choose t.length
    (t.eraseIdx c.1 ++ [e], c.2)

/-- A miss of a die's L2 TLB (R295): it starts a walk, or joins the one for the page that started in this tick. -/
def State.countMiss (s : State) (d ctx page : Nat) (joins : Bool) : State :=
  let s := s.bump .xltL2Miss d 1
  if joins then s.bump .xltCoalesce d 1
  else (s.bump .xltWalks d 1).modDie d fun x =>
    { x with walks := (x.walks.filter fun w => w.1 == s.timer) ++ [(s.timer, ctx, page)] }

/-- A page through a die's L2 TLB or a walk (R295). What a walk of this tick has just brought, an access may have missed
and waited for (log entry 77). -/
def State.lookupL2 (s : State) (d ctx va : Nat) : Except XFail TlbEntry × State :=
  let walks := (s.die d).walks.filter fun w => w.1 == s.timer && w.2.1 == ctx
  match (s.die d).tlb.find? fun e => e.hits ctx va with
  | some e =>
    if walks.any fun w => e.hits ctx (w.2.2 * 2 ^ 12) then
      let c := s.choose 2
      (.ok e, if c.1 = 0 then c.2 else c.2.countMiss d ctx (va / 2 ^ 12) true)
    else (.ok e, s)
  | none =>
    match s.ctx? ctx with
    | none => (.error (.trap .accessFault), s)
    | some x =>
      match (s.countMiss d ctx (va / 2 ^ 12) (walks.any fun w => w.2.2 == va / 2 ^ 12)).walk ctx va 3 x.root with
      | (.error f, s) => (.error f, s)
      | (.ok e, s) =>
        let r := s.fillTlb 4096 (s.die d).tlb e
        (.ok e, r.2.modDie d fun x => { x with tlb := r.1 })

/-- A page through a cluster's L1 TLB (R295). -/
def State.lookup (s : State) (ci ctx va : Nat) : Except XFail TlbEntry × State :=
  if 2 ^ 48 ≤ va then (.error (.trap .accessFault), s)
  else
    match (s.cluster ci).tlb.find? fun e => e.hits ctx va with
    | some e => (.ok e, s)
    | none =>
      match s.lookupL2 (dieOf ci) ctx va with
      | (.error f, s) => (.error f, s)
      | (.ok e, s) =>
        let r := s.fillTlb 128 (s.cluster ci).tlb e
        (.ok e, r.2.modCluster ci fun c => { c with tlb := r.1 })

/-- A translated access: its physical address and its page's tag and attribute. -/
structure Place where
  pa    : Nat
  world : Nat
  attr  : Nat
  deriving DecidableEq, Repr

/-- A page gives an access what it needs, at an address with a target (R250, R296). -/
def State.placeIn (s : State) (e : TlbEntry) (va : Nat) (need : Need) : Except XFail Place :=
  let pa := e.pa + va % 2 ^ pageShift e.size
  if (need.r && !e.r) || (need.w && !e.w) || (need.x && !e.x) || !s.hasTarget pa then .error (.trap .accessFault)
  else .ok ⟨pa, e.world, e.attr⟩

/-- A request of a context that a slice and a home agent serve (R333; log entry 78). -/
def State.serves (s : State) (ctx pa : Nat) : State :=
  if s.isDevice pa then
    let d := 256 * (pa / dieBytes)
    (s.takes (d + 144 + sliceOf pa) ctx).takes (d + 240 + stackOf pa % 4) ctx
  else s

/-- Translation of an access of a cluster (R293, R295, R296); one that reads or writes data is a request (R333). -/
def State.translate (s : State) (ci ctx va : Nat) (need : Need) : Except XFail Place × State :=
  match s.lookup ci ctx va with
  | (.error f, s) => (.error f, s)
  | (.ok e, s) =>
    match s.placeIn e va need with
    | .ok p => (.ok p, if need.r || need.w then s.serves ctx p.pa else s)
    | .error f => (.error f, s)

/-- Translation of an access of the launcher (R284, R291) and of other parts of the hub, through the L2 TLB of their die
(R295; log entry 77). -/
def State.translateHub (s : State) (ctx va : Nat) (need : Need) : Except XFail Place × State :=
  if 2 ^ 48 ≤ va then (.error (.trap .accessFault), s)
  else
    match s.lookupL2 0 ctx va with
    | (.error f, s) => (.error f, s)
    | (.ok e, s) => (s.placeIn e va need, s)

/-- A page's tag lets a context in (R142 step 4). -/
def State.worldOk (s : State) (ctx tag : Nat) : Bool :=
  tag == 0 || ((s.ctx? ctx).map Ctx.world == some tag)

/-- Agents of the fault queue (R297). -/
inductive Agent where
  | thread | matrix | copy | gather | collective | bload | launcher
  deriving DecidableEq, Repr

/-- AGENT of a fault entry. -/
def Agent.code : Agent → Nat
  | .thread => 0 | .matrix => 1 | .copy => 2 | .gather => 3 | .collective => 4 | .bload => 5 | .launcher => 6

/-- KIND of a fault entry. -/
def Need.kind (n : Need) : Nat := if n.x then 2 else if n.r && n.w then 3 else if n.w then 1 else 0

/-- The fault ring has room for an entry (R297). -/
def Xlt.room (x : Xlt) : Bool := x.fqEn && (x.fqTail + 1) % 2 ^ x.fqLogn != x.fqHead % 2 ^ x.fqLogn

/-- Writes a fault entry: the page's faults are outstanding from now on. -/
def State.writeFault (s : State) (ctx page : Nat) (bytes : List Byte) : State :=
  let s := s.hubWrite (s.xlt.fqBase.toNat + 32 * (s.xlt.fqTail % 2 ^ s.xlt.fqLogn)) bytes
  { s with xlt := { s.xlt with
      fqTail := (s.xlt.fqTail + 1) % 2 ^ s.xlt.fqLogn
      pages := s.xlt.pages ++ [(ctx, page)] } }

/-- Entries that waited for room are posted, oldest first. -/
def State.postWaiting (s : State) : State :=
  s.xlt.waiting.foldl (fun s w =>
    if s.xlt.room then
      ({ s with xlt := { s.xlt with waiting := s.xlt.waiting.tail } }).writeFault w.1 w.2.1 w.2.2
    else s) s

/-- A replayable fault is posted (R297): one entry for each page with faults outstanding. -/
def State.postFault (s : State) (ctx va : Nat) (need : Need) (agent : Agent) (level die : Nat) : State :=
  let page := va / 2 ^ 12
  if s.xlt.pages.contains (ctx, page) ∨ s.xlt.waiting.any fun w => w.1 == ctx && w.2.1 == page then s
  else
    let bytes := toBytes (page * 2 ^ 12) 8 ++ toBytes ctx 1 ++ toBytes need.kind 1 ++ toBytes agent.code 1
      ++ toBytes level 1 ++ toBytes die 1 ++ toBytes 0 3 ++ toBytes s.timer 8 ++ toBytes 0 8
    ({ s with xlt := { s.xlt with waiting := s.xlt.waiting ++ [(ctx, page, bytes)] } }).postWaiting

/-- A PAGE_FAULT of an agent (R297): posted where the context's REPLAY is 1, and the agent then parks;
otherwise the context ends with NONREPLAY_FAULT. -/
def State.pageFault (s : State) (ctx va : Nat) (need : Need) (agent : Agent) (level die : Nat) : Bool × State :=
  match s.ctx? ctx with
  | some x => if x.replay then (true, s.postFault ctx va need agent level die) else (false, s.endContext ctx 0x04)
  | none => (false, s)

/-- The error record of an access of the hub that crosses worlds (R44, R337). -/
def State.postHubWorld (s : State) (tag : Nat) : State := s.postError 7 0 (unitCode 0 7 1) tag 0 0

/-- The error record of a WORLD_FAULT (R337). -/
def State.postWorld (s : State) (ci tag : Nat) : State := s.postError 7 0 (clusterCode ci) tag 0 0

end Sys2Proof.Machine
end

