-- ==== Sys2Proof/Machine/Queues.lean ====
section
/-!
DEFINITION. Completion records, engine commands as they are pushed, and the push and pop side of queue
bindings (R154 to R162, R169, R173).
-/

namespace Sys2Proof.Machine

/-- A completion record (R173). -/
structure CRec where
  tag      : Nat
  fault    : Nat
  source   : Nat
  opc      : Nat
  status   : Nat
  progress : Nat
  addr     : Nat
  /-- Destinations not served (words 4 and 8 to 27), by cluster. -/
  failed   : List Nat
  deriving DecidableEq, Repr

/-- The 32 words of a record (R173). -/
def CRec.words (r : CRec) : Lanes :=
  let dies := bitsIn (r.failed.map dieOf) 0
  let vec (w : Nat) : Nat :=
    let d := (w - 8) / 5
    let j := (w - 8) % 5
    bitsIn ((r.failed.filter fun c => dieOf c == d).map fun c => c % 144) (32 * j)
  (List.range 32).map fun w =>
    BitVec.ofNat 32
      (if w = 0 then r.tag % 2 ^ 8 * 2 ^ 24 + r.fault % 2 ^ 8 * 2 ^ 16 + r.source % 2 ^ 4 * 2 ^ 12 + r.opc % 2 ^ 4 * 2 ^ 8 + r.status % 2 ^ 8
       else if w = 1 then r.progress
       else if w = 2 then (if r.fault = 0 then 0 else r.addr)
       else if w = 3 then (if r.fault = 0 then 0 else r.addr / 2 ^ 32)
       else if w = 4 then dies
       else if 8 ≤ w ∧ w < 28 then vec w
       else 0)

/-- Posts a record to the event queue of a cluster (R173): dropped and counted where it is not bound. -/
def State.postEvent (s : State) (ci : Nat) (r : CRec) : State :=
  match (s.cluster ci).events.owner with
  | some _ => s.modCluster ci fun c => { c with events := { c.events with items := c.events.items ++ [r.words] } }
  | none => s.bump .cluStray ci 1

/-- Posts a record to an engine's output queue (R173). -/
def State.postOut (s : State) (ci e : Nat) (r : CRec) : State :=
  let p := nth (s.cluster ci).outs e Port.reset
  match p.owner with
  | some _ => s.modCluster ci fun c => { c with outs := setNth c.outs e { p with items := p.items ++ [r.words] } }
  | none => s.bump .cluStray ci 1

/-- Word `w` of a command record. -/
def cmdWord (ws : List Word) (w : Nat) : Nat := (nth ws w 0).toNat

/-- Words `w` and `w + 1` of a command record. -/
def cmdDword (ws : List Word) (w : Nat) : Nat := cmdWord ws w + 2 ^ 32 * cmdWord ws (w + 1)

/-- OPC of a command (R169). -/
def cmdOpc (ws : List Word) : Nat := bits (cmdWord ws 0) 0 4

/-- An engine accepts an OPC (R169). -/
def opcFits (engine opc : Nat) : Bool :=
  match engine with
  | 0 => opc == 0 || opc == 1 || opc == 15
  | 1 => opc == 2 || opc == 15
  | 2 => opc == 3 || opc == 15
  | _ => false

/-- The header and body fields of a command hold no reserved value (R169, R171, R172). DESIGN CHOICE (log entry 25): a
body field outside its limits counts as one with a reserved value, as do KEYSLOT, IVCTR and IVPFX that are nonzero in a
record of OPC 0, to which the table gives no meaning. -/
def cmdOk (engine : Nat) (ws : List Word) : Bool :=
  let h := cmdWord ws 0
  let w := cmdWord ws
  let z (l : List Nat) : Bool := l.all fun i => w i == 0
  opcFits engine (cmdOpc ws) && bits h 17 3 < 5 && bits h 4 8 == 0 && w 1 == 0 &&
    match cmdOpc ws with
    | 15 => z [2, 3, 4, 5, 6, 7, 8, 9, 10, 11, 12, 13, 14, 15]
    | 2 =>
      w 8 ≤ 2 ^ 24 && 2 ≤ bits (w 9) 0 8 && bits (w 9) 0 8 ≤ 8 && bits (w 9) 8 2 != 3 && bits (w 9) 10 2 != 3
        && bits (w 9) 14 18 == 0 && z [10, 11, 12, 13, 14, 15]
    | 3 =>
      let ety := bits (w 7) 0 8
      (ety == 1 || ety == 2 || ety == 3 || ety == 4 || ety == 10) && bits (w 7) 8 8 ≤ 2 && bits (w 7) 16 8 ≤ 3
        && bits (w 7) 24 8 == 0 && bits (w 9) 16 16 == 0 && z [10, 11, 12, 13, 14, 15]
    | opc =>
      1 ≤ w 6 && w 6 ≤ 2 ^ 24 && 1 ≤ w 7 && w 7 ≤ 65535 && bits (w 10) 0 2 != 3 && bits (w 10) 2 2 != 3
        && bits (w 10) 4 4 == 0 && bits (w 10) 16 16 == 0 && z [14, 15]
        && (if opc = 0 then bits (w 10) 8 8 == 0 && z [11, 12, 13] else w 7 == 1 && w 6 ≤ 65536)

/-- Commands waiting in an engine's input queue. -/
def State.waitingCmds (s : State) (ci e : Nat) : List (Nat × Cmd) :=
  s.cmds.filter fun p => p.2.ci == ci && p.2.engine == e && p.2.state == .queued

/-- Ordinary slots taken in an engine's input queue. -/
def State.ordinaryUsed (s : State) (ci e : Nat) : Nat :=
  ((s.waitingCmds ci e).filter fun p => p.2.reserved.isNone).length

/-- A crew's reserved slot is free (R159). -/
def State.reservedFree (s : State) (ci e co crew : Nat) : Bool :=
  !((s.waitingCmds ci e).any fun p => p.2.cohort == co && p.2.reserved == some crew)

/-- Slots of an engine's input queue open to a push of a crew (R159, R162). -/
def State.engineFree (s : State) (ci e co crew : Nat) (sig : Bool) : Nat :=
  (32 - s.ordinaryUsed ci e) + (if sig && s.reservedFree ci e co crew then 1 else 0)

/-- Pushes a command (R159, R169); a record that is not valid completes REFUSED when it starts. -/
def State.pushCmd (s : State) (co key e : Nat) (ks : List Nat) (ws : List Word) : State :=
  match find? s.cohorts co with
  | none => s
  | some c =>
    let id := s.newId
    let crew := (ks.head?.getD 0) / 32
    let cmd : Cmd := {
      ci := c.ci, engine := e, cohort := co, ctx := c.ctx, world := c.world, threads := ks
      words := (ws ++ List.replicate 16 0).take 16
      key := key
      reserved := if s.ordinaryUsed c.ci e < 32 then none else some crew
      state := .queued, progress := 0, parked := none, slotKey := none, plain := none, seen := []
      stale := s.staleOf co ks ((nth ws 0 0).getLsbD 21), serial := id.1 }
    { id.2 with cmds := insert id.2.cmds id.1 cmd }

/-- A binding of a role (R154). -/
def Cohort.qbind? (c : Cohort) (role q : Nat) : Option QBind := find? c.queues (8 * role + q)

/-- Binding kinds that pop (R156). -/
def isPop (kind : Nat) : Bool := kind == 2 || kind == 3 || kind == 6 || kind == 7 || kind == 8

/-- Binding kinds that a write pushes to (R156). -/
def isPush (kind : Nat) : Bool := kind == 1 || kind == 4 || kind == 5

/-- Pops that R167 forbids in an idempotent region. -/
def popOnce (kind : Nat) : Bool := kind == 2 || kind == 6 || kind == 8

/-- Pushes that R167 forbids in an idempotent region. -/
def pushOnce (kind : Nat) : Bool := kind == 4 || kind == 5

/-- The entries of a pop binding that can be popped at once, oldest first (R146, R161). -/
def State.readyEntries (s : State) (c : Cohort) (b : QBind) : List Lanes :=
  let cl := s.cluster c.ci
  match b.kind with
  | 2 => (nth cl.outs (b.target.toNat % 4) Port.reset).items
  | 6 => (nth cl.ports (b.target.toNat % 8) Port.reset).items
  | 8 => cl.events.items
  | 3 | 7 => (b.entries.takeWhile fun e => e.2.isSome).filterMap fun e => e.2
  | _ => []

/-- Drops the oldest entry of a pop binding. -/
def State.dropEntry (s : State) (co key : Nat) : State :=
  match find? s.cohorts co with
  | none => s
  | some c =>
    match find? c.queues key with
    | none => s
    | some b =>
      let pop (p : Port) : Port := { p with items := p.items.tail }
      match b.kind with
      | 2 => s.modCluster c.ci fun cl =>
          let e := b.target.toNat % 4
          { cl with outs := setNth cl.outs e (pop (nth cl.outs e Port.reset)) }
      | 6 => s.modCluster c.ci fun cl =>
          let e := b.target.toNat % 8
          { cl with ports := setNth cl.ports e (pop (nth cl.ports e Port.reset)) }
      | 8 => s.modCluster c.ci fun cl => { cl with events := pop cl.events }
      | _ => s.modCohort co fun c => { c with queues := insert c.queues key { b with entries := b.entries.tail } }

/-- The destination cluster and port of a message send binding (R156). -/
def sendDest (t : DWord) : Nat × Nat := (144 * bits t.toNat 16 2 + bits t.toNat 0 8, bits t.toNat 24 3)

/-- Messages at or on their way to a receive port (R158). -/
def State.portLoad (s : State) (ci port : Nat) : Nat :=
  (nth (s.cluster ci).ports port Port.reset).items.length
    + (s.msgs.filter fun m => m.2.dest == ci && m.2.port == port).length

/-- Multicast sends of a binding in flight (R267). -/
def State.sendsInFlight (s : State) (o : Owner) (serial : Nat) : Nat :=
  (s.mcasts.filter fun m => m.2.sender == o && m.2.serial == serial).length

/-- Slots open to a push of a crew through a binding (R159, R162). -/
def State.pushFree (s : State) (co key crew : Nat) (b : QBind) : Nat :=
  match find? s.cohorts co with
  | none => 0
  | some c =>
    match b.kind with
    | 1 => s.engineFree c.ci (b.target.toNat % 4) co crew b.sig
    | 4 => 16 - s.portLoad (sendDest b.target).1 (sendDest b.target).2
    | 5 => 4 - s.sendsInFlight ⟨co, key / 8, key % 8⟩ b.serial
    | _ => 0

/-- Entries of a push binding that wait to drain (R162). -/
def State.pushHeld (s : State) (co key : Nat) (b : QBind) : Nat :=
  match find? s.cohorts co with
  | none => 0
  | some c =>
    match b.kind with
    | 1 => (s.waitingCmds c.ci (b.target.toNat % 4)).length
    | 4 => (s.msgs.filter fun m => m.2.sender == ⟨co, key / 8, key % 8⟩ && m.2.serial == b.serial).length
    | 5 => s.sendsInFlight ⟨co, key / 8, key % 8⟩ b.serial
    | _ => 0

/-- HELD of a binding (R162). -/
def State.held (s : State) (co key : Nat) (b : QBind) : Nat :=
  match find? s.cohorts co with
  | none => 0
  | some c => if isPop b.kind then (s.readyEntries c b).length else s.pushHeld co key b

/-- One 32-lane entry pushed through a binding that has a slot for it (R158, R159, R169). -/
def State.pushEntry (s : State) (co key : Nat) (b : QBind) (ks : List Nat) (ws : Lanes) : State :=
  match find? s.cohorts co with
  | none => s
  | some c =>
    let o : Owner := ⟨co, key / 8, key % 8⟩
    match b.kind with
    | 1 => s.pushCmd co key (b.target.toNat % 4) ks (ws.take 16)
    | 4 =>
      let id := s.newId
      let m : Msg := ⟨c.ci, o, b.serial, (sendDest b.target).1, (sendDest b.target).2, ws⟩
      { id.2 with msgs := insert id.2.msgs id.1 m }
    | 5 =>
      let id := s.newId
      let m : Mcast := ⟨c.ci, o, b.serial, c.world, b.landing, b.dests, [], ws⟩
      { id.2 with mcasts := insert id.2.mcasts id.1 m }
    | _ => s

end Sys2Proof.Machine
end

