-- ==== Sys2Proof/Machine/Ops.lean ====
section
/-!
DEFINITION. What the instructions share: scratchpad, fetching a word, delayed results, groups after an
issue, taking a trap, checking a transfer's target, and the completed-lamb bitmap.
-/

namespace Sys2Proof.Machine

/-- Bytes of a scratchpad bank (R3). -/
def bankBytes : Nat := 16384

/-- Bytes of a cohort's scratchpad allocation (R143). -/
def Cohort.spadBytes (c : Cohort) : Nat := bankBytes * c.banks.length

/-- Where an offset of an allocation lies in the cluster's scratchpad. -/
def Cohort.spadAt (c : Cohort) (off : Nat) : Nat := bankBytes * nth c.banks (off / bankBytes) 0 + off % bankBytes

/-- A line of scratchpad is poisoned (R356). -/
def State.spadPoisoned (s : State) (c : Cohort) (off : Nat) : Bool :=
  (s.cluster c.ci).scratchPoison.contains (c.spadAt off / 128)

/-- Ticks in which an array enters retention, and leaves it (R261). -/
def retentionTicks : RetArray → Nat × Nat
  | .bank _ _ => (2000, 1500)
  | .way _ _ _ => (16000, 12000)

/-- Arrays that are in retention, or on their way out of it. -/
def State.sleeping (s : State) (a : RetArray) : Bool :=
  s.pwr.asleep.any fun r => r.arr == a && ((r.wake.map fun t => decide (s.timer < t)).getD true)

/-- Ticks that an access waits for an array (R261): for the end of an entry in progress, then for the exit. -/
def Asleep.wait (r : Asleep) (now : Nat) : Nat :=
  match r.wake with
  | some t => t - now
  | none => (r.since + (retentionTicks r.arr).1 - now) + (retentionTicks r.arr).2

/-- An access of a cluster reaches an array (R261): it waits for one that is in retention, which leaves it. -/
def State.reachArray (s : State) (ci : Nat) (a : RetArray) : State :=
  if !s.sleeping a then s
  else
    let w := ((s.pwr.asleep.find? fun r => r.arr == a).map fun r => r.wait s.timer).getD 0
    let s := s.bump .cluRetWait ci w
    { s with pwr := { s.pwr with
        asleep := s.pwr.asleep.map fun r => if r.arr = a then { r with wake := some (s.timer + w) } else r } }

/-- An access reaches a scratchpad bank. -/
def State.touchBank (s : State) (ci b : Nat) : State :=
  (s.modCluster ci fun c => { c with touched := insert c.touched b s.timer }).reachArray ci (.bank ci b)

/-- An access reaches the banks of a run of scratchpad bytes. -/
def State.touchSpad (s : State) (c : Cohort) (off k : Nat) : State :=
  ((List.range ((off + k + 16383) / 16384 - off / 16384)).map fun i => c.spadAt ((off / 16384 + i) * 16384) / 16384).foldl
    (fun s b => s.touchBank c.ci b) s

/-- Every way of a slice is in retention. -/
def State.sliceAsleep (s : State) (h : Nat × Nat) : Bool := (List.range 16).all fun w => s.sleeping (.way h.1 h.2 w)

/-- A request of a cluster reaches a slice that is in retention: a way of the device's choice leaves it (R261). -/
def State.wakeSlice (s : State) (h : Nat × Nat) (ci : Nat) : State :=
  if (List.range 16).any fun w => s.pwr.asleep.any fun r => r.arr == .way h.1 h.2 w && r.wake.isSome then s
  else
    let w := s.choose 16
    w.2.reachArray ci (.way h.1 h.2 w.1)

/-- Scratchpad bytes, unchecked; each piece of a line is looked up in its own bank. -/
def State.spadGet (s : State) (c : Cohort) (off k : Nat) : List Byte :=
  (List.range k).map fun i => (s.cluster c.ci).scratch.get (c.spadAt (off + i))

/-- Scratchpad bytes stored, unchecked: poison of a line goes where all of it is written (R142), and the
cohort's high-water mark rises (R188). -/
def State.spadPut (s : State) (co off : Nat) (bs : List Byte) : State :=
  match find? s.cohorts co with
  | none => s
  | some c =>
    let cl := s.cluster c.ci
    let m := (cutLines off bs).foldl (fun (m : Memory) p => m.setBytes (c.spadAt p.1) p.2) cl.scratch
    let whole := ((cutLines off bs).filter fun p => p.2.length == 128).map fun p => c.spadAt p.1 / 128
    let s := s.setCluster c.ci { cl with
      scratch := m
      scratchPoison := cl.scratchPoison.filter fun n => !whole.contains n }
    if bs.isEmpty then s
    else (s.touchSpad c off bs.length).modCohort co fun c => { c with high := max c.high ((off + bs.length + 127) / 128 * 128) }

/-- Scratchpad lines marked poisoned (R357). -/
def State.spadPoison (s : State) (co off : Nat) : State :=
  match find? s.cohorts co with
  | none => s
  | some c => s.modCluster c.ci fun cl =>
      { cl with scratchPoison := (c.spadAt off / 128) :: cl.scratchPoison.filter (· != c.spadAt off / 128) }

/-- The bounds of an access to `k` bytes of scratchpad (R142 step 5, R143). -/
def Cohort.spadRange (c : Cohort) (off k : Nat) (write : Bool) : Option Trap :=
  if c.spadBytes < off + k then some .accessFault
  else if write && decide (off < c.owned) then some .templateWrite
  else none

/-- The checks of a scratchpad access of `k` bytes (R142 steps 2 and 5, R143). -/
def Cohort.spadCheck (c : Cohort) (off k : Nat) (write : Bool) : Option Trap :=
  if k ≠ 0 ∧ off % k ≠ 0 then some .alignFault else c.spadRange off k write

/-- What fetching the word at an address gives (R45 step 1). -/
inductive Fetched where
  | word (w : Word)
  | page (level : Nat)
  | trap (t : Trap)
  deriving DecidableEq, Repr

/-- The word at an address, fetched in a context (R45 step 1, R296, R309). -/
def State.fetchAt (s : State) (ci ctx a : Nat) : Fetched × State :=
  match s.translate ci ctx a Need.fetch with
  | (.error (.page l), s) => (.page l, s)
  | (.error (.trap t), s) => (.trap t, s)
  | (.ok p, s) =>
    if !s.worldOk ctx p.world then (.trap .accessFault, s)
    else
      match (s.recall ci (p.pa / 128)).readPhys p.world p.pa 4 with
      | (.error t, s) => (.trap t, s)
      | (.ok bs, s) => (.word (BitVec.ofNat 32 (ofBytes bs)), s)

/-- What fetching an instruction gives (R45 step 1). -/
inductive Fetch where
  | instr (i : Instr) (words : List Word)
  | page (va level : Nat)
  | trap (t : Trap)
  deriving DecidableEq, Repr

/-- One more word of an instruction is fetched, while its first `ws` do not decode. -/
def State.fetchMore (s : State) (ci ctx : Nat) (pc : DWord) (ws : List Word) : Nat → Fetch × State
  | 0 => (.trap .accessFault, s)
  | n + 1 =>
    let a := (pc + BitVec.ofNat 64 (4 * ws.length)).toNat
    match s.fetchAt ci ctx a with
    | (.page l, s) => (.page a l, s)
    | (.trap t, s) => (.trap t, s)
    | (.word w, s) =>
      match decodeWords (ws ++ [w]) with
      | .ok (i, _) => (.instr i (ws ++ [w]), s)
      | .error _ => s.fetchMore ci ctx pc (ws ++ [w]) n

/-- The instruction at an address, word by word (R13, R45 step 1). -/
def State.fetchInstr (s : State) (ci ctx : Nat) (pc : DWord) : Fetch × State := s.fetchMore ci ctx pc [] 3

/-- Threads of a group after an issue: those at one address are one group (R239). -/
def State.settle (s : State) (co g : Nat) (ks : List Nat) : State :=
  match find? s.cohorts co with
  | none => s
  | some c =>
    let live := byLane (ks.filter fun k => (c.thread? k).isSome)
    let pcOf (k : Nat) : DWord := ((c.thread? k).map Thread.pc).getD 0
    match (live.map pcOf).eraseDups with
    | [] => (s.modCohort co Cohort.tidy)
    | [_] =>
      if c.members g = live then
        { (s.modThreads co live fun _ t => { t with run := .group g }).modCohort co fun c =>
            { c with groups := modify c.groups g fun x => { x with stamp := s.fresh, waited := false, memory := false, since := none } } with
          fresh := s.fresh + 1 }
      else s.regroup co live
    | _ => s.regroup co live

/-- Why a thread traps, and what its frame records (R206, R366). -/
structure Cause where
  trap : Trap
  addr : Nat
  pc   : DWord
  fw   : Word
  pw   : Word
  edge : Option DWord
  deriving DecidableEq, Repr

/-- The address of a thread's frame of a slot (R281); `none` where TRAPA is 0. -/
def State.frameAddr (s : State) (c : Cohort) (k slot : Nat) : Option Nat :=
  match find? s.lch.grids c.grid with
  | none => none
  | some g =>
    if g.record.trapa = 0 then none
    else some ((g.record.trapa.toNat + ((c.coh * 1024 + k) * 2 + slot) * 1024) % 2 ^ 64)

/-- The mask a frame records for a divergence entry (R207). -/
def DivEntry.mask (e : DivEntry) : BitVec 32 := BitVec.ofNat 32 (bitsIn (e.members.map (· % 32)) 0)

/-- The 1,024 bytes of a frame (R206). -/
def State.frameBytes (s : State) (co : Nat) (c : Cohort) (t : Thread) (z : Cause) : List Byte :=
  let loop (i : Nat) : List Byte :=
    match t.loops.reverse[i]? with
    | some l => toBytes l.start.toNat 8 ++ toBytes l.stop.toNat 8 ++ toBytes l.count.toNat 4 ++ toBytes 0 4
    | none => toBytes 0 24
  let q (i : Nat) : List Byte :=
    match c.qbind? t.role i with
    | some b => toBytes (b.kind + b.sig.toNat * 2 ^ 4 + b.trapq.toNat * 2 ^ 5) 4 ++ toBytes b.target.toNat 8
        ++ toBytes (s.held co (8 * t.role + i) b) 4
    | none => toBytes 0 16
  let st (i : Nat) : List Byte :=
    match find? c.streams (4 * t.role + i) with
    | some x => toBytes x.base.toNat 8 ++ toBytes x.count.toNat 4 ++ toBytes x.estride.toNat 4 ++ toBytes x.rstride.toNat 4
        ++ toBytes ((x.rowlen - 1) * 2 ^ 4 + x.ety * 2 ^ 16 + x.sp.toNat * 2 ^ 20 + x.write.toNat * 2 ^ 21) 4
        ++ toBytes x.pos 4 ++ toBytes 0 4
    | none => toBytes 0 32
  let dv (i : Nat) : List Byte :=
    match (t.divs.reverse[i]?).bind (find? c.divs) with
    | some e => toBytes e.join.toNat 8 ++ toBytes e.mask.toNat 4 ++ toBytes 0 4
    | none => toBytes 0 16
  toBytes z.pc.toNat 8 ++ toBytes z.trap.code 1 ++ toBytes t.flags.toNat 1 ++ toBytes t.preds.toNat 1
    ++ toBytes t.divs.length 1 ++ toBytes t.ovf 1 ++ toBytes t.loops.length 1 ++ toBytes (t.wbase / 32) 1 ++ toBytes 0 1
    ++ toBytes z.fw.toNat 4 ++ toBytes t.mode.toNat 4 ++ toBytes z.addr 8 ++ toBytes t.nlife.toNat 4
    ++ toBytes t.lane 1 ++ toBytes t.crew 1 ++ toBytes 0 2 ++ toBytes t.idx 4 ++ toBytes z.pw.toNat 4
    ++ (List.range 4).flatMap loop ++ (List.range 8).flatMap q ++ (List.range 4).flatMap st ++ toBytes 0 112
    ++ (List.range 32).flatMap dv

/-- A KIND 1 event, within the rate of R359. -/
def State.trapEvent (s : State) (c : Cohort) (z : Cause) : State :=
  let recent := (s.cluster c.ci).traps.filter fun t => decide (s.timer < t + 10000)
  if 64 ≤ recent.length then s.bump .bbxDrop 0 1
  else
    let s := s.modCluster c.ci fun cl => { cl with traps := recent ++ [s.timer] }
    s.bbx 1 (dieOf c.ci) (clusterCode c.ci) c.world c.ctx
      (evData (toBytes z.trap.code 1 ++ toBytes 0 7 ++ toBytes z.pc.toNat 8))

/-- Writes a frame in the context's trap area; `false` where the write faults (R206). -/
def State.writeFrame (s : State) (c : Cohort) (a : Nat) (bs : List Byte) : Bool × State :=
  match s.translate c.ci c.ctx a Need.write with
  | (.error _, s) => (false, s)
  | (.ok p, s) =>
    if !s.worldOk c.ctx p.world then (false, s.postWorld c.ci p.world)
    else
      match (s.recall c.ci (p.pa / 128)).writePhys p.world p.pa bs with
      | (some _, s) => (false, s)
      | (none, s) => (true, s)

/-- TAKING A TRAP (R206): the frame is written, TRAPH set, the loop and divergence stacks emptied, WBASE
zeroed, and the thread continues at TRAPVEC. With TRAPVEC 0, two frames held, no trap area, or a frame
write that faults, the trap ends the context with TRAP_UNHANDLED (R278). -/
def State.takeTrap (s : State) (co k : Nat) (z : Cause) : State :=
  let s := s.drainPends co k
  match find? s.cohorts co with
  | none => s
  | some c =>
    match c.thread? k, s.ctx? c.ctx with
    | none, _ => s
    | some _, none => s
    | some t, some x =>
      let slot := t.frames.length
      match s.frameAddr c k slot with
      | none => s.endContext c.ctx 0x03
      | some a =>
        if x.trapvec = 0 ∨ 2 ≤ slot then s.endContext c.ctx 0x03
        else
          match s.writeFrame c a (s.frameBytes co c t z) with
          | (false, s) => s.endContext c.ctx 0x03
          | (true, s) =>
            let saved := t.divs.filterMap fun id => (find? c.divs id).map fun e => (id, e.join, e.mask)
            let s := s.trapEvent c z
            s.modThread co k fun t => { t with
              pc := x.trapvec, mode := t.mode ||| 0x8000, loops := [], divs := [], ovf := 0, wbase := 0, latched := []
              land := false, due := none, frames := t.frames ++ [⟨slot, saved, z.edge, t.ovf⟩] }

/-- Traps of several threads of one issue; those that go on are one group (R239). -/
def State.takeTraps (s : State) (co g : Nat) (zs : List (Nat × Cause)) : State :=
  let s := zs.foldl (fun s z => s.takeTrap co z.1 z.2) s
  if zs.isEmpty then s
  else
    match find? s.cohorts co with
    | none => s
    | some _ => s.settle co g (zs.map Prod.fst)

/-- An issue: the selected group, its threads in lane order, and the instruction's address and words. -/
structure Issue where
  co    : Nat
  g     : Nat
  ci    : Nat
  ctx   : Nat
  ts    : List Nat
  pc    : DWord
  words : List Word
  deriving DecidableEq, Repr

/-- The issue that an instruction's meaning acts for. -/
def State.issue? (s : State) (i : Instr) : Option Issue :=
  s.sel.bind fun (co, g) => (find? s.cohorts co).bind fun c =>
    match c.members g with
    | [] => none
    | k :: ks => (c.thread? k).map fun t => ⟨co, g, c.ci, c.ctx, k :: ks, t.pc, encode i⟩

/-- Bytes of the instruction. -/
def Issue.len (x : Issue) : Nat := 4 * x.words.length

/-- The instruction begins with a prefix (R13). -/
def Issue.prefixed (x : Issue) : Bool := match x.words with
  | w :: _ :: _ => w.extractLsb' 30 2 == 2#2
  | _ => false

/-- The faulting word of a trap of this instruction (R366). -/
def Issue.fw (x : Issue) : Word := if x.prefixed then nth x.words 1 0 else nth x.words 0 0

/-- The prefix word of a trap of this instruction (R366). -/
def Issue.pw (x : Issue) : Word := if x.prefixed then nth x.words 0 0 else 0

/-- A trap of this instruction with a faulting data address. -/
def Issue.cause (x : Issue) (t : Trap) (addr : Nat) : Cause := ⟨t, addr, x.pc, x.fw, x.pw, none⟩

/-- A cohort the issue is of. -/
def State.coh (s : State) (x : Issue) : Option Cohort := find? s.cohorts x.co

/-- Threads that completed the instruction without a transfer go on after it (R98). -/
def State.retire (s : State) (x : Issue) (ks : List Nat) : State :=
  (s.modThreads x.co ks fun _ t => t.advance x.len).settle x.co x.g ks

/-- The end of an issue: the threads that completed go on, and the others' traps are taken. -/
def State.close (s : State) (x : Issue) (done : List Nat) (zs : List (Nat × Cause)) : State :=
  let s := if done.isEmpty then s else s.retire x done
  s.takeTraps x.co x.g zs

/-- Every thread of the group takes one trap (R45 steps 1 to 4). -/
def State.trapAll (s : State) (x : Issue) (t : Trap) : State :=
  s.takeTraps x.co x.g (x.ts.map fun k => (k, x.cause t 0))

/-- Threads wait in a way that holds their instruction (R239); the rest of the group is unchanged. -/
def State.wait (s : State) (x : Issue) (ks : List Nat) (r : Nat → Run) : State :=
  (s.modThreads x.co ks fun k t => { t with run := r k }).modCohort x.co Cohort.tidy

/-- A PAGE_FAULT of a thread's access (R297): it parks, or its context ends. -/
def State.parkOnPage (s : State) (x : Issue) (k va : Nat) (need : Need) (agent : Agent) (level : Nat) : State :=
  let r := s.pageFault x.ctx va need agent level (dieOf x.ci)
  if r.1 then r.2.wait x [k] fun _ => .faulted x.g (va / 2 ^ 12) else r.2

/-- The check of R24 on a transfer's target: the trap with the target word, whether the word could not be
read, or nothing. -/
inductive TargetCheck where
  | ok
  | unread
  | bad (t : Trap) (w : Word)
  deriving DecidableEq, Repr

/-- KIND of a word (R13). -/
def wordKind (w : Word) : Nat := (w.extractLsb' 30 2).toNat

/-- `CheckTarget` (R24); `first` asks for step 1 only (R97). DESIGN CHOICE (log entry 20): the target word that the frame of a
misaligned target shows is the word at the target rounded down to 4, and 0 where that cannot be read. -/
def State.checkTarget (s : State) (ci ctx : Nat) (a : DWord) (first : Bool) : TargetCheck × State :=
  match s.fetchAt ci ctx (a.toNat / 4 * 4) with
  | (.word w, s) =>
    if a.toNat % 4 ≠ 0 ∨ wordKind w = 3 then (.bad .misalignedTarget w, s)
    else if first then (.ok, s)
    else
      match s.fetchAt ci ctx (a - 4).toNat with
      | (.word p, s) => (if wordKind p = 2 then .bad .orphanPrefix w else .ok, s)
      | (_, s) => (.ok, s)
  | (_, s) => if a.toNat % 4 ≠ 0 then (.bad .misalignedTarget 0, s) else (.unread, s)

/-- The cause of a landing trap (R24, R366). -/
def landCause (a : DWord) (t : Trap) (w : Word) : Cause := ⟨t, 0, a, w, 0, none⟩

/-- Linear indices of a cohort: first and one past the last (R285). -/
def Grid.range (g : Grid) (coh : Nat) : Nat × Nat :=
  (coh * g.record.cohsz, min ((coh + 1) * g.record.cohsz) g.total)

/-- The components of a linear index (R285). -/
def Grid.comps (g : Grid) (n : Nat) : List Nat :=
  let e0 := nth g.extents 0 1
  let e1 := nth g.extents 1 1
  [n % e0, n / e0 % e1, n / (e0 * e1)]

/-- A padding index (R285). -/
def Grid.padding (g : Grid) (n : Nat) : Bool :=
  let c := g.comps n
  nth g.record.shape 0 0 ≤ nth c 0 0 || nth g.record.shape 1 0 ≤ nth c 1 0 || nth g.record.shape 2 0 ≤ nth c 2 0

/-- The virtual address of the byte of an index in a role's bitmap (R291). -/
def Grid.bitAddr (g : Grid) (role n : Nat) : Nat :=
  (g.record.bmap.toNat + role * ((g.total + 1023) / 1024 * 128) + n / 8) % 2 ^ 64

/-- What became of a write the launcher makes in a context (R284, R291). -/
inductive HubDone where
  | ok
  /-- A replayable PAGE_FAULT: its page's faults are outstanding. -/
  | parked (page : Nat)
  /-- The context has ended. -/
  | ended
  deriving DecidableEq, Repr

/-- The launcher is parked on a page of a context: it goes on when the page's faults are answered (R297). -/
def State.launcherWaits (s : State) (ctx va : Nat) : Bool := s.lch.parked.contains (ctx, va / 2 ^ 12)

/-- A replayable PAGE_FAULT parks the launcher (R284, R291, R297). -/
def State.launcherParks (s : State) (ctx va : Nat) (need : Need) (level : Nat) : State :=
  let s := s.postFault ctx va need .launcher level 0
  { s with lch := { s.lch with parked := (ctx, va / 2 ^ 12) :: s.lch.parked } }

/-- A run of bytes the launcher writes in a context: a replayable PAGE_FAULT is serviced first, any other
fault ends the context with RECORD_FAULT (R284, R291), a page of another world with its record (R337). `f` gives the
bytes; with `rmw`, from the bytes that stand, which are read. -/
def State.launcherWrite (s : State) (ctx va k : Nat) (rmw : Bool) (f : List Byte → List Byte) : HubDone × State :=
  if s.launcherWaits ctx va then (.parked (va / 2 ^ 12), s)
  else
    match s.translateHub ctx va Need.write with
    | (.error (.page l), s) =>
      match s.ctx? ctx with
      | some x => if x.replay && x.live then (.parked (va / 2 ^ 12), s.launcherParks ctx va Need.write l)
          else (.ended, s.endContext ctx 0x06)
      | none => (.ended, s)
    | (.error (.trap _), s) => (.ended, s.endContext ctx 0x06)
    | (.ok p, s) =>
      if !s.worldOk ctx p.world then (.ended, (s.postHubWorld p.world).endContext ctx 0x06)
      else
        match (if rmw then s.readPhys p.world p.pa k else (.ok [], s)) with
        | (.error _, s) => (.ended, s.endContext ctx 0x06)
        | (.ok old, s) =>
          match (s.recall hostAgent (p.pa / 128)).writePhys p.world p.pa (f old) with
          | (some _, s) => (.ended, s.endContext ctx 0x06)
          | (none, s) => (.ok, s)

/-- Records an index as completed in a role's bitmap (R291). -/
def State.markIndex (s : State) (grid ctx role n : Nat) : HubDone × State :=
  match find? s.lch.grids grid with
  | none => (.ok, s)
  | some g =>
    s.launcherWrite ctx (g.bitAddr role n) 1 true fun bs =>
      bs.map fun b => b ||| BitVec.ofNat 8 (2 ^ (n % 8))

/-- An index is recorded as completed (R291): the bit as a read of it finds it; a bitmap that cannot be read ends the
context. -/
def State.indexDone (s : State) (grid ctx role n : Nat) : Bool × State :=
  match find? s.lch.grids grid with
  | none => (false, s)
  | some g =>
    match s.translateHub ctx (g.bitAddr role n) Need.nothing with
    | (.error _, s) => (false, s)
    | (.ok p, s) =>
      match s.readPhys p.world p.pa 1 with
      | (.ok bs, s) => (bit (ofBytes bs) (n % 8), s)
      | (.error _, s) => (false, s.endContext ctx 0x06)

end Sys2Proof.Machine
end

