-- ==== Sys2Proof/Machine/Access.lean ====
section
/-!
DEFINITION. One access of a thread to memory or scratchpad, with the checks of R142 in their order.
-/

namespace Sys2Proof.Machine

/-- What an access gives. -/
inductive Acc (α : Type) where
  | ok (a : α)
  | trap (t : Trap)
  /-- PAGE_FAULT, with the level whose entry had V = 0. -/
  | page (level : Nat)
  deriving DecidableEq, Repr

/-- Translation, permission and world of a thread's access (R142 steps 3 and 4). -/
def State.placeOf (s : State) (ci ctx ea : Nat) (need : Need) : Acc Place × State :=
  match s.translate ci ctx ea need with
  | (.error (.page l), s) => (.page l, s)
  | (.error (.trap t), s) => (.trap t, s)
  | (.ok p, s) => if s.worldOk ctx p.world then (.ok p, s) else (.trap .worldFault, s.postWorld ci p.world)

/-- The copies of a line of an NC-cacheable host page that a cluster's loads may hit, its L1's and its die's. -/
def State.ncCopy (s : State) (ci w n : Nat) : Option (List Byte) :=
  (find? (s.cluster ci).nc (16 * n + w)).or (find? (s.die (dieOf ci)).nc (16 * n + w))

/-- Lines of a cluster's L1: 256 KiB (R249). -/
def l1Lines : Nat := 2048

/-- A line of an NC-cacheable host page is read from the host: the copies there are show it, and it is copied on the way
into the die's cache where `rdc` holds and into the L1 where `l1` holds (R139, R153, R252). -/
def State.ncFill (s : State) (ci w n : Nat) (rdc l1 : Bool) : State :=
  let d := dieOf ci
  let key := 16 * n + w
  let bs := s.mem.getBytes (128 * n) 128
  let s := (s.modDie d fun x => { x with nc := modify x.nc key fun _ => bs }).modCluster ci fun c =>
    { c with nc := modify c.nc key fun _ => bs }
  let s := if rdc then (s.fillRdc d n w).modDie d fun x =>
      if x.rdc.contains (n, w) then { x with nc := insert x.nc key bs } else x
    else s
  if l1 && (find? (s.cluster ci).nc key).isNone then
    let r := s.fillCopy l1Lines (s.cluster ci).nc key bs
    r.2.modCluster ci fun c => { c with nc := r.1 }
  else s

/-- A load from an NC-cacheable host page (R148): a copy may serve it, or the host. A read that the L1 does not serve is
counted at the die's cache (R252). -/
def State.ncLoad (s : State) (ci w pa k cl : Nat) : List Byte × State :=
  let n := pa / 128
  let host (s : State) : List Byte × State :=
    (s.mem.getBytes pa k, (s.bump .cxbRdcMiss (dieOf ci) 1).ncFill ci w n (cl != 3) (cl != 3))
  match s.ncCopy ci w n with
  | none => host s
  | some bs =>
    let c := s.choose 2
    if c.1 ≠ 0 then host c.2
    else
      ((bs.drop (pa % 128)).take k,
        if (find? (s.cluster ci).nc (16 * n + w)).isSome then c.2 else c.2.bump .cxbRdcHit (dieOf ci) 1)

/-- A write of a cluster's agent to a line of a host page shows in the copies of its L1 and its die (R148, R252). -/
def State.ncStore (s : State) (ci pa : Nat) (bs : List Byte) : State :=
  let put (key : Nat) (l : List Byte) : List Byte :=
    if key / 16 = pa / 128 then l.take (pa % 128) ++ bs ++ l.drop (pa % 128 + bs.length) else l
  if !isHost pa then s
  else
    let s := s.modDie (dieOf ci) fun x => { x with nc := mapVals x.nc put }
    s.modCluster ci fun c => { c with nc := mapVals c.nc put }

/-- The copies of a line of a host page that a cluster's L1 and its die's cache hold are dropped (R153). -/
def State.dropCopies (s : State) (ci n : Nat) : State :=
  let other (key : Nat) (_ : List Byte) : Bool := key / 16 != n
  (s.modDie (dieOf ci) fun d => { d with rdc := d.rdc.filter fun e => e.1 != n, nc := filterMap d.nc other }).modCluster ci
    fun c => { c with nc := filterMap c.nc other }

/-- A load of `k` bytes from memory (R142 steps 2, 3, 4 and 6). -/
def State.loadMem (s : State) (ci ctx ea k cl : Nat) : Acc Nat × State :=
  if ea % k ≠ 0 then (.trap .alignFault, s)
  else
    match s.placeOf ci ctx ea Need.read with
    | (.page l, s) => (.page l, s)
    | (.trap t, s) => (.trap t, s)
    | (.ok p, s) =>
      if p.attr = 2 then
        if (s.line (p.pa / 128)).poison then (.trap .poison, s) else
        let r := s.ncLoad ci p.world p.pa k cl
        (.ok (ofBytes r.1), r.2)
      else
      let s := (s.countRdc (dieOf ci) p.pa p.world p.attr cl).recall ci (p.pa / 128)
      match s.readPhys p.world p.pa k with
      | (.error t, s) => (.trap t, s)
      | (.ok bs, s) => (.ok (ofBytes bs), s)

/-- A store of `k` bytes to memory (R142, R367). -/
def State.storeMem (s : State) (ci ctx ea k v : Nat) : Acc Unit × State :=
  if ea % k ≠ 0 then (.trap .alignFault, s)
  else
    match s.placeOf ci ctx ea Need.write with
    | (.page l, s) => (.page l, s)
    | (.trap t, s) => (.trap t, s)
    | (.ok p, s) =>
      match (s.recall ci (p.pa / 128)).writePhys p.world p.pa (toBytes v k) with
      | (some t, s) => (.trap t, s)
      | (none, s) => (.ok (), s.ncStore ci p.pa (toBytes v k))

/-- A load of `k` bytes from scratchpad (R142 steps 2, 5 and 6). -/
def State.loadSpad (s : State) (c : Cohort) (ea k : Nat) : Acc Nat × State :=
  match c.spadCheck ea k false with
  | some t => (.trap t, s)
  | none =>
    (if s.spadPoisoned c ea then .trap .poison else .ok (ofBytes (s.spadGet c ea k)), s.touchSpad c ea k)

/-- A store of `k` bytes to scratchpad (R142 steps 2 and 5). -/
def State.storeSpad (s : State) (co : Nat) (c : Cohort) (ea k v : Nat) : Acc Unit × State :=
  match c.spadCheck ea k true with
  | some t => (.trap t, s)
  | none => (.ok (), s.spadPut co ea (toBytes v k))

/-- What stands at an address of memory, for a read that a store does not precede (R170). -/
def State.oldBytes (s : State) (p : Place) (k : Nat) : List Byte :=
  match (s.readPhys p.world p.pa k).1 with
  | .ok bs => bs
  | .error _ => []

/-- A store of an issue has replaced bytes of memory (R170). -/
def State.noteStore (s before : State) (x : Issue) (p : Place) (bs : List Byte) : State :=
  s.noteStale ⟨x.co, x.ts, false, p.pa, before.oldBytes p bs.length⟩ bs

/-- A load by a thread of an issue. -/
def State.load (s : State) (x : Issue) (sp : Bool) (ea k cl : Nat) : Acc Nat × State :=
  if sp then
    match find? s.cohorts x.co with
    | none => (.trap .accessFault, s)
    | some c => s.loadSpad c ea k
  else s.loadMem x.ci x.ctx ea k cl

/-- A store by a thread of an issue. -/
def State.store (s : State) (x : Issue) (sp : Bool) (ea k v : Nat) : Acc Unit × State :=
  if sp then
    match find? s.cohorts x.co with
    | none => (.trap .accessFault, s)
    | some c =>
      match s.storeSpad x.co c ea k v with
      | (.ok (), t) => (.ok (), t.noteStale ⟨x.co, x.ts, true, ea, s.spadGet c ea k⟩ (toBytes v k))
      | r => r
  else
    match s.storeMem x.ci x.ctx ea k v with
    | (.ok (), t) =>
      match (t.translate x.ci x.ctx ea Need.write).1 with
      | .ok p => (.ok (), t.noteStore s x p (toBytes v k))
      | .error _ => (.ok (), t)
    | r => r

/-- A write that a command left behind takes its place (R170): to scratchpad, or to memory. -/
def State.landOne (s : State) (l : Late) : State :=
  if l.sp then s.spadPut l.cohort l.pos l.bytes
  else (((s.recall l.ci (l.pos / 128)).writePhys l.world l.pos l.bytes).2).ncStore l.ci l.pos l.bytes

/-- The writes that a command left behind take their places in its own order, up to one of them (R170, R255). -/
def State.landLate (s : State) (id : Nat) : State :=
  match find? s.late id with
  | none => s
  | some l =>
    let mine (j : Nat) (e : Late) : Bool := e.serial == l.serial && decide (j ≤ id)
    ((s.late.filter fun e => mine e.1 e.2).map Prod.snd).foldl State.landOne
      { s with late := filterMap s.late fun j e => !mine j e }

/-- Every write that a command left behind takes its place where one of them overlaps what it is to read. -/
def State.landOwn (s : State) (serial : Nat) (sp : Bool) (pos k : Nat) : State :=
  let mine := s.late.filter fun e => e.2.serial == serial
  if mine.any fun e => e.2.sp == sp && decide (e.2.pos < pos + k ∧ pos < e.2.pos + e.2.bytes.length) then
    (keys mine).foldl State.landLate s
  else s

/-- An idempotent region holds the thread (R167, R288). -/
def Thread.idempotent (t : Thread) : Bool :=
  match t.region with
  | .entry => true
  | .inside _ drain _ => !drain

/-- A restarted thread still absorbs an arrival or signature (R290): `j` is a barrier, or 16 more than a
convergence register. -/
def State.absorbs (s : State) (co k j : Nat) : Bool :=
  ((s.thread? co k).map fun t => decide (0 < findD t.absorb j 0)).getD false

/-- One arrival or signature fewer is left to absorb. -/
def State.absorb (s : State) (co k j : Nat) : State :=
  s.modThread co k fun t => { t with absorb := insert t.absorb j (findD t.absorb j 0 - 1), acts := insert t.acts j (findD t.acts j 0 + 1) }

/-- An arrival or signature is counted since the region began (R290). -/
def State.tally (s : State) (co k j : Nat) : State :=
  s.modThread co k fun t => { t with acts := insert t.acts j (findD t.acts j 0 + 1) }

/-- What one lane's part of an instruction came to: done with a value, a trap with its faulting data
address, or parked on a page with what the access needed. -/
inductive Lane (α : Type) where
  | done (a : α)
  | trap (t : Trap) (addr : Nat)
  | page (va level : Nat) (need : Need)
  deriving DecidableEq, Repr

/-- A list in an order of the device's choice. -/
def State.permute {α : Type} (s : State) : Nat → List α → List α × State
  | 0, l => (l, s)
  | _, [] => ([], s)
  | n + 1, l =>
    let c := s.choose l.length
    match l[c.1]? with
    | none => (l, c.2)
    | some a =>
      let r := c.2.permute n (l.eraseIdx c.1)
      (a :: r.1, r.2)

/-- Lanes in the order in which their accesses take effect (R148): the device chooses it where two lanes
name one location. -/
def State.laneOrder {α : Type} (s : State) (l : List (Nat × Nat × α)) : List (Nat × Nat × α) × State :=
  if (l.map fun p => p.2.1).eraseDups.length = l.length then (l, s) else s.permute l.length l

/-- The part of an instruction that is done lane by lane, each lane seeing the effects of those before it. -/
def State.eachLane {α β : Type} (s : State) (f : State → Nat → α → Lane β × State) :
    List (Nat × α) → List (Nat × Lane β) × State
  | [] => ([], s)
  | (k, a) :: rest =>
    let r := f s k a
    let q := r.2.eachLane f rest
    ((k, r.1) :: q.1, q.2)

/-- The lanes that are done, with their values. -/
def doneLanes {β : Type} (l : List (Nat × Lane β)) : List (Nat × β) :=
  l.filterMap fun p => match p.2 with
    | .done b => some (p.1, b)
    | _ => none

/-- The causes of the lanes that trap. -/
def trapLanes {β : Type} (x : Issue) (l : List (Nat × Lane β)) : List (Nat × Cause) :=
  l.filterMap fun p => match p.2 with
    | .trap t a => some (p.1, x.cause t a)
    | _ => none

/-- The lanes that take a PAGE_FAULT park (R297). -/
def State.parkLanes {β : Type} (s : State) (x : Issue) (agent : Agent) (l : List (Nat × Lane β)) : State :=
  l.foldl (fun s p => match p.2 with
    | .page va level need => s.parkOnPage x p.1 va need agent level
    | _ => s) s

end Sys2Proof.Machine
end

