-- ==== Sys2Proof/Machine/Operands.lean ====
section
/-!
DEFINITION. Operands: which prefix fields and selectors an instruction accepts, the operand step of R45,
reading sources (R25 to R31) and writing destinations.
-/

namespace Sys2Proof.Machine

/-- The prefix fields an instruction accepts beside the guard (R21): RND, SAT, NF, the four operand fields
EA, EB, HA and HB, and TY. -/
structure Accept where
  rnd : Bool
  sat : Bool
  nf  : Bool
  ab  : Bool
  ty  : Bool
  deriving DecidableEq, Repr

/-- TY of a prefix. -/
def tyCode (p : Option Pfx) : Nat := match p with
  | some q => q.ty.toNat
  | none => 0

/-- SAT of a prefix. -/
def satOf (p : Option Pfx) : Bool := match p with
  | some q => q.sat
  | none => false

/-- NF of a prefix. -/
def nfOf (p : Option Pfx) : Bool := match p with
  | some q => q.nf
  | none => false

/-- A prefix sets a field its instruction does not accept (R21): ILLEGAL_OP. -/
def pfxIll (p : Option Pfx) (a : Accept) : Bool := match p with
  | some q => (!a.rnd && q.rnd != 0) || (!a.sat && q.sat) || (!a.nf && q.nf)
      || (!a.ab && (q.ea || q.eb || q.ha || q.hb)) || (!a.ty && q.ty != 0)
  | none => false

/-- A prefix holds a reserved value (R20, R21): RESERVED_FIELD. -/
def pfxRes (p : Option Pfx) : Bool := match p with
  | some q => q.rnd == 6 || q.rnd == 7 || (!q.ge && (q.gp != 0 || q.gn))
  | none => false

/-- A source operand: its selector, whether it is a 64-bit operand (R27), its operand width (R31), whether
an empty source traps (R22), and the value of `ext` where the instruction is of form I (R25). -/
structure Src where
  sel   : Sel
  wide  : Bool
  width : Nat
  pol   : Bool
  ext   : Option Nat
  deriving DecidableEq, Repr

/-- A destination operand; `ety` says how a 32-bit result extends into a scalar register (R28). -/
structure Dst where
  sel   : Sel
  wide  : Bool
  width : Nat
  ety   : Ety
  deriving DecidableEq, Repr

/-- A window slot (R25). -/
def isSlot (x : Sel) : Bool := x.toNat < 96
/-- A scalar register. -/
def isScalar (x : Sel) : Bool := 96 ≤ x.toNat && x.toNat < 112
/-- A queue register. -/
def isQueue (x : Sel) : Bool := 112 ≤ x.toNat && x.toNat < 120
/-- A stream port. -/
def isStream (x : Sel) : Bool := 120 ≤ x.toNat && x.toNat < 124

/-- A selector that a source may not be (R25, R27). -/
def Src.ill (o : Src) : Bool :=
  o.sel == 127 || (o.sel == 125 && o.ext.isNone) || (o.wide && isSlot o.sel && o.sel.toNat % 2 == 1)

/-- A selector that a destination may not be (R25, R27). -/
def Dst.ill (o : Dst) : Bool := 125 ≤ o.sel.toNat || (o.wide && isSlot o.sel && o.sel.toNat % 2 == 1)

/-- A source element operand of a type (R31). -/
def srcOf (t : Ety) (pol : Bool) (ext : Option (BitVec 30)) (x : Sel) : Src :=
  ⟨x, t.isPair, t.opWidth, pol, ext.map t.ext⟩

/-- A source that is always a single register (R31). -/
def srcWord (pol : Bool) (x : Sel) : Src := ⟨x, false, 32, pol, none⟩

/-- A destination element operand of a type. -/
def dstOf (t : Ety) (x : Sel) : Dst := ⟨x, t.isPair, t.opWidth, t⟩

/-- EA of a prefix. -/
def polA (p : Option Pfx) : Bool := match p with
  | some q => q.ea
  | none => false

/-- EB of a prefix. -/
def polB (p : Option Pfx) : Bool := match p with
  | some q => q.eb
  | none => false

/-- What the operand rules of an instruction are: what its prefix may set, its type (`none` where TY holds
a code that is not assigned), its operands, and its own ILLEGAL_OP and RESERVED_FIELD conditions. -/
structure Form where
  p    : Option Pfx
  acc  : Accept
  ty   : Option Ety
  srcs : List Src
  dst  : Option Dst
  ill  : Bool
  res  : Bool
  deriving DecidableEq, Repr

/-- The trap of R45 step 3 that an instruction raises in every thread of its group: ILLEGAL_OP, then
RESERVED_FIELD. -/
def Form.illegal (f : Form) : Option Trap :=
  if pfxIll f.p f.acc || f.ill || (f.srcs.any Src.ill) || (f.dst.map Dst.ill).getD false then some .illegalOp
  else if pfxRes f.p || f.ty.isNone || f.res then some .reservedField
  else none

/-- A thread is active under the guard (R20). -/
def guardOn (p : Option Pfx) (t : Thread) : Bool := match p with
  | some q => !q.ge || (t.preds.getLsbD q.gp.toNat != q.gn)
  | none => true

/-- The active threads of an issue. -/
def Cohort.active (c : Cohort) (x : Issue) (p : Option Pfx) : List Nat :=
  x.ts.filter fun k => ((c.thread? k).map (guardOn p)).getD false

/-- A register of a thread still awaits a result (R22). -/
def Cohort.isEmpty (c : Cohort) (k reg : Nat) : Bool :=
  c.pends.any fun p =>
    match p.2.dest with
    | .vreg r wide => (r == reg || (wide && r + 1 == reg)) && p.2.lanes.any fun l => l.1 == k
    | _ => false

/-- A thread awaits a result for a scalar register and issues nothing (R22). -/
def Cohort.isHeld (c : Cohort) (k : Nat) : Bool :=
  c.pends.any fun p =>
    match p.2.dest with
    | .sreg _ _ => p.2.lanes.any fun l => l.1 == k
    | _ => false

/-- The register of a window slot for a thread (R25). -/
def Cohort.regOf (c : Cohort) (k : Nat) (x : Sel) : Nat := ((c.thread? k).map Thread.wbase).getD 0 + x.toNat

/-- A slot operand of a thread is empty. -/
def Cohort.slotEmpty (c : Cohort) (k : Nat) (x : Sel) (wide : Bool) : Bool :=
  isSlot x && (c.isEmpty k (c.regOf k x) || (wide && c.isEmpty k (c.regOf k x + 1)))

/-- A slot operand of a thread still awaits a sample of TIMER or CYCLES: a wait on the scoreboard, which is no empty
register (R216, R229). -/
def Cohort.slotBusy (c : Cohort) (k : Nat) (x : Sel) (wide : Bool) : Bool :=
  let samples (p : PKind) : Bool := match p with
    | .sample _ => true
    | _ => false
  ({ c with pends := filterMap c.pends fun _ p => samples p.kind }).slotEmpty k x wide

/-- The role of an issue's threads. -/
def roleOf (c : Cohort) (ks : List Nat) : Nat := ((ks.head?.bind c.thread?).map Thread.role).getD 0

/-- The threads belong to one role (R154). -/
def oneRole (c : Cohort) (ks : List Nat) : Bool :=
  ks.all fun k => ((c.thread? k).map Thread.role).getD 0 == roleOf c ks

/-- The threads replay an instruction whose queue and stream operands they consumed before (R164, R236). -/
def replaying (c : Cohort) (ks : List Nat) : Bool :=
  match ks with
  | [] => false
  | k :: _ => ((c.thread? k).map fun t => !t.latched.isEmpty).getD false

/-- How many of the sources before place `i` name a selector. -/
def usesBefore (srcs : List Src) (i : Nat) (x : Sel) : Nat :=
  ((srcs.take i).filter fun o => o.sel == x).foldl (fun n o => n + (if o.wide && isQueue x then 2 else 1)) 0

/-- A queue or stream operand is misused: unbound, of the wrong direction or width, or a stream at its
end (R31, R164). -/
def Form.misused (f : Form) (c : Cohort) (role : Nat) (replay : Bool) : Bool :=
  let badSrc (i : Nat) (o : Src) : Bool :=
    if isQueue o.sel then !replay && !((c.qbind? role (o.sel.toNat - 112)).map fun b => isPop b.kind).getD false
    else if isStream o.sel then
      match find? c.streams (4 * role + (o.sel.toNat - 120)) with
      | some st => st.write || ((tyInt st.ety).getD .b32).width != o.width
          || (!replay && st.count.toNat ≤ st.pos + 32 * usesBefore f.srcs i o.sel)
      | none => true
    else false
  let badDst : Bool := match f.dst with
    | none => false
    | some o =>
      if isQueue o.sel then !((c.qbind? role (o.sel.toNat - 112)).map fun b => isPush b.kind).getD false
      else if isStream o.sel then
        match find? c.streams (4 * role + (o.sel.toNat - 120)) with
        | some st => !st.write || ((tyInt st.ety).getD .b32).width != o.width || (!replay && st.count.toNat ≤ st.pos)
        | none => true
      else false
  ((List.range f.srcs.length).any fun i => match f.srcs[i]? with
    | some o => badSrc i o
    | none => false) || badDst

/-- An instruction names a queue register or a stream port. -/
def Form.ports (f : Form) : Bool :=
  (f.srcs.any fun o => isQueue o.sel || isStream o.sel) ||
    (f.dst.map fun o => isQueue o.sel || isStream o.sel).getD false

/-- The outcome of the empty check of a source for the active threads: wait, or the threads that take
EMPTY_READ. -/
inductive EmptyCheck where
  | wait
  | traps (ks : List Nat)
  deriving DecidableEq, Repr

/-- The empty check of source `i` (R22, R45 step 5). -/
def Form.emptyOf (f : Form) (s : State) (c : Cohort) (role i : Nat) (act : List Nat) (replay : Bool) : EmptyCheck :=
  match f.srcs[i]? with
  | none => .traps []
  | some o =>
    let es : List Nat :=
      if isQueue o.sel then
        if replay then []
        else
          match c.qbind? role (o.sel.toNat - 112) with
          | some b =>
            if (s.readyEntries c b).length < usesBefore f.srcs i o.sel + (if o.wide then 2 else 1) then act else []
          | none => []
      else act.filter fun k => c.slotEmpty k o.sel o.wide
    if es.isEmpty then .traps [] else if o.pol && !(es.any fun k => c.slotBusy k o.sel o.wide) then .traps es else .wait

/-- The empty checks of some sources in turn: A, then B; C always waits (R22). The threads that are left and the causes
of those that trap, or `none` where the group waits. -/
def Form.sift (f : Form) (s : State) (x : Issue) (c : Cohort) (role : Nat) (replay : Bool) (act : List Nat)
    (zs : List (Nat × Cause)) : List Nat → Option (List Nat × List (Nat × Cause))
  | [] => some (act, zs)
  | i :: is =>
    match f.emptyOf s c role i act replay with
    | .wait => none
    | .traps ks =>
      f.sift s x c role replay (act.filter fun k => !ks.contains k) (zs ++ ks.map fun k => (k, x.cause .emptyRead 0)) is

/-- A destination is still empty from an earlier instruction (R144). -/
def Form.dstEmpty (f : Form) (c : Cohort) (act : List Nat) : Bool :=
  match f.dst with
  | some o => act.any fun k => c.slotEmpty k o.sel o.wide
  | none => false

/-- Threads that may not write a scalar destination (R25). -/
def Form.barred (f : Form) (c : Cohort) (act : List Nat) : List Nat :=
  if (f.dst.map fun o => isScalar o.sel).getD false && c.phase != .prologue then
    act.filter fun k => ((c.thread? k).map Thread.role).getD 0 != 0
  else []

/-- What a push to a queue destination waits for where it finds no slot (R159). -/
def Form.pushWait (f : Form) (role : Nat) (act : List Nat) : PushWait :=
  match f.dst with
  | some o => .slot (8 * role + (o.sel.toNat - 112)) (if o.wide then 2 else 1) (act.head?.getD 0 / 32)
  | none => .unit 0

/-- A queue destination has no slot for what the issue pushes (R159). -/
def Form.full (f : Form) (s : State) (x : Issue) (c : Cohort) (role : Nat) (act : List Nat) : Bool :=
  match f.dst with
  | some o =>
    isQueue o.sel &&
      match c.qbind? role (o.sel.toNat - 112) with
      | some b => s.pushFree x.co (8 * role + (o.sel.toNat - 112)) (act.head?.getD 0 / 32) b < (if o.wide then 2 else 1)
      | none => false
  | none => false

/-- A push of a group has waited longer than CLU_QSTALL_LIM (R159). -/
def State.stallDue (s : State) (co g : Nat) : Bool :=
  match find? s.cohorts co with
  | none => false
  | some c =>
    let lim := (s.cluster c.ci).qstall.toNat
    match (find? c.groups g).bind Group.since with
    | some w => lim != 0 && decide (lim < s.timer - w.1)
    | none => false

/-- A push of a group waits for `w`, since it began to wait (R159). -/
def State.beginWait (s : State) (x : Issue) (w : PushWait) : State :=
  s.modCohort x.co fun c =>
    { c with groups := modify c.groups x.g fun g => { g with since := some ((g.since.map Prod.fst).getD s.timer, w) } }

/-- The named-tile requests of a binding that have not completed (R183). -/
def State.wantsOut (s : State) (co role q serial : Nat) : Nat :=
  (s.names.wants.filter fun p => p.2.cohort == co && p.2.role == role && p.2.q == q && p.2.serial == serial).length

/-- Entries of a load-completion binding (R146). -/
def loadEntries : Nat := 16

/-- What a push waits for has come (R159): no binding, no wait. -/
def State.pushOpen (s : State) (co : Nat) (c : Cohort) : PushWait → Bool
  | .slot key n crew => ((find? c.queues key).map fun b => decide (n ≤ s.pushFree co key crew b)).getD true
  | .loads key n => ((find? c.queues key).map fun b => decide (b.entries.length + n ≤ loadEntries)).getD true
  | .request role q => ((c.qbind? role q).map fun b => decide (s.wantsOut co role q b.serial < 16)).getD true
  | .unit sp => decide ((nth (s.cluster c.ci).mxu sp []).length < 4)

/-- A push waits (R159): QUEUE_STALL in the pushing threads once the limit has passed; `zs` are traps that
others of the group take, which do not wait. -/
def State.pushWaits (s : State) (x : Issue) (w : PushWait) (act : List Nat) (zs : List (Nat × Cause)) : State :=
  if s.stallDue x.co x.g then
    let off := x.ts.filter fun k => !act.contains k && !(zs.any fun z => z.1 == k)
    s.close x off (zs ++ act.map fun k => (k, x.cause .queueStall 0))
  else (s.beginWait x w).takeTraps x.co x.g zs

/-- What an issue consumed for one source: the lanes of a queue entry (two for a 64-bit operand), the
position of a stream, or nothing. -/
inductive Taken where
  | none
  | lanes (lo hi : Lanes)
  | at (pos : Nat)
  deriving DecidableEq, Repr

/-- Trap of a request entry's CODE (R183). -/
def codeTrap (n : Nat) : Trap := if n = 0x1A then .interestExpired else .neverProduced

/-- Reading a queue register is a source of the instruction. -/
def Form.pops (f : Form) : Bool := f.srcs.any fun o => isQueue o.sel

/-- What an issue takes for its source `i` (R31): the sources before it have taken theirs. -/
def State.takenAt (s : State) (c : Cohort) (role : Nat) (srcs : List Src) (i : Nat) (o : Src) : Taken :=
  let n := usesBefore srcs i o.sel
  if isQueue o.sel then
    let es := ((c.qbind? role (o.sel.toNat - 112)).map (s.readyEntries c)).getD []
    .lanes (nth es n []) (if o.wide then nth es (n + 1) [] else [])
  else if isStream o.sel then .at (((find? c.streams (4 * role + (o.sel.toNat - 120))).map Stream.pos).getD 0 + 32 * n)
  else .none

/-- What an issue takes for each of its sources, in the order A, B, C, destination (R31). -/
def State.takenAll (s : State) (c : Cohort) (role : Nat) (srcs : List Src) : List Taken :=
  (List.range srcs.length).filterMap fun i => (srcs[i]?).map (s.takenAt c role srcs i)

/-- The CODE that an entry of a request binding raises in the threads that pop it (R183). -/
def Taken.code (b : Option QBind) : Taken → Option Nat
  | .lanes e _ =>
    let n := bits (nth e 0 0).toNat 8 8
    if ((b.map fun b => b.kind == 7 && b.trapq).getD false) && n != 0 then some n else Option.none
  | _ => Option.none

/-- The first CODE that the entries an issue takes raise. -/
def State.takenCode (s : State) (c : Cohort) (role : Nat) (srcs : List Src) : Option Nat :=
  (List.range srcs.length).findSome? fun i =>
    (srcs[i]?).bind fun o => if isQueue o.sel then (s.takenAt c role srcs i o).code (c.qbind? role (o.sel.toNat - 112)) else none

/-- The positions of the stream ports that an issue names move on (R164). -/
def Cohort.moveStreams (c : Cohort) (role : Nat) (ops : List Src) : Cohort :=
  { c with streams := ops.foldl (fun m o =>
      if isStream o.sel then modify m (4 * role + (o.sel.toNat - 120)) fun st => { st with pos := st.pos + 32 } else m) c.streams }

/-- The entries that an issue takes leave their queues (R31). -/
def State.popSources (s : State) (x : Issue) (role : Nat) (srcs : List Src) : State :=
  srcs.foldl (fun s o =>
    if isQueue o.sel then
      let s := s.dropEntry x.co (8 * role + (o.sel.toNat - 112))
      if o.wide then s.dropEntry x.co (8 * role + (o.sel.toNat - 112)) else s
    else s) s

/-- Every one of some threads has trapped between two states. -/
def State.allTrapped (s t : State) (co : Nat) (ks : List Nat) : Bool :=
  ks.all fun k => match s.thread? co k, t.thread? co k with
    | some u, some v => u.frames.length < v.frames.length
    | _, _ => true

/-- The end of an issue that reads queues: `end_` from the state `t` that the operand step left. The entries leave
their queues, but for an issue of which every thread traps, since a trap leaves no effect on queues (R45). -/
def State.withPops (s t : State) (x : Issue) (c : Cohort) (f : Form) (act : List Nat) (end_ : State → State) : State :=
  let u := end_ t
  if f.pops && !replaying c act && !s.allTrapped u x.co act then end_ (t.popSources x (roleOf c act) f.srcs) else u

/-- What a lane keeps of a consumed operand, for a replay: the queue value, or the stream element. -/
def Taken.latch (t : Taken) (lane : Nat) : Option Nat :=
  match t with
  | .none => Option.none
  | .lanes lo hi => some ((nth lo lane 0).toNat + 2 ^ 32 * (nth hi lane 0).toNat)
  | .at pos => some (pos + lane)

/-- Byte address of an element of a stream (R164). -/
def Stream.addr (st : Stream) (e : Nat) : Nat :=
  let off := (e % st.rowlen : Nat) * st.estride.toInt + (e / st.rowlen : Nat) * st.rstride.toInt
  wrapNat (if st.sp then 32 else 64) (st.base.toNat + off)

/-- Element type of a stream. -/
def Stream.elem (st : Stream) : Ety := (tyInt st.ety).getD .b32

/-- A lane reads its element of a stream (R164). -/
def State.streamRead (s : State) (x : Issue) (key e : Nat) : Lane Nat × State :=
  match (find? s.cohorts x.co).bind fun c => find? c.streams key with
  | none => (.trap .accessFault 0, s)
  | some st =>
    if st.count.toNat ≤ e then (.done 0, s)
    else
      let a := st.addr e
      match s.load x st.sp a (st.elem.width / 8) 0 with
      | (.ok v, s) => (.done (if st.elem.isPair then v else st.elem.toReg v), s)
      | (.trap t, s) => (.trap t a, s)
      | (.page l, s) => (.page a l Need.read, s)

/-- A lane writes its element of a stream (R164). -/
def State.streamWrite (s : State) (x : Issue) (key e v : Nat) : Lane Unit × State :=
  match (find? s.cohorts x.co).bind fun c => find? c.streams key with
  | none => (.trap .accessFault 0, s)
  | some st =>
    if st.count.toNat ≤ e then (.done (), s)
    else
      let a := st.addr e
      match s.store x st.sp a (st.elem.width / 8) v with
      | (.ok (), s) => (.done (), s)
      | (.trap t, s) => (.trap t a, s)
      | (.page l, s) => (.page a l Need.write, s)

/-- A scalar register (R27, R28). -/
def Cohort.scalar (c : Cohort) (n : Nat) : Nat := (findD c.s n 0).toNat

/-- The value of a source that no binding supplies, as a thread reads it, and whether a lane word of it is
poisoned (R25, R27, R28). -/
def Cohort.plain (c : Cohort) (k : Nat) (o : Src) : Nat × Bool :=
  if isSlot o.sel then
    let r := c.regOf k o.sel
    let a := c.vreg k r
    if o.wide then
      let b := c.vreg k (r + 1)
      (a.1.toNat + 2 ^ 32 * b.1.toNat, a.2 || b.2)
    else (a.1.toNat, a.2)
  else if isScalar o.sel then
    let v := c.scalar (o.sel.toNat - 96)
    (if o.wide then v else v % 2 ^ 32, false)
  else if o.sel = 125 then (o.ext.getD 0, false)
  else if o.sel = 126 then (k % 32, false)
  else (0, false)

/-- The place of each source among those that are consumed: what a lane latched for source `i`. -/
def latchedAt (srcs : List Src) (t : Thread) (i : Nat) : Nat :=
  nth t.latched ((srcs.take i).filter fun o => isQueue o.sel || isStream o.sel).length 0

/-- A lane's source values, read in order (R31); the first that fails ends it. -/
def State.readSrcs (s : State) (x : Issue) (role k : Nat) (all : List Src) (i : Nat) : List Src → Lane (List Nat) × State
  | [] => (.done [], s)
  | o :: os =>
    match (find? s.cohorts x.co).bind fun c => (c.thread? k).map fun t => (c, t) with
    | none => (.done [], s)
    | some (c, t) =>
      let r : Lane Nat × State :=
        if isQueue o.sel then (.done (latchedAt all t i), s)
        else if isStream o.sel then s.streamRead x (4 * role + (o.sel.toNat - 120)) (latchedAt all t i)
        else
          let v := c.plain k o
          (if v.2 then .trap .poison 0 else .done v.1, s)
      match r with
      | (.done v, s) =>
        match s.readSrcs x role k all (i + 1) os with
        | (.done vs, s) => (.done (v :: vs), s)
        | q => q
      | (.trap z a, s) => (.trap z a, s)
      | (.page a l n, s) => (.page a l n, s)

/-- The outcome of the operand step: the group waits; or the lanes that go on with their source values, and
the causes of those that trap. -/
inductive Got where
  | blocked (s : State)
  | lanes (s : State) (ls : List (Nat × List Nat)) (zs : List (Nat × Cause))

/-- Lanes of an issue that R167 stops before they consume or push. -/
def Form.violators (f : Form) (c : Cohort) (role : Nat) (act : List Nat) (replay : Bool) : List Nat :=
  let kindOf (x : Sel) : Nat := ((c.qbind? role (x.toNat - 112)).map QBind.kind).getD 0
  let once : Bool := (!replay && f.srcs.any fun o => isQueue o.sel && popOnce (kindOf o.sel)) ||
    (f.dst.map fun o => isQueue o.sel && pushOnce (kindOf o.sel)).getD false
  if once then act.filter fun k => ((c.thread? k).map Thread.idempotent).getD false else []

/-- What the checks before an issue takes its operands come to: the group waits; or the threads left, and the causes
of those that trap. -/
inductive Checked where
  | blocked (s : State)
  | pass (act : List Nat) (zs : List (Nat × Cause))

/-- The checks of R45 step 5, then REGION_VIOLATION, which comes before a push waits (R142, R159, R167). The sources `is`
are those whose emptiness counts; `push` where a push waits for its slot. -/
def State.checked (s : State) (x : Issue) (c : Cohort) (f : Form) (act is : List Nat) (push : Bool) : Checked :=
  let role := roleOf c act
  let replay := replaying c act
  if f.ports && (!oneRole c act || f.misused c role replay) then .pass [] (act.map fun k => (k, x.cause .accessFault 0))
  else
    let bad := f.barred c act
    let zs := bad.map fun k => (k, x.cause .templateWrite 0)
    match f.sift s x c role replay (act.filter fun k => !bad.contains k) zs is with
    | none => .blocked s
    | some (act, zs) =>
      if f.dstEmpty c act then .blocked s
      else
        let vs := f.violators c role act replay
        let left := act.filter fun k => !vs.contains k
        let zs := zs ++ vs.map fun k => (k, x.cause .regionViolation 0)
        if push && !left.isEmpty && f.full s x c role left then .blocked (s.pushWaits x (f.pushWait role left) left zs)
        else .pass left zs

/-- An issue has passed R45 steps 1 to 5: some thread has neither ACCESS_FAULT of a port, nor TEMPLATE_WRITE, nor
EMPTY_READ. -/
def pastStep5 (act : List Nat) (zs : List (Nat × Cause)) : Bool :=
  !act.isEmpty || zs.any fun z => z.2.trap == .regionViolation

/-- The operand step and the reading of sources (R45 step 5, then what reading raises). Stream ports move once the issue
has passed step 5 (R164); entries of queues are read here and leave at the end (`State.withPops`), but for those whose
CODE traps, which are consumed (R183). -/
def State.operands (s : State) (x : Issue) (f : Form) (act : List Nat) : Got :=
  match find? s.cohorts x.co with
  | none => .lanes s [] []
  | some c =>
    let role := roleOf c act
    let replay := replaying c act
    match s.checked x c f act (List.range f.srcs.length) true with
    | .blocked s => .blocked s
    | .pass act zs =>
      -- the destination's stream element is fixed with the sources'
      let ops := f.srcs ++ (match f.dst with
        | some o => if isStream o.sel then [⟨o.sel, false, o.width, false, none⟩] else []
        | none => [])
      let take := f.ports && !replay && pastStep5 act zs
      -- register words are checked before a value is taken: POISON (R357)
      let sick := act.filter fun k => f.srcs.any fun o => !isQueue o.sel && !isStream o.sel && (c.plain k o).2
      let act := act.filter fun k => !sick.contains k
      let zs := zs ++ sick.map fun k => (k, x.cause .poison 0)
      let t :=
        if take then (s.modCohort x.co fun c => c.moveStreams role ops).modThreads x.co act fun k t =>
          { t with latched := (s.takenAll c role ops).filterMap fun w => w.latch (k % 32) }
        else s
      match if take && !act.isEmpty then s.takenCode c role f.srcs else none with
      | some code => .lanes (t.popSources x role f.srcs) [] (zs ++ act.map fun k => (k, x.cause (codeTrap code) 0))
      | none =>
        let r := t.eachLane (fun s k (_ : Unit) => s.readSrcs x role k f.srcs 0 f.srcs) (act.map fun k => (k, ()))
        .lanes (r.2.parkLanes x .thread r.1) (doneLanes r.1) (zs ++ trapLanes x r.1)

/-- The crews of some threads, in order. -/
def crewsOf (ks : List Nat) : List Nat := (ks.map (· / 32)).eraseDups

/-- Registers of a slot destination of a thread (R27). -/
def Cohort.dstRegs (c : Cohort) (k : Nat) (o : Dst) : List Nat :=
  let r := c.regOf k o.sel
  if o.wide then [r, r + 1] else [r]

/-- COPY_EXHAUSTED (R192): every live lamb of the cohort is parked under COPY_FAULT. -/
def State.testExhausted (s : State) (co : Nat) : State :=
  match find? s.cohorts co with
  | none => s
  | some c =>
    let parked (t : Thread) : Bool := match t.run with
      | .parked .. => true
      | _ => false
    if c.phase = .flock ∧ !c.threads.isEmpty ∧ c.threads.all fun p => parked p.2 then s.endContext c.ctx 0x01 else s

/-- Threads of a crew that finds the pool empty are parked under COPY_FAULT (R192, R236). -/
def State.parkShort (s : State) (x : Issue) (ks : List Nat) : State :=
  let s := s.bump .cluCopyFault x.ci ks.length
  let s := s.wait x ks fun _ => .parked x.g s.fresh
  State.testExhausted { s with fresh := s.fresh + 1 } x.co

/-- Allocates the destination registers of some crews in turn: the threads that have theirs. -/
def State.allocCrews (s : State) (x : Issue) (o : Dst) (ks : List Nat) : List Nat → List Nat × State
  | [] => ([], s)
  | w :: ws =>
    let mine := ks.filter fun k => k / 32 == w
    match find? s.cohorts x.co with
    | none => ([], s)
    | some c =>
      let regs := (mine.flatMap fun k => c.dstRegs k o).eraseDups
      let level := ((mine.head?.bind c.thread?).map Thread.level).getD 1
      match s.allocRegs x.co w level regs with
      | some t =>
        let r := t.allocCrews x o ks ws
        (mine ++ r.1, r.2)
      | none => (s.parkShort x mine).allocCrews x o ks ws

/-- Allocates the destination registers that the threads' crews do not hold (R191). -/
def State.allocate (s : State) (x : Issue) (o : Dst) (ks : List Nat) : List Nat × State :=
  if !isSlot o.sel then (ks, s) else s.allocCrews x o ks (crewsOf ks)

/-- Writes a thread's slot destination. -/
def State.writeSlot (s : State) (x : Issue) (o : Dst) (k v : Nat) : State :=
  match find? s.cohorts x.co with
  | none => s
  | some c =>
    let r := c.regOf k o.sel
    let s := s.setLane x.co k r (BitVec.ofNat 32 v)
    if o.wide then s.setLane x.co k (r + 1) (BitVec.ofNat 32 (v / 2 ^ 32)) else s

/-- The 32 lanes of a queue write, with zero from inactive lanes (R158). -/
def laneWords (vs : List (Nat × Nat)) (half : Nat) : Lanes :=
  (List.range 32).map fun i => match vs.find? fun v => v.1 % 32 == i with
    | some v => BitVec.ofNat 32 (v.2 / 2 ^ (32 * half))
    | none => 0

/-- A record that a signal-class binding does not accept (R159). -/
def refusesPush (b : QBind) (ws : Lanes) : Bool := b.kind == 1 && b.sig && cmdOpc ws != 15

/-- Lanes whose values go to a stream port, in the order in which their accesses take effect (R148): the element of
each, and its value. -/
def State.streamOrder (s : State) (c : Cohort) (key : Nat) (vs : List (Nat × Nat)) : List (Nat × Nat × Nat) × State :=
  let elem (k : Nat) : Nat := ((c.thread? k).map fun t => t.latched.getLast?.getD 0).getD 0
  match find? c.streams key with
  | none => (vs.map fun v => (v.1, elem v.1, v.2), s)
  | some st =>
    let r := s.laneOrder (vs.map fun v => (v.1, st.addr (elem v.1), v.2))
    (r.1.map fun v => (v.1, elem v.1, v.2.2), r.2)

/-- The writes of some lanes' values to a stream port (R164). -/
def State.streamWrites (s : State) (x : Issue) (c : Cohort) (role : Nat) (o : Dst) (vs : List (Nat × Nat)) :
    List (Nat × Lane Unit) × State :=
  let key := 4 * role + (o.sel.toNat - 120)
  let q := s.streamOrder c key vs
  q.2.eachLane (fun s _ (v : Nat × Nat) => s.streamWrite x key v.1 v.2) q.1

/-- The lanes of which the destination would not take the value (R31, R159, R164), and why; nothing is done. -/
def State.dstStops (s : State) (x : Issue) (o : Dst) (vs : List (Nat × Nat)) : List (Nat × Lane Unit) :=
  match find? s.cohorts x.co with
  | none => []
  | some c =>
    let role := roleOf c (vs.map Prod.fst)
    if isQueue o.sel then
      if ((find? c.queues (8 * role + (o.sel.toNat - 112))).map fun b => refusesPush b (laneWords vs 0)).getD true then
        vs.map fun v => (v.1, .trap .accessFault 0)
      else []
    else if isStream o.sel then
      (s.streamWrites x c role o vs).1.filter fun r => match r.2 with
        | .done _ => false
        | _ => true
    else []

/-- Writes the values of the lanes that completed to the destination (R25, R28, R31, R191): the threads that
are done, and the causes of those that trap. -/
def State.writeDst (s : State) (x : Issue) (o : Dst) (vs : List (Nat × Nat)) : List Nat × List (Nat × Cause) × State :=
  match find? s.cohorts x.co with
  | none => ([], [], s)
  | some c =>
    let ks := vs.map Prod.fst
    if vs.isEmpty then ([], [], s)
    else if isSlot o.sel then
      let r := s.allocate x o ks
      (r.1, [], vs.foldl (fun s v => if r.1.contains v.1 then s.writeSlot x o v.1 v.2 else s) r.2)
    else if isScalar o.sel then
      let v := (vs.head?.map Prod.snd).getD 0
      (ks, [], s.modCohort x.co fun c => { c with s := insert c.s (o.sel.toNat - 96) (scalarExt o.wide o.ety v) })
    else if isQueue o.sel then
      let role := roleOf c ks
      let key := 8 * role + (o.sel.toNat - 112)
      match find? c.queues key with
      | none => ([], ks.map fun k => (k, x.cause .accessFault 0), s)
      | some b =>
        if refusesPush b (laneWords vs 0) then ([], ks.map fun k => (k, x.cause .accessFault 0), s)
        else
          let s := s.pushEntry x.co key b ks (laneWords vs 0)
          (ks, [], if o.wide then s.pushEntry x.co key b ks (laneWords vs 1) else s)
    else if isStream o.sel then
      let r := s.streamWrites x c (roleOf c ks) o vs
      (byLane ((doneLanes r.1).map Prod.fst), trapLanes x r.1, r.2.parkLanes x .thread r.1)
    else (ks, [], s)

end Sys2Proof.Machine
end

