-- ==== Sys2Proof/Machine/Flags.lean ====
section
/-!
DEFINITION. How the lanes' results leave an instruction: rounding mode, FTZ and trap enables of MODE, FLAGS
(R59 to R64), and the run of an instruction from its checks to its end.
-/

namespace Sys2Proof.Machine

/-- The rounding mode of a code of RND or MODE; a reserved code, which only a handler's frame can leave in
MODE, gives one of the five (log entry 26). -/
def modeOfCode (n : Nat) : Rnd :=
  match rndOf n with
  | some r => r
  | none => nth [.rne, .rtz, .rdn, .rup, .rna] (Config.freeChoice n % 5) .rne

/-- The rounding mode an instruction uses in a thread (R59). -/
def roundOf (p : Option Pfx) (t : Thread) : Rnd :=
  match p with
  | some q => if q.rnd = 0 then modeOfCode (bits t.mode.toNat 1 3) else modeOfCode q.rnd.toNat
  | none => modeOfCode (bits t.mode.toNat 1 3)

/-- FTZ of a thread's MODE (R62, R200). -/
def Thread.ftz (t : Thread) : Bool := t.mode.getLsbD 0

/-- The trap enables of a thread's MODE, in the layout of FLAGS (R200). -/
def Thread.enables (t : Thread) : Fl := t.mode.extractLsb' 10 5

/-- What an instruction does to a lane: a value for the destination, exceptions, a predicate. -/
structure LaneRes where
  val  : Nat
  fl   : Fl
  pred : Option (Nat × Bool)
  deriving DecidableEq, Repr

/-- A lane that only has a value. -/
def justVal (v : Nat) : Lane LaneRes := .done ⟨v, 0, none⟩

/-- A lane that only writes a predicate. -/
def justPred (q : Nat) (b : Bool) : Lane LaneRes := .done ⟨0, 0, some (q, b)⟩

/-- A floating-point result: FP_TRAP where an exception's trap is enabled (R61, R64). -/
def fpRes (t : Thread) (r : Nat × Fl) : Lane LaneRes :=
  if r.2 &&& t.enables ≠ 0 then .trap .fpTrap 0 else .done ⟨r.1, r.2, none⟩

/-- A floating-point predicate result (R111). -/
def fpPred (t : Thread) (q : Nat) (b : Bool) (fl : Fl) : Lane LaneRes :=
  if fl &&& t.enables ≠ 0 then .trap .fpTrap 0 else .done ⟨0, fl, some (q, b)⟩

/-- A predicate written. -/
def setPred (ps : BitVec 8) (q : Nat) (b : Bool) : BitVec 8 :=
  if b then ps ||| (1#8 <<< q) else ps &&& ~~~(1#8 <<< q)

/-- The predicate and flags a lane's result leaves (R64). -/
def Thread.note (nf : Bool) (r : LaneRes) (t : Thread) : Thread :=
  { t with
    preds := match r.pred with
      | some (q, b) => setPred t.preds q b
      | none => t.preds
    flags := if nf then t.flags else t.flags ||| r.fl }

/-- Instructions of a sub-partition in flight that take a slot of a kind (R78, R107). -/
def State.inFlight (s : State) (ci sp : Nat) (sfu : Bool) : Nat :=
  s.cohorts.foldl (fun n p =>
    if p.2.ci = ci then
      n + ((p.2.pends.filter fun q => q.2.sp == sp &&
        match q.2.kind with
        | .div => !sfu
        | .multi b => b == sfu
        | _ => false).map fun q => q.2.issue).eraseDups.length
    else n) 0

/-- What an instruction finds before its operand step. -/
inductive Pre where
  | go
  /-- Nothing further is done: the group waits, or the state given is the end. -/
  | hold (s : State)
  /-- Every active thread traps. -/
  | trap (t : Trap)

/-- An instruction from its checks to its end: nothing while a thread of the group is held by a scalar
result (R22); the traps of R45 step 3 in every thread; the guard (R20); `pre`, which may hold the group or
trap; the operand step; then what the instruction does with the lanes that have their operands. `rest`
receives the threads the guard left out and the causes of those that trapped. -/
def State.runPre (s : State) (i : Instr) (f : Form) (pre : State → Issue → Cohort → List Nat → Pre)
    (rest : State → Issue → List Nat → List (Nat × List Nat) → List (Nat × Cause) → State) :
    Host.Outcome State Fault Refusal :=
  .next (match s.issue? i with
    | none => s
    | some x =>
      match find? s.cohorts x.co with
      | none => s
      | some c =>
        if x.ts.any c.isHeld then s
        else
          match f.illegal with
          | some t => s.trapAll x t
          | none =>
            let act := c.active x f.p
            if act.isEmpty then s.retire x x.ts
            else
              let off := x.ts.filter fun k => !act.contains k
              match pre s x c act with
              | .hold s => s
              | .trap t => s.close x off (act.map fun k => (k, x.cause t 0))
              | .go =>
                match s.operands x f act with
                | .blocked s => s
                | .lanes t ls zs => s.withPops t x c f act fun t => rest t x off ls zs)

/-- `runPre` where the group can only be held. -/
def State.run (s : State) (i : Instr) (f : Form) (gate : State → Issue → Cohort → List Nat → Bool)
    (rest : State → Issue → List Nat → List (Nat × List Nat) → List (Nat × Cause) → State) :
    Host.Outcome State Fault Refusal :=
  s.runPre i f (fun s x c act => if gate s x c act then .hold s else .go) rest

/-- No gate. -/
def open_ (_ : State) (_ : Issue) (_ : Cohort) (_ : List Nat) : Bool := false

/-- The predicates and flags that lanes' results leave in their threads. -/
def State.noteLanes (s : State) (co : Nat) (f : Form) (ks : List Nat) (ok : List (Nat × LaneRes)) : State :=
  s.modThreads co ks fun k t =>
    match ok.find? fun p => p.1 == k with
    | some p => t.note (nfOf f.p) p.2
    | none => t

/-- The end of an instruction that writes its results at once: destination, predicates and flags. -/
def State.finish (s : State) (x : Issue) (f : Form) (off : List Nat) (zs : List (Nat × Cause))
    (rs : List (Nat × Lane LaneRes)) : State :=
  let ok := doneLanes rs
  let r : List Nat × List (Nat × Cause) × State := match f.dst with
    | none => (ok.map Prod.fst, [], s)
    | some o => s.writeDst x o (ok.map fun p => (p.1, p.2.val))
  let s := r.2.2.noteLanes x.co f r.1 ok
  s.close x (off ++ r.1) (zs ++ trapLanes x rs ++ r.2.1)

/-- Where a delayed result goes. -/
def pdestOf (c : Cohort) (k : Nat) (o : Dst) : PDest :=
  if isSlot o.sel then .vreg (c.regOf k o.sel) o.wide
  else if isScalar o.sel then .sreg (o.sel.toNat - 96) o.ety
  else .drop

/-- A delayed result becomes outstanding: one entry for each register that the lanes' windows name. -/
def State.addPends (s : State) (x : Issue) (kind : PKind) (o : Dst) (vs : List (Nat × Nat)) : State :=
  match find? s.cohorts x.co with
  | none => s
  | some c =>
    let dests := (vs.map fun v => pdestOf c v.1 o).eraseDups
    dests.foldl (fun s d =>
      s.modCohort x.co fun e =>
        let p : Pend := ⟨kind, d, (e.crewOf (x.ts.head?.getD 0)).sp, vs.filter fun v => pdestOf c v.1 o == d, c.fresh⟩
        { e with pends := insert e.pends e.fresh p, fresh := e.fresh + 1 }) s

/-- The end of an instruction whose result comes later (R22, R144): the destination is marked empty until
then, and FLAGS takes its exceptions at issue (log entry 35); one that cannot be empty is written at once. -/
def State.finishLater (s : State) (x : Issue) (f : Form) (kind : PKind) (off : List Nat) (zs : List (Nat × Cause))
    (rs : List (Nat × Lane LaneRes)) : State :=
  match f.dst with
  | some o =>
    if isSlot o.sel || isScalar o.sel then
      let ok := doneLanes rs
      let r := s.allocate x o (ok.map Prod.fst)
      let vs := (ok.filter fun p => r.1.contains p.1).map fun p => (p.1, p.2.val)
      let s := if vs.isEmpty then r.2 else r.2.addPends x kind o vs
      let s := s.noteLanes x.co f r.1 ok
      s.close x (off ++ r.1) (zs ++ trapLanes x rs)
    else s.finish x f off zs rs
  | none => s.finish x f off zs rs

/-- The end of a multi-cycle instruction (R78, R107): the destination is marked empty until the result is
written. Where a floating-point exception's trap is enabled, the thread is held until its result is ready (R107, of
groups 2 and 3: not `div` and `rem`), and a destination that cannot be empty is written at once. -/
def State.finishLong (s : State) (x : Issue) (f : Form) (kind : PKind) (off : List Nat) (zs : List (Nat × Cause))
    (rs : List (Nat × Lane LaneRes)) : State :=
  let precise := kind != .div &&
    (doneLanes rs).any fun p => ((s.thread? x.co p.1).map fun t => t.enables != 0).getD false
  if precise then s.finish x f off zs rs else s.finishLater x f kind off zs rs

/-- An instruction whose lanes work alone. -/
def State.runLanes (s : State) (i : Instr) (f : Form) (op : Thread → List Nat → Lane LaneRes) :
    Host.Outcome State Fault Refusal :=
  s.run i f open_ fun s x off ls zs =>
    s.finish x f off zs (ls.filterMap fun p => (s.thread? x.co p.1).map fun t => (p.1, op t p.2))

/-- A multi-cycle instruction whose lanes work alone; it waits at issue while its slots are taken. -/
def State.runLong (s : State) (i : Instr) (f : Form) (kind : PKind) (sfu : Bool) (op : Thread → List Nat → Lane LaneRes) :
    Host.Outcome State Fault Refusal :=
  s.run i f (fun s x c _ => (if sfu then 16 else 8) ≤ s.inFlight x.ci (c.crewOf (x.ts.head?.getD 0)).sp sfu)
    fun s x off ls zs =>
      s.finishLong x f kind off zs (ls.filterMap fun p => (s.thread? x.co p.1).map fun t => (p.1, op t p.2))

end Sys2Proof.Machine
end

