-- ==== Sys2Proof/Machine/Int.lean ====
section
/-!
DEFINITION. Integer and address instructions, group 0 (R73 to R81).
-/

namespace Sys2Proof.Machine

/-- The type of an instruction of groups 0, 1 and 4 (R23): `none` where TY holds a code that is not
assigned. -/
def gty (p : Option Pfx) (d : Ety) : Option Ety := if tyCode p = 0 then some d else tyInt (tyCode p)

/-- Bits of IMM that R30 requires to be zero are not, and `ext` is read. -/
def immRes (t : Ety) (imm : Option (BitVec 30)) (ss : List Sel) : Bool :=
  match imm with
  | some m => ss.contains 125 && !t.extOk m
  | none => false

/-- The prefix fields of groups 0 and 1 (R73). -/
def accInt (sat : Bool) : Accept := ⟨false, sat, false, true, true⟩

/-- The operand rules of an instruction of groups 0 and 1 of a type: default type, types accepted, types
that accept SAT. -/
def intForm (p : Option Pfx) (d : Ety) (ok sat : Ety → Bool) (srcs : Ety → List Src) (dst : Ety → Option Dst)
    (ill res : Ety → Bool) : Form :=
  let t := (gty p d).getD d
  ⟨p, accInt (sat t), gty p d, srcs t, dst t, ((gty p d).map fun t => !ok t).getD false || ill t, res t⟩

/-- Types s8 to s64 and n8 to n64. -/
def isSN (t : Ety) : Bool := t.isS || t.isN
/-- Types s8 to s64, n8 to n64, b32 and b64. -/
def isSNB (t : Ety) : Bool := t.isS || t.isN || t.isB
/-- Types s32, n32, s64 and n64. -/
def isSN32 (t : Ety) : Bool := t == .s32 || t == .n32 || t == .s64 || t == .n64
/-- No type. -/
def noTy (_ : Ety) : Bool := false

/-- `Reduce(x, type)` as the register takes it (R63, R74). -/
def reduce (t : Ety) (sat : Bool) (x : Int) : Nat := t.toReg (if sat then t.sat x else t.wrap x)

/-- Operand `i` of a lane. -/
def arg (vs : List Nat) (i : Nat) : Nat := nth vs i 0

/-- The operand rules of a binary instruction on integers. -/
def binIntForm (p : Option Pfx) (d a b : Sel) (imm : Option (BitVec 30)) (ok sat : Ety → Bool) : Form :=
  intForm p .s32 ok sat (fun t => [srcOf t (polA p) imm a, srcOf t (polB p) imm b]) (fun t => some (dstOf t d)) noTy
    (fun t => immRes t imm [a, b])

/-- A binary instruction on integers (R75, R77, R79). -/
def binInt (i : Instr) (p : Option Pfx) (d a b : Sel) (imm : Option (BitVec 30)) (ok sat : Ety → Bool)
    (op : Ety → Nat → Nat → Int) (s : State) : Host.Outcome State Fault Refusal :=
  let t := (gty p .s32).getD .s32
  s.runLanes i (binIntForm p d a b imm ok sat)
    fun _ vs => justVal (reduce t (satOf p) (op t (arg vs 0) (arg vs 1)))

/-- Smaller and larger of two integers. -/
def minInt (x y : Int) : Int := if x ≤ y then x else y
def maxInt (x y : Int) : Int := if x ≤ y then y else x

/-- Exact results (R75). -/
def opAdd (t : Ety) (a b : Nat) : Int := t.num a + t.num b
def opSub (t : Ety) (a b : Nat) : Int := t.num a - t.num b
def opMul (t : Ety) (a b : Nat) : Int := t.num a * t.num b
def opMin (t : Ety) (a b : Nat) : Int := minInt (t.num a) (t.num b)
def opMax (t : Ety) (a b : Nat) : Int := maxInt (t.num a) (t.num b)
/-- High half of the exact product (R77). -/
def opMulh (t : Ety) (a b : Nat) : Int := t.num a * t.num b / (2 ^ t.width : Nat)

/-- R75 `add`. -/
def execAdd (p : Option Pfx) (d a b : Sel) (s : State) : Host.Outcome State Fault Refusal :=
  binInt (.add p d a b) p d a b none isSN isSN opAdd s
/-- R75 `add`, form I. -/
def execAddImm (p : Option Pfx) (d a b : Sel) (imm : BitVec 30) (s : State) : Host.Outcome State Fault Refusal :=
  binInt (.addImm p d a b imm) p d a b (some imm) isSN isSN opAdd s
/-- R75 `sub`. -/
def execSub (p : Option Pfx) (d a b : Sel) (s : State) : Host.Outcome State Fault Refusal :=
  binInt (.sub p d a b) p d a b none isSN isSN opSub s
/-- R75 `sub`, form I. -/
def execSubImm (p : Option Pfx) (d a b : Sel) (imm : BitVec 30) (s : State) : Host.Outcome State Fault Refusal :=
  binInt (.subImm p d a b imm) p d a b (some imm) isSN isSN opSub s
/-- R75 `mul`. -/
def execMul (p : Option Pfx) (d a b : Sel) (s : State) : Host.Outcome State Fault Refusal :=
  binInt (.mul p d a b) p d a b none isSN isSN opMul s
/-- R75 `mul`, form I. -/
def execMulImm (p : Option Pfx) (d a b : Sel) (imm : BitVec 30) (s : State) : Host.Outcome State Fault Refusal :=
  binInt (.mulImm p d a b imm) p d a b (some imm) isSN isSN opMul s
/-- R75 `min`. -/
def execMin (p : Option Pfx) (d a b : Sel) (s : State) : Host.Outcome State Fault Refusal :=
  binInt (.min p d a b) p d a b none isSN noTy opMin s
/-- R75 `min`, form I. -/
def execMinImm (p : Option Pfx) (d a b : Sel) (imm : BitVec 30) (s : State) : Host.Outcome State Fault Refusal :=
  binInt (.minImm p d a b imm) p d a b (some imm) isSN noTy opMin s
/-- R75 `max`. -/
def execMax (p : Option Pfx) (d a b : Sel) (s : State) : Host.Outcome State Fault Refusal :=
  binInt (.max p d a b) p d a b none isSN noTy opMax s
/-- R75 `max`, form I. -/
def execMaxImm (p : Option Pfx) (d a b : Sel) (imm : BitVec 30) (s : State) : Host.Outcome State Fault Refusal :=
  binInt (.maxImm p d a b imm) p d a b (some imm) isSN noTy opMax s
/-- R77 `mulh`. -/
def execMulh (p : Option Pfx) (d a b : Sel) (s : State) : Host.Outcome State Fault Refusal :=
  binInt (.mulh p d a b) p d a b none isSN32 noTy opMulh s
/-- R77 `mulh`, form I. -/
def execMulhImm (p : Option Pfx) (d a b : Sel) (imm : BitVec 30) (s : State) : Host.Outcome State Fault Refusal :=
  binInt (.mulhImm p d a b imm) p d a b (some imm) isSN32 noTy opMulh s

/-- `addc` and `subb` (R76): the exact x, and the carry or borrow that goes to p7. -/
def carryInt (i : Instr) (p : Option Pfx) (d a b : Sel) (imm : Option (BitVec 30)) (borrow : Bool) (s : State) :
    Host.Outcome State Fault Refusal :=
  let t := (gty p .s32).getD .s32
  s.runLanes i (binIntForm p d a b imm isSN32 noTy)
    fun th vs =>
      let c := (th.preds.getLsbD 7).toNat
      let A := arg vs 0 % 2 ^ t.width
      let B := arg vs 1 % 2 ^ t.width
      let x : Int := if borrow then (A : Int) - B - c else (A + B + c : Nat)
      let out := if borrow then decide (x < 0) else decide (2 ^ t.width ≤ A + B + c)
      .done ⟨t.toReg (t.wrap x), 0, some (7, out)⟩

/-- R76 `addc`. -/
def execAddc (p : Option Pfx) (d a b : Sel) (s : State) : Host.Outcome State Fault Refusal :=
  carryInt (.addc p d a b) p d a b none false s
/-- R76 `addc`, form I. -/
def execAddcImm (p : Option Pfx) (d a b : Sel) (imm : BitVec 30) (s : State) : Host.Outcome State Fault Refusal :=
  carryInt (.addcImm p d a b imm) p d a b (some imm) false s
/-- R76 `subb`. -/
def execSubb (p : Option Pfx) (d a b : Sel) (s : State) : Host.Outcome State Fault Refusal :=
  carryInt (.subb p d a b) p d a b none true s
/-- R76 `subb`, form I. -/
def execSubbImm (p : Option Pfx) (d a b : Sel) (imm : BitVec 30) (s : State) : Host.Outcome State Fault Refusal :=
  carryInt (.subbImm p d a b imm) p d a b (some imm) true s

/-- The operand rules of `mad` and `madw` (R77): the types of the addend and of the result. -/
def madForm (p : Option Pfx) (d a b c : Sel) (ok : Ety → Bool) (acc : Ety → Ety) : Form :=
  intForm p .s32 ok isSN (fun t => [srcOf t (polA p) none a, srcOf t (polB p) none b, srcOf (acc t) false none c])
    (fun t => some (dstOf (acc t) d)) noTy noTy

/-- R77 `mad`. -/
def execMad (p : Option Pfx) (d a b c : Sel) (s : State) : Host.Outcome State Fault Refusal :=
  let t := (gty p .s32).getD .s32
  s.runLanes (.mad p d a b c)
    (madForm p d a b c isSN id)
    fun _ vs => justVal (reduce t (satOf p) (t.num (arg vs 0) * t.num (arg vs 1) + t.num (arg vs 2)))

/-- R77 `madw`: 32-bit factors, a 64-bit addend and result. -/
def execMadw (p : Option Pfx) (d a b c : Sel) (s : State) : Host.Outcome State Fault Refusal :=
  let t := (gty p .s32).getD .s32
  let w : Ety := if t = .n32 then .n64 else .s64
  s.runLanes (.madw p d a b c)
    (madForm p d a b c (fun t => t == .s32 || t == .n32) fun _ => .s64)
    fun _ vs => justVal (reduce w (satOf p) (t.num (arg vs 0) * t.num (arg vs 1) + w.num (arg vs 2)))

/-- `div` and `rem` (R78): a lane whose divisor is zero takes INT_DIVZERO. -/
def divInt (i : Instr) (p : Option Pfx) (d a b : Sel) (imm : Option (BitVec 30)) (isRem : Bool) (s : State) :
    Host.Outcome State Fault Refusal :=
  let t := (gty p .s32).getD .s32
  s.runLong i (binIntForm p d a b imm isSN32 fun t => !isRem && isSN t) .div false
    fun _ vs =>
      let A := t.num (arg vs 0)
      let B := t.num (arg vs 1)
      if B = 0 then .trap .intDivzero 0
      else justVal (reduce t (satOf p) (if isRem then A.tmod B else A.tdiv B))

/-- R78 `div`. -/
def execDiv (p : Option Pfx) (d a b : Sel) (s : State) : Host.Outcome State Fault Refusal :=
  divInt (.div p d a b) p d a b none false s
/-- R78 `div`, form I. -/
def execDivImm (p : Option Pfx) (d a b : Sel) (imm : BitVec 30) (s : State) : Host.Outcome State Fault Refusal :=
  divInt (.divImm p d a b imm) p d a b (some imm) false s
/-- R78 `rem`. -/
def execRem (p : Option Pfx) (d a b : Sel) (s : State) : Host.Outcome State Fault Refusal :=
  divInt (.rem p d a b) p d a b none true s
/-- R78 `rem`, form I. -/
def execRemImm (p : Option Pfx) (d a b : Sel) (imm : BitVec 30) (s : State) : Host.Outcome State Fault Refusal :=
  divInt (.remImm p d a b imm) p d a b (some imm) true s

/-- The operand rules of an integer instruction of one source. -/
def unIntForm (p : Option Pfx) (d a : Sel) (dflt : Ety) (ok sat : Ety → Bool) : Form :=
  intForm p dflt ok sat (fun t => [srcOf t (polA p) none a]) (fun t => some (dstOf t d)) noTy noTy

/-- An instruction of one source with its result as the register takes it. -/
def unInt (i : Instr) (p : Option Pfx) (d a : Sel) (dflt : Ety) (ok sat : Ety → Bool) (op : Ety → Nat → Nat) (s : State) :
    Host.Outcome State Fault Refusal :=
  let t := (gty p dflt).getD dflt
  s.runLanes i (unIntForm p d a dflt ok sat) fun _ vs => justVal (op t (arg vs 0))

/-- R75 `neg`. -/
def execNeg (p : Option Pfx) (d a : Sel) (s : State) : Host.Outcome State Fault Refusal :=
  unInt (.neg p d a) p d a .s32 Ety.isS isSN (fun t v => reduce t (satOf p) (-t.num v)) s
/-- R75 `abs`. -/
def execAbs (p : Option Pfx) (d a : Sel) (s : State) : Host.Outcome State Fault Refusal :=
  unInt (.abs p d a) p d a .s32 Ety.isS isSN (fun t v => reduce t (satOf p) (t.num v).natAbs) s

/-- The operand rules of a shift: the count is a single register. -/
def shiftForm (p : Option Pfx) (d a b : Sel) (imm : Option (BitVec 30)) (sat : Ety → Bool) : Form :=
  intForm p .s32 isSNB sat (fun t => [srcOf t (polA p) imm a, { srcWord (polB p) b with ext := imm.map Ety.s32.ext }])
    (fun t => some (dstOf t d)) noTy noTy

/-- The shifts (R79): the count is the low byte of B. -/
def shiftInt (i : Instr) (p : Option Pfx) (d a b : Sel) (imm : Option (BitVec 30)) (sat : Ety → Bool)
    (op : Ety → Nat → Nat → Nat) (s : State) : Host.Outcome State Fault Refusal :=
  let t := (gty p .s32).getD .s32
  s.runLanes i (shiftForm p d a b imm sat) fun _ vs => justVal (op t (arg vs 0) (arg vs 1 % 2 ^ 8))

/-- Bits shifted out of a value of type `t` to the left by `c`, reduced (R79). -/
def opShl (sat : Bool) (t : Ety) (a c : Nat) : Nat := reduce t sat (t.num a * (2 ^ c : Nat))
/-- Logical shift right (R79). -/
def opShr (t : Ety) (a c : Nat) : Nat := t.toReg (a % 2 ^ t.width / 2 ^ c)
/-- Arithmetic shift right (R79). -/
def opSar (t : Ety) (a c : Nat) : Nat := t.toReg (wrapNat t.width (toSigned t.width a / (2 ^ c : Nat)))
/-- Rotate left (R79). -/
def opRotl (t : Ety) (a c : Nat) : Nat :=
  let w := t.width
  let x := a % 2 ^ w
  let r := c % w
  t.toReg (x * 2 ^ r % 2 ^ w + x / 2 ^ (w - r))

/-- R79 `shl`. -/
def execShl (p : Option Pfx) (d a b : Sel) (s : State) : Host.Outcome State Fault Refusal :=
  shiftInt (.shl p d a b) p d a b none isSN (opShl (satOf p)) s
/-- R79 `shl`, form I. -/
def execShlImm (p : Option Pfx) (d a b : Sel) (imm : BitVec 30) (s : State) : Host.Outcome State Fault Refusal :=
  shiftInt (.shlImm p d a b imm) p d a b (some imm) isSN (opShl (satOf p)) s
/-- R79 `shr`. -/
def execShr (p : Option Pfx) (d a b : Sel) (s : State) : Host.Outcome State Fault Refusal :=
  shiftInt (.shr p d a b) p d a b none noTy opShr s
/-- R79 `shr`, form I. -/
def execShrImm (p : Option Pfx) (d a b : Sel) (imm : BitVec 30) (s : State) : Host.Outcome State Fault Refusal :=
  shiftInt (.shrImm p d a b imm) p d a b (some imm) noTy opShr s
/-- R79 `sar`. -/
def execSar (p : Option Pfx) (d a b : Sel) (s : State) : Host.Outcome State Fault Refusal :=
  shiftInt (.sar p d a b) p d a b none noTy opSar s
/-- R79 `sar`, form I. -/
def execSarImm (p : Option Pfx) (d a b : Sel) (imm : BitVec 30) (s : State) : Host.Outcome State Fault Refusal :=
  shiftInt (.sarImm p d a b imm) p d a b (some imm) noTy opSar s
/-- R79 `rotl`. -/
def execRotl (p : Option Pfx) (d a b : Sel) (s : State) : Host.Outcome State Fault Refusal :=
  shiftInt (.rotl p d a b) p d a b none noTy opRotl s
/-- R79 `rotl`, form I. -/
def execRotlImm (p : Option Pfx) (d a b : Sel) (imm : BitVec 30) (s : State) : Host.Outcome State Fault Refusal :=
  shiftInt (.rotlImm p d a b imm) p d a b (some imm) noTy opRotl s

/-- The operand rules of `lea` (R80). -/
def leaForm (p : Option Pfx) (d a b c : Sel) : Form :=
  ⟨p, accInt false, some .n32, [srcOf .b64 (polA p) none a, srcWord (polB p) b, srcOf .b64 false none c],
    some (dstOf .b64 d), !(tyCode p == 0 || tyCode p == 3 || tyCode p == 7), false⟩

/-- R80 `lea`: TY says how the index extends; every other code raises ILLEGAL_OP. -/
def execLea (p : Option Pfx) (d a b c : Sel) (sh : BitVec 3) (s : State) : Host.Outcome State Fault Refusal :=
  let signed := tyCode p == 3
  s.runLanes (.lea p d a b c sh) (leaForm p d a b c)
    fun _ vs =>
      let idx : Int := if signed then toSigned 32 (arg vs 1) else (arg vs 1 % 2 ^ 32 : Nat)
      justVal (wrapNat 64 (arg vs 0 + idx * (2 ^ sh.toNat : Nat) + arg vs 2))

/-- The address forms of type b64 (R80). -/
def addrForm (p : Option Pfx) (srcs : List Src) (d : Sel) : Form :=
  let t := gty p .b64
  ⟨p, accInt false, t, srcs, some (dstOf .b64 d), (t.map fun t => t != .b64).getD false, false⟩

/-- R80 `addp`. -/
def execAddp (p : Option Pfx) (d a b : Sel) (s : State) : Host.Outcome State Fault Refusal :=
  s.runLanes (.addp p d a b) (addrForm p [srcOf .b64 (polA p) none a, srcWord (polB p) b] d)
    fun _ vs => justVal (wrapNat 64 (arg vs 0 + toSigned 32 (arg vs 1)))

/-- R80 `addp`, form I. -/
def execAddpImm (p : Option Pfx) (d a b : Sel) (imm : BitVec 30) (s : State) : Host.Outcome State Fault Refusal :=
  s.runLanes (.addpImm p d a b imm)
    (addrForm p [srcOf .b64 (polA p) (some imm) a, { srcWord (polB p) b with ext := some (Ety.s32.ext imm) }] d)
    fun _ vs => justVal (wrapNat 64 (arg vs 0 + toSigned 32 (arg vs 1)))

/-- R80 `subp`. -/
def execSubp (p : Option Pfx) (d a b : Sel) (s : State) : Host.Outcome State Fault Refusal :=
  s.runLanes (.subp p d a b) (addrForm p [srcOf .b64 (polA p) none a, srcOf .b64 (polB p) none b] d)
    fun _ vs => justVal (wrapNat 64 ((arg vs 0 : Int) - arg vs 1))

/-- The operand rules of `movi` (R81). -/
def moviForm (p : Option Pfx) (d : Sel) : Form :=
  intForm p .s32 isSNB noTy (fun _ => []) (fun t => some (dstOf t d)) noTy noTy

/-- R81 `movi`. -/
def execMovi (p : Option Pfx) (d : Sel) (imm : BitVec 30) (s : State) : Host.Outcome State Fault Refusal :=
  let t := (gty p .s32).getD .s32
  s.runLanes (.movi p d imm) (moviForm p d) fun _ _ => justVal (t.toReg (t.ext imm))

/-- R81 `mov`. -/
def execMov (p : Option Pfx) (d a : Sel) (s : State) : Host.Outcome State Fault Refusal :=
  unInt (.mov p d a) p d a .s32 isSNB noTy (fun t v => t.toReg v) s

end Sys2Proof.Machine
end

