-- ==== Sys2Proof/Machine/FloatOps.lean ====
section
/-!
DEFINITION. Floating-point instructions, group 2 (R106 to R118).
-/

namespace Sys2Proof.Machine

/-- The type of an instruction of groups 2 and 3 (R23): `none` where TY holds a code that is not assigned. -/
def fty (p : Option Pfx) (d : Ety) : Option Ety := if tyCode p = 0 then some d else tyFloat (tyCode p)

/-- RND, SAT and NF all accepted; none; SAT and NF; NF alone (R106). -/
def accAll : Accept := ⟨true, true, true, true, true⟩
/-- No RND, SAT or NF (R106). -/
def accNone : Accept := ⟨false, false, false, true, true⟩
/-- SAT and NF (R106). -/
def accSatNf : Accept := ⟨false, true, true, true, true⟩
/-- NF alone (R106). -/
def accNf : Accept := ⟨false, false, true, true, true⟩
/-- RND and NF (R106). -/
def accRndNf : Accept := ⟨true, false, true, true, true⟩

/-- Types f32, f16, bf16 and f64 (R106). -/
def isFp (t : Ety) : Bool := t == .f32 || t == .f16 || t == .bf16 || t == .f64
/-- Types f16 and bf16 (R106). -/
def isHalf (t : Ety) : Bool := t == .f16 || t == .bf16

/-- The operand rules of an instruction of groups 2 and 3: default type, what the prefix may set, the types
accepted. -/
def fpForm (p : Option Pfx) (d : Ety) (acc : Accept) (ok : Ety → Bool) (srcs : Ety → List Src) (dst : Ety → Option Dst)
    (res : Ety → Bool) : Form :=
  let t := (fty p d).getD d
  ⟨p, acc, fty p d, srcs t, dst t, ((fty p d).map fun t => !ok t).getD false, res t⟩

/-- The element type an instruction uses. -/
def elemTy (p : Option Pfx) (d : Ety) : Ety := (fty p d).getD d

/-- A source element, flushed under R62. -/
def fin (t : Ety) (th : Thread) (x : Nat) : FVal := t.val (t.flush th.ftz x)

/-- The result path of R64 for a lane. -/
def fout (p : Option Pfx) (t : Ety) (th : Thread) (r : FVal × Fl) : Nat × Fl :=
  t.result (roundOf p th) th.ftz (satOf p) r.1 r.2

/-- Operands A and B of an element type. -/
def srcsAB (p : Option Pfx) (a b : Sel) (imm : Option (BitVec 30)) (t : Ety) : List Src :=
  [srcOf t (polA p) imm a, srcOf t (polB p) imm b]

/-- The operand rules of a binary instruction on floating-point values, and what its prefix may set. -/
def binFpForm (p : Option Pfx) (d a b : Sel) (imm : Option (BitVec 30)) (acc : Accept) : Form :=
  fpForm p .f32 acc isFp (srcsAB p a b imm) (fun t => some (dstOf t d)) (fun t => immRes t imm [a, b])

/-- A binary instruction on floating-point values (R108). -/
def binFp (i : Instr) (p : Option Pfx) (d a b : Sel) (imm : Option (BitVec 30)) (op : Rnd → FVal → FVal → FVal × Fl)
    (s : State) : Host.Outcome State Fault Refusal :=
  let t := elemTy p .f32
  s.runLanes i (binFpForm p d a b imm accAll)
    fun th vs => fpRes th (fout p t th (op (roundOf p th) (fin t th (arg vs 0)) (fin t th (arg vs 1))))

/-- Exact difference (R108). -/
def subVal (mode : Rnd) (x y : FVal) : FVal × Fl := addVal mode x y.neg
/-- Exact product, in the shape of the others. -/
def mulOp (_ : Rnd) (x y : FVal) : FVal × Fl := mulVal x y
/-- Exact quotient, in the shape of the others. -/
def divOp (_ : Rnd) (x y : FVal) : FVal × Fl := divVal x y

/-- R108 `fadd`. -/
def execFadd (p : Option Pfx) (d a b : Sel) (s : State) : Host.Outcome State Fault Refusal :=
  binFp (.fadd p d a b) p d a b none addVal s
/-- R108 `fadd`, form I. -/
def execFaddImm (p : Option Pfx) (d a b : Sel) (imm : BitVec 30) (s : State) : Host.Outcome State Fault Refusal :=
  binFp (.faddImm p d a b imm) p d a b (some imm) addVal s
/-- R108 `fsub`. -/
def execFsub (p : Option Pfx) (d a b : Sel) (s : State) : Host.Outcome State Fault Refusal :=
  binFp (.fsub p d a b) p d a b none subVal s
/-- R108 `fsub`, form I. -/
def execFsubImm (p : Option Pfx) (d a b : Sel) (imm : BitVec 30) (s : State) : Host.Outcome State Fault Refusal :=
  binFp (.fsubImm p d a b imm) p d a b (some imm) subVal s
/-- R108 `fmul`. -/
def execFmul (p : Option Pfx) (d a b : Sel) (s : State) : Host.Outcome State Fault Refusal :=
  binFp (.fmul p d a b) p d a b none mulOp s
/-- R108 `fmul`, form I. -/
def execFmulImm (p : Option Pfx) (d a b : Sel) (imm : BitVec 30) (s : State) : Host.Outcome State Fault Refusal :=
  binFp (.fmulImm p d a b imm) p d a b (some imm) mulOp s

/-- `fdiv` (R108), a multi-cycle instruction on the slots of `div` (R107). -/
def divFp (i : Instr) (p : Option Pfx) (d a b : Sel) (imm : Option (BitVec 30)) (s : State) :
    Host.Outcome State Fault Refusal :=
  let t := elemTy p .f32
  s.runLong i (binFpForm p d a b imm accAll) (.multi false) false
    fun th vs => fpRes th (fout p t th (divOp (roundOf p th) (fin t th (arg vs 0)) (fin t th (arg vs 1))))

/-- R108 `fdiv`. -/
def execFdiv (p : Option Pfx) (d a b : Sel) (s : State) : Host.Outcome State Fault Refusal :=
  divFp (.fdiv p d a b) p d a b none s
/-- R108 `fdiv`, form I. -/
def execFdivImm (p : Option Pfx) (d a b : Sel) (imm : BitVec 30) (s : State) : Host.Outcome State Fault Refusal :=
  divFp (.fdivImm p d a b imm) p d a b (some imm) s

/-- The operand rules of `fma` (R108). -/
def fmaForm (p : Option Pfx) (d a b c : Sel) : Form :=
  fpForm p .f32 accAll isFp (fun t => srcsAB p a b none t ++ [srcOf t false none c]) (fun t => some (dstOf t d)) noTy

/-- R108 `fma`. -/
def execFma (p : Option Pfx) (d a b c : Sel) (s : State) : Host.Outcome State Fault Refusal :=
  let t := elemTy p .f32
  s.runLanes (.fma p d a b c) (fmaForm p d a b c)
    fun th vs => fpRes th (fout p t th
      (fmaVal (roundOf p th) (fin t th (arg vs 0)) (fin t th (arg vs 1)) (fin t th (arg vs 2))))

/-- The order of R109: -0 lies below +0. -/
def minMaxLe (x y : FVal) : Bool :=
  match cmpVal x y with
  | .lt => true
  | .gt => false
  | .eq => x.sign || !y.sign

/-- `fmin` or `fmax` of two bit patterns of a type (R109), and NV for a signalling NaN. -/
def minMaxFp (isMin : Bool) (t : Ety) (x y : Nat) : Nat × Fl :=
  let v := t.val x
  let w := t.val y
  let fl : Fl := if v.isSnan || w.isSnan then flNV else 0
  if v.isNan && w.isNan then (t.defaultNan, fl)
  else if v.isNan then (y, fl)
  else if w.isNan then (x, fl)
  else if minMaxLe v w == isMin then (x, fl) else (y, fl)

/-- `fmin` and `fmax` (R109). -/
def minMax (i : Instr) (p : Option Pfx) (d a b : Sel) (imm : Option (BitVec 30)) (isMin : Bool) (s : State) :
    Host.Outcome State Fault Refusal :=
  let t := elemTy p .f32
  s.runLanes i (binFpForm p d a b imm accNf)
    fun th vs => fpRes th (minMaxFp isMin t (t.flush th.ftz (arg vs 0)) (t.flush th.ftz (arg vs 1)))

/-- R109 `fmin`. -/
def execFmin (p : Option Pfx) (d a b : Sel) (s : State) : Host.Outcome State Fault Refusal :=
  minMax (.fmin p d a b) p d a b none true s
/-- R109 `fmin`, form I. -/
def execFminImm (p : Option Pfx) (d a b : Sel) (imm : BitVec 30) (s : State) : Host.Outcome State Fault Refusal :=
  minMax (.fminImm p d a b imm) p d a b (some imm) true s
/-- R109 `fmax`. -/
def execFmax (p : Option Pfx) (d a b : Sel) (s : State) : Host.Outcome State Fault Refusal :=
  minMax (.fmax p d a b) p d a b none false s
/-- R109 `fmax`, form I. -/
def execFmaxImm (p : Option Pfx) (d a b : Sel) (imm : BitVec 30) (s : State) : Host.Outcome State Fault Refusal :=
  minMax (.fmaxImm p d a b imm) p d a b (some imm) false s

/-- The operand rules of an instruction of one floating source: what its prefix may set, its types, and its
destination. -/
def unFpForm (p : Option Pfx) (a : Sel) (acc : Accept) (ok : Ety → Bool) (dst : Ety → Dst) : Form :=
  fpForm p .f32 acc ok (fun t => [srcOf t (polA p) none a]) (fun t => some (dst t)) noTy

/-- An instruction on the raw bits of one floating source (R110, R112). -/
def rawFp (i : Instr) (p : Option Pfx) (a : Sel) (ok : Ety → Bool) (dst : Ety → Dst) (op : Ety → Nat → Nat) (s : State) :
    Host.Outcome State Fault Refusal :=
  let t := elemTy p .f32
  s.runLanes i (unFpForm p a accNone ok dst)
    fun _ vs => justVal (op t (arg vs 0 % 2 ^ t.width))

/-- R110 `fabs`. -/
def execFabs (p : Option Pfx) (d a : Sel) (s : State) : Host.Outcome State Fault Refusal :=
  rawFp (.fabs p d a) p a isFp (fun t => dstOf t d) (fun t x => x % 2 ^ (t.width - 1)) s
/-- R110 `fneg`. -/
def execFneg (p : Option Pfx) (d a : Sel) (s : State) : Host.Outcome State Fault Refusal :=
  rawFp (.fneg p d a) p a isFp (fun t => dstOf t d) (fun t x => x ^^^ 2 ^ (t.width - 1)) s

/-- The class of a bit pattern (R112). -/
def classOf (t : Ety) (x : Nat) : Nat :=
  match t.val x with
  | .nan sg => if sg then 8 else 9
  | .inf neg => if neg then 0 else 7
  | .num neg n _ _ =>
    if n = 0 then (if neg then 3 else 4)
    else if t.isSubnormal x then (if neg then 2 else 5)
    else (if neg then 1 else 6)

/-- R112 `fclass`. -/
def execFclass (p : Option Pfx) (d a : Sel) (s : State) : Host.Outcome State Fault Refusal :=
  rawFp (.fclass p d a) p a (fun t => isFp t || t == .a48) (fun _ => dstOf .n32 d) (fun t x => 2 ^ classOf t x) s

/-- A condition on two values (R111): the predicate and NV. -/
def condFp (cond : Nat) (x y : FVal) : Bool × Fl :=
  let un := x.isNan || y.isNan
  let quiet : Fl := if x.isSnan || y.isSnan then flNV else 0
  let loud : Fl := if un then flNV else 0
  let o := cmpVal x y
  match cond with
  | 0 => (!un && o == .eq, quiet)
  | 1 => (un || o != .eq, quiet)
  | 2 => (!un && o == .lt, loud)
  | 3 => (!un && o != .gt, loud)
  | 4 => (!un && o == .gt, loud)
  | 5 => (!un && o != .lt, loud)
  | 6 => (!un, quiet)
  | _ => (un, quiet)

/-- The operand rules of `fcmp` (R111). -/
def fcmpForm (p : Option Pfx) (cond : BitVec 4) (a b : Sel) (imm : Option (BitVec 30)) : Form :=
  fpForm p .f32 accNf isFp (srcsAB p a b imm) (fun _ => none) (fun t => 8 ≤ cond.toNat || immRes t imm [a, b])

/-- `fcmp` (R111). -/
def cmpFp (i : Instr) (p : Option Pfx) (q : BitVec 3) (cond : BitVec 4) (a b : Sel) (imm : Option (BitVec 30))
    (s : State) : Host.Outcome State Fault Refusal :=
  let t := elemTy p .f32
  s.runLanes i (fcmpForm p cond a b imm)
    fun th vs =>
      let r := condFp cond.toNat (fin t th (arg vs 0)) (fin t th (arg vs 1))
      fpPred th q.toNat r.1 r.2

/-- R111 `fcmp`. -/
def execFcmp (p : Option Pfx) (q : BitVec 3) (cond : BitVec 4) (a b : Sel) (s : State) : Host.Outcome State Fault Refusal :=
  cmpFp (.fcmp p q cond a b) p q cond a b none s
/-- R111 `fcmp`, form I. -/
def execFcmpImm (p : Option Pfx) (q : BitVec 3) (cond : BitVec 4) (a b : Sel) (imm : BitVec 30) (s : State) :
    Host.Outcome State Fault Refusal :=
  cmpFp (.fcmpImm p q cond a b imm) p q cond a b (some imm) s

/-- A value rounded to an integral one (R113). -/
def integral (mode : Rnd) (v : FVal) : FVal × Fl :=
  match v with
  | .num neg n d e =>
    if n = 0 then (v, 0)
    else
      let r := scaleRat n d e
      let m := roundInt mode neg r.1 r.2
      (.num neg m.1 1 0, if m.2 then flNX else 0)
  | v => (v, 0)

/-- R113 `frint`. -/
def execFrint (p : Option Pfx) (d a : Sel) (s : State) : Host.Outcome State Fault Refusal :=
  let t := elemTy p .f32
  s.runLanes (.frint p d a) (unFpForm p a accRndNf isFp fun t => dstOf t d)
    fun th vs => fpRes th (fout p t th (integral (roundOf p th) (fin t th (arg vs 0))))

/-- The square root of a value, to be rounded once (R114). -/
def rootVal (v : FVal) : FVal × Fl :=
  match v with
  | .nan sg => (.nan sg, 0)
  | .inf neg => if neg then (.nan false, flNV) else (.inf false, 0)
  | .num neg n _ e =>
    if n = 0 then (v, 0) else if neg then (.nan false, flNV) else (sqrtVal n e, 0)

/-- R114 `fsqrt`, a multi-cycle instruction on the slots of `div` (R107). -/
def execFsqrt (p : Option Pfx) (d a : Sel) (s : State) : Host.Outcome State Fault Refusal :=
  let t := elemTy p .f32
  s.runLong (.fsqrt p d a) (unFpForm p a accAll isFp fun t => dstOf t d) (.multi false) false
    fun th vs => fpRes th (fout p t th (rootVal (fin t th (arg vs 0))))

/-- An instruction of the special-function unit (R107): the result of an approximation with its flags, then
result flush, SAT and traps. -/
def sfuFp (i : Instr) (p : Option Pfx) (d a : Sel) (ok : Ety → Bool) (f : Ety → Nat → Nat × Fl) (s : State) :
    Host.Outcome State Fault Refusal :=
  let t := elemTy p .f32
  s.runLong i (unFpForm p a accSatNf ok fun t => dstOf t d) (.multi true) true
    fun th vs => fpRes th (t.finish th.ftz (satOf p) (f t (t.flush th.ftz (arg vs 0))))

/-- R115 `frcp`. -/
def execFrcp (p : Option Pfx) (d a : Sel) (s : State) : Host.Outcome State Fault Refusal :=
  sfuFp (.frcp p d a) p d a isFp frcpVal s
/-- R115 `frsq`. -/
def execFrsq (p : Option Pfx) (d a : Sel) (s : State) : Host.Outcome State Fault Refusal :=
  sfuFp (.frsq p d a) p d a isFp frsqVal s

/-- `A * 2 ^ B` exactly (R116). B is first brought within ±6000, where no format holds the product and every
rounding of it is the same as for the B given. -/
def scaleVal (v : FVal) (b : Int) : FVal :=
  match v with
  | .num neg n d e => if n = 0 then v else .num neg n d (e + max (-6000) (min 6000 b))
  | v => v

/-- The operand rules of `fscale` (R116). -/
def scaleForm (p : Option Pfx) (d a b : Sel) (imm : Option (BitVec 30)) : Form :=
  fpForm p .f32 accAll isFp (fun t => [srcOf t (polA p) imm a, { srcWord (polB p) b with ext := imm.map Ety.s32.ext }])
    (fun t => some (dstOf t d)) (fun t => immRes t imm [a])

/-- `fscale` (R116): B is an s32, also as an immediate (R107). -/
def scaleFp (i : Instr) (p : Option Pfx) (d a b : Sel) (imm : Option (BitVec 30)) (s : State) :
    Host.Outcome State Fault Refusal :=
  let t := elemTy p .f32
  s.runLanes i (scaleForm p d a b imm)
    fun th vs => fpRes th (fout p t th (scaleVal (fin t th (arg vs 0)) (toSigned 32 (arg vs 1)), 0))

/-- R116 `fscale`. -/
def execFscale (p : Option Pfx) (d a b : Sel) (s : State) : Host.Outcome State Fault Refusal :=
  scaleFp (.fscale p d a b) p d a b none s
/-- R116 `fscale`, form I. -/
def execFscaleImm (p : Option Pfx) (d a b : Sel) (imm : BitVec 30) (s : State) : Host.Outcome State Fault Refusal :=
  scaleFp (.fscaleImm p d a b imm) p d a b (some imm) s

/-- Element `e` of a packed register (R117, R123). -/
def packed (t : Ety) (x e : Nat) : Nat := bits x (t.width * e) t.width

/-- The operand rules of an instruction on packed registers: its default type, the types accepted, its
sources, and its destination. -/
def packedForm (p : Option Pfx) (dflt : Ety) (ok : Ety → Bool) (srcs : List Src) (dst : Dst) : Form :=
  fpForm p dflt accAll ok (fun _ => srcs) (fun _ => some dst) noTy

/-- A packed instruction (R117): both elements through R64, their flags together. -/
def packedFp (i : Instr) (p : Option Pfx) (d : Sel) (dflt : Ety) (ok : Ety → Bool) (srcs : List Src)
    (op : Rnd → (Nat → FVal) → FVal × Fl) (s : State) : Host.Outcome State Fault Refusal :=
  let t := elemTy p dflt
  s.runLanes i (packedForm p dflt ok srcs (dstOf .b32 d))
    fun th vs =>
      let e (n : Nat) : Nat × Fl :=
        fout p t th (op (roundOf p th) fun i => fin t th (packed t (arg vs i) n))
      fpRes th ((e 0).1 + (e 1).1 * 2 ^ 16, (e 0).2 ||| (e 1).2)

/-- R117 `hadd2`. -/
def execHadd2 (p : Option Pfx) (d a b : Sel) (s : State) : Host.Outcome State Fault Refusal :=
  packedFp (.hadd2 p d a b) p d .f16 isHalf [srcWord (polA p) a, srcWord (polB p) b]
    (fun m v => addVal m (v 0) (v 1)) s

/-- The fused packed multiply-add of R117. -/
def fmaOp (m : Rnd) (v : Nat → FVal) : FVal × Fl := fmaVal m (v 0) (v 1) (v 2)

/-- R117 `hfma2`. -/
def execHfma2 (p : Option Pfx) (d a b c : Sel) (s : State) : Host.Outcome State Fault Refusal :=
  packedFp (.hfma2 p d a b c) p d .f16 (· == .f16) [srcWord (polA p) a, srcWord (polB p) b, srcWord false c] fmaOp s
/-- R117 `bfma2`. -/
def execBfma2 (p : Option Pfx) (d a b c : Sel) (s : State) : Host.Outcome State Fault Refusal :=
  packedFp (.bfma2 p d a b c) p d .bf16 (· == .bf16) [srcWord (polA p) a, srcWord (polB p) b, srcWord false c] fmaOp s

/-- The exact sum of some products and an addend, with the invalid cases of each (R118). -/
def dotVal (mode : Rnd) (ps : List (FVal × FVal)) (c : FVal) : FVal × Fl :=
  ps.foldl (fun r q => fmaVal mode q.1 q.2 r.1 |> fun x => (x.1, x.2 ||| r.2)) (c, if c.isSnan then flNV else 0)

/-- `dot2` and `dot4` (R118). -/
def dotFp (i : Instr) (p : Option Pfx) (d a b c : Sel) (dflt : Ety) (ok : Ety → Bool) (n : Nat) (s : State) :
    Host.Outcome State Fault Refusal :=
  let t := elemTy p dflt
  s.runLanes i (packedForm p dflt ok [srcWord (polA p) a, srcWord (polB p) b, srcWord false c] (dstOf .f32 d))
    fun th vs =>
      let ps := (List.range n).map fun e => (fin t th (packed t (arg vs 0) e), fin t th (packed t (arg vs 1) e))
      fpRes th (fout p .f32 th (dotVal (roundOf p th) ps (fin .f32 th (arg vs 2))))

/-- R118 `dot2`. -/
def execDot2 (p : Option Pfx) (d a b c : Sel) (s : State) : Host.Outcome State Fault Refusal :=
  dotFp (.dot2 p d a b c) p d a b c .f16 isHalf 2 s
/-- R118 `dot4`. -/
def execDot4 (p : Option Pfx) (d a b c : Sel) (s : State) : Host.Outcome State Fault Refusal :=
  dotFp (.dot4 p d a b c) p d a b c .t8 Ety.isT 4 s

end Sys2Proof.Machine
end

