-- ==== Sys2Proof/Machine/Logic.lean ====
section
/-!
DEFINITION. Logic, bit, compare and predicate instructions, group 1 (R82 to R89).
-/

namespace Sys2Proof.Machine

/-- The operand rules of a binary instruction on bits. -/
def binBitsForm (p : Option Pfx) (d a b : Sel) (imm : Option (BitVec 30)) : Form :=
  intForm p .b32 isSNB noTy (fun t => [srcOf t (polA p) imm a, srcOf t (polB p) imm b]) (fun t => some (dstOf t d)) noTy
    (fun t => immRes t imm [a, b])

/-- A binary instruction on bits (R82). -/
def binBits (i : Instr) (p : Option Pfx) (d a b : Sel) (imm : Option (BitVec 30)) (op : Ety → Nat → Nat → Nat)
    (s : State) : Host.Outcome State Fault Refusal :=
  let t := (gty p .b32).getD .b32
  s.runLanes i (binBitsForm p d a b imm)
    fun _ vs => justVal (t.toReg (op t (arg vs 0 % 2 ^ t.width) (arg vs 1 % 2 ^ t.width)))

/-- Bitwise operations on the w bits (R82). -/
def opAnd (_ : Ety) (a b : Nat) : Nat := a &&& b
def opOr (_ : Ety) (a b : Nat) : Nat := a ||| b
def opXor (_ : Ety) (a b : Nat) : Nat := a ^^^ b
def opAndn (t : Ety) (a b : Nat) : Nat := a &&& (2 ^ t.width - 1 - b)

/-- R82 `and`. -/
def execAnd (p : Option Pfx) (d a b : Sel) (s : State) : Host.Outcome State Fault Refusal :=
  binBits (.and p d a b) p d a b none opAnd s
/-- R82 `and`, form I. -/
def execAndImm (p : Option Pfx) (d a b : Sel) (imm : BitVec 30) (s : State) : Host.Outcome State Fault Refusal :=
  binBits (.andImm p d a b imm) p d a b (some imm) opAnd s
/-- R82 `or`. -/
def execOr (p : Option Pfx) (d a b : Sel) (s : State) : Host.Outcome State Fault Refusal :=
  binBits (.or p d a b) p d a b none opOr s
/-- R82 `or`, form I. -/
def execOrImm (p : Option Pfx) (d a b : Sel) (imm : BitVec 30) (s : State) : Host.Outcome State Fault Refusal :=
  binBits (.orImm p d a b imm) p d a b (some imm) opOr s
/-- R82 `xor`. -/
def execXor (p : Option Pfx) (d a b : Sel) (s : State) : Host.Outcome State Fault Refusal :=
  binBits (.xor p d a b) p d a b none opXor s
/-- R82 `xor`, form I. -/
def execXorImm (p : Option Pfx) (d a b : Sel) (imm : BitVec 30) (s : State) : Host.Outcome State Fault Refusal :=
  binBits (.xorImm p d a b imm) p d a b (some imm) opXor s
/-- R82 `andn`. -/
def execAndn (p : Option Pfx) (d a b : Sel) (s : State) : Host.Outcome State Fault Refusal :=
  binBits (.andn p d a b) p d a b none opAndn s
/-- R82 `andn`, form I. -/
def execAndnImm (p : Option Pfx) (d a b : Sel) (imm : BitVec 30) (s : State) : Host.Outcome State Fault Refusal :=
  binBits (.andnImm p d a b imm) p d a b (some imm) opAndn s
/-- R82 `not`. -/
def execNot (p : Option Pfx) (d a : Sel) (s : State) : Host.Outcome State Fault Refusal :=
  unInt (.not p d a) p d a .b32 isSNB noTy (fun t v => t.toReg (2 ^ t.width - 1 - v % 2 ^ t.width)) s

/-- Types of `bfe` and `bfi` (R83). -/
def isField (t : Ety) : Bool := isSN32 t || t.isB

/-- The width of a field that starts at `pos` (R83). -/
def fieldWid (w pos wid : Nat) : Nat := if w ≤ pos then 0 else min wid (w - pos)

/-- The field `bfe` writes (R83). -/
def extractField (t : Ety) (a pos wid : Nat) : Nat :=
  let n := fieldWid t.width pos wid
  if n = 0 then 0
  else
    let f := bits a pos n
    t.toReg (if t.isS then wrapNat t.width (toSigned n f) else f)

/-- The value `bfi` writes (R83). -/
def insertField (t : Ety) (a b pos wid : Nat) : Nat :=
  let n := fieldWid t.width pos wid
  t.toReg (if n = 0 then b % 2 ^ t.width else setBits (b % 2 ^ t.width) pos n a)

/-- The operand rules of `bfe` (R83): with PI = 1 the fields B and C are zero and name nothing. -/
def bfeForm (p : Option Pfx) (d a b c : Sel) (pi : Bool) : Form :=
  intForm p .b32 isField noTy
    (fun t => if pi then [srcOf t (polA p) none a]
      else [srcOf t (polA p) none a, srcOf t (polB p) none b, srcOf t false none c])
    (fun t => some (dstOf t d)) (fun _ => pi && (b != 0 || c != 0)) noTy

/-- The operand rules of `bfi` (R83): with PI = 1 the field C is zero and names nothing. -/
def bfiForm (p : Option Pfx) (d a b c : Sel) (pi : Bool) : Form :=
  intForm p .b32 isField noTy
    (fun t => if pi then [srcOf t (polA p) none a, srcOf t (polB p) none b]
      else [srcOf t (polA p) none a, srcOf t (polB p) none b, srcOf t false none c])
    (fun t => some (dstOf t d)) (fun _ => pi && c != 0) noTy

/-- R83 `bfe`. -/
def execBfe (p : Option Pfx) (d a b c : Sel) (pi : Bool) (pos wid : BitVec 7) (s : State) :
    Host.Outcome State Fault Refusal :=
  let t := (gty p .b32).getD .b32
  s.runLanes (.bfe p d a b c pi pos wid) (bfeForm p d a b c pi)
    fun _ vs =>
      if pi then justVal (extractField t (arg vs 0) pos.toNat wid.toNat)
      else justVal (extractField t (arg vs 0) (arg vs 1 % 2 ^ 8) (arg vs 2 % 2 ^ 8))

/-- R83 `bfi`. -/
def execBfi (p : Option Pfx) (d a b c : Sel) (pi : Bool) (pos wid : BitVec 7) (s : State) :
    Host.Outcome State Fault Refusal :=
  let t := (gty p .b32).getD .b32
  s.runLanes (.bfi p d a b c pi pos wid) (bfiForm p d a b c pi)
    fun _ vs =>
      if pi then justVal (insertField t (arg vs 0) (arg vs 1) pos.toNat wid.toNat)
      else justVal (insertField t (arg vs 0) (arg vs 1) (arg vs 2 % 2 ^ 8) (bits (arg vs 2) 8 8))

/-- The operand rules of an instruction with a single-register result from a source of type b32 or b64. -/
def countForm (p : Option Pfx) (d a : Sel) : Form :=
  intForm p .b32 Ety.isB noTy (fun t => [srcOf t (polA p) none a]) (fun _ => some (dstOf .n32 d)) noTy noTy

/-- An instruction with a single-register result from a source of type b32 or b64 (R85). -/
def countBits (i : Instr) (p : Option Pfx) (d a : Sel) (op : Nat → Nat → Nat) (s : State) :
    Host.Outcome State Fault Refusal :=
  let t := (gty p .b32).getD .b32
  s.runLanes i (countForm p d a) fun _ vs => justVal (op t.width (arg vs 0 % 2 ^ t.width))

/-- One bits among the low `w`. -/
def popCount (w x : Nat) : Nat := ((List.range w).filter fun i => bit x i).length
/-- Zero bits above the highest one bit of `w`. -/
def leadZeros (w x : Nat) : Nat := ((List.range w).takeWhile fun i => !bit x (w - 1 - i)).length
/-- Zero bits below the lowest one bit of `w`. -/
def trailZeros (w x : Nat) : Nat := ((List.range w).takeWhile fun i => !bit x i).length
/-- The low `w` bits in reverse order. -/
def reverseBits (w x : Nat) : Nat :=
  (List.range w).foldl (fun n i => n + (bit x i).toNat * 2 ^ (w - 1 - i)) 0

/-- R85 `popc`. -/
def execPopc (p : Option Pfx) (d a : Sel) (s : State) : Host.Outcome State Fault Refusal :=
  countBits (.popc p d a) p d a popCount s
/-- R85 `clz`. -/
def execClz (p : Option Pfx) (d a : Sel) (s : State) : Host.Outcome State Fault Refusal :=
  countBits (.clz p d a) p d a leadZeros s
/-- R85 `ctz`. -/
def execCtz (p : Option Pfx) (d a : Sel) (s : State) : Host.Outcome State Fault Refusal :=
  countBits (.ctz p d a) p d a trailZeros s
/-- R85 `brev`. -/
def execBrev (p : Option Pfx) (d a : Sel) (s : State) : Host.Outcome State Fault Refusal :=
  unInt (.brev p d a) p d a .b32 Ety.isB noTy (fun t v => reverseBits t.width v) s

/-- Byte `n` of `bshuf` (R84). -/
def shufByte (a b ctl : Nat) : Nat :=
  let k := bits ctl 0 3 ^^^ (bits ctl 3 1 * 4)
  let x := bits (a % 2 ^ 32 + b % 2 ^ 32 * 2 ^ 32) (8 * k) 8
  match bits ctl 4 2 with
  | 0 => x
  | 1 => 0
  | 2 => if 0x80 ≤ x then 0xFF else 0
  | _ => reverseBits 8 x

/-- The operand rules of `bshuf` (R84). -/
def bshufForm (p : Option Pfx) (d a b c : Sel) : Form :=
  intForm p .b32 (· == .b32) noTy (fun t => [srcOf t (polA p) none a, srcOf t (polB p) none b, srcOf t false none c])
    (fun t => some (dstOf t d)) noTy noTy

/-- R84 `bshuf`. -/
def execBshuf (p : Option Pfx) (d a b c : Sel) (s : State) : Host.Outcome State Fault Refusal :=
  s.runLanes (.bshuf p d a b c) (bshufForm p d a b c)
    fun _ vs =>
      let byte (n : Nat) : Nat := shufByte (arg vs 0) (arg vs 1) (bits (arg vs 2) (8 * n) 8) * 2 ^ (8 * n)
      justVal (byte 0 + byte 1 + byte 2 + byte 3)

/-- A condition on two integers of a type (R86). -/
def condInt (t : Ety) (cond a b : Nat) : Bool :=
  let x := t.num a
  let y := t.num b
  match cond with
  | 0 => x == y
  | 1 => x != y
  | 2 => decide (x < y)
  | 3 => decide (x ≤ y)
  | 4 => decide (y < x)
  | _ => decide (y ≤ x)

/-- The operand rules of `cmp` (R86). -/
def cmpForm (p : Option Pfx) (cond : BitVec 4) (a b : Sel) (imm : Option (BitVec 30)) : Form :=
  intForm p .b32 isSNB noTy (fun t => [srcOf t (polA p) imm a, srcOf t (polB p) imm b]) (fun _ => none)
    (fun t => t.isB && 2 ≤ cond.toNat && cond.toNat ≤ 5) (fun t => 6 ≤ cond.toNat || immRes t imm [a, b])

/-- `cmp` (R86). -/
def cmpInt (i : Instr) (p : Option Pfx) (q : BitVec 3) (cond : BitVec 4) (a b : Sel) (imm : Option (BitVec 30))
    (s : State) : Host.Outcome State Fault Refusal :=
  let t := (gty p .b32).getD .b32
  s.runLanes i (cmpForm p cond a b imm)
    fun _ vs => justPred q.toNat (condInt t cond.toNat (arg vs 0) (arg vs 1))

/-- R86 `cmp`. -/
def execCmp (p : Option Pfx) (q : BitVec 3) (cond : BitVec 4) (a b : Sel) (s : State) : Host.Outcome State Fault Refusal :=
  cmpInt (.cmp p q cond a b) p q cond a b none s
/-- R86 `cmp`, form I. -/
def execCmpImm (p : Option Pfx) (q : BitVec 3) (cond : BitVec 4) (a b : Sel) (imm : BitVec 30) (s : State) :
    Host.Outcome State Fault Refusal :=
  cmpInt (.cmpImm p q cond a b imm) p q cond a b (some imm) s

/-- The operand rules of `sel` (R87). -/
def selForm (p : Option Pfx) (d a b : Sel) : Form :=
  intForm p .b32 Ety.isB noTy (fun t => [srcOf t (polA p) none a, srcOf t (polB p) none b]) (fun t => some (dstOf t d))
    noTy noTy

/-- R87 `sel`. -/
def execSel (p : Option Pfx) (d a b : Sel) (n : Bool) (q : BitVec 3) (s : State) : Host.Outcome State Fault Refusal :=
  s.runLanes (.sel p d a b n q) (selForm p d a b)
    fun th vs => justVal (if th.preds.getLsbD q.toNat != n then arg vs 0 else arg vs 1)

/-- The predicate instructions (R88) accept the guard alone. -/
def predForm (p : Option Pfx) : Form := ⟨p, ⟨false, false, false, false, false⟩, some .b32, [], none, false, false⟩

/-- An operand of a predicate instruction. -/
def predArg (th : Thread) (neg : Bool) (q : BitVec 3) : Bool := th.preds.getLsbD q.toNat != neg

/-- R88 `pand`. -/
def execPand (p : Option Pfx) (d : BitVec 3) (na : Bool) (a : BitVec 3) (nb : Bool) (b : BitVec 3) (s : State) :
    Host.Outcome State Fault Refusal :=
  s.runLanes (.pand p d na a nb b) (predForm p) fun th _ => justPred d.toNat (predArg th na a && predArg th nb b)
/-- R88 `por`. -/
def execPor (p : Option Pfx) (d : BitVec 3) (na : Bool) (a : BitVec 3) (nb : Bool) (b : BitVec 3) (s : State) :
    Host.Outcome State Fault Refusal :=
  s.runLanes (.por p d na a nb b) (predForm p) fun th _ => justPred d.toNat (predArg th na a || predArg th nb b)
/-- R88 `pxor`. -/
def execPxor (p : Option Pfx) (d : BitVec 3) (na : Bool) (a : BitVec 3) (nb : Bool) (b : BitVec 3) (s : State) :
    Host.Outcome State Fault Refusal :=
  s.runLanes (.pxor p d na a nb b) (predForm p) fun th _ => justPred d.toNat (predArg th na a != predArg th nb b)
/-- R88 `pnot`: its assembly form has no `!`, and NA is read as R88 defines it for the A field. -/
def execPnot (p : Option Pfx) (d : BitVec 3) (na : Bool) (a : BitVec 3) (s : State) : Host.Outcome State Fault Refusal :=
  s.runLanes (.pnot p d na a) (predForm p) fun th _ => justPred d.toNat (!predArg th na a)
/-- R88 `pmov`. -/
def execPmov (p : Option Pfx) (d : BitVec 3) (na : Bool) (a : BitVec 3) (s : State) : Host.Outcome State Fault Refusal :=
  s.runLanes (.pmov p d na a) (predForm p) fun th _ => justPred d.toNat (predArg th na a)

/-- The operand rules of `match` (R89). -/
def matchForm (p : Option Pfx) (d a : Sel) : Form :=
  intForm p .b32 Ety.isB noTy (fun t => [srcOf t (polA p) none a]) (fun _ => some (dstOf .b32 d)) noTy noTy

/-- R89 `match`: each active lane's mask of the active lanes with an equal value. -/
def execMatchLanes (p : Option Pfx) (d a : Sel) (s : State) : Host.Outcome State Fault Refusal :=
  let f := matchForm p d a
  s.run (.matchLanes p d a) f open_ fun s x off ls zs =>
    s.finish x f off zs (ls.map fun i =>
      (i.1, justVal (bitsIn ((ls.filter fun j => arg j.2 0 == arg i.2 0).map fun j => j.1 % 32) 0)))

end Sys2Proof.Machine
end

