-- ==== Sys2Proof/Machine/Control.lean ====
section
/-!
DEFINITION. Control flow, group 5 (R90 to R104).
-/

namespace Sys2Proof.Machine

/-- A group 5 or 7 instruction: no prefix, no guard. Nothing happens while a thread of the group is held
by a scalar result (R22); `bad` is the trap of R45 step 3; then the instruction itself. -/
def State.control (s : State) (i : Instr) (bad : Option Trap) (body : State → Issue → Cohort → State) :
    Host.Outcome State Fault Refusal :=
  .next (match s.issue? i with
    | none => s
    | some x =>
      match find? s.cohorts x.co with
      | none => s
      | some c =>
        if x.ts.any c.isHeld then s
        else
          match bad with
          | some t => s.trapAll x t
          | none => body s x c)

/-- ILLEGAL_OP where a field that must be zero is not. -/
def illIf (b : Bool) : Option Trap := if b then some .illegalOp else none

/-- Threads that take a transfer to `a`, whose word is still to be checked where it could not be read. -/
def State.jump (s : State) (x : Issue) (ks : List Nat) (a : DWord) (unread : Bool) : State :=
  s.modThreads x.co ks fun _ t => { t.goto a with land := unread }

/-- The two parts of a group after a branch, each an issue group of its own (R91, R92). -/
def State.parts (s : State) (x : Issue) (ks js : List Nat) : State :=
  (s.settle x.co x.g ks).settle x.co x.g js

/-- Traps at a target that fails R24: the frame records the target as program counter. -/
def State.landAll (s : State) (x : Issue) (ks : List Nat) (a : DWord) (t : Trap) (w : Word) : State :=
  s.takeTraps x.co x.g (ks.map fun k => (k, landCause a t w))

/-- An instruction's address displaced by words (R90). -/
def Issue.off (x : Issue) (n : Int) : DWord := BitVec.ofNat 64 (wrapNat 64 (x.pc.toNat + 4 * n))

/-- The threads of an issue that a predicate holds for. -/
def Cohort.takers (c : Cohort) (x : Issue) (n : Bool) (q : BitVec 3) : List Nat :=
  x.ts.filter fun k => ((c.thread? k).map fun t => predArg t n q).getD false

/-- R91 `bra`: the target is checked whether or not a thread takes it (R90). -/
def execBra (ce n : Bool) (q : BitVec 3) (imm : BitVec 30) (s : State) : Host.Outcome State Fault Refusal :=
  s.control (.bra ce n q imm) (illIf (!ce && (n || q != 0))) fun s x c =>
    let a := x.off imm.toInt
    match s.checkTarget x.ci x.ctx a false with
    | (.bad t w, s) => s.landAll x x.ts a t w
    | (r, s) =>
      let T := if ce then c.takers x n q else x.ts
      let F := x.ts.filter fun k => !T.contains k
      let s := if T.isEmpty || F.isEmpty then s else s.bump .cluBraDiverge x.ci 1
      let s := s.jump x T a (r == .unread)
      (s.modThreads x.co F fun _ t => t.advance 8).parts x T F

/-- A serial overflow run begins (R94): each thread is placed where its own predicate sends it, and the
lowest lane starts. -/
def State.startSerial (s : State) (x : Issue) : State :=
  match find? s.cohorts x.co with
  | none => s
  | some c =>
    let run := c.fresh
    let s := s.modThreads x.co x.ts fun _ t => { t with ovf := 1, run := .serialWait run }
    let s := s.modCohort x.co fun c =>
      ({ c with fresh := run + 1, serials := insert c.serials run ⟨x.ts, x.ts⟩ }).tidy
    s.serialNext x.co run

/-- R92, R94 `brd`. -/
def execBrd (n : Bool) (q : BitVec 3) (tgt join : BitVec 15) (s : State) : Host.Outcome State Fault Refusal :=
  s.control (.brd n q tgt join) none fun s x c =>
    let a := x.off tgt.toInt
    let j := x.off join.toInt
    match s.checkTarget x.ci x.ctx a false with
    | (.bad t w, s) => s.landAll x x.ts a t w
    | (r, s) =>
      match s.checkTarget x.ci x.ctx j false with
      | (.bad t w, s) => s.landAll x x.ts j t w
      | (_, s) =>
        let ts := x.ts.filterMap c.thread?
        let deep := ts.any fun t => decide (c.hdr.divdepth ≤ t.divs.length)
        let owed := ts.any fun t => decide (0 < t.ovf)
        if deep && !owed && c.hdr.divover then s.trapAll x .divOverflow
        else
          let T := c.takers x n q
          let F := x.ts.filter fun k => !T.contains k
          let s := (s.jump x T a (r == .unread)).modThreads x.co F fun _ t => t.advance 8
          if owed then (s.modThreads x.co x.ts fun _ t => { t with ovf := t.ovf + 1 }).parts x T F
          else if deep then s.startSerial x
          else
            let id := c.fresh
            let s := s.modCohort x.co fun c =>
              { c with fresh := id + 1, divs := insert c.divs id ⟨j, x.ts⟩ }
            (s.modThreads x.co x.ts fun _ t => { t with divs := id :: t.divs }).parts x T F

/-- R93, R94 `join`. -/
def execJoin (s : State) : Host.Outcome State Fault Refusal :=
  s.control .join none fun s x c =>
    let isTop (t : Thread) : Bool := ((t.divs.head?.bind (find? c.divs)).map fun e => e.join == x.pc).getD false
    let owed := x.ts.filter fun k => ((c.thread? k).map fun t => decide (0 < t.ovf)).getD false
    let last := owed.filter fun k => ((c.thread? k).map fun t => t.ovf == 1).getD false && (c.serialOf k).isSome
    let wait := x.ts.filter fun k => !owed.contains k && ((c.thread? k).map isTop).getD false
    let pass := x.ts.filter fun k => !last.contains k && !wait.contains k
    let s := if pass.any fun k => !owed.contains k then s.bump .cluJoinNop x.ci 1 else s
    let s := s.modThreads x.co owed fun _ t => { t with ovf := t.ovf - 1 }
    let s := s.modThreads x.co pass fun _ t => t.advance 4
    let s := s.modThreads x.co last fun k t => { t with run := .serialDone ((c.serialOf k).getD 0) (x.pc + 4) }
    let s := (s.modThreads x.co wait fun _ t => { t with run := .join (x.pc + 4) }).settle x.co x.g pass
    let s := ((last.filterMap c.serialOf).eraseDups).foldl (fun s r => s.serialNext x.co r) s
    ((wait.filterMap fun k => (c.thread? k).bind fun t => t.divs.head?).eraseDups).foldl
      (fun s id => s.releaseJoin x.co id) s

/-- A bin is drawn (R241): its threads form one issue group. -/
def State.drawBin (s : State) (ci b : Nat) : State :=
  match find? (s.cluster ci).bins b with
  | none => s
  | some x =>
    match find? s.cohorts x.cohort with
    | none => s
    | some c =>
      let ks := keys (filterMap c.threads fun _ t => t.run == .binned b)
      (s.modCluster ci fun cl => { cl with bins := erase cl.bins b }).regroup x.cohort (byLane ks)

/-- The lanes of a bin that are taken. -/
def State.binLanes (s : State) (co b : Nat) : List Nat :=
  match find? s.cohorts co with
  | none => []
  | some c => (keys (filterMap c.threads fun _ t => t.run == .binned b)).map (· % 32)

/-- *File* (R95): a thread that goes on at its PC goes into a bin of its key with its lane free, or into a
new one; with 64 open the oldest is drawn first. -/
def State.file (s : State) (x : Issue) (k : Nat) : State :=
  match s.thread? x.co k, find? s.cohorts x.co with
  | some t, some c =>
    let sp := (c.crewOf k).sp
    let here := (s.cluster x.ci).bins.filter fun b => b.2.sp == sp
    let fit := here.filter fun b => b.2.cohort == x.co && b.2.key == t.pc && !(s.binLanes x.co b.1).contains (k % 32)
    let put (s : State) (b : Nat) : State := s.modThread x.co k fun t => { t with run := .binned b }
    match fit with
    | b :: _ =>
      let r := s.choose fit.length
      put r.2 ((fit[r.1]?).getD b).1
    | [] =>
      let s : State := match here with
        | b :: _ => if here.length < 64 then s else (s.drawBin x.ci b.1).bump .cluBinForced x.ci 1
        | [] => s
      let id := s.newId
      put (id.2.modCluster x.ci fun cl => { cl with bins := insert cl.bins id.1 ⟨sp, x.co, t.pc, 0, false⟩ }) id.1
  | _, _ => s

/-- R95 `reform`: a thread is filed under the address at which it goes on. -/
def execReform (s : State) : Host.Outcome State Fault Refusal :=
  s.control .reform none fun s x c =>
    let skip := x.ts.filter fun k => ((c.thread? k).map fun t => t.divs.length + t.ovf != 0).getD false
    let go := x.ts.filter fun k => !skip.contains k
    let s := (s.bump .cluReformSkip x.ci skip.length).modThreads x.co x.ts fun _ t => t.advance 4
    let s := go.foldl (fun s k => s.file x k) s
    s.settle x.co x.g skip

/-- The link of `call` may be a pair, a scalar register or `zr` (R96). -/
def linkOk (d : Sel) : Bool := (isSlot d && d.toNat % 2 == 0) || isScalar d || d == 124

/-- The rules of an instruction without prefix or sources that writes a value. -/
def bareForm (srcs : List Src) (dst : Option Dst) : Form :=
  ⟨none, ⟨false, false, false, false, false⟩, some .b64, srcs, dst, false, false⟩

/-- R96 `call`. -/
def execCall (d : Sel) (imm : BitVec 30) (s : State) : Host.Outcome State Fault Refusal :=
  s.control (.call d imm) (illIf (!linkOk d)) fun s x _ =>
    let a := x.off imm.toInt
    match s.checkTarget x.ci x.ctx a false with
    | (.bad t w, s) => s.landAll x x.ts a t w
    | (r, s) =>
      let f := bareForm [] (some (dstOf .b64 d))
      match s.operands x f x.ts with
      | .blocked s => s
      | .lanes s ls zs =>
        let q := s.writeDst x (dstOf .b64 d) (ls.map fun p => (p.1, (x.pc + 8).toNat))
        let s := (q.2.2.jump x q.1 a (r == .unread)).settle x.co x.g q.1
        s.takeTraps x.co x.g (zs ++ q.2.1)

/-- An address operand: a pair or a scalar register (R96). -/
def addrOk (a : Sel) : Bool := (isSlot a && a.toNat % 2 == 0) || isScalar a

/-- Each thread's own transfer (R96): a target that fails R24 traps in the thread's own frame. -/
def State.jumpEach (s : State) (x : Issue) (ls : List (Nat × DWord)) : State × List Nat × List (Nat × Cause) :=
  ((ls.map Prod.snd).eraseDups).foldl (fun (r : State × List Nat × List (Nat × Cause)) a =>
    let ks := (ls.filter fun p => p.2 == a).map Prod.fst
    match r.1.checkTarget x.ci x.ctx a false with
    | (.bad t w, s) => (s, r.2.1, r.2.2 ++ ks.map fun k => (k, landCause a t w))
    | (c, s) => (s.jump x ks a (c == .unread), r.2.1 ++ ks, r.2.2)) (s, [], [])

/-- `ret` and `jmp` (R96). -/
def jumpTo (i : Instr) (a : Sel) (s : State) : Host.Outcome State Fault Refusal :=
  s.control i (illIf (!addrOk a)) fun s x _ =>
    match s.operands x (bareForm [srcOf .b64 false none a] none) x.ts with
    | .blocked s => s
    | .lanes s ls zs =>
      let ds := ls.map fun p => (p.1, BitVec.ofNat 64 (arg p.2 0))
      let s := if (ds.map Prod.snd).eraseDups.length ≤ 1 then s else s.bump .cluBraDiverge x.ci 1
      let r := s.jumpEach x ds
      (r.1.settle x.co x.g r.2.1).takeTraps x.co x.g (zs ++ r.2.2)

/-- R96 `ret`. -/
def execRet (a : Sel) (s : State) : Host.Outcome State Fault Refusal := jumpTo (.ret a) a s
/-- R96 `jmp`. -/
def execJmp (a : Sel) (s : State) : Host.Outcome State Fault Refusal := jumpTo (.jmp a) a s

/-- What finding Next(end) came to (R97). -/
inductive After where
  | at (a : DWord)
  | page (va level : Nat)
  | trap (t : Trap)
  deriving DecidableEq, Repr

/-- Next(end): the address after the instruction at `a`, with its prefix and tail (R97). -/
def State.afterInstr (s : State) (x : Issue) (a : DWord) : After × State :=
  let wide (w : Word) : Nat := if wordKind w = 1 then 8 else 4
  match s.fetchAt x.ci x.ctx a.toNat with
  | (.page l, s) => (.page a.toNat l, s)
  | (.trap t, s) => (.trap t, s)
  | (.word w, s) =>
    if wordKind w = 2 then
      match s.fetchAt x.ci x.ctx (a + 4).toNat with
      | (.page l, s) => (.page (a + 4).toNat l, s)
      | (.trap t, s) => (.trap t, s)
      | (.word v, s) => (.at (a + 4 + BitVec.ofNat 64 (wide v)), s)
    else (.at (a + BitVec.ofNat 64 (wide w)), s)

/-- Threads that go on at Next(end) of an instruction; where its words cannot be read they take what a
fetch of them gives (log entry 31). -/
def State.skipPast (s : State) (x : Issue) (ks : List Nat) (e : DWord) (f : DWord → Thread → Thread) :
    State × List Nat × List (Nat × Cause) :=
  if ks.isEmpty then (s, [], [])
  else
    match s.afterInstr x e with
    | (.at a, s) => (s.modThreads x.co ks fun _ t => f a t, ks, [])
    | (.page va l, s) => (ks.foldl (fun s k => s.parkOnPage x k va Need.fetch .thread l) s, [], [])
    | (.trap t, s) => (s, [], ks.map fun k => (k, x.cause t 0))

/-- R97 `loop`: the check of the end is made first; a count of zero pushes nothing. -/
def execLoop (a : Sel) (stop : BitVec 14) (ci : Bool) (icount : BitVec 15) (s : State) : Host.Outcome State Fault Refusal :=
  let f := bareForm (if ci then [] else [srcWord false a]) none
  s.control (.loop a stop ci icount) (illIf ((ci && a != 0) || (!ci && (srcWord false a).ill))) fun s x c =>
    let start := x.pc + 8
    let e := start + BitVec.ofNat 64 (4 * stop.toNat)
    match s.checkTarget x.ci x.ctx e true with
    | (.bad t w, s) => s.landAll x x.ts e t w
    | (_, s) =>
      match s.operands x f x.ts with
      | .blocked s => s
      | .lanes t ls zs => s.withPops t x c f x.ts fun s =>
        let count (p : Nat × List Nat) : Nat := if ci then icount.toNat else arg p.2 0 % 2 ^ 32
        let zero := (ls.filter fun p => count p == 0).map Prod.fst
        let some_ := ls.filter fun p => count p != 0
        let full (p : Nat × List Nat) : Bool := ((s.thread? x.co p.1).map fun t => decide (4 ≤ t.loops.length)).getD true
        let go := some_.filter fun p => !full p
        let zs := zs ++ (some_.filter full).map fun p => (p.1, x.cause .loopOverflow 0)
        let s : State := go.foldl (fun s p => s.modThread x.co p.1 fun t =>
          { t.advance 8 with loops := ⟨start, e, BitVec.ofNat 32 (count p)⟩ :: t.loops, pc := start, land := false }) s
        let r := s.skipPast x zero e fun n t => t.resume n
        (r.1.settle x.co x.g (byLane (go.map Prod.fst ++ r.2.1))).takeTraps x.co x.g (zs ++ r.2.2)

/-- R100 `lbrk`. -/
def execLbrk (s : State) : Host.Outcome State Fault Refusal :=
  s.control .lbrk none fun s x c =>
    let top (k : Nat) : Option DWord := ((c.thread? k).bind fun t => t.loops.head?).map LoopEntry.stop
    let flat := x.ts.filter fun k => (top k).isNone
    let s := s.modThreads x.co flat fun _ t => t.advance 4
    let r := ((x.ts.filterMap top).eraseDups).foldl (fun (r : State × List Nat × List (Nat × Cause)) e =>
      let q := r.1.skipPast x (x.ts.filter fun k => top k == some e) e
        fun n t => { t with loops := t.loops.tail }.goto n
      (q.1, r.2.1 ++ q.2.1, r.2.2 ++ q.2.2)) (s, flat, [])
    (r.1.settle x.co x.g (byLane r.2.1)).takeTraps x.co x.g r.2.2

/-- Records some indices of a role as completed, until one of them parks (R291). -/
def State.markAll (s : State) (grid ctx : Nat) : List (Nat × Nat) → HubDone × State
  | [] => (.ok, s)
  | p :: ps =>
    match s.markIndex grid ctx p.1 p.2 with
    | (.ok, s) => s.markAll grid ctx ps
    | r => r

/-- What a thread that ends records (R102, R233): its index, where the bitmap has a bit for it (R291); in the prologue every index of the cohort's
range, for every role that has crews. -/
def Cohort.marksOf (c : Cohort) (s : State) (k : Nat) : List (Nat × Nat) :=
  match c.thread? k with
  | none => []
  | some t =>
    if c.phase = .prologue then
      match find? s.lch.grids c.grid with
      | none => []
      | some g =>
        let r := g.range c.coh
        ((List.range 8).filter fun j => decide (0 < nth c.hdr.crews j 0)).flatMap fun j =>
          (List.range (r.2 - r.1)).map fun n => (j, r.1 + n)
    else if ((find? s.lch.grids c.grid).map fun g => decide (t.idx < g.total)).getD false then [(t.role, t.idx)]
    else []

/-- The end of a thread whose indices are recorded (R102): it waits while a page of its bitmap is not there. -/
def State.endThread (s : State) (x : Issue) (k : Nat) : State :=
  match find? s.cohorts x.co with
  | none => s
  | some c =>
    match s.markAll c.grid c.ctx (c.marksOf s k) with
    | (.ok, s) => (s.leave x.co k).testExhausted x.co
    | (.parked page, s) => s.wait x [k] fun _ => .faulted x.g page
    | (.ended, s) => s

/-- R102, R233 `exit`. -/
def execExit (s : State) : Host.Outcome State Fault Refusal :=
  s.control .exit none fun s x _ =>
    (x.ts.foldl (fun s k => s.endThread x k) s).modCohort x.co Cohort.tidy

/-- A trap that resumes after its instruction (R98, R103). -/
def Issue.after (x : Issue) (t : Trap) : Cause := ⟨t, 0, x.pc + 4, x.fw, 0, some x.pc⟩

/-- R103 `trap`. -/
def execTrap (code : BitVec 21) (s : State) : Host.Outcome State Fault Refusal :=
  s.control (.trap code) none fun s x _ => s.takeTraps x.co x.g (x.ts.map fun k => (k, x.after .syscall))

/-- R103 `brk`. -/
def execBrk (code : BitVec 21) (s : State) : Host.Outcome State Fault Refusal :=
  s.control (.brk code) none fun s x _ => s.takeTraps x.co x.g (x.ts.map fun k => (k, x.after .brk))

/-- The trap that words which form no instruction raise, and the words its frame records (R16, R19, R35,
R366). -/
def badTrap : BadWords → Trap × Word × Word
  | .orphanTail w => (.illegalOp, w, 0)
  | .headWithoutTail p w => (.illegalOp, w, p.getD 0)
  | .orphanPrefix p => (.orphanPrefix, p, p)
  | .unassigned p w => (.illegalOp, w, p.getD 0)

/-- R16, R19, R35: words that form no instruction. -/
def execIllegalOp (w : BadWords) (s : State) : Host.Outcome State Fault Refusal :=
  s.control (.illegalOp w) none fun s x _ =>
    let z := badTrap w
    s.takeTraps x.co x.g (x.ts.map fun k => (k, ⟨z.1, 0, x.pc, z.2.1, z.2.2, none⟩))

/-- R104 `nop`. -/
def execNop (s : State) : Host.Outcome State Fault Refusal :=
  s.control .nop none fun s x _ => s.retire x x.ts

end Sys2Proof.Machine
end

