-- ==== Sys2Proof/Machine/MemInstr.lean ====
section
/-!
DEFINITION. Loads, stores and prefetches, group 4 (R137 to R148), and the completion of delayed results.
-/

namespace Sys2Proof.Machine

/-- The address operands of a memory-reference instruction (R138, R139). -/
structure MemRef where
  sp  : Bool
  a   : Sel
  b   : Sel
  ofs : Int
  cl  : Nat
  sx  : Bool
  sh  : Nat
  deriving DecidableEq, Repr

/-- The short form (R139). -/
def shortRef (sp : Bool) (a b : Sel) : MemRef := ⟨sp, a, b, 0, 0, false, 0⟩

/-- Form M (R15, R139). -/
def longRef (sp : Bool) (a b : Sel) (ofs : BitVec 24) (cl : BitVec 2) (sx : Bool) (sh : BitVec 3) : MemRef :=
  ⟨sp, a, b, ofs.toInt, cl.toNat, sx, sh.toNat⟩

/-- The selectors that name a base (R138). -/
def baseSel (sp : Bool) (a : Sel) : Bool := (isSlot a && (sp || a.toNat % 2 == 0)) || isScalar a || a == 124

/-- The selectors that name an index (R138). -/
def indexSel (b : Sel) : Bool := isSlot b || isScalar b || b == 124 || b == 126

/-- A base as a source operand (R138). -/
def baseSrc (sp : Bool) (p : Option Pfx) (a : Sel) : Src := ⟨a, !sp, if sp then 32 else 64, polA p, none⟩

/-- The effective address of a lane (R139). -/
def MemRef.ea (m : MemRef) (vs : List Nat) : Nat :=
  let idx : Int := if m.sx then toSigned 32 (arg vs 1) else (arg vs 1 % 2 ^ 32 : Nat)
  let base := if m.sp then arg vs 0 % 2 ^ 32 else arg vs 0
  wrapNat (if m.sp then 32 else 64) (base + idx * (2 ^ m.sh : Nat) + m.ofs)

/-- The operand rules of a memory-reference instruction (R137, R138): `ty` where it has a type, `data` the
source of a store. -/
def memForm (p : Option Pfx) (m : MemRef) (ty : Bool) (data : List Src) (dst : Option Dst) : Form where
  p := p
  acc := ⟨false, false, false, true, ty⟩
  ty := if ty then gty p .b32 else some .b32
  srcs := [baseSrc m.sp p m.a, srcWord (polB p) m.b] ++ data
  dst := dst
  ill := !baseSel m.sp m.a || !indexSel m.b
  res := decide (5 ≤ m.sh) || (m.sp && m.cl != 0)

/-- The type of a memory-reference instruction (R137). -/
def memType (p : Option Pfx) : Ety := (gty p .b32).getD .b32

/-- One lane's access as its lane's outcome. -/
def Acc.toLane {α β : Type} (a : Acc α) (ea : Nat) (need : Need) (f : α → β) : Lane β :=
  match a with
  | .ok v => .done (f v)
  | .trap t => .trap t ea
  | .page l => .page ea l need

/-- A value loaded, as a register takes it (R47, R141). -/
def loaded (t : Ety) (v : Nat) : LaneRes := ⟨t.toReg v, 0, none⟩

/-- Loads (R141, R144). -/
def loadInstr (i : Instr) (p : Option Pfx) (d : Sel) (m : MemRef) (s : State) : Host.Outcome State Fault Refusal :=
  let t := memType p
  let f := memForm p m true [] (some (dstOf t d))
  s.run i f open_ fun s x off ls zs =>
    let r := s.eachLane (fun s _ vs =>
      let q := s.load x m.sp (m.ea vs) (t.width / 8) m.cl
      (q.1.toLane (m.ea vs) Need.read (loaded t), q.2)) ls
    (r.2.finishLater x f .load off zs r.1).parkLanes x .thread r.1

/-- Stores (R141, R148). -/
def storeInstr (i : Instr) (p : Option Pfx) (d : Sel) (m : MemRef) (s : State) : Host.Outcome State Fault Refusal :=
  let t := memType p
  let f := memForm p m true [srcOf t false none d] none
  s.run i f open_ fun s x off ls zs =>
    let o := s.laneOrder (ls.map fun l => (l.1, m.ea l.2, arg l.2 2))
    let r := o.2.eachLane (fun s _ (v : Nat × Nat) =>
      let q := s.store x m.sp v.1 (t.width / 8) v.2
      (q.1.toLane v.1 Need.write fun _ => (⟨0, 0, none⟩ : LaneRes), q.2)) o.1
    (r.2.finish x f off zs r.1).parkLanes x .thread r.1

/-- R141 `ld`. -/
def execLd (p : Option Pfx) (d a b : Sel) (s : State) : Host.Outcome State Fault Refusal :=
  loadInstr (.ld p d a b) p d (shortRef false a b) s
/-- R141 `ld`, form M. -/
def execLdOfs (p : Option Pfx) (d a b : Sel) (ofs : BitVec 24) (cl : BitVec 2) (sx : Bool) (sh : BitVec 3) (s : State) :
    Host.Outcome State Fault Refusal :=
  loadInstr (.ldOfs p d a b ofs cl sx sh) p d (longRef false a b ofs cl sx sh) s
/-- R141 `ldsp`. -/
def execLdsp (p : Option Pfx) (d a b : Sel) (s : State) : Host.Outcome State Fault Refusal :=
  loadInstr (.ldsp p d a b) p d (shortRef true a b) s
/-- R141 `ldsp`, form M. -/
def execLdspOfs (p : Option Pfx) (d a b : Sel) (ofs : BitVec 24) (cl : BitVec 2) (sx : Bool) (sh : BitVec 3) (s : State) :
    Host.Outcome State Fault Refusal :=
  loadInstr (.ldspOfs p d a b ofs cl sx sh) p d (longRef true a b ofs cl sx sh) s
/-- R141 `st`. -/
def execSt (p : Option Pfx) (d a b : Sel) (s : State) : Host.Outcome State Fault Refusal :=
  storeInstr (.st p d a b) p d (shortRef false a b) s
/-- R141 `st`, form M. -/
def execStOfs (p : Option Pfx) (d a b : Sel) (ofs : BitVec 24) (cl : BitVec 2) (sx : Bool) (sh : BitVec 3) (s : State) :
    Host.Outcome State Fault Refusal :=
  storeInstr (.stOfs p d a b ofs cl sx sh) p d (longRef false a b ofs cl sx sh) s
/-- R141 `stsp`. -/
def execStsp (p : Option Pfx) (d a b : Sel) (s : State) : Host.Outcome State Fault Refusal :=
  storeInstr (.stsp p d a b) p d (shortRef true a b) s
/-- R141 `stsp`, form M. -/
def execStspOfs (p : Option Pfx) (d a b : Sel) (ofs : BitVec 24) (cl : BitVec 2) (sx : Bool) (sh : BitVec 3) (s : State) :
    Host.Outcome State Fault Refusal :=
  storeInstr (.stspOfs p d a b ofs cl sx sh) p d (longRef true a b ofs cl sx sh) s

/-- Lines of a cluster's constant cache: 64 KiB (R249). -/
def constLines : Nat := 512

/-- A line enters a cluster's constant cache as a load of the whole line would read it (R145, R309); one that it holds
makes room where it is full, by a choice. -/
def State.fillConst (s : State) (ci world n : Nat) : State :=
  match s.readPhys world (128 * n) 128 with
  | (.error _, s) => s
  | (.ok bs, s) =>
    let r := s.fillCopy constLines (s.cluster ci).ccache n bs
    r.2.modCluster ci fun c => { c with ccache := r.1 }

/-- A load of `k` bytes through the constant cache (R145): the line it was filled with may serve it, or
memory, which then fills it. -/
def State.loadConst (s : State) (x : Issue) (ea k cl : Nat) : Acc Nat × State :=
  let r := s.loadMem x.ci x.ctx ea k cl
  match r.1 with
  | .ok v =>
    match (r.2.translate x.ci x.ctx ea Need.read).1 with
    | .error _ => r
    | .ok p =>
      let n := p.pa / 128
      match find? (r.2.cluster x.ci).ccache n with
      | none => (.ok v, r.2.fillConst x.ci p.world n)
      | some bs =>
        let c := r.2.choose 2
        if c.1 = 0 then (.ok (ofBytes ((bs.drop (p.pa % 128)).take k)), c.2) else (.ok v, c.2.fillConst x.ci p.world n)
  | _ => r

/-- Constant loads (R145). -/
def constInstr (i : Instr) (p : Option Pfx) (d : Sel) (m : MemRef) (s : State) : Host.Outcome State Fault Refusal :=
  let t := memType p
  let f := memForm p m true [] (some (dstOf t d))
  s.run i f open_ fun s x off ls zs =>
    let r := s.eachLane (fun s _ vs =>
      let q := s.loadConst x (m.ea vs) (t.width / 8) m.cl
      (q.1.toLane (m.ea vs) Need.read (loaded t), q.2)) ls
    (r.2.finishLater x f .load off zs r.1).parkLanes x .thread r.1

/-- R145 `ldc`. -/
def execLdc (p : Option Pfx) (d a b : Sel) (s : State) : Host.Outcome State Fault Refusal :=
  constInstr (.ldc p d a b) p d (shortRef false a b) s
/-- R145 `ldc`, form M. -/
def execLdcOfs (p : Option Pfx) (d a b : Sel) (ofs : BitVec 24) (cl : BitVec 2) (sx : Bool) (sh : BitVec 3) (s : State) :
    Host.Outcome State Fault Refusal :=
  constInstr (.ldcOfs p d a b ofs cl sx sh) p d (longRef false a b ofs cl sx sh) s

/-- The load-completion binding that a selector names (R146). -/
def Cohort.loadBinding (c : Cohort) (role : Nat) (d : Sel) : Option QBind :=
  if isQueue d then (c.qbind? role (d.toNat - 112)).filter fun b => b.kind == 3 else none

/-- Appends the entries of one `ldq` and its outstanding result (R146). -/
def State.appendLoad (s : State) (x : Issue) (role : Nat) (d : Sel) (wide : Bool) (vs : List (Nat × LaneRes)) : State :=
  s.modCohort x.co fun c =>
    let key := 8 * role + (d.toNat - 112)
    let es := if wide then [c.fresh, c.fresh + 1] else [c.fresh]
    let serial := ((find? c.queues key).map QBind.serial).getD 0
    let p : Pend := ⟨.ldq role (d.toNat - 112) serial es, .drop, (c.crewOf (x.ts.head?.getD 0)).sp,
      vs.map fun v => (v.1, v.2.val), c.fresh + 2⟩
    { c with
      queues := modify c.queues key fun b => { b with entries := b.entries ++ es.map fun e => (e, none) }
      pends := insert c.pends (c.fresh + 2) p
      fresh := c.fresh + 3 }

/-- Loads to a queue register (R146). -/
def queueLoad (i : Instr) (p : Option Pfx) (d : Sel) (m : MemRef) (s : State) : Host.Outcome State Fault Refusal :=
  let t := memType p
  let f := memForm p m true [] none
  s.runPre i { f with ill := f.ill || decide (125 ≤ d.toNat) }
    (fun _ _ c act =>
      if !oneRole c act || (c.loadBinding (roleOf c act) d).isNone then .trap .accessFault else .go)
    fun s x off ls zs =>
      match find? s.cohorts x.co with
      | none => s
      | some c =>
        let role := roleOf c (ls.map Prod.fst)
        let used := ((c.loadBinding role d).map fun b => b.entries.length).getD 0
        if !ls.isEmpty && loadEntries < used + (if t.isPair then 2 else 1) then s.pushWaits x (.loads (8 * role + (d.toNat - 112)) (if t.isPair then 2 else 1)) (ls.map Prod.fst) zs
        else
          let r := s.eachLane (fun s _ vs =>
            let q := s.load x m.sp (m.ea vs) (t.width / 8) m.cl
            (q.1.toLane (m.ea vs) Need.read (loaded t), q.2)) ls
          let ok := doneLanes r.1
          let s := if ok.isEmpty then r.2 else r.2.appendLoad x role d t.isPair ok
          (s.close x (off ++ ok.map Prod.fst) (zs ++ trapLanes x r.1)).parkLanes x .thread r.1

/-- R146 `ldq`. -/
def execLdq (p : Option Pfx) (d a b : Sel) (s : State) : Host.Outcome State Fault Refusal :=
  queueLoad (.ldq p d a b) p d (shortRef false a b) s
/-- R146 `ldq`, form M. -/
def execLdqOfs (p : Option Pfx) (d a b : Sel) (ofs : BitVec 24) (cl : BitVec 2) (sx : Bool) (sh : BitVec 3) (s : State) :
    Host.Outcome State Fault Refusal :=
  queueLoad (.ldqOfs p d a b ofs cl sx sh) p d (longRef false a b ofs cl sx sh) s

/-- A line requested into a level (R139, R147): what has no translation, another world's tag or poison is
dropped. The request passes the remote-data cache on its way to level 0 or 2. -/
def State.prefetch (s : State) (x : Issue) (ea cl : Nat) : State :=
  match s.translate x.ci x.ctx ea Need.nothing with
  | (.error _, s) => s
  | (.ok p, s) =>
    if !s.worldOk x.ctx p.world || (s.line (p.pa / 128)).poison then s
    else if cl = 0 ∨ cl = 2 then
      if p.attr = 2 then s.ncFill x.ci p.world (p.pa / 128) true (cl == 0)
      else if p.attr = 1 then s
      else s.countRdc (dieOf x.ci) p.pa p.world p.attr 0
    else s

/-- Prefetches (R147). -/
def prefInstr (i : Instr) (p : Option Pfx) (m : MemRef) (s : State) : Host.Outcome State Fault Refusal :=
  let f := memForm p m false [] none
  s.run i f open_ fun s x off ls zs =>
    let s := ls.foldl (fun s l => s.prefetch x (m.ea l.2) m.cl) s
    s.close x (off ++ ls.map Prod.fst) zs

/-- R147 `pref`. -/
def execPref (p : Option Pfx) (a b : Sel) (s : State) : Host.Outcome State Fault Refusal :=
  prefInstr (.pref p a b) p (shortRef false a b) s
/-- R147 `pref`, form M. -/
def execPrefOfs (p : Option Pfx) (a b : Sel) (ofs : BitVec 24) (cl : BitVec 2) (sx : Bool) (sh : BitVec 3) (s : State) :
    Host.Outcome State Fault Refusal :=
  prefInstr (.prefOfs p a b ofs cl sx sh) p (longRef false a b ofs cl sx sh) s

/-- A delayed result of a kind is written (R22, R78, R107, R144). -/
def State.complete (s : State) (co id : Nat) (fits : PKind → Bool) : State :=
  match (find? s.cohorts co).bind fun c => find? c.pends id with
  | some p => if fits p.kind then s.applyPend co id else s
  | none => s

/-- R144, R146: the data of a load are written. -/
def execLoadComplete (co id : Nat) (s : State) : Host.Outcome State Fault Refusal :=
  .next (s.complete co id fun k => match k with
    | .load | .ldq .. => true
    | _ => false)

/-- R78: a quotient or remainder is written. -/
def execDivRemComplete (co id : Nat) (s : State) : Host.Outcome State Fault Refusal :=
  .next (s.complete co id fun k => match k with
    | .div => true
    | _ => false)

/-- R107: the result of a multi-cycle floating instruction is written. -/
def execMulticycleComplete (co id : Nat) (s : State) : Host.Outcome State Fault Refusal :=
  .next (s.complete co id fun k => match k with
    | .multi _ => true
    | _ => false)

end Sys2Proof.Machine
end

