-- ==== Sys2Proof/Machine/Atomic.lean ====
section
/-!
DEFINITION. Atomics, fences and cache maintenance, group 4 (R149 to R153).
-/

namespace Sys2Proof.Machine

/-- The new value of an atomic where it is stored (R150). -/
def atomNew (op : Nat) (t : Ety) (old b : Nat) : Nat :=
  let m := 2 ^ t.width
  match op with
  | 0 => t.wrap (t.num old + t.num b)
  | 1 => t.wrap (minInt (t.num old) (t.num b))
  | 2 => t.wrap (maxInt (t.num old) (t.num b))
  | 3 => (old &&& b) % m
  | 4 => (old ||| b) % m
  | 5 => (old ^^^ b) % m
  | 6 => b % m
  | 7 => b % m
  | 8 => if t.num old < t.num b then t.wrap (t.num old + 1) else old
  | 9 => if t.num b < t.num old then t.wrap (t.num old - 1) else old
  | _ =>
    let e : Ety := if t.isPair then .f64 else .f32
    let v := addVal .rne (e.val old) (e.val b)
    (e.result .rne false false v.1 v.2).1

/-- `cas` (R149). -/
def isCas (op : BitVec 4) : Bool := op == 7

/-- Pairings of an operation and a type that are not allowed (R149). -/
def atomIll (op : Nat) (t : Ety) : Bool :=
  !(t.isB || t == .s32 || t == .n32 || t == .s64 || t == .n64)
    || ((op == 1 || op == 2 || op == 8 || op == 9) && !(t.isS || t.isN))
    || (op == 10 && !t.isB)

/-- Translation of an atomic's access (R142 steps 3 and 4): a page mapped NC raises ACCESS_FAULT (R148). -/
def State.atomPlace (s : State) (ci ctx ea : Nat) : Acc Place × State :=
  match s.translate ci ctx ea Need.atomic with
  | (.error (.page l), s) => (.page l, s)
  | (.error (.trap t), s) => (.trap t, s)
  | (.ok p, s) =>
    if p.attr ≠ 0 then (.trap .accessFault, s)
    else if s.worldOk ctx p.world then (.ok p, s) else (.trap .worldFault, s.postWorld ci p.world)

/-- 256 slice cycles in ticks (R151, R318). -/
def grantWindow : Nat := 170

/-- Where a lane atomic on a line of device memory executes (R151): it is counted, and a third one within
the window brings the line to the cluster. A granted line may have been evicted. -/
def State.countAtom (s : State) (ci pa : Nat) : State :=
  if !s.isDevice pa then s
  else
    let n := pa / 128
    let r := if (s.cluster ci).granted.contains n then s.choose 2 else (1, s)
    let s := r.2
    if r.1 = 0 then s.bump .cluAtomNear ci 1
    else
      let near := (s.cluster ci).recent.filter fun p => decide (s.timer ≤ p.2 + grantWindow)
      let times := (near.filter fun p => p.1 == n).length + 1
      let s := (s.modCluster ci fun c => { c with
        recent := if 3 ≤ times then near.filter fun p => p.1 != n else near ++ [(n, s.timer)]
        granted := if 3 ≤ times then n :: c.granted.filter (· != n) else c.granted.filter (· != n) }).bump .cluAtomFar ci 1
      if 3 ≤ times then s.bump .cluAtomGrant ci 1 else s

/-- The write of an atomic that has read `old` (R150), and its lane's result. -/
def atomEnd (op : Nat) (t : Ety) (back : Bool) (old b c : Nat) : Bool × Nat × LaneRes :=
  let new := atomNew op t old b
  let go := op != 7 || old == c % 2 ^ t.width
  (go, new, ⟨t.toReg (if back && go then new else old), 0, none⟩)

/-- One lane's read-modify-write in memory (R142, R150). -/
def State.atomMem (s : State) (x : Issue) (op : Nat) (t : Ety) (back : Bool) (ea b c : Nat) : Lane LaneRes × State :=
  let k := t.width / 8
  if ea % k ≠ 0 then (.trap .alignFault ea, s)
  else
    match s.atomPlace x.ci x.ctx ea with
    | (.page l, s) => (.page ea l Need.atomic, s)
    | (.trap z, s) => (.trap z ea, s)
    | (.ok p, s) =>
      match (s.recall x.ci (p.pa / 128)).readPhys p.world p.pa k with
      | (.error z, s) => (.trap z ea, s)
      | (.ok bs, s) =>
        let r := atomEnd op t back (ofBytes bs) b c
        let s := s.countAtom x.ci p.pa
        if !r.1 then (.done r.2.2, s)
        else
          match s.writePhys p.world p.pa (toBytes r.2.1 k) with
          | (some z, s) => (.trap z ea, s)
          | (none, t) => (.done r.2.2, t.noteStale ⟨x.co, x.ts, false, p.pa, bs⟩ (toBytes r.2.1 k))

/-- One lane's read-modify-write in scratchpad (R142, R149, R150). -/
def State.atomSpad (s : State) (x : Issue) (op : Nat) (t : Ety) (back : Bool) (ea b c : Nat) : Lane LaneRes × State :=
  let k := t.width / 8
  match find? s.cohorts x.co with
  | none => (.trap .accessFault ea, s)
  | some co =>
    match co.spadCheck ea k true with
    | some z => (.trap z ea, s)
    | none =>
      let s := s.touchSpad co ea k
      if s.spadPoisoned co ea then (.trap .poison ea, s)
      else
        let r := atomEnd op t back (ofBytes (s.spadGet co ea k)) b c
        (.done r.2.2, if r.1 then
            (s.spadPut x.co ea (toBytes r.2.1 k)).noteStale ⟨x.co, x.ts, true, ea, s.spadGet co ea k⟩ (toBytes r.2.1 k)
          else s)

/-- The lanes of an atomic, one after another in an order of the device's choice (R142, R150, R167). -/
def State.atomLanes (s : State) (x : Issue) (op : Nat) (t : Ety) (back sp : Bool) (ls : List (Nat × List Nat)) :
    List (Nat × Lane LaneRes) × State :=
  let ea (vs : List Nat) : Nat := if sp then arg vs 0 % 2 ^ 32 else arg vs 0
  let o := s.laneOrder (ls.map fun l => (l.1, ea l.2, l.2))
  o.2.eachLane (fun s k (v : Nat × List Nat) =>
    if ((s.thread? x.co k).map Thread.idempotent).getD false then (.trap .regionViolation v.1, s)
    else if sp then s.atomSpad x op t back v.1 (arg v.2 1) (arg v.2 2)
    else s.atomMem x op t back v.1 (arg v.2 1) (arg v.2 2)) o.1

/-- The operand rules of an atomic (R149). -/
def atomForm (p : Option Pfx) (dst : Option Sel) (a b c : Sel) (op : BitVec 4) (sp : Bool) : Form where
  p := p
  acc := ⟨false, false, false, true, true⟩
  ty := gty p .b32
  srcs := [baseSrc sp p a, srcOf (memType p) (polB p) none b] ++ if isCas op then [srcOf (memType p) false none c] else []
  dst := dst.map (dstOf (memType p))
  ill := !baseSel sp a || (!isCas op && c != 0) || ((gty p .b32).map fun t => atomIll op.toNat t).getD false
    || (dst.isNone && (op == 6 || op == 7))
  res := decide (11 ≤ op.toNat)

/-- Atomics (R149, R150). A lane whose destination finds no register (R192), or would not take its value (R45), does not
perform its access. -/
def atomInstr (i : Instr) (p : Option Pfx) (dst : Option Sel) (a b c : Sel) (op : BitVec 4) (sp back : Bool) (s : State) :
    Host.Outcome State Fault Refusal :=
  let t := memType p
  let f := atomForm p dst a b c op sp
  s.run i f open_ fun s x off ls zs =>
    let dry := s.atomLanes x op.toNat t back sp ls
    let done := (doneLanes (byKey dry.1)).map fun p => (p.1, p.2.val)
    let bad := match f.dst with
      | some o => dry.2.dstStops x o done
      | none => []
    let ok := (done.map Prod.fst).filter fun k => !bad.any fun z => z.1 == k
    let held : List Nat × State := match f.dst with
      | some o => s.allocate x o ok
      | none => (ok, s)
    let stopped := (done.map Prod.fst).filter fun k => !held.1.contains k
    let r := held.2.atomLanes x op.toNat t back sp (ls.filter fun l => !stopped.contains l.1)
    ((r.2.finish x f off (zs ++ trapLanes x bad) (byKey r.1)).parkLanes x .thread r.1).parkLanes x .thread bad
where
  /-- Lanes in ascending order. -/
  byKey (l : List (Nat × Lane LaneRes)) : List (Nat × Lane LaneRes) :=
    (byLane (l.map Prod.fst)).filterMap fun k => l.find? fun p => p.1 == k

/-- R150 `atom`. -/
def execAtom (p : Option Pfx) (d a b c : Sel) (op : BitVec 4) (sp : Bool) (s : State) : Host.Outcome State Fault Refusal :=
  atomInstr (.atom p d a b c op sp) p (some d) a b c op sp false s
/-- R150 `atomr`. -/
def execAtomr (p : Option Pfx) (d a b c : Sel) (op : BitVec 4) (sp : Bool) (s : State) : Host.Outcome State Fault Refusal :=
  atomInstr (.atomr p d a b c op sp) p (some d) a b c op sp true s
/-- R150 `red`. -/
def execRed (p : Option Pfx) (a b : Sel) (op : BitVec 4) (sp : Bool) (s : State) : Host.Outcome State Fault Refusal :=
  atomInstr (.red p a b op sp) p none a b 0 op sp false s

/-- A group 4 instruction without operands (R137). -/
def bareMem (p : Option Pfx) : Form :=
  ⟨p, ⟨false, false, false, true, false⟩, some .b32, [], none, false, false⟩

/-- A command that has not performed all its writes. -/
def Cmd.pending (c : Cmd) : Bool := match c.state with
  | .ended .. => false
  | _ => true

/-- REL of a command (R170). -/
def Cmd.rel (c : Cmd) : Bool := (nth c.words 0 0).getLsbD 20

/-- A copy-engine command with its destination in host memory (R152). -/
def State.toHost (s : State) (c : Cmd) : Bool :=
  let space := bits (cmdWord c.words 10) 2 2
  -- the pages of a row, each once
  let row (r : Nat) : List Nat :=
    let a := wrapNat 64 (cmdDword c.words 4 + r * toSigned 32 (cmdWord c.words 9))
    (List.range ((a % 2 ^ 12 + cmdWord c.words 6 + 4095) / 2 ^ 12)).map fun i => (a / 2 ^ 12 + i) * 2 ^ 12 % 2 ^ 64
  c.engine == 0 && cmdOpc c.words ≤ 1 && (space == 2 || (space == 0 &&
    (List.range (cmdWord c.words 7)).any fun r => (row r).any fun va =>
      match (s.translateHub c.ctx va Need.nothing).1 with
      | .ok p => isHost p.pa
      -- a page that is to be serviced may become one of the host's
      | .error (.page _) => true
      | .error (.trap _) => false))

/-- A fence: the threads that no command and no write left behind holds go on, and the others wait where they are
(R152). -/
def fenceInstr (i : Instr) (p : Option Pfx) (holds : State → Cmd → Bool) (left : Late → Bool)
    (end_ : State → Nat → List Nat → State) (s : State) : Host.Outcome State Fault Refusal :=
  s.run i (bareMem p) open_ fun s x off ls zs =>
    let stuck (k : Nat) : Bool :=
      (s.cmds.any fun q => q.2.cohort == x.co && q.2.threads.contains k && q.2.pending && holds s q.2)
        || s.late.any fun q => q.2.cohort == x.co && q.2.threads.contains k && left q.2
    let ks := (ls.map Prod.fst).filter fun k => !stuck k
    (end_ s x.co ks).close x (off ++ ks) zs

/-- R152 `fence.eng`. -/
def execFenceEng (p : Option Pfx) (s : State) : Host.Outcome State Fault Refusal :=
  fenceInstr (.fenceEng p) p (fun _ c => !c.rel) (fun _ => true) State.dropStale s
/-- R152 `fence.sys`: NC accesses are complete as they are made. -/
def execFenceSys (p : Option Pfx) (s : State) : Host.Outcome State Fault Refusal :=
  fenceInstr (.fenceSys p) p State.toHost (fun l => !l.sp && isHost l.pos) (fun s _ _ => s) s

/-- The line of a lane's address, and what is done with it (R153). -/
def State.lineOp (s : State) (x : Issue) (ea : Nat) (drop : Bool) : Lane LaneRes × State :=
  match s.translate x.ci x.ctx (ea / 128 * 128) Need.read with
  | (.error (.page l), s) => (.page ea l Need.read, s)
  | (.error (.trap t), s) => (.trap t ea, s)
  | (.ok p, s) =>
    let n := p.pa / 128
    let s := s.writeBack n
    (.done ⟨0, 0, none⟩,
      if drop then s.dropCopies x.ci n else s)

/-- Cache maintenance (R153). -/
def lineInstr (i : Instr) (p : Option Pfx) (m : MemRef) (drop : Bool) (s : State) : Host.Outcome State Fault Refusal :=
  let f := memForm p m false [] none
  s.run i f open_ fun s x off ls zs =>
    let r := s.eachLane (fun s _ vs => s.lineOp x (m.ea vs) drop) ls
    (r.2.finish x f off zs r.1).parkLanes x .thread r.1

/-- R153 `cflush`. -/
def execCflush (p : Option Pfx) (a b : Sel) (s : State) : Host.Outcome State Fault Refusal :=
  lineInstr (.cflush p a b) p (shortRef false a b) false s
/-- R153 `cflush`, form M. -/
def execCflushOfs (p : Option Pfx) (a b : Sel) (ofs : BitVec 24) (cl : BitVec 2) (sx : Bool) (sh : BitVec 3) (s : State) :
    Host.Outcome State Fault Refusal :=
  lineInstr (.cflushOfs p a b ofs cl sx sh) p (longRef false a b ofs cl sx sh) false s
/-- R153 `cinval`. -/
def execCinval (p : Option Pfx) (a b : Sel) (s : State) : Host.Outcome State Fault Refusal :=
  lineInstr (.cinval p a b) p (shortRef false a b) true s
/-- R153 `cinval`, form M. -/
def execCinvalOfs (p : Option Pfx) (a b : Sel) (ofs : BitVec 24) (cl : BitVec 2) (sx : Bool) (sh : BitVec 3) (s : State) :
    Host.Outcome State Fault Refusal :=
  lineInstr (.cinvalOfs p a b ofs cl sx sh) p (longRef false a b ofs cl sx sh) true s

end Sys2Proof.Machine
end

