-- ==== Sys2Proof/Machine/Clock.lean ====
section
/-!
DEFINITION. Front-end and lane clocks, the FIFO between them, the droop detector, clock-source hops, time
and the hang watchdog (R212 to R226).
-/

namespace Sys2Proof.Machine

/-- The state with a lane clock changed. -/
def State.modClock (s : State) (ci : Nat) (f : Clock → Clock) : State :=
  s.modCluster ci fun c => { c with clock := f c.clock }

/-- A logical cluster of a die that the package has (R2, R4): spare positions serve no logical cluster. -/
def State.isCluster (s : State) (ci : Nat) : Bool := ci < 144 * s.dieCount && !isSparePos ci

/-- A cluster's lanes get no edges: gated or not yet up again, tripped, resting, or in the gap of a hop (R223, R225, R317, R348). -/
def State.lanesStopped (s : State) (ci : Nat) : Bool :=
  let i := s.island (laneIsland ci)
  i.gate || i.f == 0 || i.thermal == 2 || (s.cluster ci).clock.hop.isSome || (find? s.wear.rests ci).isSome

/-- A cluster's front end gets no edges: the front-end island of its group is gated or not yet up again, or
tripped (R317, R318, R322). -/
def State.frontStopped (s : State) (ci : Nat) : Bool :=
  let i := s.island (frontIsland ci)
  i.gate || i.f == 0 || i.thermal == 2

/-- Issue is halved in a cluster (R221, R329). -/
def State.halvedIssue (s : State) (ci : Nat) : Bool :=
  ((s.cluster ci).clock.halving && 0 < (s.cluster ci).clock.halve) || nth s.pwr.halved (dieOf ci) false

/-- Opportunities of a front-end cycle, and in how many cycles one such comes (R213, R221). -/
def issueWidth (rate : Nat) (halved : Bool) : Nat × Nat :=
  match rate, halved with
  | 2, false => (2, 1)
  | 2, true => (1, 1)
  | 1, false => (1, 1)
  | 1, true => (1, 2)
  | _, false => (1, 2)
  | _, true => (1, 4)

/-- A sub-partition's front end as a front-end cycle begins: its opportunities, none while issue is held
and no more than its FIFO has room for as the front end sees it, with `lag` entries more than it holds (R213, R215,
R223). -/
def FrontEnd.begin (f : FrontEnd) (w : Nat × Nat) (hold : Bool) (lag : Nat) : FrontEnd :=
  if hold then { f with left := 0 }
  else if f.skip + 1 < w.2 then { f with left := 0, skip := f.skip + 1 }
  else { f with left := min w.1 (16 - min 16 (f.occ + lag)), skip := 0 }

/-- The edge that ends a front-end cycle writes what was issued in it (R229). -/
def FrontEnd.write (f : FrontEnd) : FrontEnd :=
  let l := (f.fifo ++ f.wr).take 16
  { f with fifo := l, wr := [], hw := max f.hw l.length }

/-- How far the front end's view of a FIFO lags (R215): by no more than what the lanes took in their last 2 cycles, of the
device's choice; it is asked only where it matters. -/
def State.viewLag (s : State) (f : FrontEnd) (w : Nat × Nat) : Nat × State :=
  let n := f.took.1 + f.took.2
  if f.occ + n + w.1 ≤ 16 then (0, s) else s.choose (n + 1)

/-- A front-end edge in the count of halved issue (R221 to R223): the cycle that it ends is counted, and where one of the
64 is to begin, it begins; and the hold of a hop in which the detector fired. -/
def Clock.frontEdge (k : Clock) : Clock :=
  let k := if k.halving then { k with halve := k.halve - 1, halving := decide (1 < k.halve) } else k
  let k := if k.arm = .front then { k with arm := .no, halving := true, halve := 64 } else k
  { k with hold := k.fired && k.hop.isSome }

/-- A lane edge in a stretch (R221): one that is due begins with the lane cycle that the edge begins; after six stretched
cycles it is over. The lane cycle of a firing ends, which lets the halving begin. -/
def Clock.laneEdge (k : Clock) : Clock :=
  let k := if k.strDue then { k with strDue := false, str := true, stretch := 5 }
    else if k.str then { k with str := decide (0 < k.stretch), stretch := k.stretch - 1 } else k
  if k.arm = .lane then { k with arm := .front } else k

/-- A group of a sub-partition waits on memory (R325): it did when it was last tried, and a load, `ldq`, engine command or
named tile of one of its threads is still outstanding (log entry 33). -/
def State.memoryWait (s : State) (ci sp : Nat) : Bool :=
  s.cohorts.any fun p =>
    let c := p.2
    c.ci == ci && c.phase != .saved && c.groups.any fun q =>
      let here (k : Nat) : Bool := ((c.thread? k).map fun t => t.run == .group q.1).getD false
      q.2.sp == sp && q.2.waited && q.2.memory
        && ((c.pends.any fun r => r.2.kind.loaded && r.2.lanes.any fun l => here l.1)
          || (s.cmds.any fun r => r.2.cohort == p.1 && r.2.threads.any here)
          || (s.names.wants.any fun r => r.2.cohort == p.1))

/-- A sub-partition's front end begins a front-end cycle. -/
def State.beginFront (s : State) (ci sp : Nat) (w : Nat × Nat) : State :=
  let f := nth (s.cluster ci).fe sp FrontEnd.reset
  let v := s.viewLag f w
  v.2.modCluster ci fun c =>
    let g := f.begin w c.clock.hold v.1
    { c with fe := setNth c.fe sp g }

/-- A protective action enters an event as it starts or ends (R317, R359). -/
def State.protEvent (s : State) (action : Nat) (start : Bool) (die isl : Nat) : State :=
  s.bbx 3 die (unitCode 0 7 1) 0 0xFF (evData (toBytes action 1 ++ toBytes start.toNat 1 ++ toBytes isl 2))

/-- A droop response is in progress (R221 to R223): a stretch, halved issue or a hold has been caused and is not over. -/
def Clock.responding (k : Clock) : Bool := k.strDue || k.str || k.arm != .no || k.halving || k.fired

/-- A droop response that was in progress and is not any more has ended (R317). -/
def State.noteDroop (s : State) (ci : Nat) (was : Bool) : State :=
  if was && !(s.cluster ci).clock.responding then s.protEvent 1 false (dieOf ci) (laneIsland ci % 256) else s

/-- A front-end edge of a cluster (R213, R221, R229, R240): what was issued is written, the opportunities that were left
unused are sampled (R325), and the next cycle begins. -/
def State.frontEdge (s : State) (ci : Nat) : State :=
  if s.frontStopped ci then s
  else
    let was := (s.cluster ci).clock.responding
    let left (sp : Nat) : Nat := (nth (s.cluster ci).fe sp FrontEnd.reset).left
    let lost := (List.range 4).foldl (fun n sp => if left sp ≠ 0 ∧ s.memoryWait ci sp then n + left sp else n) 0
    let s := s.modCluster ci fun c => { c with
      fe := c.fe.map FrontEnd.write
      winOpp := c.winOpp + left 0 + left 1 + left 2 + left 3
      winStall := c.winStall + lost
      bins := mapVals c.bins fun _ b => { b with age := b.age + 1 }
      clock := c.clock.frontEdge }
    let s := s.noteDroop ci was
    let w := issueWidth (s.cluster ci).rate (s.halvedIssue ci)
    (List.range 4).foldl (fun s sp => s.beginFront ci sp w) s

/-- A sample of TIMER or CYCLES is taken as its instruction starts in the lanes (R225, R229). -/
def State.sample (s : State) (ci co id : Nat) : State :=
  match (find? s.cohorts co).bind fun c => find? c.pends id with
  | none => s
  | some p =>
    match p.kind with
    | .sample cyc =>
      let v := if cyc then (s.cluster ci).cycles else s.timer
      (s.modCohort co fun c => { c with pends := modify c.pends id fun p =>
        { p with lanes := p.lanes.map fun l => (l.1, v) } }).applyPend co id
    | _ => s

/-- A sub-partition's lanes start the oldest entry of the FIFO at an edge, where one has been visible for 2 lane cycles
and they are free (R213, R215, R216, R229). -/
def State.takeEntry (s : State) (ci sp : Nat) (always : Bool) : State :=
  let f := nth (s.cluster ci).fe sp FrontEnd.reset
  let put (s : State) (g : FrontEnd) : State := s.modCluster ci fun c => { c with fe := setNth c.fe sp g }
  let old : List FifoEntry := f.fifo.map fun e => { e with age := min 2 (e.age + 1) }
  let f : FrontEnd := { f with fifo := old, took := (0, f.took.1) }
  match old with
  | [] => put s f
  | e :: rest =>
    if e.age < 2 then put s f
    else
      let r := if always then (0, s) else s.choose 2
      if r.1 = 0 then
        e.samples.foldl (fun s id => s.sample ci e.cohort id) (put r.2 { f with fifo := rest, took := (1, f.took.2) })
      else put r.2 f

/-- A lane cycle in which a cluster started an instruction counts in its wear (R345). -/
def State.countLane (s : State) (ci : Nat) : State :=
  let u := s.clusterUnit ci
  { s with wear := { s.wear with started := insert s.wear.started u (findD s.wear.started u 0 + 1) } }

/-- A lane edge is delivered to a cluster (R215, R225): CYCLES counts it, whatever its length. -/
def State.laneEdge (s : State) (ci : Nat) (always : Bool) : State :=
  if s.lanesStopped ci then s
  else
    let was := (s.cluster ci).clock.responding
    let s := s.modCluster ci fun c => { c with
      cycles := (c.cycles + 1) % 2 ^ 64
      hangEdges := c.hangEdges + 1
      clock := c.clock.laneEdge }
    let s := (List.range 4).foldl (fun s sp => s.takeEntry ci sp always) (s.noteDroop ci was)
    if (s.cluster ci).fe.any fun f => f.took.1 == 1 then s.countLane ci else s

/-- Some thread is resident on a cluster. -/
def State.resident (s : State) (ci : Nat) : Bool :=
  s.cohorts.any fun p => p.2.ci == ci && p.2.phase != .saved && !p.2.threads.isEmpty

/-- The end of some windows of the hang watchdog (R226): only the first of them can have had its edges. -/
def State.endHangWindow (s : State) (ci : Nat) (c : Cluster) : Cluster :=
  { c with
    hangCount := if 950 ≤ c.hangEdges ∧ s.resident ci then c.hangCount + 1000 else c.hangCount
    hangEdges := 0 }

/-- An island at the start of an interval. -/
def Gather.zero : Gather := ⟨0, 0, 0, 0, 0, 0, 0⟩

/-- What the running interval has gathered for an island changed. -/
def Wear.modGather (w : Wear) (i : Nat) (f : Gather → Gather) : Wear :=
  { w with gather := insert w.gather i (f (findD w.gather i Gather.zero)) }

/-- Ticks of gated islands and of rests are counted (R346): in a rest an island is as the rest has it, whatever GATE says
(R348). -/
def State.restTicks (s : State) (n : Nat) : Wear :=
  let rests := s.wear.rests.map fun p => (laneIsland p.1, p.2.2)
  let w := s.pwr.islands.foldl (fun (w : Wear) p =>
    if p.2.gate && !(rests.any fun r => r.1 == p.1) then w.modGather p.1 fun g => { g with off := g.off + n } else w) s.wear
  rests.foldl (fun (w : Wear) r =>
    w.modGather r.1 fun g => if r.2 then { g with rev := g.rev + n } else { g with off := g.off + n }) w

/-- A transition that has reached its point is over (R322). -/
def Island.settled (i : Island) : Island :=
  match i.move with
  | some m => if i.n = m.target ∧ i.f = m.freq then { i with move := none } else i
  | none => i

/-- A hop is over: a hold ends, and where the detector fired in it halved issue is to begin (R223). -/
def Clock.unhop (k : Clock) : Clock :=
  { k with hop := none, hold := false, fired := false, arm := if k.fired then .front else k.arm }

/-- The first edge of the new source (R223): the hop is over, and where the detector fired in it the 64 cycles of halved
issue begin with the next front-end cycle. -/
def State.endHop (s : State) (ci : Nat) : State :=
  match (s.cluster ci).clock.hop with
  | none => s
  | some f =>
    (s.modClock ci fun k => { k.unhop with lmhz := f }).modIsland (laneIsland ci) fun i => ({ i with f := f }).settled

/-- Hops that would outlast their 8 ticks at a tick complete before it (R223). -/
def State.endHops (s : State) (now : Nat) : State :=
  (keys (filterMap s.clusters fun _ c => c.clock.hop.isSome && decide (c.clock.hopEnd < now))).foldl
    (fun s ci => s.endHop ci) s

/-- Ticks pass (R225, R226, R346). DESIGN CHOICE (log entry 69): the windows of the hang watchdog end where TIMER is a
multiple of 1,000. -/
def State.ticks (s : State) (n : Nat) : State :=
  let s := s.endHops (s.timer + n)
  let s' := { s with timer := (s.timer + n) % 2 ^ 64, wear := s.restTicks n }
  if (s.timer + n) / 1000 = s.timer / 1000 then s'
  else { s' with clusters := mapVals s.clusters fun ci c => s.endHangWindow ci c }

/-- Any retirement on a cluster sets the watchdog to 0 and lets it report again (R226). -/
def State.retired (s : State) (ci : Nat) : State :=
  s.modCluster ci fun c => { c with hangCount := 0, hangReported := false }

/-- R226: one hang is reported, and no further one until a retirement. -/
def execHangReport (ci : Nat) (s : State) : Host.Outcome State Fault Refusal :=
  let c := s.cluster ci
  .next (if c.hangLim = 0 ∨ c.hangCount < c.hangLim.toNat ∨ c.hangReported then s
    else
      let s := s.modCluster ci fun c => { c with hangReported := true }
      let s := s.bbx 7 (dieOf ci) (clusterCode ci) 0 0xFF (evData (toBytes ci 4))
      s.postError 6 0 (clusterCode ci) 0 0 0)

/-- The threshold of the droop detector (R220). -/
def Clock.thr (k : Clock) : Nat := bits k.drpCtl.toNat 0 7

/-- R220 to R223: the detector fires. In a hop the event holds issue from the next front-end cycle. Otherwise a stretch
begins with the next lane cycle and halved issue with the first front-end cycle after this lane cycle; in a stretch no
new one begins, and the count of halved issue begins again with the next front-end cycle. A response that was not in
progress has started (R317). -/
def execDroopFire (ci : Nat) (peak : BitVec 8) (s : State) : Host.Outcome State Fault Refusal :=
  let k := (s.cluster ci).clock
  .next (if !s.isCluster ci ∨ !k.drpCtl.getLsbD 31 ∨ k.tripped ∨ peak.toNat ≤ k.thr then s
    else
      let hop := k.hop.isSome
      let s := if k.responding then s else s.protEvent 1 true (dieOf ci) (laneIsland ci % 256)
      let s := s.bump .drpFires (laneIsland ci) 1
      let s := s.bbx 2 (dieOf ci) (clusterCode ci) 0 0xFF (evData (toBytes peak.toNat 1 ++ toBytes hop.toNat 1))
      if hop then
        (s.bump .drpHophold (laneIsland ci) 1).modClock ci fun k =>
          { k with tripped := true, peak := peak.toNat, fired := true }
      else
        s.modClock ci fun k =>
          if k.str then { k with tripped := true, peak := peak.toNat, arm := .front }
          else { k with tripped := true, peak := peak.toNat, strDue := true, arm := .lane })

/-- R220: a fired detector may fire again. -/
def execDroopRearm (ci : Nat) (s : State) : Host.Outcome State Fault Refusal :=
  .next (if (s.cluster ci).clock.tripped then s.modClock ci fun k => { k with tripped := false } else s)

/-- R221: the six stretched lane cycles have run: the lane edge that ends the last of them comes. -/
def execDroopStretchEnd (ci : Nat) (s : State) : Host.Outcome State Fault Refusal :=
  .next (if (s.cluster ci).clock.str ∧ (s.cluster ci).clock.stretch = 0 then s.laneEdge ci false else s)

/-- R221: the 64 front-end cycles of halved issue have run: the front-end edge that ends the last of them comes. -/
def execHalvedIssueEnd (ci : Nat) (s : State) : Host.Outcome State Fault Refusal :=
  .next (if (s.cluster ci).clock.halving ∧ (s.cluster ci).clock.halve ≤ 1 then s.frontEdge ci else s)

/-- A hop of a lane island is due (R322): its synthesiser is locked, and a fall comes before the voltage
moves, a rise after it. -/
def Island.hopDue (i : Island) : Option Nat :=
  i.move.bind fun m =>
    if m.locked && (decide (m.freq < i.f) || (decide (i.f < m.freq) && i.n == m.target)) then some m.freq else none

/-- R222, R223: a hop that is due begins, after any stretch; it completes within 8 ticks. -/
def execClockHop (ci : Nat) (s : State) : Host.Outcome State Fault Refusal :=
  let k := (s.cluster ci).clock
  .next (match (s.island (laneIsland ci)).hopDue with
    | some f =>
      if s.isCluster ci ∧ k.hop.isNone ∧ !k.str ∧ !k.strDue then
        s.modClock ci fun k => { k with hop := some f, hopEnd := s.timer + 8 }
      else s
    | none => s)

/-- R223: the new source's first edge. -/
def execHopComplete (ci : Nat) (s : State) : Host.Outcome State Fault Refusal := .next (s.endHop ci)

/-- R212: RATE 0b11 leaves RATE unchanged. -/
def execCluClkWrite (ci : Nat) (v : Word) (s : State) : Host.Outcome State Fault Refusal :=
  let r := bits v.toNat 24 2
  .next (if r = 3 then s else s.modCluster ci fun c => { c with rate := r })

/-- R220: THR is brought within 4 to 100; islands 128 to 255 have no droop registers (R319). -/
def execDrpCtlWrite (ci : Nat) (v : Word) (s : State) : Host.Outcome State Fault Refusal :=
  let thr := max 4 (min 100 (bits v.toNat 0 7))
  .next (if s.isCluster ci then
      s.modClock ci fun k => { k with drpCtl := BitVec.ofNat 32 ((bit v.toNat 31).toNat * 2 ^ 31 + thr) }
    else s)

/-- A bin of a sub-partition that has reached the age of its kernel (R240). -/
def State.binDue (s : State) (b : Bin) : Bool :=
  match find? s.cohorts b.cohort with
  | some c => decide (c.hdr.binage ≤ b.age)
  | none => false

/-- R241: a bin whose age reaches BINAGE can be drawn as aged. -/
def execBinAgeExpiry (ci sp bin : Nat) (s : State) : Host.Outcome State Fault Refusal :=
  .next (match find? (s.cluster ci).bins bin with
    | some b =>
      if b.sp = sp ∧ s.binDue b then
        s.modCluster ci fun c => { c with bins := modify c.bins bin fun b => { b with aged := true } }
      else s
    | none => s)

end Sys2Proof.Machine
end

