-- ==== Sys2Proof/Machine/CrossLane.lean ====
section
/-!
DEFINITION. Operations across lanes, group 3 (R129 to R136).
-/

namespace Sys2Proof.Machine

/-- Lanes of a crew of this part (R3). -/
def laneWidth : Nat := 32

/-- A lane of a cross-lane instruction that is to be written: its thread, its value, its contributing lanes. -/
structure XLane where
  key   : Nat
  vals  : List Nat
  peers : List Nat
  deriving DecidableEq, Repr

/-- Lane numbers of some threads whose bits are set in a mask. -/
def maskLanes (ks : List Nat) (m : Nat) : List Nat := (ks.map (· % laneWidth)).filter fun l => bit m l

/-- The contributing lanes of each lane (R129) where each lane reads its own mask, the last of its values;
MASK_SELF for a lane outside its own mask. -/
def ownMasks (x : Issue) (ls : List (Nat × List Nat)) : List XLane × List (Nat × Cause) :=
  let self (p : Nat × List Nat) : Bool := bit (p.2.getLast?.getD 0) (p.1 % laneWidth)
  let on := ls.filter self
  (on.map fun p => ⟨p.1, p.2, maskLanes (on.map Prod.fst) (p.2.getLast?.getD 0)⟩,
    (ls.filter fun p => !self p).map fun p => (p.1, x.cause .maskSelf 0))

/-- The lane that is elected under `.compat elect` (R136): the lowest one whose mask can be read; the
masks of lanes below it were poisoned. -/
def electLane (s : State) (x : Issue) (c : Sel) : List (Nat × List Nat) → List Nat × Option (Nat × Nat)
  | [] => ([], none)
  | p :: ps =>
    match find? s.cohorts x.co with
    | none => ([], none)
    | some co =>
      let m : Nat × Bool :=
        if isQueue c || isStream c then (p.2.getLast?.getD 0, false) else co.plain p.1 (srcWord false c)
      if m.2 then
        let r := electLane s x c ps
        (p.1 :: r.1, r.2)
      else ([], some (p.1, m.1))

/-- The contributing lanes under `.compat elect` (R136): one set for every lane; a lane whose bit is clear
writes and raises nothing. -/
def electMasks (s : State) (x : Issue) (c : Sel) (ls : List (Nat × List Nat)) : List XLane × List Nat × List (Nat × Cause) :=
  let r := electLane s x c ls
  let sick := r.1.map fun k => (k, x.cause .poison 0)
  let rest := ls.filter fun p => !r.1.contains p.1
  match r.2 with
  | none => ([], [], sick)
  | some (e, m) =>
    let self := bit m (e % laneWidth)
    let on := if self then rest else rest.filter fun p => p.1 != e
    let peers := maskLanes (on.map Prod.fst) m
    ((on.filter fun p => bit m (p.1 % laneWidth)).map fun p => ⟨p.1, p.2, peers⟩,
      (on.filter fun p => !bit m (p.1 % laneWidth)).map Prod.fst,
      sick ++ if self then [] else [(e, x.cause .maskSelf 0)])

/-- The header's COMPAT bit (R41). -/
def State.compat (s : State) (co : Nat) : Bool := ((find? s.cohorts co).map fun c => c.hdr.compat).getD false

/-- The cohort of the selected group. -/
def State.selCompat (s : State) : Bool := (s.sel.map fun p => s.compat p.1).getD false

/-- The mask operand as a source: none where every lane need not read its own (R136). -/
def maskSrc (elect mk : Bool) (c : Sel) : List Src :=
  if !mk || (elect && !isQueue c && !isStream c && c.toNat < 125) then [] else [srcWord false c]

/-- The operand rules of a cross-lane instruction with its mask operand. -/
def Form.masked (f : Form) (elect mk : Bool) (c : Sel) : Form :=
  { f with srcs := f.srcs ++ maskSrc elect mk c, ill := f.ill || (mk && (srcWord false c).ill) }

/-- A cross-lane instruction: sources before the mask, and what a lane gets from the lanes that
contribute. `op` sees every lane's values and the lane it works for. -/
def State.crossLanes (s : State) (i : Instr) (f : Form) (mk : Bool) (c : Sel)
    (op : Thread → List XLane → XLane → Lane LaneRes) : Host.Outcome State Fault Refusal :=
  let elect := s.selCompat && mk
  let f := f.masked elect mk c
  s.run i f (fun _ _ co act => elect && act.any fun k => co.slotEmpty k c false)
    fun s x off ls zs =>
      let r : List XLane × List Nat × List (Nat × Cause) :=
        if !mk then (ls.map fun p => ⟨p.1, p.2, ls.map fun q => q.1 % laneWidth⟩, [], [])
        else if elect then electMasks s x c ls
        else ((ownMasks x ls).1, [], (ownMasks x ls).2)
      let all : List XLane := ls.map fun p => ⟨p.1, p.2, []⟩
      s.finish x f (off ++ r.2.1) (zs ++ r.2.2)
        (r.1.filterMap fun l => (s.thread? x.co l.key).map fun t => (l.key, op t all l))

/-- Value `i` of the lane with a number. -/
def laneVal (all : List XLane) (l i : Nat) : Nat :=
  match all.find? fun x => x.key % laneWidth == l with
  | some x => arg x.vals i
  | none => 0

/-- The operand rules of `shfl`, `bcast` and `lred`. -/
def crossForm (p : Option Pfx) (d : Ety) (acc : Accept) (ok : Ety → Bool) (srcs : Ety → List Src) (o : Sel)
    (ill res : Bool) : Form :=
  let f := fpForm p d acc ok srcs (fun t => some (dstOf t o)) fun _ => res
  { f with ill := f.ill || ill }

/-- Types of the shuffles (R106). -/
def isB (t : Ety) : Bool := t.isB

/-- Segment size of a SEG code (R132); 0 where it is reserved. -/
def segSize (seg : Nat) : Nat := if seg = 0 then laneWidth else if seg ≤ 5 then 2 ^ seg else 0

/-- Which shuffle (R132). -/
inductive Shuffle where
  | index | rel | xor
  deriving DecidableEq, Repr

/-- The source lane of a shuffle (R132). -/
def shuffleSrc (kind : Shuffle) (S lane idx : Nat) (signed : Int) (wr : Bool) : Option Nat :=
  let j := lane % S
  let t : Int := match kind with
    | .index => (idx : Int)
    | .rel => j + signed
    | .xor => (j ^^^ idx : Nat)
  let t := if wr then t % (S : Int) else t
  if 0 ≤ t ∧ t < S then some (lane - j + t.toNat) else none

/-- The operand rules of the shuffles (R131). -/
def shuffleForm (p : Option Pfx) (d a b c : Sel) (mk : Bool) (seg : BitVec 3) (ii : Bool) : Form :=
  crossForm p .b32 accNone isB
    (fun t => if ii then [srcOf t (polA p) none a] else [srcOf t (polA p) none a, srcWord (polB p) b]) d
    ((ii && b != 0) || (!mk && c != 0)) (decide (6 ≤ seg.toNat))

/-- The shuffles (R132). -/
def shuffle (i : Instr) (kind : Shuffle) (p : Option Pfx) (d a b c : Sel) (mk wr : Bool) (seg : BitVec 3) (ii : Bool)
    (idx : BitVec 6) (s : State) : Host.Outcome State Fault Refusal :=
  let S := segSize seg.toNat
  s.crossLanes i (shuffleForm p d a b c mk seg ii) mk c
    fun _ all l =>
      let n := if ii then idx.toNat else arg l.vals 1 % 2 ^ 32
      let sg : Int := if ii then idx.toInt else toSigned 32 (arg l.vals 1)
      match shuffleSrc kind S (l.key % laneWidth) n sg wr with
      | some k => justVal (if l.peers.contains k then laneVal all k 0 else 0)
      | none => justVal 0

/-- R132 `shfl`. -/
def execShfl (p : Option Pfx) (d a b c : Sel) (mk wr : Bool) (seg : BitVec 3) (ii : Bool) (idx : BitVec 6) (s : State) :
    Host.Outcome State Fault Refusal :=
  shuffle (.shfl p d a b c mk wr seg ii idx) .index p d a b c mk wr seg ii idx s
/-- R132 `shfl.rel`. -/
def execShflRel (p : Option Pfx) (d a b c : Sel) (mk wr : Bool) (seg : BitVec 3) (ii : Bool) (idx : BitVec 6) (s : State) :
    Host.Outcome State Fault Refusal :=
  shuffle (.shflRel p d a b c mk wr seg ii idx) .rel p d a b c mk wr seg ii idx s
/-- R132 `shfl.xor`. -/
def execShflXor (p : Option Pfx) (d a b c : Sel) (mk wr : Bool) (seg : BitVec 3) (ii : Bool) (idx : BitVec 6) (s : State) :
    Host.Outcome State Fault Refusal :=
  shuffle (.shflXor p d a b c mk wr seg ii idx) .xor p d a b c mk wr seg ii idx s

/-- Lowest and highest of some lanes. -/
def lowest (ls : List Nat) : Option Nat := (List.range laneWidth).find? fun l => ls.contains l
/-- Highest of some lanes. -/
def highest (ls : List Nat) : Option Nat := (List.range laneWidth).reverse.find? fun l => ls.contains l

/-- The operand rules of `bcast` (R131). -/
def bcastForm (p : Option Pfx) (d a c : Sel) (mk : Bool) (lsel : BitVec 2) (lane : BitVec 5) : Form :=
  crossForm p .b32 accNone isB (fun t => [srcOf t (polA p) none a]) d
    ((lsel != 0 && lane != 0) || (!mk && c != 0)) (lsel == 3)

/-- The lane that `bcast` reads (R131, R133). -/
def bcastFrom (lsel : BitVec 2) (lane : BitVec 5) (peers : List Nat) : Option Nat :=
  if lsel = 0 then some lane.toNat else if lsel = 1 then lowest peers else highest peers

/-- R133 `bcast`. -/
def execBcast (p : Option Pfx) (d a c : Sel) (mk : Bool) (lsel : BitVec 2) (lane : BitVec 5) (s : State) :
    Host.Outcome State Fault Refusal :=
  s.crossLanes (.bcast p d a c mk lsel lane) (bcastForm p d a c mk lsel lane) mk c
    fun _ all l =>
      match bcastFrom lsel lane l.peers with
      | some k => justVal (if l.peers.contains k then laneVal all k 0 else 0)
      | none => justVal 0

/-- What a vote gives from the contributing lanes' numbers and predicates (R134). -/
def voteOf (op : Nat) (vs : List (Nat × Bool)) : Nat :=
  let yes := (vs.filter Prod.snd).map Prod.fst
  match op with
  | 0 => bitsIn yes 0
  | 1 => (!yes.isEmpty).toNat
  | 2 => (yes.length == vs.length).toNat
  | 3 => (yes.isEmpty || yes.length == vs.length).toNat
  | _ => yes.length

/-- The operand rules of `vote` (R131): TY is zero. -/
def voteForm (p : Option Pfx) (d c : Sel) (mk : Bool) (op : BitVec 3) : Form :=
  ⟨p, ⟨false, false, false, true, false⟩, some .n32, [], some (dstOf .n32 d), !mk && c != 0, decide (5 ≤ op.toNat)⟩

/-- The predicate that a thread of the selected group votes with (R134). -/
def State.votes (s : State) (na : Bool) (a : BitVec 3) (k : Nat) : Bool :=
  match s.sel.bind fun g => s.thread? g.1 k with
  | some t => predArg t na a
  | none => false

/-- R134 `vote`. -/
def execVote (p : Option Pfx) (d : Sel) (na : Bool) (a : BitVec 3) (c : Sel) (mk : Bool) (op : BitVec 3) (s : State) :
    Host.Outcome State Fault Refusal :=
  s.crossLanes (.vote p d na a c mk op) (voteForm p d c mk op) mk c
    fun _ all l =>
      justVal (voteOf op.toNat
        ((all.filter fun q => l.peers.contains (q.key % laneWidth)).map fun q => (q.key % laneWidth, s.votes na a q.key)))

/-- Types of `lred` (R106). -/
def isLred (t : Ety) : Bool := isSN32 t || t == .f32 || t == .f64 || t.isB

/-- One step of a reduction (R135): operation, type, the two values. -/
def reduceOp (p : Option Pfx) (th : Thread) (t : Ety) (op x y : Nat) : Lane LaneRes :=
  if t.isF then
    let v := t.flush th.ftz x
    let w := t.flush th.ftz y
    match op with
    | 0 => fpRes th (fout p t th (addVal (roundOf p th) (t.val v) (t.val w)))
    | o =>
      let r := minMaxFp (o == 1) t v w
      fpRes th (if satOf p then t.satF r.1 else r.1, r.2)
  else
    match op with
    | 0 => justVal (reduce t (satOf p) (t.num x + t.num y))
    | 1 => justVal (reduce t false (minInt (t.num x) (t.num y)))
    | 2 => justVal (reduce t false (maxInt (t.num x) (t.num y)))
    | 3 => justVal (x &&& y)
    | 4 => justVal (x ||| y)
    | _ => justVal (x ^^^ y)

/-- What `lred` accepts of a prefix (R106): RND and NF on floats, SAT on floats and on an integer `add`. -/
def lredAcc (t : Ety) (op : Nat) : Accept := ⟨t.isF, t.isF || (op == 0 && isSN t), t.isF, true, true⟩

/-- The operand rules of `lred` (R131, R135). -/
def lredForm (p : Option Pfx) (d a c : Sel) (mk : Bool) (op k : BitVec 3) : Form :=
  let t := elemTy p .s32
  let pair := if op.toNat ≤ 2 then t.isB else !t.isB
  crossForm p .s32 (lredAcc t op.toNat) isLred (fun t => [srcOf t (polA p) none a]) d
    ((decide (op.toNat ≤ 5) && pair) || (!mk && c != 0))
    (decide (6 ≤ op.toNat) || k == 0 || decide (laneWidth / 2 ^ k.toNat < 1))

/-- R135 `lred`. -/
def execLred (p : Option Pfx) (d a c : Sel) (mk : Bool) (op k : BitVec 3) (s : State) :
    Host.Outcome State Fault Refusal :=
  let t := elemTy p .s32
  let dist := laneWidth / 2 ^ k.toNat
  s.crossLanes (.lred p d a c mk op k) (lredForm p d a c mk op k) mk c
    fun th all l =>
      let m := l.key % laneWidth ^^^ dist
      if l.peers.contains m then reduceOp p th t op.toNat (arg l.vals 0) (laneVal all m 0) else justVal (arg l.vals 0)

end Sys2Proof.Machine
end

