-- ==== Sys2Proof/Machine/Once.lean ====
section
/-!
DEFINITION. Instructions that act once per issue on the operands of the lowest active lane, and status
destinations (R155, R168, R187).
-/

namespace Sys2Proof.Machine

/-- The operands of the lowest active lane. -/
inductive GotLow where
  | blocked (s : State)
  /-- The threads that go on, the values of the lowest, and the causes of those that trap. -/
  | go (s : State) (act : List Nat) (vals : List Nat) (zs : List (Nat × Cause))

/-- The trap that a source of the lowest lane raises, in a thread of the issue: one that an idempotent region holds takes
REGION_VIOLATION first, where that comes before other execution traps (R45, R167). -/
def State.sourceTrap (s : State) (x : Issue) (first : Bool) (k : Nat) (z : Cause) : Cause :=
  if first && z.trap != .emptyRead && ((s.thread? x.co k).map Thread.idempotent).getD false then
    x.cause .regionViolation 0
  else z

/-- The operand step where one lane's sources count for the issue: the destination is checked for every
thread, the sources for the lowest one; its trap is every thread's, but for the REGION_VIOLATION that comes `first`. -/
def State.operandsLow (before : State) (x : Issue) (f : Form) (first : Bool) (act : List Nat) : GotLow :=
  match before.operands x { f with srcs := [] } act with
  | .blocked s => .blocked s
  | .lanes s ls zs =>
    match ls with
    | [] => .go s [] [] zs
    | l :: _ =>
      match s.operands x { f with dst := none } [l.1] with
      | .blocked _ => .blocked before
      | .lanes s [] [] => .blocked s
      | .lanes s [] (z :: _) => .go s [] [] (zs ++ ls.map fun k => (k.1, s.sourceTrap x first k.1 z.2))
      | .lanes s (v :: _) _ => .go s (ls.map Prod.fst) v.2 zs

/-- Instructions with source operands of which REGION_VIOLATION comes before their other execution traps (R167). -/
def regionFirst : Instr → Bool
  | .maccFlush .. => true
  | _ => false

/-- A group 4 or 6 instruction that acts once per issue. -/
def State.runLow (s : State) (i : Instr) (f : Form) (pre : State → Issue → Cohort → List Nat → Pre)
    (rest : State → Issue → List Nat → List Nat → List Nat → List (Nat × Cause) → State) :
    Host.Outcome State Fault Refusal :=
  s.runPre i { f with srcs := f.srcs } (fun s x c act =>
      match pre s x c act with
      | .go =>
        .hold (match s.operandsLow x f (regionFirst i) act with
          | .blocked s => s
          | .go t ks vs zs =>
            let off := x.ts.filter fun k => !act.contains k
            s.withPops t x c f act fun t => if ks.isEmpty then t.close x off zs else rest t x off ks vs zs)
      | r => r)
    fun s _ _ _ _ => s

/-- No condition before the operand step. -/
def always (_ : State) (_ : Issue) (_ : Cohort) (_ : List Nat) : Pre := .go

/-- Queue registers and stream ports belong to one role (R154). -/
def sameRole (_ : State) (_ : Issue) (c : Cohort) (act : List Nat) : Pre :=
  if oneRole c act then .go else .trap .accessFault

/-- A destination that takes a status later: a slot, a scalar register or `zr` (R168, R187). -/
def statusSel (d : Sel) : Bool := isSlot d || isScalar d || d == 124

/-- A status destination. -/
def statusDst (d : Sel) : Dst := dstOf .b32 d

/-- A status becomes outstanding for some threads, of value `v` where it is known already: one result for each
register that their windows name, the first of which brings the others with it. -/
def State.addStatus (s : State) (x : Issue) (kind : PKind) (v : Nat) (d : Sel) (ks : List Nat) : State :=
  s.modCohort x.co fun c =>
    let lead := c.fresh
    let sp := (c.crewOf (x.ts.head?.getD 0)).sp
    ((ks.map fun k => pdestOf c k (statusDst d)).eraseDups).foldl (fun c o =>
      let p : Pend := ⟨if c.fresh = lead then kind else .follow lead, o, sp,
        (ks.filter fun k => pdestOf c k (statusDst d) == o).map fun k => (k, v), lead⟩
      { c with pends := insert c.pends c.fresh p, fresh := c.fresh + 1 }) c

/-- The end of an instruction whose status comes later: its destination is marked empty (R168). Threads whose
register cannot be had are parked first (R192), and `eff` is what the instruction does at issue for the
others. -/
def State.finishWith (s : State) (x : Issue) (d : Sel) (off ks : List Nat) (zs : List (Nat × Cause))
    (eff : State → PKind × Nat × State) : State :=
  let r := s.allocate x (statusDst d) ks
  if r.1.isEmpty then r.2.close x off zs
  else
    let e := eff r.2
    (e.2.2.addStatus x e.1 e.2.1 d r.1).close x (off ++ r.1) zs

/-- `finishWith` where nothing is done at issue. -/
def State.finishStatus (s : State) (x : Issue) (kind : PKind) (d : Sel) (off ks : List Nat) (zs : List (Nat × Cause)) :
    State :=
  s.finishWith x d off ks zs fun s => (kind, 0, s)

/-- A status is written (R168): to the result's own register and to those that follow it. -/
def State.fillStatus (s : State) (co id v : Nat) : State :=
  match find? s.cohorts co with
  | none => s
  | some c =>
    let ids := id :: keys (filterMap c.pends fun _ p => p.kind == .follow id)
    ids.foldl (fun s j =>
      (s.modCohort co fun c => { c with pends := modify c.pends j fun p =>
        { p with lanes := p.lanes.map fun l => (l.1, v) } }).applyPend co j) s

end Sys2Proof.Machine
end

