-- ==== Sys2Proof/Machine/Queue.lean ====
section
/-!
DEFINITION. Queue bindings, `qtry`, `qstat`, streams and messages, group 4 (R154 to R165, R267).
-/

namespace Sys2Proof.Machine

/-- The clusters a multicast descriptor names (R157, R266); `none` where it is refused. -/
def State.multicastDests (s : State) (bs : List Byte) : Option (List Nat) :=
  let v := ofBytes (bs.take 16)
  let b (i : Nat) : Nat := (nth bs i 0).toNat
  let dies := (List.range 4).filter fun d => bit (b 16) d
  let cs := (List.range 128).filter fun c => bit v c
  if b 16 / 16 ≠ 0 ∨ b 17 / 8 ≠ 0 ∨ ofBytes (bs.drop 18) ≠ 0 ∨ dies.isEmpty ∨ cs.isEmpty
      ∨ dies.any fun d => decide (s.dieCount ≤ d) then none
  else some (dies.flatMap fun d => cs.map fun c => 144 * d + 9 * (c / 8) + c % 8)

/-- A target operand names a valid target of a binding kind (R156); kind 5 is checked with its descriptor. -/
def State.targetOk (s : State) (kind : Nat) (t : Nat) : Bool :=
  match kind with
  | 1 | 2 => t % 4 != 3
  | 4 => bits t 16 2 < s.dieCount && bits t 0 8 < 144 && bits t 0 8 % 9 != 8 && bits t 8 8 == 0
      && bits t 18 6 == 0 && t / 2 ^ 27 == 0
  | 5 | 6 => true
  | _ => t == 0

/-- Two targets of a pop binding kind name one queue of the cluster (R156). -/
def samePort (kind i j : Nat) : Bool :=
  match kind with
  | 2 => i % 4 == j % 4
  | 6 => i % 8 == j % 8
  | 8 => true
  | _ => false

/-- A binding that lives on a queue of a cluster (R154), where there is one. -/
def State.heir (s : State) (ci kind i : Nat) : Option Owner :=
  s.cohorts.findSome? fun p =>
    if p.2.ci ≠ ci ∨ p.2.phase = .saved then none
    else (p.2.queues.find? fun b => b.2.kind == kind && samePort kind b.2.target.toNat i).map fun b =>
      ⟨p.1, b.1 / 8, b.1 % 8⟩

/-- The binding of a queue register ends (R156): the queue goes with its entries to another binding that lives on it
(R154), and is freed where there is none. -/
def State.unbind (s : State) (co role q : Nat) : State :=
  match find? s.cohorts co with
  | none => s
  | some c =>
    match c.qbind? role q with
    | none => s
    | some b =>
      let s := s.modCohort co fun c => { c with queues := erase c.queues (8 * role + q) }
      let i := b.target.toNat
      let heir := s.heir c.ci b.kind i
      let mine (p : Port) : Bool := p.owner == some ⟨co, role, q⟩
      let left (p : Port) : Port := if !mine p then p else if heir.isSome then { p with owner := heir } else Port.reset
      match b.kind with
      | 2 => s.modCluster c.ci fun cl => { cl with outs := setNth cl.outs (i % 4) (left (nth cl.outs (i % 4) Port.reset)) }
      | 6 =>
        let p := nth (s.cluster c.ci).ports (i % 8) Port.reset
        (s.modCluster c.ci fun cl => { cl with ports := setNth cl.ports (i % 8) (left p) }).bump .cluStray c.ci
          (p.items.length - (left p).items.length)
      | 8 => s.modCluster c.ci fun cl => { cl with events := left cl.events }
      | _ => s

/-- A port is bound by another cohort or role (R155). -/
def Port.taken (p : Port) (co role : Nat) : Bool := match p.owner with
  | some o => o.cohort != co || o.role != role
  | none => false

/-- Why a binding is not made (R155), or the clusters it sends to. Of the target operand of kind 5 only bits 31:0 are
read: R156 names no others (DESIGN CHOICE, log entry 27). -/
def State.bindCheck (s : State) (co : Nat) (c : Cohort) (role kind : Nat) (target : DWord) : Except Status (List Nat) :=
  let t := target.toNat
  let cl := s.cluster c.ci
  if !s.targetOk kind t ∨ (kind = 8 ∧ role ≠ 0) then .error .refused
  else
    match kind with
    | 5 =>
      let off := t % 2 ^ 32
      if off % 32 ≠ 0 ∨ c.spadBytes < off + 32 then .error .refused
      else
        match s.multicastDests (s.spadGet c off 32) with
        | none => .error .refused
        | some ds => .ok ds
    | 6 => if (nth cl.ports (t % 8) Port.reset).taken co role then .error .busy else .ok []
    | 8 => if cl.events.taken co role then .error .busy else .ok []
    | 3 =>
      let n := (c.queues.filter fun p => p.1 / 8 == role && p.2.kind == 3).length
      if 2 ≤ n then .error .busy else .ok []
    | _ => .ok []

/-- Makes or refuses a binding (R155 to R157), and its status. -/
def State.bind (s : State) (co role q kind : Nat) (sig trapq : Bool) (target : DWord) : Nat × State :=
  match find? s.cohorts co with
  | none => (0, s)
  | some c =>
    match s.bindCheck co c role kind target with
    | .error e => (e.code, s)
    | .ok ds =>
      let landing := if kind = 5 then bits (ofBytes ((s.spadGet c (target.toNat % 2 ^ 32) 32).drop 17)) 0 3 else 0
      let s := (if kind = 5 then s.touchSpad c (target.toNat % 2 ^ 32) 32 else s).unbind co role q
      if kind = 0 then (Status.ok.code, s)
      else
        let own (p : Port) : Port := { p with owner := some ⟨co, role, q⟩ }
        let i := target.toNat
        let s := match kind with
          | 2 => s.modCluster c.ci fun cl => { cl with outs := setNth cl.outs (i % 4) (own (nth cl.outs (i % 4) Port.reset)) }
          | 6 => s.modCluster c.ci fun cl => { cl with ports := setNth cl.ports (i % 8) (own (nth cl.ports (i % 8) Port.reset)) }
          | 8 => s.modCluster c.ci fun cl => { cl with events := own cl.events }
          | _ => s
        (Status.ok.code, s.modCohort co fun c =>
          { c with
            queues := insert c.queues (8 * role + q) ⟨kind, sig, trapq, target, ds, landing, [], c.fresh⟩
            fresh := c.fresh + 1 })

/-- The operand rules of `qbind` (R155). -/
def qbindForm (p : Option Pfx) (d a c : Sel) (kind : BitVec 4) (sig trapq : Bool) : Form where
  p := p
  acc := ⟨false, false, false, true, false⟩
  ty := some .b64
  srcs := [baseSrc false p a]
  dst := some (statusDst d)
  ill := !baseSel false a || !isQueue c
  res := decide (9 ≤ kind.toNat) || (sig && kind != 1) || (trapq && kind != 7)

/-- R155 `qbind`: the binding is made or refused as the status comes; a destination that cannot be empty
takes it at once. -/
def execQbind (p : Option Pfx) (d a c : Sel) (kind : BitVec 4) (sig trapq : Bool) (s : State) :
    Host.Outcome State Fault Refusal :=
  let f := qbindForm p d a c kind sig trapq
  s.runLow (.qbind p d a c kind sig trapq) f sameRole fun s x off ks vs zs =>
    let role := ((s.coh x).map fun co => roleOf co ks).getD 0
    let target := BitVec.ofNat 64 (arg vs 0)
    if statusSel d then
      s.finishStatus x (.qbind role (c.toNat - 112) kind.toNat sig trapq target) d off ks zs
    else
      let r := s.bind x.co role (c.toNat - 112) kind.toNat sig trapq target
      let vs (n : Nat) : List (Nat × Nat) := ks.map fun k => (k, n)
      -- where no thread's destination would take the status, each has its trap alone (R45)
      if ks.all fun k => (r.2.dstStops x (statusDst d) (vs r.1)).any fun z => z.1 == k then
        s.finish x f off zs (vs r.1 |>.map fun v => (v.1, .done ⟨v.2, 0, none⟩))
      else r.2.finish x f off zs (vs r.1 |>.map fun v => (v.1, .done ⟨v.2, 0, none⟩))

/-- The form of `qtry` (R161). -/
def qtryForm (p : Option Pfx) (d a : Sel) : Form where
  p := p
  acc := ⟨false, false, false, true, true⟩
  ty := gty p .b32
  srcs := [srcWord (polA p) a]
  dst := some (dstOf .b32 d)
  ill := ((gty p .b32).map (· != .b32)).getD false || isQueue a == isQueue d
  res := false

/-- The binding a `qtry` names can be popped or pushed at once (R161). -/
def State.tryReady (s : State) (x : Issue) (c : Cohort) (role : Nat) (d a : Sel) (act : List Nat) : Bool :=
  if isQueue a then
    ((c.qbind? role (a.toNat - 112)).map fun b => !(s.readyEntries c b).isEmpty).getD false
  else
    ((c.qbind? role (d.toNat - 112)).map fun b =>
      decide (0 < s.pushFree x.co (8 * role + (d.toNat - 112)) (act.head?.getD 0 / 32) b)).getD false

/-- R161 `qtry`: with no entry or no slot only the predicate is written. -/
def execQtry (p : Option Pfx) (d a : Sel) (q : BitVec 3) (s : State) : Host.Outcome State Fault Refusal :=
  let f := qtryForm p d a
  let i : Instr := .qtry p d a q
  s.runPre i f (fun s x c act =>
      let role := roleOf c act
      let replay := replaying c act
      if !oneRole c act || f.misused c role replay then .trap .accessFault
      else if replay || s.tryReady x c role d a act then .go
      else
        let off := x.ts.filter fun k => !act.contains k
        let vs := f.violators c role act replay
        let no (k : Nat) : Nat × Lane LaneRes := (k, .done ⟨0, 0, some (q.toNat, false)⟩)
        if isQueue a then
          .hold (match s.checked x c f act [] true with
            | .blocked s => s
            | .pass ks zs => s.finish x { f with dst := none } off zs (ks.map no))
        else
          .hold (match s.operands x { f with dst := none } act with
            | .blocked s => s
            | .lanes s ls zs =>
              let ks := (ls.map Prod.fst).filter fun k => !vs.contains k
              s.finish x { f with dst := none } off
                (zs ++ ((ls.map Prod.fst).filter vs.contains).map fun k => (k, x.cause .regionViolation 0)) (ks.map no)))
    fun s x off ls zs => s.finish x f off zs (ls.map fun l => (l.1, .done ⟨arg l.2 0, 0, some (q.toNat, true)⟩))

/-- The state of a binding (R162). -/
def State.qstatWord (s : State) (co role q crew : Nat) : Nat :=
  match (find? s.cohorts co).bind fun c => c.qbind? role q with
  | none => Status.busy.code
  | some b =>
    let key := 8 * role + q
    let free := if isPop b.kind then 0 else s.pushFree co key crew b
    let held := s.held co key b
    let ready := if isPop b.kind then held else free
    b.kind % 2 ^ 4 * 2 ^ 24 + min free 255 * 2 ^ 16 + min held 255 * 2 ^ 8
      + (if ready = 0 then Status.busy.code else Status.ok.code)

/-- The operand rules of `qstat` (R162). -/
def qstatForm (p : Option Pfx) (d a : Sel) : Form where
  p := p
  acc := ⟨false, false, false, true, false⟩
  ty := some .b32
  srcs := []
  dst := some (dstOf .b32 d)
  ill := !isQueue a
  res := false

/-- R162 `qstat`. -/
def execQstat (p : Option Pfx) (d a : Sel) (s : State) : Host.Outcome State Fault Refusal :=
  let f := qstatForm p d a
  s.runPre (.qstat p d a) f sameRole fun s x off ls zs =>
    let ks := ls.map Prod.fst
    let role := ((s.coh x).map fun c => roleOf c ks).getD 0
    let v := s.qstatWord x.co role (a.toNat - 112) (ks.head?.getD 0 / 32)
    s.finish x f off zs (ks.map fun k => (k, .done ⟨v, 0, none⟩))

/-- The operand rules of `spat` (R163). -/
def spatForm (p : Option Pfx) (d a b c : Sel) (dir : BitVec 2) (sp : Bool) (ety : BitVec 4) : Form where
  p := p
  acc := ⟨false, false, false, true, false⟩
  ty := some .b64
  srcs := [baseSrc sp p a, srcWord (polB p) b, srcOf .b64 false none c]
  dst := none
  ill := !isStream d || !baseSel sp a
  res := decide (2 ≤ dir.toNat) || (tyInt ety.toNat).isNone

/-- R163 `spat`. -/
def execSpat (p : Option Pfx) (d a b c : Sel) (dir : BitVec 2) (sp : Bool) (ety : BitVec 4) (rowlen : BitVec 12) (s : State) :
    Host.Outcome State Fault Refusal :=
  let f := spatForm p d a b c dir sp ety
  s.runLow (.spat p d a b c dir sp ety rowlen) f sameRole fun s x off ks vs zs =>
    let size := ((tyInt ety.toNat).getD .b32).width / 8
    let base := if sp then arg vs 0 % 2 ^ 32 else arg vs 0
    let es := arg vs 2 % 2 ^ 32
    let rs := arg vs 2 / 2 ^ 32
    if base % size ≠ 0 ∨ es % size ≠ 0 ∨ rs % size ≠ 0 then
      s.close x off (zs ++ ks.map fun k => (k, x.cause .alignFault 0))
    else
      let st : Stream := {
        base := BitVec.ofNat 64 base, count := BitVec.ofNat 32 (arg vs 1), estride := BitVec.ofNat 32 es
        rstride := BitVec.ofNat 32 rs, rowlen := rowlen.toNat + 1, ety := ety.toNat, write := dir == 1, sp := sp, pos := 0 }
      (s.modCohort x.co fun co =>
        { co with streams := insert co.streams (4 * roleOf co ks + (d.toNat - 120)) st }).close x (off ++ ks) zs

/-- R165 `sfree`: of a port that is not bound it is a use of an unbound port (R31). -/
def execSfree (p : Option Pfx) (a : Sel) (s : State) : Host.Outcome State Fault Refusal :=
  let f : Form := { bareMem p with ill := !isStream a }
  s.runPre (.sfree p a) f (fun _ _ c act =>
      if oneRole c act && (find? c.streams (4 * roleOf c act + (a.toNat - 120))).isSome then .go else .trap .accessFault)
    fun s x off ls zs =>
    let ks := ls.map Prod.fst
    (s.modCohort x.co fun co =>
      { co with streams := erase co.streams (4 * roleOf co ks + (a.toNat - 120)) }).close x (off ++ ks) zs

/-- R159: a push that has waited longer than CLU_QSTALL_LIM, and still finds no slot, raises QUEUE_STALL. -/
def execQueueStall (co g : Nat) (s : State) : Host.Outcome State Fault Refusal :=
  .next (if !s.stallDue co g then s else
    match find? s.cohorts co with
    | none => s
    | some c =>
      match c.members g, (find? c.groups g).bind Group.since with
      | [], _ => s
      | _, none => s
      | k :: ks, some w =>
        if s.pushOpen co c w.2 then s else
        let pc := ((c.thread? k).map Thread.pc).getD 0
        match s.fetchInstr c.ci c.ctx pc with
        | (.instr _ ws, s) =>
          let x : Issue := ⟨co, g, c.ci, c.ctx, k :: ks, pc, ws⟩
          s.pushWaits x w.2 (c.active x (if x.prefixed then some (decPfx (nth ws 0 0)) else none)) []
        | (_, s) => s)

/-- The record of a delivery that failed at some clusters (R158, R173, R267). -/
def failedRecord (source : Nat) (failed : List Nat) : CRec :=
  ⟨0, 0, source, 0, Status.partialDone.code, 0, 0, failed⟩

/-- R158: a message arrives: it joins its port, or is dropped and reported. The order of one binding's
messages is kept. -/
def execMessageArrive (id : Nat) (s : State) : Host.Outcome State Fault Refusal :=
  .next (match find? s.msgs id with
    | none => s
    | some m =>
      let earlier := s.msgs.any fun p => p.1 < id && p.2.sender == m.sender && p.2.serial == m.serial && p.2.dest == m.dest
        && p.2.port == m.port
      if earlier then s
      else
        let s := { s with msgs := erase s.msgs id }
        let p := nth (s.cluster m.dest).ports m.port Port.reset
        match p.owner with
        | some _ => s.modCluster m.dest fun cl => { cl with ports := setNth cl.ports m.port { p with items := p.items ++ [m.words] } }
        | none => (s.bump .cluStray m.dest 1).postEvent m.src (failedRecord 6 [m.dest]))

/-- A multicast copy is accepted at a landing port (R186), but not for a cohort that yields (R292): the next slot fills, and
may arrive at a barrier. -/
def State.landCopy (s : State) (ci port world : Nat) (ws : Lanes) : Option State :=
  match find? (s.cluster ci).landing port with
  | none => none
  | some l =>
    match find? s.cohorts l.cohort with
    | none => none
    | some c =>
      if l.slots ≤ l.filled ∨ c.world ≠ world ∨ c.yielding.isSome then none
      else
        let s := s.spadPut l.cohort (l.off + 128 * l.filled) (ws.flatMap fun w => toBytes w.toNat 4)
        let s := s.modCluster ci fun cl => { cl with landing := insert cl.landing port { l with filled := l.filled + 1 } }
        some (if l.ba then (s.arriveBar l.cohort l.barr 1).getD s else s)

/-- R186, R267: one copy of a multicast send reaches a destination; an arrival that a dropped one owed is owed no longer
(R198). -/
def execMulticastDelivery (id ci : Nat) (s : State) : Host.Outcome State Fault Refusal :=
  .next (match find? s.mcasts id with
    | none => s
    | some m =>
      if !m.left.contains ci then s
      else
        let s := { s with mcasts := insert s.mcasts id { m with left := m.left.filter (· != ci) } }
        match s.landCopy ci m.port m.world m.words with
        | some s => s
        | none =>
          let s := { s with mcasts := modify s.mcasts id fun m => { m with failed := m.failed ++ [ci] } }
          let s := s.bump .cluStray ci 1
          match find? (s.cluster ci).landing m.port with
          | some l => s.testBars l.cohort
          | none => s)

/-- R267: every destination has accepted or dropped its copy. -/
def execMulticastSendComplete (id : Nat) (s : State) : Host.Outcome State Fault Refusal :=
  .next (match find? s.mcasts id with
    | none => s
    | some m =>
      if !m.left.isEmpty then s
      else
        let s := { s with mcasts := erase s.mcasts id }
        if m.failed.isEmpty then s else s.postEvent m.src (failedRecord 7 m.failed))

end Sys2Proof.Machine
end

