-- ==== Sys2Proof/Machine/Engine.lean ====
section
/-!
DEFINITION. Engine commands, group 6: their instructions, the copy, gather and collective engines, and the
actions of a completed command (R168 to R173, R314, R336).
-/

namespace Sys2Proof.Machine

/-- A 32-bit operand of groups 6 and 7 (R168, R187). -/
def sel32 (a : Sel) : Bool := isSlot a || isScalar a || a == 124 || a == 126

/-- A 64-bit operand of groups 6 and 7 (R168, R187). -/
def sel64 (a : Sel) : Bool := (isSlot a && a.toNat % 2 == 0) || isScalar a || a == 124

/-- A group 6 instruction without a type (R168). -/
def form6 (p : Option Pfx) (srcs : List Src) (dst : Option Dst) (ill res : Bool) : Form :=
  ⟨p, ⟨false, false, false, true, false⟩, some .b32, srcs, dst, ill, res⟩

/-- The end of an instruction that acts once and traps: every active thread takes the trap. -/
def State.trapKs (s : State) (x : Issue) (off ks : List Nat) (zs : List (Nat × Cause)) (t : Trap) (addr : Nat) : State :=
  s.close x off (zs ++ ks.map fun k => (k, x.cause t addr))

/-- The little-endian words of some bytes. -/
def wordsOf (bs : List Byte) : Nat → List Word
  | 0 => []
  | n + 1 => BitVec.ofNat 32 (ofBytes (bs.take 4)) :: wordsOf (bs.drop 4) n

/-- Bits 31:12 of a command's header from its fields (R169). -/
def cmdHeader (tag : BitVec 8) (evt outq acq rel : Bool) (scope : BitVec 3) (ba : Bool) (barr : BitVec 4) : Nat :=
  tag.toNat * 2 ^ 12 + evt.toNat * 2 ^ 11 + outq.toNat * 2 ^ 10 + acq.toNat * 2 ^ 9 + rel.toNat * 2 ^ 8
    + scope.toNat * 2 ^ 5 + ba.toNat * 2 ^ 4 + barr.toNat

/-- `cpy`, `gath` and `coll` (R169). -/
def cmdInstr (i : Instr) (p : Option Pfx) (d a : Sel) (engine hdr : Nat) (scope : BitVec 3) (s : State) :
    Host.Outcome State Fault Refusal :=
  let key (c : Cohort) (ks : List Nat) : Nat := 8 * roleOf c ks + (d.toNat - 112)
  s.runLow i (form6 p [srcWord (polA p) a] none (!isQueue d || !sel32 a) (decide (5 ≤ scope.toNat)))
    (fun _ _ c act =>
      if oneRole c act && ((find? c.queues (key c act)).map fun b => b.kind == 1).getD false then .go else .trap .accessFault)
    fun s x off ks vs zs =>
      match find? s.cohorts x.co with
      | none => s
      | some c =>
        match find? c.queues (key c ks) with
        | none => s
        | some b =>
          let at_ := arg vs 0 % 2 ^ 32
          match c.spadCheck at_ 64 false with
          | some t => s.trapKs x off ks zs t at_
          | none =>
            let s := s.touchSpad c at_ 64
            if s.spadPoisoned c at_ then s.trapKs x off ks zs .poison at_
            else
              let rec_ := wordsOf (s.spadGet c at_ 64) 16
              let ws := BitVec.ofNat 32 (hdr * 2 ^ 12 + (nth rec_ 0 0).toNat % 2 ^ 12) :: rec_.drop 1
              if b.target.toNat % 4 ≠ engine ∨ !cmdOk engine ws then s.trapKs x off ks zs .reservedField 0
              else if b.sig ∧ cmdOpc ws ≠ 15 then s.trapKs x off ks zs .accessFault 0
              else if s.pushFree x.co (key c ks) (ks.head?.getD 0 / 32) b = 0 then
                s.pushWaits x (.slot (key c ks) 1 (ks.head?.getD 0 / 32)) ks zs
              else (s.pushCmd x.co (key c ks) engine ks ws).close x (off ++ ks) zs

/-- R169 `cpy`. -/
def execCpy (p : Option Pfx) (d a : Sel) (tag : BitVec 8) (evt outq acq rel : Bool) (scope : BitVec 3) (ba : Bool)
    (barr : BitVec 4) (s : State) : Host.Outcome State Fault Refusal :=
  cmdInstr (.cpy p d a tag evt outq acq rel scope ba barr) p d a 0 (cmdHeader tag evt outq acq rel scope ba barr) scope s
/-- R169 `gath`. -/
def execGath (p : Option Pfx) (d a : Sel) (tag : BitVec 8) (evt outq acq rel : Bool) (scope : BitVec 3) (ba : Bool)
    (barr : BitVec 4) (s : State) : Host.Outcome State Fault Refusal :=
  cmdInstr (.gath p d a tag evt outq acq rel scope ba barr) p d a 1 (cmdHeader tag evt outq acq rel scope ba barr) scope s
/-- R169 `coll`. -/
def execColl (p : Option Pfx) (d a : Sel) (tag : BitVec 8) (evt outq acq rel : Bool) (scope : BitVec 3) (ba : Bool)
    (barr : BitVec 4) (s : State) : Host.Outcome State Fault Refusal :=
  cmdInstr (.coll p d a tag evt outq acq rel scope ba barr) p d a 2 (cmdHeader tag evt outq acq rel scope ba barr) scope s

/-- A command replaced. -/
def State.setCmd (s : State) (id : Nat) (c : Cmd) : State := { s with cmds := insert s.cmds id c }

/-- A command ends with a status (R171). -/
def State.endCmd (s : State) (id : Nat) (c : Cmd) (st : Status) : State :=
  s.setCmd id { c with state := .ended st.code 0 0, plain := none }

/-- The fault queue's agent of an engine (R297). -/
def engineAgent : Nat → Agent
  | 0 => .copy
  | 1 => .gather
  | _ => .collective

/-- An access of a command that fails (R171): a PAGE_FAULT parks it or ends its context; any other fault ends
it with PARTIAL. -/
def State.cmdStop {α : Type} (s : State) (id : Nat) (c : Cmd) (r : Lane α) : State :=
  match r with
  | .done _ => s
  | .trap t a => s.setCmd id { c with state := .ended Status.partialDone.code t.code a, plain := none }
  | .page va l need =>
    let q := s.pageFault c.ctx va need (engineAgent c.engine) l (dieOf c.ci)
    if q.1 then q.2.setCmd id { c with parked := some (va / 2 ^ 12) } else q.2

/-- Where an access of a command to memory goes (R142 steps 3 and 4, R171, R304). -/
def State.cmdPlace (s : State) (c : Cmd) (sp va : Nat) (need : Need) : Lane Place × State :=
  match s.translate c.ci c.ctx va need with
  | (.error (.page l), s) => (.page va l need, s)
  | (.error (.trap t), s) => (.trap t va, s)
  | (.ok p, s) =>
    if (p.attr == 0) != (sp == 0) || (isHost p.pa && c.world != 0 && (s.tdi c.world).state != 2) then
      (.trap .accessFault va, s)
    else if s.worldOk c.ctx p.world then (.done p, s)
    else (.trap .worldFault va, s.postWorld c.ci p.world)

/-- A piece of a line that a command reads (R171): its own writes there precede the read, and stores of its threads may
follow it (R170). -/
def State.cmdRead (s : State) (c : Cmd) (sp va k : Nat) : Lane (List Byte) × State :=
  if sp = 1 then
    match find? s.cohorts c.cohort with
    | none => (.trap .accessFault va, s)
    | some co =>
      match co.spadRange va k false with
      | some t => (.trap t va, s)
      | none =>
        let s := (s.landOwn c.serial true va k).touchSpad co va k
        if s.spadPoisoned co va then (.trap .poison va, s)
        else
          let r := s.olderBytes c.stale true va (s.spadGet co va k)
          (.done r.1, r.2)
  else
    match s.cmdPlace c sp va Need.read with
    | (.page a l n, s) => (.page a l n, s)
    | (.trap t a, s) => (.trap t a, s)
    | (.done p, s) =>
      let s := s.landOwn c.serial false p.pa k
      match ((s.countRdc (dieOf c.ci) p.pa p.world p.attr 0).recall c.ci (p.pa / 128)).readPhys p.world p.pa k with
      | (.error t, s) => (.trap t va, s)
      | (.ok bs, s) =>
        let r := s.olderBytes c.stale false p.pa bs
        (.done r.1, r.2)

/-- A write of a command: `now`, or, without REL, perhaps after its completion (R170), and then those that follow it
too. -/
def State.nowOrLate (s : State) (c : Cmd) (sp : Bool) (world pos : Nat) (bs : List Byte)
    (now : State → Lane Unit × State) : Lane Unit × State :=
  if c.rel then now s
  else
    let r := if s.late.any fun l => l.2.serial == c.serial then (1, s) else s.choose 2
    if r.1 = 0 then now r.2
    else
      let id := r.2.newId
      (.done (), { id.2 with late := insert id.2.late id.1 ⟨c.ci, c.cohort, c.threads, c.serial, sp, world, pos, bs⟩ })

/-- A piece of a line that a command writes (R171). -/
def State.cmdWrite (s : State) (c : Cmd) (sp va : Nat) (bs : List Byte) : Lane Unit × State :=
  if sp = 1 then
    match find? s.cohorts c.cohort with
    | none => (.trap .accessFault va, s)
    | some co =>
      match co.spadRange va bs.length true with
      | some t => (.trap t va, s)
      | none => s.nowOrLate c true 0 va bs fun s => (.done (), s.spadPut c.cohort va bs)
  else
    match s.cmdPlace c sp va Need.write with
    | (.page a l n, s) => (.page a l n, s)
    | (.trap t a, s) => (.trap t a, s)
    | (.done p, s) =>
      let now (s : State) : Lane Unit × State :=
        match (s.recall c.ci (p.pa / 128)).writePhys p.world p.pa bs with
        | (some t, s) => (.trap t va, s)
        | (none, s) => (.done (), s.ncStore c.ci p.pa bs)
      -- a write that would be refused is not left behind (R367)
      if (s.checkLine p.world (p.pa / 128)).1 = .fails .integrityFault then now s
      else s.nowOrLate c false p.world p.pa bs now

/-- The address space of a space code: scratchpad offsets have 32 bits, addresses 64. -/
def spaceMod (sp : Nat) : Nat := if sp = 1 then 2 ^ 32 else 2 ^ 64

/-- A run of bytes cut at lines: address and length of each piece. -/
def cutSpan (va : Nat) : Nat → List (Nat × Nat)
  | n => (cutLines va (List.replicate n 0)).map fun p => (p.1, p.2.length)

/-- A run of bytes that a command reads, piece by piece. -/
def State.cmdReads (s : State) (c : Cmd) (sp : Nat) : List (Nat × Nat) → Lane (List Byte) × State
  | [] => (.done [], s)
  | p :: ps =>
    match s.cmdRead c sp (p.1 % spaceMod sp) p.2 with
    | (.done bs, s) =>
      match s.cmdReads c sp ps with
      | (.done cs, s) => (.done (bs ++ cs), s)
      | r => r
    | r => r

/-- A run of bytes that a command writes, piece by piece. -/
def State.cmdWrites (s : State) (c : Cmd) (sp : Nat) : List (Nat × List Byte) → Lane Unit × State
  | [] => (.done (), s)
  | p :: ps =>
    match s.cmdWrite c sp (p.1 % spaceMod sp) p.2 with
    | (.done _, s) => s.cmdWrites c sp ps
    | r => r

/-- A queued command may start: commands of one binding start in the order they were pushed (R336). -/
def State.canStart (s : State) (id : Nat) (c : Cmd) : Bool :=
  !(s.cmds.any fun p => p.1 < id && p.2.cohort == c.cohort && p.2.engine == c.engine && p.2.key == c.key
    && p.2.state == .queued)

/-- A command of an engine and kind takes its next step: a queued one starts, where `start` lets it, or
completes REFUSED where its record is not valid; a running one goes on unless it is parked. -/
def State.cmdStep (s : State) (id engine opc : Nat) (start go : State → Cmd → State) : State :=
  match find? s.cmds id with
  | none => s
  | some c =>
    let ok := cmdOk engine c.words
    if c.engine ≠ engine ∨ (ok ∧ cmdOpc c.words ≠ opc) then s
    else
      match c.state with
      | .ended .. => s
      | .queued => if !s.canStart id c then s else if ok then start s c else s.endCmd id c .refused
      | .running => if c.parked.isSome then s else go s c

/-- A command that has started. -/
def Cmd.started (c : Cmd) : Cmd := { c with state := .running }

/-- The next piece of a copy (R171): addresses and length. Bytes that the copy itself overwrites before it
reads them are not taken ahead. -/
def copyPiece (ws : List Word) (done : Nat) : Nat × Nat × Nat :=
  let rb := cmdWord ws 6
  let r := done / rb
  let b := done % rb
  let ssp := bits (cmdWord ws 10) 0 2
  let dsp := bits (cmdWord ws 10) 2 2
  let src := wrapNat 64 (cmdDword ws 2 + r * toSigned 32 (cmdWord ws 8) + b) % spaceMod ssp
  let dst := wrapNat 64 (cmdDword ws 4 + r * toSigned 32 (cmdWord ws 9) + b) % spaceMod dsp
  let n := min (rb - b) (min (128 - src % 128) (128 - dst % 128))
  let ahead := (dst + 4096 - src % 4096) % 4096
  (src, dst, if 0 < ahead ∧ ahead < n ∧ (ssp == 1) = (dsp == 1) then ahead else n)

/-- A copy moves its next piece (R171). -/
def State.copyGo (s : State) (id : Nat) (c : Cmd) : State :=
  let ws := c.words
  let z := copyPiece ws c.progress
  match s.cmdRead c (bits (cmdWord ws 10) 0 2) z.1 z.2.2 with
  | (.done bs, s) =>
    match s.cmdWrite c (bits (cmdWord ws 10) 2 2) z.2.1 bs with
    | (.done _, s) =>
      let c := { c with progress := c.progress + z.2.2 }
      if cmdWord ws 6 * cmdWord ws 7 ≤ c.progress then s.endCmd id c .ok else s.setCmd id c
    | (r, s) => s.cmdStop id c r
  | (r, s) => s.cmdStop id c r

/-- R171: a copy command starts and moves its rows, one piece within a line at each step. -/
def execCopy (id : Nat) (s : State) : Host.Outcome State Fault Refusal :=
  .next (s.cmdStep id 0 0 (fun s c => s.copyGo id c.started) fun s c => s.copyGo id c)

/-- Bytes of quarantine taken on a cluster (R172). -/
def State.quarantined (s : State) (ci : Nat) : Nat :=
  s.cmds.foldl (fun n p =>
    if p.2.ci = ci ∧ p.2.engine = 0 ∧ cmdOpc p.2.words = 1 ∧ p.2.state = .running then n + cmdWord p.2.words 6 else n) 0

/-- The destination of a decrypting copy is scratchpad or in pages of the context's world (R172). -/
def State.gcmDest (s : State) (c : Cmd) (sp : Nat) : List (Nat × Nat) → Lane Unit × State
  | [] => (.done (), s)
  | p :: ps =>
    if sp = 1 then (.done (), s)
    else
      match s.translate c.ci c.ctx (p.1 % spaceMod sp) Need.write with
      | (.error (.page l), s) => (.page (p.1 % spaceMod sp) l Need.write, s)
      | (.error (.trap t), s) => (.trap t (p.1 % spaceMod sp), s)
      | (.ok q, s) =>
        if q.world ≠ c.world then (.trap .worldFault (p.1 % spaceMod sp), s.postWorld c.ci q.world)
        else s.gcmDest c sp ps

/-- The ciphertext of a decrypting copy is read, and its tag compared (R172, R336). -/
def State.gcmOpen (s : State) (id : Nat) (c : Cmd) (key : Digest) : State :=
  let ws := c.words
  let n := cmdWord ws 6
  match s.cmdReads c (bits (cmdWord ws 10) 0 2) (cutSpan (cmdDword ws 2) (n + 16)) with
  | (.done bs, s) =>
    let iv := BitVec.ofNat 96 (cmdDword ws 12 * 2 ^ 32 + cmdWord ws 11)
    if Config.gcmTag key iv (bs.take n) = bs.drop n then
      s.setCmd id { c with plain := some (Config.gcmDecrypt key iv (bs.take n)) }
    else s.endCmd id c .tagfail
  | (r, s) => s.cmdStop id c r

/-- A decrypting copy moves its next piece from quarantine (R172, R336): its progress shows only when all of
it is written. -/
def State.gcmWrite (s : State) (id : Nat) (c : Cmd) (pt : List Byte) : State :=
  let ws := c.words
  let sp := bits (cmdWord ws 10) 2 2
  match (cutLines (cmdDword ws 4 + c.progress) (pt.drop c.progress)).head? with
  | none => s.endCmd id { c with progress := cmdWord ws 6 } .ok
  | some p =>
    match s.cmdWrite c sp (p.1 % spaceMod sp) p.2 with
    | (.done _, s) =>
      let c := { c with progress := c.progress + p.2.length }
      if pt.length ≤ c.progress then s.endCmd id c .ok else s.setCmd id c
    | (.page va l need, s) => s.cmdStop id c (.page va l need : Lane Unit)
    | (r, s) => s.cmdStop id { c with progress := 0 } r

/-- The checks that a decrypting copy makes when it starts (R172). -/
def State.gcmStart (s : State) (id : Nat) (c : Cmd) : State :=
  let ws := c.words
  let k := bits (cmdWord ws 10) 8 8
  match find? s.sec.slots k with
  | none => s.endCmd id c .refused
  | some slot =>
    if slot.ctx ≠ c.ctx then s.endCmd id c .refused
    else
      match s.gcmDest c (bits (cmdWord ws 10) 2 2) (cutSpan (cmdDword ws 4) (cmdWord ws 6)) with
      | (.done _, s) =>
        if cmdWord ws 11 ≤ slot.last then s.endCmd id c .ivReuse
        else
          let slot' : KeySlot := { slot with last := cmdWord ws 11 }
          ({ s with sec := { s.sec with slots := insert s.sec.slots k slot' } }).setCmd id
            { c with slotKey := some slot.key }
      | (r, s) => s.cmdStop id c r

/-- A decrypting copy goes on: its checks, its decryption, its writes. -/
def State.gcmGo (s : State) (id : Nat) (c : Cmd) : State :=
  match c.slotKey, c.plain with
  | none, _ => s.gcmStart id c
  | some key, none => s.gcmOpen id c key
  | some _, some pt => s.gcmWrite id c pt

/-- A decrypting copy that names a key slot has started and is parked before its checks (R172). -/
def State.unchecked (s : State) (slot : Nat) : Bool :=
  s.cmds.any fun p => p.2.engine == 0 && cmdOpc p.2.words == 1 && p.2.state == .running && p.2.slotKey.isNone
    && bits (cmdWord p.2.words 10) 8 8 == slot

/-- R172, R336: a decrypting copy starts once its bytes fit the quarantine, and goes on. The checks on one key slot are
made in the order of the starts: the next copy starts when the one before it has been checked. -/
def execDecryptingCopy (id : Nat) (s : State) : Host.Outcome State Fault Refusal :=
  .next (s.cmdStep id 0 1
    (fun s c =>
      if 65536 < s.quarantined c.ci + cmdWord c.words 6 ∨ s.unchecked (bits (cmdWord c.words 10) 8 8) then s else s.gcmGo id c.started)
    fun s c => s.gcmGo id c)

/-- An element, or an index, that a command reads, at an address that is a multiple of its size (R142 step 2, R171). -/
def State.elemRead (s : State) (c : Cmd) (sp va size : Nat) : Lane (List Byte) × State :=
  if va % size ≠ 0 then (.trap .alignFault (va % spaceMod sp), s) else s.cmdReads c sp (cutSpan va size)

/-- An element that a command writes, at an address that is a multiple of its size (R142 step 2, R171). -/
def State.elemWrite (s : State) (c : Cmd) (sp va : Nat) (bs : List Byte) : Lane Unit × State :=
  if va % bs.length ≠ 0 then (.trap .alignFault (va % spaceMod sp), s) else s.cmdWrites c sp (cutLines va bs)

/-- An element of a gather or scatter moves (R171): of several scattered to one location, any one's value
may be the last. -/
def State.gatherElement (s : State) (c : Cmd) : Lane Cmd × State :=
  let ws := c.words
  let w9 := cmdWord ws 9
  let size := 2 ^ bits w9 0 8
  let dsp := bits w9 8 2
  let isp := bits w9 10 2
  let iw := if bit w9 12 then 8 else 4
  match s.elemRead c isp (cmdDword ws 6 + c.progress * iw) iw with
  | (.done ib, s) =>
    let far := cmdDword ws 2 + ofBytes ib * size
    let near := cmdDword ws 4 + c.progress * size
    let scat := bit w9 13
    let from_ := if scat then (dsp, near) else (0, far)
    let dest := if scat then (0, far % 2 ^ 64) else (dsp, near)
    match s.elemRead c from_.1 from_.2 size with
    | (.done bs, s) =>
      let again := if scat && c.seen.contains dest.2 then s.choose 2 else (0, s)
      let c' := { c with progress := c.progress + 1, seen := if scat then dest.2 :: c.seen else c.seen }
      if again.1 = 1 ∧ dest.2 % size = 0 then (.done c', again.2)
      else
        match again.2.elemWrite c dest.1 dest.2 bs with
        | (.done _, s) => (.done c', s)
        | (.trap t a, s) => (.trap t a, s)
        | (.page a l n, s) => (.page a l n, s)
    | (.trap t a, s) => (.trap t a, s)
    | (.page a l n, s) => (.page a l n, s)
  | (.trap t a, s) => (.trap t a, s)
  | (.page a l n, s) => (.page a l n, s)

/-- A gather goes on by one element. -/
def State.gatherGo (s : State) (id : Nat) (c : Cmd) : State :=
  let n := cmdWord c.words 8
  if n ≤ c.progress then s.endCmd id c .ok
  else
    match s.gatherElement c with
    | (.done c', s) => if n ≤ c'.progress then s.endCmd id c' .ok else s.setCmd id c'
    | (r, s) => s.cmdStop id c r

/-- R171: a gather or scatter starts and moves its elements, one at each step. -/
def execGather (id : Nat) (s : State) : Host.Outcome State Fault Refusal :=
  .next (s.cmdStep id 1 2 (fun s c => s.gatherGo id c.started) fun s c => s.gatherGo id c)

/-- A collective group's entry: a field (R314). -/
def State.cgrp (s : State) (g lo n : Nat) : Nat := bits (findD s.fab.groups g 0).toNat lo n

/-- The fabric ports that a group uses (R314). -/
def State.groupPorts (s : State) (g : Nat) : List Nat := (List.range 36).filter fun p => s.cgrp g p 1 == 1

/-- A collective completes REFUSED (R314); a group whose ports are those of an absent die names that die (R2). -/
def State.collRefused (s : State) (c : Cmd) : Bool :=
  let g := cmdWord c.words 8
  let nrank := s.cgrp g 84 16
  256 ≤ g || ((s.groupPorts g).any fun p => decide (s.dieCount ≤ p / 9)) || s.cgrp g 127 1 == 0 || s.cgrp g 123 4 != c.world || nrank < s.cgrp g 100 16
    || nrank < bits (cmdWord c.words 9) 0 16
    || (c.world != 0 &&
      (s.cgrp g 122 1 == 0 || !(((find? s.sec.slots (s.cgrp g 116 6)).map fun k => k.world == c.world).getD false)))

/-- The element type of a collective (R171). -/
def collType (n : Nat) : Ety :=
  match n with
  | 1 => .f16 | 2 => .bf16 | 3 => .f32 | 4 => .f64
  | _ => .s32

/-- Two elements combined (R171): sums round with RNE, flush nothing and wrap; minima and maxima are those
of R109 and of the signed order. -/
def collOp (t : Ety) (op x y : Nat) : Nat :=
  if t.isF then
    if op = 0 then
      let v := addVal .rne (t.val x) (t.val y)
      (t.result .rne false false v.1 v.2).1
    else (minMaxFp (op == 1) t x y).1
  else
    let r : Int := if op = 0 then t.num x + t.num y else if op = 1 then minInt (t.num x) (t.num y) else maxInt (t.num x) (t.num y)
    t.wrap r

/-- The elements of several ranks combined in an order and bracketing of the device's choice (R171). -/
def State.combine (s : State) (t : Ety) (op : Nat) : Nat → List Nat → Nat × State
  | 0, l => (l.headD 0, s)
  | _, [] => (0, s)
  | _, [a] => (a, s)
  | n + 1, l =>
    let i := s.choose l.length
    let a := nth l i.1 0
    let rest := l.eraseIdx i.1
    let j := i.2.choose rest.length
    j.2.combine t op n (collOp t op a (nth rest j.1 0) :: rest.eraseIdx j.1)

/-- The elements of a rank that feed one result element, and the result's number (R171; log entry 34). -/
def collFeeds (kind count ranks rank root i : Nat) : List (Nat × Nat) :=
  match kind with
  | 0 => (List.range ranks).map fun r => (r, i)
  | 1 => (List.range ranks).map fun r => (r, rank * count + i)
  | 2 => [(i / count, i % count)]
  | _ => [(root, i)]

/-- The elements that a command's own rank contributes to one result, with those of the others. -/
def State.collInputs (s : State) (c : Cmd) (peers : List (List DWord)) (rank size : Nat) :
    List (Nat × Nat) → Lane (List Nat) × State
  | [] => (.done [], s)
  | f :: fs =>
    let r : Lane Nat × State :=
      if f.1 = rank then
        match s.elemRead c 0 (cmdDword c.words 2 + f.2 * size) size with
        | (.done bs, s) => (.done (ofBytes bs), s)
        | (.trap t a, s) => (.trap t a, s)
        | (.page a l n, s) => (.page a l n, s)
      else (.done ((nth (nth peers f.1 []) f.2 0).toNat % 2 ^ (8 * size)), s)
    match r with
    | (.done v, s) =>
      match s.collInputs c peers rank size fs with
      | (.done vs, s) => (.done (v :: vs), s)
      | q => q
    | (.trap t a, s) => (.trap t a, s)
    | (.page a l n, s) => (.page a l n, s)

/-- One result element of a collective. -/
def State.collElement (s : State) (c : Cmd) (peers : List (List DWord)) : Lane Unit × State :=
  let ws := c.words
  let w7 := cmdWord ws 7
  let t := collType (bits w7 0 8)
  let size := t.width / 8
  let g := cmdWord ws 8
  let rank := s.cgrp g 100 16
  let ranks := s.cgrp g 84 16 + 1
  match s.collInputs c peers rank size
      (collFeeds (bits w7 16 8) (cmdWord ws 6) ranks rank (bits (cmdWord ws 9) 0 16) c.progress) with
  | (.done vs, s) =>
    let v := s.combine t (bits w7 8 8) vs.length vs
    v.2.elemWrite c 0 (cmdDword ws 4 + c.progress * size) (toBytes v.1 size)
  | (.trap z a, s) => (.trap z a, s)
  | (.page a l n, s) => (.page a l n, s)

/-- Result elements that a collective writes on this rank. -/
def State.collTotal (s : State) (c : Cmd) : Nat :=
  cmdWord c.words 6 * if bits (cmdWord c.words 7) 16 8 = 2 then s.cgrp (cmdWord c.words 8) 84 16 + 1 else 1

/-- A collective goes on until it ends, parks or faults; `fuel` bounds the elements of one step. -/
def State.collGo (s : State) (id : Nat) (peers : List (List DWord)) (c : Cmd) : Nat → State
  | 0 => s.endCmd id c .ok
  | n + 1 =>
    match s.collElement c peers with
    | (.done _, s) => s.collGo id peers { c with progress := c.progress + 1 } n
    | (r, s) => s.cmdStop id c r

/-- A collective that runs: a packet that fails its tag ends it with INTEGRITY_FAULT (R314). -/
def State.collRun (s : State) (id : Nat) (peers : List (List DWord)) (tagFail : Bool) (c : Cmd) : State :=
  if tagFail ∧ c.world ≠ 0 then
    s.setCmd id { c with state := .ended Status.partialDone.code Trap.integrityFault.code 0 }
  else s.collGo id peers c (s.collTotal c - c.progress)

/-- R171, R314: a collective starts and exchanges with its group; `peers` holds what each rank contributes,
and `tagFail` says that a packet failed its tag on the way. -/
def execCollective (id : Nat) (peers : List (List DWord)) (tagFail : Bool) (s : State) : Host.Outcome State Fault Refusal :=
  .next (s.cmdStep id 2 3
    (fun s c =>
      if s.collRefused c then s.endCmd id c .refused
      else
        let g := cmdWord c.words 8
        let s := if c.world = 0 then s else
          { s with fab := { s.fab with counters := insert s.fab.counters g (findD s.fab.counters g 0 + 1) } }
        let s := (s.groupPorts g).foldl (fun s p => s.takes (256 * (p / 9) + 244 + p % 9) c.ctx) s
        s.collRun id peers tagFail c.started)
    fun s c => s.collRun id peers tagFail c)

/-- A signal command completes once every command pushed earlier to its engine by its cohort has (R169). -/
def State.signalGo (s : State) (id : Nat) (c : Cmd) : State :=
  if s.cmds.any fun p => p.1 < id && p.2.cohort == c.cohort && p.2.engine == c.engine then s.setCmd id c.started
  else s.endCmd id c .ok

/-- R169: a signal-class command. -/
def execSignal (id : Nat) (s : State) : Host.Outcome State Fault Refusal :=
  .next (match find? s.cmds id with
    | none => s
    | some c => s.cmdStep id c.engine 15 (fun s c => s.signalGo id c) fun s c => s.signalGo id c)

/-- R170, R173, R196: a command that has ended arrives at its barrier and posts its records. An arrival that
finds the barrier inert is not made, and turns OK into PARTIAL with ACCESS_FAULT. -/
def execEngineCommandComplete (id : Nat) (s : State) : Host.Outcome State Fault Refusal :=
  .next (match find? s.cmds id with
    | none => s
    | some c =>
      match c.state with
      | .ended st fault addr =>
        let w0 := cmdWord c.words 0
        let s := { s with cmds := erase s.cmds id }
        let a := if bit w0 16 then s.arriveBar c.cohort (bits w0 12 4) 1 else some s
        let inert := a.isNone && st == Status.ok.code
        let s := a.getD s
        let r : CRec := {
          tag := bits w0 24 8, fault := if inert then Trap.accessFault.code else fault, source := c.engine, opc := bits w0 0 4
          status := if inert then Status.partialDone.code else st, progress := c.progress, addr := addr, failed := [] }
        let s := if bit w0 23 then s.postEvent c.ci r else s
        if bit w0 22 then s.postOut c.ci c.engine r else s
      | _ => s)

end Sys2Proof.Machine
end

