-- ==== Sys2Proof/Machine/Matrix.lean ====
section
/-!
DEFINITION. Matrix work, group 6: descriptors, signing, the matrix units, the slices' adders and flushes
(R67 to R72, R174 to R182).
-/

namespace Sys2Proof.Machine

/-- A page fault of an access that an instruction makes once: every active thread parks (R297). -/
def State.parkKs (s : State) (x : Issue) (ks : List Nat) (va level : Nat) (need : Need) : State :=
  ks.foldl (fun s k => s.parkOnPage x k va need .thread level) s

/-- The element format of an EFMT code (R174). -/
def elemFmt : Nat → Option Ety
  | 1 => some .f16 | 2 => some .bf16 | 4 => some .f64 | 5 => some .t8 | 6 => some .t6
  | _ => none

/-- The accumulator format of an AFMT code (R174). -/
def accFmt (n : Nat) : Ety := if n = 7 then .a48 else .f64

/-- K elements of a block (R67). -/
def MDesc.block (d : MDesc) : Nat := if d.efmt = 4 then 8 else 32

/-- Element type of A and B. -/
def MDesc.elem (d : MDesc) : Ety := (elemFmt d.efmt).getD .f16

/-- Bytes of a row of elements (R55). -/
def rowBytes (t : Ety) (n : Nat) : Nat := (n * t.width + 7) / 8

/-- The descriptor of 64 bytes (R174); `none` where a field is outside its limits. DESIGN CHOICE (log entry 36): a row of T6
elements whose count is no multiple of 4 is accepted, and takes the whole bytes that its bits need (R55 packs 4 in 3 bytes). -/
def parseDesc (bs : List Byte) (window : Nat) : Option MDesc :=
  let r (o n : Nat) : Nat := ofBytes ((bs.drop o).take n)
  let d : MDesc := {
    aaddr := BitVec.ofNat 64 (r 0 8), baddr := BitVec.ofNat 64 (r 8 8), caddr := BitVec.ofNat 64 (r 16 8)
    astride := r 0x18 4, bstride := r 0x1C 4, cstride := r 0x20 4, fstride := r 0x24 4
    k := r 0x28 4, m := r 0x2C 1, n := r 0x2D 1, efmt := r 0x2E 1, afmt := r 0x2F 1, promo := r 0x30 2
    sca := r 0x32 1, scb := r 0x33 1, bsela := bits (r 0x34 1) 0 2, bselb := bits (r 0x34 1) 2 2 }
  let tap := d.efmt == 5 || d.efmt == 6
  let ok := (elemFmt d.efmt).isSome && (d.afmt == 7 || d.afmt == 4) && (d.efmt != 4 || d.afmt == 4)
    && r 0 8 % 16 == 0 && r 8 8 % 16 == 0 && r 16 8 % 128 == 0
    && decide (1 ≤ d.k ∧ d.k ≤ 65536) && d.k % d.block == 0
    && decide (1 ≤ d.m ∧ d.m ≤ 32 ∧ 1 ≤ d.n ∧ d.n ≤ 32)
    && d.astride % 16 == 0 && decide (rowBytes d.elem d.k ≤ d.astride)
    && d.bstride % 16 == 0 && decide (rowBytes d.elem d.n ≤ d.bstride)
    && d.cstride % 128 == 0 && decide (8 * d.n ≤ d.cstride)
    && d.fstride % 2 == 0 && decide (2 * d.n ≤ d.fstride)
    && d.promo % d.block == 0 && decide (d.promo ≤ 4096)
    && r 0x34 1 / 16 == 0 && r 0x35 11 == 0
    && (if tap then d.scalesOk window else d.sca == 0 && d.scb == 0 && r 0x34 1 == 0)
  if ok then some d else none

/-- R174 `mdesc`. -/
def execMdesc (p : Option Pfx) (md : BitVec 3) (a : Sel) (sp : Bool) (s : State) : Host.Outcome State Fault Refusal :=
  s.runLow (.mdesc p md a sp) (form6 p [baseSrc sp p a] none (!baseSel sp a) false) always fun s x off ks vs zs =>
    let ea := if sp then arg vs 0 % 2 ^ 32 else arg vs 0
    match s.load x sp ea 64 0 with
    | (.page l, s) => s.parkKs x ks ea l Need.read
    | (.trap t, s) => s.trapKs x off ks zs t ea
    | (.ok v, s) =>
      let window := ((s.coh x).map fun c => nth c.hdr.window (roleOf c ks) 0).getD 0
      match parseDesc (toBytes v 64) window with
      | none => s.trapKs x off ks zs .reservedField 0
      | some d => (s.modCohort x.co fun c => { c with mds := insert c.mds md.toNat d }).close x (off ++ ks) zs

/-- What one thread's signature came to (R175). -/
inductive Signed where
  | done
  /-- It signed in this round before and waits for the round to end. -/
  | again
  /-- It would complete the round, and waits as a push for a place on its unit (R159, R176). -/
  | full (w : PushWait)
  /-- It would complete the round, and waits for scale registers that are empty (R22, R176). -/
  | scales
  | trap (t : Trap)
  deriving DecidableEq, Repr

/-- Flags of two signatures (R175): the widest scope is kept. -/
def MFlags.or (a b : MFlags) : MFlags := ⟨a.evt || b.evt, a.acq || b.acq, a.rel || b.rel, max a.scope b.scope⟩

/-- One thread's signature (R175). -/
def State.sign (s : State) (co cv : Nat) (m : Option (Nat × MDesc × MFlags)) (k : Nat) : Signed × State :=
  match find? s.cohorts co with
  | none => (.trap .accessFault, s)
  | some c =>
    let v := c.conv cv
    if s.absorbs co k (16 + cv) then (.done, s.absorb co k (16 + cv))
    else if v.inert ∨ !v.members.contains k then (.trap .accessFault, s)
    else if v.marks.contains k then (.again, s)
    else
      let clash := match m, v.md with
        | some (i, _, _), some (j, _) => i != j
        | _, _ => false
      if clash then (.trap .reservedField, s)
      else
        let v' := match m with
          | some (i, d, f) => { v with md := some (v.md.getD (i, d)), flags := v.flags.or f }
          | none => v
        let v' := { v' with signed := v.signed + 1, marks := k :: v.marks, last := some k }
        if v'.signed = v'.expect ∧ !s.unitCan co k v' then (.full (.unit (c.crewOf k).sp), s)
        else if v'.signed = v'.expect ∧ !s.roundCan co k v' then (.scales, s)
        else
          let s := s.modCohort co fun c => { c with convs := insert c.convs cv v' }
          (.done, (s.tally co k (16 + cv)).completeRound co cv)

/-- The signatures of an issue in ascending lane order, and what became of each thread. -/
def State.signAll (s : State) (co cv : Nat) (m : Option (Nat × MDesc × MFlags)) : List Nat → List (Nat × Signed) × State
  | [] => ([], s)
  | k :: ks =>
    let r := s.sign co cv m k
    let q := r.2.signAll co cv m ks
    ((k, r.1) :: q.1, q.2)

/-- The end of an issue of signatures. -/
def State.closeSigns (s : State) (x : Issue) (off : List Nat) (zs : List (Nat × Cause)) (rs : List (Nat × Signed)) (cv : Nat) :
    State :=
  let pick (p : Signed → Bool) : List Nat := (rs.filter fun r => p r.2).map Prod.fst
  let traps := rs.filterMap fun r => match r.2 with
    | .trap t => some (r.1, x.cause t 0)
    | _ => none
  let full := rs.filterMap fun r => match r.2 with
    | .full w => some (r.1, w)
    | _ => none
  let stall := s.stallDue x.co x.g
  let s := match full with
    | (_, w) :: _ => if stall then s else s.beginWait x w
    | [] => s
  let s := s.modThreads x.co (pick (· == .again)) fun _ t => { t with run := .convWait x.g cv }
  s.close x (off ++ pick (· == .done)) (zs ++ traps ++ if stall then full.map fun k => (k.1, x.cause .queueStall 0) else [])

/-- Threads of an issue that R167 stops, and the others. -/
def State.idempotents (s : State) (x : Issue) (ks : List Nat) : List Nat :=
  ks.filter fun k => ((s.thread? x.co k).map Thread.idempotent).getD false

/-- `msign` and `mma` (R175). -/
def signInstr (i : Instr) (p : Option Pfx) (cv : Nat) (md : Option Nat) (fl : MFlags) (s : State) :
    Host.Outcome State Fault Refusal :=
  s.run i (form6 p [] none false (decide (5 ≤ fl.scope))) open_ fun s x off ls zs =>
    match s.coh x with
    | none => s
    | some c =>
      let ks := ls.map Prod.fst
      let bad := if md.isSome then s.idempotents x ks else []
      let zs := zs ++ bad.map fun k => (k, x.cause .regionViolation 0)
      let ks := ks.filter fun k => !bad.contains k
      match md with
      | none =>
        let r := s.signAll x.co cv none ks
        r.2.closeSigns x off zs r.1 cv
      | some m =>
        match find? c.mds m with
        | none => s.trapKs x off ks zs .reservedField 0
        | some d =>
          let r := s.signAll x.co cv (some (m, d, fl)) ks
          r.2.closeSigns x off zs r.1 cv

/-- R175 `msign`. -/
def execMsign (p : Option Pfx) (cv : BitVec 3) (s : State) : Host.Outcome State Fault Refusal :=
  signInstr (.msign p cv) p cv.toNat none ⟨false, false, false, 0⟩ s

/-- R175 `mma`. -/
def execMma (p : Option Pfx) (md cv : BitVec 3) (evt acq rel : Bool) (scope : BitVec 3) (s : State) :
    Host.Outcome State Fault Refusal :=
  signInstr (.mma p md cv evt acq rel scope) p cv.toNat (some md.toNat) ⟨evt, acq, rel, scope.toNat⟩ s

/-- R177 `mma.elect`. -/
def execMmaElect (p : Option Pfx) (md : BitVec 3) (evt acq rel : Bool) (scope : BitVec 3) (s : State) :
    Host.Outcome State Fault Refusal :=
  s.run (.mmaElect p md evt acq rel scope) (form6 p [] none (!s.selCompat) (decide (5 ≤ scope.toNat))) open_
    fun s x off ls zs =>
      match s.coh x with
      | none => s
      | some c =>
        let ks := ls.map Prod.fst
        let bad := s.idempotents x ks
        let zs := zs ++ bad.map fun k => (k, x.cause .regionViolation 0)
        let ks := ks.filter fun k => !bad.contains k
        match ks, find? c.mds md.toNat with
        | [], _ => s.close x off zs
        | _, none => s.trapKs x off ks zs .reservedField 0
        | k :: _, some d =>
          if 4 ≤ (nth (s.cluster x.ci).mxu (c.crewOf k).sp []).length then s.pushWaits x (.unit (c.crewOf k).sp) ks zs
          else if !c.scalesFull (k / 32) d then s
          else (s.queueOp x.co k ks md.toNat 0 d ⟨evt, acq, rel, scope.toNat⟩).close x (off ++ ks) zs

/-- Lines of a row of an accumulator tile (R179). -/
def MDesc.lineCount (d : MDesc) : Nat := (8 * d.n + 127) / 128

/-- Virtual addresses of the lines of an accumulator tile, row by row (R179). -/
def MDesc.tileLines (d : MDesc) : List Nat :=
  (List.range d.m).flatMap fun i => (List.range d.lineCount).map fun h =>
    (d.caddr.toNat + i * d.cstride + 128 * h) % 2 ^ 64

/-- The physical addresses and page tags of an accumulator tile's lines (R142 steps 3 and 4); where `dev` holds, each must
be device memory (R179). -/
def State.tilePlaces (s : State) (dev : Bool) (ci ctx : Nat) : List Nat → Lane (List (Nat × Nat)) × State
  | [] => (.done [], s)
  | va :: vas =>
    match s.placeOf ci ctx va Need.nothing with
    | (.page l, s) => (.page va l Need.nothing, s)
    | (.trap t, s) => (.trap t va, s)
    | (.ok p, s) =>
      if dev && !s.isDevice p.pa then (.trap .accessFault va, s)
      else
        match s.tilePlaces dev ci ctx vas with
        | (.done ps, s) => (.done ((p.pa, p.world) :: ps), s)
        | r => r

/-- R179 `macc.init`. -/
def execMaccInit (p : Option Pfx) (d : Sel) (md : BitVec 3) (s : State) : Host.Outcome State Fault Refusal :=
  s.runLow (.maccInit p d md) (form6 p [] (some (statusDst d)) (!statusSel d) false) always fun s x off ks _ zs =>
    match (s.coh x).bind fun c => find? c.mds md.toNat with
    | none => s.trapKs x off ks zs .reservedField 0
    | some m =>
      match s.tilePlaces true x.ci x.ctx m.tileLines with
      | (.page va l need, s) => s.parkKs x ks va l need
      | (.trap t a, s) => s.trapKs x off ks zs t a
      | (.done ps, s) => s.finishStatus x (.maccInit (ps.map fun q => (q.1 / 128, q.2)) (accFmt m.afmt)) d off ks zs

/-- Shadow lines that a slice may hold (R179). -/
def sliceShadows : Nat := 4096

/-- The die and slice of a line. -/
def lineSlice (n : Nat) : Nat × Nat := (128 * n / dieBytes, sliceOf (128 * n))

/-- The home die and slice of a name (R268). -/
def homeOf (e : BitVec 128) (name : DWord) : Nat × Nat := (nrtHome e, sliceOf name.toNat)

/-- Tiles of a home slice. -/
def State.tilesAt (s : State) (h : Nat × Nat) : List Tile :=
  s.names.tiles.filter fun t => ((s.nrt? (nameTid t.name)).map fun e => homeOf e.2 t.name) == some h

/-- Bytes of some tiles. -/
def tileBytes (l : List Tile) : Nat := l.foldl (fun n t => n + t.bytes.length) 0

/-- Ways of a die that a world has (R306). -/
def State.waysOf (s : State) (d w : Nat) : Nat :=
  ((List.range 16).filter fun i => bits (s.die d).wayMap.toNat (4 * i) 4 == w).length

/-- Shadow lines and tiles of a slice that a world's ways there hold leave room for some bytes more (R307): a way of a slice
is 128 KiB. -/
def State.wayRoom (s : State) (h : Nat × Nat) (w n : Nat) : Bool :=
  let shadows := (s.shadows.filter fun p => lineSlice p.1 == h && p.2.world == w).length
  decide (128 * shadows + tileBytes ((s.tilesAt h).filter fun t => t.world == w) + n ≤ 2 ^ 17 * s.waysOf h.1 w)

/-- Lines enter accumulator state, or none does (R179, R307), and the status. -/
def State.maccInit (s : State) (ctx : Nat) (lines : List (Nat × Nat)) (fmt : Ety) : Nat × State :=
  let noWay := lines.any fun l => (l.2 != 0 && !s.hasWay (128 * l.1 / dieBytes) l.2)
    || s.sliceFailed (128 * l.1 / dieBytes) (sliceOf (128 * l.1))
  let new := (lines.map Prod.fst).eraseDups.filter fun n => (find? s.shadows n).isNone
  let fresh := lines.eraseDups.filter fun l => ((find? s.shadows l.1).map Shadow.world) != some l.2
  let full := (new.any fun n =>
      decide (sliceShadows < (new.filter fun m => lineSlice m == lineSlice n).length
        + (s.shadows.filter fun p => lineSlice p.1 == lineSlice n).length))
    || fresh.any fun l =>
      !s.wayRoom (lineSlice l.1) l.2 (128 * (fresh.filter fun m => lineSlice m.1 == lineSlice l.1 && m.2 == l.2).length)
  if noWay || full then (Status.busy.code, s)
  else
    (Status.ok.code, lines.foldl (fun s l =>
      { s with shadows := insert s.shadows l.1 ⟨ctx, l.2, fmt, List.replicate 16 0, false⟩ }) s)

/-- Formats of `macc.flush` (R168). -/
def isFlush (t : Ety) : Bool := t == .f16 || t == .bf16 || t == .f32 || t == .f64 || t == .a48

/-- Bytes of an element that a flush writes (R49, R180). -/
def flushSize (t : Ety) : Nat := if t == .a48 then 8 else t.width / 8

/-- The destinations of a flush, each checked as a store (R142, R180): a line that a partial write would be
refused raises the same trap. -/
def State.flushPlaces (s : State) (ci ctx size : Nat) : List Nat → Lane (List (Nat × Nat)) × State
  | [] => (.done [], s)
  | va :: vas =>
    match s.placeOf ci ctx va Need.write with
    | (.page l, s) => (.page va l Need.write, s)
    | (.trap t, s) => (.trap t va, s)
    | (.ok p, s) =>
      match s.checkLine p.world (p.pa / 128) with
      | (.fails .integrityFault, s) => (.trap .integrityFault va, s)
      | (_, s) =>
        match s.flushPlaces ci ctx size vas with
        | (.done ps, s) => (.done ((p.pa, p.world) :: ps), s)
        | r => r

/-- The operand rules of `macc.flush` (R168, R180). -/
def maccFlushForm (p : Option Pfx) (d a : Sel) (scope : BitVec 3) : Form where
  p := p
  acc := ⟨true, true, false, true, true⟩
  ty := fty p .f32
  srcs := [⟨a, true, 64, polA p, none⟩]
  dst := some (statusDst d)
  ill := !sel64 a || !statusSel d || ((fty p .f32).map fun t => !isFlush t).getD false
  res := decide (5 ≤ scope.toNat)

/-- R180 `macc.flush`. A line of the tile that is not device memory cannot be in accumulator state. -/
def execMaccFlush (p : Option Pfx) (d a : Sel) (md : BitVec 3) (keep evt : Bool) (scope : BitVec 3) (s : State) :
    Host.Outcome State Fault Refusal :=
  let t := elemTy p .f32
  let f := maccFlushForm p d a scope
  s.runLow (.maccFlush p d a md keep evt scope) f always fun s x off ks vs zs =>
    let bad := s.idempotents x ks
    let zs := zs ++ bad.map fun k => (k, x.cause .regionViolation 0)
    let ks := ks.filter fun k => !bad.contains k
    match ks, s.coh x with
    | [], _ => s.close x off zs
    | _, none => s
    | k :: _, some c =>
      let size := flushSize t
      match find? c.mds md.toNat, c.thread? k with
      | some m, some th =>
        if m.fstride % size ≠ 0 ∨ m.fstride < m.n * size then s.trapKs x off ks zs .reservedField 0
        else if arg vs 0 % size ≠ 0 then s.trapKs x off ks zs .alignFault (arg vs 0)
        else
          let dsts := (List.range m.m).flatMap fun i => (List.range m.n).map fun j =>
            (arg vs 0 + i * m.fstride + j * size) % 2 ^ 64
          match s.flushPlaces x.ci x.ctx size dsts with
          | (.page va l need, s) => s.parkKs x ks va l need
          | (.trap z a, s) => s.trapKs x off ks zs z a
          | (.done ds, s) =>
            match s.tilePlaces false x.ci x.ctx m.tileLines with
            | (.page va l need, s) => s.parkKs x ks va l need
            | (.trap z a, s) => s.trapKs x off ks zs z a
            | (.done ps, s) =>
              let op : FlushOp := {
                md := md.toNat, desc := m, keep := keep, evt := evt, ety := t, rnd := roundOf p th, sat := satOf p
                lines := ps.map Prod.fst, dests := ds }
              s.finishStatus x (.flush op) d off ks zs
      | _, _ => s.trapKs x off ks zs .reservedField 0

/-- The head operation of a sub-partition's unit. -/
def Cluster.mxuHead (c : Cluster) (sp : Nat) : Option MatOp := (nth c.mxu sp []).head?

/-- MROW of a sub-partition (R178). -/
def Cluster.mrow (c : Cluster) (sp : Nat) : Nat :=
  match c.mxuHead sp with
  | none => 0
  | some o => o.parked.isSome.toNat * 2 ^ 31 + o.md % 8 * 2 ^ 28 + min (nth c.mxu sp []).length 4 * 2 ^ 25 + o.krow

/-- R181 `mrow`. -/
def execMrow (p : Option Pfx) (d : Sel) (s : State) : Host.Outcome State Fault Refusal :=
  s.run (.mrow p d) (form6 p [] (some (statusDst d)) (!statusSel d) false) open_ fun s x off ls zs =>
    let v (k : Nat) : Nat := ((s.coh x).map fun c => (s.cluster x.ci).mrow (c.crewOf k).sp).getD 0
    s.finish x (form6 p [] (some (statusDst d)) false false) off zs (ls.map fun l => (l.1, .done ⟨v l.1, 0, none⟩))

/-- Every operation that a cohort queued on its cluster with a descriptor has completed (R181). -/
def State.opsDone (s : State) (co ci md : Nat) : Bool :=
  (s.cluster ci).mxu.all fun q => q.all fun o => o.cohort != co || o.md != md

/-- Destinations of `mrow.wait` whose operations have completed become full (R181). -/
def State.fillMrow (s : State) (ci : Nat) : State :=
  s.cohorts.foldl (fun s p =>
    if p.2.ci ≠ ci ∨ p.2.phase = .saved then s
    else p.2.pends.foldl (fun s q => match q.2.kind with
      | .mrow md sp => if s.opsDone p.1 ci md then s.fillStatus p.1 q.1 ((s.cluster ci).mrow sp) else s
      | _ => s) s) s

/-- R181 `mrow.wait`. -/
def execMrowWait (p : Option Pfx) (d : Sel) (md : BitVec 3) (s : State) : Host.Outcome State Fault Refusal :=
  s.runLow (.mrowWait p d md) (form6 p [] (some (statusDst d)) (!statusSel d) false) always fun s x off ks _ zs =>
    let sp := ((s.coh x).map fun c => (c.crewOf (ks.head?.getD 0)).sp).getD 0
    (s.finishStatus x (.mrow md.toNat sp) d off ks zs).fillMrow x.ci

/-- The head operation of a unit changed. -/
def State.modHead (s : State) (ci sp : Nat) (f : MatOp → MatOp) : State :=
  let g (q : List MatOp) : List MatOp := match q with
    | [] => []
    | o :: os => f o :: os
  s.modCluster ci fun c => { c with mxu := c.mxu.modify sp g }

/-- An operation is abandoned (R178): no further partial is sent. -/
def MatOp.abandon (t : Trap) (addr : Nat) (o : MatOp) : MatOp :=
  { o with result := o.result.or (some (Status.partialDone.code, t.code, addr)), parked := none }

/-- A failing access of the head operation: it parks on a PAGE_FAULT and is abandoned on any other. -/
def State.opStop {α : Type} (s : State) (ci sp : Nat) (o : MatOp) (r : Lane α) : State :=
  match r with
  | .done _ => s
  | .trap t a => s.modHead ci sp (MatOp.abandon t a)
  | .page va l _ =>
    let q := s.pageFault o.ctx va Need.read .matrix l (dieOf ci)
    if q.1 then q.2.modHead ci sp fun o => { o with parked := some (va / 2 ^ 12) } else q.2

/-- Bytes that a matrix unit loads, piece by piece (R178); stores of `es` may come after the read (R170). -/
def State.opRead (s : State) (ci ctx : Nat) (es : List Stale) : List (Nat × Nat) → Lane (List Byte) × State
  | [] => (.done [], s)
  | p :: ps =>
    let va := p.1 % 2 ^ 64
    match s.placeOf ci ctx va Need.read with
    | (.page l, s) => (.page va l Need.read, s)
    | (.trap t, s) => (.trap t va, s)
    | (.ok q, s) =>
      match ((s.countRdc (dieOf ci) q.pa q.world q.attr 0).recall ci (q.pa / 128)).readPhys q.world q.pa p.2 with
      | (.error t, s) => (.trap t va, s)
      | (.ok bs, s) =>
        let r := s.olderBytes es false q.pa bs
        match r.2.opRead ci ctx es ps with
        | (.done cs, s) => (.done (r.1 ++ cs), s)
        | r => r

/-- Element `k` of a row, from the bytes that begin with its first one (R55). -/
def elemBits (t : Ety) (k : Nat) (bs : List Byte) : Nat := bits (ofBytes bs) (k * t.width % 8) t.width

/-- Column `k` of A: one element of each row (R178). -/
def State.loadColumn (s : State) (ci : Nat) (o : MatOp) : List Nat → Lane (List Nat) × State
  | [] => (.done [], s)
  | i :: is =>
    let t := o.desc.elem
    let b := o.krow * t.width
    let va := o.desc.aaddr.toNat + i * o.desc.astride + b / 8
    match s.opRead ci o.ctx o.stale (cutSpan va ((b % 8 + t.width + 7) / 8)) with
    | (.done bs, s) =>
      match s.loadColumn ci o is with
      | (.done es, s) => (.done (elemBits t o.krow bs :: es), s)
      | r => r
    | (.trap z a, s) => (.trap z a, s)
    | (.page a l n, s) => (.page a l n, s)

/-- Row `k` of B (R178). -/
def State.loadRow (s : State) (ci : Nat) (o : MatOp) : Lane (List Nat) × State :=
  let t := o.desc.elem
  match s.opRead ci o.ctx o.stale (cutSpan (o.desc.baddr.toNat + o.krow * o.desc.bstride) (rowBytes t o.desc.n)) with
  | (.done bs, s) => (.done ((List.range o.desc.n).map fun j => bits (ofBytes bs) (j * t.width) t.width), s)
  | (.trap z a, s) => (.trap z a, s)
  | (.page a l n, s) => (.page a l n, s)

/-- The greatest of the exponents `Floor(Log2(p))` of some nonzero products (R67). -/
def topExp (ps : List FVal) : Int :=
  ps.foldl (fun m p => match p with
    | .num _ n _ e => max m (Nat.log2 n + e)
    | _ => m) (-100000)

/-- A product truncated toward zero to a multiple of `2 ^ q`, in units of it (R67). -/
def truncProd (q : Int) (p : FVal) : Int :=
  match p with
  | .num neg n _ e => signedMag neg (if q ≤ e then n * 2 ^ (e - q).toNat else n / 2 ^ (q - e).toNat)
  | _ => 0

/-- The block sum of some products (R67), before scaling, and whether a scale applies. -/
def blockSum (g : Nat) (ps : List FVal) : FVal × Bool :=
  let hasInf (neg : Bool) : Bool := ps.contains (.inf neg)
  let nz := ps.filter fun p => !p.isZero
  if ps.any FVal.isNan || (hasInf true && hasInf false) then (.nan false, false)
  else if hasInf true then (.inf true, false)
  else if hasInf false then (.inf false, false)
  else if nz.isEmpty then (.num false 0 1 0, false)
  else
    let q := topExp nz - g
    let sum : Int := (nz.map (truncProd q)).foldl (· + ·) 0
    (.num (decide (sum < 0)) sum.natAbs 1 q, true)

/-- A scale byte (R57): byte `(bsel + t) mod 4` of lane `l` of the register `(bsel + t) div 4` after the first. -/
def scaleByte (regs : List Lanes) (bsel t l : Nat) : Nat :=
  bits (nth (nth regs ((bsel + t) / 4) []) (l % 32) 0).toNat (8 * ((bsel + t) % 4)) 8

/-- A block sum scaled by two scale bytes (R67). -/
def scaleSum (sa sb : Nat) (b : FVal × Bool) : FVal :=
  if sa = 0xFF ∨ sb = 0xFF then .nan false
  else
    match b with
    | (.num neg n d e, true) => if n = 0 then .num false 0 1 0 else .num neg n d (e + sa + sb - 254)
    | (v, _) => v

/-- The scaled block sum of element (i, j) for the rows loaded, which are block `t` (R67). -/
def MatOp.sumAt (o : MatOp) (t i j : Nat) : FVal :=
  let e := o.desc.elem
  let ps := (o.rowsA.zip o.rowsB).map fun r => (mulVal (e.val (nth r.1 i 0)) (e.val (nth r.2 j 0))).1
  let b := blockSum (if o.desc.efmt = 4 then 116 else 40) ps
  if e.isT then scaleSum (scaleByte o.scA o.desc.bsela t i) (scaleByte o.scB o.desc.bselb t j) b else b.1

/-- A magnitude of 2^127 or more (R69). -/
def isLarge (v : FVal) : Bool :=
  match v with
  | .nan _ => false
  | .inf _ => true
  | .num _ n _ e => n != 0 && decide (127 ≤ (Nat.log2 n : Int) + e)

/-- One block sum enters an engine accumulator (R68, R69): the accumulator, what is sent in order, and
whether it was an early promotion. -/
def accumulate (eng af : Ety) (acc : Nat) (bs : FVal) (point : Bool) : Nat × List Nat × Bool :=
  let send (v : FVal) : Nat := (af.roundVal .rne v).1
  let sendAcc (a : Nat) : List Nat := if (eng.val a).isZero then [] else [send (eng.val a)]
  let b := (eng.roundVal .rne bs).1
  let sum := (eng.roundVal .rne (addVal .rne (eng.val acc) (eng.val b)).1).1
  let huge := match eng.val sum with
    | .inf _ => true
    | _ => false
  if eng == .f32 && isLarge bs then (0, sendAcc acc ++ [send bs], true)
  else if eng == .f32 && huge then (0, sendAcc acc ++ [send (eng.val b)], true)
  else if point then (0, sendAcc sum, false)
  else (sum, [], false)

/-- The promotion interval (R68). -/
def MDesc.interval (d : MDesc) : Nat :=
  if d.promo ≠ 0 then d.promo
  else match d.efmt with
    | 4 => 64 | 5 => 512 | 6 => 1024
    | _ => 256

/-- A partial on its way (R68). -/
def State.send (s : State) (p : Partial) : State :=
  let id := s.newId
  { id.2 with partials := insert id.2.partials id.1 p }

/-- A block is complete (R67 to R69): each element's sum enters its accumulator, and promotions are sent. -/
def State.endBlock (s : State) (ci sp : Nat) (o : MatOp) : State :=
  let d := o.desc
  let eng : Ety := if d.efmt = 4 then .f64 else .f32
  let af := accFmt d.afmt
  let point := o.krow % d.interval == 0 || o.krow == d.k
  let t := o.krow / d.block - 1
  let rs := (List.range d.m).flatMap fun i => (List.range d.n).map fun j =>
    (i, j, accumulate eng af (nth o.acc (i * d.n + j) 0) (o.sumAt t i j) point)
  let s := rs.foldl (fun s r =>
    let i := r.1
    let j := r.2.1
    let pa := nth o.lines (i * d.lineCount + 8 * j / 128) 0 + 8 * j % 128
    let va := (d.caddr.toNat + i * d.cstride + 8 * j) % 2 ^ 64
    r.2.2.2.1.foldl (fun s v => s.send ⟨ci, sp, o.serial, va, pa, af, BitVec.ofNat 64 v⟩) s) s
  let s := s.bump .cluEarlyPromo ci (rs.filter fun r => r.2.2.2.2).length
  s.modHead ci sp fun o => { o with rowsA := [], rowsB := [], acc := rs.map fun r => r.2.2.1 }

/-- The unit starts its head operation: the accumulator tile's addresses (R178). -/
def State.opStart (s : State) (ci sp : Nat) (o : MatOp) : State :=
  match s.tilePlaces true ci o.ctx o.desc.tileLines with
  | (.done ps, s) => s.modHead ci sp fun o =>
      { o with started := true, lines := ps.map Prod.fst, acc := List.replicate (o.desc.m * o.desc.n) 0 }
  | (r, s) => s.opStop ci sp o r

/-- The unit loads one K row of its head operation (R178). -/
def State.opLoad (s : State) (ci sp : Nat) (o : MatOp) : State :=
  match s.loadColumn ci o (List.range o.desc.m) with
  | (.done as, s) =>
    match s.loadRow ci o with
    | (.done bs, s) =>
      let o := { o with krow := o.krow + 1, rowsA := o.rowsA ++ [as], rowsB := o.rowsB ++ [bs] }
      let s := s.modHead ci sp fun _ => o
      if o.krow % o.desc.block = 0 then s.endBlock ci sp o else s
    | (r, s) => s.opStop ci sp o r
  | (r, s) => s.opStop ci sp o r

/-- R178: a matrix unit starts its head operation, and loads its K rows one at each step. -/
def execMatrixOperation (ci sp : Nat) (s : State) : Host.Outcome State Fault Refusal :=
  .next (match (s.cluster ci).mxuHead sp with
    | none => s
    | some o =>
      if o.result.isSome ∨ o.parked.isSome ∨ o.desc.k ≤ o.krow then s
      else if !o.started then s.opStart ci sp o
      else s.opLoad ci sp o)

/-- The operation with an identity changed, on whichever unit holds it. -/
def State.modOp (s : State) (ci sp serial : Nat) (f : MatOp → MatOp) : State :=
  let g (q : List MatOp) : List MatOp := q.map fun o => if o.serial = serial then f o else o
  s.modCluster ci fun c => { c with mxu := c.mxu.modify sp g }

/-- R71, R178: an arriving partial is added at its slice, or abandons its operation. -/
def execSlicePartialAdd (id : Nat) (s : State) : Host.Outcome State Fault Refusal :=
  .next (match find? s.partials id with
    | none => s
    | some p =>
      let s := { s with partials := erase s.partials id }
      let n := p.pa / 128
      match find? s.shadows n with
      | none => s.modOp p.ci p.sp p.op (MatOp.abandon .accessFault p.va)
      | some sh =>
        if sh.fmt ≠ p.fmt then s.modOp p.ci p.sp p.op (MatOp.abandon .reservedField p.va)
        else
          let j := p.pa % 128 / 8
          let v := (sh.fmt.roundVal .rne
            (addVal .rne (sh.fmt.val (nth sh.elems j 0).toNat) (sh.fmt.val p.value.toNat)).1).1
          { s with shadows := insert s.shadows n { sh with elems := setNth sh.elems j (BitVec.ofNat 64 v) } })

/-- R173, R178: the head operation's last partial has been added: its record is posted, and the unit's next
operation is its head. -/
def execMatrixOperationComplete (ci sp : Nat) (s : State) : Host.Outcome State Fault Refusal :=
  .next (match (s.cluster ci).mxuHead sp with
    | none => s
    | some o =>
      if (o.result.isNone ∧ (o.krow < o.desc.k ∨ !o.started)) ∨ s.partials.any fun p => p.2.op == o.serial then s
      else
        let s := s.modCluster ci fun c => { c with mxu := c.mxu.modify sp List.tail }
        let z := o.result.getD (Status.ok.code, 0, 0)
        let r : CRec := {
          tag := o.md + 8 * o.cv, fault := z.2.1, source := 3, opc := 0, status := z.1, progress := o.krow
          addr := z.2.2, failed := [] }
        let s := if o.flags.evt then s.postEvent ci r else s
        ((keys (filterMap s.cohorts fun _ c => c.ci == ci)).foldl (fun s co => s.completeRounds co) s).fillMrow ci)

/-- One element that a flush has converted: its bits and its status bits (R180). -/
def flushElement (fmt t : Ety) (rnd : Rnd) (sat : Bool) (x : Nat) : Nat × Nat :=
  let v := fmt.val x
  let r := t.result rnd false sat v 0
  let fin := match v with
    | .num .. => true
    | _ => false
  let inf := match v with
    | .inf _ => true
    | _ => false
  (r.1, v.isNan.toNat * 2 ^ 8 + inf.toNat * 2 ^ 9 + (fin && r.2 &&& flOF != 0).toNat * 2 ^ 10
    + (r.2 &&& flNX != 0).toNat * 2 ^ 11)

/-- One element of a flush is written; a poisoned shadow line has the line that receives it written in full, and poisons it
(R357). -/
def State.flushWrite (s : State) (ci size : Nat) (sick : Bool) (d : Nat × Nat) (v : Nat) : State :=
  let n := d.1 / 128
  let s := s.recall ci n
  let s := if sick then (s.writePhys d.2 (128 * n) (s.mem.getBytes (128 * n) 128)).2 else s
  let s := ((s.writePhys d.2 d.1 (toBytes v size)).2).ncStore ci d.1 (toBytes v size)
  if sick then s.setLine n { s.line n with poison := true } else s

/-- The physical address of the accumulator line of each element of a flush, row by row. -/
def FlushOp.sources (f : FlushOp) : List Nat :=
  let d := f.desc
  (List.range d.m).flatMap fun i => (List.range d.n).map fun j => nth f.lines (i * d.lineCount + 8 * j / 128) 0

/-- The lines that a flush writes in part, which are checked (R367): none may be refused. A line that an element of a
poisoned one comes to is written in full (R357). -/
def State.flushOpen (s : State) (f : FlushOp) : Bool × State :=
  let sick (pa : Nat) : Bool := ((find? s.shadows (pa / 128)).map Shadow.poison).getD false
  let full := ((f.sources.zip f.dests).filter fun p => sick p.1).map fun p => p.2.1 / 128
  (((f.dests.map fun d => (d.1 / 128, d.2)).eraseDups).filter fun l => !full.contains l.1).foldl (fun r l =>
    match r.2.checkLine l.2 l.1 with
    | (.fails .integrityFault, s) => (false, s)
    | (_, s) => (r.1, s)) (true, s)

/-- A flush reads each element of its tile once and writes it (R180): the status word. -/
def State.flushTile (s : State) (ci : Nat) (f : FlushOp) : Nat × State :=
  let d := f.desc
  let size := flushSize f.ety
  if f.lines.any fun pa => (find? s.shadows (pa / 128)).isNone then (Status.refused.code, s)
  else
    let es := f.sources.mapIdx fun e pa =>
      match find? s.shadows (pa / 128) with
      | none => (0, 0, false)
      | some sh =>
        let r := flushElement sh.fmt f.ety f.rnd f.sat (nth sh.elems (8 * (e % d.n) % 128 / 8) 0).toNat
        (r.1, r.2, sh.poison)
    let s := (es.zip f.dests).foldl (fun s e => s.flushWrite ci size e.1.2.2 e.2 e.1.1) s
    let s := if f.keep then s else
      { s with shadows := filterMap s.shadows fun n _ => !(f.lines.any fun pa => pa / 128 == n) }
    (es.foldl (fun n e => n ||| e.2.1) 0, s)

/-- The threads that wait for the results of an issue. -/
def Cohort.threadsOf (c : Cohort) (issue : Nat) : List Nat :=
  (c.pends.filter fun p => p.2.issue == issue).flatMap fun p => p.2.lanes.map Prod.fst

/-- Threads take a trap when they next issue. -/
def State.setDue (s : State) (co : Nat) (ks : List Nat) (t : Trap) : State :=
  s.modThreads co ks fun _ u => { u with due := some (u.due.getD t.code) }

/-- R180: a flush is performed, and its status destination and record follow. Where a line has come to refuse the write
since the flush issued, nothing is written, and its threads take INTEGRITY_FAULT (R367; log entry 73). -/
def execFlushComplete (co id : Nat) (s : State) : Host.Outcome State Fault Refusal :=
  .next (match find? s.cohorts co with
    | none => s
    | some c =>
      match find? c.pends id with
      | none => s
      | some p =>
        match p.kind with
        | .flush f =>
          let w := s.flushOpen f
          let r := if w.1 then w.2.flushTile c.ci f else (Status.refused.code, w.2.setDue co (c.threadsOf p.issue) .integrityFault)
          let s := r.2.fillStatus co id r.1
          if f.evt then
            s.postEvent c.ci {
              tag := f.md, fault := 0, source := 4, opc := 0, status := r.1 % 2 ^ 8
              progress := if r.1 % 2 ^ 8 = 0 then f.desc.m * f.desc.n else 0, addr := 0, failed := [] }
          else s
        | _ => s)

end Sys2Proof.Machine
end

