-- ==== Sys2Proof/Machine/Tiles.lean ====
section
/-!
DEFINITION. Named tiles, group 6: requests, offers, closing, and landing buffers (R183 to R186, R268 to
R273, R368).
-/

namespace Sys2Proof.Machine

/-- A 32-bit operand that form I may give as `ext` (R187). DESIGN CHOICE (log entry 28): where A of a form I is another
selector than 125, it is read as an ordinary 32-bit operand. -/
def sel32I (a : Sel) : Bool := sel32 a || a == 125

/-- A 32-bit source that `ext` may supply. -/
def srcImm (pol : Bool) (v : Nat) (a : Sel) : Src := ⟨a, false, 32, pol, some v⟩

/-- The 32 words of a request entry (R183). -/
def tileEntry (st : Status) (code : Nat) (name : DWord) (off bytes : Nat) : Lanes :=
  [BitVec.ofNat 32 (code * 2 ^ 8 + st.code), BitVec.ofNat 32 name.toNat, BitVec.ofNat 32 (name.toNat / 2 ^ 32),
    BitVec.ofNat 32 off, BitVec.ofNat 32 bytes] ++ List.replicate 27 0

/-- An entry joins the request binding it belongs to, where that is still the same one (R156). -/
def State.pushTileEntry (s : State) (co role q serial : Nat) (e : Lanes) : State :=
  s.modCohort co fun c => { c with queues := modify c.queues (8 * role + q) fun b =>
    if b.serial = serial then { b with entries := b.entries ++ [(0, some e)] } else b }

/-- A request completes (R183). -/
def State.endWant (s : State) (id : Nat) (st : Status) (code : Nat) : State :=
  match find? s.names.wants id with
  | none => s
  | some w =>
    ({ s with names := { s.names with wants := erase s.names.wants id } }).pushTileEntry w.cohort w.role w.q w.serial
      (tileEntry st code w.name w.off w.bytes)

/-- The scratchpad checks of a request (R183, R368). -/
def wantCheck (c : Cohort) (bytes off : Nat) : Option Trap :=
  if off % 128 ≠ 0 then some .alignFault
  else if c.spadBytes < off + max bytes 1 then some .accessFault
  else none

/-- R183, R368 `nwant`. -/
def execNwant (p : Option Pfx) (d a b : Sel) (s : State) : Host.Outcome State Fault Refusal :=
  let q := d.toNat - 112
  s.runLow (.nwant p d a b)
    (form6 p [srcOf .b64 (polA p) none a, srcWord (polB p) b] none (!isQueue d || !sel64 a || !sel32 b) false)
    (fun _ _ c act =>
      if oneRole c act && ((c.qbind? (roleOf c act) q).map fun b => b.kind == 7).getD false then .go else .trap .accessFault)
    fun s x off ks vs zs =>
      match find? s.cohorts x.co with
      | none => s
      | some c =>
        let role := roleOf c ks
        match c.qbind? role q, (ks.head?.bind c.thread?) with
        | some bd, some t =>
          let name := BitVec.ofNat 64 (arg vs 0)
          let at_ := arg vs 1 % 2 ^ 32
          let e? := (s.nrt? (nameTid name)).map Prod.snd
          let bytes := (e?.map nrtBytes).getD 0
          match wantCheck c bytes at_ with
          | some z => s.trapKs x off ks zs z at_
          | none =>
            if 16 ≤ s.wantsOut x.co role q bd.serial then s.pushWaits x (.request role q) ks zs
            else
              let refused (s : State) : State :=
                (s.pushTileEntry x.co role q bd.serial (tileEntry .refused 0 name at_ bytes)).close x (off ++ ks) zs
              match e? with
              | none => refused s
              | some e =>
                if nrtWorld e ≠ c.world then refused s
                else
                  let life := if t.nlife = 0 then nrtLife e else t.nlife.toNat
                  let id := s.newId
                  let w : Want := {
                    cohort := x.co, ci := x.ci, role := role, q := q, serial := bd.serial, name := name, off := at_
                    bytes := bytes, deadline := s.timer + life, state := .issued }
                  ({ id.2 with names := { id.2.names with wants := insert id.2.names.wants id.1 w } }).close x (off ++ ks) zs
        | _, _ => s

/-- The clusters that some groups and clusters of an interest stand for: those of the merge entries, and the others
(R271). -/
def State.reach (s : State) (name : DWord) (groups direct : List Nat) : List Nat :=
  (direct ++ (s.names.merges.filter fun m => m.name == name && groups.contains m.group).flatMap Merge.clusters).eraseDups

/-- The merge entries of some groups for a name are removed. -/
def State.unmerge (s : State) (name : DWord) (groups : List Nat) : State :=
  { s with names := { s.names with merges := s.names.merges.filter fun m => !(m.name == name && groups.contains m.group) } }

/-- Every request merged into an interest of some groups and clusters completes (R185, R272); `own` is the request that
brought the interest, where it is not recorded yet. -/
def State.endInterest (s : State) (name : DWord) (groups direct : List Nat) (own : Option Nat) (st : Status) (code : Nat) :
    State :=
  let cs := s.reach name groups direct
  let ids := keys (filterMap s.names.wants fun id w =>
    w.name == name && cs.contains w.ci && (w.state == .recorded || own == some id))
  (ids.foldl (fun s id => s.endWant id st code) (s.unmerge name groups)).sweepTiles

/-- The interest of a name leaves its home slice's table. -/
def State.dropInterest (s : State) (name : DWord) : State :=
  { s with names := { s.names with interests := erase s.names.interests name.toNat } }

/-- An interest whose deadline has come completes EXPIRED (R272). -/
def State.expire (s : State) (name : DWord) : State :=
  match find? s.names.interests name.toNat with
  | none => s
  | some i =>
    if s.timer < i.deadline then s else (s.dropInterest name).endInterest name i.groups i.direct none .expired 0x1A

/-- An interest that its deadline has passed has been decided (R272): what comes later finds it gone. -/
def State.expirePast (s : State) (name : DWord) : State :=
  match find? s.names.interests name.toNat with
  | none => s
  | some i => if i.deadline < s.timer then s.expire name else s

/-- A tile leaves its home slice for some groups and clusters (R271). -/
def State.sendTile (s : State) (t : Tile) (groups direct : List Nat) : State :=
  let id := s.newId
  { id.2 with names := { id.2.names with
      returns := insert id.2.names.returns id.1 ⟨t.name, t.bytes, t.poison, groups, s.reach t.name groups direct⟩ } }

/-- Interests recorded at a home slice. -/
def State.tableUsed (s : State) (h : Nat × Nat) : Nat :=
  (s.names.interests.filter fun p =>
    ((s.nrt? (nameTid (BitVec.ofNat 64 p.1))).map fun e => homeOf e.2 (BitVec.ofNat 64 p.1)) == some h).length

/-- A request changed. -/
def State.modWant (s : State) (id : Nat) (f : Want → Want) : State :=
  { s with names := { s.names with wants := modify s.names.wants id f } }

/-- The vectors of a request's interest: its group, where the group's merge table has the entry, or its cluster. -/
def Want.vectors (w : Want) (merged : Bool) : List Nat × List Nat := if merged then ([groupOf w.ci], []) else ([], [w.ci])

/-- An interest reaches its home slice (R270 steps 3 and 4); it waits while the slice is in retention (R261, R273). -/
def State.reachHome (s : State) (id : Nat) (w : Want) (merged : Bool) : State :=
  let v := w.vectors merged
  match s.nrt? (nameTid w.name) with
  | none => s.endInterest w.name v.1 v.2 (some id) .refused 0
  | some (_, e) =>
    let h := homeOf e w.name
    if s.sliceAsleep h then
      (s.modWant id fun w => { w with state := .waiting merged (w.state == .waiting merged true) }).wakeSlice h w.ci
    else
    match s.names.tiles.find? (fun t => t.name == w.name) with
    | some t => (s.modWant id fun w => { w with state := .recorded }).sendTile t v.1 v.2
    | none =>
      let due := s.names.merges.foldl (fun n m =>
        if merged ∧ m.name = w.name ∧ m.group = groupOf w.ci then max n m.deadline else n) w.deadline
      if nrtShut e (nameIter w.name) then s.endInterest w.name v.1 v.2 (some id) .refused 0x19
      else if due < s.timer then s.endInterest w.name v.1 v.2 (some id) .expired 0x1A
      else
        match find? s.names.interests w.name.toNat with
        | some i =>
          let i' : Interest := ⟨max i.deadline due, (i.groups ++ v.1).eraseDups, (i.direct ++ v.2).eraseDups⟩
          let s := s.modWant id fun w => { w with state := .recorded }
          { s with names := { s.names with interests := insert s.names.interests w.name.toNat i' } }
        | none =>
          if 1024 ≤ s.tableUsed h then
            if w.state = .waiting merged true then s
            else (s.modWant id fun w => { w with state := .waiting merged true }).bump .nrtTabWait (nrtHome e) 1
          else
            let s := s.modWant id fun w => { w with state := .recorded }
            { s with names := { s.names with interests := insert s.names.interests w.name.toNat ⟨due, v.1, v.2⟩ } }

/-- A merged request's later deadline is forwarded as a refresh (R270 step 2). -/
def State.refresh (s : State) (name : DWord) (due : Nat) : State :=
  { s with names := { s.names with
      interests := modify s.names.interests name.toNat fun i => { i with deadline := max i.deadline due } } }

/-- R270: an interest reaches its local crossbar, where it merges or goes on to the home slice; one that
waits there tries again. -/
def execInterestRecord (id : Nat) (s : State) : Host.Outcome State Fault Refusal :=
  .next (match find? s.names.wants id with
    | none => s
    | some w =>
      let s := s.expirePast w.name
      let g := groupOf w.ci
      match w.state with
      | .recorded => s
      | .waiting merged _ => s.reachHome id w merged
      | .issued =>
        match s.names.merges.find? (fun m => m.group == g && m.name == w.name) with
        | some m =>
          let m' : Merge := ⟨g, w.name, max m.deadline w.deadline, (m.clusters ++ [w.ci]).eraseDups⟩
          let s := (s.modWant id fun w => { w with state := .recorded }).bump .nrtMerged (dieOf w.ci) 1
          ({ s with names := { s.names with
              merges := s.names.merges.map fun (n : Merge) => if n.group == g && n.name == w.name then m' else n } }).refresh
            w.name w.deadline
        | none =>
          let full := 64 ≤ (s.names.merges.filter fun m => m.group == g).length
          let s : State :=
            if full then s.bump .nrtUnmerged (dieOf w.ci) 1
            else { s with names := { s.names with merges := s.names.merges ++ [⟨g, w.name, w.deadline, [w.ci]⟩] } }
          s.reachHome id w (!full))

/-- A tile is written for one request, poisoned lines with their mark (R183, R357), and its entry pushed. One that comes
for a yielding cohort is dropped and counted (R292); should that cohort go on after all, its request is made again (log
entry 74). -/
def State.landTile (s : State) (id : Nat) (r : Return) : State :=
  match find? s.names.wants id with
  | none => s
  | some w =>
    if ((find? s.cohorts w.cohort).map fun c => c.yielding.isSome).getD false then
      (s.modWant id fun w => { w with state := .issued }).bump .cluStray w.ci 1
    else
      let s := s.spadPut w.cohort w.off (r.bytes.take w.bytes)
      let s := r.poison.foldl (fun s i => s.spadPoison w.cohort (w.off + 128 * i)) s
      s.endWant id .ok 0

/-- R271: a returned tile reaches its clusters: every request they hold for it is served; a cluster without
one counts a stray. -/
def execTileReturn (id : Nat) (s : State) : Host.Outcome State Fault Refusal :=
  .next (match find? s.names.returns id with
    | none => s
    | some r =>
      let cs := s.reach r.name r.groups r.direct
      let s := ({ s with names := { s.names with returns := erase s.names.returns id } }).unmerge r.name r.groups
      State.sweepTiles (cs.foldl (fun s ci =>
        let ids := keys (filterMap s.names.wants fun _ w => w.name == r.name && w.ci == ci)
        if ids.isEmpty then s.bump .cluStray ci 1 else ids.foldl (fun s id => s.landTile id r) s) s))

/-- R272: an interest's deadline falls. -/
def execInterestDeadline (name : DWord) (s : State) : Host.Outcome State Fault Refusal := .next (s.expire name)

/-- The lines of an offer's source (R184): translated and read under the checks of R142; poison is taken
with the tile (R357). -/
def State.offerLines (s : State) (x : Issue) (va : Nat) : Nat → Lane (List (Nat × Nat)) × State
  | 0 => (.done [], s)
  | n + 1 =>
    match s.placeOf x.ci x.ctx va Need.read with
    | (.page l, s) => (.page va l Need.read, s)
    | (.trap t, s) => (.trap t va, s)
    | (.ok p, s) =>
      match ((s.countRdc (dieOf x.ci) p.pa p.world p.attr 0).recall x.ci (p.pa / 128)).checkLine p.world (p.pa / 128) with
      | (.fails .integrityFault, s) => (.trap .integrityFault va, s)
      | (_, s) =>
        match s.offerLines x ((va + 128) % 2 ^ 64) n with
        | (.done ls, s) => (.done ((p.pa, p.world) :: ls), s)
        | r => r

/-- A routing entry allows an offer of a name by a world: it is there, of that world, and not closed. -/
def State.offerable (s : State) (world : Nat) (name : DWord) : Option (BitVec 128) :=
  (s.nrt? (nameTid name)).bind fun e =>
    if nrtWorld e.2 = world ∧ !nrtShut e.2 (nameIter name) then some e.2 else none

/-- R184 `noffer`: the source is checked at issue; the tile is read and taken as the status comes. -/
def execNoffer (p : Option Pfx) (d a b : Sel) (s : State) : Host.Outcome State Fault Refusal :=
  s.runLow (.noffer p d a b)
    (form6 p [srcOf .b64 (polA p) none a, srcOf .b64 (polB p) none b] (some (statusDst d))
      (!statusSel d || !sel64 a || !sel64 b) false) always
    fun s x off ks vs zs =>
      let name := BitVec.ofNat 64 (arg vs 0)
      let va := arg vs 1
      let world := ((s.coh x).map Cohort.world).getD 0
      if va % 128 ≠ 0 then s.trapKs x off ks zs .alignFault va
      else
        match s.offerable world name with
        | none => s.finishStatus x (.noffer name []) d off ks zs
        | some e =>
          match s.offerLines x va (nrtBytes e / 128) with
          | (.page a l n, s) => s.parkKs x ks a l n
          | (.trap t a, s) => s.trapKs x off ks zs t a
          | (.done ls, s) => s.finishStatus x (.noffer name ls) d off ks zs

/-- The tile store of a home slice has room for a tile of a tensor (R268, R271, R307). -/
def State.tileRoom (s : State) (e : BitVec 128) (name : DWord) : Bool :=
  let here := s.tilesAt (homeOf e name)
  let n := nrtBytes e
  decide (tileBytes (here.filter fun t => nameTid t.name == nameTid name) + n ≤ nrtQuota e)
    && decide (tileBytes here + n ≤ 2 ^ 20)
    && s.wayRoom (homeOf e name) (nrtWorld e) n

/-- The bytes of an offer's lines, and the lines that are poisoned (R184, R357); nothing where a read of one is stopped
(R309). -/
def State.readTile (s : State) : List (Nat × Nat) → Nat → Option (List Byte × List Nat) × State
  | [], _ => (some ([], []), s)
  | p :: ps, i =>
    match s.checkLine p.2 (p.1 / 128) with
    | (.fails .integrityFault, s) => (none, s)
    | (r, s) =>
      let bs := if r = .zeros then List.replicate 128 0 else s.mem.getBytes p.1 128
      let sick := if r = .ok ∨ r = .zeros then [] else [i]
      let q := s.readTile ps (i + 1)
      (q.1.map fun t => (bs ++ t.1, sick ++ t.2), q.2)

/-- The grid of a cohort has offered a tile into an iteration (R269). -/
def State.noteOffer (s : State) (co : Nat) (name : DWord) : State :=
  match find? s.cohorts co with
  | none => s
  | some c => s.modGrid c.grid fun g =>
      { g with offered := insert g.offered (nameTid name) (max (findD g.offered (nameTid name) 0) (nameIter name)) }

/-- What becomes of an offer by some threads (R184, R271): its status. Where a read of its source is stopped once it has
issued, nothing is taken and the threads take INTEGRITY_FAULT (R309; log entry 73). -/
def State.offer (s : State) (co : Nat) (ks : List Nat) (name : DWord) (lines : List (Nat × Nat)) : Status × State :=
  match find? s.cohorts co with
  | none => (.refused, s)
  | some c =>
    match s.offerable c.world name with
    | none => (.refused, s)
    | some e =>
      if s.names.tiles.any fun t => t.name == name then (.ok, (s.noteOffer co name).bump .cluNofferDup c.ci 1)
      else if nrtBytes e ≠ 128 * lines.length then (.refused, s)
      else if !s.tileRoom e name || s.sliceFailed (homeOf e name).1 (homeOf e name).2 then (.busy, s)
      else
        match (s.expirePast name).readTile lines 0 with
        | (none, s) => (.refused, s.setDue co ks .integrityFault)
        | (some r, s) =>
          let t : Tile := ⟨name, r.1, r.2, c.grid, c.world⟩
          let s := s.noteOffer co name
          let s := { s with names := { s.names with tiles := s.names.tiles ++ [t] } }
          match find? s.names.interests name.toNat with
          | some i => (.ok, (s.dropInterest name).sendTile t i.groups i.direct)
          | none => (.ok, s)

/-- The closed mark of a tensor rises (R185): pending interests of the closed range complete. -/
def State.closeTensor (s : State) (tid iter : Nat) : State :=
  match s.nrt? tid with
  | none => s
  | some (i, e) =>
    if nrtShut e iter then s
    else
      let e' := BitVec.ofNat 128 (setBits (setBits e.toNat 48 16 iter) 47 1 1)
      let s := s.setEnt i (some e')
      let ns := (keys s.names.interests).filter fun n =>
        nameTid (BitVec.ofNat 64 n) == tid && decide (nameIter (BitVec.ofNat 64 n) ≤ iter)
      State.sweepTiles (ns.foldl (fun s n =>
        match find? s.names.interests n with
        | none => s
        | some i => (s.dropInterest (BitVec.ofNat 64 n)).endInterest (BitVec.ofNat 64 n) i.groups i.direct none .refused 0x19) s)

/-- `nclose` (R185): a tensor of another world is not named. -/
def closeInstr (i : Instr) (p : Option Pfx) (srcs : List Src) (ill res : Bool) (s : State) :
    Host.Outcome State Fault Refusal :=
  s.runLow i (form6 p srcs none ill res) always fun s x off ks vs zs =>
    let tid := arg vs 0 % 2 ^ 16
    let world := ((s.coh x).map Cohort.world).getD 0
    let s := if ((s.nrt? tid).map fun e => nrtWorld e.2) = some world then s.closeTensor tid (arg vs 1 % 2 ^ 16) else s
    s.close x (off ++ ks) zs

/-- R185 `nclose vA, vB`. -/
def execNclose (p : Option Pfx) (a b : Sel) (s : State) : Host.Outcome State Fault Refusal :=
  closeInstr (.nclose p a b) p [srcWord (polA p) a, srcWord (polB p) b] (!sel32 a || !sel32 b) false s

/-- R185 `nclose vA, #iter`. -/
def execNcloseImm (p : Option Pfx) (a b : Sel) (imm : BitVec 30) (s : State) : Host.Outcome State Fault Refusal :=
  closeInstr (.ncloseImm p a b imm) p [srcImm (polA p) imm.toNat a, srcImm (polB p) imm.toNat b]
    (!sel32I a || !sel32I b) (decide (2 ^ 16 ≤ imm.toNat)) s

/-- `nlife` (R185). -/
def lifeInstr (i : Instr) (p : Option Pfx) (srcs : List Src) (ill res : Bool) (s : State) : Host.Outcome State Fault Refusal :=
  s.runLow i (form6 p srcs none ill res) always fun s x off ks vs zs =>
    (s.modThreads x.co ks fun _ t => { t with nlife := BitVec.ofNat 32 (arg vs 0) }).close x (off ++ ks) zs

/-- R185 `nlife vA`. -/
def execNlife (p : Option Pfx) (a : Sel) (s : State) : Host.Outcome State Fault Refusal :=
  lifeInstr (.nlife p a) p [srcWord (polA p) a] (!sel32 a) false s

/-- R185 `nlife #t`. -/
def execNlifeImm (p : Option Pfx) (a : Sel) (imm : BitVec 30) (s : State) : Host.Outcome State Fault Refusal :=
  lifeInstr (.nlifeImm p a imm) p [srcImm (polA p) imm.toNat a] (!sel32I a) imm.msb s

/-- Retirement of a grid closes the tensors it produced and releases their tiles (R269). -/
def State.retireProducer (s : State) (seq : Nat) : State :=
  match find? s.lch.grids seq with
  | none => s
  | some g =>
    match g.hdr with
    | none => s
    | some h =>
      g.offered.foldl (fun s p =>
        let produces := (h.tiles.any fun t => t.tid == p.1) &&
          ((s.nrt? p.1).map fun e => nrtStage e.2 == h.stage).getD false
        if !produces then s
        else
          let s := s.closeTensor p.1 p.2
          { s with names := { s.names with tiles := s.names.tiles.filter fun t =>
              !(nameTid t.name == p.1 && decide (nameIter t.name ≤ p.2)) } }) s

/-- R186 `mland`: the registration is made or refused as the status comes. -/
def execMland (p : Option Pfx) (d a b : Sel) (port : BitVec 3) (ba : Bool) (barr : BitVec 4) (s : State) :
    Host.Outcome State Fault Refusal :=
  s.runLow (.mland p d a b port ba barr)
    (form6 p [srcWord (polA p) a, srcWord (polB p) b] (some (statusDst d)) (!statusSel d || !sel32 a || !sel32 b) false)
    always fun s x off ks vs zs =>
      s.finishStatus x (.mland port.toNat (arg vs 0 % 2 ^ 32) (arg vs 1 % 2 ^ 32) ba barr.toNat) d off ks zs

/-- Makes or refuses a landing registration (R186). -/
def State.register (s : State) (co port off slots : Nat) (ba : Bool) (barr : Nat) : Status × State :=
  match find? s.cohorts co with
  | none => (.refused, s)
  | some c =>
    let held := match find? (s.cluster c.ci).landing port with
      | some l => l.cohort != co
      | none => false
    if held then (.busy, s)
    else if slots = 0 then (.ok, (s.modCluster c.ci fun cl => { cl with landing := erase cl.landing port }).testBars co)
    else if off % 128 ≠ 0 ∨ 4096 < slots ∨ c.spadBytes < off + 128 * slots then (.refused, s)
    else
      (.ok, (s.modCluster c.ci fun cl =>
        { cl with landing := insert cl.landing port ⟨co, off, slots, 0, ba, barr⟩ }).testBars co)

end Sys2Proof.Machine
end

