-- ==== Sys2Proof/Machine/Accrual.lean ====
section
/-!
DEFINITION. The accrual factors of the wear records and the cost of a boost (R343 to R346, R352, R353).
-/

namespace Sys2Proof.Machine

/-- FvB by voltage bin (R343). -/
def fvB (n : Nat) : Nat := nth [40, 52, 66, 84, 106, 134, 162, 206, 256, 318, 396, 492, 612] n 612
/-- FvH by voltage bin (R343). -/
def fvH (n : Nat) : Nat := nth [16, 24, 34, 48, 68, 94, 128, 180, 256, 360, 504, 704, 984] n 984
/-- FtB by temperature bin (R344). -/
def ftB (n : Nat) : Nat := nth [60, 80, 108, 144, 192, 256, 340, 452, 600] n 600
/-- FtH by temperature bin (R344). -/
def ftH (n : Nat) : Nat := nth [320, 304, 292, 280, 268, 256, 246, 236, 228] n 228
/-- FtE by temperature bin (R344). -/
def ftE (n : Nat) : Nat := nth [20, 32, 52, 84, 164, 256, 400, 620, 960] n 960
/-- Fj by current bin (R345). -/
def fj (n : Nat) : Nat := if n = 0 then 1 else 4 * n * n

/-- `Tri` (R346). -/
def tri (x y z : Nat) : Nat := 1000 * x * y * z / 2 ^ 24

/-- The largest of a unit's three records. -/
def WearUnit.worst (u : WearUnit) : Nat := max u.b (max u.h u.e)

/-- LIFE_BUD (R352). -/
def WearUnit.budget (u : WearUnit) : Int := (u.allow : Int) - u.worst - u.hold

/-- The voltage bin of a point in steps of 12.5 mV (R353). -/
def stepBin (n : Nat) : Nat := min 12 ((n - 48) / 2)

/-- Cost C and BASE of a boost to `n` steps for `d` ms (R353). -/
def WearUnit.boostCost (u : WearUnit) (n d : Nat) : Nat × Nat :=
  let b := tri (fvB u.vb) (ftB u.tb) u.fb
  let h := tri (fvH u.vb) (ftH u.tb) u.fah
  let e := tri (fj u.jb) (ftE u.tb) u.fb
  let v1 := stepBin n
  let xb := tri (fvB v1) (ftB u.tb) u.fb - b
  let xh := tri (fvH v1) (ftH u.tb) u.fah - h
  let xe := tri (fj (min 11 (u.jb + 1))) (ftE u.tb) u.fb - e
  (d * max xb (max xh xe), max b (max h e))

/-- The state with a wear unit's record changed; an update in progress publishes the change too (R341, R355). -/
def State.modUnit (s : State) (i : Nat) (f : WearUnit → WearUnit) : State :=
  { s with wear := { s.wear with
    units := insert s.wear.units i (f (s.wunit i)), next := s.wear.next.map fun m => modify m i f } }

end Sys2Proof.Machine
end

