-- ==== Sys2Proof/Machine/System.lean ====
section
/-!
DEFINITION. Template, barrier and system instructions, group 7 (R187 to R210), and the stamping of lambs
(R190, R233).
-/

namespace Sys2Proof.Machine

/-- The operand rules of a group 7 instruction (R187). -/
def form7 (srcs : List Src) (dst : Option Dst) (ill res : Bool) : Form :=
  ⟨none, ⟨false, false, false, false, false⟩, some .b32, srcs, dst, ill, res⟩

/-- `ext` as n32 (R187). -/
def imm32 (imm : BitVec 30) : Nat := Ety.n32.ext imm

/-- A 64-bit source (R187). -/
def src64 (a : Sel) : Src := srcOf .b64 false none a

/-- Where a thread at the start of an index begins (R190, R194, R288): its role entry, which is the restart
point of its entry region. -/
def Cohort.entryOf (c : Cohort) (role : Nat) : DWord := c.hdr.codeBase + BitVec.ofNat 64 (nth c.hdr.entries role 0)

/-- What an entry to a region captures for a thread (R101, R166, R202). -/
def Cohort.captureOf (c : Cohort) (t : Thread) : Capture where
  pc := t.pc
  wbase := t.wbase
  mode := t.mode
  nlife := t.nlife
  loops := t.loops
  divs := t.divs.filterMap fun id => (find? c.divs id).map fun e => (id, e.join)
  ovf := t.ovf
  queues := filterMap c.queues fun key _ => key / 8 == t.role
  streams := filterMap c.streams fun key _ => key / 4 == t.role

/-- A thread that begins an index (R194 step 5). -/
def Cohort.beginIndex (c : Cohort) (n level : Nat) (t : Thread) : Thread :=
  let t := { t with
    pc := c.entryOf t.role, wbase := 0, idx := n, level := level, region := .entry, loops := [], divs := [], ovf := 0
    latched := [], acts := [], absorb := [], again := false, land := false }
  { t with capture := c.captureOf t }

/-- A stamped lamb, before its index (R190): FLAGS zero (R60), predicates of the ewe (R59), MODE from the
header (R200). -/
def Cohort.newThread (c : Cohort) (key role : Nat) : Thread where
  crew := key / 32
  lane := key % 32
  role := role
  pc := 0
  preds := (nth c.ewes 0 Ewe.empty).p
  flags := 0
  mode := BitVec.ofNat 32 (2 * c.hdr.rounding + c.hdr.ftz.toNat)
  wbase := 0
  nlife := 0
  idx := 0
  loops := []
  divs := []
  ovf := 0
  frames := []
  region := .entry
  capture := ⟨0, 0, 0, 0, [], [], 0, [], []⟩
  acts := []
  absorb := []
  again := false
  latched := []
  land := false
  level := 1
  due := none
  run := .discarded

/-- The first crew of a role (R190). -/
def Header.firstCrew (h : Header) (role : Nat) : Nat := (h.crews.take role).foldl (· + ·) 0

/-- The slots of a cohort that receive an index at stamping (R190, R285): key, role, index. -/
def Cohort.slots (c : Cohort) (g : Grid) : List (Nat × Nat × Nat) :=
  let rg := g.range c.coh
  (List.range 8).flatMap fun r =>
    (List.range (min (32 * nth c.hdr.crews r 0) (rg.2 - rg.1))).filterMap fun n =>
      if g.padding (rg.1 + n) then none else some (32 * c.hdr.firstCrew r + n, r, rg.1 + n)

/-- Member slots of a mask that were not stamped (R198). -/
def Cohort.unstamped (c : Cohort) (m : BitVec 32) : Nat :=
  let crews := (List.range (c.hdr.crews.foldl (· + ·) 0)).filter fun w => inMask m w
  32 * crews.length - (c.threads.filter fun p => inMask m (p.1 / 32)).length

/-- A convergence register whose members are the live threads of its crews (R195). -/
def Cohort.gatherConv (c : Cohort) (m : BitVec 32) : Conv :=
  let ks := keys (filterMap c.threads fun k _ => inMask m (k / 32))
  { Conv.inertOne with inert := ks.isEmpty, expect := ks.length, members := ks, crews := m }

/-- Stamps lambs over a cohort's range (R190, R233): the threads of each crew form one group; member slots
left without an index depart (R198; DESIGN CHOICE, log entry 70: one after another), convergence registers count their
members, and the test for BROKEN is made. -/
def State.stamp (s : State) (co : Nat) : State :=
  match find? s.cohorts co with
  | none => s
  | some c =>
    match find? s.lch.grids c.grid with
    | none => s.modCohort co fun c => { c with phase := .ending, threads := [] }
    | some g =>
      let rg := g.range c.coh
      let threads : FMap Thread := (c.slots g).foldl (fun m p =>
        insert m p.1 (c.beginIndex p.2.2 1 (c.newThread p.1 p.2.1))) []
      let taken := (List.range 8).map fun r => min (32 * nth c.hdr.crews r 0) (rg.2 - rg.1)
      let c := { c with
        phase := if threads.isEmpty then .ending else .flock
        threads := threads, levels := [⟨rg.1, rg.2 - rg.1, none, taken⟩], depth := 1, groups := [] }
      let convs := mapVals c.convs fun _ v => if v.inert then v else c.gatherConv v.crews
      let s := s.setCohort co { c with convs := convs }
      let s := ((keys threads).map (· / 32)).eraseDups.foldl (fun s w =>
        s.regroup co ((keys threads).filter fun k => k / 32 == w)) s
      (List.range 16).foldl (fun s j =>
        let b := c.bar j
        if b.inert then s
        else s.settleBar co j ({ b with marks := b.marks.filter (· != 0) }.departs (fun b => b.flip.1)
          (c.unstamped b.members))) s

/-- Commands that a thread pushed are not completed (R188). -/
def State.pushing (s : State) (co k : Nat) : Bool := s.cmds.any fun p => p.2.cohort == co && p.2.threads.contains k

/-- The ewe that a thread's own view of the registers below a ceiling gives (R188, R189). -/
def Cohort.eweOf (c : Cohort) (k ceiling : Nat) : Ewe where
  v := (List.range ceiling).foldl (fun m r => if (c.vreg k r).1 = 0 then m else insert m r (c.vreg k r).1) []
  s := filterMap c.s fun _ v => v != 0
  p := ((c.thread? k).map Thread.preds).getD 0
  sick := (List.range ceiling).filter fun r => (c.vreg k r).2

/-- A thread's sample of TIMER or CYCLES is still to be taken (R229): what reads all of its registers waits for it. -/
def Cohort.sampling (c : Cohort) (k : Nat) : Bool :=
  c.pends.any fun p => (p.2.lanes.any fun l => l.1 == k) && match p.2.kind with
    | .sample _ => true
    | _ => false

/-- R188 `freeze`: ends the prologue. -/
def execFreeze (s : State) : Host.Outcome State Fault Refusal :=
  s.control .freeze none fun s x c =>
    if c.phase ≠ .prologue then s.trapAll x .illegalOp
    else if s.pushing x.co 0 || c.sampling 0 then s
    else
      let s := s.drainPends x.co 0
      let s := s.modCohort x.co fun c =>
        { c.dropPends 0 with
          ewes := setNth c.ewes 0 (c.eweOf 0 (32 * nth c.hdr.window 0 0)), owned := c.high, divs := [], serials := []
          crews := modify c.crews 0 fun w => { w with regs := [] } }
      ((s.stamp x.co).tidyBins x.co).wakeParked x.ci

/-- A lamb may take a nested `freeze` of a count (R189). -/
def Cohort.mayNest (c : Cohort) (k count : Nat) : Bool :=
  match c.thread? k with
  | none => false
  | some t => t.role == 0 && decide (c.levels.length < c.hdr.template) && t.level == c.levels.length && count != 0

/-- The lowest lane that may becomes the parent (R189): its region ends, and it is in its entry region again (R202, R288;
DEDUCED, log entry 71). -/
def State.nest (s : State) (x : Issue) (k first count : Nat) : State :=
  let s := s.drainPends x.co k
  (s.modCohort x.co fun c => { c with
    ewes := setNth c.ewes c.levels.length (c.eweOf k 256)
    owned := max c.owned c.high
    levels := c.levels ++ [⟨first, count, some k, List.replicate 8 0⟩]
    depth := c.levels.length + 1
    threads := modify c.threads k fun t => { t with
      run := .nested (x.pc + 4), region := .entry, again := false
      capture := c.captureOf { t with pc := c.entryOf t.role, wbase := 0, loops := [], divs := [], ovf := 0 }
      acts := [], absorb := [] } }).modCohort x.co Cohort.tidy

/-- R189 `freeze vA`: the parent waits until its commands have completed; the other lanes trap. -/
def execFreezeNested (a : Sel) (s : State) : Host.Outcome State Fault Refusal :=
  s.runPre (.freezeNested a) (form7 [src64 a] none (!sel64 a) false)
    (fun _ _ c _ => if c.phase = .prologue then .trap .illegalOp else .go)
    fun s x off ls zs =>
      match find? s.cohorts x.co with
      | none => s
      | some c =>
        let ok := ls.filter fun l => c.mayNest l.1 (arg l.2 0 / 2 ^ 32)
        match ok with
        | [] => s.close x off (zs ++ ls.map fun l => (l.1, x.cause .accessFault 0))
        | p :: _ =>
          if s.pushing x.co p.1 || c.sampling p.1 then s
          else
            let rest := ls.filter fun l => l.1 != p.1
            (s.nest x p.1 (arg p.2 0 % 2 ^ 32) (arg p.2 0 / 2 ^ 32)).close x off
              (zs ++ rest.map fun l => (l.1, x.cause .accessFault 0))

/-- An index that a role's walk passes over (R194, R285, R291): one whose bit is set, and in the root range padding. -/
def State.passes (s : State) (c : Cohort) (g : Grid) (role n : Nat) : Bool × State :=
  if g.total ≤ n then (false, s)
  else if c.levels.length = 1 ∧ g.padding n then (true, s)
  else s.indexDone c.grid c.ctx role n

/-- How many indices of a range a role has taken, once its walk has passed over those that it does not run. -/
def State.skipTaken (s : State) (c : Cohort) (g : Grid) (role first taken : Nat) : Nat → Nat × State
  | 0 => (taken, s)
  | n + 1 =>
    let r := s.passes c g role (first + taken)
    if r.1 then r.2.skipTaken c g role first (taken + 1) n else (taken, r.2)

/-- A role takes its next index (R189, R194, R291): from the innermost range. -/
def State.takeIndex (s : State) (co role : Nat) : Option Nat × State :=
  match find? s.cohorts co with
  | none => (none, s)
  | some c =>
    match c.levels.getLast? with
    | none => (none, s)
    | some l =>
      let t0 := nth l.taken role 0
      let r := match find? s.lch.grids c.grid with
        | some g => s.skipTaken c g role l.first t0 (l.count - t0)
        | none => (t0, s)
      let t := r.1
      let l' : Level := { l with taken := setNth l.taken role (if t < l.count then t + 1 else l.count) }
      let s := r.2.modCohort co fun c => { c with levels := setNth c.levels (c.levels.length - 1) l' }
      (if t < l.count then some (l.first + t) else none, s)

/-- A thread at `next` takes an index (`true`), waits for its parent range, or retires (R189, R194). -/
def State.onward (s : State) (co k : Nat) : Bool × State :=
  match s.thread? co k with
  | none => (false, s)
  | some t =>
    let r := s.takeIndex co t.role
    match find? r.2.cohorts co with
    | none => (false, r.2)
    | some c =>
      match r.1 with
      | some n =>
        let u := c.beginIndex n c.levels.length t
        if c.yielding.isSome then (false, r.2.modThread co k fun _ => { u with run := .stopped t.run.origin })
        else (true, r.2.modThread co k fun _ => u)
      | none =>
        if c.levels.length ≤ 1 then (false, r.2.leave co k)
        else (false, r.2.modThread co k fun t => { t with run := .atNext t.run.origin, level := min t.level (c.levels.length - 1) })

/-- Threads that go on at `next`, in order; those that took an index. -/
def State.onwards (s : State) (co : Nat) : List Nat → List Nat × State
  | [] => ([], s)
  | k :: ks =>
    let r := s.onward co k
    let q := r.2.onwards co ks
    (if r.1 then k :: q.1 else q.1, q.2)

/-- The bit of an index is recorded (R194 step 2); an index beyond the grid's total has none. -/
def State.recordIndex (s : State) (c : Cohort) (t : Thread) : HubDone × State :=
  match find? s.lch.grids c.grid with
  | none => (.ok, s)
  | some g => if t.idx < g.total then s.markIndex c.grid c.ctx t.role t.idx else (.ok, s)

/-- `next` in one thread (R194). -/
def State.nextOne (s : State) (x : Issue) (k : Nat) : State :=
  let s := s.drainPends x.co k
  match find? s.cohorts x.co with
  | none => s
  | some c =>
    match c.thread? k with
    | none => s
    | some t =>
      match s.recordIndex c t with
      | (.parked page, s) => s.wait x [k] fun _ => .faulted x.g page
      | (.ended, s) => s
      | (.ok, s) =>
        let s := s.leaveSerial x.co k
        let s := s.modThread x.co k fun t => { t with loops := [], divs := [], ovf := 0 }
        ((s.leaveMasks x.co k t.masks).onward x.co k).2

/-- R194 `next`: the lanes take indices in ascending order. -/
def execNext (s : State) : Host.Outcome State Fault Refusal :=
  s.control .next none fun s x c =>
    if c.phase = .prologue then s.trapAll x .accessFault
    else
      let s := (x.ts.foldl (fun s k => s.nextOne x k) s).testExhausted x.co
      let go := x.ts.filter fun k => ((s.thread? x.co k).map fun t => t.run == .group x.g).getD false
      s.settle x.co x.g go

/-- The innermost child range is finished (R189): no role that has crews has an index left, and no lamb runs one. -/
def Cohort.childDone (c : Cohort) (l : Level) : Bool :=
  let waits (t : Thread) : Bool := match t.run with
    | .nested _ => true
    | _ => false
  ((List.range 8).all fun r => nth c.hdr.crews r 0 == 0 || decide (l.count ≤ nth l.taken r 0))
    && c.threads.all fun p => waits p.2 || decide (p.2.level < c.levels.length)

/-- R189: the parent goes on once its child range is finished, and lambs that wait at `next` take parent
indices, those of one group together (R239). -/
def execNestedFreezeResume (co : Nat) (s : State) : Host.Outcome State Fault Refusal :=
  .next (match find? s.cohorts co with
    | none => s
    | some c =>
      match c.levels.getLast? with
      | none => s
      | some l =>
        match l.parent with
        | none => s
        | some p =>
          if !c.childDone l then s
          else
            let n := c.levels.length - 1
            let s := s.setCohort co { c with levels := c.levels.take n, depth := n, ewes := setNth c.ewes n Ewe.empty }
            let s := s.modThread co p fun t => match t.run with
              | .nested next => t.resume next
              | _ => t
            let s := s.groupUp co [p]
            let idle := byLane (keys (filterMap c.threads fun _ t => match t.run with
              | .atNext _ => true
              | _ => false))
            let r := s.onwards co idle
            (r.2.release co r.1).testExhausted co)

/-- Threads that wait for a round of a convergence register. -/
def Cohort.signWaiters (c : Cohort) (cv : Nat) : List Nat :=
  keys (filterMap c.threads fun _ t => match t.run with
    | .convWait _ j => j == cv
    | _ => false)

/-- `conv.init` (R195): in the prologue the members are counted at `freeze`. -/
def convInstr (i : Instr) (cv : Nat) (srcs : List Src) (ill : Bool) (s : State) : Host.Outcome State Fault Refusal :=
  s.runLow i (form7 srcs none ill false) always fun s x off ks vs zs =>
    let m := BitVec.ofNat 32 (arg vs 0)
    match find? s.cohorts x.co with
    | none => s
    | some c =>
      let v := if c.phase = .prologue then { Conv.inertOne with inert := false, crews := m } else c.gatherConv m
      ((s.modCohort x.co fun c => { c with convs := insert c.convs cv v }).release x.co (c.signWaiters cv)).close x
        (off ++ ks) zs

/-- R195 `conv.init convN, vA`. -/
def execConvInit (cv : BitVec 3) (a : Sel) (s : State) : Host.Outcome State Fault Refusal :=
  convInstr (.convInit cv a) cv.toNat [srcWord false a] (!sel32 a) s
/-- R195 `conv.init convN, #mask`. -/
def execConvInitImm (cv : BitVec 3) (a : Sel) (imm : BitVec 30) (s : State) : Host.Outcome State Fault Refusal :=
  convInstr (.convInitImm cv a imm) cv.toNat [srcImm false (imm32 imm) a] (!sel32I a) s

/-- `barr.init` (R196): waiters test again against the new PHASE, and members that wait to arrive issue again. -/
def barrInstr (i : Instr) (j : Nat) (srcs : List Src) (ill : Bool) (s : State) : Host.Outcome State Fault Refusal :=
  s.runLow i (form7 srcs none ill false) always fun s x off ks vs zs =>
    let n := arg vs 0 % 2 ^ 32
    if n = 0 then s.trapKs x off ks zs .reservedField 0
    else
      match find? s.cohorts x.co with
      | none => s
      | some c =>
        let b : Barrier := ⟨false, n, 0, false, false, BitVec.ofNat 32 (arg vs 1), [], 0⟩
        let pass := keys (filterMap c.threads fun _ t => match t.run with
          | .barWait _ i ph _ => i == j && ph
          | _ => false)
        let again := keys (filterMap c.threads fun _ t => match t.run with
          | .barArrive _ i => i == j
          | _ => false)
        let s := s.modCohort x.co fun c => { c with bars := insert c.bars j b }
        let s := s.modThreads x.co pass fun _ t => match t.run with
          | .barWait _ _ _ next => t.resume next
          | _ => t
        ((s.release x.co (pass ++ again)).testBroken x.co j).close x (off ++ ks) zs

/-- R196 `barr.init bK, vA, vB`. -/
def execBarrInit (k : BitVec 4) (a b : Sel) (s : State) : Host.Outcome State Fault Refusal :=
  barrInstr (.barrInit k a b) k.toNat [srcWord false a, srcWord false b] (!sel32 a || !sel32 b) s
/-- R196 `barr.init bK, #count, vB`. -/
def execBarrInitImm (k : BitVec 4) (a b : Sel) (imm : BitVec 30) (s : State) : Host.Outcome State Fault Refusal :=
  barrInstr (.barrInitImm k a b imm) k.toNat [srcImm false (imm32 imm) a, srcImm false (imm32 imm) b]
    (!sel32I a || !sel32I b) s

/-- What one thread's arrival came to. -/
inductive Arrived where
  | done
  | waits
  | inert
  deriving DecidableEq, Repr

/-- One thread's arrival (R196, R290): one that has arrived in this phase waits for the flip, which a later lane of its
own issue may bring. -/
def State.arriveOne (s : State) (co j k : Nat) : Arrived × State :=
  match find? s.cohorts co with
  | none => (.done, s)
  | some c =>
    let b := c.bar j
    if s.absorbs co k j then (.done, s.absorb co k j)
    else if b.inert then (.inert, s)
    else if inMask b.members (k / 32) then
      if b.marks.contains k then
        (.waits, s.modThread co k fun t => { t with run := .barArrive t.run.origin j })
      else (.done, (s.tally co k j).settleBar co j { b with arrived := b.arrived + 1, marks := k :: b.marks })
    else (.done, (s.tally co k j).settleBar co j { b with arrived := b.arrived + 1 })

/-- The arrivals of an issue in ascending lane order, and what became of each thread. -/
def State.arriveAll (s : State) (co j : Nat) : List Nat → List (Nat × Arrived) × State
  | [] => ([], s)
  | k :: ks =>
    let r := s.arriveOne co j k
    let q := r.2.arriveAll co j ks
    ((k, r.1) :: q.1, q.2)

/-- R196 `barr.arrive`. -/
def execBarrArrive (k : BitVec 4) (s : State) : Host.Outcome State Fault Refusal :=
  s.control (.barrArrive k) none fun s x _ =>
    let r := s.arriveAll x.co k.toNat x.ts
    let pick (a : Arrived) : List Nat := (r.1.filter fun p => p.2 == a).map Prod.fst
    (r.2.modCohort x.co Cohort.tidy).close x (pick .done) ((pick .inert).map fun k => (k, x.cause .accessFault 0))

/-- What a test of a barrier's phase gives (R197, R198). -/
inductive PhaseTest where
  | differs
  | same
  | broken
  deriving DecidableEq, Repr

/-- PHASE against an operand. -/
def Barrier.test (b : Barrier) (v : Nat) : PhaseTest :=
  if b.phase ≠ bit v 0 then .differs else if b.broken then .broken else .same

/-- `barr.wait` (R197, R198). -/
def waitInstr (i : Instr) (j : Nat) (srcs : List Src) (ill res : Bool) (s : State) : Host.Outcome State Fault Refusal :=
  s.runPre i (form7 srcs none ill res) always fun s x off ls zs =>
    match find? s.cohorts x.co with
    | none => s
    | some c =>
      let b := c.bar j
      let pick (r : PhaseTest) : List Nat := (ls.filter fun l => b.test (arg l.2 0) == r).map Prod.fst
      let next := x.pc + BitVec.ofNat 64 x.len
      let ph (k : Nat) : Bool := ((ls.find? fun l => l.1 == k).map fun l => bit (arg l.2 0) 0).getD false
      let s := s.wait x (pick .same) fun k => .barWait x.g j (ph k) next
      s.close x (off ++ pick .differs) (zs ++ (pick .broken).map fun k => (k, x.cause .barrierUnreachable 0))

/-- R197 `barr.wait bK, vA`. -/
def execBarrWait (k : BitVec 4) (a : Sel) (s : State) : Host.Outcome State Fault Refusal :=
  waitInstr (.barrWait k a) k.toNat [srcWord false a] (!sel32 a) false s
/-- R197 `barr.wait bK, #ph`. -/
def execBarrWaitImm (k : BitVec 4) (a : Sel) (imm : BitVec 30) (s : State) : Host.Outcome State Fault Refusal :=
  waitInstr (.barrWaitImm k a imm) k.toNat [srcImm false (imm32 imm) a] (!sel32I a) (decide (2 ≤ imm.toNat)) s

/-- `barr.test` (R197, R198). -/
def testInstr (i : Instr) (q j : Nat) (srcs : List Src) (ill res : Bool) (s : State) : Host.Outcome State Fault Refusal :=
  let f := form7 srcs none ill res
  s.runPre i f always fun s x off ls zs =>
    let b := ((s.coh x).map fun c => c.bar j).getD Barrier.inertOne
    s.finish x f off zs (ls.map fun l => (l.1, match b.test (arg l.2 0) with
      | .differs => justPred q true
      | .same => justPred q false
      | .broken => .trap .barrierUnreachable 0))

/-- R197 `barr.test pN, bK, vA`. -/
def execBarrTest (q : BitVec 3) (a : Sel) (k : BitVec 4) (s : State) : Host.Outcome State Fault Refusal :=
  testInstr (.barrTest q a k) q.toNat k.toNat [srcWord false a] (!sel32 a) false s
/-- R197 `barr.test pN, bK, #ph`. -/
def execBarrTestImm (q : BitVec 3) (a : Sel) (k : BitVec 4) (imm : BitVec 30) (s : State) : Host.Outcome State Fault Refusal :=
  testInstr (.barrTestImm q a k imm) q.toNat k.toNat [srcImm false (imm32 imm) a] (!sel32I a) (decide (2 ≤ imm.toNat)) s

/-- A special register (R199): 64 bits wide, writable, privileged. -/
structure Special where
  wide : Bool
  rw   : Bool
  priv : Bool
  deriving DecidableEq, Repr

/-- The special registers (R199); `none` for a number not assigned. -/
def special? (n : Nat) : Option Special :=
  if n = 13 ∨ n = 14 then some ⟨false, true, false⟩
  else if n = 10 ∨ n = 11 ∨ n = 12 ∨ n = 16 ∨ n = 22 then some ⟨true, false, false⟩
  else if n ≤ 21 then some ⟨false, false, false⟩
  else if n = 64 then some ⟨true, false, true⟩
  else if n = 65 then some ⟨false, true, true⟩
  else if n = 66 then some ⟨true, true, true⟩
  else if n = 67 then some ⟨false, false, true⟩
  else none

/-- What a special register reads in a thread (R199). -/
def State.special (s : State) (c : Cohort) (k : Nat) (t : Thread) (n : Nat) : Nat :=
  let cl := s.cluster c.ci
  let idx (i : Nat) : Nat := ((find? s.lch.grids c.grid).map fun g => nth (g.comps t.idx) i 0).getD 0
  let ctx := s.ctx? c.ctx
  match n with
  | 0 => 32
  | 1 => t.lane
  | 2 => idx 0
  | 3 => idx 1
  | 4 => idx 2
  | 5 => c.coh
  | 6 => c.hdr.stage
  | 7 => t.role
  | 8 => c.world
  | 9 => t.crew
  | 10 => s.timer
  | 11 => cl.cycles
  | 12 => ((ctx.map Ctx.energy).getD 0) / 1000
  | 13 => t.flags.toNat
  | 14 => t.mode.toNat
  | 15 => t.wbase
  | 16 => t.loops.length * 2 ^ 32 + ((t.loops.head?.map fun l => l.count.toNat).getD 0)
  | 17 => cl.mrow (c.crewOf k).sp
  | 18 => c.hdr.binage
  | 19 => t.nlife.toNat
  | 20 => t.level
  | 21 => t.divs.length + t.ovf
  | 22 => if t.frames.isEmpty then 0 else (s.frameAddr c k (t.frames.length - 1)).getD 0
  | 64 => wrapNat 64 (s.wunit (s.clusterUnit c.ci)).budget
  | 65 => s.wear.tgt
  | 66 => (ctx.map fun x => x.trapvec.toNat).getD 0
  | 67 => c.ctx
  | _ => 0

/-- PRIVILEGE (R199): a privileged register in a context without PRIV. -/
def State.privOk (s : State) (c : Cohort) (r : Special) : Bool := !r.priv || ((s.ctx? c.ctx).map Ctx.priv).getD false

/-- A destination of `movs`, or a source of `mtsr`, fits a register's width (R187, R199). -/
def specialSel (wide src : Bool) (d : Sel) : Bool :=
  if wide then (isSlot d && d.toNat % 2 == 0) || isScalar d
  else isSlot d || isScalar d || d == 124 || (src && d == 126)

/-- R199, R225 `movs`: TIMER and CYCLES are read as the instruction starts in the lanes (R229), and every other register at
issue. -/
def execMovs (d a : Sel) (s : State) : Host.Outcome State Fault Refusal :=
  let r := special? a.toNat
  let wide := (r.map Special.wide).getD false
  let f := form7 [] (some (dstOf (if wide then .b64 else .b32) d)) (r.isNone || !specialSel wide false d) false
  s.runPre (.movs d a) f
    (fun s _ c _ => if (r.map (s.privOk c)).getD false then .go else .trap .privilege)
    fun s x off ls zs =>
      let val (k : Nat) : Nat := match s.coh x with
        | none => 0
        | some c => ((c.thread? k).map fun t => s.special c k t a.toNat).getD 0
      let rs := ls.map fun l => (l.1, justVal (val l.1))
      if a.toNat = 10 ∨ a.toNat = 11 then s.finishLater x f (.sample (a.toNat == 11)) off zs rs else s.finish x f off zs rs

/-- A value a special register may not take (R199, R200). -/
def specialBad (n v : Nat) : Bool :=
  match n with
  | 14 => (rndOf (bits v 1 3)).isNone
  | 65 => v == 0 || decide (2 ^ 16 ≤ v)
  | _ => false

/-- Writes a special register from a thread (R199, R200): read-only bits keep their values; TRAPVEC is written
to its context's descriptor as well (R277). -/
def State.writeSpecial (s : State) (c : Cohort) (co k n v : Nat) : State :=
  match n with
  | 13 => s.modThread co k fun t => { t with flags := BitVec.ofNat 5 v }
  | 14 => s.modThread co k fun t => { t with mode := (t.mode &&& 0x8000) ||| (BitVec.ofNat 32 v &&& 0x7C0F) }
  | 65 => { s with wear := { s.wear with tgt := v } }
  | 66 => (s.modCtx c.ctx fun x => { x with trapvec := BitVec.ofNat 64 v }).hubWrite
      (s.xlt.ctxBase.toNat + 64 * c.ctx + 0x10) (toBytes v 8)
  | _ => s

/-- R199 `mtsr`: where the lanes write one register of the device, the last of them in an order the device
chooses stands. -/
def execMtsr (d a : Sel) (s : State) : Host.Outcome State Fault Refusal :=
  let n := d.toNat
  let r := special? n
  let wide := (r.map Special.wide).getD false
  let f := form7 [if wide then src64 a else srcWord false a] none
    (!((r.map Special.rw).getD false) || !specialSel wide true a) false
  s.runPre (.mtsr d a) f
    (fun s _ c _ => if (r.map (s.privOk c)).getD false then .go else .trap .privilege)
    fun s x off ls zs =>
      match s.coh x with
      | none => s
      | some c =>
        let ok := ls.filter fun l => !specialBad n (arg l.2 0)
        let bad := (ls.filter fun l => specialBad n (arg l.2 0)).map fun l => (l.1, x.cause .reservedField 0)
        let o := if n < 64 ∨ (ok.map fun l => arg l.2 0).eraseDups.length ≤ 1 then (ok, s) else s.permute ok.length ok
        (o.1.foldl (fun s l => s.writeSpecial c x.co l.1 n (arg l.2 0)) o.2).close x (off ++ ok.map Prod.fst) (zs ++ bad)

/-- `wbase` (R201). -/
def baseInstr (i : Instr) (srcs : List Src) (ill : Bool) (s : State) : Host.Outcome State Fault Refusal :=
  s.runPre i (form7 srcs none ill false) always fun s x off ls zs =>
    match s.coh x with
    | none => s
    | some c =>
      let okAt (l : Nat × List Nat) : Bool :=
        ((c.thread? l.1).map fun t => decide (arg l.2 0 % 2 ^ 32 + 3 ≤ nth c.hdr.window t.role 0)).getD false
      let ok := ls.filter okAt
      let bad := (ls.filter fun l => !okAt l).map fun l => (l.1, x.cause .reservedField 0)
      (ok.foldl (fun s l => s.modThread x.co l.1 fun t => { t with wbase := 32 * (arg l.2 0 % 2 ^ 32) }) s).close x
        (off ++ ok.map Prod.fst) (zs ++ bad)

/-- R201 `wbase vA`. -/
def execWbase (a : Sel) (s : State) : Host.Outcome State Fault Refusal :=
  baseInstr (.wbase a) [srcWord false a] (!sel32 a) s
/-- R201 `wbase #n`. -/
def execWbaseImm (a : Sel) (imm : BitVec 30) (s : State) : Host.Outcome State Fault Refusal :=
  baseInstr (.wbaseImm a imm) [srcImm false (imm32 imm) a] (!sel32I a) s

/-- R193 `rfree`: waits while a result is owed to one of the registers. -/
def execRfree (a b : Sel) (s : State) : Host.Outcome State Fault Refusal :=
  s.control (.rfree a b) none fun s x c =>
    if !isSlot a || !isSlot b || b.toNat < a.toNat then s.trapAll x .reservedField
    else
      let regs := x.ts.flatMap fun k => (List.range (b.toNat - a.toNat + 1)).map fun i => (k / 32, c.regOf k a + i)
      let regs := regs.eraseDups
      if regs.any fun r => c.crewEmpty r.1 r.2 then s
      else
        let s := s.modCohort x.co fun c => { c with crews := mapVals c.crews fun w crew =>
          { crew with regs := filterMap crew.regs fun r _ => !regs.contains (w, r) } }
        (s.wakeParked x.ci).retire x x.ts

/-- R202 `region`: the restart point is the marker itself (R17), which a restarted thread runs again with what it absorbs
(R290). While its cohort yields, a thread stops at the marker (R289). -/
def execRegion (i : BitVec 12) (s : State) : Host.Outcome State Fault Refusal :=
  s.control (.region i) none fun s x c =>
    if c.yielding.isSome then
      let s := s.modThreads x.co x.ts fun _ t =>
        { t with capture := c.captureOf t, acts := [], absorb := if t.again then t.absorb else [] }
      s.wait x x.ts fun _ => .stopped x.g
    else
      match c.hdr.regions[i.toNat]? with
      | none => s.trapAll x .regionViolation
      | some e =>
        if c.hdr.codeBase + BitVec.ofNat 64 e.start ≠ x.pc then s.trapAll x .regionViolation
        else
          (s.modThreads x.co x.ts fun _ t => { t.advance 4 with
            capture := c.captureOf t, region := .inside i.toNat e.drain e.limit, again := false, acts := []
            absorb := if t.again then t.absorb else [] }).settle x.co x.g x.ts

/-- A request's checks (R203): the status that refuses it. -/
def State.preqCheck (s : State) (ci kindW value : Nat) : Option Status :=
  let v := value % 2 ^ 16
  let f := value / 2 ^ 16 % 2 ^ 16
  if kindW / 2 ^ 8 ≠ 0 then some .refused
  else
    match kindW % 2 ^ 8 with
    | 0 =>
      if v < 48 then some .vfloor
      else if 70 < v ∨ (64 < v ∧ (s.island (laneIsland ci)).boost.isNone) then some .vceil
      else if f < 950 ∨ 2600 < f then some .refused else none
    | 1 => if f ≠ 0 ∨ 1024 < v then some .refused else none
    | _ => some .refused

/-- A request is posted (R203, R330): BUSY while the ring is disabled or has one free entry. -/
def State.postRequest (s : State) (ci ctx kind value dur : Nat) : Nat × State :=
  let p := s.pwr
  let size := 2 ^ p.pqLogn
  if !p.pqEn || (p.pqTail + 1) % size == p.pqHead % size then (Status.busy.code, s)
  else
    let n := p.ticket
    let bytes := toBytes n 4 ++ toBytes ctx 1 ++ toBytes kind 1 ++ toBytes (dieOf ci) 1 ++ toBytes 0 1
      ++ toBytes (ci % 144) 2 ++ toBytes 0 2 ++ toBytes value 4 ++ toBytes dur 4 ++ toBytes 0 4 ++ toBytes s.timer 8
    let s := s.hubWrite (p.pqBase.toNat + 32 * (p.pqTail % size)) bytes
    (Status.ok.code + n * 2 ^ 8, { s with pwr := { s.pwr with
      pqTail := (p.pqTail + 1) % size
      ticket := if n = 0xFFFFFF then 1 else n + 1
      tickets := insert s.pwr.tickets n ⟨ctx, ci, kind, value, dur⟩ } })

/-- R203 `preq`. -/
def execPreq (d a b c : Sel) (s : State) : Host.Outcome State Fault Refusal :=
  s.runLow (.preq d a b c) (form7 [srcWord false a, srcWord false b, srcWord false c] (some (statusDst d))
      (!statusSel d || !sel32 a || !sel32 b || !sel32 c) false) always
    fun s x off ks vs zs =>
      s.finishWith x d off ks zs fun s =>
        let k := arg vs 0 % 2 ^ 32
        let v := arg vs 1 % 2 ^ 32
        match s.preqCheck x.ci k v with
        | some e => (.known, e.code, s)
        | none =>
          let r := s.postRequest x.ci x.ctx k v (arg vs 2 % 2 ^ 32)
          (.known, r.1, r.2)

/-- A boost is decided (R204, R353). -/
def State.boost (s : State) (ci n d : Nat) : Status × State :=
  let i := laneIsland ci
  let u := s.clusterUnit ci
  if (s.island i).boost.isSome then (.busy, s)
  else
    let c := (s.wunit u).boostCost n d
    if (s.wunit u).budget < c.1 then (.refused, s)
    else
      let s := s.modUnit u fun w => { w with hold := w.hold + c.1, base := c.2 }
      (.ok, s.modIsland i fun x => { x with boost := some (s.timer + d * 1000000) })

/-- R204 `boost`. -/
def execBoost (d a : Sel) (s : State) : Host.Outcome State Fault Refusal :=
  s.runLow (.boost d a) (form7 [srcWord false a] (some (statusDst d)) (!statusSel d || !sel32 a) false) always
    fun s x off ks vs zs =>
      let v := arg vs 0 % 2 ^ 16
      let ms := arg vs 0 / 2 ^ 16 % 2 ^ 16
      if v < 65 ∨ 70 < v ∨ ms < 1 ∨ 1000 < ms then s.trapKs x off ks zs .reservedField 0
      else
        s.finishWith x d off ks zs fun s =>
          let r := s.boost x.ci v ms
          (.known, r.1.code, r.2)

/-- Bytes that an instruction reads at an address of its context, piece by piece (R142). -/
def State.readVa (s : State) (x : Issue) : List (Nat × Nat) → Lane (List Byte) × State
  | [] => (.done [], s)
  | p :: ps =>
    match s.placeOf x.ci x.ctx (p.1 % 2 ^ 64) Need.read with
    | (.page l, s) => (.page (p.1 % 2 ^ 64) l Need.read, s)
    | (.trap t, s) => (.trap t (p.1 % 2 ^ 64), s)
    | (.ok q, s) =>
      match ((s.countRdc (dieOf x.ci) q.pa q.world q.attr 0).recall x.ci (q.pa / 128)).readPhys q.world q.pa p.2 with
      | (.error t, s) => (.trap t (p.1 % 2 ^ 64), s)
      | (.ok bs, s) =>
        match s.readVa x ps with
        | (.done cs, s) => (.done (bs ++ cs), s)
        | r => r

/-- A launch queue's configuration (R279). -/
def LQueue.en (q : LQueue) : Bool := q.cfg.getLsbD 31
def LQueue.prio (q : LQueue) : Nat := bits q.cfg.toNat 28 3
def LQueue.ctx (q : LQueue) : Nat := bits q.cfg.toNat 20 8
def LQueue.size (q : LQueue) : Nat := 2 ^ bits q.cfg.toNat 16 4
def LQueue.rsv (q : LQueue) : Nat := bits q.cfg.toNat 8 8
/-- Free slots of a queue: one slot stays empty. -/
def LQueue.free (q : LQueue) : Nat := q.size - 1 - (q.tail % q.size + q.size - q.head % q.size) % q.size

/-- `sysc` service 0 (R205, R280): a status known at once, a lane outcome that stops the instruction, or the
record that is to be stored. -/
inductive LaunchCheck where
  | status (st : Status)
  | stop (r : Lane Unit)
  | store (q : Nat) (record : List Byte) (place : Place)

/-- The checks of a device-side launch. -/
def State.launchCheck (s : State) (x : Issue) (va : Nat) : LaunchCheck × State :=
  match s.ctx? x.ctx with
  | none => (.status .refused, s)
  | some c =>
    let q := s.queue c.devq
    if !q.en || q.ctx != x.ctx then (.status .refused, s)
    else if q.free = 0 then (.status .busy, s)
    else
      match s.readVa x (cutSpan va 128) with
      | (.page a l n, s) => (.stop (.page a l n), s)
      | (.trap t a, s) => (.stop (.trap t a), s)
      | (.done bs, s) =>
        if !bit ((bs[0x19]?).getD 0).toNat 0 && q.free ≤ q.rsv then (.status .busy, s)
        else
          let at_ := (q.base.toNat + 128 * (q.tail % q.size)) % 2 ^ 64
          match s.placeOf x.ci x.ctx at_ Need.write with
          | (.page l, s) => (.stop (.page at_ l Need.write), s)
          | (.trap t, s) => (.stop (.trap t at_), s)
          | (.ok p, s) => (.store c.devq bs p, s)

/-- `sysc` service 1 (R205): the launch that an argument names. -/
def State.queryLaunch (s : State) (ctx v : Nat) : Status :=
  let mine := s.lch.grids.filter fun p => p.2.ctx == ctx
  let hit := if v < 2 ^ 24 then (mine.filter fun p => p.1 % 2 ^ 24 == v).getLast? else mine.find? fun p => p.1 == v
  match hit with
  | none => .refused
  | some p => match p.2.state with
    | .complete .. => .ok
    | _ => .busy

/-- `sysc` (R205). -/
def syscInstr (i : Instr) (d : Sel) (srcs : List Src) (ill : Bool) (s : State) : Host.Outcome State Fault Refusal :=
  s.runLow i (form7 srcs (some (statusDst d)) (!statusSel d || ill) false) always fun s x off ks vs zs =>
    let known (s : State) (st : Status) : State := s.finishWith x d off ks zs fun s => (.known, st.code, s)
    match arg vs 0 % 2 ^ 32 with
    | 0 =>
      match s.launchCheck x (arg vs 1) with
      | (.status st, s) => known s st
      | (.stop (.page a l n), s) => s.parkKs x ks a l n
      | (.stop (.trap t a), s) => s.trapKs x off ks zs t a
      | (.stop (.done _), s) => s
      | (.store q bs p, s) =>
        s.finishWith x d off ks zs fun s =>
          let slot := (s.queue q).tail % (s.queue q).size
          let r := (s.recall x.ci (p.pa / 128)).writePhys p.world p.pa bs
          (.launch q slot, 0, r.2.modQueue q fun l => { l with tail := (l.tail + 1) % l.size })
    | 1 => known s (s.queryLaunch x.ctx (arg vs 1))
    | _ => known s .refused

/-- R205 `sysc vD, vA, vB`. -/
def execSysc (d a b : Sel) (s : State) : Host.Outcome State Fault Refusal :=
  syscInstr (.sysc d a b) d [srcWord false a, src64 b] (!sel32 a || !sel64 b) s
/-- R205 `sysc vD, #service, vB`. -/
def execSyscImm (d a b : Sel) (imm : BitVec 30) (s : State) : Host.Outcome State Fault Refusal :=
  syscInstr (.syscImm d a b imm) d [srcImm false (imm32 imm) a, src64 b] (!sel32I a || !sel64 b) s

/-- The entries of a divergence stack that `tret` restores, bottom first (R207): shared ones while the frame
agrees with what was saved, private ones from the first change on. -/
def State.restoreDivs (s : State) (co k : Nat) : List (Nat × DWord × BitVec 32) → List (DWord × BitVec 32) → List Nat × State
  | saved, [] => ([], s.leaveMasks co k (saved.map Prod.fst))
  | [], f :: fs =>
    let id := ((find? s.cohorts co).map Cohort.fresh).getD 0
    let s := s.modCohort co fun c => { c with fresh := id + 1, divs := insert c.divs id ⟨f.1, [k]⟩ }
    let r := s.restoreDivs co k [] fs
    (id :: r.1, r.2)
  | v :: vs, f :: fs =>
    if v.2 = f then
      let r := s.restoreDivs co k vs fs
      (v.1 :: r.1, r.2)
    else
      let s := s.leaveMasks co k ((v :: vs).map Prod.fst)
      let id := ((find? s.cohorts co).map Cohort.fresh).getD 0
      let s := s.modCohort co fun c => { c with fresh := id + 1, divs := insert c.divs id ⟨f.1, [k]⟩ }
      let r := s.restoreDivs co k [] fs
      (id :: r.1, r.2)

/-- THE RETURN FROM A TRAP (R207): the fields of a frame as memory holds them are reloaded, the frame is
released, and TRAPH stays only where a frame remains. DESIGN CHOICE (log entry 68): a depth or WBASE that is larger than the
machine has (R26, R235) is taken as the largest. -/
def State.reload (s : State) (co k : Nat) (f : Frame) (bs : List Byte) : State :=
  let r (o n : Nat) : Nat := ofBytes ((bs.drop o).take n)
  let loop (i : Nat) : LoopEntry :=
    ⟨BitVec.ofNat 64 (r (0x30 + 24 * i) 8), BitVec.ofNat 64 (r (0x38 + 24 * i) 8), BitVec.ofNat 32 (r (0x40 + 24 * i) 4)⟩
  let framed := (List.range (min 32 (r 0x0B 1))).map fun i =>
    (BitVec.ofNat 64 (r (0x200 + 16 * i) 8), BitVec.ofNat 32 (r (0x208 + 16 * i) 4))
  let q := s.restoreDivs co k f.divs.reverse framed
  let pc : DWord := BitVec.ofNat 64 (r 0x00 8)
  let loops := ((List.range (min 4 (r 0x0D 1))).map loop).reverse
  let go := match f.edge with
    | some e => backEdge e pc loops
    | none => (pc, loops)
  let window := ((find? s.cohorts co).map fun c => nth c.hdr.window (((s.thread? co k).map Thread.role).getD 0) 0).getD 0
  q.2.modThread co k fun t =>
    let frames := t.frames.dropLast
    { t with
      pc := go.1, loops := go.2, divs := q.1.reverse, ovf := r 0x0C 1
      flags := BitVec.ofNat 5 (r 0x09 1), preds := BitVec.ofNat 8 (r 0x0A 1)
      mode := (BitVec.ofNat 32 (r 0x14 4) &&& 0x7C0F) ||| (if frames.isEmpty then 0 else 0x8000)
      wbase := 32 * min (r 0x0E 1) (window - 3), nlife := BitVec.ofNat 32 (r 0x20 4), frames := frames, latched := [], land := false }

/-- `tret` in one thread: its frame is read in the context. -/
def State.tretOne (s : State) (x : Issue) (c : Cohort) (k : Nat) : Lane Unit × State :=
  match (s.thread? x.co k).bind fun t => t.frames.getLast?.map fun f => (t, f) with
  | none => (.trap .privilege 0, s)
  | some (t, f) =>
    if !t.mode.getLsbD 15 then (.trap .privilege 0, s)
    else
      match s.frameAddr c k f.slot with
      | none => (.trap .accessFault 0, s)
      | some a =>
        match s.readVa x [(a, 1024)] with
        | (.page a l n, s) => (.page a l n, s)
        | (.trap t a, s) => (.trap t a, s)
        | (.done bs, s) => (.done (), s.reload x.co k f bs)

/-- R207 `tret`. -/
def execTret (s : State) : Host.Outcome State Fault Refusal :=
  s.control .tret none fun s x c =>
    let r := s.eachLane (fun s k (_ : Unit) => s.tretOne x c k) (x.ts.map fun k => (k, ()))
    let s := r.2.parkLanes x .thread r.1
    (s.settle x.co x.g ((doneLanes r.1).map Prod.fst)).takeTraps x.co x.g (trapLanes x r.1)

/-- Flushes that have not been performed are dropped: what they would write is not in memory when the grid ends (R208,
R275). -/
def Cohort.dropFlushes (c : Cohort) : Cohort :=
  { c with pends := filterMap c.pends fun _ p => match p.kind with
      | .flush _ => false
      | _ => true }

/-- Every thread of a grid is killed (R208, R242); its cohorts off their clusters are gone. -/
def State.killGrid (s : State) (seq : Nat) : State :=
  (keys (filterMap s.cohorts fun _ c => c.grid == seq)).foldl (fun s co =>
    match find? s.cohorts co with
    | none => s
    | some c =>
      if c.phase = .saved then { s with cohorts := erase s.cohorts co }
      else (s.leaveAll co (keys c.threads)).modCohort co fun c => { c.dropFlushes with phase := .ending, yielding := none }) s

/-- R208 `halt`. -/
def execHalt (a : Sel) (s : State) : Host.Outcome State Fault Refusal :=
  s.runLow (.halt a) (form7 [srcWord false a] none (!sel32 a) false) always fun s x _ _ vs _ =>
    match s.coh x with
    | none => s
    | some c =>
      (s.killGrid c.grid).modGrid c.grid fun g => match g.state with
        | .running => { g with state := .finished 1 (arg vs 0 % 2 ^ 8) }
        | _ => g

/-- A mark (R209): at most 16 of a cluster in any 10,000 ticks. -/
def State.mark (s : State) (c : Cohort) (v : Nat) : State :=
  let recent := (s.cluster c.ci).marks.filter fun t => decide (s.timer < t + 10000)
  if 16 ≤ recent.length then s.bump .cluTmarkDrop c.ci 1
  else
    let s := s.modCluster c.ci fun cl => { cl with marks := recent ++ [s.timer] }
    s.bbx 6 (dieOf c.ci) (clusterCode c.ci) c.world c.ctx (evData (toBytes v 4))

/-- `tmark` (R209). -/
def markInstr (i : Instr) (srcs : List Src) (ill : Bool) (s : State) : Host.Outcome State Fault Refusal :=
  s.runLow i (form7 srcs none ill false) always fun s x off ks vs zs =>
    match s.coh x with
    | none => s
    | some c => (s.mark c (arg vs 0 % 2 ^ 32)).close x (off ++ ks) zs

/-- R209 `tmark vA`. -/
def execTmark (a : Sel) (s : State) : Host.Outcome State Fault Refusal :=
  markInstr (.tmark a) [srcWord false a] (!sel32 a) s
/-- R209 `tmark #v`. -/
def execTmarkImm (a : Sel) (imm : BitVec 30) (s : State) : Host.Outcome State Fault Refusal :=
  markInstr (.tmarkImm a imm) [srcImm false (imm32 imm) a] (!sel32I a) s

/-- The source lines of a `bload` are translated (R210 step 1). -/
def State.bloadLines (s : State) (x : Issue) (va off : Nat) : Nat → Lane (List (Nat × Nat × Nat)) × State
  | 0 => (.done [], s)
  | n + 1 =>
    match s.placeOf x.ci x.ctx va Need.read with
    | (.page l, s) => (.page va l Need.read, s)
    | (.trap t, s) => (.trap t va, s)
    | (.ok p, s) =>
      match (s.countRdc (dieOf x.ci) p.pa p.world p.attr 0).bloadLines x ((va + 128) % 2 ^ 64) (off + 128) n with
      | (.done ls, s) => (.done ((p.pa, p.world, off) :: ls), s)
      | r => r

/-- R210 `bload`: the thread goes on once its checks pass. -/
def execBload (a b c : Sel) (barr : BitVec 4) (s : State) : Host.Outcome State Fault Refusal :=
  s.runLow (.bload a b c barr) (form7 [src64 a, srcWord false b, srcWord false c] none
      (!sel64 a || !sel32 b || !sel32 c) false) always
    fun s x off ks vs zs =>
      let va := arg vs 0
      let at_ := arg vs 1 % 2 ^ 32
      let n := arg vs 2 % 2 ^ 32
      if va % 128 ≠ 0 ∨ at_ % 128 ≠ 0 ∨ n % 128 ≠ 0 ∨ n < 128 ∨ 65536 < n then s.trapKs x off ks zs .reservedField 0
      else
        match s.bloadLines x va at_ (n / 128) with
        | (.page a l need, s) => ks.foldl (fun s k => s.parkOnPage x k a need .bload l) s
        | (.trap t a, s) => s.trapKs x off ks zs t a
        | (.done ls, s) =>
          if ((s.coh x).map fun c => decide (c.spadBytes < at_ + n)).getD true then s.trapKs x off ks zs .accessFault at_
          else
            let id := s.newId
            ({ id.2 with bloads := insert id.2.bloads id.1 ⟨x.co, x.ci, barr.toNat, ls⟩ }).close x (off ++ ks) zs

/-- R210 steps 3 and 4: a line of a `bload` lands and its bytes arrive, or it never does. -/
def execBloadLand (id line : Nat) (s : State) : Host.Outcome State Fault Refusal :=
  .next (match find? s.bloads id with
    | none => s
    | some b =>
      match b.left[line]?, find? s.cohorts b.cohort with
      | some l, some c =>
        let left := b.left.eraseIdx line
        let s := { s with bloads := if left.isEmpty then erase s.bloads id else insert s.bloads id { b with left := left } }
        match (s.recall b.ci (l.1 / 128)).readPhys l.2.1 l.1 128 with
        | (.error _, s) => s.testBroken b.cohort b.barr
        | (.ok bs, s) =>
          if (c.spadRange l.2.2 128 true).isSome then s.testBroken b.cohort b.barr
          else
            let s := s.spadPut b.cohort l.2.2 bs
            (s.arriveBar b.cohort b.barr 128).getD s
      | _, _ => { s with bloads := erase s.bloads id })

/-- R155, R168, R179, R184, R186, R203 to R205: a status destination becomes full. -/
def execStatusDestinationFull (co id : Nat) (s : State) : Host.Outcome State Fault Refusal :=
  .next (match (find? s.cohorts co).bind fun c => find? c.pends id with
    | none => s
    | some p =>
      match p.kind with
      | .qbind role q kind sig trapq target =>
        let r := s.bind co role q kind sig trapq target
        r.2.fillStatus co id r.1
      | .maccInit lines fmt =>
        let ctx := ((find? s.cohorts co).map Cohort.ctx).getD 0
        let r := s.maccInit ctx lines fmt
        r.2.fillStatus co id r.1
      | .noffer name lines =>
        let ks := ((find? s.cohorts co).map fun c => c.threadsOf p.issue).getD []
        let r := s.offer co ks name lines
        r.2.fillStatus co id r.1.code
      | .mland port off slots ba barr =>
        let r := s.register co port off slots ba barr
        r.2.fillStatus co id r.1.code
      | .known => s.fillStatus co id ((p.lanes.head?.map fun l => l.2).getD 0)
      | _ => s)

end Sys2Proof.Machine
end

