-- ==== Sys2Proof/Machine/Launch.lean ====
section
/-!
DEFINITION. Launch queues, acceptance, refusal, start and completion of launches (R41 to R43, R279 to R285,
R291).
-/

namespace Sys2Proof.Machine

/-- The world of a context, from the cached descriptor or from memory (R277). -/
def State.worldOfCtx (s : State) (n : Nat) : Option Nat :=
  match s.ctx? n with
  | some x => some x.world
  | none => (s.readCtx n).1.map Ctx.world

/-- R279, R300: a doorbell written through PF0, or through VF n for a queue of a context of world n. -/
def execLchQtailWrite (fn q : Nat) (v : BitVec 16) (s : State) : Host.Outcome State Fault Refusal :=
  .next (if fn = 0 ∨ s.worldOfCtx (s.queue q).ctx = some fn then s.modQueue q fun l => { l with tail := v.toNat } else s)

/-- A write of LCH_QCFG that leaves the register unchanged (R279, R361). -/
def badQcfg (s : State) (q : Nat) (v : Word) : Bool :=
  let logn := bits v.toNat 16 4
  v.getLsbD 31 &&
    (decide (logn < 4) || decide (12 < logn) || decide (2 ^ (logn - 1) < bits v.toNat 8 8) || (s.queue q).en || s.mc.boot != 0)

/-- R279: configures a launch queue. -/
def execLchQcfgWrite (q : Nat) (v : Word) (s : State) : Host.Outcome State Fault Refusal :=
  .next (if badQcfg s q v then s else s.modQueue q fun l => { l with cfg := v &&& 0xFFFFFF00 })

/-- What a read of the launcher in a context came to (R297). -/
inductive HubGot where
  | ok (bs : List Byte)
  /-- A replayable PAGE_FAULT: its page's faults are outstanding. -/
  | parked
  | failed
  deriving DecidableEq, Repr

/-- Bytes the launcher reads in a context, piece by piece; a PAGE_FAULT with REPLAY 0 ends the context. -/
def State.launcherRead (s : State) (ctx : Nat) : List (Nat × Nat) → HubGot × State
  | [] => (.ok [], s)
  | p :: ps =>
    if s.launcherWaits ctx (p.1 % 2 ^ 64) then (.parked, s) else
    match s.translateHub ctx (p.1 % 2 ^ 64) Need.read with
    | (.error (.page l), s) =>
      if ((s.ctx? ctx).map fun x => x.replay && x.live).getD false then
        (.parked, s.launcherParks ctx (p.1 % 2 ^ 64) Need.read l)
      else (.failed, s.endContext ctx 0x04)
    | (.error (.trap _), s) => (.failed, s)
    | (.ok q, s) =>
      if !s.worldOk ctx q.world then (.failed, s.postHubWorld q.world)
      else
        match s.readPhys q.world q.pa p.2 with
        | (.error _, s) => (.failed, s)
        | (.ok bs, s) =>
          match s.launcherRead ctx ps with
          | (.ok cs, s) => (.ok (bs ++ cs), s)
          | r => r

/-- A run of bytes cut at lines: address and length of each piece. -/
def spans (va n : Nat) : List (Nat × Nat) := (cutLines va (List.replicate n 0)).map fun p => (p.1, p.2.length)

/-- The number of `n` bytes at an offset of a byte string. -/
def fieldAt (bs : List Byte) (o n : Nat) : Nat := ofBytes ((bs.drop o).take n)

/-- The bytes of a range of a byte string are zero. -/
def zeroAt (bs : List Byte) (o n : Nat) : Bool := ((bs.drop o).take n).all (· == 0)

/-- A launch record (R281). -/
def recordOf (bs : List Byte) : Record :=
  let d (o : Nat) : DWord := BitVec.ofNat 64 (fieldAt bs o 8)
  let sig := bit (fieldAt bs 0x19 1) 0
  {
    header := d 0x00
    shape := [fieldAt bs 0x08 4, fieldAt bs 0x0C 4, fieldAt bs 0x10 4]
    cohsz := fieldAt bs 0x14 4
    banks := fieldAt bs 0x18 1
    sig := sig
    waits := [fieldAt bs 0x20 8, fieldAt bs 0x28 8, fieldAt bs 0x30 8, fieldAt bs 0x38 8]
    bmap := d 0x40
    cpl := d 0x48
    locpa := d 0x50
    trapa := d 0x58
    save := d 0x60
    clean := fieldAt bs 0x19 1 < 2 && zeroAt bs 0x1A 6 && zeroAt bs 0x68 24
      && (!sig || (zeroAt bs 0x00 25 && zeroAt bs 0x40 8 && zeroAt bs 0x50 24)) }

/-- Check 1 of R282, for a record of sequence number `seq`. -/
def Record.ok (r : Record) (seq : Nat) : Bool :=
  r.clean && r.cpl != 0 && r.cpl.toNat % 32 == 0 && (r.waits.all fun w => w == 0 || decide (w < seq)) &&
    (r.sig ||
      (r.header.toNat % 256 == 0 && (r.shape.all fun n => decide (1 ≤ n)) && decide (1 ≤ r.cohsz) && decide (1 ≤ r.banks)
        && decide (r.banks ≤ 32) && r.bmap != 0 && r.bmap.toNat % 128 == 0 && r.trapa.toNat % 1024 == 0
        && r.save.toNat % 4096 == 0))

/-- Status destinations that wait for the launcher's acceptance of a slot become full (R205). -/
def State.answerLaunch (s : State) (q slot v : Nat) : State :=
  s.cohorts.foldl (fun s p =>
    (keys (filterMap p.2.pends fun _ x => x.kind == .launch q slot)).foldl (fun s id => s.fillStatus p.1 id v) s) s

/-- A record is accepted (R280), or refused with a code (R282). -/
def State.accept (s : State) (q : Nat) (r : Record) (code : Option Nat) : State :=
  let lq := s.queue q
  let slot := lq.head % lq.size
  let seq := s.lch.seq
  let g : Grid := {
    queue := q, ctx := lq.ctx, world := ((s.ctx? lq.ctx).map Ctx.world).getD 0, prio := lq.prio, record := r
    state := match code with
      | some c => .finished 3 c
      | none => .waiting
    hdr := none, extents := [1, 1, 1], prologue := 0xFFFFFFFF, total := 0, ncoh := 0, placed := 0, retired := 0
    offered := [] }
  let s := { s with lch := { s.lch with seq := seq + 1, grids := insert s.lch.grids seq g } }
  let s := s.modQueue q fun l => { l with head := (slot + 1) % l.size }
  let st := if code.isSome then Status.refused else Status.ok
  s.answerLaunch q slot (st.code + seq % 2 ^ 24 * 2 ^ 8)

/-- Check 5 of R282: the context is valid and has not ended, and the TDI of a protected world is in RUN (R304). -/
def State.ctxRuns (s : State) (n : Nat) : Bool :=
  match s.ctx? n with
  | some x => x.live && (x.world == 0 || (s.tdi x.world).state == 2)
  | none => false

/-- R280: the launcher reads a record, assigns its sequence number and advances HEAD. A record that cannot be read
is refused: with CODE 5 where its context is no longer valid, and otherwise with CODE 1. -/
def execLaunchAccept (q : Nat) (s : State) : Host.Outcome State Fault Refusal :=
  .next (
    let lq := s.queue q
    if !lq.en || lq.head % lq.size == lq.tail % lq.size then s
    else
      let s := s.cacheCtx lq.ctx
      let va := lq.base.toNat + 128 * (lq.head % lq.size)
      match (if (s.ctx? lq.ctx).isNone then (.failed, s) else s.launcherRead lq.ctx (spans va 128)) with
      | (.parked, s) => s
      | (.failed, s) => s.accept q (recordOf []) (some (if s.ctxRuns lq.ctx then 1 else 5))
      | (.ok bs, s) =>
        let r := recordOf bs
        s.accept q r (if !s.ctxRuns lq.ctx then some 5 else if r.ok s.lch.seq then none else some 1))

/-- An offset inside a kernel's code (R43). -/
def inCode (size off : Nat) : Bool := off % 4 == 0 && decide (off < size)

/-- A header's own fields are valid in a context of a world (R41, R43). -/
def headerOk (bs : List Byte) (world : Nat) : Bool :=
  let f (o n : Nat) : Nat := fieldAt bs o n
  let crews := (List.range 4).map fun r => f (0x10 + r) 1
  let size := f 0x34 4
  let off (o : Nat) : Bool := f o 4 == 0xFFFFFFFF || inCode size (f o 4)
  f 0x00 4 == 0x415A4B48 && f 0x04 2 == 1 && decide (f 0x06 2 < 64) && (rndOf (bits (f 0x06 2) 2 3)).isSome
    && decide (1 ≤ f 0x08 1) && decide (f 0x08 1 ≤ 32) && decide (1 ≤ f 0x09 1) && decide (f 0x09 1 ≤ 3)
    && decide (f 0x0A 1 ≤ 7) && (f 0x0B 1 == 0xFF || (decide (f 0x0B 1 < 16) && f 0x0B 1 == world))
    && decide (16 ≤ f 0x0C 2) && decide (f 0x0C 2 ≤ 4095) && f 0x0E 2 == 0
    && decide (1 ≤ nth crews 0 0) && (crews.all fun n => decide (n ≤ 32)) && ((crews.drop 1).all fun n => decide (n ≤ 31))
    && decide (crews.foldl (· + ·) 0 ≤ 32)
    && ((List.range 4).all fun r =>
      if nth crews r 0 = 0 then f (0x14 + r) 1 == 0 && f (0x24 + 4 * r) 4 == 0xFFFFFFFF
      else decide (3 ≤ f (0x14 + r) 1) && decide (f (0x14 + r) 1 ≤ 8) && inCode size (f (0x24 + 4 * r) 4))
    && off 0x20 && size != 0 && size % 4 == 0
    && decide (f 0x40 2 ≤ 4096) && decide (f 0x42 2 ≤ 64) && decide (f 0x44 2 ≤ 4096) && f 0x46 2 == 0 && zeroAt bs 0x58 168

/-- The rows of a table. -/
def rowsOf (bs : List Byte) (n size : Nat) : List (List Byte) := (List.range n).map fun i => (bs.drop (size * i)).take size

/-- A row of the region table is valid (R42, R43), after a region that ends at `last`. -/
def regionsOk (size : Nat) : Nat → List (List Byte) → Bool
  | _, [] => true
  | last, r :: rs =>
    let kind := fieldAt r 8 1
    let stop := fieldAt r 4 4
    inCode size (fieldAt r 0 4) && stop % 4 == 0 && decide (fieldAt r 0 4 < stop) && decide (stop ≤ size)
      && decide (last ≤ fieldAt r 0 4) && decide (kind ≤ 1) && zeroAt r 9 3 && ((fieldAt r 12 4 == 0) == (kind == 0))
      && regionsOk size stop rs

/-- A row of the bucket table is valid. -/
def bucketOk (size : Nat) (r : List Byte) : Bool :=
  ((List.range 3).all fun d => decide (fieldAt r (8 * d) 4 ≤ fieldAt r (8 * d + 4) 4)) && zeroAt r 0x1C 4
    && (fieldAt r 0x18 4 == 0xFFFFFFFF || inCode size (fieldAt r 0x18 4))

/-- A row of the tile table is valid. -/
def tileOk (r : List Byte) : Bool :=
  decide (12 ≤ fieldAt r 2 1) && decide (fieldAt r 2 1 ≤ 16) && zeroAt r 3 1 && fieldAt r 4 4 != 0

/-- A header and its tables as the device keeps them. -/
def headerOf (bs rg bk tl : List Byte) : Header :=
  let f (o n : Nat) : Nat := fieldAt bs o n
  {
    rounding := bits (f 0x06 2) 2 3
    ftz := bit (f 0x06 2) 1
    compat := bit (f 0x06 2) 0
    divover := bit (f 0x06 2) 5
    divdepth := f 0x08 1
    template := f 0x09 1
    stage := f 0x0A 1
    world := f 0x0B 1
    binage := f 0x0C 2
    crews := (List.range 4).map fun r => f (0x10 + r) 1
    window := (List.range 4).map fun r => f (0x14 + r) 1
    codeBase := BitVec.ofNat 64 (f 0x18 8)
    prologue := f 0x20 4
    entries := (List.range 4).map fun r => f (0x24 + 4 * r) 4
    codeSize := f 0x34 4
    regions := (rowsOf rg (f 0x40 2) 16).map fun r => ⟨fieldAt r 0 4, fieldAt r 4 4, fieldAt r 8 1 == 1, fieldAt r 12 4⟩
    buckets := (rowsOf bk (f 0x42 2) 32).map fun r =>
      ⟨[fieldAt r 0 4, fieldAt r 8 4, fieldAt r 16 4], [fieldAt r 4 4, fieldAt r 12 4, fieldAt r 20 4], fieldAt r 0x18 4⟩
    tiles := (rowsOf tl (f 0x44 2) 8).map fun r => ⟨fieldAt r 0 2, fieldAt r 2 1, fieldAt r 4 4⟩ }

/-- A table of a header is read (R42): its address is a multiple of 8. -/
def State.readTable (s : State) (ctx va n : Nat) : HubGot × State :=
  if n = 0 then (.ok [], s) else if va % 8 ≠ 0 then (.failed, s) else s.launcherRead ctx (spans va n)

/-- What reading a header came to. -/
inductive HeaderGot where
  | ok (h : Header)
  | parked
  | bad
  deriving DecidableEq, Repr

/-- The header and its tables are read and checked (R43). -/
def State.readHeader (s : State) (ctx world va : Nat) : HeaderGot × State :=
  match s.launcherRead ctx (spans va 256) with
  | (.parked, s) => (.parked, s)
  | (.failed, s) => (.bad, s)
  | (.ok bs, s) =>
    if !headerOk bs world then (.bad, s)
    else
      let f (o n : Nat) : Nat := fieldAt bs o n
      match s.readTable ctx (f 0x38 8) (16 * f 0x40 2) with
      | (.parked, s) => (.parked, s)
      | (.failed, s) => (.bad, s)
      | (.ok rg, s) =>
        match s.readTable ctx (f 0x48 8) (32 * f 0x42 2) with
        | (.parked, s) => (.parked, s)
        | (.failed, s) => (.bad, s)
        | (.ok bk, s) =>
          match s.readTable ctx (f 0x50 8) (8 * f 0x44 2) with
          | (.parked, s) => (.parked, s)
          | (.failed, s) => (.bad, s)
          | (.ok tl, s) =>
            let good := regionsOk (f 0x34 4) 0 (rowsOf rg (f 0x40 2) 16) && (rowsOf bk (f 0x42 2) 32).all (bucketOk (f 0x34 4))
              && (rowsOf tl (f 0x44 2) 8).all tileOk
            (if good then .ok (headerOf bs rg bk tl) else .bad, s)

/-- The extents and the prologue offset of a shape (R285). -/
def Header.shapeFor (h : Header) (shape : List Nat) : Option (List Nat × Nat) :=
  if h.buckets.isEmpty then some (shape, h.prologue)
  else (h.buckets.find? fun b => (List.range 3).all fun d =>
      decide (nth b.lo d 0 ≤ nth shape d 0) && decide (nth shape d 0 ≤ nth b.hi d 0)).map fun b => (b.hi, b.prologue)

/-- A waiting grid is not run (R282), unless it has ended already. -/
def State.refuse (s : State) (seq code : Nat) : State :=
  s.modGrid seq fun g => if g.state = .waiting then { g with state := .finished 3 code } else g

/-- A grid's launch has completed (R283), with END other than 0 or not. -/
def State.waitState (s : State) (w : Nat) : Option Bool :=
  if w = 0 then some true
  else
    match (find? s.lch.grids w).map Grid.state with
    | some (.complete e _) => some (e == 0)
    | _ => none

/-- A grid whose waits are met starts (R282, R283, R285). -/
def State.startGrid (s : State) (seq : Nat) (g : Grid) : State :=
  if g.record.sig then s.modGrid seq fun g => { g with state := .finished 0 0 }
  else
    match s.readHeader g.ctx g.world g.record.header.toNat with
    | (.parked, s) => s
    | (.bad, s) => s.refuse seq 2
    | (.ok h, s) =>
      match h.shapeFor g.record.shape with
      | none => s.refuse seq 3
      | some (e, pro) =>
        let total := nth e 0 1 * nth e 1 1 * nth e 2 1
        if 2 ^ 32 < total then s.refuse seq 3
        else
          let h : Header := h
          s.modGrid seq fun g => { g with
            state := .running, hdr := some h, extents := e, prologue := pro, total := total
            ncoh := (total + g.record.cohsz - 1) / g.record.cohsz }

/-- R283: a record starts once every launch named in its WAITs has completed. -/
def execLaunchStart (seq : Nat) (s : State) : Host.Outcome State Fault Refusal :=
  .next (match find? s.lch.grids seq with
    | none => s
    | some g =>
      let ws := g.record.waits.map s.waitState
      if g.state ≠ .waiting ∨ ws.any Option.isNone then s
      else if ws.any (· == some false) then s.refuse seq 4
      else s.startGrid seq g)

/-- The bytes of a completion record (R284). -/
def cplBytes (e code seq timer : Nat) : List Byte :=
  toBytes (if e = 3 then Status.refused.code else Status.ok.code) 1 ++ toBytes e 1 ++ toBytes code 1 ++ toBytes 0 5
    ++ toBytes seq 8 ++ toBytes timer 8 ++ toBytes 1 8

/-- A grid has completed (R284). -/
def State.completeGrid (s : State) (seq e code : Nat) : State :=
  s.modGrid seq fun g => { g with state := .complete e code }

/-- R284: with no cohort of the grid left, its completion record is written; the retirement of a producing grid
closes its tensors (R269). A record whose CPL is not valid has none. -/
def execGridComplete (seq : Nat) (s : State) : Host.Outcome State Fault Refusal :=
  .next (match find? s.lch.grids seq with
    | none => s
    | some g =>
      match g.state with
      | .finished e code =>
        if s.cohorts.any fun p => p.2.grid == seq then s
        else if g.record.cpl = 0 ∨ g.record.cpl.toNat % 32 ≠ 0 then (s.completeGrid seq e code).retireProducer seq
        else
          match s.launcherWrite g.ctx g.record.cpl.toNat 32 false fun _ => cplBytes e code seq s.timer with
          | (.parked _, s) => s
          | (.ended, s) => (s.completeGrid seq 2 0x06).retireProducer seq
          | (.ok, s) => (s.completeGrid seq e code).retireProducer seq
      | _ => s)

end Sys2Proof.Machine
end

