-- ==== Sys2Proof/Machine/Place.lean ====
section
/-!
DEFINITION. Placement, retirement, pre-emption and restart of cohorts (R197, R231 to R238, R269, R283, R286 to
R292).
-/

namespace Sys2Proof.Machine

/-- The sub-partitions of a cluster that belong to a world, in ascending number (R286). -/
def State.homesOf (s : State) (ci world : Nat) : List Nat :=
  (List.range 4).filter fun sp => bits (s.cluster ci).spWorld.toNat (4 * sp) 4 == world

/-- The cohorts that hold resources of a cluster. -/
def State.residents (s : State) (ci : Nat) : FMap Cohort := s.cohorts.filter fun p => p.2.ci == ci && p.2.phase != .saved

/-- Crews resident on a sub-partition (R238). -/
def State.crewsOn (s : State) (ci sp : Nat) : Nat :=
  (s.residents ci).foldl (fun n p => n + (p.2.crews.filter fun w => w.2.sp == sp).length) 0

/-- Scratchpad banks in use (R232). -/
def State.banksUsed (s : State) (ci : Nat) : List Nat := (s.residents ci).flatMap fun p => p.2.banks

/-- Template entries in use (R234). -/
def State.entriesUsed (s : State) (ci : Nat) : List Nat :=
  (s.residents ci).flatMap fun p => (List.range p.2.hdr.template).map (p.2.entry + ·)

/-- Where `n` consecutive entries of a cluster's template store are free (R234). -/
def State.entryRuns (s : State) (ci n : Nat) : List Nat :=
  let used := s.entriesUsed ci
  (List.range 16).filter fun i => decide (i + n ≤ 16) && (List.range n).all fun j => !used.contains (i + j)

/-- Crews of a header. -/
def Header.crewCount (h : Header) : Nat := h.crews.foldl (· + ·) 0

/-- Divergence registers of a crew (R235). -/
def Header.divRegs (h : Header) : Nat := (h.divdepth + 1) / 2

/-- Crews out of `n` whose home is place `i` of a home list of length `len` (R238). -/
def crewShare (n len i : Nat) : Nat := (n + len - 1 - i) / len

/-- A cluster call names a cluster and has not ended (R362, R363). -/
def State.spareCalled (s : State) (ci : Nat) : Bool :=
  let v := s.mc.spareCall.toNat
  bit v 31 && !bit v 30 && 144 * bits v 28 2 + 9 * (bits v 0 7 / 8) + bits v 0 7 % 8 == ci

/-- A cluster is eligible for a cohort of a world (R286, R348, R363). -/
def State.eligible (s : State) (world banks : Nat) (h : Header) (ci : Nat) : Bool :=
  let homes := s.homesOf ci world
  s.isCluster ci && !homes.isEmpty && (s.wunit (s.clusterUnit ci)).state == 0 && !s.spareCalled ci
    && decide ((s.banksUsed ci).length + banks ≤ 32) && !(s.entryRuns ci h.template).isEmpty
    && (List.range homes.length).all fun i =>
      let sp := nth homes i 0
      let n := crewShare h.crewCount homes.length i
      decide (s.crewsOn ci sp + n ≤ 16) && decide (n * h.divRegs ≤ s.poolFree ci sp)

/-- Every cluster of the package. -/
def State.allClusters (s : State) : List Nat := List.range (144 * s.dieCount)

/-- The pre-empted cohort of a grid that is placed next: the lowest cohort number (R283). -/
def State.savedOf (s : State) (seq : Nat) : Option (Nat × Cohort) :=
  (s.cohorts.filter fun p => p.2.grid == seq && p.2.phase == .saved).foldl (fun o p =>
    match o with
    | some q => if p.2.coh < q.2.coh then some p else some q
    | none => some p) none

/-- A grid has still to place a cohort, or to start (R283). -/
def State.unplaced (s : State) (seq : Nat) (g : Grid) : Bool :=
  match g.state with
  | .waiting => true
  | .running => decide (g.placed < g.ncoh) || (s.savedOf seq).isSome
  | _ => false

/-- Clusters eligible for the next cohort of a running grid. -/
def State.choices? (s : State) (g : Grid) : List Nat :=
  match g.hdr with
  | some h => s.allClusters.filter fun ci => s.eligible g.world g.record.banks h ci
  | none => []

/-- The grids that may place a cohort: the first of each queue that has still to (R283), where it has started and
finds an eligible cluster. -/
def State.servable (s : State) : List (Nat × Grid) :=
  s.lch.grids.filter fun p =>
    p.2.state == .running && s.unplaced p.1 p.2
      && !(s.lch.grids.any fun r => r.2.queue == p.2.queue && decide (r.1 < p.1) && s.unplaced r.1 r.2)
      && !(s.choices? p.2).isEmpty

/-- The grid that is served next (R283): the highest priority, and among equal ones the next queue in turn. -/
def State.nextServed (s : State) : Option Nat :=
  let l := s.servable
  let top := l.foldl (fun n p => max n p.2.prio) 0
  let l := l.filter fun p => p.2.prio == top
  let later := l.filter fun p => decide (s.lch.turn < p.2.queue)
  let l := if later.isEmpty then l else later
  let q := l.foldl (fun n p => min n p.2.queue) 256
  (l.find? fun p => p.2.queue == q).map Prod.fst

/-- The die that homes a locality hint (R287). -/
def State.hintDie (s : State) (g : Grid) : Option Nat × State :=
  if g.record.locpa = 0 then (none, s)
  else
    match s.translateHub g.ctx g.record.locpa.toNat Need.nothing with
    | (.ok p, s) => (if s.isDevice p.pa then some (p.pa / dieBytes) else none, s)
    | (.error _, s) => (none, s)

/-- Keys 2 to 4 of R287: a cluster is preferred to another. -/
def State.prefers (s : State) (hint : Option Nat) (a b : Nat) : Bool :=
  let w (ci : Nat) : Nat := (s.wunit (s.clusterUnit ci)).widx
  let far (ci : Nat) : Nat := if hint = none ∨ hint = some (dieOf ci) then 0 else 1
  if w a ≠ w b then decide (w a < w b) else if far a ≠ far b then decide (far a < far b) else decide (a < b)

/-- The cluster a cohort is placed on (R287): a pre-empted one's previous cluster first. -/
def State.pickCluster (s : State) (hint prev : Option Nat) (l : List Nat) : Option Nat :=
  match prev with
  | some p => if l.contains p then some p else
      l.foldl (fun o ci => match o with | some b => if s.prefers hint ci b then some ci else some b | none => some ci) none
  | none => l.foldl (fun o ci => match o with | some b => if s.prefers hint ci b then some ci else some b | none => some ci) none

/-- Bytes the launcher writes in a context, piece by piece. -/
def State.launcherFill (s : State) (ctx : Nat) : List (Nat × List Byte) → HubDone × State
  | [] => (.ok, s)
  | p :: ps =>
    match s.launcherWrite ctx p.1 p.2.length false fun _ => p.2 with
    | (.ok, s) => s.launcherFill ctx ps
    | r => r

/-- A byte of the bitmap of a role before the first cohort is placed (R291): the padding bits of a role with
crews. -/
def Grid.bitmapByte (g : Grid) (h : Header) (role i : Nat) : Byte :=
  BitVec.ofNat 8 ((List.range 8).foldl (fun n b =>
    if nth h.crews role 0 ≠ 0 ∧ 8 * i + b < g.total ∧ g.padding (8 * i + b) then n + 2 ^ b else n) 0)

/-- The four bitmaps of a grid, line by line (R291). -/
def Grid.bitmapLines (g : Grid) (h : Header) : List (Nat × List Byte) :=
  let lines := (g.total + 1023) / 1024
  (List.range 4).flatMap fun r => (List.range lines).map fun i =>
    ((g.record.bmap.toNat + 128 * (r * lines + i)) % 2 ^ 64, (List.range 128).map fun j => g.bitmapByte h r (128 * i + j))

/-- A routing entry that the launcher installs (R268, R269). -/
def installedEnt (t : TileEntry) (stage world die : Nat) : BitVec 128 :=
  BitVec.ofNat 128 (t.tid * 2 ^ 112 + 2 ^ 111 + die % 4 * 2 ^ 109 + stage % 8 * 2 ^ 106 + world % 16 * 2 ^ 102
    + (t.log - 12) % 8 * 2 ^ 99 + t.life * 2 ^ 64 + 32 * 2 ^ 32)

/-- Entries for the tensors of a tile table that have none (R269), in entries of the device's choice. -/
def State.installTiles (s : State) (g : Grid) (h : Header) (die : Nat) : State :=
  h.tiles.foldl (fun s t =>
    match s.nrt? t.tid with
    | some _ => s
    | none =>
      let free := (List.range 4096).filter fun i => !((find? s.names.ents i).map nrtValid).getD false
      match free with
      | [] => s
      | i :: _ =>
        let r := s.choose free.length
        let i := nth free r.1 i
        let s := r.2.setEnt i (some (installedEnt t h.stage g.world die))
        { s with names := { s.names with owners := insert s.names.owners i g.ctx } }) s

/-- Some of a list, in its order, chosen by the device. -/
def State.pickSome (s : State) (l : List Nat) : Nat → List Nat × State
  | 0 => ([], s)
  | n + 1 =>
    match l with
    | [] => ([], s)
    | a :: _ =>
      let r := if l.length ≤ n + 1 then (0, s) else s.choose l.length
      let b := nth l r.1 a
      let q := r.2.pickSome (l.filter (· != b)) n
      (b :: q.1, q.2)

/-- Divergence registers are taken from the banks of a sub-partition that have one (R235). -/
def State.pickDivs (s : State) (ci sp : Nat) (got : List Nat) : Nat → List Nat × State
  | 0 => (got, s)
  | n + 1 =>
    let free := (List.range 4).filter fun b => decide (got.count b < s.bankFree ci sp b)
    match free with
    | [] => (got, s)
    | b :: _ =>
      let r := s.choose free.length
      r.2.pickDivs ci sp (nth free r.1 b :: got) n

/-- The role of a crew (R41). -/
def Header.roleOfCrew (h : Header) (w : Nat) : Nat :=
  ((List.range 4).find? fun r => decide (h.firstCrew r ≤ w) && decide (w < h.firstCrew r + nth h.crews r 0)).getD 0

/-- Crews of a cohort take their home sub-partitions and divergence registers (R235, R238). -/
def State.seatCrews (s : State) (co : Nat) (ws : List Nat) : State :=
  match find? s.cohorts co with
  | none => s
  | some c =>
    ws.foldl (fun s w =>
      let sp := nth c.homes (w % c.homes.length) 0
      let r := s.pickDivs c.ci sp [] c.hdr.divRegs
      r.2.modCohort co fun c => { c with crews := insert c.crews w ⟨sp, c.hdr.roleOfCrew w, [], r.1⟩ }) s

/-- Banks are given to a world (R306), with nothing in them (R232; log entry 4). -/
def State.clearBanks (s : State) (ci world : Nat) (banks : List Nat) : State :=
  s.modCluster ci fun cl => { cl with
    scratch := cl.scratch.filter fun x => !banks.contains (x.1 / bankBytes)
    scratchPoison := cl.scratchPoison.filter fun n => !banks.contains (128 * n / bankBytes)
    spadWorld := banks.foldl (fun v b => BitVec.ofNat 128 (setBits v.toNat (4 * b) 4 world)) cl.spadWorld }

/-- The caches that a cluster keeps for a grid are emptied when it takes a cohort of another one (R145, R148). -/
def State.freshCaches (s : State) (ci seq : Nat) : State :=
  s.modCluster ci fun cl => if cl.ccGrid = seq then cl else { cl with ccGrid := seq, ccache := [], nc := [] }

/-- A run of `n` free entries of the template store, of the device's choice (R234). -/
def State.pickEntry (s : State) (ci n : Nat) : Nat × State :=
  let l := s.entryRuns ci n
  let r := s.choose l.length
  (nth l r.1 0, r.2)

/-- A cohort as placement makes it (R231 to R234). -/
def newCohort (g : Grid) (h : Header) (seq coh ci entry : Nat) (homes banks : List Nat) (placed : Nat) : Cohort where
  grid := seq
  coh := coh
  ctx := g.ctx
  world := g.world
  ci := ci
  phase := .prologue
  homes := homes
  banks := banks
  hdr := h
  placed := placed
  depth := 1
  entry := entry
  ewes := List.replicate h.template Ewe.empty
  levels := []
  s := []
  threads := []
  crews := []
  divs := []
  serials := []
  groups := []
  bars := []
  convs := []
  mds := []
  queues := []
  streams := []
  pends := []
  owned := 0
  high := 0
  yielding := none
  saved := []
  savedPoison := []
  savedEvents := []
  savedOuts := []
  kept := []
  fresh := 1

/-- The prologue starts (R231, R233), or lambs are stamped over the empty ewe. -/
def State.beginCohort (s : State) (co prologue : Nat) : State :=
  if prologue = 0xFFFFFFFF then s.stamp co
  else
    match find? s.cohorts co with
    | none => s
    | some c =>
      let t := { c.newThread 0 0 with pc := c.hdr.codeBase + BitVec.ofNat 64 prologue }
      (s.setCohort co { c with threads := [(0, { t with capture := c.captureOf t })] }).groupUp co [0]

/-- A new cohort takes its resources on a cluster (R231, R234, R235, R238, R306) and begins. -/
def State.placeNew (s : State) (seq ci : Nat) (g : Grid) (h : Header) : State :=
  let free := (List.range 32).filter fun b => !(s.banksUsed ci).contains b
  let r := s.pickSome free g.record.banks
  let s := (r.2.clearBanks ci g.world r.1).freshCaches ci seq
  let id := s.newId
  let e := id.2.pickEntry ci h.template
  let c := newCohort g h seq g.placed ci e.1 (s.homesOf ci g.world) r.1 id.1
  let s := (e.2.setCohort id.1 c).seatCrews id.1 (List.range h.crewCount)
  let s := s.modGrid seq fun g => { g with placed := g.placed + 1 }
  s.beginCohort id.1 g.prologue

/-- A divergence entry of a capture has the thread among its members again, where it is still there or not (R101,
R242). -/
def Cohort.rejoin (c : Cohort) (k : Nat) (e : Nat × DWord) : Cohort :=
  let x : DivEntry := match find? c.divs e.1 with
    | some d => if d.members.contains k then d else { d with members := k :: d.members }
    | none => ⟨e.2, [k]⟩
  { c with divs := insert c.divs e.1 x }

/-- A restarted binding owns its queue of the cluster again, where no other binding does: with it come the records
saved with the cohort (R166, R290). -/
def State.claim (s : State) (co role q : Nat) (b : QBind) : State :=
  match find? s.cohorts co with
  | none => s
  | some c =>
    let take (p : Port) (items : List Lanes) : Port :=
      if p.owner.isNone then ⟨some ⟨co, role, q⟩, p.items ++ items⟩ else p
    let i := b.target.toNat
    match b.kind with
    | 2 => s.modCluster c.ci fun cl =>
        { cl with outs := setNth cl.outs (i % 4) (take (nth cl.outs (i % 4) Port.reset) (findD c.savedOuts (i % 4) [])) }
    | 6 => s.modCluster c.ci fun cl => { cl with ports := setNth cl.ports (i % 8) (take (nth cl.ports (i % 8) Port.reset) []) }
    | 8 => s.modCluster c.ci fun cl => { cl with events := take cl.events c.savedEvents }
    | _ => s

/-- A queue register returns to its captured binding (R166): every load-completion binding is emptied, and another
one that has not been replaced keeps its entries. -/
def State.rebind (s : State) (co role q : Nat) (cap : Option QBind) : State :=
  let now := (find? s.cohorts co).bind fun c => c.qbind? role q
  let same : Bool := match now, cap with
    | some a, some b => a.serial == b.serial
    | _, _ => false
  let s := if same then s else s.unbind co role q
  match cap with
  | none => s
  | some b =>
    let es := if b.kind = 3 ∨ !same then [] else (now.map QBind.entries).getD []
    let b' : QBind := { b with entries := es }
    (s.modCohort co fun c => { c with queues := insert c.queues (8 * role + q) b' }).claim co role q b

/-- The bindings and stream positions of a role return to a capture of its restarted threads (R166); where these
differ, to one of the device's choice. -/
def State.restoreRole (s : State) (co role : Nat) (caps : List Capture) : State :=
  match (caps.map fun x => (x.queues, x.streams)).eraseDups with
  | [] => s
  | x :: xs =>
    let r := s.choose (xs.length + 1)
    let x := nth (x :: xs) r.1 x
    let s := (List.range 8).foldl (fun s q => s.rebind co role q (find? x.1 (8 * role + q))) r.2
    s.modCohort co fun c =>
      let m := x.2.foldl (fun m p => insert m p.1 p.2) (c.streams.filter fun p => p.1 / 4 != role)
      { c with streams := m }

/-- Arrivals and signatures that a restart absorbs (R290): those made since the region began. -/
def Thread.owedActs (t : Thread) : FMap Nat :=
  t.absorb.foldl (fun m p => insert m p.1 (findD m p.1 0 + p.2)) t.acts

/-- A thread at its restart point, and in its entry region until its first `region` (R197, R288, R290). -/
def Cohort.restarted (c : Cohort) (t : Thread) : Thread :=
  let p := t.capture
  { t with
    pc := p.pc, wbase := p.wbase, mode := p.mode, nlife := p.nlife, loops := p.loops, divs := p.divs.map Prod.fst, ovf := p.ovf
    preds := (nth c.ewes (t.level - 1) Ewe.empty).p, flags := 0, acts := [], absorb := t.owedActs, latched := []
    region := .entry, again := t.again || t.region != .entry
    land := false, due := none, frames := if p.mode.getLsbD 15 then t.frames else [] }

/-- A region restart of a cohort frees every physical register of its crews, so that every vector register reads from the
ewe (R191, R197). -/
def Cohort.dropRegs (c : Cohort) : Cohort :=
  { c with crews := mapVals c.crews fun _ crew => { crew with regs := [] } }

/-- A REGION RESTART of some threads of a cohort (R197, R290). DESIGN CHOICE (log entry 72): those of one crew that restart at
one address are one group. -/
def State.restart (s : State) (co : Nat) (ks : List Nat) : State :=
  match find? s.cohorts co with
  | none => s
  | some c =>
    let cap (k : Nat) : Option Capture := (c.thread? k).map Thread.capture
    let s := s.modCohort co Cohort.dropRegs
    let s := ks.foldl (fun s k => if ((cap k).map Capture.ovf).getD 0 = 0 then s.leaveSerial co k else s) s
    let s := ks.foldl (fun s k =>
      let frames := (c.thread? k).map fun t => if t.capture.mode.getLsbD 15 then t.frames else []
      let kept := (((cap k).map fun p => p.divs.map Prod.fst).getD []) ++
        ((frames.getD []).flatMap fun f => f.divs.map Prod.fst)
      let now := ((c.thread? k).map Thread.masks).getD []
      s.leaveMasks co k (now.filter fun id => !kept.contains id)) s
    let s := ks.foldl (fun s k =>
      s.modCohort co fun c => (((cap k).map Capture.divs).getD []).foldl (fun c e => c.rejoin k e) c) s
    let roleAt (k : Nat) : Nat := ((c.thread? k).map Thread.role).getD 0
    let s := (List.range 4).foldl (fun s r =>
      s.restoreRole co r ((ks.filter fun k => roleAt k == r).filterMap cap)) s
    let again (c : Cohort) (p : Nat × Thread) : Nat × Thread := if ks.contains p.1 then (p.1, c.restarted p.2) else p
    let s := s.modCohort co fun c => let ts := c.threads.map fun p => again c p; { c with threads := ts }
    let s := ((ks.map (· / 32)).eraseDups).foldl (fun s w => s.regroup co (byLane (ks.filter fun k => k / 32 == w))) s
    s.wakeParked c.ci

/-- A thread that has stopped during a yield (R289). -/
def Run.isStopped : Run → Bool
  | .stopped _ => true
  | _ => false

/-- Threads of a cohort in a state that restarts (R289, R290). -/
def Cohort.halted (c : Cohort) (stopped : Bool) : List Nat :=
  keys (filterMap c.threads fun _ t => t.run == .discarded || (stopped && t.run.isStopped))

/-- A saved cohort takes its resources on a cluster again, a crew whose last thread has retired none (R232), and its
threads restart (R290). -/
def State.placeSaved (s : State) (seq ci co : Nat) (c : Cohort) : State :=
  let free := (List.range 32).filter fun b => !(s.banksUsed ci).contains b
  let r := s.pickSome free c.banks.length
  let s := (r.2.clearBanks ci c.world r.1).freshCaches ci seq
  let id := s.newId
  let e := id.2.pickEntry ci c.hdr.template
  let c' : Cohort := { c with
    entry := e.1, ci := ci, homes := s.homesOf ci c.world, banks := r.1, placed := id.1, kept := []
    phase := if c.levels.isEmpty then .prologue else .flock }
  let live := if c.levels.isEmpty then List.range c.hdr.crewCount else ((keys c.threads).map (· / 32)).eraseDups
  let s := (e.2.setCohort co c').seatCrews co live
  let s := s.modCluster ci fun cl => { cl with
    scratch := c.saved.foldl (fun (m : Memory) x => m.set (c'.spadAt x.1) x.2) cl.scratch
    scratchPoison := c.savedPoison.map (fun n => c'.spadAt (128 * n) / 128) ++ cl.scratchPoison }
  let s := s.restart co (c'.halted true)
  s.modCohort co fun c => { c with saved := [], savedPoison := [], savedEvents := [], savedOuts := [] }

/-- A grid that has placed all its cohorts ends its queue's turn (R283). -/
def State.endTurn (s : State) (seq : Nat) : State :=
  match find? s.lch.grids seq with
  | some g => if s.unplaced seq g then s else { s with lch := { s.lch with turn := g.queue } }
  | none => s

/-- R283, R286, R287: the launcher places the next cohort of a grid, where it is that grid's turn. Before the first
cohort the bitmaps are written (R291), and with it come the routing entries of the tile table (R269). -/
def execPlaceCohort (seq : Nat) (s : State) : Host.Outcome State Fault Refusal :=
  .next (match find? s.lch.grids seq with
    | none => s
    | some g =>
      match g.hdr with
      | none => s
      | some h =>
        if s.nextServed ≠ some seq then s
        else
          let first := g.placed = 0
          match (if first then s.launcherFill g.ctx (g.bitmapLines h) else (HubDone.ok, s)) with
          | (.parked _, s) => s
          | (.ended, s) => s
          | (.ok, s) =>
            let d := s.hintDie g
            let s := d.2
            match s.savedOf seq with
            | some (co, c) =>
              match s.pickCluster d.1 (some c.ci) (s.choices? g) with
              | some ci => (s.placeSaved seq ci co c).endTurn seq
              | none => s
            | none =>
              match s.pickCluster d.1 none (s.choices? g) with
              | none => s
              | some ci =>
                let s := if first then s.installTiles g h (dieOf ci) else s
                (s.placeNew seq ci g h).endTurn seq)

/-- Work that a cohort has given out is done: commands, matrix operations, and flushes, offers and initialisations
that have not taken effect (R231, R289). -/
def State.workDone (s : State) (co : Nat) : Bool :=
  !(s.cmds.any fun p => p.2.cohort == co) && !(s.late.any fun p => p.2.cohort == co)
    && !(s.clusters.any fun p => p.2.mxu.any fun q => q.any fun o => o.cohort == co)
    && !(((find? s.cohorts co).map fun c => c.pends.any fun p => match p.2.kind with
      | .flush _ | .noffer .. | .maccInit .. => true
      | _ => false).getD false)

/-- R231, R232: an ending cohort retires, and its cluster's resources are released; the last cohort of a grid ends
it. -/
def execCohortRetire (co : Nat) (s : State) : Host.Outcome State Fault Refusal :=
  .next (match find? s.cohorts co with
    | none => s
    | some c =>
      if c.phase ≠ .ending ∨ !c.threads.isEmpty ∨ !s.workDone co then s
      else
        let s := (s.endBindings co).withdraw co fun _ => true
        let s := { s with
          bloads := s.bloads.filter fun p => p.2.cohort != co
          cohorts := erase s.cohorts co }
        let s := s.modGrid c.grid fun g =>
          let n := g.retired + 1
          match g.state with
          | .running => { g with retired := n, state := if n = g.ncoh then .finished 0 0 else .running }
          | _ => { g with retired := n }
        s.wakeParked c.ci)

/-- A cohort may be asked to yield for a grid (R289): resident, of a lower priority, and not one that keeps its
place. A cluster call asks every cohort of its cluster, for grid 0 (R363). -/
def State.mayAsk (s : State) (seq : Nat) (c : Cohort) : Bool :=
  (c.phase == .prologue || c.phase == .flock) && c.yielding.isNone &&
    match find? s.lch.grids seq, find? s.lch.grids c.grid with
    | some g, some v => decide (v.prio < g.prio) && !c.kept.contains seq
    | _, _ => false

/-- The state with some cohorts off their clusters, to test what would become eligible. -/
def State.without (s : State) (cos : List Nat) : State := { s with cohorts := s.cohorts.filter fun p => !cos.contains p.1 }

/-- Victims that may be asked now for a grid that finds no eligible cluster (R289, R292): on a cluster that would
become eligible without them. -/
def State.victims (s : State) (seq : Nat) : List (Nat × Cohort) :=
  match find? s.lch.grids seq with
  | none => []
  | some g =>
    match g.hdr with
    | none => []
    | some h =>
      if g.state ≠ .running ∨ !s.unplaced seq g ∨ !(s.choices? g).isEmpty then []
      else
        let asked := s.cohorts.filter fun p => (p.2.yielding.map Yield.seq) == some seq
        let may := s.cohorts.filter fun p => s.mayAsk seq p.2
        let fits (l : FMap Cohort) (ci : Nat) : Bool :=
          (s.without (keys (l.filter fun p => p.2.ci == ci))).eligible g.world g.record.banks h ci
        match asked with
        | [] => may.filter fun p => fits may p.2.ci
        | a :: _ =>
          if fits asked a.2.ci then []
          else may.filter fun p => p.2.ci == a.2.ci && fits (asked ++ may) p.2.ci

/-- The order of picking (R289): the lowest priority first, then the most recently placed. -/
def State.yieldsFirst (s : State) (a b : Cohort) : Bool :=
  let pr (c : Cohort) : Nat := ((find? s.lch.grids c.grid).map Grid.prio).getD 0
  if pr a ≠ pr b then decide (pr a < pr b) else decide (b.placed < a.placed)

/-- Threads are discarded (R289 step 1): their outstanding loads are dropped, and they leave their groups and bins.
Their masks stay until the restart (R242). -/
def State.discard (s : State) (co : Nat) (ks : List Nat) : State :=
  let s := s.modThreads co ks fun _ t => { t with run := .discarded }
  let s := s.modCohort co fun c => (ks.foldl (fun (c : Cohort) k => c.dropPends k) c).tidy
  s.tidyBins co

/-- Threads that a request to yield discards at once: those in an idempotent region. A parent in a nested `freeze`
and a lamb that waits at `next` stay where they are (R290). -/
def Cohort.discardable (c : Cohort) : List Nat :=
  keys (filterMap c.threads fun _ t =>
    match t.run, t.region with
    | .nested _, _ | .atNext _, _ => false
    | _, .inside _ drain _ => !drain
    | _, .entry => true)

/-- R289: a victim is asked to yield. -/
def execYieldRequest (co seq : Nat) (s : State) : Host.Outcome State Fault Refusal :=
  .next (match find? s.cohorts co with
    | none => s
    | some c =>
      let ok : Bool :=
        if seq = 0 then s.spareCalled c.ci && c.yielding.isNone && (c.phase == .prologue || c.phase == .flock)
        else
          let l := s.victims seq
          (l.any fun p => p.1 == co) && !(l.any fun p => s.yieldsFirst p.2 c)
      if !ok then s
      else
        let s := s.setCohort co { c with yielding := some ⟨s.timer, seq⟩ }
        s.discard co c.discardable)

/-- A thread in a drain region that has not stopped (R289 step 3), and its limit. -/
def Thread.drainLimit (t : Thread) : Option Nat :=
  match t.region, t.run with
  | _, .stopped _ | _, .discarded | _, .nested _ | _, .atNext _ => none
  | .inside _ true n, _ => some n
  | _, _ => none

/-- Threads of a yielding cohort that are past their limits (R289 step 3). -/
def Cohort.overdue (c : Cohort) (y : Yield) (now : Nat) : List Nat :=
  keys (filterMap c.threads fun _ t => match t.drainLimit with
    | some n => decide (y.t0 + n ≤ now)
    | none => false)

/-- What a thread shares with those that trap with it as one group (R6, R239): its group, its bin, or the wait that it
makes with others of its group; a thread of a serial run is alone (R94). -/
def Cohort.partyOf (c : Cohort) (k : Nat) : Option (Run × List Nat) :=
  (c.thread? k).map fun t => match t.run with
    | .join next => (.join next, t.divs.take 1)
    | .serialWait run => (.serialWait run, [k])
    | .serialDone run next => (.serialDone run next, [k])
    | .binned b => (.binned b, [])
    | r => (.group r.origin, [])

/-- Some threads still wait for the end of an instruction that they have issued, other than what a trap brings with it
(R289 step 3). -/
def Cohort.busyWith (c : Cohort) (ks : List Nat) : Bool :=
  c.pends.any fun p => !p.2.kind.long && !p.2.kind.loaded && p.2.lanes.any fun l => ks.contains l.1

/-- R289 step 3: a drain thread past its limit raises REGION_VIOLATION, with every other that is, once the instructions
they have issued are complete; the yield is withdrawn, and the threads that were discarded restart at once. -/
def execDrainLimitExpiry (co key : Nat) (s : State) : Host.Outcome State Fault Refusal :=
  .next (match find? s.cohorts co with
    | none => s
    | some c =>
      match c.yielding with
      | none => s
      | some y =>
        let due := c.overdue y s.timer
        if !due.contains key ∨ c.busyWith due then s
        else
          let s := s.bump .lchDrainOver 0 1
          let s := s.setCohort co { c with yielding := none, kept := if y.seq = 0 then c.kept else y.seq :: c.kept }
          let s := due.foldl (fun s k =>
            s.takeTrap co k ⟨.regionViolation, 0, ((c.thread? k).map Thread.pc).getD 0, 0, 0, none⟩) s
          let s := ((due.map c.partyOf).eraseDups).foldl (fun s r => s.groupUp co (due.filter fun k => c.partyOf k == r)) s
          let s := s.tidyBins co
          let stopped := keys (filterMap c.threads fun _ t => t.run.isStopped)
          (s.restart co (c.halted false)).release co stopped)

/-- The address of a cohort's save slot and its size (R290). -/
def Grid.saveSlot (g : Grid) (coh : Nat) : Nat × Nat :=
  let n := g.record.banks * 16384 + 192 * 1024
  (g.record.save.toNat + coh * n, n)

/-- 128 bytes whose values the specification leaves to the device (R290). -/
def State.freeLine (s : State) : Nat → List Byte × State
  | 0 => ([], s)
  | n + 1 =>
    let f := s.freeValue
    let r := f.2.freeLine n
    (toBytes f.1.toNat 8 ++ r.1, r.2)

/-- A line of a save slot is written; `false` where the write faults (R278). -/
def State.fillLine (s : State) (ctx va : Nat) : Bool × State :=
  match s.translateHub ctx (va % 2 ^ 64) Need.write with
  | (.error _, s) => (false, s)
  | (.ok p, s) =>
    if !s.worldOk ctx p.world then (false, s.postHubWorld p.world)
    else
      let f := s.freeLine 16
      let r := f.2.writePhys p.world p.pa f.1
      (r.1.isNone, r.2)

/-- A save slot is written, line by line, to the first write that faults. -/
def State.fillSlot (s : State) (ctx va : Nat) : Nat → Bool × State
  | 0 => (true, s)
  | n + 1 =>
    match s.fillLine ctx va with
    | (true, s) => s.fillSlot ctx (va + 128) n
    | r => r

/-- A cohort's scratchpad, by offset of its allocation. -/
def State.spadImage (s : State) (c : Cohort) : Memory :=
  (List.range c.banks.length).flatMap fun j =>
    ((s.cluster c.ci).scratch.filter fun x => x.1 / bankBytes == nth c.banks j 0).map fun x => (bankBytes * j + x.1 % bankBytes, x.2)

/-- Lines of a cohort's scratchpad that are poisoned, by offset. -/
def State.spadMarks (s : State) (c : Cohort) : List Nat :=
  (List.range (c.spadBytes / 128)).filter fun n => s.spadPoisoned c (128 * n)

/-- A cohort goes off its cluster (R289 step 5, R290). -/
def State.saveCohort (s : State) (co : Nat) (c : Cohort) : State :=
  let cl := s.cluster c.ci
  let own (p : Port) : Bool := match p.owner with
    | some o => o.cohort == co
    | none => false
  let outs : FMap (List Lanes) := (List.range 3).foldl (fun m e =>
    if own (nth cl.outs e Port.reset) then insert m e (nth cl.outs e Port.reset).items else m) []
  let c' : Cohort := { c with
    phase := .saved, yielding := none, crews := [], groups := [], pends := []
    saved := s.spadImage c, savedPoison := s.spadMarks c, savedEvents := if own cl.events then cl.events.items else []
    savedOuts := outs }
  let s := ((s.freePorts co).withdraw co fun _ => true).setCohort co c'
  let s := (s.tidyBins co).bump .lchPreempt 0 1
  s.wakeParked c.ci

/-- R289 steps 4 and 5, R290: once no thread runs and the cohort's work is complete, its state is saved and its
resources are released. A fault on the save area ends the context (R278). -/
def execYieldSave (co : Nat) (s : State) : Host.Outcome State Fault Refusal :=
  .next (match find? s.cohorts co with
    | none => s
    | some c =>
      let still (t : Thread) : Bool := match t.run with
        | .stopped _ | .discarded | .nested _ | .atNext _ => true
        | _ => false
      if c.yielding.isNone ∨ c.threads.isEmpty ∨ !(c.threads.all fun p => still p.2) ∨ !s.workDone co ∨ c.busyWith (keys c.threads)
          ∨ s.bloads.any fun p => p.2.cohort == co then s
      else
        match find? s.lch.grids c.grid with
        | none => s
        | some g =>
          let slot := g.saveSlot c.coh
          match s.fillSlot c.ctx slot.1 (slot.2 / 128) with
          | (false, s) => s.endContext c.ctx 0x04
          | (true, s) => s.saveCohort co c)

end Sys2Proof.Machine
end

