-- ==== Sys2Proof/Machine/XltCmd.lean ====
section
/-!
DEFINITION. Answers to faults, invalidation and migration: XLT_FQ_RESP and XLT_CMD (R260, R295, R297, R298).
-/

namespace Sys2Proof.Machine

/-- An answer to a page's faults: they are no longer outstanding (R297). -/
def State.answered (s : State) (ctx page : Nat) : State :=
  { s with
    xlt := { s.xlt with pages := s.xlt.pages.filter (· != (ctx, page)) }
    lch := { s.lch with parked := s.lch.parked.filter (· != (ctx, page)) } }

/-- Agents parked on a page go on (R297): threads issue again, matrix operations and commands resume. -/
def State.unpark (s : State) (ctx page : Nat) : State :=
  let op (o : MatOp) : MatOp := if o.ctx = ctx ∧ o.parked = some page then { o with parked := none } else o
  let cmd (c : Cmd) : Cmd := if c.ctx = ctx ∧ c.parked = some page then { c with parked := none } else c
  let s := { s with
    cmds := mapVals s.cmds fun _ c => cmd c
    clusters := mapVals s.clusters fun _ cl => { cl with mxu := cl.mxu.map fun (q : List MatOp) => q.map op } }
  s.cohorts.foldl (fun s p =>
    if p.2.ctx = ctx then
      s.release p.1 (keys (filterMap p.2.threads fun _ t => match t.run with
        | .faulted _ n => n == page
        | _ => false))
    else s) s

/-- A write of XLT_FQ_RESP for an outstanding page (R297): ACT 0 replays, ACT 1 declines and ends the context. -/
def State.faultAnswer (s : State) (act ctx page : Nat) : State :=
  if !s.xlt.pages.contains (ctx, page) then s
  else
    match act with
    | 0 => (s.answered ctx page).unpark ctx page
    | 1 => (s.answered ctx page).endContext ctx 0x02
    | _ => s

/-- R297: an answer of replay to an outstanding page. -/
def execFaultReplay (ctx page : Nat) (s : State) : Host.Outcome State Fault Refusal :=
  .next (s.faultAnswer 0 ctx page)

/-- R297: an answer of decline to an outstanding page ends the context. -/
def execFaultDecline (ctx page : Nat) (s : State) : Host.Outcome State Fault Refusal :=
  .next (s.faultAnswer 1 ctx page)

/-- Every TLB of the package drops the entries that a test holds for (R298). -/
def State.dropTlb (s : State) (p : TlbEntry → Bool) : State :=
  { s with
    clusters := mapVals s.clusters fun _ c => { c with tlb := c.tlb.filter fun e => !p e }
    dies := mapVals s.dies fun _ d => { d with tlb := d.tlb.filter fun e => !p e } }

/-- The leaf entry of an address: its value and its own physical address (R293). -/
def State.leafAt (s : State) (va : Nat) (level table : Nat) : Option (Nat × Nat) × State :=
  let at_ := table + 8 * bits va (12 + 9 * level) 9
  match s.entryAt at_ with
  | (.error _, s) => (none, s)
  | (.ok e, s) =>
    if !bit e 0 then (none, s)
    else if bit e 1 then (if s.leafOk level e then some (e, at_) else none, s)
    else if !s.tableOk level e then (none, s)
    else
      match level with
      | 0 => (none, s)
      | l + 1 => s.leafAt va l (ptePa e)

/-- A page that R260 does not migrate: it holds a line in accumulator state, or is the source of an offer whose
status is not yet full. -/
def State.pinned (s : State) (pa size : Nat) : Bool :=
  let inside (a : Nat) : Bool := decide (pa ≤ a) && decide (a < pa + size)
  (s.shadows.any fun p => inside (128 * p.1))
    || s.cohorts.any fun p => p.2.pends.any fun x => match x.2.kind with
      | .noffer _ ls => ls.any fun l => inside l.1
      | _ => false

/-- Accesses that wait for a page go to its new home (R260): a physical address of the old one names the new one. -/
def State.moveRefs (s : State) (f : Nat → Nat) : State :=
  let op (o : MatOp) : MatOp := { o with
    lines := o.lines.map f, stale := o.stale.map fun e => if e.sp then e else { e with pos := f e.pos } }
  let kind (k : PKind) : PKind := match k with
    | .maccInit ls fmt => .maccInit (ls.map fun l => (f (128 * l.1) / 128, l.2)) fmt
    | .flush x => .flush { x with lines := x.lines.map f, dests := x.dests.map fun d => (f d.1, d.2) }
    | k => k
  { s with
    late := mapVals s.late fun _ l => if l.sp then l else { l with pos := f l.pos }
    stale := s.stale.map fun e => if e.sp then e else { e with pos := f e.pos }
    cmds := mapVals s.cmds fun _ c => { c with stale := c.stale.map fun e => if e.sp then e else { e with pos := f e.pos } }
    bloads := mapVals s.bloads fun _ b => { b with left := b.left.map fun (l : Nat × Nat × Nat) => (f l.1, l.2) }
    partials := mapVals s.partials fun _ p => { p with pa := f p.pa }
    cohorts := mapVals s.cohorts fun _ c => { c with pends := mapVals c.pends fun _ p => { p with kind := kind p.kind } }
    clusters := mapVals s.clusters fun _ c => { c with mxu := c.mxu.map fun (q : List MatOp) => q.map op } }

/-- Copies of the lines of a range that caches keep go (R260). -/
def State.dropRange (s : State) (pa size : Nat) : State :=
  let inside (n : Nat) : Bool := decide (pa ≤ 128 * n) && decide (128 * n < pa + size)
  { s with
    clusters := mapVals s.clusters fun _ c => { c with
      ccache := c.ccache.filter fun p => !inside p.1
      granted := c.granted.filter fun n => !inside n
      recent := c.recent.filter fun p => !inside p.1 }
    dies := mapVals s.dies fun _ d => { d with rdc := d.rdc.filter fun e => !inside e.1 } }

/-- The marks of a line that has moved (R260, R308): its seal, poison and failure go with it; the write count is that of
the place it comes to, where a sealed write raises it. -/
def Line.moved (l place : Line) : Line :=
  { l with writes := if l.tag = 0 then place.writes else (place.writes + 1) % 2 ^ 64, held := Option.none }

/-- A page's bytes and marks move (R260 step 2), once its modified lines have left their ways (R308): what the old lines hold
afterwards is what they held. -/
def State.movePage (s : State) (old new size : Nat) : State :=
  let s := s.writeBackAll fun n _ => decide (old ≤ 128 * n) && decide (128 * n < old + size)
  let body := (s.mem.filter fun c => decide (old ≤ c.1) && decide (c.1 < old + size)).map fun c => (c.1 - old + new, c.2)
  let rest := s.mem.filter fun c => !(decide (new ≤ c.1) && decide (c.1 < new + size))
  let marks := s.lines.filter fun p => decide (old ≤ 128 * p.1) && decide (128 * p.1 < old + size)
  let there (p : Nat × Line) : Bool := decide (new ≤ 128 * p.1) && decide (128 * p.1 < new + size)
  let kept := s.lines.filterMap fun p =>
    if !there p then some p else if p.2.writes = 0 then none else some (p.1, { Line.none with writes := p.2.writes })
  { s with
    mem := body.foldl (fun (m : Memory) c => m.set c.1 c.2) rest
    lines := marks.foldl (fun m p =>
      let n := p.1 - old / 128 + new / 128
      insert m n (p.2.moved (findD kept n Line.none))) kept }

/-- A migration (R260, R298) in a context whose descriptor is cached: the page's leaf entries are rewritten and their TLB entries dropped. -/
def State.migrate (s : State) (ctx va new : Nat) : Status × State :=
  match s.ctx? ctx with
  | none => (.refused, s)
  | some x =>
    match s.leafAt va 3 x.root with
    | (none, s) => (.refused, s)
    | (some (e, at_), s) =>
      let size := 2 ^ pageShift (pteSize e)
      let old := ptePa e
      if !s.isDevice old ∨ !s.isDevice (old + size - 1) ∨ new % size ≠ 0 ∨ !s.isDevice new ∨ !s.isDevice (new + size - 1)
          ∨ s.pinned old size then (.refused, s)
      else if new = old then (.ok, s)
      else
        let n := pageRun (pteSize e)
        let base := at_ / (8 * n) * (8 * n)
        let s := (s.movePage old new size).dropRange old size
        let s := (s.dropRange new size).moveRefs fun a => if old ≤ a ∧ a < old + size then a - old + new else a
        let s := (List.range n).foldl (fun s i =>
          let v := setBits (s.mem.read (base + 8 * i) 8) 12 40 (new / 2 ^ 12)
          s.hubWrite (base + 8 * i) (toBytes v 8)) s
        (.ok, s.dropTlb fun t => t.hits ctx va)

/-- Op 5: a context whose V is 0 is left alone (R298). -/
def State.endByHost (s : State) (ctx : Nat) : Status × State :=
  let s := s.cacheCtx ctx
  match s.ctx? ctx with
  | some x => if x.live then (.ok, s.endContext ctx 0x05) else (.refused, s)
  | none => (.refused, s)

/-- The ranges of memory that some TLB entries translate to. -/
def State.rangesOf (s : State) (p : TlbEntry → Bool) : List (Nat × Nat) :=
  let of (l : List TlbEntry) : List (Nat × Nat) := (l.filter p).map fun e => (e.pa, 2 ^ pageShift e.size)
  (s.clusters.flatMap fun c => of c.2.tlb) ++ s.dies.flatMap fun d => of d.2.tlb

/-- Accesses that have been translated and are still to be made (R298): those of a bload, of a matrix operation, of a
partial, of a write that a command left behind, and of `macc.init`, `macc.flush` and `noffer`. -/
def State.outstanding (s : State) (p : Nat → Bool) : Bool :=
  (s.bloads.any fun b => b.2.left.any fun l => p l.1)
    || (s.clusters.any fun c => c.2.mxu.any fun q => q.any fun o => o.lines.any p)
    || (s.partials.any fun x => p x.2.pa) || (s.late.any fun l => !l.2.sp && p l.2.pos)
    || s.cohorts.any fun c => c.2.pends.any fun x => match x.2.kind with
      | .maccInit ls _ => ls.any fun l => p (128 * l.1)
      | .noffer _ ls => ls.any fun l => p l.1
      | .flush f => f.lines.any p || f.dests.any fun d => p d.1
      | _ => false

/-- A write of XLT_CMD (R298): one written while BUSY is ignored, and an OP with no command starts none. -/
def State.xltCmd (s : State) (op ctx page : Nat) : State :=
  if s.xlt.busy then s
  else
    let v : DWord := BitVec.ofNat 64 (page * 2 ^ 12 + ctx % 256 * 2 ^ 4 + op)
    let t : State := { s with xlt := { s.xlt with cmd := v, busy := true } }
    let r : Status × State :=
      match op with
      | 1 => (.ok, t.dropTlb fun e => e.ctx == ctx)
      | 2 => (.ok, t.dropTlb fun e => e.hits ctx (page * 2 ^ 12))
      | 3 => (.ok, t.dropTlb fun _ => true)
      | 4 => (t.cacheCtx ctx).migrate ctx (page * 2 ^ 12) (bits s.xlt.migPa.toNat 12 40 * 2 ^ 12)
      | _ => t.endByHost ctx
    let used : TlbEntry → Bool := match op with
      | 1 => fun e => e.ctx == ctx
      | 2 => fun e => e.hits ctx (page * 2 ^ 12)
      | 3 => fun _ => true
      | _ => fun _ => false
    if 1 ≤ op ∧ op ≤ 5 then { r.2 with xlt := { r.2.xlt with status := r.1.code, awaits := s.rangesOf used } }
    else { s with xlt := { s.xlt with cmd := v } }

/-- R298 op 1. -/
def execInvalidateContext (ctx : Nat) (s : State) : Host.Outcome State Fault Refusal := .next (s.xltCmd 1 ctx 0)

/-- R298 op 2. -/
def execInvalidatePage (ctx page : Nat) (s : State) : Host.Outcome State Fault Refusal := .next (s.xltCmd 2 ctx page)

/-- R298 op 3. -/
def execInvalidateAll (s : State) : Host.Outcome State Fault Refusal := .next (s.xltCmd 3 0 0)

/-- R260, R298 op 4. -/
def execMigratePage (ctx page : Nat) (s : State) : Host.Outcome State Fault Refusal := .next (s.xltCmd 4 ctx page)

/-- R298 op 5. -/
def execTeardown (ctx : Nat) (s : State) : Host.Outcome State Fault Refusal := .next (s.xltCmd 5 ctx 0)

/-- Contexts whose descriptors the running command makes the device read again (R277, R298): those that have
ended. -/
def State.staleCtxs (s : State) : List Nat :=
  let op := bits s.xlt.cmd.toNat 0 4
  keys (filterMap s.xlt.ctxs fun n x => !x.live && (op == 3 || (op == 1 && n == bits s.xlt.cmd.toNat 4 8)))

/-- R298: the running command completes, once the accesses that used what it drops have: a completion record of an
ended context is written first. -/
def execXltCmdComplete (s : State) : Host.Outcome State Fault Refusal :=
  .next (
    let gone := s.staleCtxs
    let owes (g : Grid) : Bool := gone.contains g.ctx && match g.state with
      | .finished .. => true
      | _ => false
    let waits := s.outstanding fun a => s.xlt.awaits.any fun r => decide (r.1 ≤ a ∧ a < r.1 + r.2)
    if !s.xlt.busy || waits || s.lch.grids.any fun p => owes p.2 then s
    else { s with xlt := { s.xlt with busy := false, awaits := [], ctxs := filterMap s.xlt.ctxs fun n _ => !gone.contains n } })

end Sys2Proof.Machine
end

