-- ==== Sys2Proof/Machine/Secure.lean ====
section
/-!
DEFINITION. 128-bit registers, assignment of resources to worlds, TDIs, SPDM, key slots and job evidence (R268,
R301, R303 to R306, R311, R314 to R316).
-/

namespace Sys2Proof.Machine

/-- The value of a 128-bit register. -/
def State.reg128 (s : State) (r : Reg128) : BitVec 128 :=
  match r with
  | .nrtEnt i => findD s.names.ents i 0
  | .fabCgrp g => findD s.fab.groups g 0
  | .secSpadWorld ci => (s.cluster ci).spadWorld

/-- The staging copy of a 128-bit register (R301): the register's own value where nothing is staged. -/
def State.staged (s : State) (r : Reg128) : BitVec 128 :=
  ((s.staging.find? fun p => p.1 == r).map Prod.snd).getD (s.reg128 r)

/-- R301: a write to words 0 to 2, or to the low half, is staged. -/
def execReg128StagingWrite (r : Reg128) (word : Nat) (wide : Bool) (v : DWord) (s : State) :
    Host.Outcome State Fault Refusal :=
  .next (
    if (if wide then word = 0 else word ≤ 2) then
      let x := BitVec.ofNat 128 (setBits (s.staged r).toNat (32 * word) (if wide then 64 else 32) v.toNat)
      let s := s.restage (· == r)
      { s with staging := s.staging ++ [(r, x)] }
    else s)

/-- R301: a read of the lowest word or low half latches the upper 96 bits, and the staging copy takes the register's
value. -/
def execReg128LowRead (r : Reg128) (s : State) : Host.Outcome State Fault Refusal :=
  .next (
    let v := s.reg128 r
    let s := s.restage (· == r)
    { s with
      latches := (r, v.extractLsb' 32 96) :: s.latches.filter fun p => p.1 != r
      reply := ⟨true, false, toBytes v.toNat 8⟩ })

/-- The 128 bits a write of the highest word or high half commits (R301). -/
def State.commit128 (s : State) (r : Reg128) (wide : Bool) (v : DWord) : Nat :=
  if wide then setBits (s.staged r).toNat 64 64 v.toNat else setBits (s.staged r).toNat 96 32 v.toNat

/-- R2, R268: commits a routing entry. -/
def execNrtEntWrite (i : Nat) (wide : Bool) (v : DWord) (s : State) : Host.Outcome State Fault Refusal :=
  .next (
    let old := s.reg128 (.nrtEnt i)
    let x := s.commit128 (.nrtEnt i) wide v
    let dup := s.names.ents.any fun p => p.1 != i && nrtValid p.2 && nrtTid p.2 == bits x 112 16
    let valid := bit x 111 && decide (bits x 99 3 ≤ 4) && decide (bits x 109 2 < s.dieCount) && !dup
    let mark := if nrtValid old then 0 else bits old.toNat 47 17
    let e := setBits (setBits (setBits (setBits (setBits x 111 1 valid.toNat) 96 3 0) 47 17 mark) 40 7 0) 0 32 0
    let s := s.setEnt i (some (BitVec.ofNat 128 e))
    State.sweepTiles { s with names := { s.names with owners := erase s.names.owners i } })

/-- The bytes of a digest, as the model numbers digests (log entry 7). -/
def digestBytes (d : Digest) : List Byte := toBytes d.toNat 32

/-- The entries of the switch reference list, as reads of them find it now (R309, R315): one that cannot be read is no
entry. -/
def State.swrefs (s : State) : List (List Byte) × State :=
  let base := bits s.fab.swref.toNat 12 40 * 2 ^ 12
  (List.range (bits s.fab.swref.toNat 0 12)).foldl (fun r i =>
    match r.2.readPhys 0 (base + 64 * i) 64 with
    | (.ok bs, s) => (r.1 ++ [bs], s)
    | (.error _, s) => (r.1, s)) ([], s)

/-- A switch passes attestation by a reference list (R315): its chain verifies, and an entry holds both digests. -/
def switchPasses (r : SwitchReport) (refs : List (List Byte)) : Bool :=
  r.chain && refs.any fun e => e == digestBytes r.ident ++ digestBytes r.meas

/-- ATT of a group is cleared (R314, R315). -/
def State.clearAtt (s : State) (g : Nat) : State :=
  match find? s.fab.groups g with
  | none => s
  | some e =>
    let s := s.restage (· == .fabCgrp g)
    { s with fab := { s.fab with groups := insert s.fab.groups g (BitVec.ofNat 128 (setBits e.toNat 122 1 0)) } }

/-- A switch fails: ATT of every group whose tree holds it is cleared (R315). -/
def State.switchFails (s : State) (ident : Digest) : State :=
  (keys (filterMap s.fab.switches fun _ l => l.any fun p => p.1 == ident)).foldl State.clearAtt s

/-- The switches of a group's tree are attested (R315). -/
def State.attest (s : State) (g : Nat) (reports : List SwitchReport) : State :=
  let e := findD s.fab.groups g 0
  if !bit e.toNat 127 then s
  else
    let l := s.swrefs
    let failed := reports.filter fun r => !switchPasses r l.1
    let s := l.2.restage (· == .fabCgrp g)
    let s := { s with fab := { s.fab with
      groups := insert s.fab.groups g (BitVec.ofNat 128 (setBits e.toNat 122 1 1))
      switches := insert s.fab.switches g (reports.map fun r => (r.ident, r.meas)) } }
    failed.foldl (fun s r => s.switchFails r.ident) s

/-- R314, R315: commits a group entry, which clears ATT; a valid one is attested. `reports` is what the switches of
its tree show. -/
def execFabCgrpWrite (g : Nat) (wide : Bool) (v : DWord) (reports : List SwitchReport) (s : State) :
    Host.Outcome State Fault Refusal :=
  .next (
    let x := setBits (setBits (s.commit128 (.fabCgrp g) wide v) 122 1 0) 36 32 0
    let s := s.restage (· == .fabCgrp g)
    let s := { s with fab := { s.fab with
      groups := insert s.fab.groups g (BitVec.ofNat 128 x), switches := erase s.fab.switches g } }
    s.attest g reports)

/-- R315: installs the switch reference list, and every valid group is attested again; a group of which no switch
answers is not attested. -/
def execMcSwrefWrite (v : DWord) (reports : List (Nat × List SwitchReport)) (s : State) :
    Host.Outcome State Fault Refusal :=
  .next (
    let s := { s with fab := { s.fab with swref := BitVec.ofNat 64 (v.toNat % 2 ^ 52) } }
    (keys s.fab.groups).foldl (fun s g =>
      match reports.find? fun r => r.1 == g with
      | some r => s.attest g r.2
      | none => s.clearAtt g) s)

/-- R315: a switch that fails or closes its session clears ATT of every group whose tree holds it. -/
def execSwitchSessionClose (ident : Digest) (s : State) : Host.Outcome State Fault Refusal :=
  .next (s.switchFails ident)

/-- A write that would change resources of some worlds (R306): dropped where one of their TDIs is LOCKED or RUN,
which then go to ERROR. -/
def State.assign (s : State) (worlds : List Nat) (f : State → State) : State :=
  let frozen := (worlds.eraseDups).filter s.frozenWorld
  if frozen.isEmpty then f s else frozen.foldl (fun s w => s.tdiError w) s

/-- R306: sub-partitions without a resident crew are given to worlds. -/
def execSecSpWorldWrite (ci : Nat) (v : Word) (s : State) : Host.Outcome State Fault Refusal :=
  .next (
    let old (sp : Nat) : Nat := bits (s.cluster ci).spWorld.toNat (4 * sp) 4
    let new (sp : Nat) : Nat := bits v.toNat (4 * sp) 4
    let changed := (List.range 4).filter fun sp => old sp != new sp
    s.assign (changed.flatMap fun sp => [old sp, new sp]) fun s =>
      s.modCluster ci fun c => { c with
        spWorld := (changed.filter fun sp => s.crewsOn ci sp == 0).foldl (fun w sp => BitVec.ofNat 32 (setBits w.toNat (4 * sp) 4 (new sp))) c.spWorld })

/-- Copies that caches of a die keep in ways of some worlds are invalidated (R306, R307). -/
def State.dropWays (s : State) (die : Nat) (worlds : List Nat) : State :=
  let keep (key : Nat) (_ : List Byte) : Bool := !worlds.contains (key % 16)
  let s := s.modDie die fun d => { d with rdc := d.rdc.filter fun e => !worlds.contains e.2, nc := filterMap d.nc keep }
  { s with clusters := mapVals s.clusters fun ci c => if dieOf ci = die then { c with nc := filterMap c.nc keep } else c }

/-- R306: ways of a die are given to worlds; the lines of a world that loses one are written back first (R308) and
invalidated (log entry 75). Ways 12 to 15 stay with world 0. -/
def execSlcWaymapWrite (die : Nat) (v : DWord) (s : State) : Host.Outcome State Fault Refusal :=
  .next (
    let old (w : Nat) : Nat := bits (s.die die).wayMap.toNat (4 * w) 4
    let new (w : Nat) : Nat := bits v.toNat (4 * w) 4
    let moved := (List.range 12).filter fun w => old w != new w
    s.assign (moved.flatMap fun w => [old w, new w]) fun s =>
      let s := s.writeBackAll fun n w => 128 * n / dieBytes == die && moved.any fun i => old i == w
      (s.dropWays die (moved.map old)).modDie die fun d => { d with wayMap := BitVec.ofNat 64 (v.toNat % 2 ^ 48) })

/-- R304: CONFIG_UNLOCKED to CONFIG_LOCKED, with a new seal key. -/
def execLockInterfaceRequest (n : Nat) (s : State) : Host.Outcome State Fault Refusal :=
  .next (
    if n = 0 ∨ (s.tdi n).state ≠ 0 then s
    else
      let s := { s with sec := { s.sec with epochs := s.sec.epochs + 1 } }
      s.modTdi n fun t => { t with state := 1, epoch := s.sec.epochs })

/-- R304: CONFIG_LOCKED to RUN, with the stream secure. -/
def execStartInterfaceRequest (n : Nat) (s : State) : Host.Outcome State Fault Refusal :=
  .next (if n = 0 ∨ (s.tdi n).state ≠ 1 ∨ !(s.tdi n).ide then s else s.modTdi n fun t => { t with state := 2 })

/-- The banks and ways of a world are zeroed (R304, R364): its scratchpad banks hold nothing, and what its ways hold is
lost: modified lines, copies, shadows and stored tiles (R307). -/
def State.zeroWorld (s : State) (n : Nat) : State :=
  let s := s.dropHeld fun _ w => w == n
  let s := (List.range 4).foldl (fun s d => s.dropWays d [n]) s
  let s := { s with
    shadows := filterMap s.shadows fun _ sh => sh.world != n
    names := { s.names with tiles := s.names.tiles.filter fun t => t.world != n } }
  { s with clusters := mapVals s.clusters fun _ c =>
      let mine (b : Nat) : Bool := bits c.spadWorld.toNat (4 * b) 4 == n
      { c with
        scratch := c.scratch.filter fun x => !mine (x.1 / bankBytes)
        scratchPoison := c.scratchPoison.filter fun l => !mine (128 * l / bankBytes) } }

/-- R304: any state to CONFIG_UNLOCKED. -/
def execStopInterfaceRequest (n : Nat) (s : State) : Host.Outcome State Fault Refusal :=
  .next (
    if n = 0 then s
    else
      let s := s.endWorld n
      let s := { s with sec := { s.sec with slots := filterMap s.sec.slots fun _ k => k.world != n } }
      (s.zeroWorld n).modTdi n fun t => { t with state := 0, epoch := 0 })

/-- R303: a failure of a selective stream, or of the link stream, makes it insecure and puts its TDIs into ERROR. -/
def execIdeFailure (stream : Option Nat) (s : State) : Host.Outcome State Fault Refusal :=
  .next (match stream with
    | some n =>
      if n = 0 ∨ 15 < n ∨ !(s.tdi n).ide then s
      else
        let s := (s.modTdi n fun t => { t with ide := false }).tdiError n
        s.postError 4 4 (unitCode 0 7 0) n 0 0
    | none =>
      if !s.sec.link then s
      else
        let s := { s with sec := { s.sec with link := false } }
        let s := (List.range 16).foldl (fun s n => s.tdiError n) s
        s.postError 4 4 (unitCode 0 7 0) 0 0 0)

/-- The answer to a host's message. -/
def State.answer (s : State) (ok : Bool) (bs : List Byte) : State := { s with reply := ⟨ok, false, bs⟩ }

/-- The SPDM responder's state changed. -/
def State.setSpdm (s : State) (p : Spdm) : State := { s with sec := { s.sec with spdm := p } }

/-- A message that needs the requester to have come to a stage (R305). -/
def State.spdmAt (s : State) (stage : Nat) (bs : List Byte) : State :=
  if s.sec.spdm.stage < stage then s.answer false [] else s.answer true bs

/-- The three measurements (R305, R361). -/
def State.measurements (s : State) : List Byte :=
  (List.range 3).flatMap fun i => digestBytes (Config.measurement i s.mc.configs)

/-- R305 GET_VERSION. -/
def execGetVersion (s : State) : Host.Outcome State Fault Refusal :=
  .next ((s.setSpdm { s.sec.spdm with stage := 1 }).answer true [0x12, 0x13])

/-- Sessions that may be open at a time (R305). -/
def maxSessions : Nat := 4

/-- What the responder supports (R305), as log entry 18 codes it: SM2 signatures, the SM3-256 hash, SM2 key exchange,
AES-256-GCM sessions. -/
def algorithms : List Byte := [1, 2, 3, 4]

/-- R305 GET_CAPABILITIES: the answer says how many sessions there may be. -/
def execGetCapabilities (s : State) : Host.Outcome State Fault Refusal :=
  .next (if s.sec.spdm.stage < 1 then s.answer false []
    else (s.setSpdm { s.sec.spdm with stage := max 2 s.sec.spdm.stage }).answer true (toBytes maxSessions 1))

/-- R305 NEGOTIATE_ALGORITHMS: the answer says which are supported. -/
def execNegotiateAlgorithms (s : State) : Host.Outcome State Fault Refusal :=
  .next (if s.sec.spdm.stage < 2 then s.answer false []
    else (s.setSpdm { s.sec.spdm with stage := 3 }).answer true algorithms)

/-- R305 GET_DIGESTS. -/
def execGetDigests (s : State) : Host.Outcome State Fault Refusal := .next (s.spdmAt 3 (digestBytes Config.certDigest))

/-- R305 GET_CERTIFICATE: the certificate stands by its digest. -/
def execGetCertificate (s : State) : Host.Outcome State Fault Refusal := .next (s.spdmAt 3 (digestBytes Config.certDigest))

/-- A signature by the device identity key over the SM3 digest of some bytes (R316, R354, R360). -/
def signBytes (bs : List Byte) : List Byte := toBytes (Config.sm2Sign (Config.sm3 bs)).toNat 64

/-- R305 CHALLENGE. -/
def execChallenge (nonce : Digest) (s : State) : Host.Outcome State Fault Refusal :=
  .next (s.spdmAt 3 (signBytes (digestBytes nonce ++ digestBytes Config.certDigest)))

/-- R305 GET_MEASUREMENTS: the three digests and a signature over them and the nonce. -/
def execGetMeasurements (nonce : Digest) (s : State) : Host.Outcome State Fault Refusal :=
  .next (s.spdmAt 3 (s.measurements ++ signBytes (digestBytes nonce ++ s.measurements)))

/-- A session of a number. -/
def Spdm.session? (p : Spdm) (n : Nat) : Option (Nat × Bool) :=
  (p.sessions.find? fun x => x.1 == n).map Prod.snd

/-- A session of a number is established. -/
def Spdm.open? (p : Spdm) (n : Nat) : Bool := ((p.session? n).map Prod.snd).getD false

/-- R305 KEY_EXCHANGE: opens one of at most four sessions, by a function. -/
def execKeyExchange (fn : Nat) (s : State) : Host.Outcome State Fault Refusal :=
  .next (
    let p := s.sec.spdm
    if p.stage < 3 ∨ maxSessions ≤ p.sessions.length ∨ 15 < fn then s.answer false []
    else
      let n := ((List.range 5).find? fun i => (p.session? i).isNone).getD 0
      (s.setSpdm { p with sessions := p.sessions ++ [(n, fn, false)] }).answer true (toBytes n 1))

/-- R305 FINISH: the session is established. -/
def execFinish (sess : Nat) (s : State) : Host.Outcome State Fault Refusal :=
  .next (
    let p := s.sec.spdm
    match p.session? sess with
    | some (fn, false) =>
      (s.setSpdm { p with sessions := p.sessions.map fun x => if x.1 = sess then (x.1, fn, true) else x }).answer true []
    | _ => s.answer false [])

/-- IDE_KM, which a VENDOR_DEFINED message carries in an open session (R303, R305): the keys of a stream are programmed, and
it is secure. Stream 0 is the link stream; PF0's session keys any stream, a VF's its own (log entry 18). -/
def State.ideKm (s : State) (sess stream : Nat) : State :=
  match s.sec.spdm.session? sess with
  | some (fn, true) =>
    if 15 < stream ∨ (fn ≠ 0 ∧ fn ≠ stream) then s.answer false []
    else
      let s := if stream = 0 then { s with sec := { s.sec with link := true } }
        else s.modTdi stream fun t => { t with ide := true }
      s.answer true []
  | _ => s.answer false []

/-- R305 KEY_UPDATE. -/
def execKeyUpdate (sess : Nat) (s : State) : Host.Outcome State Fault Refusal := .next (s.answer (s.sec.spdm.open? sess) [])

/-- R305 HEARTBEAT. -/
def execHeartbeat (sess : Nat) (s : State) : Host.Outcome State Fault Refusal := .next (s.answer (s.sec.spdm.open? sess) [])

/-- R305 END_SESSION. -/
def execEndSession (sess : Nat) (s : State) : Host.Outcome State Fault Refusal :=
  .next (
    let p := s.sec.spdm
    if !p.open? sess then s.answer false []
    else (s.setSpdm { p with sessions := p.sessions.filter fun x => x.1 != sess }).answer true [])

/-- R311: what KEY_SET asks for is granted. -/
def State.keyOk (s : State) (sess slot world ctx : Nat) : Bool :=
  s.sec.spdm.open? sess && decide (slot < 64) && (find? s.sec.slots slot).isNone
    && ((s.ctx? ctx).map fun x => x.live && x.world == world).getD false
    && (if world = 0 then ((s.sec.spdm.session? sess).map Prod.fst) == some 0
      else (s.tdi world).state == 1 || (s.tdi world).state == 2)

/-- R311 KEY_SET. -/
def execKeySet (sess slot world ctx : Nat) (key : Digest) (s : State) : Host.Outcome State Fault Refusal :=
  .next (
    let s := if ctx < 256 then s.cacheCtx ctx else s
    if s.keyOk sess slot world ctx then
      let s := { s with sec := { s.sec with slots := insert s.sec.slots slot ⟨world, ctx, key, 0⟩ } }
      s.answer true []
    else s.answer false [])

/-- R311 KEY_CLEAR. -/
def execKeyClear (sess slot : Nat) (s : State) : Host.Outcome State Fault Refusal :=
  .next (
    if !s.sec.spdm.open? sess then s.answer false []
    else
      let s := { s with sec := { s.sec with slots := erase s.sec.slots slot } }
      s.answer true [])

/-- The part of an evidence record for a group (R316). -/
def State.groupEvidence (s : State) (g : Nat) : List Byte :=
  let sw := findD s.fab.switches g []
  let one (p : Digest × Digest) : List Byte := digestBytes p.1 ++ digestBytes p.2
  let entry (i : Nat) : List Byte := match sw[i]? with
    | some p => if sw.length < 2 then toBytes 0 64 else one p
    | none => toBytes 0 64
  toBytes g 2 ++ toBytes sw.length 2 ++ toBytes 0 4 ++ digestBytes (Config.sm3 (sw.flatMap one)) ++ entry 0 ++ entry 1

/-- An evidence record before its signature (R316). -/
def State.evidence (s : State) (ctx world : Nat) (nonce : List Byte) : List Byte :=
  let gs := (keys (filterMap s.fab.groups fun _ e => bit e.toNat 127 && bits e.toNat 123 4 == world)).take 16
  let slots := (List.range 64).foldl (fun n k =>
    if ((find? s.sec.slots k).map KeySlot.ctx) = some ctx then n + 2 ^ k else n) 0
  toBytes 1 4 ++ toBytes world 1 ++ toBytes (s.tdi world).state 1 ++ toBytes ctx 1 ++ toBytes gs.length 1 ++ nonce
    ++ digestBytes Config.certDigest ++ s.measurements ++ toBytes s.timer 8 ++ toBytes slots 8 ++ gs.flatMap s.groupEvidence

/-- A write is refused nowhere (R367): the lines it covers in part pass their checks. -/
def State.writable (s : State) (w pa : Nat) (bs : List Byte) : Bool × State :=
  ((cutLines pa bs).filter fun p => p.2.length != 128).foldl (fun r p =>
    match r.2.checkLine w (p.1 / 128) with
    | (.fails .integrityFault, s) => (false, s)
    | (_, s) => (r.1, s)) (true, s)

/-- The evidence record is written, or the request refused, with nothing written (R316). -/
def State.writeEvidence (s : State) (ctx : Nat) : Bool × State :=
  match s.ctx? ctx with
  | none => (false, s)
  | some x =>
    if !x.live ∨ (x.world ≠ 0 ∧ (s.tdi x.world).state ≠ 1 ∧ (s.tdi x.world).state ≠ 2) then (false, s)
    else
      match s.translateHub ctx s.sec.evAddr.toNat Need.atomic with
      | (.error _, s) => (false, s)
      | (.ok p, s) =>
        if !s.worldOk ctx p.world then (false, s)
        else
          match s.readPhys p.world (p.pa + 8) 32 with
          | (.error _, s) => (false, s)
          | (.ok nonce, s) =>
            let bs := s.evidence ctx x.world nonce
            let bs := bs ++ signBytes bs
            match s.writable p.world p.pa bs with
            | (false, s) => (false, s)
            | (true, s) =>
              let s := (linesOf p.pa bs.length).foldl (fun s n => s.recall hostAgent n) s
              (true, (s.writePhys p.world p.pa bs).2)

/-- R316: MC_EVREQ. The request ends in the step that starts it. -/
def execJobEvidenceRequest (v : Word) (s : State) : Host.Outcome State Fault Refusal :=
  .next (
    let ctx := bits v.toNat 0 8
    let s := { s with sec := { s.sec with evReq := v &&& 0xFF } }
    if !bit v.toNat 31 then s
    else
      let r := (s.cacheCtx ctx).writeEvidence ctx
      { r.2 with sec := { r.2.sec with
        evDone := true, evStatus := if r.1 then Status.ok.code else Status.refused.code } })

end Sys2Proof.Machine
end

