-- ==== Sys2Proof/Machine/Outside.lean ====
section
/-!
DEFINITION. Fabric ports and host accesses to device memory (R250, R310, R313, R357).
-/

namespace Sys2Proof.Machine

/-- Fields of FAB_PORT_ALARM (R313). -/
def FabPort.eyeThr (p : FabPort) : Nat := bits p.alarm.toNat 48 8
def FabPort.cfrThr (p : FabPort) : Nat := bits p.alarm.toNat 24 24
def FabPort.ttfThr (p : FabPort) : Nat := bits p.alarm.toNat 0 24

/-- An alarm bit rises (R313): one record of class 5 and one event. -/
def State.raiseAlarm (s : State) (port k : Nat) : State :=
  let p := s.fabPort port
  if bit p.alarm.toNat k then s
  else
    let p' : FabPort := { p with alarm := BitVec.ofNat 64 (setBits p.alarm.toNat k 1 1) }
    let s := { s with fab := { s.fab with ports := insert s.fab.ports port p' } }
    let unit := unitCode (port / 9) 4 port
    let s := s.bbx 4 (port / 9) unit 0 0xFF
      (evData (toBytes (bits p'.alarm.toNat 60 4) 1 ++ toBytes 0 7 ++ toBytes p'.health.toNat 8))
    s.postError 5 0 unit 0 0 0

/-- R313: the health of a port is sampled and compared with its thresholds; at the failure level the link goes down to
retrain. -/
def execPortHealthSample (port : Nat) (eye : BitVec 8) (cfr : BitVec 24) (ttf : Word) (s : State) :
    Host.Outcome State Fault Refusal :=
  .next (
    let p := s.fabPort port
    let down := eye.toNat ≤ 16 ∨ 1000000 ≤ cfr.toNat
    let alarm := if down then setBits p.alarm.toNat 60 1 1 else p.alarm.toNat
    let p' : FabPort := {
      health := BitVec.ofNat 64 (eye.toNat * 2 ^ 56 + cfr.toNat * 2 ^ 32 + ttf.toNat), alarm := BitVec.ofNat 64 alarm }
    let s := { s with fab := { s.fab with ports := insert s.fab.ports port p' } }
    let s := if eye.toNat < p.eyeThr then s.raiseAlarm port 63 else s
    let s := if p.cfrThr < cfr.toNat then s.raiseAlarm port 62 else s
    if ttf.toNat < p.ttfThr then s.raiseAlarm port 61 else s)

/-- R313: retraining succeeds. -/
def execLinkRetrainComplete (port : Nat) (s : State) : Host.Outcome State Fault Refusal :=
  .next (
    let p := s.fabPort port
    let p' : FabPort := { p with alarm := BitVec.ofNat 64 (setBits p.alarm.toNat 60 1 0) }
    { s with fab := { s.fab with ports := insert s.fab.ports port p' } })

/-- A line that R310 keeps from the host: its stored tag or the owner of its way is a protected world. -/
def State.hostDenied (s : State) (pa : Nat) : Bool :=
  let l := s.line (pa / 128)
  l.tag != 0 || match l.held with
    | some (w, _) => w != 0
    | none => false

/-- The bytes of free values. -/
def State.freeBytes (s : State) : Nat → List Byte × State
  | 0 => ([], s)
  | n + 1 =>
    let f := s.freeValue
    let r := f.2.freeBytes n
    (BitVec.ofNat 8 f.1.toNat :: r.1, r.2)

/-- The host reads a piece of a line (R310, R357): all-ones with poison where denied; the bytes of a poisoned line are
free. -/
def State.hostReadLine (s : State) (pa k : Nat) : Bool × List Byte × State :=
  let s := s.recall hostAgent (pa / 128)
  if s.hostDenied pa then (true, List.replicate k 0xFF, s)
  else
    match s.readLine 0 pa k with
    | (.ok bs, s) => (false, bs, s)
    | (.error _, s) =>
      let f := s.freeBytes k
      (true, f.1, f.2)

/-- The host reads pieces of lines. -/
def State.hostRead (s : State) : List (Nat × Nat) → Bool × List Byte × State
  | [] => (false, [], s)
  | p :: ps =>
    let a := s.hostReadLine p.1 p.2
    let b := a.2.2.hostRead ps
    (a.1 || b.1, a.2.1 ++ b.2.1, b.2.2)

/-- R310: a host read of device memory, or of its own. Where no memory is, the request fails. -/
def execHostMemoryRead (pa len : Nat) (s : State) : Host.Outcome State Fault Refusal :=
  .next (
    if len = 0 ∨ !s.hasTarget pa ∨ !s.hasTarget (pa + len - 1) then s.answer false []
    else
      let r := s.hostRead (spans pa len)
      { r.2.2 with reply := ⟨true, r.1, r.2.1⟩ })

/-- The 64-byte halves of a line that a piece covers. -/
def halvesOf (pa k : Nat) : Nat :=
  let o := pa % 128
  (if o = 0 ∧ 64 ≤ k then 1 else 0) + (if o ≤ 64 ∧ 128 ≤ o + k then 2 else 0)

/-- The host writes a piece of a line (R310, R357). -/
def State.hostWriteLine (s : State) (pa : Nat) (bs : List Byte) : State :=
  let s := s.recall hostAgent (pa / 128)
  if s.hostDenied pa then s.bump .secHostDeny 0 1
  else
    let l := s.line (pa / 128)
    let s := { s with mem := s.mem.setBytes pa bs }
    if !l.poison then (if bs.length = 128 then s.setLine (pa / 128) { l with latent := 0 } else s)
    else
      let h := l.halves ||| halvesOf pa bs.length
      s.setLine (pa / 128) (if h = 3 then { l with poison := false, latent := 0, halves := 0 } else { l with halves := h })

/-- R310: a host write of device memory, or of its own. -/
def execHostMemoryWrite (pa : Nat) (bytes : List Byte) (s : State) : Host.Outcome State Fault Refusal :=
  .next (
    if bytes.isEmpty ∨ !s.hasTarget pa ∨ !s.hasTarget (pa + bytes.length - 1) then s.answer false []
    else
      let s := (cutLines pa bytes).foldl (fun s p => s.hostWriteLine p.1 p.2) s
      s.answer true [])

end Sys2Proof.Machine
end

