-- ==== Sys2Proof/Machine/BlackBox.lean ====
section
/-!
DEFINITION. Retention of arrays (R261, R334), and the black box: commits and dumps (R359, R360).
-/

namespace Sys2Proof.Machine

/-- The idle interval that host policy sets for an array (R334); 0 keeps it awake. -/
def State.idleInterval (s : State) (a : RetArray) : Nat :=
  match a with
  | .bank ci _ => bits (nth s.pwr.retIdle (dieOf ci) 0).toNat 0 32
  | .way d _ _ => bits (nth s.pwr.retIdle d 0).toNat 32 32

/-- The array is one of the package's (R3, R261). -/
def State.isArray (s : State) : RetArray → Bool
  | .bank ci b => s.isCluster ci && decide (b < 32)
  | .way d sl w => decide (d < s.dieCount) && decide (sl < 96) && decide (w < 16)

/-- The tick of the last access that reached an array; which ways of a slice its accesses reach is the device's choice,
so a way may have been reached by none (log entry 75). -/
def State.lastTouch (s : State) : RetArray → Nat
  | .bank ci b => findD (s.cluster ci).touched b 0
  | .way _ _ _ => 0

/-- R261, R334: an array that no access has reached for the idle interval enters retention. Its contents are kept. -/
def execRetentionEntry (arr : RetArray) (s : State) : Host.Outcome State Fault Refusal :=
  .next (
    if !s.isArray arr ∨ s.idleInterval arr = 0 ∨ s.sleeping arr ∨ s.timer < s.lastTouch arr + s.idleInterval arr then s
    else { s with pwr := { s.pwr with
      asleep := (s.pwr.asleep.filter fun r => r.arr != arr) ++ [⟨arr, s.timer, none⟩] } })

/-- R261: an array that an access has reached is awake again. For a way of a slice, the access is one that waited, of a
cluster of the device's choice (log entry 75). -/
def execRetentionExit (arr : RetArray) (waited : Nat) (s : State) : Host.Outcome State Fault Refusal :=
  .next (match s.pwr.asleep.find? fun r => r.arr == arr with
    | none => s
    | some r =>
      let awake (s : State) : State :=
        { s with pwr := { s.pwr with asleep := s.pwr.asleep.filter fun r => r.arr != arr } }
      match arr, r.wake with
      | _, some t => if s.timer < t then s else awake s
      | .bank _ _, none => s
      | .way _ _ _, none =>
        if waited = 0 ∨ (retentionTicks arr).1 + (retentionTicks arr).2 < waited then s
        else
          let l := (List.range (144 * s.dieCount)).filter s.isCluster
          let c := s.choose l.length
          awake (c.2.bump .cluRetWait (nth l c.1 0) waited))

/-- The cause that a commit records: the KIND of its fatal event (R359), and for an event of no KIND a free value. -/
def State.causeKind (s : State) (kind : Option Nat) : Nat × State :=
  match kind with
  | some k => (k, s)
  | none =>
    let f := s.freeValue
    (f.1.toNat % 2 ^ 8, f.2)

/-- A fatal event (R360): a commit of the ring starts, or one is owed after the commit in progress. -/
def State.fatal (s : State) (kind : Option Nat) : State :=
  let r := s.causeKind kind
  let m := r.2.mc
  { r.2 with mc := match m.commit with
    | some _ => { m with owed := some r.1 }
    | none => { m with commit := some (r.1, r.2.timer, m.ring) } }

/-- The commit in progress ends (R360). The slots are taken in turn. -/
def State.commitDone (s : State) : State :=
  match s.mc.commit with
    | none => s
    | some (cause, tick, events) =>
      let m := s.mc
      let slot : BbxSlot := ⟨events, cause, m.bbxSeq, tick⟩
      { s with mc := { m with
        slots := insert m.slots (m.bbxSeq % 16) slot
        bbxSeq := (m.bbxSeq + 1) % 2 ^ 64
        bbxCtl := if m.owed.isSome then m.bbxCtl else m.bbxCtl &&& ~~~2#64
        commit := m.owed.map fun c => (c, s.timer, m.ring)
        owed := none } }

/-- R360: a commit ends. -/
def execBlackBoxCommitComplete (s : State) : Host.Outcome State Fault Refusal := .next s.commitDone

/-- DATA with the bytes zeroed that R359 names for a protected world. -/
def BbxEvent.shown (e : BbxEvent) : List Byte :=
  let z (lo n : Nat) : List Byte := e.data.take lo ++ List.replicate n 0 ++ e.data.drop (lo + n)
  if e.world = 0 then e.data
  else if e.kind = 1 ∨ e.kind = 8 then z 8 8
  else if e.kind = 6 then z 0 4
  else e.data

/-- The 32 bytes of an event (R359). -/
def BbxEvent.bytes (e : BbxEvent) : List Byte :=
  toBytes e.tick 8 ++ toBytes e.kind 1 ++ toBytes e.die 1 ++ toBytes e.unit 2 ++ toBytes e.world 1 ++ toBytes e.ctx 1
    ++ toBytes 0 2 ++ evData e.shown

/-- The 131,200 bytes of a dump (R360). -/
def dumpBytes (slot : Nat) (b : BbxSlot) : List Byte :=
  let n := b.events.length
  let body := toBytes 1 4 ++ toBytes slot 1 ++ toBytes b.cause 1 ++ toBytes 0 2 ++ toBytes b.seq 8 ++ toBytes b.tick 8
    ++ toBytes n 4 ++ toBytes 0 36 ++ b.events.flatMap BbxEvent.bytes ++ List.replicate (32 * (4096 - n)) 0
  body ++ signBytes body

/-- A dump of a slot or of the live ring (R360); ERR where it is not written. -/
def State.dump (s : State) : State :=
  let ctl := s.mc.bbxCtl.toNat
  let slot := bits ctl 3 5
  let pa := bits ctl 12 40 * 2 ^ 12
  let src : Option BbxSlot :=
    if slot < 16 then find? s.mc.slots slot
    else if slot = 16 then some ⟨s.mc.ring, 0, s.mc.bbxSeq, s.timer⟩
    else none
  match src with
  | some b =>
    if s.isDevice (pa + 131199) then
      { s.hubWrite pa (dumpBytes slot b) with mc := { s.mc with bbxCtl := BitVec.ofNat 64 (setBits ctl 2 1 0) } }
    else { s with mc := { s.mc with bbxCtl := BitVec.ofNat 64 (setBits ctl 2 1 1) } }
  | none => { s with mc := { s.mc with bbxCtl := BitVec.ofNat 64 (setBits ctl 2 1 1) } }

/-- A write of BBX_CTL (R360). -/
def State.bbxWrite (s : State) (v : DWord) : State :=
  let keep := s.mc.bbxCtl.toNat
  let x := bits v.toNat 12 40 * 2 ^ 12 + bits v.toNat 3 5 * 2 ^ 3 + bits keep 1 2 * 2
  let s := { s with mc := { s.mc with bbxCtl := BitVec.ofNat 64 x } }
  let s := if bit v.toNat 1 then
      ({ s with mc := { s.mc with bbxCtl := s.mc.bbxCtl ||| 2#64 } }).fatal none
    else s
  if bit v.toNat 0 then s.dump else s

/-- R360: a write of BBX_CTL with COMMIT. -/
def execBbxCommitRequest (v : DWord) (s : State) : Host.Outcome State Fault Refusal := .next (s.bbxWrite v)

/-- R360: a write of BBX_CTL with GO. -/
def execBbxDump (v : DWord) (s : State) : Host.Outcome State Fault Refusal := .next (s.bbxWrite v)

/-- R360: the 50 V input falls below 40 V. -/
def execInputUndervoltage (s : State) : Host.Outcome State Fault Refusal := .next (s.fatal none)

/-- R360: the management controller's watchdog expires. -/
def execMcWatchdogExpiry (s : State) : Host.Outcome State Fault Refusal := .next (s.fatal none)

/-- R356, R360: an uncorrectable error in the hub or the MRAM, with its error record. -/
def execHubUncorrectableError (mram : Bool) (s : State) : Host.Outcome State Fault Refusal :=
  .next (
    let f := s.freeValue
    (f.2.postError 2 3 (unitCode 0 7 (if mram then 2 else 1)) 0 (f.1.toNat % 2 ^ 32) 0).fatal (some 8))

end Sys2Proof.Machine
end

