-- ==== Sys2Proof/Machine/Convert.lean ====
section
/-!
DEFINITION. Conversion and special-function instructions, group 3 (R119 to R128).
-/

namespace Sys2Proof.Machine

/-- An integer type of `cvt`. -/
def isIntTy (t : Ety) : Bool := t.isS || t.isN

/-- The value of a source of `cvt`, flushed under R62 where its type flushes (R120). -/
def cvtIn (t : Ety) (ftz : Bool) (x : Nat) : FVal :=
  if isIntTy t then ofInt (t.num x) else t.val (t.flush ftz x)

/-- The result of `cvt` (R65, R120). -/
def cvtOut (t : Ety) (mode : Rnd) (ftz sat : Bool) (v : FVal) : Nat × Fl :=
  if isIntTy t then
    let r := t.toInt mode v
    (t.toReg (wrapNat t.width r.1), r.2)
  else t.result mode ftz sat v 0

/-- The type of a DT or ST field (R119): ILLEGAL_OP for b32 and b64, RESERVED_FIELD for no type. -/
def cvtTy (c : BitVec 4) : Option Ety := tyFloat c.toNat

/-- The operand rules of `cvt` (R119). -/
def cvtForm (p : Option Pfx) (d a : Sel) (dt st : BitVec 4) : Form :=
  let D := (cvtTy dt).getD .f32
  let S := (cvtTy st).getD .f32
  ⟨p, ⟨true, true, true, true, false⟩, some .f32, [srcOf S (polA p) none a], some (dstOf D d), D.isB || S.isB,
    (cvtTy dt).isNone || (cvtTy st).isNone⟩

/-- R119, R120 `cvt`. -/
def execCvt (p : Option Pfx) (d a : Sel) (dt st : BitVec 4) (s : State) : Host.Outcome State Fault Refusal :=
  let D := (cvtTy dt).getD .f32
  let S := (cvtTy st).getD .f32
  s.runLanes (.cvt p d a dt st) (cvtForm p d a dt st)
    fun th vs => fpRes th (cvtOut D (roundOf p th) th.ftz (satOf p) (cvtIn S th.ftz (arg vs 0)))

/-- R121 `pack`. -/
def execPack (p : Option Pfx) (d a b : Sel) (s : State) : Host.Outcome State Fault Refusal :=
  let t := elemTy p .f16
  s.runLanes (.pack p d a b) (packedForm p .f16 isHalf (srcsAB p a b none .f32) (dstOf .b32 d))
    fun th vs =>
      let e (n : Nat) : Nat × Fl := fout p t th (fin .f32 th (arg vs n), 0)
      fpRes th ((e 0).1 + (e 1).1 * 2 ^ 16, (e 0).2 ||| (e 1).2)

/-- The packed types (R106). -/
def isPacked (t : Ety) : Bool := isHalf t || t.isT

/-- Elements of a packed register (R117, R123). -/
def packCount (t : Ety) : Nat := if t.isT then 4 else 2

/-- The operand rules of `unpack` (R122). -/
def unpackForm (p : Option Pfx) (d a b : Sel) (imm : Option (BitVec 30)) : Form :=
  let ext := imm.map Ety.n32.ext
  fpForm p .f16 accNf isPacked (fun _ => [{ srcWord (polA p) a with ext := ext }, { srcWord (polB p) b with ext := ext }])
    (fun _ => some (dstOf .f32 d)) (fun t => b == 125 && (ext.map fun e => decide (packCount t ≤ e)).getD false)

/-- `unpack` (R122): the index as an immediate is an n32 (R107). -/
def unpackFp (i : Instr) (p : Option Pfx) (d a b : Sel) (imm : Option (BitVec 30)) (s : State) :
    Host.Outcome State Fault Refusal :=
  let t := elemTy p .f16
  s.runLanes i (unpackForm p d a b imm)
    fun th vs => fpRes th (Ety.f32.roundVal .rne (fin t th (packed t (arg vs 0) (arg vs 1 % packCount t))))

/-- R122 `unpack`. -/
def execUnpack (p : Option Pfx) (d a b : Sel) (s : State) : Host.Outcome State Fault Refusal :=
  unpackFp (.unpack p d a b) p d a b none s
/-- R122 `unpack`, form I. -/
def execUnpackImm (p : Option Pfx) (d a b : Sel) (imm : BitVec 30) (s : State) : Host.Outcome State Fault Refusal :=
  unpackFp (.unpackImm p d a b imm) p d a b (some imm) s

/-- The operand rules of `tdec` and `tenc` (R124, R125). -/
def taperForm (p : Option Pfx) (acc : Accept) (srcs : List Src) (dst : Dst) : Form :=
  fpForm p .t8 acc Ety.isT (fun _ => srcs) (fun _ => some dst) noTy

/-- R124 `tdec`. -/
def execTdec (p : Option Pfx) (d a : Sel) (e : BitVec 2) (s : State) : Host.Outcome State Fault Refusal :=
  let t := elemTy p .t8
  s.runLanes (.tdec p d a e) (taperForm p accNone [srcWord (polA p) a] (dstOf .f32 d))
    fun _ vs => justVal (Ety.f32.roundVal .rne (t.val (packed t (arg vs 0) e.toNat))).1

/-- R125 `tenc`: bits 31:24 of a register of T6 elements are written as zero (R123). -/
def execTenc (p : Option Pfx) (d a b : Sel) (e : BitVec 2) (s : State) : Host.Outcome State Fault Refusal :=
  let t := elemTy p .t8
  s.runLanes (.tenc p d a b e) (taperForm p accRndNf [srcOf .f32 (polA p) none a, srcWord (polB p) b] (dstOf .b32 d))
    fun th vs =>
      let r := t.roundVal (roundOf p th) (fin .f32 th (arg vs 0))
      fpRes th (setBits (arg vs 1 % 2 ^ (4 * t.width)) (t.width * e.toNat) t.width r.1, r.2)

/-- The operand rules of `qscale` (R126). -/
def qscaleForm (p : Option Pfx) (d a b : Sel) : Form :=
  fpForm p .f32 accAll isFp (fun t => [srcOf t (polA p) none a, srcWord (polB p) b]) (fun t => some (dstOf t d)) noTy

/-- R126 `qscale`: a scale of 0xFF gives the default NaN, +0 under SAT (R63), and raises nothing. -/
def execQscale (p : Option Pfx) (d a b : Sel) (neg : Bool) (bsel : BitVec 2) (s : State) : Host.Outcome State Fault Refusal :=
  let t := elemTy p .f32
  s.runLanes (.qscale p d a b neg bsel) (qscaleForm p d a b)
    fun th vs =>
      let e8 := bits (arg vs 1) (8 * bsel.toNat) 8
      if e8 = 0xFF then justVal (t.finish false (satOf p) (t.defaultNan, 0)).1
      else fpRes th (fout p t th (scaleVal (fin t th (arg vs 0)) (if neg then 127 - e8 else e8 - 127), 0))

/-- Types of the special functions (R106). -/
def isSfu (t : Ety) : Bool := t == .f32 || isHalf t

/-- R127 `sin`. -/
def execSin (p : Option Pfx) (d a : Sel) (s : State) : Host.Outcome State Fault Refusal :=
  sfuFp (.sin p d a) p d a isSfu (trigVal true) s
/-- R127 `cos`. -/
def execCos (p : Option Pfx) (d a : Sel) (s : State) : Host.Outcome State Fault Refusal :=
  sfuFp (.cos p d a) p d a isSfu (trigVal false) s
/-- R127 `fexp2`. -/
def execFexp2 (p : Option Pfx) (d a : Sel) (s : State) : Host.Outcome State Fault Refusal :=
  sfuFp (.fexp2 p d a) p d a isSfu exp2Val s
/-- R127 `flog2`. -/
def execFlog2 (p : Option Pfx) (d a : Sel) (s : State) : Host.Outcome State Fault Refusal :=
  sfuFp (.flog2 p d a) p d a isSfu log2Val s
/-- R127 `tanh`. -/
def execTanh (p : Option Pfx) (d a : Sel) (s : State) : Host.Outcome State Fault Refusal :=
  sfuFp (.tanh p d a) p d a isSfu tanhVal s
/-- R127 `sig`. -/
def execSig (p : Option Pfx) (d a : Sel) (s : State) : Host.Outcome State Fault Refusal :=
  sfuFp (.sig p d a) p d a isSfu sigVal s

end Sys2Proof.Machine
end

