-- ==== Sys2Proof/Machine/Power.lean ====
section
/-!
DEFINITION. Operating points, telemetry, the package budget, protective actions and policy answers (R317 to R338).
-/

namespace Sys2Proof.Machine

/-- The key of an island. -/
def islandKey (die isl : Nat) : Nat := 256 * die + isl

/-- The cluster of a lane island (R318). -/
def islandCluster (i : Nat) : Nat := 144 * (i / 256) + 9 * (i % 256 / 8) + i % 8

/-- A lane island (R318). -/
def isLane (i : Nat) : Bool := decide (i % 256 < 128)

/-- `Fmax(n)` (R320). -/
def fmax (n : Nat) : Nat :=
  if n ≤ 64 then 950 + 325 * (n - 48) / 4 / 25 * 25 else 2250 + 350 * (n - 64) / 6 / 25 * 25

/-- The least frequency of an island (R318). -/
def minMhz (i : Nat) : Nat := if isLane i then 950 else islandMhz (i % 256)

/-- The island's cluster rests (R348). -/
def State.resting (s : State) (i : Nat) : Bool := isLane i && (find? s.wear.rests (islandCluster i)).isSome

/-- FNOW (R322): what is delivered now. -/
def State.fnow (s : State) (i : Nat) : Nat :=
  let x := s.island i
  if x.gate || x.thermal == 2 || s.resting i then 0 else x.f

/-- The frequency an island is to run at (R317, R318, R322). -/
def Island.want (x : Island) (i : Nat) : Nat :=
  if !isLane i then islandMhz (i % 256) else if x.thermal = 0 then min x.mhz x.ceilf else minMhz i

/-- The frequency of a hop of a lane island that is in progress (R223). -/
def State.hopping (s : State) (i : Nat) : Option Nat := if isLane i then (s.cluster (islandCluster i)).clock.hop else none

/-- The voltage of a transition moves without waiting for a hop: one that a clamp finds on its way (R335). -/
def Island.ramping (x : Island) : Bool :=
  match x.move with
  | some m => m.ramp || decide (x.f ≤ m.freq)
  | none => false

/-- A transition toward the commanded point (R322), from the point reached, or from that of a hop in progress, which
completes; a `clamp` lets a ramp go on. -/
def State.transition (s : State) (i : Nat) (clamp : Bool) : State :=
  let hop := s.hopping i
  s.modIsland i fun x =>
    if x.gate then { x with move := none, f := 0 }
    else
      let f := x.want i
      if x.n = x.mv / 25 ∧ hop.getD x.f = f then { x with move := none }
      else { x with move := some ⟨x.mv / 25, f, false, clamp && x.ramping⟩ }

/-- A transition, unless the cluster rests: then it is made when the rest ends (R348). -/
def State.retarget (s : State) (i : Nat) (clamp : Bool) : State := if s.resting i then s else s.transition i clamp

/-- A bit of PWR_PROT_STAT is set. -/
def State.setProt (s : State) (b : Nat) : State :=
  { s with pwr := { s.pwr with prot := BitVec.ofNat 64 (setBits s.pwr.prot.toNat b 1 1) } }

/-- A boiling-limit clamp is in force on a die (R329): some CEILF lies below its island's MHZ. -/
def State.clamped (s : State) (d : Nat) : Bool :=
  (List.range 128).any fun k => decide ((s.island (islandKey d k)).ceilf < (s.island (islandKey d k)).mhz)

/-- A clamp that a step starts or ends on a die (R317, R329). -/
def State.noteClamp (s : State) (before : Bool) (d : Nat) : State :=
  let now := s.clamped d
  if now && !before then (s.setProt (8 + d)).protEvent 2 true d 0
  else if before && !now then s.protEvent 2 false d 0
  else s

/-- The voltage range of an island now, in steps (R318, R320). -/
def Island.range (x : Island) (i : Nat) : Nat × Nat :=
  if isLane i then (48, if x.boost.isSome then 70 else 64) else islandRange (i % 256)

/-- The status of a write of VSET (R321). -/
def Island.vsetStatus (x : Island) (i : Nat) (crews : Bool) (v : Word) : Status :=
  let mv := v.toNat % 2 ^ 16
  if isLane i && v.getLsbD 31 && crews then .busy
  else if mv % 25 ≠ 0 then .refused
  else if mv / 25 < (x.range i).1 then .vfloor
  else if (x.range i).2 < mv / 25 then .vceil
  else if isLane i && decide (fmax (mv / 25) < x.mhz) then .refused
  else .ok

/-- R321: commands a voltage or gating. An island that is switched on ramps from 0.60 V (R322). -/
def execPwrIslVsetWrite (die isl : Nat) (v : Word) (s : State) : Host.Outcome State Fault Refusal :=
  .next (
    let i := islandKey die isl
    if s.dieCount ≤ die then s else
    let crews := isLane i && (List.range 4).any fun sp => s.crewsOn (islandCluster i) sp != 0
    let st := (s.island i).vsetStatus i crews v
    if st ≠ .ok then s.modIsland i fun x => { x with status := st.code }
    else
      let g := v.getLsbD 31
      let s := s.modIsland i fun x => { x with
        status := st.code, gate := g, mv := v.toNat % 2 ^ 16
        n := if x.gate && !g then 48 else x.n, f := if x.gate && !g then 0 else x.f }
      s.retarget i false)

/-- The status of a write of FSET (R321). -/
def Island.fsetStatus (x : Island) (v : Word) : Status :=
  let f := v.toNat % 2 ^ 12
  if f % 25 ≠ 0 ∨ f < 950 ∨ fmax (x.mv / 25) < f then .refused else .ok

/-- R321: commands a frequency of a lane island; on the others the register is read-only. -/
def execPwrIslFsetWrite (die isl : Nat) (v : Word) (s : State) : Host.Outcome State Fault Refusal :=
  .next (
    let i := islandKey die isl
    if !isLane i ∨ s.dieCount ≤ die then s
    else
      let st := (s.island i).fsetStatus v
      if st ≠ .ok then s.modIsland i fun x => { x with status := st.code }
      else
        let before := s.clamped die
        let s := s.modIsland i fun x => { x with status := st.code, mhz := v.toNat % 2 ^ 12 }
        (s.noteClamp before die).retarget i false)

/-- R322: the idle synthesiser of a transition is locked. -/
def execSynthLockComplete (die isl : Nat) (s : State) : Host.Outcome State Fault Refusal :=
  .next (s.modIsland (islandKey die isl) fun x => { x with move := x.move.map fun m => { m with locked := true } })

/-- R322, R335: the voltage moves a step toward its target: once a fall of frequency has been made and no hop is in
progress, or in a ramp that a clamp does not hold up. An island that is not a lane island runs again once its ramp is
over. -/
def execVoltageStep (die isl : Nat) (s : State) : Host.Outcome State Fault Refusal :=
  .next (
    let i := islandKey die isl
    let x := s.island i
    match x.move with
    | none => s
    | some m =>
      if (!m.ramp && (decide (m.freq < x.f) || (s.hopping i).isSome)) ∨ x.n = m.target then s
      else s.modIsland i fun x =>
        let n := if x.n < m.target then x.n + 1 else x.n - 1
        ({ x with n := n, f := if !isLane i ∧ n = m.target then m.freq else x.f } : Island).settled)

/-- R2, R323: the stage registers, refreshed at a 1 ms boundary: stage 0 reads zero but on PLV-AZB-M8 (R1), and stage 1 too on
a package of the customer's. -/
def execStageTelemetryRefresh (vi0 te0 vi1 te1 : DWord) (s : State) : Host.Outcome State Fault Refusal :=
  let te (v : DWord) : DWord := BitVec.ofNat 64 (v.toNat % 2 ^ 32)
  .next (if s.timer % 1000000 ≠ 0 then s
    else { s with pwr := { s.pwr with stages := match s.code with
      | .dies => [0, 0, 0, 0]
      | .package => [0, 0, vi1, te te1]
      | .module => [vi0, te te0, vi1, te te1] } })

/-- A sample of an island's telemetry added to what the interval has gathered (R342). -/
def Gather.sample (g : Gather) (v : DWord) : Gather :=
  { g with
    vSum := g.vSum + bits v.toNat 48 16, iSum := g.iSum + bits v.toNat 32 16
    tSum := g.tSum + toSigned 12 (bits v.toNat 20 12), count := g.count + 1 }

/-- R324: an island's telemetry, whose energy is to be charged (R333); a sample taken while the island is powered counts in its wear (R342). -/
def execIslandTelemetryRefresh (die isl : Nat) (v : DWord) (s : State) : Host.Outcome State Fault Refusal :=
  .next (
    let i := islandKey die isl
    if s.dieCount ≤ die then s else
    let s := s.modIsland i fun x => { x with tel := v }
    let s := { s with pwr := { s.pwr with energy := insert s.pwr.energy i (findD s.pwr.energy i 0 + v.toNat % 2 ^ 20) } }
    if (s.island i).gate || s.resting i then s
    else { s with wear := s.wear.modGather i fun g => g.sample v })

/-- R325: a stall window ends, at a multiple of 10,000 ticks. -/
def execStallWindow (ci : Nat) (s : State) : Host.Outcome State Fault Refusal :=
  .next (
    if s.timer % 10000 ≠ 0 then s
    else
      let c := s.cluster ci
      let s := { s with pwr := { s.pwr with sumOpp := s.pwr.sumOpp + c.winOpp, sumStall := s.pwr.sumStall + c.winStall } }
      s.setCluster ci { c with
        issueStall := BitVec.ofNat 64 (c.winOpp % 2 ^ 32 * 2 ^ 32 + c.winStall % 2 ^ 32), winOpp := 0, winStall := 0 })

/-- MSHARE within its bounds (R327). -/
def clampShare (n : Nat) : Nat := max 27 (min 109 n)

/-- The default policy (R327), on the sums of the interval's stall windows and the bytes moved of `peak`. -/
def defaultShare (share opp stall moved peak : Nat) : Nat :=
  let rise := opp ≠ 0 ∧ 3 * opp ≤ 10 * stall ∧ 4 * peak ≤ 5 * moved
  let fall := opp = 0 ∨ 10 * stall ≤ opp ∨ 2 * moved ≤ peak
  clampShare (if rise then share + 8 else if fall then share - 8 else share)

/-- The hint in force at a boundary (R338): a newly answered one replaces another; one whose duration has run out
ends. -/
def Power.hintNow (p : Power) (timer : Nat) : Option (Nat × Option Nat) :=
  (p.nextHint.or p.hint).bind fun h => match h.2 with
    | some e => if e ≤ timer then none else some h
    | none => some h

/-- The limits of an interval (R327). A compute share below zero is not stated: its 16 bits are then free. -/
def State.setLimits (s : State) : State :=
  let p := s.pwr
  let lmem := min 640 (max 160 (p.mshare * p.pkgLim / 1024))
  let r : Nat × State := if p.rsv + lmem ≤ p.pkgLim then (p.pkgLim - p.rsv - lmem, s)
    else
      let f := s.freeValue
      (f.1.toNat % 2 ^ 16, f.2)
  { r.2 with pwr := { r.2.pwr with
    lmem := lmem, lcomp := r.1, dieLim := p.caps.map fun c => min c (r.1 / 4) } }

/-- The energy of an island over an interval is divided among the contexts it worked for, in proportion (R333), to whole µJ
(log entry 78); what it did for none is charged to none. -/
def State.charge (s : State) (i e : Nat) : State :=
  let takers := s.pwr.takers.filter fun p => p.1 / 256 == i
  let all := takers.foldl (fun n p => n + p.2) 0
  takers.foldl (fun s p => s.modCtx (p.1 % 256) fun x =>
    if x.live then { x with energy := x.energy + e * p.2 / all } else x) s

/-- The bytes that the stacks could have moved in 100 stall windows of 10 µs at 3.2 TB/s each (R327). -/
def State.peakBytes (s : State) : Nat := 3200000000 * (4 * s.dieCount)

/-- R327, R333, R338: a 1 ms boundary of the power controller. `read` and `written` are the bytes that moved between the
home agents and the stacks in the stall windows that ended in the interval; `table`, what the host did with a policy table. -/
def execPowerBoundary (read written : Nat) (table : Option Bool) (s : State) : Host.Outcome State Fault Refusal :=
  .next (
    let p := s.pwr
    if s.timer % 1000000 ≠ 0 ∨ p.bound = some s.timer then s
    else
      let hint := p.hintNow s.timer
      let set := table.getD p.table
      let share := match hint with
        | some h => clampShare h.1
        | none =>
          if s.timer = 0 ∨ set then p.mshare else defaultShare p.mshare p.sumOpp p.sumStall (read + written) s.peakBytes
      let s := { s with pwr := { p with
        table := set, bound := some s.timer, hint := hint, nextHint := none, mshare := share, sumOpp := 0, sumStall := 0 } }
      let s := p.energy.foldl (fun s e => s.charge e.1 e.2) s.setLimits
      { s with pwr := { s.pwr with energy := [], takers := [] } })

/-- R328: a 10 µs sample of the memory rail. -/
def execMemoryRailSample (watts : Nat) (s : State) : Host.Outcome State Fault Refusal :=
  .next (
    let p := s.pwr
    if p.lmem < watts then
      let s' := { s with pwr := { p with memRate := max 8 (p.memRate - 1), memLow := 0 } }
      if p.memRate = 16 then (s'.setProt 7).protEvent 3 true 0xFF 0 else s'
    else if 19 * p.lmem < 20 * watts then { s with pwr := { p with memLow := 0 } }
    else if p.memLow + 1 < 100 then { s with pwr := { p with memLow := p.memLow + 1 } }
    else
      let s' := { s with pwr := { p with memRate := min 16 (p.memRate + 1), memLow := 0 } }
      if p.memRate = 15 then s'.protEvent 3 false 0xFF 0 else s')

/-- The lane islands of a die get a new ceiling. -/
def State.setCeilings (s : State) (d : Nat) (f : Nat → Nat) : State :=
  let before := s.clamped d
  let s := (List.range 128).foldl (fun s k =>
    let i := islandKey d k
    let c := f i
    if c = (s.island i).ceilf then s else (s.modIsland i fun x => { x with ceilf := c }).retarget i true) s
  s.noteClamp before d

/-- The energy of a die's islands 0 to 243 over 10 µs, in µJ: ten times its power in W (R329). -/
def State.dieEnergy (s : State) (d : Nat) : Nat :=
  (List.range 244).foldl (fun n k => n + (s.island (islandKey d k)).tel.toNat % 2 ^ 20) 0

/-- R329: a die's power sample steps the boiling-limit clamp. -/
def execDiePowerSample (die : Nat) (s : State) : Host.Outcome State Fault Refusal :=
  .next (
    let e := s.dieEnergy die
    let lim := nth s.pwr.dieLim die 0
    let setQ (s : State) (q : Nat) (h : Bool) : State :=
      { s with pwr := { s.pwr with quiet := setNth s.pwr.quiet die q, halved := setNth s.pwr.halved die h } }
    let lanes := (List.range 128).map (islandKey die)
    if 10 * lim < e then
      if lanes.any fun i => decide (950 < (s.island i).ceilf) then
        (setQ s 0 (nth s.pwr.halved die false)).setCeilings die fun i =>
          let c := (s.island i).ceilf
          max 950 ((if 0 < s.fnow i then min c (s.fnow i) else c) - 100)
      else setQ s 0 true
    else if 19 * 10 * lim < 20 * e then setQ s 0 false
    else
      let q := nth s.pwr.quiet die 0 + 1
      if q < 100 then setQ s q false
      else if lanes.any fun i => decide ((s.island i).ceilf < 2600) then
        (setQ s 0 false).setCeilings die fun i => (s.island i).ceilf + 100
      else setQ s 0 false)

/-- R317: an island at 100 °C or more goes to its least frequency. -/
def execThermalClampStart (die isl : Nat) (temp : BitVec 12) (s : State) : Host.Outcome State Fault Refusal :=
  .next (
    let i := islandKey die isl
    if temp.toInt < 800 ∨ (s.island i).thermal ≠ 0 then s
    else (((s.modIsland i fun x => { x with thermal := 1 }).setProt 6).protEvent 4 true die isl).retarget i false)

/-- R317, R360: an island at 110 °C or more stops its clocks; that is a fatal event. -/
def execThermalTrip (die isl : Nat) (temp : BitVec 12) (s : State) : Host.Outcome State Fault Refusal :=
  .next (
    let i := islandKey die isl
    let t := (s.island i).thermal
    if temp.toInt < 880 ∨ t = 2 then s
    else
      let s := if t = 0 then (s.setProt 6).protEvent 4 true die isl else s
      let s := ((s.modIsland i fun x => { x with thermal := 2 }).setProt 5).protEvent 5 true die isl
      (s.retarget i false).fatal (some 3))

/-- R317: at 95 °C or less a trip gives way to the clamp, and a clamp ends. -/
def execThermalRecover (die isl : Nat) (temp : BitVec 12) (s : State) : Host.Outcome State Fault Refusal :=
  .next (
    let i := islandKey die isl
    let t := (s.island i).thermal
    if 760 < temp.toInt ∨ t = 0 then s
    else
      let s := s.modIsland i fun x => { x with thermal := t - 1 }
      (s.protEvent (if t = 2 then 5 else 4) false die isl).retarget i false)

/-- R332: a boost ends; a point above 64 steps is written down to 64. -/
def execBoostEnd (die isl : Nat) (s : State) : Host.Outcome State Fault Refusal :=
  .next (
    let i := islandKey die isl
    match (s.island i).boost with
    | none => s
    | some e =>
      if s.timer < e then s
      else
        let s := s.modIsland i fun x => { x with boost := none }
        if (s.island i).mv ≤ 1600 then s
        else
          let before := s.clamped die
          let s := s.modIsland i fun x => { x with mv := 1600, mhz := min x.mhz 2250, status := Status.ok.code }
          let s := ((s.noteClamp before die).setProt 4).protEvent 6 true die isl
          (s.protEvent 6 false die isl).retarget i false)

/-- The status an answer stores (R331). -/
def answerStatus (v : Nat) : Nat := if v = 0 ∨ v = 2 ∨ v = 3 ∨ v = 4 then v else Status.refused.code

/-- R331, R338: an answer to an outstanding ticket posts a completion record; a kind 1 hint answered OK applies from the
next boundary. -/
def execPolicyAnswer (v : DWord) (s : State) : Host.Outcome State Fault Refusal :=
  .next (
    let n := bits v.toNat 40 24
    let ctx := bits v.toNat 32 8
    let st := answerStatus (bits v.toNat 0 8)
    match find? s.pwr.tickets n with
    | none => s
    | some t =>
      if t.ctx ≠ ctx then s
      else
        let hint := if t.kind = 1 ∧ st = 0 then
            some (t.value % 2 ^ 16, if t.dur = 0 then none else some (s.timer + t.dur))
          else s.pwr.nextHint
        let s := { s with pwr := { s.pwr with tickets := erase s.pwr.tickets n, nextHint := hint } }
        let r : CRec := {
          tag := n % 2 ^ 8, fault := 0, source := 5, opc := 0, status := st, progress := n, addr := 0, failed := [] }
        if s.cohorts.any fun p => p.2.ci == t.ci && p.2.ctx == ctx && p.2.phase != .saved then s.postEvent t.ci r
        else s.bump .cluStray t.ci 1)

end Sys2Proof.Machine
end

