-- ==== Sys2Proof/Machine/Wear.lean ====
section
/-!
DEFINITION. Wear boundaries, rests and signed wear reports (R339 to R354, R365).
-/

namespace Sys2Proof.Machine

/-- Wear units of a die (R339). -/
def unitCount : Nat := 829

/-- The logical cluster that a physical one serves (R362): the position it holds in its group's remap entry. -/
def State.servesCluster (s : State) (d c : Nat) : Nat :=
  let g := c / 9
  let pos := c % 9
  let map := (findD s.mc.remapClu (16 * d + g) 0x76543210).toNat
  144 * d + 9 * g + (((List.range 8).find? fun p => bits map (4 * p) 4 == pos).getD pos)

/-- The logical slice that a physical one serves (R362). -/
def State.servesSlice (s : State) (d p : Nat) : Nat :=
  if p < 96 then p else bits (findD s.mc.remapSlc d 0).toNat (8 * (p - 96)) 7

/-- The island from which unit `u` of die `d` takes its inputs (R339). -/
def State.unitIsland (s : State) (d u : Nat) : Nat :=
  if u < 144 then laneIsland (s.servesCluster d u)
  else if u < 720 then laneIsland (s.servesCluster d ((u - 144) / 4))
  else if u < 820 then islandKey d (144 + s.servesSlice d (u - 720))
  else islandKey d (244 + (u - 820))

/-- IREF in units of 10 mA (R345). -/
def iRef (u : Nat) : Nat := if u < 720 then 1000 else if u < 820 then 200 else 300

/-- NREF (R345). -/
def nRef (u : Nat) : Nat := if u < 720 then 1125000 else if u < 820 then 750000 else 437500

/-- Bins, powered fraction and activity factor of an interval of `len` ticks (R342), in place of those of the last. -/
def WearUnit.inputs (x : WearUnit) (u : Nat) (g : Gather) (len n : Nat) : WearUnit :=
  let y : WearUnit := { x with
    fb := 256 * (len - g.rev - g.off - g.cold) / 1000000, fah := min 1023 (256 * n / nRef u) }
  if g.count = 0 then y
  else { y with
    vb := min 12 ((g.vSum / (2 * g.count) - 600) / 25)
    tb := min 8 ((g.tSum / (80 * g.count) - 3).toNat)
    jb := min 11 (8 * g.iSum / (g.count * iRef u)) }

/-- Whether a unit's records change at a boundary (R346). -/
def WearUnit.live (x : WearUnit) : Bool := decide (x.state < 3)

/-- The increments and the recovery of a unit over an interval (R346). Only clusters are reverse-biased (R348). -/
def WearUnit.accrue (x : WearUnit) (u : Nat) (g : Gather) : WearUnit :=
  let db := if x.fb = 0 then 0 else tri (fvB x.vb) (ftB x.tb) x.fb
  let dh := if x.fb = 0 then 0 else tri (fvH x.vb) (ftH x.tb) x.fah
  let de := if x.fb = 0 then 0 else tri (fj x.jb) (ftE x.tb) x.fb
  let pool := min 100000 (x.pool + 3 * db / 10)
  let rev := if u < 144 then 600 * g.rev / 1000000 else 0
  let drain := min pool (rev + 150 * g.off / 1000000)
  { x with b := x.b + db - drain, h := x.h + dh, e := x.e + de, pool := pool - drain }

/-- The update of a cluster's budget at a boundary (R351, R353): `boosted` when a boost is in force, `before` the worst
record before the interval. -/
def WearUnit.budgeted (x : WearUnit) (arate : Nat) (boosted : Bool) (before : Nat) : WearUnit :=
  { x with
    allow := x.allow + arate
    hold := if boosted then x.hold - (x.worst - before - x.base) else 0
    base := if boosted then x.base else 0 }

/-- A boost is in force on an island at this tick (R353). -/
def State.boosted (s : State) (i : Nat) : Bool :=
  match (s.island i).boost with
  | some e => decide (s.timer < e)
  | none => false

/-- A unit after the records of a boundary are updated (R342, R346, R351, R353). -/
def State.accrued (s : State) (arate : Nat) (activity : List (Nat × Nat)) (d u : Nat) : WearUnit :=
  let k := 1024 * d + u
  let x := s.wunit k
  if !x.live then x
  else
    let i := s.unitIsland d u
    let g := findD s.wear.gather i Gather.zero
    let n := findD (if u < 144 then s.wear.started else activity) k 0
    let y := (x.inputs u g 1000000 n).accrue u g
    if u < 144 then y.budgeted arate (s.boosted i) x.worst else y

/-- A list sorted by an order, each entry placed before those it may precede. -/
def sortBy {α : Type} (le : α → α → Bool) (l : List α) : List α :=
  l.foldr (fun a r => r.takeWhile (fun b => !le a b) ++ a :: r.dropWhile (fun b => !le a b)) []

/-- The `n`-th smallest of some numbers, from 1. -/
def nthSmallest (l : List Nat) (n : Nat) : Nat := nth (sortBy (fun a b => decide (a ≤ b)) l) (n - 1) 0

/-- Descending B, then ascending number (R348). -/
def rotationOrder (l : List (Nat × WearUnit)) : List (Nat × WearUnit) :=
  sortBy (fun a b => decide (b.2.b < a.2.b) || (decide (a.2.b = b.2.b) && decide (a.1 ≤ b.1))) l

/-- The clusters of a die that the rotation marks (R348). -/
def marked (ctl : DWord) (cs : List (Nat × WearUnit)) : List Nat :=
  let live := cs.filter fun p => p.2.live
  let med := nthSmallest (live.map fun p => p.2.b) ((live.length + 1) / 2)
  let rmax := bits ctl.toNat 24 4
  let worn (x : WearUnit) : Bool := bit ctl.toNat 31 && decide ((1000 + bits ctl.toNat 8 8) * med < 1000 * x.b)
  let resting := (live.filter fun p => p.2.state != 0).length
  (((rotationOrder live).filter fun p => p.2.state == 0 && p.2.rgap == 0 && worn p.2).take (rmax - resting)).map Prod.fst

/-- The composite wear index (R350) of a unit with the means of its die. -/
def WearUnit.index (x : WearUnit) (mb mh me : Nat) : Nat :=
  let r (m v : Nat) : Nat := if m = 0 then 65536 else 65536 * v / m
  max (r mb x.b) (max (r mh x.h) (r me x.e))

/-- The clusters of a die after the rotation, the countdowns and the index of a boundary (R347 to R350). -/
def turned (ctl : DWord) (cs : List (Nat × WearUnit)) : List (Nat × WearUnit) :=
  let live := cs.filter fun p => p.2.live
  let mean (f : WearUnit → Nat) : Nat := (live.foldl (fun n p => n + f p.2) 0) / live.length
  let mb := mean WearUnit.b
  let mh := mean WearUnit.h
  let me := mean WearUnit.e
  let ms := marked ctl cs
  cs.map fun p =>
    let x := p.2
    if !x.live then (p.1, { x with widx := 0 })
    else (p.1, { x with
      state := if ms.contains p.1 then 1 else x.state, rleft := x.rleft - 1, rgap := x.rgap - 1
      widx := x.index mb mh me })

/-- The allowance of a powered interval (R351). -/
def Wear.rate (w : Wear) : Nat := w.eol / (w.tgt * 86400000)

/-- The results of a boundary (R346 to R351). -/
def State.wearUpdate (s : State) (arate : Nat) (activity : List (Nat × Nat)) : FMap WearUnit :=
  (List.range s.dieCount).flatMap fun d =>
    let at_ (u : Nat) : Nat × WearUnit := (1024 * d + u, s.accrued arate activity d u)
    turned s.wear.ctlNew ((List.range 144).map at_) ++ (List.range (unitCount - 144)).map fun u => at_ (144 + u)

/-- R341: a boundary's update starts; `activity` lists the counts N of the interval (R345) of matrix units, slices and ports,
0 for one not listed; those of clusters have been counted. -/
def execWearBoundary (activity : List (Nat × Nat)) (s : State) : Host.Outcome State Fault Refusal :=
  .next (
    let w := s.wear
    if s.timer % 1000000 ≠ 0 ∨ s.timer = w.last ∨ w.next.isSome then s
    else { s with wear := { w with
      ctl := w.ctlNew, seq := (w.seq + 1) % 2 ^ 64, last := s.timer, gather := [], started := [], arate := w.rate
      next := some (s.wearUpdate w.rate activity) } })

/-- R341, R365: the update publishes its results together and commits them to the MRAM, in place of the older copy. -/
def execWearUpdateComplete (s : State) : Host.Outcome State Fault Refusal :=
  .next (match s.wear.next with
    | none => s
    | some m =>
      let seq := (s.wear.seq + 1) % 2 ^ 64
      { s with wear := { s.wear with units := m, seq := seq, next := none, mram := ⟨m, seq, true⟩ :: s.wear.mram.take 1 } })

/-- No crew of any cohort is resident on a cluster. -/
def State.empty (s : State) (ci : Nat) : Bool := (List.range 4).all fun sp => s.crewsOn ci sp == 0

/-- R348: the rest of a pending cluster starts, with the kind and length that WEAR_CTL now holds. -/
def execRestStart (ci : Nat) (s : State) : Host.Outcome State Fault Refusal :=
  .next (
    let u := s.clusterUnit ci
    if !s.isCluster ci ∨ (s.wunit u).state ≠ 1 ∨ !s.empty ci then s
    else
      let len := bits s.wear.ctlNew.toNat 16 8
      let rev := !bit s.wear.ctlNew.toNat 30
      let s := s.modUnit u fun x => { x with state := 2, rleft := len }
      let s := { s with wear := { s.wear with rests := insert s.wear.rests ci (s.timer + 1000000 * len, rev) } }
      (s.modIsland (laneIsland ci) fun x => { x with move := none }).modClock ci Clock.unhop)

/-- R348: a rest ends, and the island ramps to its commanded point as after gating (R322). -/
def execRestEnd (ci : Nat) (s : State) : Host.Outcome State Fault Refusal :=
  .next (match find? s.wear.rests ci with
    | none => s
    | some (due, _) =>
      if s.timer < due then s
      else
        let gap := bits s.wear.ctl.toNat 32 8
        let s := s.modUnit (s.clusterUnit ci) fun x => { x with state := 0, rleft := 0, rgap := gap }
        let s := { s with wear := { s.wear with rests := erase s.wear.rests ci } }
        (s.modIsland (laneIsland ci) fun x => { x with n := 48, f := 0 }).transition (laneIsland ci) false)

/-- The six registers of a unit that a report holds (R340, R354). -/
def WearUnit.bytes (x : WearUnit) : List Byte :=
  toBytes x.b 8 ++ toBytes x.h 8 ++ toBytes x.e 8
    ++ toBytes (x.base % 2 ^ 24 * 2 ^ 24 + x.pool) 8
    ++ toBytes (x.state * 2 ^ 61 + x.rleft * 2 ^ 49 + x.rgap * 2 ^ 41 + x.widx % 2 ^ 32) 8
    ++ toBytes x.allow 8

/-- The 159,304 bytes of a report (R354): the registers of absent dies read zero (R2). -/
def State.reportBytes (s : State) (nonce : List Byte) : List Byte :=
  let body := toBytes 1 4 ++ toBytes unitCount 2 ++ toBytes 0 2 ++ nonce
    ++ toBytes (s.wear.seq / 2 * 2) 8 ++ toBytes s.timer 8 ++ toBytes s.wear.eol 8 ++ toBytes s.wear.tgt 4 ++ toBytes 0 4
    ++ ((List.range 4).flatMap fun d => (List.range unitCount).flatMap fun u =>
      if d < s.dieCount then (s.wunit (1024 * d + u)).bytes else toBytes 0 48)
  body ++ signBytes body

/-- A write of WEAR_RPT (R354): with GO a report is made. -/
def State.rptWrite (s : State) (v : DWord) : State :=
  let pa := bits v.toNat 12 40 * 2 ^ 12
  let err := bits s.wear.rpt.toNat 1 1
  let set (s : State) (e : Nat) : State := { s with wear := { s.wear with rpt := BitVec.ofNat 64 (pa + 2 * e) } }
  if !bit v.toNat 0 then set s err
  else if s.isDevice pa && s.isDevice (pa + 159303) then
    set (s.hubWrite pa (s.reportBytes (s.mem.getBytes pa 32))) 0
  else set s 1

/-- R354: a write of WEAR_RPT. -/
def execWearReport (v : DWord) (s : State) : Host.Outcome State Fault Refusal := .next (s.rptWrite v)

end Sys2Proof.Machine
end

