-- ==== Sys2Proof/Machine/Errors.lean ====
section
/-!
DEFINITION. Errors of the storage arrays, spare calls, boot, resets and plain register accesses (R8, R356 to R364).
-/

namespace Sys2Proof.Machine

/-- An error of an array is counted in its instance and recorded (R356). -/
def State.countEcc (s : State) (r : RcReg) (i unit world addr : Nat) (bad : Bool) : State :=
  let f := s.freeValue
  let s := f.2.bump r i (if bad then 1 else 2 ^ 32)
  s.postError (if bad then 2 else 1) (if bad then 0 else 1) unit world (f.1.toNat % 2 ^ 32) addr

/-- The unit of a line's slice (R358). -/
def sliceUnit (n : Nat) : Nat := unitCode (128 * n / dieBytes) 2 (sliceOf (128 * n))

/-- The instance of a line's slice. -/
def sliceIndex (n : Nat) : Nat := 100 * (128 * n / dieBytes) + sliceOf (128 * n)

/-- A line is marked poisoned (R356). -/
def State.poisonLine (s : State) (n : Nat) (bad : Bool) : State :=
  if bad then s.setLine n { s.line n with poison := true, halves := 0 } else s

/-- A cache level may hold a line (R249): a cluster's L1 and a remote-data cache hold lines of host memory too. -/
def State.cacheMay (s : State) (level line : Nat) : Bool :=
  s.isDevice (128 * line) || ((level == 0 || level == 3) && isHost (128 * line))

/-- An error of a cache is counted at its cluster, slice or home agent, and recorded; one of a remote-data cache is recorded
as its central crossbar's (R356, R358; log entry 58). -/
def State.countCached (s : State) (level ci line : Nat) (bad : Bool) : State :=
  let w := (s.line line).tag
  match level with
  | 0 => s.countEcc .cluEcc ci (clusterCode ci) w (128 * line) bad
  | 1 => s.countEcc .slcEcc (sliceIndex line) (sliceUnit line) w (128 * line) bad
  | 2 => s.countEcc .homEcc (stackOf (128 * line)) (lineUnit line) w (128 * line) bad
  | _ =>
    let f := s.freeValue
    f.2.postError (if bad then 2 else 1) (if bad then 0 else 1) (unitCode (dieOf ci) 6 16) w (f.1.toNat % 2 ^ 32) (128 * line)

/-- A clean entry of a cache is dropped, and fetched again at the next access (R356). -/
def State.dropCopy (s : State) (level ci line : Nat) : State :=
  let other (key : Nat) (_ : List Byte) : Bool := key / 16 != line
  match level with
  | 0 => s.modCluster ci fun c => { c with nc := filterMap c.nc other }
  | 3 => s.modDie (dieOf ci) fun d => { d with rdc := d.rdc.filter fun e => e.1 != line, nc := filterMap d.nc other }
  | _ => s

/-- An access meets an error in an array (R356). What is not there has none. -/
def State.arrayError (s : State) (a : ArrayError) : State :=
  match a with
  | .register co k reg bad =>
    match find? s.cohorts co with
    | none => s
    | some c =>
      match c.phys? (k / 32) reg with
      | none => s
      | some _ =>
        let s := if bad then s.modCohort co fun c => { c with crews := modify c.crews (k / 32) fun w =>
            { w with regs := modify w.regs reg fun r => { r with poison := r.poison ||| (1#32 <<< (k % 32)) } } }
          else s
        s.countEcc .cluEcc c.ci (clusterCode c.ci) c.world 0 bad
  | .scratch ci line bad =>
    if !s.isCluster ci ∨ 4096 ≤ line then s
    else
      let s := if bad then s.modCluster ci fun cl =>
          { cl with scratchPoison := line :: cl.scratchPoison.filter (· != line) } else s
      s.countEcc .cluEcc ci (clusterCode ci) (bits (s.cluster ci).spadWorld.toNat (4 * (line / 128)) 4) 0 bad
  | .template co entry reg bad =>
    match find? s.cohorts co with
    | none => s
    | some c =>
      if c.phase = .saved ∨ c.ewes.length ≤ entry ∨ 256 ≤ reg then s
      else
        let s := if bad then s.modCohort co fun c => { c with ewes := c.ewes.modify entry fun e =>
            { e with sick := (reg :: e.sick).eraseDups } }
          else s
        s.countEcc .cluEcc c.ci (clusterCode c.ci) c.world 0 bad
  | .cached level ci line bad =>
    if !s.cacheMay level line ∨ !s.isCluster ci then s else (s.poisonLine line bad).countCached level ci line bad
  | .tag level ci line dirty =>
    if !s.cacheMay level line ∨ !s.isCluster ci then s
    else
      let s := if dirty || (level == 1 && (s.line line).held.isSome) then s.poisonLine line true else s.dropCopy level ci line
      s.countCached level ci line true
  | .mram copy bad =>
    let f := s.freeValue
    let s := f.2.postError (if bad then 2 else 1) (if bad then 0 else 1) (unitCode 0 7 2) 0 (f.1.toNat % 2 ^ 32) 0
    if !bad then s
    else
      ({ s with wear := { s.wear with mram := s.wear.mram.modify copy fun m => { m with sound := false } } }).fatal (some 8)
  | .shadow line bad =>
    match find? s.shadows line with
    | none => s
    | some sh =>
      let s := if bad then { s with shadows := insert s.shadows line { sh with poison := true } } else s
      s.countEcc .slcEcc (sliceIndex line) (sliceUnit line) sh.world (128 * line) bad
  | .stack line bad =>
    if !s.isDevice (128 * line) then s else s.setLine line { s.line line with latent := if bad then 2 else 1 }
  | .clusterTlb ci i =>
    if !s.isCluster ci then s
    else
      let s := s.modCluster ci fun c => { c with tlb := c.tlb.take i ++ c.tlb.drop (i + 1) }
      s.countEcc .cluEcc ci (clusterCode ci) 0 0 true
  | .dieTlb d i =>
    if s.dieCount ≤ d then s
    else
      let f := s.freeValue
      let s := f.2.modDie d fun n => { n with tlb := n.tlb.take i ++ n.tlb.drop (i + 1) }
      s.postError 2 0 (unitCode d 6 16) 0 (f.1.toNat % 2 ^ 32) 0
  | .queue co =>
    match find? s.cohorts co with
    | none => s
    | some c => (s.countEcc .cluEcc c.ci (clusterCode c.ci) c.world 0 true).endContext c.ctx 0x04

/-- Fields of MC_SPARE_CALL (R362). -/
def spareGo (v : Word) : Bool := bit v.toNat 31
def spareKind (v : Word) : Bool := bit v.toNat 30
def spareDie (v : Word) : Nat := bits v.toNat 28 2
def spareNum (v : Word) : Nat := bits v.toNat 0 7

/-- A unit that fails has its interval's accrual applied and is frozen (R349); the activity of one that is no cluster is a
free value. -/
def State.failUnit (s : State) (d u : Nat) : State :=
  let i := s.unitIsland d u
  let g := findD s.wear.gather i Gather.zero
  let f := if u < 144 then (BitVec.ofNat 64 (findD s.wear.started (1024 * d + u) 0), s) else s.freeValue
  let n := f.1.toNat % 2 ^ 32
  let len := s.timer % 1000000
  f.2.modUnit (1024 * d + u) fun x =>
    if x.live then { (x.inputs u g len n).accrue u g with state := 4, widx := 0 } else { x with state := 4 }

/-- A called spare becomes active (R349); its interval begins now. -/
def State.callUnit (s : State) (d u : Nat) : State :=
  s.modUnit (1024 * d + u) fun x =>
    if u < 144 then { x with state := 0, allow := x.worst, hold := 0, base := 0 } else { x with state := 0 }

/-- What a new unit of an island has gathered (R349). -/
def State.freshGather (s : State) (i : Nat) : State :=
  { s with wear := { s.wear with gather := insert s.wear.gather i { Gather.zero with cold := s.timer % 1000000 } } }

/-- Records of units that a call changed are written to the MRAM with the remap entry (R363). -/
def State.saveUnits (s : State) (ks : List Nat) : State :=
  { s with
    wear := { s.wear with mram := s.wear.mram.modify 0 fun m =>
        { m with units := ks.foldl (fun m k => insert m k (s.wunit k)) m.units } }
    mc := { s.mc with configs := s.mc.configs + 1 } }

/-- A call ends: STATUS, GO and the KIND 5 event (R359, R362, R363). -/
def State.spareDone (s : State) (kind d num failed spare : Nat) : State :=
  let unit := unitCode d (2 * kind) num
  let s := s.bbx 5 d unit 0 0xFF
    (evData (toBytes kind 1 ++ toBytes 0 1 ++ toBytes num 2 ++ toBytes failed 2 ++ toBytes spare 2))
  { s with mc := { s.mc with spareStat := Status.ok.code, spareCall := s.mc.spareCall &&& 0x7FFFFFFF } }

/-- The wear units of a physical cluster: itself and its matrix units (R339). -/
def clusterUnits (c : Nat) : List Nat := c :: (List.range 4).map fun sp => 144 + 4 * c + sp

/-- The status of a call (R362). -/
def State.callRefused (s : State) : State := { s with mc := { s.mc with spareStat := Status.refused.code } }

/-- A cluster call begins (R362, R363 step 1), unless no spare is left: the cluster then fails for good. -/
def State.callCluster (s : State) (v : Word) : State :=
  let d := spareDie v
  let ci := 144 * d + 9 * (spareNum v / 8) + spareNum v % 8
  let c := s.physCluster ci % 144
  let spare := 9 * (c / 9) + 8
  if (s.wunit (1024 * d + c)).state = 4 then s.callRefused
  else if (s.wunit (1024 * d + spare)).state ≠ 3 then
    ((clusterUnits c).foldl (fun s u => s.failUnit d u) s).callRefused
  else { s with mc := { s.mc with spareCall := s.mc.spareCall ||| 0x80000000 } }

/-- A slice call (R362, R363): the slice's accesses wait while its lines, shadows, tiles and interests, which the
machine keeps by logical slice, move into the spare. -/
def State.callSlice (s : State) (v : Word) : State :=
  let d := spareDie v
  let sl := spareNum v
  let p := s.physSlice d sl
  if 96 ≤ sl ∨ (s.wunit (1024 * d + 720 + p)).state = 4 then s.callRefused
  else
    match (List.range 4).find? (fun k => (s.wunit (1024 * d + 816 + k)).state == 3) with
    | none => (s.failUnit d (720 + p)).callRefused
    | some k =>
      let s := s.failUnit d (720 + p)
      let m := (findD s.mc.remapSlc d 0).toNat
      let m := if 96 ≤ p then setBits m (8 * (p - 96)) 8 0 else m
      let m := setBits m (8 * k) 8 (128 + sl)
      let s := { s with mc := { s.mc with remapSlc := insert s.mc.remapSlc d (BitVec.ofNat 32 m) } }
      let s := (s.callUnit d (816 + k)).freshGather (islandKey d (144 + sl))
      (s.saveUnits [1024 * d + 720 + p, 1024 * d + 816 + k]).spareDone 1 d sl p (96 + k)

/-- A write of MC_SPARE_CALL (R362): while a call runs, another is BUSY. -/
def State.spareWrite (s : State) (v : Word) : State :=
  if spareGo s.mc.spareCall then
    if spareGo v then { s with mc := { s.mc with spareStat := Status.busy.code } } else s
  else
    let s := { s with mc := { s.mc with spareCall := v &&& 0x7000007F } }
    if !spareGo v then s else if s.dieCount ≤ spareDie v then s.callRefused else if spareKind v then s.callSlice v else s.callCluster v

/-- R363: a write of MC_SPARE_CALL with KIND 0. -/
def execClusterSpareCall (v : Word) (s : State) : Host.Outcome State Fault Refusal := .next (s.spareWrite v)

/-- R363: a write of MC_SPARE_CALL with KIND 1. -/
def execSliceSpareCall (v : Word) (s : State) : Host.Outcome State Fault Refusal := .next (s.spareWrite v)

/-- R363 steps 3 to 6: no crew is resident, and the island is switched to the spare, which ramps as after gating. What
the failed cluster cached is gone with it. -/
def execClusterSpareSwitch (s : State) : Host.Outcome State Fault Refusal :=
  .next (
    let v := s.mc.spareCall
    let d := spareDie v
    let g := spareNum v / 8
    let p := spareNum v % 8
    let ci := 144 * d + 9 * g + p
    if !spareGo v ∨ spareKind v ∨ !s.empty ci then s
    else
      let c := s.physCluster ci % 144
      let spare := 9 * g + 8
      let i := laneIsland ci
      let s := (clusterUnits c).foldl (fun s u => s.failUnit d u) s
      let m := setBits (findD s.mc.remapClu (16 * d + g) 0x76543210).toNat (4 * p) 4 8
      let s := { s with mc := { s.mc with remapClu := insert s.mc.remapClu (16 * d + g) (BitVec.ofNat 32 m) } }
      let s := ((clusterUnits spare).foldl (fun s u => s.callUnit d u) s).freshGather i
      let s := { s with wear := { s.wear with rests := erase s.wear.rests ci } }
      let s := s.modCluster ci fun x => { x with tlb := [], ccache := [], nc := [], recent := [], granted := [] }
      let s := (s.modClock ci Clock.unhop).modIsland i fun x => { x with n := 48, f := 0, move := none }
      let s := s.transition i false
      let ks := (clusterUnits c ++ clusterUnits spare).map fun u => 1024 * d + u
      (s.saveUnits ks).spareDone 0 d (9 * g + p) c spare)

/-- What device memory holds after lines of some tags have been zeroed with tag 0 (R361, R364); host memory is kept,
and so are the write counts, which no write lowers (R308). -/
def State.zeroLines (s : State) (p : Line → Bool) : State :=
  let hit (n : Nat) : Bool := s.isDevice (128 * n) && p (s.line n)
  { s with
    mem := s.mem.filter fun c => !hit (c.1 / 128)
    lines := s.lines.filterMap fun x =>
      let k := (s.line x.1).writes
      if !hit x.1 then some x else if k = 0 then none else some (x.1, { Line.none with writes := k }) }

/-- Boot result (R361). -/
def bootResult (fwOk stacksOk : Bool) : Nat := if !fwOk then 1 else if !stacksOk then 2 else 0

/-- The copy of the wear records that a boot loads: the newer one whose digest checks (R341); the records as shipped where
neither does (log entry 16). -/
def Wear.newest (w : Wear) : MramCopy := (w.mram.find? MramCopy.sound).getD ⟨[], 0, true⟩

/-- The records that the boot loads from the MRAM (R340, R341): a cluster that rested goes on to the end of its rest. -/
def State.loadWear (s : State) (w : Wear) : State :=
  let m := w.newest
  let us := mapVals m.units fun _ x => { x with rleft := 0, rgap := 0 }
  let s := { s with wear := { s.wear with units := us, seq := m.seq, mram := w.mram, tgt := w.tgt } }
  let resting := us.filter fun x => decide (x.1 % 1024 < 144) && x.2.state == 2
  { s with wear := { s.wear with
    rests := resting.foldl (fun m x => insert m (s.servesCluster (x.1 / 1024) (x.1 % 1024)) (0, true)) [] } }

/-- The machine that boots again (R361, R364): everything as after reset, but for the MRAM, memory, and the steps and
choices to come. -/
def State.reboot (s : State) (events : List BbxEvent) (result : Nat) : State :=
  let r := State.reset
  let t : State := { r with
    code := s.code, dieCount := s.dieCount
    tape := s.tape, choices := s.choices, choiceCtr := s.choiceCtr, freeCtr := s.freeCtr, fresh := s.fresh
    mem := s.mem, lines := s.lines, reply := s.reply
    sec := { r.sec with epochs := s.sec.epochs }
    mc := { r.mc with
      ring := events ++ [bootEvent 11 result], bbxSeq := s.mc.bbxSeq, slots := s.mc.slots, remapClu := s.mc.remapClu
      remapSlc := s.mc.remapSlc, configs := s.mc.configs, boot := result } }
  t.loadWear s.wear

/-- Commits in progress and owed are made: charge held in the package sustains them (R360). -/
def State.commitAll (s : State) : State := s.commitDone.commitDone

/-- R361, R364: power-on. -/
def execPowerOn (fwOk stacksOk : Bool) (s : State) : Host.Outcome State Fault Refusal :=
  .next ((s.commitAll.zeroLines fun _ => true).reboot [bootEvent 10 1] (bootResult fwOk stacksOk))

/-- What asks for a package reset acts (R364). -/
def resetActs : ResetCause → Bool
  | .hostWrite v => bits v.toNat 16 16 == 0xA5C3 && bit v.toNat 0
  | _ => true

/-- R364: a package reset. The black box commits first; lines of protected worlds are zeroed. -/
def execPackageReset (cause : ResetCause) (fwOk stacksOk : Bool) (s : State) : Host.Outcome State Fault Refusal :=
  .next (
    if !resetActs cause then s
    else
      let s := s.bbx 10 0xFF (unitCode 0 7 1) 0 0xFF (evData (toBytes 2 1))
      let s := ((s.fatal (some 10)).commitAll.dropHeld fun _ _ => true).zeroLines fun l => l.tag != 0
      s.reboot [] (bootResult fwOk stacksOk))

/-- R364: an FLR of VF n. -/
def execVfFlr (n : Nat) (s : State) : Host.Outcome State Fault Refusal :=
  .next (
    if n = 0 then s
    else
      let s := s.bbx 10 0xFF (unitCode 0 7 1) n 0xFF (evData (toBytes 3 1))
      let s := s.endWorld n
      let s := { s with sec := { s.sec with slots := filterMap s.sec.slots fun _ k => k.world != n } }
      let s := (s.zeroWorld n).zeroLines fun l => l.tag == n
      s.modTdi n fun t => { t with state := 0, epoch := 0 })

/-- What an RC register reads (R8): CLU_XFIFO is put together from the FIFOs (R215). -/
def State.rcValue (s : State) (r : RcReg) (i : Nat) : Nat :=
  match r with
  | .cluXfifo =>
    if !s.isCluster i then 0
    else
      let fe (sp : Nat) : FrontEnd := nth (s.cluster i).fe sp FrontEnd.reset
      (List.range 4).foldl (fun n sp => n + (fe sp).hw * 2 ^ (20 + 5 * sp) + (fe sp).occ * 2 ^ (5 * sp)) 0
  | _ => if i < 2 ^ 16 then s.counter r i else 0

/-- R8: a read of an RC register returns what it holds and clears it. -/
def execRcRead (r : RcReg) (i : Nat) (s : State) : Host.Outcome State Fault Refusal :=
  .next (
    let t := s.answer true (toBytes (s.rcValue r i) 8)
    match r with
    | .cluXfifo =>
      if !s.isCluster i then t else t.modCluster i fun c => { c with fe := c.fe.map fun f => { f with hw := 0 } }
    | _ => if i < 2 ^ 16 then { t with counters := erase t.counters (rcKey r i) } else t)

/-- A 32-bit read of half of an RC register clears the bits that it returns (R8; log entry 79). -/
def State.rcClear (s : State) (r : RcReg) (i lo : Nat) : State :=
  let v := s.rcValue r i
  let rest := v - bits v lo 32 * 2 ^ lo
  match r with
  | .cluXfifo =>
    if !s.isCluster i then s
    else s.modCluster i fun c =>
      { c with fe := c.fe.mapIdx fun sp f => { f with hw := bits rest (20 + 5 * sp) 5 } }
  | _ =>
    if i < 2 ^ 16 then
      { s with counters := if rest = 0 then erase s.counters (rcKey r i) else insert s.counters (rcKey r i) rest }
    else s

/-- Bits `hi:lo` of a register that are RW, the others zero. -/
def keepBits (v : DWord) (lo n : Nat) : DWord := BitVec.ofNat 64 (bits v.toNat lo n * 2 ^ lo)

/-- LOGN of a ring register after a write (R297, R330, R358). -/
def newLogn (old v lo hi : Nat) (locked : Bool) : Nat := if locked ∨ v < lo ∨ hi < v then old else v

/-- A threshold of FAB_PORT_ALARM at or beyond the failure level is stored as that level plus one step (R313). -/
def alarmWrite (p : FabPort) (v : DWord) : DWord :=
  let old := p.alarm.toNat
  let clear (k : Nat) : Nat := if bit old k && !bit v.toNat k then 2 ^ k else 0
  let eye := max 17 (bits v.toNat 48 8)
  let cfr := min 999999 (bits v.toNat 24 24)
  BitVec.ofNat 64 (clear 63 + clear 62 + clear 61 + bits old 60 1 * 2 ^ 60 + eye * 2 ^ 48 + cfr * 2 ^ 24 + bits v.toNat 0 24)

/-- The XLT_ block's plain registers (R276, R297, R298). -/
def State.xltWrite (s : State) (r : RwReg) (v : DWord) : State :=
  match r with
  | .xltCtxtBase => { s with xlt := { s.xlt with ctxBase := keepBits v 14 38 } }
  | .xltFqBase => { s with xlt := { s.xlt with fqBase := keepBits v 12 40 } }
  | .xltFqCfg =>
    State.postWaiting { s with xlt := { s.xlt with
      fqEn := bit v.toNat 31, fqLogn := newLogn s.xlt.fqLogn (bits v.toNat 0 4) 4 12 s.xlt.fqEn } }
  | .xltFqHead => State.postWaiting { s with xlt := { s.xlt with fqHead := bits v.toNat 0 16 } }
  | .xltFqResp => s.faultAnswer (bits v.toNat 0 4) (bits v.toNat 4 8) (bits v.toNat 12 36)
  | .xltMigPa => { s with xlt := { s.xlt with migPa := keepBits v 12 40 } }
  | _ => s.xltCmd (bits v.toNat 0 4) (bits v.toNat 4 8) (bits v.toNat 12 52)

/-- The MC_ and BBX_ blocks' plain registers (R316, R358, R360). -/
def State.mcWrite (s : State) (r : RwReg) (v : DWord) : State :=
  match r with
  | .mcErrBase => { s with mc := { s.mc with errBase := keepBits v 12 40 } }
  | .mcErrCfg => { s with mc := { s.mc with
      errEn := bit v.toNat 31, errLogn := newLogn s.mc.errLogn (bits v.toNat 0 4) 6 14 false } }
  | .mcErrHead => { s with mc := { s.mc with errHead := bits v.toNat 0 16 } }
  | .mcEvaddr => { s with sec := { s.sec with evAddr := keepBits v 12 36 } }
  | .mcEvstat => if bit v.toNat 31 then { s with sec := { s.sec with evDone := false } } else s
  | _ => s.bbxWrite v

/-- The PWR_ block's plain registers (R317, R326, R330, R334). -/
def State.pwrWrite (s : State) (r : RwReg) (i : Nat) (v : DWord) : State :=
  let p := s.pwr
  let w := bits v.toNat 0 16
  match r with
  | .pwrProtStat => { s with pwr := { p with prot := p.prot &&& ~~~(keepBits v 4 8) } }
  | .pwrPkgLim => { s with pwr := { p with pkgLim := min 6000 w } }
  | .pwrRsv => { s with pwr := { p with rsv := w } }
  | .pwrCap => { s with pwr := { p with caps := setNth p.caps i (max 400 (min 1350 w)) } }
  | .pwrSlide => { s with pwr := { p with mshare := bits v.toNat 0 10 } }
  | .pwrPqBase => { s with pwr := { p with pqBase := keepBits v 5 47 } }
  | .pwrPqCfg => { s with pwr := { p with
      pqEn := bit v.toNat 31, pqLogn := newLogn p.pqLogn (bits v.toNat 0 4) 4 10 p.pqEn } }
  | .pwrPqHead => { s with pwr := { p with pqHead := w } }
  | _ => { s with pwr := { p with retIdle := setNth p.retIdle i v } }

/-- WEAR_CTL after a write (R347): a written RLEN of 0 leaves the field. -/
def wearCtlWrite (old v : DWord) : DWord :=
  let n := v.toNat
  let len := if bits n 16 8 = 0 then bits old.toNat 16 8 else bits n 16 8
  BitVec.ofNat 64 (bits n 32 8 * 2 ^ 32 + bits n 30 2 * 2 ^ 30 + bits n 24 4 * 2 ^ 24 + len * 2 ^ 16 + bits n 8 8 * 2 ^ 8)

/-- R8: a write to a register that has no row of its own. Read-only registers, and offsets that hold none, ignore it. -/
def execRegisterWrite (r : RwReg) (i : Nat) (v : DWord) (s : State) : Host.Outcome State Fault Refusal :=
  .next (match r with
    | .cluQstallLim => if s.isCluster i then s.modCluster i fun c => { c with qstall := v.truncate 32 } else s
    | .cluHangLim => if s.isCluster i then s.modCluster i fun c => { c with hangLim := v.truncate 32 } else s
    | .xltCtxtBase | .xltFqBase | .xltFqCfg | .xltFqHead | .xltFqResp | .xltMigPa | .xltCmd => s.xltWrite r v
    | .lchQbase => if i < 256 then s.modQueue i fun q => { q with base := keepBits v 12 40 } else s
    | .mcErrBase | .mcErrCfg | .mcErrHead | .mcEvaddr | .mcEvstat | .bbxCtl => s.mcWrite r v
    | .pwrProtStat | .pwrPkgLim | .pwrRsv | .pwrCap | .pwrSlide | .pwrPqBase | .pwrPqCfg | .pwrPqHead | .pwrRetIdle =>
      s.pwrWrite r i v
    | .wearCtl => { s with wear := { s.wear with ctlNew := wearCtlWrite s.wear.ctlNew v } }
    | .wearLife => if bits v.toNat 0 16 = 0 then s else { s with wear := { s.wear with tgt := bits v.toNat 0 16 } }
    | .wearRpt => s.rptWrite v
    | .fabPortAlarm =>
      if i < 36 then
        let p := s.fabPort i
        let p' : FabPort := { p with alarm := alarmWrite p v }
        { s with fab := { s.fab with ports := insert s.fab.ports i p' } }
      else s
    | .readOnly => s)

/-- The die of the part or register that a step of the table names by it: where it is absent there is no such part, and its
registers ignore writes (R2). -/
def dieNamed : Instr → Option Nat
  | .slcWaymapWrite d _ | .diePowerSample d | .thermalClampStart d _ _ | .thermalTrip d _ _ | .thermalRecover d _ _ => some d
  | .registerWrite .pwrCap d _ | .registerWrite .pwrRetIdle d _ => some d
  | .portHealthSample p _ _ _ | .linkRetrainComplete p | .registerWrite .fabPortAlarm p _ => some (p / 9)
  | .secSpWorldWrite ci _ | .cluClkWrite ci _ => some (ci / 144)
  | _ => none

/-- Host accesses that a package whose boot failed does not take (R361): it exposes the MC_ block only. -/
def hiddenByBoot : Instr → Bool
  | .registerWrite r _ _ => !(r == .mcErrBase || r == .mcErrCfg || r == .mcErrHead || r == .mcEvaddr || r == .mcEvstat)
  | .rcRead r _ => !(r == .mcErrLost)
  | .hostMemoryRead .. | .hostMemoryWrite .. | .lchQtailWrite .. | .lchQcfgWrite .. | .faultReplay .. | .faultDecline ..
  | .invalidateContext .. | .invalidatePage .. | .invalidateAll | .migratePage .. | .teardown .. | .reg128StagingWrite ..
  | .reg128LowRead .. | .nrtEntWrite .. | .fabCgrpWrite .. | .secSpWorldWrite .. | .slcWaymapWrite ..
  | .pwrIslVsetWrite .. | .pwrIslFsetWrite .. | .cluClkWrite .. | .drpCtlWrite .. | .policyAnswer .. | .wearReport ..
  | .bbxCommitRequest .. | .bbxDump .. | .packageReset (.hostWrite _) _ _ => true
  | _ => false

/-- A step of the table that a package does not take: one of an absent die, or one that a failed boot hides (R2, R361). -/
def State.untaken (s : State) (i : Instr) : Bool :=
  ((dieNamed i).map fun d => decide (s.dieCount ≤ d)).getD false || (s.mc.boot != 0 && hiddenByBoot i)

end Sys2Proof.Machine
end

