-- ==== Sys2Proof/Machine/Dispatch.lean ====
section
/-!
DEFINITION. What each instruction and each other step of the machine does: one arm per constructor.
-/

namespace Sys2Proof.Machine

/-- The effect of an instruction on the selected issue group, or of another step of the machine. -/
def exec (i : Instr) (s : State) : Host.Outcome State Fault Refusal :=
  match i with
  | .add p d a b => Sys2Proof.Machine.execAdd p d a b s
  | .addImm p d a b imm => Sys2Proof.Machine.execAddImm p d a b imm s
  | .sub p d a b => Sys2Proof.Machine.execSub p d a b s
  | .subImm p d a b imm => Sys2Proof.Machine.execSubImm p d a b imm s
  | .addc p d a b => Sys2Proof.Machine.execAddc p d a b s
  | .addcImm p d a b imm => Sys2Proof.Machine.execAddcImm p d a b imm s
  | .subb p d a b => Sys2Proof.Machine.execSubb p d a b s
  | .subbImm p d a b imm => Sys2Proof.Machine.execSubbImm p d a b imm s
  | .mul p d a b => Sys2Proof.Machine.execMul p d a b s
  | .mulImm p d a b imm => Sys2Proof.Machine.execMulImm p d a b imm s
  | .mulh p d a b => Sys2Proof.Machine.execMulh p d a b s
  | .mulhImm p d a b imm => Sys2Proof.Machine.execMulhImm p d a b imm s
  | .mad p d a b c => Sys2Proof.Machine.execMad p d a b c s
  | .madw p d a b c => Sys2Proof.Machine.execMadw p d a b c s
  | .div p d a b => Sys2Proof.Machine.execDiv p d a b s
  | .divImm p d a b imm => Sys2Proof.Machine.execDivImm p d a b imm s
  | .rem p d a b => Sys2Proof.Machine.execRem p d a b s
  | .remImm p d a b imm => Sys2Proof.Machine.execRemImm p d a b imm s
  | .neg p d a => Sys2Proof.Machine.execNeg p d a s
  | .abs p d a => Sys2Proof.Machine.execAbs p d a s
  | .min p d a b => Sys2Proof.Machine.execMin p d a b s
  | .minImm p d a b imm => Sys2Proof.Machine.execMinImm p d a b imm s
  | .max p d a b => Sys2Proof.Machine.execMax p d a b s
  | .maxImm p d a b imm => Sys2Proof.Machine.execMaxImm p d a b imm s
  | .shl p d a b => Sys2Proof.Machine.execShl p d a b s
  | .shlImm p d a b imm => Sys2Proof.Machine.execShlImm p d a b imm s
  | .shr p d a b => Sys2Proof.Machine.execShr p d a b s
  | .shrImm p d a b imm => Sys2Proof.Machine.execShrImm p d a b imm s
  | .sar p d a b => Sys2Proof.Machine.execSar p d a b s
  | .sarImm p d a b imm => Sys2Proof.Machine.execSarImm p d a b imm s
  | .rotl p d a b => Sys2Proof.Machine.execRotl p d a b s
  | .rotlImm p d a b imm => Sys2Proof.Machine.execRotlImm p d a b imm s
  | .lea p d a b c sh => Sys2Proof.Machine.execLea p d a b c sh s
  | .addp p d a b => Sys2Proof.Machine.execAddp p d a b s
  | .addpImm p d a b imm => Sys2Proof.Machine.execAddpImm p d a b imm s
  | .subp p d a b => Sys2Proof.Machine.execSubp p d a b s
  | .movi p d imm => Sys2Proof.Machine.execMovi p d imm s
  | .mov p d a => Sys2Proof.Machine.execMov p d a s
  | .and p d a b => Sys2Proof.Machine.execAnd p d a b s
  | .andImm p d a b imm => Sys2Proof.Machine.execAndImm p d a b imm s
  | .or p d a b => Sys2Proof.Machine.execOr p d a b s
  | .orImm p d a b imm => Sys2Proof.Machine.execOrImm p d a b imm s
  | .xor p d a b => Sys2Proof.Machine.execXor p d a b s
  | .xorImm p d a b imm => Sys2Proof.Machine.execXorImm p d a b imm s
  | .not p d a => Sys2Proof.Machine.execNot p d a s
  | .andn p d a b => Sys2Proof.Machine.execAndn p d a b s
  | .andnImm p d a b imm => Sys2Proof.Machine.execAndnImm p d a b imm s
  | .bfe p d a b c pi pos wid => Sys2Proof.Machine.execBfe p d a b c pi pos wid s
  | .bfi p d a b c pi pos wid => Sys2Proof.Machine.execBfi p d a b c pi pos wid s
  | .popc p d a => Sys2Proof.Machine.execPopc p d a s
  | .clz p d a => Sys2Proof.Machine.execClz p d a s
  | .ctz p d a => Sys2Proof.Machine.execCtz p d a s
  | .brev p d a => Sys2Proof.Machine.execBrev p d a s
  | .bshuf p d a b c => Sys2Proof.Machine.execBshuf p d a b c s
  | .cmp p q cond a b => Sys2Proof.Machine.execCmp p q cond a b s
  | .cmpImm p q cond a b imm => Sys2Proof.Machine.execCmpImm p q cond a b imm s
  | .sel p d a b n q => Sys2Proof.Machine.execSel p d a b n q s
  | .pand p d na a nb b => Sys2Proof.Machine.execPand p d na a nb b s
  | .por p d na a nb b => Sys2Proof.Machine.execPor p d na a nb b s
  | .pxor p d na a nb b => Sys2Proof.Machine.execPxor p d na a nb b s
  | .pnot p d na a => Sys2Proof.Machine.execPnot p d na a s
  | .pmov p d na a => Sys2Proof.Machine.execPmov p d na a s
  | .matchLanes p d a => Sys2Proof.Machine.execMatchLanes p d a s
  | .fadd p d a b => Sys2Proof.Machine.execFadd p d a b s
  | .faddImm p d a b imm => Sys2Proof.Machine.execFaddImm p d a b imm s
  | .fsub p d a b => Sys2Proof.Machine.execFsub p d a b s
  | .fsubImm p d a b imm => Sys2Proof.Machine.execFsubImm p d a b imm s
  | .fmul p d a b => Sys2Proof.Machine.execFmul p d a b s
  | .fmulImm p d a b imm => Sys2Proof.Machine.execFmulImm p d a b imm s
  | .fma p d a b c => Sys2Proof.Machine.execFma p d a b c s
  | .fmin p d a b => Sys2Proof.Machine.execFmin p d a b s
  | .fminImm p d a b imm => Sys2Proof.Machine.execFminImm p d a b imm s
  | .fmax p d a b => Sys2Proof.Machine.execFmax p d a b s
  | .fmaxImm p d a b imm => Sys2Proof.Machine.execFmaxImm p d a b imm s
  | .fabs p d a => Sys2Proof.Machine.execFabs p d a s
  | .fneg p d a => Sys2Proof.Machine.execFneg p d a s
  | .fcmp p q cond a b => Sys2Proof.Machine.execFcmp p q cond a b s
  | .fcmpImm p q cond a b imm => Sys2Proof.Machine.execFcmpImm p q cond a b imm s
  | .fclass p d a => Sys2Proof.Machine.execFclass p d a s
  | .frint p d a => Sys2Proof.Machine.execFrint p d a s
  | .fsqrt p d a => Sys2Proof.Machine.execFsqrt p d a s
  | .frcp p d a => Sys2Proof.Machine.execFrcp p d a s
  | .frsq p d a => Sys2Proof.Machine.execFrsq p d a s
  | .fdiv p d a b => Sys2Proof.Machine.execFdiv p d a b s
  | .fdivImm p d a b imm => Sys2Proof.Machine.execFdivImm p d a b imm s
  | .fscale p d a b => Sys2Proof.Machine.execFscale p d a b s
  | .fscaleImm p d a b imm => Sys2Proof.Machine.execFscaleImm p d a b imm s
  | .hadd2 p d a b => Sys2Proof.Machine.execHadd2 p d a b s
  | .hfma2 p d a b c => Sys2Proof.Machine.execHfma2 p d a b c s
  | .bfma2 p d a b c => Sys2Proof.Machine.execBfma2 p d a b c s
  | .dot2 p d a b c => Sys2Proof.Machine.execDot2 p d a b c s
  | .dot4 p d a b c => Sys2Proof.Machine.execDot4 p d a b c s
  | .cvt p d a dt st => Sys2Proof.Machine.execCvt p d a dt st s
  | .pack p d a b => Sys2Proof.Machine.execPack p d a b s
  | .unpack p d a b => Sys2Proof.Machine.execUnpack p d a b s
  | .unpackImm p d a b imm => Sys2Proof.Machine.execUnpackImm p d a b imm s
  | .tdec p d a e => Sys2Proof.Machine.execTdec p d a e s
  | .tenc p d a b e => Sys2Proof.Machine.execTenc p d a b e s
  | .qscale p d a b neg bsel => Sys2Proof.Machine.execQscale p d a b neg bsel s
  | .sin p d a => Sys2Proof.Machine.execSin p d a s
  | .cos p d a => Sys2Proof.Machine.execCos p d a s
  | .fexp2 p d a => Sys2Proof.Machine.execFexp2 p d a s
  | .flog2 p d a => Sys2Proof.Machine.execFlog2 p d a s
  | .tanh p d a => Sys2Proof.Machine.execTanh p d a s
  | .sig p d a => Sys2Proof.Machine.execSig p d a s
  | .shfl p d a b c mk wr seg ii idx => Sys2Proof.Machine.execShfl p d a b c mk wr seg ii idx s
  | .shflRel p d a b c mk wr seg ii idx => Sys2Proof.Machine.execShflRel p d a b c mk wr seg ii idx s
  | .shflXor p d a b c mk wr seg ii idx => Sys2Proof.Machine.execShflXor p d a b c mk wr seg ii idx s
  | .bcast p d a c mk lsel lane => Sys2Proof.Machine.execBcast p d a c mk lsel lane s
  | .vote p d na a c mk op => Sys2Proof.Machine.execVote p d na a c mk op s
  | .lred p d a c mk op k => Sys2Proof.Machine.execLred p d a c mk op k s
  | .ld p d a b => Sys2Proof.Machine.execLd p d a b s
  | .ldOfs p d a b ofs cl sx sh => Sys2Proof.Machine.execLdOfs p d a b ofs cl sx sh s
  | .st p d a b => Sys2Proof.Machine.execSt p d a b s
  | .stOfs p d a b ofs cl sx sh => Sys2Proof.Machine.execStOfs p d a b ofs cl sx sh s
  | .ldsp p d a b => Sys2Proof.Machine.execLdsp p d a b s
  | .ldspOfs p d a b ofs cl sx sh => Sys2Proof.Machine.execLdspOfs p d a b ofs cl sx sh s
  | .stsp p d a b => Sys2Proof.Machine.execStsp p d a b s
  | .stspOfs p d a b ofs cl sx sh => Sys2Proof.Machine.execStspOfs p d a b ofs cl sx sh s
  | .ldc p d a b => Sys2Proof.Machine.execLdc p d a b s
  | .ldcOfs p d a b ofs cl sx sh => Sys2Proof.Machine.execLdcOfs p d a b ofs cl sx sh s
  | .ldq p d a b => Sys2Proof.Machine.execLdq p d a b s
  | .ldqOfs p d a b ofs cl sx sh => Sys2Proof.Machine.execLdqOfs p d a b ofs cl sx sh s
  | .pref p a b => Sys2Proof.Machine.execPref p a b s
  | .prefOfs p a b ofs cl sx sh => Sys2Proof.Machine.execPrefOfs p a b ofs cl sx sh s
  | .atom p d a b c op sp => Sys2Proof.Machine.execAtom p d a b c op sp s
  | .atomr p d a b c op sp => Sys2Proof.Machine.execAtomr p d a b c op sp s
  | .red p a b op sp => Sys2Proof.Machine.execRed p a b op sp s
  | .fenceEng p => Sys2Proof.Machine.execFenceEng p s
  | .fenceSys p => Sys2Proof.Machine.execFenceSys p s
  | .cflush p a b => Sys2Proof.Machine.execCflush p a b s
  | .cflushOfs p a b ofs cl sx sh => Sys2Proof.Machine.execCflushOfs p a b ofs cl sx sh s
  | .cinval p a b => Sys2Proof.Machine.execCinval p a b s
  | .cinvalOfs p a b ofs cl sx sh => Sys2Proof.Machine.execCinvalOfs p a b ofs cl sx sh s
  | .spat p d a b c dir sp ety rowlen => Sys2Proof.Machine.execSpat p d a b c dir sp ety rowlen s
  | .sfree p a => Sys2Proof.Machine.execSfree p a s
  | .qbind p d a c kind sig trapq => Sys2Proof.Machine.execQbind p d a c kind sig trapq s
  | .qtry p d a q => Sys2Proof.Machine.execQtry p d a q s
  | .qstat p d a => Sys2Proof.Machine.execQstat p d a s
  | .bra ce n q imm => Sys2Proof.Machine.execBra ce n q imm s
  | .brd n q tgt join => Sys2Proof.Machine.execBrd n q tgt join s
  | .join => Sys2Proof.Machine.execJoin s
  | .reform => Sys2Proof.Machine.execReform s
  | .call d imm => Sys2Proof.Machine.execCall d imm s
  | .ret a => Sys2Proof.Machine.execRet a s
  | .jmp a => Sys2Proof.Machine.execJmp a s
  | .loop a stop ci icount => Sys2Proof.Machine.execLoop a stop ci icount s
  | .lbrk => Sys2Proof.Machine.execLbrk s
  | .exit => Sys2Proof.Machine.execExit s
  | .trap code => Sys2Proof.Machine.execTrap code s
  | .brk code => Sys2Proof.Machine.execBrk code s
  | .nop => Sys2Proof.Machine.execNop s
  | .cpy p d a tag evt outq acq rel scope ba barr => Sys2Proof.Machine.execCpy p d a tag evt outq acq rel scope ba barr s
  | .gath p d a tag evt outq acq rel scope ba barr => Sys2Proof.Machine.execGath p d a tag evt outq acq rel scope ba barr s
  | .coll p d a tag evt outq acq rel scope ba barr => Sys2Proof.Machine.execColl p d a tag evt outq acq rel scope ba barr s
  | .mdesc p md a sp => Sys2Proof.Machine.execMdesc p md a sp s
  | .msign p cv => Sys2Proof.Machine.execMsign p cv s
  | .mma p md cv evt acq rel scope => Sys2Proof.Machine.execMma p md cv evt acq rel scope s
  | .mmaElect p md evt acq rel scope => Sys2Proof.Machine.execMmaElect p md evt acq rel scope s
  | .maccInit p d md => Sys2Proof.Machine.execMaccInit p d md s
  | .maccFlush p d a md keep evt scope => Sys2Proof.Machine.execMaccFlush p d a md keep evt scope s
  | .mrow p d => Sys2Proof.Machine.execMrow p d s
  | .mrowWait p d md => Sys2Proof.Machine.execMrowWait p d md s
  | .nwant p d a b => Sys2Proof.Machine.execNwant p d a b s
  | .noffer p d a b => Sys2Proof.Machine.execNoffer p d a b s
  | .nclose p a b => Sys2Proof.Machine.execNclose p a b s
  | .ncloseImm p a b imm => Sys2Proof.Machine.execNcloseImm p a b imm s
  | .nlife p a => Sys2Proof.Machine.execNlife p a s
  | .nlifeImm p a imm => Sys2Proof.Machine.execNlifeImm p a imm s
  | .mland p d a b port ba barr => Sys2Proof.Machine.execMland p d a b port ba barr s
  | .freeze => Sys2Proof.Machine.execFreeze s
  | .freezeNested a => Sys2Proof.Machine.execFreezeNested a s
  | .next => Sys2Proof.Machine.execNext s
  | .convInit cv a => Sys2Proof.Machine.execConvInit cv a s
  | .convInitImm cv a imm => Sys2Proof.Machine.execConvInitImm cv a imm s
  | .barrInit k a b => Sys2Proof.Machine.execBarrInit k a b s
  | .barrInitImm k a b imm => Sys2Proof.Machine.execBarrInitImm k a b imm s
  | .barrArrive k => Sys2Proof.Machine.execBarrArrive k s
  | .barrWait k a => Sys2Proof.Machine.execBarrWait k a s
  | .barrWaitImm k a imm => Sys2Proof.Machine.execBarrWaitImm k a imm s
  | .barrTest q a k => Sys2Proof.Machine.execBarrTest q a k s
  | .barrTestImm q a k imm => Sys2Proof.Machine.execBarrTestImm q a k imm s
  | .movs d a => Sys2Proof.Machine.execMovs d a s
  | .mtsr d a => Sys2Proof.Machine.execMtsr d a s
  | .wbase a => Sys2Proof.Machine.execWbase a s
  | .wbaseImm a imm => Sys2Proof.Machine.execWbaseImm a imm s
  | .rfree a b => Sys2Proof.Machine.execRfree a b s
  | .region idx => Sys2Proof.Machine.execRegion idx s
  | .preq d a b c => Sys2Proof.Machine.execPreq d a b c s
  | .boost d a => Sys2Proof.Machine.execBoost d a s
  | .sysc d a b => Sys2Proof.Machine.execSysc d a b s
  | .syscImm d a b imm => Sys2Proof.Machine.execSyscImm d a b imm s
  | .tret => Sys2Proof.Machine.execTret s
  | .halt a => Sys2Proof.Machine.execHalt a s
  | .tmark a => Sys2Proof.Machine.execTmark a s
  | .tmarkImm a imm => Sys2Proof.Machine.execTmarkImm a imm s
  | .bload a b c barr => Sys2Proof.Machine.execBload a b c barr s
  | .binAgeExpiry ci sp bin => Sys2Proof.Machine.execBinAgeExpiry ci sp bin s
  | .loadComplete co id => Sys2Proof.Machine.execLoadComplete co id s
  | .divRemComplete co id => Sys2Proof.Machine.execDivRemComplete co id s
  | .multicycleComplete co id => Sys2Proof.Machine.execMulticycleComplete co id s
  | .queueStall co g => Sys2Proof.Machine.execQueueStall co g s
  | .copy id => Sys2Proof.Machine.execCopy id s
  | .decryptingCopy id => Sys2Proof.Machine.execDecryptingCopy id s
  | .gather id => Sys2Proof.Machine.execGather id s
  | .collective id peers tagFail => Sys2Proof.Machine.execCollective id peers tagFail s
  | .signal id => Sys2Proof.Machine.execSignal id s
  | .engineCommandComplete id => Sys2Proof.Machine.execEngineCommandComplete id s
  | .matrixOperation ci sp => Sys2Proof.Machine.execMatrixOperation ci sp s
  | .matrixOperationComplete ci sp => Sys2Proof.Machine.execMatrixOperationComplete ci sp s
  | .slicePartialAdd id => Sys2Proof.Machine.execSlicePartialAdd id s
  | .messageArrive id => Sys2Proof.Machine.execMessageArrive id s
  | .multicastDelivery id ci => Sys2Proof.Machine.execMulticastDelivery id ci s
  | .multicastSendComplete id => Sys2Proof.Machine.execMulticastSendComplete id s
  | .bloadLand id line => Sys2Proof.Machine.execBloadLand id line s
  | .interestRecord id => Sys2Proof.Machine.execInterestRecord id s
  | .tileReturn id => Sys2Proof.Machine.execTileReturn id s
  | .interestDeadline name => Sys2Proof.Machine.execInterestDeadline name s
  | .nestedFreezeResume co => Sys2Proof.Machine.execNestedFreezeResume co s
  | .hangReport ci => Sys2Proof.Machine.execHangReport ci s
  | .droopFire ci peak => Sys2Proof.Machine.execDroopFire ci peak s
  | .droopStretchEnd ci => Sys2Proof.Machine.execDroopStretchEnd ci s
  | .halvedIssueEnd ci => Sys2Proof.Machine.execHalvedIssueEnd ci s
  | .clockHop ci => Sys2Proof.Machine.execClockHop ci s
  | .hopComplete ci => Sys2Proof.Machine.execHopComplete ci s
  | .cluClkWrite ci v => Sys2Proof.Machine.execCluClkWrite ci v s
  | .drpCtlWrite ci v => Sys2Proof.Machine.execDrpCtlWrite ci v s
  | .lchQtailWrite fn q v => Sys2Proof.Machine.execLchQtailWrite fn q v s
  | .lchQcfgWrite q v => Sys2Proof.Machine.execLchQcfgWrite q v s
  | .launchAccept q => Sys2Proof.Machine.execLaunchAccept q s
  | .launchStart seq => Sys2Proof.Machine.execLaunchStart seq s
  | .placeCohort seq => Sys2Proof.Machine.execPlaceCohort seq s
  | .cohortRetire co => Sys2Proof.Machine.execCohortRetire co s
  | .gridComplete seq => Sys2Proof.Machine.execGridComplete seq s
  | .yieldRequest co seq => Sys2Proof.Machine.execYieldRequest co seq s
  | .drainLimitExpiry co key => Sys2Proof.Machine.execDrainLimitExpiry co key s
  | .yieldSave co => Sys2Proof.Machine.execYieldSave co s
  | .faultReplay ctx page => Sys2Proof.Machine.execFaultReplay ctx page s
  | .faultDecline ctx page => Sys2Proof.Machine.execFaultDecline ctx page s
  | .invalidateContext ctx => Sys2Proof.Machine.execInvalidateContext ctx s
  | .invalidatePage ctx page => Sys2Proof.Machine.execInvalidatePage ctx page s
  | .invalidateAll => Sys2Proof.Machine.execInvalidateAll s
  | .migratePage ctx page => Sys2Proof.Machine.execMigratePage ctx page s
  | .teardown ctx => Sys2Proof.Machine.execTeardown ctx s
  | .xltCmdComplete => Sys2Proof.Machine.execXltCmdComplete s
  | .reg128StagingWrite r word wide v => Sys2Proof.Machine.execReg128StagingWrite r word wide v s
  | .reg128LowRead r => Sys2Proof.Machine.execReg128LowRead r s
  | .nrtEntWrite idx wide v => Sys2Proof.Machine.execNrtEntWrite idx wide v s
  | .fabCgrpWrite g wide v reports => Sys2Proof.Machine.execFabCgrpWrite g wide v reports s
  | .mcSwrefWrite v reports => Sys2Proof.Machine.execMcSwrefWrite v reports s
  | .switchSessionClose ident => Sys2Proof.Machine.execSwitchSessionClose ident s
  | .secSpWorldWrite ci v => Sys2Proof.Machine.execSecSpWorldWrite ci v s
  | .slcWaymapWrite die v => Sys2Proof.Machine.execSlcWaymapWrite die v s
  | .lockInterfaceRequest n => Sys2Proof.Machine.execLockInterfaceRequest n s
  | .startInterfaceRequest n => Sys2Proof.Machine.execStartInterfaceRequest n s
  | .stopInterfaceRequest n => Sys2Proof.Machine.execStopInterfaceRequest n s
  | .ideFailure stream => Sys2Proof.Machine.execIdeFailure stream s
  | .hostMemoryRead pa len => Sys2Proof.Machine.execHostMemoryRead pa len s
  | .hostMemoryWrite pa bytes => Sys2Proof.Machine.execHostMemoryWrite pa bytes s
  | .getVersion => Sys2Proof.Machine.execGetVersion s
  | .getCapabilities => Sys2Proof.Machine.execGetCapabilities s
  | .negotiateAlgorithms => Sys2Proof.Machine.execNegotiateAlgorithms s
  | .getDigests => Sys2Proof.Machine.execGetDigests s
  | .getCertificate => Sys2Proof.Machine.execGetCertificate s
  | .challenge nonce => Sys2Proof.Machine.execChallenge nonce s
  | .getMeasurements nonce => Sys2Proof.Machine.execGetMeasurements nonce s
  | .keyExchange fn => Sys2Proof.Machine.execKeyExchange fn s
  | .finish sess => Sys2Proof.Machine.execFinish sess s
  | .keyUpdate sess => Sys2Proof.Machine.execKeyUpdate sess s
  | .heartbeat sess => Sys2Proof.Machine.execHeartbeat sess s
  | .endSession sess => Sys2Proof.Machine.execEndSession sess s
  | .keySet sess slot world ctx key => Sys2Proof.Machine.execKeySet sess slot world ctx key s
  | .keyClear sess slot => Sys2Proof.Machine.execKeyClear sess slot s
  | .jobEvidenceRequest v => Sys2Proof.Machine.execJobEvidenceRequest v s
  | .portHealthSample port eye cfr ttf => Sys2Proof.Machine.execPortHealthSample port eye cfr ttf s
  | .linkRetrainComplete port => Sys2Proof.Machine.execLinkRetrainComplete port s
  | .retentionEntry arr => Sys2Proof.Machine.execRetentionEntry arr s
  | .retentionExit arr waited => Sys2Proof.Machine.execRetentionExit arr waited s
  | .pwrIslVsetWrite die isl v => Sys2Proof.Machine.execPwrIslVsetWrite die isl v s
  | .pwrIslFsetWrite die isl v => Sys2Proof.Machine.execPwrIslFsetWrite die isl v s
  | .synthLockComplete die isl => Sys2Proof.Machine.execSynthLockComplete die isl s
  | .voltageStep die isl => Sys2Proof.Machine.execVoltageStep die isl s
  | .stageTelemetryRefresh vi0 te0 vi1 te1 => Sys2Proof.Machine.execStageTelemetryRefresh vi0 te0 vi1 te1 s
  | .islandTelemetryRefresh die isl v => Sys2Proof.Machine.execIslandTelemetryRefresh die isl v s
  | .stallWindow ci => Sys2Proof.Machine.execStallWindow ci s
  | .powerBoundary read written table => Sys2Proof.Machine.execPowerBoundary read written table s
  | .memoryRailSample watts => Sys2Proof.Machine.execMemoryRailSample watts s
  | .diePowerSample die => Sys2Proof.Machine.execDiePowerSample die s
  | .thermalClampStart die isl temp => Sys2Proof.Machine.execThermalClampStart die isl temp s
  | .thermalTrip die isl temp => Sys2Proof.Machine.execThermalTrip die isl temp s
  | .thermalRecover die isl temp => Sys2Proof.Machine.execThermalRecover die isl temp s
  | .boostEnd die isl => Sys2Proof.Machine.execBoostEnd die isl s
  | .policyAnswer v => Sys2Proof.Machine.execPolicyAnswer v s
  | .wearBoundary activity => Sys2Proof.Machine.execWearBoundary activity s
  | .wearUpdateComplete => Sys2Proof.Machine.execWearUpdateComplete s
  | .restStart ci => Sys2Proof.Machine.execRestStart ci s
  | .restEnd ci => Sys2Proof.Machine.execRestEnd ci s
  | .wearReport v => Sys2Proof.Machine.execWearReport v s
  | .bbxCommitRequest v => Sys2Proof.Machine.execBbxCommitRequest v s
  | .bbxDump v => Sys2Proof.Machine.execBbxDump v s
  | .inputUndervoltage => Sys2Proof.Machine.execInputUndervoltage s
  | .mcWatchdogExpiry => Sys2Proof.Machine.execMcWatchdogExpiry s
  | .powerOn fwOk stacksOk => Sys2Proof.Machine.execPowerOn fwOk stacksOk s
  | .packageReset cause signed stks => Sys2Proof.Machine.execPackageReset cause signed stks s
  | .vfFlr n => Sys2Proof.Machine.execVfFlr n s
  | .clusterSpareCall v => Sys2Proof.Machine.execClusterSpareCall v s
  | .clusterSpareSwitch => Sys2Proof.Machine.execClusterSpareSwitch s
  | .sliceSpareCall v => Sys2Proof.Machine.execSliceSpareCall v s
  | .rcRead r idx => Sys2Proof.Machine.execRcRead r idx s
  | .registerWrite r idx v => Sys2Proof.Machine.execRegisterWrite r idx v s
  | .illegalOp w => Sys2Proof.Machine.execIllegalOp w s
  | .flushComplete co id => Sys2Proof.Machine.execFlushComplete co id s
  | .statusDestinationFull co id => Sys2Proof.Machine.execStatusDestinationFull co id s
  | .droopRearm ci => Sys2Proof.Machine.execDroopRearm ci s
  | .hubUncorrectableError mram => Sys2Proof.Machine.execHubUncorrectableError mram s
  | .blackBoxCommitComplete => Sys2Proof.Machine.execBlackBoxCommitComplete s

end Sys2Proof.Machine
end

