-- ==== Sys2Proof/Machine/Own.lean ====
section
/-!
DEFINITION. What the parts of the machine do by themselves while no issue group can issue (log entry 2): every
result, command, message, return, record and transition that is under way and needs nothing from outside makes
its next step.
-/

namespace Sys2Proof.Machine

/-- Steps of parts, one after another. -/
def State.alsoAll {α : Type} (s : State) (l : List α) (f : α → State → Host.Outcome State Fault Refusal) : State :=
  l.foldl (fun s a => s.also (f a)) s

/-- The event that brings an outstanding result (R22, R78, R107, R144, R168). -/
def bringResult (co : Nat) (p : Nat × Pend) (s : State) : Host.Outcome State Fault Refusal :=
  match p.2.kind with
  | .load | .ldq .. => Sys2Proof.Machine.execLoadComplete co p.1 s
  | .div => Sys2Proof.Machine.execDivRemComplete co p.1 s
  | .multi _ => Sys2Proof.Machine.execMulticycleComplete co p.1 s
  | .flush _ => Sys2Proof.Machine.execFlushComplete co p.1 s
  | _ => Sys2Proof.Machine.execStatusDestinationFull co p.1 s

/-- Outstanding results, nested families that are done, and pushes past their limit. -/
def State.ownKernels (s : State) : State :=
  s.cohorts.foldl (fun s p =>
    let s := s.alsoAll p.2.pends (bringResult p.1)
    let s := s.also (execNestedFreezeResume p.1)
    s.alsoAll (keys p.2.groups) (execQueueStall p.1)) s

/-- Engine commands; a collective, which needs its peers, is left to the tape. -/
def State.ownCmds (s : State) : State :=
  let s := [execCopy, execDecryptingCopy, execGather, execSignal].foldl (fun s f => s.alsoAll (keys s.cmds) f) s
  (keys s.late).foldl State.landLate (s.alsoAll (keys s.cmds) execEngineCommandComplete)

/-- Matrix units, messages, requests and lines on their way. -/
def State.ownTraffic (s : State) : State :=
  let mxus := s.clusters.flatMap fun p => (List.range 4).map fun sp => (p.1, sp)
  let s := s.alsoAll mxus fun a => execMatrixOperation a.1 a.2
  let s := s.alsoAll mxus fun a => execMatrixOperationComplete a.1 a.2
  let s := s.alsoAll (keys s.partials) execSlicePartialAdd
  let s := s.alsoAll (keys s.msgs) execMessageArrive
  let s := s.alsoAll (s.mcasts.flatMap fun p => p.2.left.map fun ci => (p.1, ci)) fun a => execMulticastDelivery a.1 a.2
  let s := s.alsoAll (keys s.mcasts) execMulticastSendComplete
  let s := s.alsoAll (keys s.bloads) fun id => execBloadLand id 0
  let s := s.alsoAll (keys s.names.wants) execInterestRecord
  let s := s.alsoAll (keys s.names.returns) execTileReturn
  s.alsoAll (keys s.names.interests) fun n => execInterestDeadline (BitVec.ofNat 64 n)

/-- Launch queues, placement, retirement and yields (R279 to R290). -/
def State.ownLauncher (s : State) : State :=
  let s := s.alsoAll (keys s.cohorts) execCohortRetire
  let s := s.alsoAll (s.cohorts.flatMap fun p => (keys p.2.threads).map fun k => (p.1, k)) fun a =>
    execDrainLimitExpiry a.1 a.2
  let s := s.alsoAll (keys s.cohorts) execYieldSave
  let s := s.alsoAll (keys s.lch.grids) execGridComplete
  let s := s.alsoAll (keys s.lch.queues) execLaunchAccept
  let s := s.alsoAll (keys s.lch.grids) execLaunchStart
  let s := s.alsoAll (keys s.lch.grids) execPlaceCohort
  s.alsoAll (s.cohorts.flatMap fun p => (0 :: keys s.lch.grids).map fun g => (p.1, g)) fun a => execYieldRequest a.1 a.2

/-- Bins, hangs, clocks, points, boosts, rests and the hub's work. -/
def State.ownClocks (s : State) : State :=
  let bins := s.clusters.flatMap fun p => p.2.bins.map fun b => (p.1, b.2.sp, b.1)
  let s := s.alsoAll bins fun a => execBinAgeExpiry a.1 a.2.1 a.2.2
  let s := s.alsoAll (keys s.clusters) execHangReport
  let s := s.alsoAll (keys s.clusters) execStallWindow
  let moving := keys (filterMap s.pwr.islands fun _ x => x.move.isSome)
  let s := s.alsoAll moving fun i => execSynthLockComplete (i / 256) (i % 256)
  let s := s.alsoAll (moving.filter isLane) fun i => execClockHop (islandCluster i)
  let s := s.alsoAll (moving.filter isLane) fun i => execHopComplete (islandCluster i)
  let s := s.alsoAll moving fun i => execVoltageStep (i / 256) (i % 256)
  let s := s.alsoAll (keys s.pwr.islands) fun i => execBoostEnd (i / 256) (i % 256)
  let pending := keys (filterMap s.wear.units fun u x => decide (u % 1024 < 144) && x.state == 1)
  let s := s.alsoAll pending fun u => execRestStart (s.servesCluster (u / 1024) (u % 1024))
  let s := s.alsoAll (keys s.wear.rests) execRestEnd
  let s := s.also execWearUpdateComplete
  let s := s.also execClusterSpareSwitch
  let s := s.also execXltCmdComplete
  s.also execBlackBoxCommitComplete

/-- Everything that goes on by itself makes a step. -/
def State.ownEvents (s : State) : State :=
  s.ownKernels.ownCmds.ownTraffic.ownLauncher.ownClocks

end Sys2Proof.Machine
end

