-- ==== Sys2Proof/Machine/Window.lean ====
section
/-!
DEFINITION. The register window of the host link: the registers by block, where they lie, what a read of each returns, and
the accesses of BAR0 (R8, R300 to R302, R319, R330, R340).
-/

namespace Sys2Proof.Machine

/-- The blocks that hold registers (R300): those of the hub in the window's order, then those of a die. -/
inductive Block where
  | lch | xlt | nrt | sec | hst | mc | bbx | pwr | wear
  | clu | cxb | slc | hom | drp | fab
  deriving DecidableEq, Repr

/-- The registers. Those with RC fields and those whose write has no row of its own are `RcReg` and `RwReg`. -/
inductive Reg where
  | rc (r : RcReg)
  | rw (r : RwReg)
  | cluClk | cluPoolFree | cluBinStat | cluIssueStall
  | drpCtl | drpStat
  | nrtEnt | fabCgrp | secSpadWorld | secSpWorld | slcWaymap | secTdiStat | secKeyslot
  | lchQcfg | lchQtail | lchQhead
  | xltFqTail | xltCmdStat
  | hstReset
  | mcErrTail | mcEvreq | mcSwref | mcRemapClu | mcRemapSlc | mcSpareCall | mcSpareStat
  | bbxSeq
  | pwrStgVi | pwrStgTe | pwrDieLim | pwrPqTail | pwrPqResp
  | islVset | islFset | islStat | islTel
  | wearB | wearH | wearE | wearPool | wearUstat | wearAllow | wearHold | wearLast
  | wearEol | wearSeq
  | portHealth
  deriving DecidableEq, Repr

/-- A register of a block instance (R302): `count` of them, `stride` bytes apart, with its offset where the specification
gives one. -/
structure RegRow where
  reg    : Reg
  name   : String
  block  : Block
  width  : Nat
  count  : Nat
  stride : Nat
  pos    : Option Nat
  deriving DecidableEq, Repr

/-- Registers whose offsets the specification gives (R297, R319, R330, R340, R341, R347, R351, R354, R364). -/
def givenRegs : List RegRow := [
  ⟨.rw .xltFqBase, "XLT_FQ_BASE", .xlt, 64, 1, 8, some 0x100⟩, ⟨.rw .xltFqCfg, "XLT_FQ_CFG", .xlt, 32, 1, 8, some 0x108⟩,
  ⟨.xltFqTail, "XLT_FQ_TAIL", .xlt, 64, 1, 8, some 0x110⟩, ⟨.rw .xltFqHead, "XLT_FQ_HEAD", .xlt, 64, 1, 8, some 0x118⟩,
  ⟨.rw .xltFqResp, "XLT_FQ_RESP", .xlt, 64, 1, 8, some 0x120⟩,
  ⟨.hstReset, "HST_RESET", .hst, 32, 1, 8, some 0⟩,
  ⟨.rw .pwrPqBase, "PWR_PQ_BASE", .pwr, 64, 1, 8, some 0x100⟩, ⟨.rw .pwrPqCfg, "PWR_PQ_CFG", .pwr, 32, 1, 8, some 0x108⟩,
  ⟨.pwrPqTail, "PWR_PQ_TAIL", .pwr, 64, 1, 8, some 0x110⟩, ⟨.rw .pwrPqHead, "PWR_PQ_HEAD", .pwr, 64, 1, 8, some 0x118⟩,
  ⟨.pwrPqResp, "PWR_PQ_RESP", .pwr, 64, 1, 8, some 0x120⟩,
  ⟨.islVset, "PWR_ISL_VSET", .pwr, 32, 1024, 0x40, some 0x10000⟩, ⟨.islFset, "PWR_ISL_FSET", .pwr, 32, 1024, 0x40, some 0x10008⟩,
  ⟨.islStat, "PWR_ISL_STAT", .pwr, 64, 1024, 0x40, some 0x10010⟩, ⟨.islTel, "PWR_ISL_TEL", .pwr, 64, 1024, 0x40, some 0x10018⟩,
  ⟨.rw .wearCtl, "WEAR_CTL", .wear, 64, 1, 8, some 0⟩, ⟨.rw .wearLife, "WEAR_LIFE", .wear, 64, 1, 8, some 8⟩,
  ⟨.wearEol, "WEAR_EOL", .wear, 64, 1, 8, some 0x10⟩, ⟨.wearSeq, "WEAR_SEQ", .wear, 64, 1, 8, some 0x18⟩,
  ⟨.rw .wearRpt, "WEAR_RPT", .wear, 64, 1, 8, some 0x20⟩,
  ⟨.wearB, "WEAR_B", .wear, 64, 4096, 0x40, some 0x10000⟩, ⟨.wearH, "WEAR_H", .wear, 64, 4096, 0x40, some 0x10008⟩,
  ⟨.wearE, "WEAR_E", .wear, 64, 4096, 0x40, some 0x10010⟩, ⟨.wearPool, "WEAR_POOL", .wear, 64, 4096, 0x40, some 0x10018⟩,
  ⟨.wearUstat, "WEAR_USTAT", .wear, 64, 4096, 0x40, some 0x10020⟩,
  ⟨.wearAllow, "WEAR_ALLOW", .wear, 64, 4096, 0x40, some 0x10028⟩,
  ⟨.wearHold, "WEAR_HOLD", .wear, 64, 4096, 0x40, some 0x10030⟩,
  ⟨.wearLast, "WEAR_LAST", .wear, 64, 4096, 0x40, some 0x10038⟩,
  ⟨.drpCtl, "DRP_CTL", .drp, 32, 1, 8, some 0⟩, ⟨.drpStat, "DRP_STAT", .drp, 32, 1, 8, some 8⟩,
  ⟨.rc .drpFires, "DRP_FIRES", .drp, 64, 1, 8, some 0x10⟩, ⟨.rc .drpHophold, "DRP_HOPHOLD", .drp, 64, 1, 8, some 0x18⟩]

/-- A register of one instance whose offset only the directory gives. -/
def oneReg (r : Reg) (n : String) (b : Block) (w : Nat) : RegRow := ⟨r, n, b, w, 1, 8, none⟩

/-- An array of registers whose offset only the directory gives. -/
def regArray (r : Reg) (n : String) (b : Block) (w k : Nat) : RegRow := ⟨r, n, b, w, k, max 8 (w / 8), none⟩

/-- The clusters' registers (R93, R151, R160, R191, R212, R215, R226, R237, R240, R325, R356). -/
def cluRegs : List RegRow := [
  oneReg (.rc .cluBraDiverge) "CLU_BRA_DIVERGE" .clu 64, oneReg (.rc .cluReformSkip) "CLU_REFORM_SKIP" .clu 64,
  oneReg (.rc .cluJoinNop) "CLU_JOIN_NOP" .clu 64, oneReg (.rc .cluAtomNear) "CLU_ATOM_NEAR" .clu 64,
  oneReg (.rc .cluAtomFar) "CLU_ATOM_FAR" .clu 64, oneReg (.rc .cluAtomGrant) "CLU_ATOM_GRANT" .clu 64,
  oneReg (.rw .cluQstallLim) "CLU_QSTALL_LIM" .clu 32, oneReg (.rc .cluMmaIssue) "CLU_MMA_ISSUE" .clu 64,
  oneReg (.rc .cluMmaDrop) "CLU_MMA_DROP" .clu 64, oneReg (.rc .cluEarlyPromo) "CLU_EARLY_PROMO" .clu 64,
  oneReg (.rc .cluNofferDup) "CLU_NOFFER_DUP" .clu 64, oneReg (.rc .cluCopyAlloc) "CLU_COPY_ALLOC" .clu 64,
  oneReg (.rc .cluCopyFault) "CLU_COPY_FAULT" .clu 64, oneReg (.rc .cluTmarkDrop) "CLU_TMARK_DROP" .clu 64,
  oneReg .cluClk "CLU_CLK" .clu 32, oneReg (.rc .cluXfifo) "CLU_XFIFO" .clu 64,
  oneReg (.rc .cluBankSpill) "CLU_BANK_SPILL" .clu 64, oneReg (.rw .cluHangLim) "CLU_HANG_LIM" .clu 32,
  oneReg .cluPoolFree "CLU_POOL_FREE" .clu 64, oneReg .cluBinStat "CLU_BIN_STAT" .clu 32,
  oneReg (.rc .cluBinFull) "CLU_BIN_FULL" .clu 64, oneReg (.rc .cluBinAged) "CLU_BIN_AGED" .clu 64,
  oneReg (.rc .cluBinForced) "CLU_BIN_FORCED" .clu 64, oneReg (.rc .cluRetWait) "CLU_RET_WAIT" .clu 64,
  oneReg (.rc .cluPromoStall) "CLU_PROMO_STALL" .clu 64, oneReg (.rc .cluStray) "CLU_STRAY" .clu 64,
  oneReg .cluIssueStall "CLU_ISSUE_STALL" .clu 64, oneReg (.rc .cluEcc) "CLU_ECC" .clu 64]

/-- The other registers of the dies' blocks (R252, R306, R313, R314, R356). -/
def dieRegs : List RegRow := [
  oneReg (.rc .cxbRdcHit) "CXB_RDC_HIT" .cxb 64, oneReg (.rc .cxbRdcMiss) "CXB_RDC_MISS" .cxb 64,
  oneReg .slcWaymap "SLC_WAYMAP" .slc 64, oneReg (.rc .slcEcc) "SLC_ECC" .slc 64, oneReg (.rc .homEcc) "HOM_ECC" .hom 64,
  oneReg .portHealth "FAB_PORT_HEALTH" .fab 64, oneReg (.rw .fabPortAlarm) "FAB_PORT_ALARM" .fab 64,
  regArray .fabCgrp "FAB_CGRP" .fab 128 256]

/-- Registers of the launcher, translation, routing and security (R268, R270, R276, R279, R292, R295, R298, R304, R306,
R310, R311). -/
def hubRegs : List RegRow := [
  regArray (.rw .lchQbase) "LCH_QBASE" .lch 64 256, regArray .lchQcfg "LCH_QCFG" .lch 32 256,
  regArray .lchQtail "LCH_QTAIL" .lch 32 256, regArray .lchQhead "LCH_QHEAD" .lch 32 256,
  oneReg (.rc .lchPreempt) "LCH_PREEMPT" .lch 64, oneReg (.rc .lchDrainOver) "LCH_DRAIN_OVER" .lch 64,
  oneReg (.rw .xltCtxtBase) "XLT_CTXT_BASE" .xlt 64, oneReg (.rw .xltCmd) "XLT_CMD" .xlt 64,
  oneReg (.rw .xltMigPa) "XLT_MIG_PA" .xlt 64, oneReg .xltCmdStat "XLT_CMD_STAT" .xlt 32,
  regArray (.rc .xltL2Miss) "XLT_L2_MISS" .xlt 64 4, regArray (.rc .xltWalks) "XLT_WALKS" .xlt 64 4,
  regArray (.rc .xltCoalesce) "XLT_COALESCE" .xlt 64 4,
  regArray .nrtEnt "NRT_ENT" .nrt 128 4096, regArray (.rc .nrtMerged) "NRT_MERGED" .nrt 64 4,
  regArray (.rc .nrtUnmerged) "NRT_UNMERGED" .nrt 64 4, regArray (.rc .nrtTabWait) "NRT_TAB_WAIT" .nrt 64 4,
  regArray .secTdiStat "SEC_TDI_STAT" .sec 32 16, regArray .secSpWorld "SEC_SP_WORLD" .sec 32 576,
  regArray .secSpadWorld "SEC_SPAD_WORLD" .sec 128 576, regArray .secKeyslot "SEC_KEYSLOT" .sec 64 64,
  oneReg (.rc .secHostDeny) "SEC_HOST_DENY" .sec 64]

/-- Registers of the management controller, the black box and the power controller (R315 to R317, R323, R326, R334, R358,
R360, R362, R363). -/
def mcRegs : List RegRow := [
  oneReg (.rw .mcErrBase) "MC_ERR_BASE" .mc 64, oneReg (.rw .mcErrCfg) "MC_ERR_CFG" .mc 32,
  oneReg .mcErrTail "MC_ERR_TAIL" .mc 32, oneReg (.rw .mcErrHead) "MC_ERR_HEAD" .mc 32,
  oneReg (.rc .mcErrLost) "MC_ERR_LOST" .mc 64, oneReg .mcSwref "MC_SWREF" .mc 64,
  oneReg (.rw .mcEvaddr) "MC_EVADDR" .mc 64, oneReg .mcEvreq "MC_EVREQ" .mc 32, oneReg (.rw .mcEvstat) "MC_EVSTAT" .mc 32,
  regArray .mcRemapClu "MC_REMAP_CLU" .mc 32 64, regArray .mcRemapSlc "MC_REMAP_SLC" .mc 32 4,
  oneReg .mcSpareCall "MC_SPARE_CALL" .mc 32, oneReg .mcSpareStat "MC_SPARE_STAT" .mc 32,
  oneReg (.rw .bbxCtl) "BBX_CTL" .bbx 64, oneReg .bbxSeq "BBX_SEQ" .bbx 64, oneReg (.rc .bbxDrop) "BBX_DROP" .bbx 64,
  oneReg (.rw .pwrProtStat) "PWR_PROT_STAT" .pwr 64, regArray .pwrStgVi "PWR_STG_VI" .pwr 64 2,
  regArray .pwrStgTe "PWR_STG_TE" .pwr 64 2, oneReg (.rw .pwrPkgLim) "PWR_PKG_LIM" .pwr 32,
  oneReg (.rw .pwrRsv) "PWR_RSV" .pwr 32, regArray (.rw .pwrCap) "PWR_CAP" .pwr 32 4,
  oneReg (.rw .pwrSlide) "PWR_SLIDE" .pwr 64, regArray .pwrDieLim "PWR_DIE_LIM" .pwr 32 4,
  regArray (.rw .pwrRetIdle) "PWR_RET_IDLE" .pwr 64 4]

/-- Every register, in the directory's order (log entry 79). -/
def allRegs : List RegRow := givenRegs ++ cluRegs ++ dieRegs ++ hubRegs ++ mcRegs

/-- The bytes of an instance of a block (R300). -/
def Block.size : Block → Nat
  | .clu | .slc | .hom | .fab => 2 ^ 16
  | .drp => 2 ^ 12
  | _ => 2 ^ 20

/-- The bytes a register's instances take, from its offset on. -/
def RegRow.size (r : RegRow) : Nat := r.count * r.stride

/-- The first place from `a` on, going round at `lim`, that meets nothing placed. -/
def fit (taken : List (Nat × Nat)) (size align lim : Nat) : Nat → Nat → Nat
  | 0, a => a
  | n + 1, a =>
    if lim < a + size then fit taken size align lim n 0
    else
      match taken.find? fun t => decide (a < t.2) && decide (t.1 < a + size) with
      | some t => fit taken size align lim n ((t.2 + align - 1) / align * align)
      | none => a

/-- The place of a register that the specification gives none: one of the device's choice that no other register takes (log
entry 79). -/
def RegRow.place (r : RegRow) (placed : List (RegRow × Nat)) : Nat :=
  let taken := (placed.filter fun p => p.1.block == r.block).map fun p => (p.2, p.2 + p.1.size)
  let wish := Config.regOffset placed.length % (r.block.size / r.stride) * r.stride
  fit taken r.size r.stride r.block.size (2 * taken.length + 2) wish

/-- Every register with its offset (R302). -/
def regMap : List (RegRow × Nat) :=
  allRegs.foldl (fun placed r => placed ++ [(r, r.pos.getD (r.place placed))]) []

/-- An entry of the register directory (R302). -/
def dirEntry (p : RegRow × Nat) : List Byte :=
  let name := p.1.name.toList.map fun c => BitVec.ofNat 8 c.toNat
  name ++ List.replicate (24 - name.length) 0 ++ toBytes p.2 4 ++ toBytes p.1.width 2 ++ toBytes 0 2

/-- The register directory (R302). -/
def directory : List Byte := regMap.flatMap dirEntry ++ toBytes 0 32

/-- The block instance at an offset of BAR0 of PF0, and the offset within it (R300); absent dies have none (R2). -/
def State.blockAt (s : State) (off : Nat) : Option (Block × Nat × Nat) :=
  let hub : List Block := [.lch, .xlt, .nrt, .sec, .hst, .mc, .bbx, .pwr, .wear]
  if off < 0x00900000 then some (nth hub (off / 2 ^ 20) .lch, 0, off % 2 ^ 20)
  else if off < 0x04000000 then none
  else
    let d := (off - 0x04000000) / 0x03000000
    let o := (off - 0x04000000) % 0x03000000
    let of (b : Block) (base size n : Nat) : Option (Block × Nat × Nat) :=
      if base ≤ o ∧ o < base + n * size then some (b, n * d + (o - base) / size, (o - base) % size) else none
    if s.dieCount ≤ d then none
    else
      (of .clu 0 (2 ^ 16) 144).orElse fun _ => (of .cxb 0x01100000 (2 ^ 20) 1).orElse fun _ =>
      (of .slc 0x01200000 (2 ^ 16) 100).orElse fun _ => (of .hom 0x01C00000 (2 ^ 16) 4).orElse fun _ =>
      (of .drp 0x02000000 (2 ^ 12) 256).orElse fun _ => of .fab 0x02100000 (2 ^ 16) 9

/-- The logical unit that an instance of a block stands for: an instance at a spare position shows the physical part there,
which may serve another number (R362). -/
def State.instanceOf (s : State) (b : Block) (i : Nat) : Nat :=
  match b with
  | .clu => if i % 9 = 8 then s.servesCluster (i / 144) (i % 144) else i
  | .slc => if 96 ≤ i % 100 then 100 * (i / 100) + s.servesSlice (i / 100) (i % 100) else i
  | _ => i

/-- Registers of a die that is absent read zero and ignore writes (R2). -/
def State.regPresent (s : State) (r : Reg) (i : Nat) : Bool :=
  match r with
  | .islVset | .islFset | .islStat | .islTel => decide (i < 256 * s.dieCount)
  | .wearB | .wearH | .wearE | .wearPool | .wearUstat | .wearAllow | .wearHold | .wearLast =>
    decide (i < 1024 * s.dieCount) && decide (i % 1024 < unitCount)
  | .secSpWorld | .secSpadWorld => decide (i < 144 * s.dieCount)
  | .mcRemapClu => decide (i < 16 * s.dieCount)
  | .mcRemapSlc | .pwrDieLim | .rw .pwrCap | .rw .pwrRetIdle => decide (i < s.dieCount)
  | .drpCtl | .drpStat | .rc .drpFires | .rc .drpHophold => decide (i % 256 < 128)
  | _ => true

/-- The register at an offset of BAR0 of PF0 with its number, and the byte of it (R300, R361: after a failed boot only those
of the management controller are there). -/
def State.regAt (s : State) (off : Nat) : Option (RegRow × Nat × Nat) :=
  match s.blockAt off with
  | none => none
  | some (b, i, o) =>
    if s.mc.boot ≠ 0 ∧ b ≠ .mc then none
    else
      match regMap.find? fun p => p.1.block == b && decide (p.2 ≤ o) && decide (o < p.2 + p.1.size)
          && decide ((o - p.2) % p.1.stride < p.1.width / 8) with
      | none => none
      | some (r, base) =>
        let k := (o - base) / r.stride
        let n := match r.reg with
          | .fabCgrp => k
          | .slcWaymap => i / 100
          | _ => if r.count = 1 then s.instanceOf b i else k
        if s.regPresent r.reg n then some (r, n, (o - base) % r.stride) else none

/-- Fields side by side: value and least bit of each. -/
def fields (l : List (Nat × Nat)) : Nat := l.foldl (fun n p => n + p.1 * 2 ^ p.2) 0

/-- What the XLT_, MC_, PWR_ and other plain registers hold (R8); a register of W fields reads zero. -/
def State.rwValue (s : State) (r : RwReg) (i : Nat) : Nat :=
  match r with
  | .cluQstallLim => (s.cluster i).qstall.toNat
  | .cluHangLim => (s.cluster i).hangLim.toNat
  | .xltCtxtBase => s.xlt.ctxBase.toNat
  | .xltFqBase => s.xlt.fqBase.toNat
  | .xltFqCfg => fields [(s.xlt.fqEn.toNat, 31), (s.xlt.fqLogn, 0)]
  | .xltFqHead => s.xlt.fqHead
  | .xltFqResp => 0
  | .xltMigPa => s.xlt.migPa.toNat
  | .xltCmd => s.xlt.cmd.toNat
  | .lchQbase => (s.queue i).base.toNat
  | .mcErrBase => s.mc.errBase.toNat
  | .mcErrCfg => fields [(s.mc.errEn.toNat, 31), (s.mc.errLogn, 0)]
  | .mcErrHead => s.mc.errHead
  | .mcEvaddr => s.sec.evAddr.toNat
  | .mcEvstat => fields [(s.sec.evDone.toNat, 31), (s.sec.evStatus, 0)]
  | .pwrProtStat =>
    s.pwr.prot.toNat + fields ((List.range s.dieCount).map fun d => ((s.clamped d).toNat, d))
  | .pwrPkgLim => s.pwr.pkgLim
  | .pwrRsv => s.pwr.rsv
  | .pwrCap => nth s.pwr.caps i 0
  | .pwrSlide => fields [(s.pwr.lcomp % 2 ^ 16, 48), (s.pwr.lmem % 2 ^ 16, 32), (s.pwr.mshare, 0)]
  | .pwrPqBase => s.pwr.pqBase.toNat
  | .pwrPqCfg => fields [(s.pwr.pqEn.toNat, 31), (s.pwr.pqLogn, 0)]
  | .pwrPqHead => s.pwr.pqHead
  | .pwrRetIdle => (nth s.pwr.retIdle i 0).toNat
  | .wearCtl => s.wear.ctlNew.toNat
  | .wearLife => fields [(s.wear.arate % 2 ^ 32, 32), (s.wear.tgt, 0)]
  | .fabPortAlarm => (s.fabPort i).alarm.toNat
  | .bbxCtl => s.mc.bbxCtl.toNat
  | .wearRpt => s.wear.rpt.toNat
  | .readOnly => 0

/-- PWR_ISL_STAT (R322): a transition is made of ramps and hops; a clamp lowers an island below its commanded point. -/
def State.islStat (s : State) (i : Nat) : Nat :=
  let x := s.island i
  fields [
    ((x.move.isSome || (s.hopping i).isSome).toNat, 63),
    ((x.thermal == 2 || decide (x.want i < x.mhz)).toNat, 62),
    (s.fnow i, 28), (x.ceilf % 2 ^ 12, 16), (x.n, 8), (x.status, 0)]

/-- DRP_STAT of a lane island (R224). -/
def Clock.stat (k : Clock) : Nat :=
  fields [(k.hop.isSome.toNat, 31), (k.str.toNat, 30), (k.hold.toNat, 29), (k.halve, 22), (k.peak, 0)]

/-- SEC_TDI_STAT(n) (R304): there is no TDI 0. -/
def State.tdiStat (s : State) (n : Nat) : Nat :=
  if n = 0 then 0
  else
    let held := (s.sec.slots.filter fun p => p.2.world == n).length
    fields [(held, 4), ((s.tdi n).ide.toNat, 3), ((s.tdi n).state, 0)]

/-- The registers of a wear unit (R340). -/
def WearUnit.reg (x : WearUnit) (r : Reg) : Nat :=
  match r with
  | .wearB => x.b
  | .wearH => x.h
  | .wearE => x.e
  | .wearPool => fields [(x.base % 2 ^ 24, 24), (x.pool, 0)]
  | .wearUstat => fields [(x.state, 61), (x.rleft, 49), (x.rgap, 41), (x.widx % 2 ^ 32, 0)]
  | .wearAllow => x.allow
  | .wearHold => x.hold
  | _ => fields [(x.vb, 60), (x.tb, 56), (x.jb, 52), (x.fb, 43), (x.fah, 33)]

/-- What a register holds (R8): the value that a read of all of it returns. -/
def State.regValue (s : State) (r : Reg) (i : Nat) : Nat :=
  let c := s.cluster i
  let binsOn (sp : Nat) : Nat := (c.bins.filter fun b => b.2.sp == sp).length
  match r with
  | .rc r => s.rcValue r i
  | .rw r => s.rwValue r i
  | .cluClk => fields [(c.rate, 24), (c.clock.lmhz, 12), (islandMhz 128, 0)]
  | .cluPoolFree => fields ((List.range 4).map fun sp => (s.poolFree i sp, 12 * sp))
  | .cluBinStat => fields ((List.range 4).map fun sp => (binsOn sp, 7 * sp))
  | .cluIssueStall => c.issueStall.toNat
  | .drpCtl => (s.cluster (islandCluster i)).clock.drpCtl.toNat
  | .drpStat => (s.cluster (islandCluster i)).clock.stat
  | .nrtEnt => (s.reg128 (.nrtEnt i)).toNat
  | .fabCgrp => (s.reg128 (.fabCgrp i)).toNat
  | .secSpadWorld => (s.reg128 (.secSpadWorld i)).toNat
  | .secSpWorld => c.spWorld.toNat
  | .slcWaymap => (s.die i).wayMap.toNat
  | .secTdiStat => s.tdiStat i
  | .secKeyslot => match find? s.sec.slots i with
    | some k => fields [(1, 63), (k.world, 59), (k.ctx, 51), (k.last, 0)]
    | none => 0
  | .lchQcfg => (s.queue i).cfg.toNat
  | .lchQtail => (s.queue i).tail
  | .lchQhead => (s.queue i).head
  | .xltFqTail => s.xlt.fqTail
  | .xltCmdStat => fields [(s.xlt.busy.toNat, 31), (s.xlt.status, 0)]
  | .hstReset | .pwrPqResp => 0
  | .mcErrTail => s.mc.errTail
  | .mcEvreq => s.sec.evReq.toNat
  | .mcSwref => s.fab.swref.toNat
  | .mcRemapClu => (findD s.mc.remapClu i 0x76543210).toNat
  | .mcRemapSlc => (findD s.mc.remapSlc i 0).toNat
  | .mcSpareCall => s.mc.spareCall.toNat
  | .mcSpareStat => s.mc.spareStat
  | .bbxSeq => s.mc.bbxSeq
  | .pwrStgVi => (nth s.pwr.stages (2 * i) 0).toNat
  | .pwrStgTe => (nth s.pwr.stages (2 * i + 1) 0).toNat
  | .pwrDieLim => nth s.pwr.dieLim i 0
  | .pwrPqTail => s.pwr.pqTail
  | .islVset => fields [((s.island i).gate.toNat, 31), ((s.island i).mv, 0)]
  | .islFset => (s.island i).mhz
  | .islStat => s.islStat i
  | .islTel => (s.island i).tel.toNat
  | .wearEol => s.wear.eol
  | .wearSeq => s.wear.seq
  | .portHealth => (s.fabPort i).health.toNat
  | .wearB | .wearH | .wearE | .wearPool | .wearUstat | .wearAllow | .wearHold | .wearLast => (s.wunit i).reg r

/-- The staging name of a 128-bit register (R301). -/
def Reg.wide (r : Reg) (i : Nat) : Option Reg128 :=
  match r with
  | .nrtEnt => some (.nrtEnt i)
  | .fabCgrp => some (.fabCgrp i)
  | .secSpadWorld => some (.secSpadWorld i)
  | _ => none

/-- A read of bytes `o` to `o + n - 1` of a register, which clears the RC fields' bits that it returns (R8). -/
def State.readReg (s : State) (r : Reg) (i o n : Nat) : List Byte × State :=
  let v := s.regValue r i
  match r, r.wide i with
  | _, some w =>
    if o = 0 then
      match execReg128LowRead w s with
      | .next t => (toBytes v n, t)
      | _ => (toBytes v n, s)
    else
      let held := ((s.latches.find? fun p => p.1 == w).map fun p => p.2.toNat * 2 ^ 32).getD v
      (toBytes (held / 2 ^ (8 * o)) n, s)
  | .rc c, none => (toBytes (v / 2 ^ (8 * o)) n, if n = 8 then s.also (execRcRead c i) else s.rcClear c i (8 * o))
  | _, none => (toBytes (v / 2 ^ (8 * o)) n, s)

/-- A write of a 32- or 64-bit register by its whole value (R8); read-only ones ignore it. -/
def State.writeReg (s : State) (r : Reg) (i : Nat) (v : DWord) (env : WriteEnv) : State :=
  let w : Word := v.truncate 32
  s.also fun s => match r with
    | .rw r => execRegisterWrite r i v s
    | .cluClk => if s.isCluster i then execCluClkWrite i w s else .next s
    | .drpCtl => execDrpCtlWrite (islandCluster i) w s
    | .secSpWorld => execSecSpWorldWrite i w s
    | .slcWaymap => execSlcWaymapWrite i v s
    | .lchQcfg => execLchQcfgWrite i w s
    | .lchQtail => execLchQtailWrite 0 i (v.truncate 16) s
    | .hstReset => execPackageReset (.hostWrite w) env.fwOk env.stacksOk s
    | .mcEvreq => execJobEvidenceRequest w s
    | .mcSwref => execMcSwrefWrite v env.groups s
    | .mcSpareCall => execClusterSpareCall w s
    | .pwrPqResp => execPolicyAnswer v s
    | .islVset => execPwrIslVsetWrite (i / 256) (i % 256) w s
    | .islFset => execPwrIslFsetWrite (i / 256) (i % 256) w s
    | _ => .next s

/-- Bits of a 64-bit register that a write of 1 acts on: a 32-bit write of the other half leaves them alone. -/
def Reg.actBits : Reg → Nat
  | .rw .fabPortAlarm => 7 * 2 ^ 61
  | .rw .pwrProtStat => 0xFF0
  | .rw .bbxCtl => 3
  | .rw .wearRpt => 1
  | _ => 0

/-- A write of bytes of a register (R8, R301). A 32-bit write of half of a 64-bit register leaves what the other half holds,
and starts nothing that a field of the other half starts (log entry 79). -/
def State.writeBytes (s : State) (r : RegRow) (i o n : Nat) (v : DWord) (env : WriteEnv) : State :=
  match r.reg.wide i with
  | some w =>
    s.also fun s =>
      if n = 4 ∧ o ≠ 12 ∨ n = 8 ∧ o = 0 then execReg128StagingWrite w (o / 4) (n == 8) v s
      else
        match w with
        | .nrtEnt k => execNrtEntWrite k (n == 8) v s
        | .fabCgrp g => execFabCgrpWrite g (n == 8) v env.reports s
        | .secSpadWorld _ => .next s
  | none =>
    if n = 8 ∨ r.width = 32 then s.writeReg r.reg i v env
    else
      let held := s.regValue r.reg i - (s.regValue r.reg i &&& r.reg.actBits)
      let whole := BitVec.ofNat 64 (setBits held (8 * o) 32 v.toNat)
      match r.reg, o with
      | .rw .xltCmd, 4 => if s.xlt.busy then s else { s with xlt := { s.xlt with cmd := whole } }
      | .rw .xltFqResp, 4 | .pwrPqResp, 4 => s
      | _, _ => s.writeReg r.reg i whole env

/-- An access is of 4 or 8 bytes, aligned, and lies in the window (R300). -/
def barSize (off n size : Nat) : Bool := (n == 4 || n == 8) && off % n == 0 && decide (off + n ≤ size)

/-- The four or eight bytes at an offset: a wide register's, or those of the 32-bit words there. -/
def State.barWords (s : State) (off n : Nat) : List (Nat × Nat) :=
  if n = 8 then
    match s.regAt off with
    | some (r, _, _) => if r.width = 32 then [(off, 4), (off + 4, 4)] else [(off, 8)]
    | none => [(off, 4), (off + 4, 4)]
  else [(off, n)]

/-- A read of a piece of BAR0: the directory, a register, or zeros. -/
def State.barPiece (s : State) (off n : Nat) : List Byte × State :=
  if 0x00F00000 ≤ off ∧ off < 0x01000000 ∧ s.mc.boot = 0 then
    (toBytes (ofBytes ((directory.drop (off - 0x00F00000)).take n)) n, s)
  else
    match s.regAt off with
    | some (r, i, o) => s.readReg r.reg i o n
    | none => (toBytes 0 n, s)

/-- The launch queue whose tail VF `fn` reaches at an offset of its BAR0 (R300): one of a context of its world. -/
def State.vfQueue (s : State) (fn off : Nat) : Option Nat :=
  if off < 2048 ∧ off % 8 = 0 ∧ s.worldOfCtx (s.queue (off / 8)).ctx = some fn then some (off / 8) else none

/-- A read of BAR0 of PF0, or of a VF (R8, R300), which a failed boot does not expose (R361). -/
def State.barRead (s : State) (fn off n : Nat) : State :=
  if !barSize off n (if fn = 0 then 2 ^ 28 else 2 ^ 16) ∨ fn ≠ 0 ∧ s.mc.boot ≠ 0 then s.answer false []
  else if fn = 0 then
    let r := (s.barWords off n).foldl (fun (r : List Byte × State) p =>
      let q := r.2.barPiece p.1 p.2
      (r.1 ++ q.1, q.2)) ([], s)
    r.2.answer true r.1
  else s.answer true (toBytes (((s.vfQueue fn off).map fun q => (s.queue q).tail).getD 0) n)

/-- A write of BAR0 of PF0, or of a VF (R8, R300), which a failed boot does not expose (R361). -/
def State.barWrite (s : State) (fn off n : Nat) (v : DWord) (env : WriteEnv) : State :=
  if !barSize off n (if fn = 0 then 2 ^ 28 else 2 ^ 16) ∨ fn ≠ 0 ∧ s.mc.boot ≠ 0 then s.answer false []
  else
    let s := s.answer true []
    if fn = 0 then
      (s.barWords off n).foldl (fun s p =>
        match s.regAt p.1 with
        | some (r, i, o) => s.writeBytes r i o p.2 (BitVec.ofNat 64 (v.toNat / 2 ^ (8 * (p.1 - off)) % 2 ^ (8 * p.2))) env
        | none => s) s
    else
      match s.vfQueue fn off with
      | some q => s.also (execLchQtailWrite fn q (v.truncate 16))
      | none => s

end Sys2Proof.Machine
end

