-- ==== Sys2Proof/Machine/Run.lean ====
section
/-!
DEFINITION. How an issue group fetches and runs its next instruction (R13, R24, R45), how an issue
opportunity is given (R241), and what the machine does by itself.
-/

namespace Sys2Proof.Machine

/-- The trap of a code. -/
def trapOf (n : Nat) : Trap := if n = Trap.barrierUnreachable.code then .barrierUnreachable else .syscall

/-- The landing check that is still owed by threads whose target could not be read (R24). -/
def State.landing (s : State) (x : Issue) : Option (List (Nat × Cause)) × State :=
  let ks := x.ts.filter fun k => ((s.thread? x.co k).map Thread.land).getD false
  if ks.isEmpty then (none, s)
  else
    match s.checkTarget x.ci x.ctx x.pc false with
    | (.bad t w, s) => (some (ks.map fun k => (k, landCause x.pc t w)), s)
    | (_, s) => (none, s.modThreads x.co ks fun _ t => { t with land := false })

/-- The next instruction of an issue group: fetched, checked and run; `sel` names the group where it is issued. -/
def State.runGroup (s : State) (co g : Nat) : Host.Outcome State Fault Refusal :=
  match find? s.cohorts co with
  | none => .next s
  | some c =>
    match c.members g with
    | [] => .next s
    | k :: ks =>
      let pc := ((c.thread? k).map Thread.pc).getD 0
      let x : Issue := ⟨co, g, c.ci, c.ctx, k :: ks, pc, []⟩
      let s := { s with sel := none }
      let all (s : State) (z : Cause) : Host.Outcome State Fault Refusal :=
        .next (s.takeTraps co g (x.ts.map fun k => (k, z)))
      if pc.toNat % 4 ≠ 0 then all s (landCause pc .misalignedTarget 0)
      else
        match s.fetchInstr c.ci c.ctx pc with
        | (.page va l, s) => .next (x.ts.foldl (fun s k => s.parkOnPage x k va Need.fetch .thread l) s)
        | (.trap t, s) => all s ⟨t, 0, pc, 0, 0, none⟩
        | (.instr i ws, s) =>
          let x := { x with words := ws }
          match s.landing x with
          | (some zs, s) => .next (s.takeTraps co g zs)
          | (none, s) =>
            let due := x.ts.filterMap fun k => ((s.thread? co k).bind Thread.due).map fun n => (k, x.cause (trapOf n) 0)
            if due.isEmpty then Sys2Proof.Machine.exec i { s with sel := some (co, g) } else .next (s.takeTraps co g due)

/-- An attempt to run a group did something: it issued, trapped, waited or left. -/
def movedOn (s s' : State) (co : Nat) : Bool :=
  s'.fresh != s.fresh || (find? s'.cohorts co).map Cohort.threads != (find? s.cohorts co).map Cohort.threads

/-- An instruction retired in a thread that issued it (R226): the thread has gone on, has arrived where it waits, or has
left; a trap retires only an instruction that it resumes after. -/
def State.didRetire (s s' : State) (co k : Nat) : Bool :=
  match (find? s.cohorts co).bind fun c => find? c.threads k, find? s'.cohorts co with
  | some t, some c =>
    match find? c.threads k with
    | none => true
    | some u =>
      if t.frames.length < u.frames.length then ((u.frames.getLast?).bind Frame.edge).isSome
      else
        match u.run with
        | .group g => decide (s.fresh ≤ ((find? c.groups g).map Group.stamp).getD 0)
        | .join _ | .serialWait _ | .serialDone .. | .binned _ | .atNext _ | .stopped _ => true
        | .barWait .. | .barArrive .. | .convWait .. | .faulted .. | .parked .. | .nested _ | .discarded => false
  | some _, none => true
  | none, _ => false

/-- A taken opportunity (R215, R226, R241): an instruction that was issued is written at the end of the front-end cycle, with
the samples that it takes at its start (R229). -/
def State.issued (s s' : State) (ci sp co g : Nat) (drawn : Bool) : State :=
  let ks := ((find? s.cohorts co).map fun c => c.members g).getD []
  let first := ((find? s.cohorts co).map Cohort.fresh).getD 0
  let sampling (id : Nat) (p : Pend) : Bool := decide (first ≤ id) && match p.kind with
    | .sample _ => true
    | _ => false
  let ids := ((find? s'.cohorts co).map fun c => keys (filterMap c.pends sampling)).getD []
  let s' := if ks.any fun k => s.didRetire s' co k then s'.retired ci else s'
  let ctx := ((find? s.cohorts co).map Cohort.ctx).getD 0
  let s' := (s'.takes (laneIsland ci) ctx).takes (frontIsland ci) ctx
  s'.modCluster ci fun c =>
    let f := nth c.fe sp FrontEnd.reset
    { c with
      winOpp := c.winOpp + 1
      fe := setNth c.fe sp { f with
        left := f.left - 1, drew := drawn
        wr := if s'.sel = some (co, g) then f.wr ++ [⟨0, co, ids⟩] else f.wr } }

/-- What became of an opportunity: taken, or still free with the state its attempts left. -/
inductive Given where
  | taken (o : Host.Outcome State Fault Refusal)
  | free (s : State)

/-- The state in which everything in memory that a cohort waits for has come: loads, engine completions, named tiles and
events (R325). -/
def State.memoryCame (s : State) (co : Nat) : State :=
  match find? s.cohorts co with
  | none => s
  | some c =>
    let zero : Lanes := List.replicate 32 0
    let full (l : List Lanes) : List Lanes := if l.isEmpty then [zero, zero] else l
    let s := (keys (filterMap c.pends fun _ p => p.kind.loaded)).foldl (fun s id => s.landPend co id) s
    let s := s.modCohort co fun c => { c with queues := mapVals c.queues fun _ b =>
      if b.kind = 7 ∧ b.entries.isEmpty then { b with entries := [(0, some zero), (1, some zero)] } else b }
    s.modCluster c.ci fun cl => { cl with
      events := { cl.events with items := full cl.events.items }
      outs := cl.outs.map fun p => { p with items := full p.items } }

/-- A group that was tried and waits (R241): it becomes ready later than now, and what it waits for is noted (R325). -/
def State.noteWait (s : State) (co g : Nat) : State :=
  let t := s.memoryCame co
  let mem : Bool := match t.runGroup co g with
    | .next t' => movedOn t t' co
    | _ => true
  { s.modCohort co fun c => { c with groups := modify c.groups g fun x =>
      { x with stamp := s.fresh, waited := true, memory := mem } } with fresh := s.fresh + 1 }

/-- Groups are tried in turn until one issues. -/
def State.tryGroups (s : State) (ci sp : Nat) (drawn : Bool) : List (Nat × Nat) → Given
  | [] => .free s
  | (co, g) :: rest =>
    match s.runGroup co g with
    | .next s' =>
      if movedOn s s' co then .taken (.next (s.issued s' ci sp co g drawn)) else (s'.noteWait co g).tryGroups ci sp drawn rest
    | o => .taken o

/-- Groups of a sub-partition, by the order of R241. -/
def State.groupsOf (s : State) (ci sp : Nat) : List (Nat × Nat) :=
  let gs : FMap (Nat × Nat) := s.cohorts.foldl (fun m p =>
    if p.2.ci = ci ∧ p.2.phase ≠ .saved then
      p.2.groups.foldl (fun m q => if q.2.sp = sp then insert m q.2.stamp (p.1, q.1) else m) m
    else m) []
  gs.map Prod.snd

/-- The moment at which a group that was waiting becomes ready is open (R247 bound 3), so its place in the order is. -/
def State.placeOpen (s : State) (a : Nat × Nat) : Bool :=
  (((find? s.cohorts a.1).bind fun c => find? c.groups a.2).map Group.waited).getD false

/-- The bin an opportunity draws (R241), and whether it is full. -/
def State.binToDraw (s : State) (ci sp : Nat) : Option (Nat × Bool) :=
  let c := s.cluster ci
  let here := c.bins.filter fun b => b.2.sp == sp
  let full := here.find? fun b => 32 ≤ (s.binLanes b.2.cohort b.1).length
  let aged := here.find? fun b => (b.2.aged || s.binDue b.2) && decide ((s.binLanes b.2.cohort b.1).length < 32)
  match full, aged with
  | some f, some a => if (nth c.fe sp FrontEnd.reset).aged then some (f.1, true) else some (a.1, false)
  | some f, none => some (f.1, true)
  | none, some a => some (a.1, false)
  | none, none => none

/-- A bin is drawn at an opportunity, and its group. -/
def State.drawAt (s : State) (ci sp b : Nat) (full : Bool) : List (Nat × Nat) × State :=
  match find? (s.cluster ci).bins b with
  | none => ([], s)
  | some x =>
    let before := s.groupsOf ci sp
    let s := (s.drawBin ci b).bump (if full then .cluBinFull else .cluBinAged) ci 1
    let s := s.modCluster ci fun c =>
      { c with fe := setNth c.fe sp { nth c.fe sp FrontEnd.reset with aged := !full } }
    (((s.groupsOf ci sp).filter fun g => g.1 == x.cohort && !before.contains g), s)

/-- An issue opportunity of a sub-partition (R241): the group issues that became ready, or last issued, longest ago; `pick`
names one whose moment of becoming ready is open. -/
def State.opportunity (s : State) (ci sp : Nat) (pick : List (Nat × Nat)) : Given :=
  let f := nth (s.cluster ci).fe sp FrontEnd.reset
  if f.left = 0 then .free s
  else
    let order (s : State) : List (Nat × Nat) :=
      let gs := s.groupsOf ci sp
      let first := pick.filter fun a => gs.contains a && s.placeOpen a
      first ++ gs.filter fun g => !first.contains g
    let draw (s : State) (rest : Bool) : Given :=
      match s.binToDraw ci sp with
      | none => .free s
      | some (b, full) =>
        let r := s.drawAt ci sp b full
        match r.2.tryGroups ci sp true r.1 with
        | .taken o => .taken o
        | .free s => if rest then s.tryGroups ci sp false (order s) else .free s
    if f.drew then
      match s.tryGroups ci sp false (order s) with
      | .taken o => .taken o
      | .free s => draw s false
    else
      match s.binToDraw ci sp with
      | some _ => draw s true
      | none => s.tryGroups ci sp false (order s)

/-- Clusters with a cohort on them. -/
def State.busy (s : State) : List Nat :=
  ((s.cohorts.filter fun p => p.2.phase != .saved).map fun p => p.2.ci).eraseDups

/-- The first sub-partition of some at which an opportunity is taken. -/
def State.firstIssue (s : State) : List (Nat × Nat) → Given
  | [] => .free s
  | (ci, sp) :: rest =>
    match s.opportunity ci sp [] with
    | .taken o => .taken o
    | .free s => s.firstIssue rest

/-- What the machine does by itself (log entry 2): a ready group issues, or where none can everything under
way makes a step and a tick passes, with a front-end cycle and two lane edges of every cluster in use. -/
def State.ownStep (s : State) : Host.Outcome State Fault Refusal :=
  match s.firstIssue (s.busy.flatMap fun ci => (List.range 4).map fun sp => (ci, sp)) with
  | .taken o => o
  | .free s =>
    let s := s.ownEvents
    .next ((s.busy.foldl (fun s ci => ((s.frontEdge ci).laneEdge ci true).laneEdge ci true) s).ticks 1)

/-- A row of the table that has no encoding: a step of the machine that no instruction word names. -/
def isEvent (i : Instr) : Bool :=
  match encode i with
  | [] => true
  | _ => false

/-- A step that the tape names (log entry 2). -/
def State.tapeStep (s : State) (t : Tape) : Host.Outcome State Fault Refusal :=
  match t with
  | .ticks n => .next (s.ticks n)
  | .frontEdge ci => if s.isCluster ci then .next (s.frontEdge ci) else .fault .noSuchStep
  | .laneEdge ci => if s.isCluster ci then .next (s.laneEdge ci false) else .fault .noSuchStep
  | .issue ci sp pick =>
    match s.opportunity ci sp pick.toList with
    | .taken o => o
    | .free s => .next s
  | .late id => .next (s.landLate id)
  | .error a => .next (s.arrayError a)
  | .evict line => .next (s.writeBack line)
  | .barRead fn off n => .next (s.barRead fn off n)
  | .barWrite fn off n v env => .next (s.barWrite fn off n v env)
  | .ideKm sess stream => .next (s.ideKm sess stream)
  | .event i =>
    if !(isEvent i && i.wellFormed) then .fault .noSuchStep
    else if s.untaken i then .next s
    else Sys2Proof.Machine.exec i s

/-- A context that the placed kernel of `place` runs in: every access of its one page is allowed. -/
def placedEntry : TlbEntry := ⟨0, 0, 0, 0, true, true, true, 0, 0⟩

/-- The thread of the placed kernel. -/
def placedThread : Thread where
  crew := 0
  lane := 0
  role := 0
  pc := 0
  preds := 0
  flags := 0
  mode := 2
  wbase := 0
  nlife := 0
  idx := 0
  loops := []
  divs := []
  ovf := 0
  frames := []
  region := .entry
  capture := ⟨0, 0, 2, 0, [], [], 0, [], []⟩
  acts := []
  absorb := []
  again := false
  latched := []
  land := false
  level := 1
  due := none
  run := .group 0

/-- The header of the placed kernel: one control crew of a full window. -/
def placedHeader : Header where
  rounding := 1
  ftz := false
  compat := false
  divover := false
  divdepth := 8
  template := 1
  stage := 0
  world := 0
  binage := 64
  crews := [1, 0, 0, 0, 0, 0, 0, 0]
  window := [8, 0, 0, 0, 0, 0, 0, 0]
  codeBase := 0
  prologue := 0xFFFFFFFF
  entries := [0, 0, 0, 0, 0, 0, 0, 0]
  codeSize := 64
  regions := []
  buckets := []
  tiles := []

/-- The cohort of the placed kernel. -/
def placedCohort : Cohort where
  grid := 0
  coh := 0
  ctx := 0
  world := 0
  ci := 0
  phase := .flock
  homes := [0]
  banks := [0]
  hdr := placedHeader
  placed := 0
  depth := 1
  entry := 0
  ewes := [Ewe.empty]
  levels := []
  s := []
  threads := [(0, placedThread)]
  crews := [(0, ⟨0, 0, [], []⟩)]
  divs := []
  serials := []
  groups := [(0, ⟨0, 0, false, false, none⟩)]
  bars := []
  convs := []
  mds := []
  queues := []
  streams := []
  pends := []
  owned := 0
  high := 0
  yielding := none
  saved := []
  savedPoison := []
  savedEvents := []
  savedOuts := []
  kept := []
  fresh := 1

/-- The group that runs first by `ownStep`: its cohort, sub-partition and thread. -/
def State.front (s : State) : Option (Nat × Nat × Nat × Thread) :=
  (s.busy.flatMap fun ci => (List.range 4).flatMap fun sp => (s.groupsOf ci sp).map fun g => (g, sp)).findSome? fun p =>
    (find? s.cohorts p.1.1).bind fun c => ((c.members p.1.2).head?.bind c.thread?).map fun t => (p.1.1, p.1.2, p.2, t)

/-- A state with one thread of a kernel ready to issue at address 0 of its context's one page, which is
physical address 0: what a load of a program from outside comes to (log entry 8). -/
def State.place (s : State) : State :=
  let s := s.setCohort 0 placedCohort
  let s := { s with xlt := { s.xlt with ctxs := insert s.xlt.ctxs 0 ⟨0, 0, true, false, 0, 0, 0, true⟩ } }
  (s.modCluster 0 fun c => { c with tlb := placedEntry :: c.tlb, fe := FrontEnd.reset :: c.fe.drop 1 })

/-- Words stored where the front group fetches its next instruction, which the next step then runs. -/
def State.placeWords (s : State) (ws : List Word) : State :=
  let s := match s.front with
    | some _ => s
    | none => s.place
  match s.front with
  | none => s
  | some (co, g, sp, t) =>
    match find? s.cohorts co with
    | none => s
    | some c =>
      match s.translate c.ci c.ctx t.pc.toNat Need.fetch with
      | (.error _, s) => s
      | (.ok p, s) =>
        { s with
          mem := s.mem.setBytes p.pa (ws.flatMap fun w => toBytes w.toNat 4)
          tape := [.issue c.ci sp (some (co, g))] }

end Sys2Proof.Machine
end

