-- ==== Sys2Proof/Machine/Step.lean ====
section
/-!
DEFINITION. One step of the machine: the step the tape names, or what the machine does by itself.
-/

namespace Sys2Proof.Machine

/-- One step (log entry 2). -/
def step (s : State) : Host.Outcome State Fault Refusal :=
  match s.tape with
  | [] => s.ownStep
  | t :: ts => ({ s with tape := ts }).tapeStep t

/-- The state with an instruction, given by its bits with the first word lowest and zeros above `nbits`,
placed where the next step fetches. -/
def State.withFetchWord (s : State) (nbits w : Nat) : State :=
  let v := w % 2 ^ nbits
  s.placeWords [BitVec.ofNat 32 v, BitVec.ofNat 32 (v / 2 ^ 32), BitVec.ofNat 32 (v / 2 ^ 64)]

end Sys2Proof.Machine
end

