-- ==== Sys2Proof/Safety.lean ====
section
/-!
DEFINITION. What counts as a safe run, and the terms in which statements speak of an issue: when an instruction
goes ahead, what it may change, and what it leaves.
-/

namespace Sys2Proof.Machine

/-- The memory of a state is in its canonical form. -/
def State.memoryOk (s : State) : Prop := s.mem.wf = true

/-- A state from which `k` steps run without a fault or a refusal. -/
def State.runsFor (s : State) (k : Nat) : Prop := ∃ t, core.run k s = .next t

/-- Two states that differ at most in cohort `co`, in the counts of registers given by cluster `ci` (CLU_COPY_ALLOC,
CLU_BANK_SPILL), in the choices made and in the next identity: every byte of memory, every other cohort, every
cluster, and every register of the hub and of the dies is the same. -/
structure Aside (co ci : Nat) (s t : State) : Prop where
  rest   : t = { s with
             cohorts := t.cohorts, counters := t.counters, choices := t.choices, choiceCtr := t.choiceCtr, fresh := t.fresh }
  others : ∀ cp, cp ≠ co → find? t.cohorts cp = find? s.cohorts cp
  counts : ∀ key, key ≠ rcKey .cluCopyAlloc ci → key ≠ rcKey .cluBankSpill ci → find? t.counters key = find? s.counters key

/-- Threads of an issue that the guard lets through (R20). -/
def Issue.on (x : Issue) (c : Cohort) (f : Form) : List Nat := c.active x f.p

/-- Instruction `i`, of operand rules `f`, goes ahead for the group that is selected: no thread of the group is held
by a scalar result (R22), the words are legal (R45 step 3), the guard leaves a thread (R20), every source is a
register or a constant, full and not poisoned (R22, R357), and the destination is a register that is full and may
be written, with a physical register for it (R25, R144, R191), or the zero selector. -/
structure Ready (s : State) (i : Instr) (f : Form) (x : Issue) (c : Cohort) : Prop where
  issue : s.issue? i = some x
  coh   : find? s.cohorts x.co = some c
  free  : ∀ k ∈ x.ts, c.isHeld k = false
  legal : f.illegal = none
  act   : x.on c f ≠ []
  srcs  : ∀ o ∈ f.srcs, isQueue o.sel = false ∧ isStream o.sel = false
  full  : ∀ o ∈ f.srcs, ∀ k ∈ x.on c f, c.slotEmpty k o.sel o.wide = false ∧ (c.plain k o).2 = false
  dst   : ∀ o, f.dst = some o → isQueue o.sel = false ∧ isStream o.sel = false ∧
            (isScalar o.sel = true → c.phase = .prologue ∨ ∀ k ∈ x.on c f, ((c.thread? k).map Thread.role).getD 0 = 0) ∧
            ∀ k ∈ x.on c f, c.slotEmpty k o.sel o.wide = false
  room  : ∀ o, f.dst = some o → ∀ k ∈ x.on c f, k ∈ (s.allocate x o (x.on c f)).1

/-- The values of a thread's sources, as registers and constants give them (R25 to R30). -/
def Cohort.args (c : Cohort) (f : Form) (k : Nat) : List Nat := f.srcs.map fun o => (c.plain k o).1

/-- The register `reg` of thread `k` is written by a destination (R27). -/
def Cohort.writes (c : Cohort) (o : Option Dst) (k reg : Nat) : Prop :=
  ∃ d, o = some d ∧ isSlot d.sel = true ∧ reg ∈ c.dstRegs k d

/-- Each thread `k` of `mv` is `next k` of itself, in an issue group that it shares with those at its address (R239), and
no other thread has changed. -/
structure MovedOn (c d : Cohort) (mv : List Nat) (next : Nat → Thread → Thread) : Prop where
  here : ∀ k u, c.thread? k = some u → k ∈ mv → ∃ g, d.thread? k = some { next k u with run := .group g }
  away : ∀ k, k ∉ mv → d.thread? k = c.thread? k
  one  : ∀ j k u v, c.thread? j = some u → c.thread? k = some v → j ∈ mv → k ∈ mv → (next j u).pc = (next k v).pc →
    (d.thread? j).map Thread.run = (d.thread? k).map Thread.run

/-- What an issue leaves that writes `val k` to destination `o` of the threads `on`, and after which each thread `k` of
`mv` is `next k` of itself: the destination's value, and that nothing else has changed. -/
structure Wrote (s t : State) (x : Issue) (c : Cohort) (o : Option Dst) (on mv : List Nat) (val : Nat → Nat)
    (next : Nat → Thread → Thread) : Prop where
  aside : Aside x.co c.ci s t
  here  : ∃ d, find? t.cohorts x.co = some d ∧
    -- the destination
    (∀ q, o = some q → isSlot q.sel = true → ∀ k ∈ on,
      d.vreg k (c.regOf k q.sel) = (BitVec.ofNat 32 (val k), false) ∧
      (q.wide = true → d.vreg k (c.regOf k q.sel + 1) = (BitVec.ofNat 32 (val k / 2 ^ 32), false))) ∧
    (∀ q k, o = some q → isScalar q.sel = true → on.head? = some k →
      d.s = insert c.s (q.sel.toNat - 96) (scalarExt q.wide q.ety (val k))) ∧
    -- the threads
    MovedOn c d mv next ∧
    -- every other register
    (∀ k reg, (c.thread? k).isSome → ¬ (k ∈ on ∧ c.writes o k reg) → d.vreg k reg = c.vreg k reg) ∧
    ((∀ q, o = some q → isScalar q.sel = false) → d.s = c.s) ∧
    -- and the rest of the cohort
    d = { c with s := d.s, threads := d.threads, crews := d.crews, groups := d.groups, fresh := d.fresh }

/-- A thread after its instruction (R98), with what a lane's result leaves in its predicates and FLAGS (R64). -/
def doneThread (x : Issue) (f : Form) (on : List Nat) (r : Nat → LaneRes) (k : Nat) (u : Thread) : Thread :=
  if k ∈ on then (u.advance x.len).note (nfOf f.p) (r k) else u.advance x.len

/-- Instruction `i` completes with the lane results `r`. -/
def Completes (s : State) (i : Instr) (f : Form) (x : Issue) (c : Cohort) (r : Nat → LaneRes) : Prop :=
  ∃ t, exec i s = .next t ∧ Wrote s t x c f.dst (x.on c f) x.ts (fun k => (r k).val) (doneThread x f (x.on c f) r)

/-- A lane result that is only a value for the destination. -/
def onlyVal (v : Nat) : LaneRes := ⟨v, 0, none⟩

/-- A lane result that is only a predicate. -/
def onlyPred (q : BitVec 3) (b : Bool) : LaneRes := ⟨0, 0, some (q.toNat, b)⟩

/-- Instruction `i` gives each active thread what `op` makes of the thread and its sources' values, wherever the
instruction goes ahead. -/
def Yields (s : State) (i : Instr) (f : Form) (op : Thread → List Nat → LaneRes) : Prop :=
  ∀ x c r, Ready s i f x c → (∀ k ∈ x.on c f, ∀ u, c.thread? k = some u → r k = op u (c.args f k)) → Completes s i f x c r

/-- No active thread has a trap enabled for an exception that it raises (R61). -/
def Untrapped (x : Issue) (c : Cohort) (f : Form) (op : Thread → List Nat → LaneRes) : Prop :=
  ∀ k ∈ x.on c f, ∀ u, c.thread? k = some u → (op u (c.args f k)).fl &&& u.enables = 0

/-- What an issue leaves whose result comes later (R22, R78, R107, R144): each thread of `on` is owed `val k` for its
destination, which is marked empty until then, no register has changed, and the threads `mv` have moved on. -/
structure Owes (s t : State) (x : Issue) (c : Cohort) (o : Dst) (kind : PKind) (on mv : List Nat) (val : Nat → Nat)
    (next : Nat → Thread → Thread) : Prop where
  aside : Aside x.co c.ci s t
  here  : ∃ d, find? t.cohorts x.co = some d ∧
    (∀ k ∈ on, ∃ id p, c.fresh ≤ id ∧ find? d.pends id = some p ∧ p.kind = kind ∧ p.dest = pdestOf c k o ∧
      p.lanes.find? (fun l => l.1 == k) = some (k, val k)) ∧
    (∀ id, id < c.fresh → find? d.pends id = find? c.pends id) ∧
    (∀ k ∈ on, isSlot o.sel = true → d.slotEmpty k o.sel o.wide = true) ∧
    (∀ k ∈ on, isScalar o.sel = true → d.isHeld k = true) ∧
    -- the threads
    MovedOn c d mv next ∧
    -- no register
    (∀ k reg, (c.thread? k).isSome → d.vreg k reg = c.vreg k reg) ∧
    -- and the rest of the cohort
    d = { c with pends := d.pends, threads := d.threads, crews := d.crews, groups := d.groups, fresh := d.fresh }

/-- A division or other multi-cycle instruction finds a slot free (R78, R107). -/
def State.hasSlot (s : State) (sfu : Bool) (x : Issue) (c : Cohort) : Prop :=
  s.inFlight x.ci (c.crewOf (x.ts.head?.getD 0)).sp sfu < (if sfu then 16 else 8)

/-- The registers of a delayed result's lanes are mapped, and it holds one value a lane. -/
structure Landable (c : Cohort) (p : Pend) : Prop where
  keys   : (p.lanes.map Prod.fst).Nodup
  mapped : ∀ r wide, p.dest = .vreg r wide → ∀ l ∈ p.lanes,
    (c.phys? (l.1 / 32) r).isSome ∧ (wide = true → (c.phys? (l.1 / 32) (r + 1)).isSome)

/-- What the arrival of a delayed result leaves: its lanes hold it, it is outstanding no longer, and nothing else has
changed (R22, R78, R107, R144). -/
structure ResultArrived (s t : State) (co : Nat) (c : Cohort) (id : Nat) (p : Pend) : Prop where
  rest   : t = { s with cohorts := t.cohorts }
  others : ∀ cp, cp ≠ co → find? t.cohorts cp = find? s.cohorts cp
  here   : ∃ d, find? t.cohorts co = some d ∧
    (∀ r wide, p.dest = .vreg r wide →
      (∀ k v, (k, v) ∈ p.lanes → d.vreg k r = (BitVec.ofNat 32 v, false) ∧
        (wide = true → d.vreg k (r + 1) = (BitVec.ofNat 32 (v / 2 ^ 32), false))) ∧
      (∀ k q, ¬ (k ∈ p.lanes.map Prod.fst ∧ (q = r ∨ wide = true ∧ q = r + 1)) → d.vreg k q = c.vreg k q) ∧ d.s = c.s) ∧
    (∀ n ety, p.dest = .sreg n ety → (∀ k q, d.vreg k q = c.vreg k q) ∧
      ∀ k v l, p.lanes = (k, v) :: l → d.s = insert c.s n (scalarExt ety.isPair ety v)) ∧
    d = { c with s := d.s, crews := d.crews, pends := erase c.pends id }

/-- Active threads that an instruction gives a result, and those it makes trap. -/
def Issue.good (x : Issue) (c : Cohort) (f : Form) (op : Thread → List Nat → Option LaneRes) : List Nat :=
  (x.on c f).filter fun k => ((c.thread? k).bind fun u => op u (c.args f k)).isSome

def Issue.trapping (x : Issue) (c : Cohort) (f : Form) (op : Thread → List Nat → Option LaneRes) : List Nat :=
  (x.on c f).filter fun k => ((c.thread? k).bind fun u => op u (c.args f k)).isNone

/-- An instruction of which some active threads trap with `z`, where it goes ahead: every other thread of the group
completes, as `after` says, and those threads then take their trap, with no effect of the instruction (R45, R61, R78). `ok` is what the instruction
needs beside. -/
def TrapsAlone (s : State) (i : Instr) (f : Form) (z : Trap) (op : Thread → List Nat → Option LaneRes)
    (ok : Issue → Cohort → Prop) (after : State → Issue → Cohort → List Nat → List Nat → (Nat → LaneRes) → Prop) : Prop :=
  ∀ x c r, Ready s i f x c → ok x c →
    let good := x.good c f op
    let bad := x.trapping c f op
    bad ≠ [] → (∀ o, f.dst = some o → ∀ k ∈ good, k ∈ (s.allocate x o good).1) →
    (∀ k ∈ good, ∀ u, c.thread? k = some u → op u (c.args f k) = some (r k)) →
    let rest := x.ts.filter fun k => !bad.contains k
    ∃ t, (rest = [] → t = s) ∧ (rest ≠ [] → after t x c good rest r) ∧
      exec i s = .next (t.takeTraps x.co x.g (bad.map fun k => (k, x.cause z 0)))

/-- `Yields` for an instruction that raises floating-point exceptions: where no active thread has a trap enabled for what
it raises, all complete; and a thread that has takes FP_TRAP alone (R61). -/
structure YieldsFp (s : State) (i : Instr) (f : Form) (op : Thread → List Nat → LaneRes) : Prop where
  completes : ∀ x c r, Ready s i f x c → Untrapped x c f op →
    (∀ k ∈ x.on c f, ∀ u, c.thread? k = some u → r k = op u (c.args f k)) → Completes s i f x c r
  traps : TrapsAlone s i f .fpTrap (fun u vs => if (op u vs).fl &&& u.enables ≠ 0 then none else some (op u vs))
    (fun _ _ => True) fun t x c good rest r => Wrote s t x c f.dst good rest (fun k => (r k).val) (doneThread x f good r)

/-- No thread waits at the issue of a multi-cycle instruction until its result is ready: a thread does with the trap of a
floating-point exception enabled (R107), which is of groups 2 and 3 and so not for a division or remainder of group 0
(R78). -/
abbrev Delays (kind : PKind) (c : Cohort) (on : List Nat) : Prop :=
  kind = .div ∨ ∀ k ∈ on, ∀ u, c.thread? k = some u → u.enables = 0

/-- A multi-cycle instruction, where it goes ahead and a slot of its unit is free. Where no lane traps, the result comes
later; at once where a thread has a trap enabled (R107) or the destination cannot be empty. A lane that traps does so
alone. -/
structure Starts (s : State) (i : Instr) (f : Form) (kind : PKind) (sfu : Bool) (z : Trap)
    (op : Thread → List Nat → Option LaneRes) : Prop where
  starts : ∀ x c o r, Ready s i f x c → f.dst = some o → s.hasSlot sfu x c →
    (∀ k ∈ x.on c f, ∀ u, c.thread? k = some u → op u (c.args f k) = some (r k)) →
    if (isSlot o.sel || isScalar o.sel) = true ∧ Delays kind c (x.on c f) then
      ∃ t, exec i s = .next t ∧ Owes s t x c o kind (x.on c f) x.ts (fun k => (r k).val) (doneThread x f (x.on c f) r)
    else Completes s i f x c r
  traps : TrapsAlone s i f z op (s.hasSlot sfu) fun t x c good rest r =>
    ∀ o, f.dst = some o →
      if good ≠ [] ∧ (isSlot o.sel || isScalar o.sel) = true ∧ Delays kind c good then
        Owes s t x c o kind good rest (fun k => (r k).val) (doneThread x f good r)
      else Wrote s t x c f.dst good rest (fun k => (r k).val) (doneThread x f good r)

/-- The lanes of a cross-lane instruction (R129, R136): their values, and those of them that contribute to each. -/
structure Lanes32 where
  on    : List Nat
  mask  : Nat → Nat
  bad   : List Nat
  good  : List Nat
  peers : Nat → List Nat

/-- The lanes of an issue of a cross-lane instruction whose mask operand is `m`. With MK = 0 the mask is all lanes; with
MK = 1 each lane reads its own, and one whose own bit is 0 raises MASK_SELF; under `.compat elect` every lane uses the
mask of the lowest active lane, which alone can raise MASK_SELF, and a lane whose bit is 0 writes nothing. -/
def lanesOf (elect mk : Bool) (m : Sel) (x : Issue) (c : Cohort) (f : Form) : Lanes32 :=
  let on := x.on c f
  let e := on.head?.getD 0
  let mask (k : Nat) : Nat :=
    if !mk then 2 ^ 32 - 1 else if elect then (c.plain e (srcWord false m)).1 else (c.args f k).getLast?.getD 0
  let bad := if elect && mk then (if bit (mask e) (e % 32) then [] else [e]) else on.filter fun k => !bit (mask k) (k % 32)
  let left := on.filter fun k => !bad.contains k
  ⟨on, mask, bad, left.filter fun k => bit (mask k) (k % 32), fun k => (left.map (· % 32)).filter fun l => bit (mask k) l⟩

/-- A cross-lane instruction gives each lane that writes what `op` makes of every active lane's values and of the lane's
own values and contributing lanes, where it goes ahead and no lane raises an enabled exception. Lanes that raise
MASK_SELF take it after the others have completed (R129 step 1). -/
def CrossYields (s : State) (i : Instr) (f : Form) (mk : Bool) (m : Sel) (op : Thread → List XLane → XLane → LaneRes) : Prop :=
  ∀ x c r,
    let elect := s.selCompat && mk
    let F := f.masked elect mk m
    let L := lanesOf elect mk m x c F
    let all : List XLane := L.on.map fun k => ⟨k, c.args F k, []⟩
    Ready s i F x c →
    -- under `.compat elect` the mask is not among the operands that `Ready` speaks of
    (elect = true → (∀ k ∈ L.on, c.slotEmpty k m false = false) ∧ (c.plain (L.on.head?.getD 0) (srcWord false m)).2 = false) →
    (∀ o, f.dst = some o → ∀ k ∈ L.good, k ∈ (s.allocate x o L.good).1) →
    (∀ k ∈ L.good, ∀ u, c.thread? k = some u →
      r k = op u all ⟨k, c.args F k, L.peers k⟩ ∧ (r k).fl &&& u.enables = 0) →
    let rest := x.ts.filter fun k => !L.bad.contains k
    ∃ t, (rest = [] → t = s) ∧
      (rest ≠ [] → Wrote s t x c f.dst L.good rest (fun k => (r k).val) (doneThread x F L.good r)) ∧
      exec i s = .next (if L.bad = [] then t else t.takeTraps x.co x.g (L.bad.map fun k => (k, x.cause .maskSelf 0)))

/-- Instruction `i` of group 5 or 7 goes ahead for the group that is selected: no thread of the group is held by a scalar
result (R22). -/
structure Goes (s : State) (i : Instr) (x : Issue) (c : Cohort) : Prop where
  issue : s.issue? i = some x
  coh   : find? s.cohorts x.co = some c
  free  : ∀ k ∈ x.ts, c.isHeld k = false

/-- Two states that differ at most in cohort `co`, in the counters `keys`, in the choices made and in the next identity. -/
structure Apart (co : Nat) (keys : List Nat) (s t : State) : Prop where
  rest   : t = { s with
             cohorts := t.cohorts, counters := t.counters, choices := t.choices, choiceCtr := t.choiceCtr, fresh := t.fresh }
  others : ∀ cp, cp ≠ co → find? t.cohorts cp = find? s.cohorts cp
  counts : ∀ key, key ∉ keys → find? t.counters key = find? s.counters key

/-- What an issue leaves that changes cohort `c` to `e` beside its threads: each thread `k` of the parts is `next k` of
itself, in one issue group with those of its part at its address (R239), and nothing else has changed. -/
structure Moves (s t : State) (x : Issue) (c e : Cohort) (keys : List Nat) (parts : List (List Nat)) (next : Nat → Thread → Thread) :
    Prop where
  aside : Apart x.co keys s t
  here  : ∃ d, find? t.cohorts x.co = some d ∧
    (∀ k u, c.thread? k = some u → k ∈ parts.flatten → ∃ g, d.thread? k = some { next k u with run := .group g }) ∧
    (∀ k, k ∉ parts.flatten → d.thread? k = c.thread? k) ∧
    (∀ ks ∈ parts, ∀ j k u v, c.thread? j = some u → c.thread? k = some v → j ∈ ks → k ∈ ks → (next j u).pc = (next k v).pc →
      (d.thread? j).map Thread.run = (d.thread? k).map Thread.run) ∧
    d = { e with threads := d.threads, groups := d.groups, fresh := d.fresh }

/-- The word at a transfer's target `a` passes the check of R24, or cannot be read; the check leaves the cohort and the
instruction in place. `t` is the state after it. -/
structure Lands (s : State) (i : Instr) (x : Issue) (c : Cohort) (a : DWord) (first : Bool) (t : State) (unread : Bool) : Prop where
  check : s.checkTarget x.ci x.ctx a first = (if unread then .unread else .ok, t)
  goes  : Goes t i x c

/-- The words at `a` pass the check of R24 from copies that the check does not change. -/
def Steady (s : State) (x : Issue) (a : DWord) : Prop :=
  ∀ cs ks fr, ({ s with cohorts := cs, counters := ks, fresh := fr }).checkTarget x.ci x.ctx a false =
    (.ok, { s with cohorts := cs, counters := ks, fresh := fr })

/-- Instruction `i`, which acts once on the operands of the lowest active lane (R155, R168, R187), goes ahead: as `Ready`,
with the sources of that lane alone. -/
structure ReadyLow (s : State) (i : Instr) (f : Form) (x : Issue) (c : Cohort) : Prop where
  issue : s.issue? i = some x
  coh   : find? s.cohorts x.co = some c
  free  : ∀ k ∈ x.ts, c.isHeld k = false
  legal : f.illegal = none
  act   : x.on c f ≠ []
  srcs  : ∀ o ∈ f.srcs, isQueue o.sel = false ∧ isStream o.sel = false
  full  : ∀ o ∈ f.srcs, ∀ k, (x.on c f).head? = some k → c.slotEmpty k o.sel o.wide = false ∧ (c.plain k o).2 = false
  dst   : ∀ o, f.dst = some o → isQueue o.sel = false ∧ isStream o.sel = false ∧
            (isScalar o.sel = true → c.phase = .prologue ∨ ∀ k ∈ x.on c f, ((c.thread? k).map Thread.role).getD 0 = 0) ∧
            ∀ k ∈ x.on c f, c.slotEmpty k o.sel o.wide = false
  room  : ∀ o, f.dst = some o → ∀ k ∈ x.on c f, k ∈ (s.allocate x o (x.on c f)).1

/-- Source `n` of the lowest active lane. -/
def Issue.low (x : Issue) (c : Cohort) (f : Form) (n : Nat) : Nat := arg (c.args f ((x.on c f).head?.getD 0)) n

/-- What an issue leaves whose status comes later (R155, R168, R187): for each thread of `on` a result is outstanding for
register `o`, which is marked empty until then: the one that `kind` completes, of value `v` where it is known, or one
that it brings with it. -/
structure OwesStatus (s t : State) (x : Issue) (c : Cohort) (o : Dst) (on mv : List Nat) (kind : PKind) (v len : Nat) : Prop where
  aside : Aside x.co c.ci s t
  here  : ∃ d, find? t.cohorts x.co = some d ∧
    (∃ p, find? d.pends c.fresh = some p ∧ p.kind = kind) ∧
    (∀ k ∈ on, ∃ id p, c.fresh ≤ id ∧ find? d.pends id = some p ∧ (id = c.fresh ∨ p.kind = .follow c.fresh) ∧
      p.dest = pdestOf c k o ∧ p.lanes.find? (fun l => l.1 == k) = some (k, v)) ∧
    (∀ id, id < c.fresh → find? d.pends id = find? c.pends id) ∧
    (∀ k ∈ on, isSlot o.sel = true → d.slotEmpty k o.sel o.wide = true) ∧
    (∀ k ∈ on, isScalar o.sel = true → d.isHeld k = true) ∧
    MovedOn c d mv (fun _ u => u.advance len) ∧
    (∀ k reg, (c.thread? k).isSome → d.vreg k reg = c.vreg k reg) ∧
    d = { c with pends := d.pends, threads := d.threads, crews := d.crews, groups := d.groups, fresh := d.fresh }

/-- Instruction `i`, whose accesses leave `s1`, does `eff` at issue, which gives the result's kind and value, and its status
comes later. `eff` starts from a state that differs from `s1` only as giving the destination its register can make it. -/
def StatusIssues (s s1 : State) (i : Instr) (f : Form) (o : Dst) (x : Issue) (c : Cohort) (eff : State → PKind × Nat × State) : Prop :=
  find? s1.cohorts x.co = some c → (∀ k ∈ x.on c f, k ∈ (s1.allocate x o (x.on c f)).1) →
  ∃ a t, Aside x.co c.ci s1 a ∧ exec i s = .next t ∧
    OwesStatus (eff a).2.2 t x c o (x.on c f) x.ts (eff a).1 (eff a).2.1 x.len

/-- `op` is done for each of some things in turn, each from the state that the one before it left: `v` is what it gave. -/
def Runs {α β : Type} (op : State → β → α → State → Prop) (v : β → α) : State → List β → State → Prop
  | s, [], t => t = s
  | s, b :: bs, t => ∃ u, op s b (v b) u ∧ Runs op v u bs t

end Sys2Proof.Machine
end

