-- ==== Sys2Proof/Certificates/Slice0/Obligations.lean ====
section
/-! DEFINITION. The statements for the provers. Each formalises rules of the spec, which its docstring names. -/

open Sys2Proof Sys2Proof.Machine Host

/-- R63, R74, R75, R77: the integer arithmetic instructions of every type and form write the exact result of the table,
reduced to the type, and change nothing else. The reduced value is, as the type reads it, the number congruent to the exact
one modulo 2^w without SAT, and the number of the type nearest to it with SAT. -/
def Obligations.IntegerArithmetic : Prop :=
  (∀ (s : State) (p : Option Pfx) (d a b c : Sel) (imm : BitVec 30),
    let t := (gty p .s32).getD .s32
    let A (vs : List Nat) : Int := t.num (arg vs 0)
    let B (vs : List Nat) : Int := t.num (arg vs 1)
    let C (vs : List Nat) : Int := t.num (arg vs 2)
    let R (x : Int) : LaneRes := onlyVal (reduce t (satOf p) x)
    let S := binIntForm p d a b none
    let I := binIntForm p d a b (some imm)
    Yields s (.add p d a b) (S isSN isSN) (fun _ vs => R (A vs + B vs)) ∧
    Yields s (.addImm p d a b imm) (I isSN isSN) (fun _ vs => R (A vs + B vs)) ∧
    Yields s (.sub p d a b) (S isSN isSN) (fun _ vs => R (A vs - B vs)) ∧
    Yields s (.subImm p d a b imm) (I isSN isSN) (fun _ vs => R (A vs - B vs)) ∧
    Yields s (.mul p d a b) (S isSN isSN) (fun _ vs => R (A vs * B vs)) ∧
    Yields s (.mulImm p d a b imm) (I isSN isSN) (fun _ vs => R (A vs * B vs)) ∧
    Yields s (.min p d a b) (S isSN noTy) (fun _ vs => R (if A vs ≤ B vs then A vs else B vs)) ∧
    Yields s (.minImm p d a b imm) (I isSN noTy) (fun _ vs => R (if A vs ≤ B vs then A vs else B vs)) ∧
    Yields s (.max p d a b) (S isSN noTy) (fun _ vs => R (if A vs ≤ B vs then B vs else A vs)) ∧
    Yields s (.maxImm p d a b imm) (I isSN noTy) (fun _ vs => R (if A vs ≤ B vs then B vs else A vs)) ∧
    Yields s (.mulh p d a b) (S isSN32 noTy) (fun _ vs => R (A vs * B vs / (2 ^ t.width : Nat))) ∧
    Yields s (.mulhImm p d a b imm) (I isSN32 noTy) (fun _ vs => R (A vs * B vs / (2 ^ t.width : Nat))) ∧
    Yields s (.neg p d a) (unIntForm p d a .s32 Ety.isS isSN) (fun _ vs => R (-A vs)) ∧
    Yields s (.abs p d a) (unIntForm p d a .s32 Ety.isS isSN) (fun _ vs => R (A vs).natAbs) ∧
    Yields s (.mad p d a b c) (madForm p d a b c isSN id) (fun _ vs => R (A vs * B vs + C vs)) ∧
    Yields s (.madw p d a b c) (madForm p d a b c (fun t => t == .s32 || t == .n32) fun _ => .s64) (fun _ vs =>
      let w : Ety := if t = .n32 then .n64 else .s64
      onlyVal (reduce w (satOf p) (A vs * B vs + w.num (arg vs 2))))) ∧
  (∀ (t : Ety) (x : Int), isSN t = true →
    let lo : Int := if t.isS then -(2 ^ (t.width - 1) : Nat) else 0
    let hi : Int := if t.isS then (2 ^ (t.width - 1) : Nat) - 1 else (2 ^ t.width : Nat) - 1
    let y := t.num (reduce t false x)
    lo ≤ y ∧ y ≤ hi ∧ (2 ^ t.width : Int) ∣ x - y ∧
    t.num (reduce t true x) = if x < lo then lo else if hi < x then hi else x)

/-- R76: `addc` and `subb` take a carry or borrow from p7, return it to p7, and write the wrapped sum; they take the types
s32, n32, s64 and n64 and no SAT, and an inactive lane keeps its p7 and its D. -/
def Obligations.CarryArithmetic : Prop :=
  ∀ (s : State) (p : Option Pfx) (d a b : Sel) (imm : BitVec 30),
    let t := (gty p .s32).getD .s32
    let A (vs : List Nat) : Nat := arg vs 0 % 2 ^ t.width
    let B (vs : List Nat) : Nat := arg vs 1 % 2 ^ t.width
    let C (u : Thread) : Nat := (u.preds.getLsbD 7).toNat
    let plus (u : Thread) (vs : List Nat) : LaneRes :=
      ⟨t.toReg ((A vs + B vs + C u) % 2 ^ t.width), 0, some (7, decide (2 ^ t.width ≤ A vs + B vs + C u))⟩
    let minus (u : Thread) (vs : List Nat) : LaneRes :=
      ⟨t.toReg (((A vs : Int) - B vs - C u) % (2 ^ t.width : Nat)).toNat, 0, some (7, decide (A vs < B vs + C u))⟩
    Yields s (.addc p d a b) (binIntForm p d a b none isSN32 noTy) plus ∧
    Yields s (.addcImm p d a b imm) (binIntForm p d a b (some imm) isSN32 noTy) plus ∧
    Yields s (.subb p d a b) (binIntForm p d a b none isSN32 noTy) minus ∧
    Yields s (.subbImm p d a b imm) (binIntForm p d a b (some imm) isSN32 noTy) minus ∧
    ∀ m, (binIntForm p d a b m isSN32 noTy).illegal = none → (t = .s32 ∨ t = .n32 ∨ t = .s64 ∨ t = .n64) ∧ satOf p = false

/-- R79: the shifts, whose count is the low byte of B; they take the s-types, the n-types, b32 and b64, and `shl` alone takes
SAT, on s- and n-types. -/
def Obligations.Shifts : Prop :=
  ∀ (s : State) (p : Option Pfx) (d a b : Sel) (imm : BitVec 30),
    let t := (gty p .s32).getD .s32
    let w := t.width
    let U (vs : List Nat) : Nat := arg vs 0 % 2 ^ w
    let cnt (vs : List Nat) : Nat := arg vs 1 % 2 ^ 8
    let S := shiftForm p d a b none
    let I := shiftForm p d a b (some imm)
    let shl (_ : Thread) (vs : List Nat) : LaneRes := onlyVal (reduce t (satOf p) (t.num (arg vs 0) * 2 ^ cnt vs))
    let shr (_ : Thread) (vs : List Nat) : LaneRes := onlyVal (t.toReg (U vs / 2 ^ cnt vs))
    let sar (_ : Thread) (vs : List Nat) : LaneRes :=
      onlyVal (t.toReg ((toSigned w (arg vs 0) / 2 ^ cnt vs) % (2 ^ w : Nat)).toNat)
    let rotl (_ : Thread) (vs : List Nat) : LaneRes :=
      onlyVal (t.toReg (U vs * 2 ^ (cnt vs % w) % 2 ^ w + U vs / 2 ^ (w - cnt vs % w)))
    Yields s (.shl p d a b) (S isSN) shl ∧ Yields s (.shlImm p d a b imm) (I isSN) shl ∧
    Yields s (.shr p d a b) (S noTy) shr ∧ Yields s (.shrImm p d a b imm) (I noTy) shr ∧
    Yields s (.sar p d a b) (S noTy) sar ∧ Yields s (.sarImm p d a b imm) (I noTy) sar ∧
    Yields s (.rotl p d a b) (S noTy) rotl ∧ Yields s (.rotlImm p d a b imm) (I noTy) rotl ∧
    ∀ m sat, (shiftForm p d a b m sat).illegal = none →
      (t.isS = true ∨ t.isN = true ∨ t = .b32 ∨ t = .b64) ∧ (satOf p = true → sat t = true)

/-- R80, R81: the address forms, whose sums are taken modulo 2^64, and the moves. -/
def Obligations.AddressesAndMoves : Prop :=
  ∀ (s : State) (p : Option Pfx) (d a b c : Sel) (sh : BitVec 3) (imm : BitVec 30),
    let t := (gty p .s32).getD .s32
    let M (x : Int) : LaneRes := onlyVal (x % (2 ^ 64 : Nat)).toNat
    Yields s (.lea p d a b c sh) (leaForm p d a b c) (fun _ vs =>
      let idx : Int := if tyCode p = 3 then toSigned 32 (arg vs 1) else (arg vs 1 % 2 ^ 32 : Nat)
      M (arg vs 0 + idx * 2 ^ sh.toNat + arg vs 2)) ∧
    Yields s (.addp p d a b) (addrForm p [srcOf .b64 (polA p) none a, srcWord (polB p) b] d)
      (fun _ vs => M (arg vs 0 + toSigned 32 (arg vs 1))) ∧
    Yields s (.addpImm p d a b imm)
      (addrForm p [srcOf .b64 (polA p) (some imm) a, { srcWord (polB p) b with ext := some (Ety.s32.ext imm) }] d)
      (fun _ vs => M (arg vs 0 + toSigned 32 (arg vs 1))) ∧
    Yields s (.subp p d a b) (addrForm p [srcOf .b64 (polA p) none a, srcOf .b64 (polB p) none b] d)
      (fun _ vs => M (arg vs 0 - arg vs 1)) ∧
    Yields s (.mov p d a) (unIntForm p d a .s32 isSNB noTy) (fun _ vs => onlyVal (t.toReg (arg vs 0))) ∧
    Yields s (.movi p d imm) (moviForm p d) (fun _ _ => onlyVal (t.toReg (t.ext imm)))

/-- R82 to R85: the bitwise, bit-field, byte-shuffle and counting instructions. -/
def Obligations.LogicAndBits : Prop :=
  ∀ (s : State) (p : Option Pfx) (d a b c : Sel) (imm : BitVec 30) (pos wid : BitVec 7),
    let t := (gty p .b32).getD .b32
    let w := t.width
    let A (vs : List Nat) : Nat := arg vs 0 % 2 ^ w
    let B (vs : List Nat) : Nat := arg vs 1 % 2 ^ w
    let S := binBitsForm p d a b none
    let I := binBitsForm p d a b (some imm)
    let R (n : Nat) : LaneRes := onlyVal (t.toReg n)
    Yields s (.and p d a b) S (fun _ vs => R (A vs &&& B vs)) ∧
    Yields s (.andImm p d a b imm) I (fun _ vs => R (A vs &&& B vs)) ∧
    Yields s (.or p d a b) S (fun _ vs => R (A vs ||| B vs)) ∧
    Yields s (.orImm p d a b imm) I (fun _ vs => R (A vs ||| B vs)) ∧
    Yields s (.xor p d a b) S (fun _ vs => R (A vs ^^^ B vs)) ∧
    Yields s (.xorImm p d a b imm) I (fun _ vs => R (A vs ^^^ B vs)) ∧
    Yields s (.andn p d a b) S (fun _ vs => R (A vs &&& (2 ^ w - 1 - B vs))) ∧
    Yields s (.andnImm p d a b imm) I (fun _ vs => R (A vs &&& (2 ^ w - 1 - B vs))) ∧
    Yields s (.not p d a) (unIntForm p d a .b32 isSNB noTy) (fun _ vs => R (2 ^ w - 1 - A vs)) ∧
    Yields s (.bfe p d a b c true pos wid) (bfeForm p d a b c true)
      (fun _ vs => onlyVal (extractField t (arg vs 0) pos.toNat wid.toNat)) ∧
    Yields s (.bfe p d a b c false pos wid) (bfeForm p d a b c false)
      (fun _ vs => onlyVal (extractField t (arg vs 0) (arg vs 1 % 2 ^ 8) (arg vs 2 % 2 ^ 8))) ∧
    Yields s (.bfi p d a b c true pos wid) (bfiForm p d a b c true)
      (fun _ vs => onlyVal (insertField t (arg vs 0) (arg vs 1) pos.toNat wid.toNat)) ∧
    Yields s (.bfi p d a b c false pos wid) (bfiForm p d a b c false)
      (fun _ vs => onlyVal (insertField t (arg vs 0) (arg vs 1) (arg vs 2 % 2 ^ 8) (bits (arg vs 2) 8 8))) ∧
    Yields s (.popc p d a) (countForm p d a) (fun _ vs => onlyVal (popCount w (A vs))) ∧
    Yields s (.clz p d a) (countForm p d a) (fun _ vs => onlyVal (leadZeros w (A vs))) ∧
    Yields s (.ctz p d a) (countForm p d a) (fun _ vs => onlyVal (trailZeros w (A vs))) ∧
    Yields s (.brev p d a) (unIntForm p d a .b32 Ety.isB noTy) (fun _ vs => onlyVal (reverseBits w (arg vs 0))) ∧
    Yields s (.bshuf p d a b c) (bshufForm p d a b c) (fun _ vs =>
      let byte (n : Nat) : Nat := shufByte (arg vs 0) (arg vs 1) (bits (arg vs 2) (8 * n) 8) * 2 ^ (8 * n)
      onlyVal (byte 0 + byte 1 + byte 2 + byte 3))

/-- R86 to R88: compares write a predicate, `sel` chooses by one, and the predicate instructions combine them. -/
def Obligations.ComparesAndPredicates : Prop :=
  ∀ (s : State) (p : Option Pfx) (q qa qb : BitVec 3) (cond : BitVec 4) (d a b : Sel) (n na nb : Bool) (imm : BitVec 30),
    let t := (gty p .b32).getD .b32
    let holds (vs : List Nat) : Bool :=
      let x := t.num (arg vs 0)
      let y := t.num (arg vs 1)
      if cond = 0 then x == y else if cond = 1 then x != y else if cond = 2 then decide (x < y)
      else if cond = 3 then decide (x ≤ y) else if cond = 4 then decide (x > y) else decide (x ≥ y)
    let P (u : Thread) (neg : Bool) (j : BitVec 3) : Bool := u.preds.getLsbD j.toNat != neg
    Yields s (.cmp p q cond a b) (cmpForm p cond a b none) (fun _ vs => onlyPred q (holds vs)) ∧
    Yields s (.cmpImm p q cond a b imm) (cmpForm p cond a b (some imm)) (fun _ vs => onlyPred q (holds vs)) ∧
    Yields s (.sel p d a b n q) (selForm p d a b) (fun u vs => onlyVal (if P u n q then arg vs 0 else arg vs 1)) ∧
    Yields s (.pand p q na qa nb qb) (predForm p) (fun u _ => onlyPred q (P u na qa && P u nb qb)) ∧
    Yields s (.por p q na qa nb qb) (predForm p) (fun u _ => onlyPred q (P u na qa || P u nb qb)) ∧
    Yields s (.pxor p q na qa nb qb) (predForm p) (fun u _ => onlyPred q (P u na qa != P u nb qb)) ∧
    Yields s (.pnot p q na qa) (predForm p) (fun u _ => onlyPred q (!P u na qa)) ∧
    Yields s (.pmov p q na qa) (predForm p) (fun u _ => onlyPred q (P u na qa))

/-- R62, R64, R106 to R110, R112, R113, R116: the floating-point instructions that are not multi-cycle flush their
sources, form the exact result of the table, pass it through R64 once, and change nothing else, where no lane raises an
exception whose trap is enabled. -/
def Obligations.FloatArithmetic : Prop :=
  ∀ (s : State) (p : Option Pfx) (d a b c : Sel) (imm : BitVec 30),
    let t := elemTy p .f32
    let m (u : Thread) : Rnd := roundOf p u
    let A (u : Thread) (vs : List Nat) : FVal := t.val (t.flush u.ftz (arg vs 0))
    let B (u : Thread) (vs : List Nat) : FVal := t.val (t.flush u.ftz (arg vs 1))
    let C (u : Thread) (vs : List Nat) : FVal := t.val (t.flush u.ftz (arg vs 2))
    let out (r : Nat × Fl) : LaneRes := ⟨r.1, r.2, none⟩
    let path (u : Thread) (v : FVal × Fl) : LaneRes := out (t.result (m u) u.ftz (satOf p) v.1 v.2)
    let add (u : Thread) (vs : List Nat) : LaneRes := path u (addVal (m u) (A u vs) (B u vs))
    let sub (u : Thread) (vs : List Nat) : LaneRes := path u (addVal (m u) (A u vs) (B u vs).neg)
    let mul (u : Thread) (vs : List Nat) : LaneRes := path u (mulVal (A u vs) (B u vs))
    let least (u : Thread) (vs : List Nat) : LaneRes :=
      out (minMaxFp true t (t.flush u.ftz (arg vs 0)) (t.flush u.ftz (arg vs 1)))
    let most (u : Thread) (vs : List Nat) : LaneRes :=
      out (minMaxFp false t (t.flush u.ftz (arg vs 0)) (t.flush u.ftz (arg vs 1)))
    let scale (u : Thread) (vs : List Nat) : LaneRes := path u (scaleVal (A u vs) (toSigned 32 (arg vs 1)), 0)
    let S := binFpForm p d a b none
    let I := binFpForm p d a b (some imm)
    YieldsFp s (.fadd p d a b) (S accAll) add ∧ YieldsFp s (.faddImm p d a b imm) (I accAll) add ∧
    YieldsFp s (.fsub p d a b) (S accAll) sub ∧ YieldsFp s (.fsubImm p d a b imm) (I accAll) sub ∧
    YieldsFp s (.fmul p d a b) (S accAll) mul ∧ YieldsFp s (.fmulImm p d a b imm) (I accAll) mul ∧
    YieldsFp s (.fma p d a b c) (fmaForm p d a b c) (fun u vs => path u (fmaVal (m u) (A u vs) (B u vs) (C u vs))) ∧
    YieldsFp s (.fmin p d a b) (S accNf) least ∧ YieldsFp s (.fminImm p d a b imm) (I accNf) least ∧
    YieldsFp s (.fmax p d a b) (S accNf) most ∧ YieldsFp s (.fmaxImm p d a b imm) (I accNf) most ∧
    Yields s (.fabs p d a) (unFpForm p a accNone isFp fun t => dstOf t d)
      (fun _ vs => onlyVal (arg vs 0 % 2 ^ t.width % 2 ^ (t.width - 1))) ∧
    Yields s (.fneg p d a) (unFpForm p a accNone isFp fun t => dstOf t d)
      (fun _ vs => onlyVal (arg vs 0 % 2 ^ t.width ^^^ 2 ^ (t.width - 1))) ∧
    Yields s (.fclass p d a) (unFpForm p a accNone (fun t => isFp t || t == .a48) fun _ => dstOf .n32 d)
      (fun _ vs => onlyVal (2 ^ classOf t (arg vs 0 % 2 ^ t.width))) ∧
    YieldsFp s (.frint p d a) (unFpForm p a accRndNf isFp fun t => dstOf t d) (fun u vs => path u (integral (m u) (A u vs))) ∧
    YieldsFp s (.fscale p d a b) (scaleForm p d a b none) scale ∧
    YieldsFp s (.fscaleImm p d a b imm) (scaleForm p d a b (some imm)) scale

/-- R111: `fcmp` writes the predicate of its condition, with -0 equal to +0, and raises NV for the NaNs that the table
names. -/
def Obligations.FloatCompare : Prop :=
  ∀ (s : State) (p : Option Pfx) (q : BitVec 3) (cond : BitVec 4) (a b : Sel) (imm : BitVec 30),
    let t := elemTy p .f32
    let res (u : Thread) (vs : List Nat) : LaneRes :=
      let x := t.val (t.flush u.ftz (arg vs 0))
      let y := t.val (t.flush u.ftz (arg vs 1))
      let ord := !x.isNan && !y.isNan
      let o := cmpVal x y
      let b := if cond = 0 then ord && o == .eq else if cond = 1 then !ord || o != .eq else if cond = 2 then ord && o == .lt
        else if cond = 3 then ord && o != .gt else if cond = 4 then ord && o == .gt else if cond = 5 then ord && o != .lt
        else if cond = 6 then ord else !ord
      let nv := if 2 ≤ cond.toNat ∧ cond.toNat ≤ 5 then !ord else x.isSnan || y.isSnan
      ⟨0, if nv then flNV else 0, some (q.toNat, b)⟩
    YieldsFp s (.fcmp p q cond a b) (fcmpForm p cond a b none) res ∧
    YieldsFp s (.fcmpImm p q cond a b imm) (fcmpForm p cond a b (some imm)) res

/-- R117, R118, R121: the packed instructions pass each element through R64 on its own and combine the flags; the dot
products round the exact sum once to f32. -/
def Obligations.PackedArithmetic : Prop :=
  ∀ (s : State) (p : Option Pfx) (d a b c : Sel),
    let el (t : Ety) (u : Thread) (vs : List Nat) (i e : Nat) : FVal :=
      t.val (t.flush u.ftz (bits (arg vs i) (t.width * e) t.width))
    let both (r : Nat → Nat × Fl) : LaneRes := ⟨(r 0).1 + (r 1).1 * 2 ^ 16, (r 0).2 ||| (r 1).2, none⟩
    let path (t : Ety) (u : Thread) (v : FVal × Fl) : Nat × Fl := t.result (roundOf p u) u.ftz (satOf p) v.1 v.2
    let h := elemTy p .f16
    let g := elemTy p .bf16
    let k := elemTy p .t8
    let fma (t : Ety) (u : Thread) (vs : List Nat) : LaneRes :=
      both fun e => path t u (fmaVal (roundOf p u) (el t u vs 0 e) (el t u vs 1 e) (el t u vs 2 e))
    let dot (t : Ety) (n : Nat) (u : Thread) (vs : List Nat) : LaneRes :=
      let r := path .f32 u (dotVal (roundOf p u) ((List.range n).map fun e => (el t u vs 0 e, el t u vs 1 e))
        (Ety.f32.val (Ety.f32.flush u.ftz (arg vs 2))))
      ⟨r.1, r.2, none⟩
    let abc := [srcWord (polA p) a, srcWord (polB p) b, srcWord false c]
    YieldsFp s (.hadd2 p d a b) (packedForm p .f16 isHalf [srcWord (polA p) a, srcWord (polB p) b] (dstOf .b32 d))
      (fun u vs => both fun e => path h u (addVal (roundOf p u) (el h u vs 0 e) (el h u vs 1 e))) ∧
    YieldsFp s (.hfma2 p d a b c) (packedForm p .f16 (· == .f16) abc (dstOf .b32 d)) (fma h) ∧
    YieldsFp s (.bfma2 p d a b c) (packedForm p .bf16 (· == .bf16) abc (dstOf .b32 d)) (fma g) ∧
    YieldsFp s (.dot2 p d a b c) (packedForm p .f16 isHalf abc (dstOf .f32 d)) (dot h 2) ∧
    YieldsFp s (.dot4 p d a b c) (packedForm p .t8 Ety.isT abc (dstOf .f32 d)) (dot k 4) ∧
    YieldsFp s (.pack p d a b) (packedForm p .f16 isHalf [srcOf .f32 (polA p) none a, srcOf .f32 (polB p) none b] (dstOf .b32 d))
      (fun u vs => both fun i => path h u (Ety.f32.val (Ety.f32.flush u.ftz (arg vs i)), 0))

/-- R63, R119, R120, R122 to R126: the conversions. A scale byte of 0xFF makes `qscale` give the default NaN, which is +0
under SAT. -/
def Obligations.Conversions : Prop :=
  ∀ (s : State) (p : Option Pfx) (d a b : Sel) (dt st : BitVec 4) (e bsel : BitVec 2) (neg : Bool) (imm : BitVec 30),
    let out (r : Nat × Fl) : LaneRes := ⟨r.1, r.2, none⟩
    let D := (cvtTy dt).getD .f32
    let S := (cvtTy st).getD .f32
    let h := elemTy p .f16
    let k := elemTy p .t8
    let t := elemTy p .f32
    let unpack (u : Thread) (vs : List Nat) : LaneRes :=
      out (Ety.f32.roundVal .rne (h.val (h.flush u.ftz (packed h (arg vs 0) (arg vs 1 % packCount h)))))
    YieldsFp s (.cvt p d a dt st) (cvtForm p d a dt st) (fun u vs =>
      let v := if isIntTy S then ofInt (S.num (arg vs 0)) else S.val (S.flush u.ftz (arg vs 0))
      let n := D.toInt (roundOf p u) v
      out (if isIntTy D then (D.toReg (D.wrap n.1), n.2) else D.result (roundOf p u) u.ftz (satOf p) v 0)) ∧
    YieldsFp s (.unpack p d a b) (unpackForm p d a b none) unpack ∧
    YieldsFp s (.unpackImm p d a b imm) (unpackForm p d a b (some imm)) unpack ∧
    Yields s (.tdec p d a e) (taperForm p accNone [srcWord (polA p) a] (dstOf .f32 d))
      (fun _ vs => onlyVal (Ety.f32.roundVal .rne (k.val (packed k (arg vs 0) e.toNat))).1) ∧
    YieldsFp s (.tenc p d a b e) (taperForm p accRndNf [srcOf .f32 (polA p) none a, srcWord (polB p) b] (dstOf .b32 d))
      (fun u vs =>
        let r := k.roundVal (roundOf p u) (Ety.f32.val (Ety.f32.flush u.ftz (arg vs 0)))
        out (setBits (arg vs 1 % 2 ^ (4 * k.width)) (k.width * e.toNat) k.width r.1, r.2)) ∧
    YieldsFp s (.qscale p d a b neg bsel) (qscaleForm p d a b) (fun u vs =>
      let e8 := bits (arg vs 1) (8 * bsel.toNat) 8
      out (if e8 = 0xFF then (if satOf p then 0 else t.defaultNan, 0)
        else t.result (roundOf p u) u.ftz (satOf p)
          (scaleVal (t.val (t.flush u.ftz (arg vs 0))) (if neg then 127 - e8 else e8 - 127)) 0))

/-- R78, R107, R108, R114, R115, R127: the divisions and the other multi-cycle instructions start, mark their destination
empty and owe each active thread its result; where the destination cannot be empty, or, of those of groups 2 and 3, where
the thread has a trap enabled, they complete at once. What the approximations give is `frcpVal` and its fellows, within the bounds of R115 and R128
(log entry 6). -/
def Obligations.MultiCycleInstructionsStart : Prop :=
  ∀ (s : State) (p : Option Pfx) (d a b : Sel) (imm : BitVec 30),
    let t := (gty p .s32).getD .s32
    let e := elemTy p .f32
    let quo (vs : List Nat) : Int := (t.num (arg vs 0)).tdiv (t.num (arg vs 1))
    let rest (vs : List Nat) : Int := t.num (arg vs 0) - t.num (arg vs 1) * quo vs
    let int (x : List Nat → Int) (_ : Thread) (vs : List Nat) : Option LaneRes :=
      if t.num (arg vs 1) = 0 then none else some (onlyVal (reduce t (satOf p) (x vs)))
    let fp (u : Thread) (r : Nat × Fl) : Option LaneRes := if r.2 &&& u.enables ≠ 0 then none else some ⟨r.1, r.2, none⟩
    let src (u : Thread) (vs : List Nat) (i : Nat) : Nat := e.flush u.ftz (arg vs i)
    let path (u : Thread) (v : FVal × Fl) : Option LaneRes := fp u (e.result (roundOf p u) u.ftz (satOf p) v.1 v.2)
    let div (u : Thread) (vs : List Nat) : Option LaneRes := path u (divVal (e.val (src u vs 0)) (e.val (src u vs 1)))
    let near (g : Ety → Nat → Nat × Fl) (u : Thread) (vs : List Nat) : Option LaneRes :=
      fp u (e.finish u.ftz (satOf p) (g e (src u vs 0)))
    let D := binIntForm p d a b none isSN32
    let I := binIntForm p d a b (some imm) isSN32
    let F (acc : Accept) (ok : Ety → Bool) := unFpForm p a acc ok fun t => dstOf t d
    Starts s (.div p d a b) (D isSN) .div false .intDivzero (int quo) ∧
    Starts s (.divImm p d a b imm) (I isSN) .div false .intDivzero (int quo) ∧
    Starts s (.rem p d a b) (D noTy) .div false .intDivzero (int rest) ∧
    Starts s (.remImm p d a b imm) (I noTy) .div false .intDivzero (int rest) ∧
    Starts s (.fdiv p d a b) (binFpForm p d a b none accAll) (.multi false) false .fpTrap div ∧
    Starts s (.fdivImm p d a b imm) (binFpForm p d a b (some imm) accAll) (.multi false) false .fpTrap div ∧
    Starts s (.fsqrt p d a) (F accAll isFp) (.multi false) false .fpTrap (fun u vs => path u (rootVal (e.val (src u vs 0)))) ∧
    Starts s (.frcp p d a) (F accSatNf isFp) (.multi true) true .fpTrap (near frcpVal) ∧
    Starts s (.frsq p d a) (F accSatNf isFp) (.multi true) true .fpTrap (near frsqVal) ∧
    Starts s (.sin p d a) (F accSatNf isSfu) (.multi true) true .fpTrap (near (trigVal true)) ∧
    Starts s (.cos p d a) (F accSatNf isSfu) (.multi true) true .fpTrap (near (trigVal false)) ∧
    Starts s (.fexp2 p d a) (F accSatNf isSfu) (.multi true) true .fpTrap (near exp2Val) ∧
    Starts s (.flog2 p d a) (F accSatNf isSfu) (.multi true) true .fpTrap (near log2Val) ∧
    Starts s (.tanh p d a) (F accSatNf isSfu) (.multi true) true .fpTrap (near tanhVal) ∧
    Starts s (.sig p d a) (F accSatNf isSfu) (.multi true) true .fpTrap (near sigVal)

/-- R22, R78, R107, R144: when a load, a division or a multi-cycle instruction completes, its result is written to the
lanes that are owed it, its destination is full, and nothing else changes; but that a round of a convergence register that
has all its signatures, and waited for its scales to be full, then completes (R176). -/
def Obligations.DelayedResultsArrive : Prop :=
  ∀ (s : State) (co id : Nat) (c : Cohort) (p : Pend), find? s.cohorts co = some c → find? c.pends id = some p →
    Landable c p →
    let quiet : Prop := ∀ cv < 8, (c.conv cv).inert = true ∨ (c.conv cv).signed = 0 ∨ (c.conv cv).signed < (c.conv cv).expect
    let lands (i : Instr) : Prop := ∃ t, ResultArrived s t co c id p ∧ exec i s = .next (t.completeRounds co) ∧
      (quiet → t.completeRounds co = t)
    (p.kind = .load → lands (.loadComplete co id)) ∧
    (p.kind = .div → lands (.divRemComplete co id)) ∧
    (∀ sfu, p.kind = .multi sfu → lands (.multicycleComplete co id))

/-- R129 to R135: the cross-lane instructions give each lane what the rules make of the lanes that contribute, as T2 of
R131 names them; a lane that is left out of its own mask raises MASK_SELF, after the others have completed. -/
def Obligations.CrossLaneInstructions : Prop :=
  ∀ (s : State) (p : Option Pfx) (d a b c : Sel) (mk wr ii na : Bool) (seg op k qa : BitVec 3) (idx : BitVec 6) (lsel : BitVec 2)
    (lane : BitVec 5),
    let S := segSize seg.toNat
    let U (l : XLane) : Nat := if ii then idx.toNat else arg l.vals 1 % 2 ^ 32
    let I (l : XLane) : Int := if ii then idx.toInt else toSigned 32 (arg l.vals 1)
    let j (l : XLane) : Nat := l.key % 32 % S
    let from? (all : List XLane) (l : XLane) (n : Option Nat) : LaneRes :=
      onlyVal (match n with
        | some n => if l.peers.contains n then laneVal all n 0 else 0
        | none => 0)
    let shuf (t : XLane → Int) (_ : Thread) (all : List XLane) (l : XLane) : LaneRes :=
      let t := if wr then t l % S else t l
      from? all l (if 0 ≤ t ∧ t < S then some (l.key % 32 - j l + t.toNat) else none)
    let F := shuffleForm p d a b c mk seg ii
    let yes (n : Nat) : Bool := ((s.sel.bind fun g => s.thread? g.1 n).map fun u => u.preds.getLsbD qa.toNat != na).getD false
    let t := elemTy p .s32
    let N (n : Nat) : Int := t.num n
    CrossYields s (.shfl p d a b c mk wr seg ii idx) F mk c (shuf fun l => U l) ∧
    CrossYields s (.shflRel p d a b c mk wr seg ii idx) F mk c (shuf fun l => j l + I l) ∧
    CrossYields s (.shflXor p d a b c mk wr seg ii idx) F mk c (shuf fun l => (j l ^^^ U l : Nat)) ∧
    CrossYields s (.bcast p d a c mk lsel lane) (bcastForm p d a c mk lsel lane) mk c (fun _ all l =>
      from? all l (if lsel = 0 then some lane.toNat else if lsel = 1 then lowest l.peers else highest l.peers)) ∧
    CrossYields s (.vote p d na qa c mk op) (voteForm p d c mk op) mk c (fun _ all l =>
      let P := all.filter fun q => l.peers.contains (q.key % 32)
      let Y := P.filter fun q => yes q.key
      onlyVal (if op = 0 then bitsIn (Y.map (·.key % 32)) 0 else if op = 1 then (!Y.isEmpty).toNat
        else if op = 2 then (Y.length == P.length).toNat else if op = 3 then (Y.isEmpty || Y.length == P.length).toNat
        else Y.length)) ∧
    CrossYields s (.lred p d a c mk op k) (lredForm p d a c mk op k) mk c (fun u all l =>
      let m := l.key % 32 ^^^ 32 / 2 ^ k.toNat
      let x := arg l.vals 0
      let y := laneVal all m 0
      let R (n : Int) (sat : Bool) : LaneRes := onlyVal (reduce t sat n)
      let v := t.flush u.ftz x
      let w := t.flush u.ftz y
      if !l.peers.contains m then onlyVal x
      else if t.isF then
        let r := if op = 0 then
            let e := addVal (roundOf p u) (t.val v) (t.val w)
            t.result (roundOf p u) u.ftz (satOf p) e.1 e.2
          else
            let e := minMaxFp (op == 1) t v w
            (if satOf p then t.satF e.1 else e.1, e.2)
        ⟨r.1, r.2, none⟩
      else if op = 0 then R (N x + N y) (satOf p)
      else if op = 1 then R (if N x ≤ N y then N x else N y) false
      else if op = 2 then R (if N x ≤ N y then N y else N x) false
      else onlyVal (if op = 3 then x &&& y else if op = 4 then x ||| y else x ^^^ y)) ∧
    (∀ x e r, Ready s (.matchLanes p d a) (matchForm p d a) x e →
      (∀ n ∈ x.on e (matchForm p d a), r n = onlyVal (bitsIn (((x.on e (matchForm p d a)).filter fun m =>
        arg (e.args (matchForm p d a) m) 0 == arg (e.args (matchForm p d a) n) 0).map (· % 32)) 0)) →
      Completes s (.matchLanes p d a) (matchForm p d a) x e r)

/-- R90, R91, R96 to R100, R104: the transfers of control that the rules call branches, calls, jumps and loops, where the
words they check are there (R24). A branch on which the threads differ splits the group without an entry and is counted;
`call` links `addr + 8`; every thread of `ret` and `jmp` goes to its own address; loop entries are unwound on a taken
transfer, pushed by `loop` and popped by `lbrk`. -/
def Obligations.ControlTransfers : Prop :=
  ∀ (s t : State) (x : Issue) (c : Cohort) (ce n : Bool) (q : BitVec 3) (imm : BitVec 30) (d a : Sel) (stop : BitVec 14) (ci : Bool)
    (icount : BitVec 15) (un : Bool),
    let goto (a : DWord) (un : Bool) (u : Thread) : Thread := { u with pc := a, loops := unwind a u.loops, latched := [], land := un }
    let diverge : List Nat := [rcKey .cluBraDiverge x.ci]
    let addr := x.pc + BitVec.ofInt 64 (4 * imm.toInt)
    let T := x.ts.filter fun k => !ce || ((c.thread? k).map fun u => u.preds.getLsbD q.toNat != n).getD false
    let F := x.ts.filter fun k => !T.contains k
    let link : Form := bareForm [] (some (dstOf .b64 d))
    let src : Form := bareForm [srcOf .b64 false none a] none
    let A (k : Nat) : DWord := BitVec.ofNat 64 (arg (c.args src k) 0)
    let split : Nat := if (∃ j ∈ x.ts, ∃ k ∈ x.ts, A j ≠ A k) then 1 else 0
    let cnt : Form := bareForm (if ci then [] else [srcWord false a]) none
    let N (k : Nat) : Nat := if ci then icount.toNat else arg (c.args cnt k) 0 % 2 ^ 32
    let first := x.pc + 8
    let last := first + BitVec.ofNat 64 (4 * stop.toNat)
    -- bra
    (Goes s (.bra ce n q imm) x c → (ce = true ∨ n = false ∧ q = 0) → Lands s (.bra ce n q imm) x c addr false t un →
      ∃ r, exec (.bra ce n q imm) s = .next r ∧
        Moves t r x c c diverge [T, F] (fun k u => if k ∈ T then goto addr un u else u.advance 8) ∧
        (t.counter .cluBraDiverge x.ci < 2 ^ 64 - 1 →
          r.counter .cluBraDiverge x.ci = t.counter .cluBraDiverge x.ci + if T = [] ∨ F = [] then 0 else 1)) ∧
    -- call
    (linkOk d = true → Goes s (.call d imm) x c → Lands s (.call d imm) x c addr false t un → Ready t (.call d imm) link x c →
      ∃ r, exec (.call d imm) s = .next r ∧
        Wrote t r x c link.dst x.ts x.ts (fun _ => (x.pc + 8).toNat) (fun _ => goto addr un)) ∧
    -- ret, jmp
    (addrOk a = true → (∀ k ∈ x.ts, Steady s x (A k)) →
      ∀ i, i = .ret a ∨ i = .jmp a → Ready s i src x c →
      ∃ r, exec i s = .next r ∧ Moves s r x c c diverge [x.ts] (fun k => goto (A k) false) ∧
        (s.counter .cluBraDiverge x.ci < 2 ^ 64 - 1 → r.counter .cluBraDiverge x.ci = s.counter .cluBraDiverge x.ci + split)) ∧
    -- loop
    ((ci = true → a = 0) → Goes s (.loop a stop ci icount) x c → Lands s (.loop a stop ci icount) x c last true t un →
      Ready t (.loop a stop ci icount) cnt x c →
      ((∀ k ∈ x.ts, N k ≠ 0 ∧ ∀ u, c.thread? k = some u → u.loops.length < 4) →
        ∃ r, exec (.loop a stop ci icount) s = .next r ∧ Moves t r x c c [] [x.ts] fun k u =>
          { u with pc := first, loops := ⟨first, last, BitVec.ofNat 32 (N k)⟩ :: u.loops, latched := [], land := false }) ∧
      ((∀ k ∈ x.ts, N k ≠ 0 ∧ ∀ u, c.thread? k = some u → 4 ≤ u.loops.length) →
        exec (.loop a stop ci icount) s = .next ((t.modCohort x.co Cohort.tidy).takeTraps x.co x.g (x.ts.map fun k => (k, x.cause .loopOverflow 0)))) ∧
      ∀ after z, (∀ k ∈ x.ts, N k = 0) → t.afterInstr x last = (.at after, z) → find? z.cohorts x.co = some c →
        ∃ r, exec (.loop a stop ci icount) s = .next r ∧ Moves z r x c c [] [x.ts] fun _ u => u.resume after) ∧
    -- lbrk
    (Goes s .lbrk x c →
      ((∀ k ∈ x.ts, ∀ u, c.thread? k = some u → u.loops = []) →
        ∃ r, exec .lbrk s = .next r ∧ Moves s r x c c [] [x.ts] fun _ u => u.advance 4) ∧
      ∀ e after z, (∀ k ∈ x.ts, ∀ u, c.thread? k = some u → u.loops.head?.map LoopEntry.stop = some e) →
        s.afterInstr x e = (.at after, z) → find? z.cohorts x.co = some c →
        ∃ r, exec .lbrk s = .next r ∧ Moves z r x c c [] [x.ts] fun _ u =>
          { u with pc := after, loops := unwind after u.loops.tail, latched := [] }) ∧
    -- nop
    (Goes s .nop x c → ∃ r, exec .nop s = .next r ∧ Moves s r x c c [] [x.ts] fun _ u => u.advance 4)

/-- R92 to R94: `brd` pushes one shared entry and splits the group; where the stack is full it raises DIV_OVERFLOW or, with
DIVOVER 0, runs the threads one at a time from the lowest lane; while a thread's overflow count is above 0, `brd` only
raises that count. -/
def Obligations.DivergentBranch : Prop :=
  ∀ (s s1 t : State) (x : Issue) (c : Cohort) (n : Bool) (q : BitVec 3) (tgt join : BitVec 15) (un un' : Bool),
    let i : Instr := .brd n q tgt join
    let addr := x.pc + BitVec.ofInt 64 (4 * tgt.toInt)
    let j := x.pc + BitVec.ofInt 64 (4 * join.toInt)
    let T := x.ts.filter fun k => ((c.thread? k).map fun u => u.preds.getLsbD q.toNat != n).getD false
    let F := x.ts.filter fun k => !T.contains k
    let moved (k : Nat) (u : Thread) : Thread :=
      if k ∈ T then { u with pc := addr, loops := unwind addr u.loops, latched := [], land := un } else u.advance 8
    let each (P : Thread → Prop) : Prop := ∀ k ∈ x.ts, ∀ u, c.thread? k = some u → P u
    Goes s i x c → Lands s i x c addr false s1 un → Lands s1 i x c j false t un' →
      (each (fun u => u.ovf = 0 ∧ u.divs.length < c.hdr.divdepth) →
        ∃ r, exec i s = .next r ∧ Moves t r x c { c with divs := insert c.divs c.fresh ⟨j, x.ts⟩ } [] [T, F] fun k u =>
          { moved k u with divs := c.fresh :: u.divs }) ∧
      (each (fun u => 0 < u.ovf) →
        ∃ r, exec i s = .next r ∧ Moves t r x c c [] [T, F] fun k u => { moved k u with ovf := u.ovf + 1 }) ∧
      (each (fun u => u.ovf = 0 ∧ c.hdr.divdepth ≤ u.divs.length) → c.hdr.divover = true →
        exec i s = .next (t.takeTraps x.co x.g (x.ts.map fun k => (k, x.cause .divOverflow 0)))) ∧
      (each (fun u => u.ovf = 0 ∧ c.hdr.divdepth ≤ u.divs.length) → c.hdr.divover = false →
        ∃ r d, exec i s = .next r ∧ Apart x.co [] t r ∧ find? r.cohorts x.co = some d ∧
          d = { c with threads := d.threads, groups := d.groups, fresh := d.fresh, serials := d.serials } ∧
          find? d.serials c.fresh = some ⟨x.ts.tail, x.ts⟩ ∧
          (∀ k, k ∉ x.ts → d.thread? k = c.thread? k) ∧
          ∀ k ∈ x.ts, ∀ u, c.thread? k = some u →
            if x.ts.head? = some k then ∃ g, d.thread? k = some { moved k u with ovf := 1, run := .group g }
            else d.thread? k = some { moved k u with ovf := 1, run := .serialWait c.fresh })

/-- R93, R94: `join` is a `nop` that is counted where the top entry is not its own; an arrival waits, and the last one
releases every thread of the entry, which is popped; a thread with an overflow count lowers it and does not wait; and at
count 0 it arrives, and the next lane of the run starts, or all of them go on. -/
def Obligations.JoinMeets : Prop :=
  ∀ (s : State) (x : Issue) (c : Cohort),
    let each (P : Nat → Thread → Prop) : Prop := ∀ k ∈ x.ts, ∀ u, c.thread? k = some u → P k u
    let next := x.pc + 4
    let top (u : Thread) : Option DivEntry := u.divs.head?.bind (find? c.divs)
    let frame (r : State) (d : Cohort) : Prop :=
      exec .join s = .next r ∧ Apart x.co [] s r ∧ find? r.cohorts x.co = some d ∧
        d = { c with threads := d.threads, groups := d.groups, fresh := d.fresh, divs := d.divs, serials := d.serials }
    Goes s .join x c →
      (each (fun _ u => u.ovf = 0 ∧ (top u).map DivEntry.join ≠ some x.pc) → s.counter .cluJoinNop x.ci < 2 ^ 64 - 1 →
        ∃ r, exec .join s = .next r ∧ Moves s r x c c [rcKey .cluJoinNop x.ci] [x.ts] (fun _ u => u.advance 4) ∧
          r.counter .cluJoinNop x.ci = s.counter .cluJoinNop x.ci + 1) ∧
      (∀ id e, find? c.divs id = some e → e.join = x.pc →
        each (fun k u => u.ovf = 0 ∧ u.divs.head? = some id ∧ k ∈ e.members) →
        let here (k : Nat) : Option DWord := if k ∈ x.ts then some next else match c.thread? k with
          | some u => (match u.run with
            | .join n => if u.divs.head? = some id then some n else none
            | _ => none)
          | none => none
        ∃ r d, frame r d ∧ d.serials = c.serials ∧
          if e.members.all fun k => (here k).isSome then
            d.divs = erase c.divs id ∧ (∀ k, k ∉ e.members → d.thread? k = c.thread? k) ∧
            ∀ k ∈ e.members, ∀ u n, c.thread? k = some u → here k = some n →
              ∃ g, d.thread? k = some { u.joined n with divs := u.divs.tail, run := .group g }
          else d.divs = c.divs ∧ (∀ k, k ∉ x.ts → d.thread? k = c.thread? k) ∧
            each fun k u => d.thread? k = some { u with run := .join next }) ∧
      (each (fun _ u => 1 < u.ovf) →
        ∃ r, exec .join s = .next r ∧ Moves s r x c c [] [x.ts] fun _ u => { u.advance 4 with ovf := u.ovf - 1 }) ∧
      (∀ k u run w, x.ts = [k] → c.thread? k = some u → u.ovf = 1 → c.serialOf k = some run → find? c.serials run = some w →
        ∃ r d, frame r d ∧ d.divs = c.divs ∧
          match w.waiting with
          | j :: rest => d.serials = insert c.serials run { w with waiting := rest } ∧
              d.thread? k = some { u with ovf := 0, run := .serialDone run next } ∧
              (∀ v, j ≠ k → c.thread? j = some v → ∃ g, d.thread? j = some { v with run := .group g }) ∧
              ∀ m, m ≠ k → m ≠ j → d.thread? m = c.thread? m
          | [] => d.serials = erase c.serials run ∧
              ∀ m v, c.thread? m = some v →
                if m = k then m ∈ w.members → ∃ g, d.thread? m = some { ({ u with ovf := 0 } : Thread).joined next with run := .group g }
                else match v.run with
                  | .serialDone run' n => if run' = run ∧ m ∈ w.members then
                      ∃ g, d.thread? m = some { v.joined n with run := .group g } else d.thread? m = some v
                  | _ => d.thread? m = some v)

/-- R95: `reform` passes threads with a divergence entry or an overflow count by, and counts them; it files every other
into a bin of its sub-partition that has the address at which it goes on and its home lane free. -/
def Obligations.ReformFiles : Prop :=
  ∀ (s : State) (x : Issue) (c : Cohort),
    let deep (u : Thread) : Prop := u.divs.length + u.ovf ≠ 0
    let sp := (c.crewOf (x.ts.head?.getD 0)).sp
    Goes s .reform x c →
      (∀ k ∈ x.ts, (c.crewOf k).sp = sp) → ((s.cluster x.ci).bins.filter fun b => b.2.sp == sp).length + x.ts.length ≤ 64 →
      (∀ b ∈ (s.cluster x.ci).bins, b.1 < s.fresh) → s.isCluster x.ci = true →
      ∃ r d, exec .reform s = .next r ∧ find? r.cohorts x.co = some d ∧
        r = { s with cohorts := r.cohorts, clusters := r.clusters, counters := r.counters, choices := r.choices,
                     choiceCtr := r.choiceCtr, fresh := r.fresh } ∧
        (∀ cp, cp ≠ x.co → find? r.cohorts cp = find? s.cohorts cp) ∧
        d = { c with threads := d.threads, groups := d.groups, fresh := d.fresh } ∧
        (∀ k, k ∉ x.ts → d.thread? k = c.thread? k) ∧
        (∀ k ∈ x.ts, ∀ u, c.thread? k = some u → deep u → ∃ g, d.thread? k = some { u.advance 4 with run := .group g }) ∧
        (∀ k ∈ x.ts, ∀ u, c.thread? k = some u → ¬ deep u → ∃ b y, d.thread? k = some { u.advance 4 with run := .binned b } ∧
          find? (r.cluster x.ci).bins b = some y ∧ y.sp = sp ∧ y.cohort = x.co ∧ y.key = (u.advance 4).pc ∧
          ∀ j v, j ≠ k → d.thread? j = some v → v.run = .binned b → j % 32 ≠ k % 32) ∧
        (∀ ci, ci ≠ x.ci → r.cluster ci = s.cluster ci) ∧
        ∀ n, n = (x.ts.filter fun k => ((c.thread? k).map fun u => u.divs.length + u.ovf != 0).getD false).length →
          s.counter .cluReformSkip x.ci + n < 2 ^ 64 → r.counter .cluReformSkip x.ci = s.counter .cluReformSkip x.ci + n

/-- R16, R19, R35, R103: `trap` raises SYSCALL and `brk` BREAK for every thread of the group, whose frames take
`addr + 4` as the program counter and the word that carries the code; words that form no instruction raise ORPHAN_PREFIX
or ILLEGAL_OP, with the instruction's own address. -/
def Obligations.SoftwareTraps : Prop :=
  ∀ (s : State) (x : Issue) (c : Cohort) (code : BitVec 21) (w : BadWords),
    let all (z : Cause) : Host.Outcome State Fault Refusal := .next (s.takeTraps x.co x.g (x.ts.map fun k => (k, z)))
    let word (op : Nat) : Word := BitVec.ofNat 32 (op * 2 ^ 21 + code.toNat)
    (Goes s (.trap code) x c → exec (.trap code) s = all ⟨.syscall, 0, x.pc + 4, word 0x14A, 0, some x.pc⟩) ∧
    (Goes s (.brk code) x c → exec (.brk code) s = all ⟨.brk, 0, x.pc + 4, word 0x14B, 0, some x.pc⟩) ∧
    (Goes s (.illegalOp w) x c → exec (.illegalOp w) s = all (match w with
      | .orphanTail v => ⟨.illegalOp, 0, x.pc, v, 0, none⟩
      | .headWithoutTail p v => ⟨.illegalOp, 0, x.pc, v, p.getD 0, none⟩
      | .orphanPrefix p => ⟨.orphanPrefix, 0, x.pc, p, p, none⟩
      | .unassigned p v => ⟨.illegalOp, 0, x.pc, v, p.getD 0, none⟩))

/-- R206, R278: taking a trap, of a thread to which no result is still owed, writes the frame to the thread's slot, sets
TRAPH, empties the loop and divergence stacks, sets WBASE to 0 and goes on at TRAPVEC; with TRAPVEC 0, two frames held or
no trap area, it ends the context with TRAP_UNHANDLED.
R206, R366: the 1,024 bytes of a trap frame hold the fields of the table, little-endian, at their offsets. -/
def Obligations.TakingATrap : Prop :=
  (∀ (s : State) (co k : Nat) (c : Cohort) (u : Thread) (z : Cause) (y : Ctx),
    let slot := u.frames.length
    let bs := s.frameBytes co c u z
    let saved := u.divs.filterMap fun id => (find? c.divs id).map fun e => (id, e.join, e.mask)
    find? s.cohorts co = some c → c.thread? k = some u → s.ctx? c.ctx = some y → (∀ p ∈ c.pends, ∀ l ∈ p.2.lanes, l.1 ≠ k) →
      ((y.trapvec = 0 ∨ 2 ≤ slot ∨ s.frameAddr c k slot = none) → s.takeTrap co k z = s.endContext c.ctx 0x03) ∧
      ∀ a p s1 s2, y.trapvec ≠ 0 → slot < 2 → s.frameAddr c k slot = some a →
        s.translate c.ci c.ctx a Need.write = (.ok p, s1) → s1.worldOk c.ctx p.world = true →
        (s1.recall c.ci (p.pa / 128)).writePhys p.world p.pa bs = (none, s2) → find? s2.cohorts co = some c →
        ∃ t d, s.takeTrap co k z = t ∧ find? t.cohorts co = some d ∧
          t = { s2 with cohorts := t.cohorts, clusters := t.clusters, mc := t.mc, counters := t.counters } ∧
          (∀ cp, cp ≠ co → find? t.cohorts cp = find? s2.cohorts cp) ∧
          d = { c with threads := d.threads } ∧ (∀ j, j ≠ k → d.thread? j = c.thread? j) ∧
          d.thread? k = some { u with
            pc := y.trapvec, mode := u.mode ||| 0x8000, loops := [], divs := [], ovf := 0, wbase := 0, latched := [], land := false
            due := none, frames := u.frames ++ [⟨slot, saved, z.edge, u.ovf⟩] }) ∧
  (∀ (s : State) (co : Nat) (c : Cohort) (t : Thread) (z : Cause),
    let bs := s.frameBytes co c t z
    let at_ (o n : Nat) : Nat := ofBytes ((bs.drop o).take n)
    bs.length = 1024 ∧
    at_ 0x000 8 = z.pc.toNat ∧ at_ 0x008 1 = z.trap.code % 2 ^ 8 ∧ at_ 0x009 1 = t.flags.toNat ∧ at_ 0x00A 1 = t.preds.toNat ∧
    at_ 0x00B 1 = t.divs.length % 2 ^ 8 ∧ at_ 0x00C 1 = t.ovf % 2 ^ 8 ∧ at_ 0x00D 1 = t.loops.length % 2 ^ 8 ∧
    at_ 0x00E 1 = t.wbase / 32 % 2 ^ 8 ∧ at_ 0x00F 1 = 0 ∧ at_ 0x010 4 = z.fw.toNat ∧ at_ 0x014 4 = t.mode.toNat ∧
    at_ 0x018 8 = z.addr % 2 ^ 64 ∧ at_ 0x020 4 = t.nlife.toNat ∧ at_ 0x024 1 = t.lane % 2 ^ 8 ∧ at_ 0x025 1 = t.crew % 2 ^ 8 ∧
    at_ 0x026 2 = 0 ∧ at_ 0x028 4 = t.idx % 2 ^ 32 ∧ at_ 0x02C 4 = z.pw.toNat ∧
    (∀ i < 4, ∀ l, t.loops.reverse[i]? = some l →
      at_ (0x030 + 24 * i) 8 = l.start.toNat ∧ at_ (0x038 + 24 * i) 8 = l.stop.toNat ∧ at_ (0x040 + 24 * i) 4 = l.count.toNat) ∧
    (∀ q < 8, ∀ b, c.qbind? t.role q = some b → b.kind < 16 →
      at_ (0x090 + 16 * q) 4 = b.kind + 2 ^ 4 * b.sig.toNat + 2 ^ 5 * b.trapq.toNat ∧
      at_ (0x094 + 16 * q) 8 = b.target.toNat ∧ at_ (0x09C + 16 * q) 4 = s.held co (8 * t.role + q) b % 2 ^ 32) ∧
    (∀ n < 4, ∀ y, find? c.streams (4 * t.role + n) = some y →
      at_ (0x110 + 32 * n) 8 = y.base.toNat ∧ at_ (0x118 + 32 * n) 4 = y.count.toNat ∧ at_ (0x11C + 32 * n) 4 = y.estride.toNat ∧
      at_ (0x120 + 32 * n) 4 = y.rstride.toNat ∧ at_ (0x128 + 32 * n) 4 = y.pos % 2 ^ 32) ∧
    (∀ i < 32, ∀ e, (t.divs.reverse[i]?).bind (find? c.divs) = some e →
      at_ (0x200 + 16 * i) 8 = e.join.toNat ∧ at_ (0x208 + 16 * i) 4 = e.mask.toNat))

/-- R207: `tret` raises PRIVILEGE outside a handler; otherwise each thread takes back from its newest frame, as memory
holds it, its program counter, FLAGS, predicates, MODE, WBASE (within its role's window, log entry 68), NLIFE and loop stack, and its divergence stack where the
frame's entries are those that were saved. The frame is released, and TRAPH stays only while another is held; a loop's
back-edge that the trap held back is applied. -/
def Obligations.TrapReturns : Prop :=
  ∀ (s : State) (x : Issue) (c : Cohort) (fr : Nat → Frame) (bytes : Nat → List Byte),
    let r (k o n : Nat) : Nat := ofBytes (((bytes k).drop o).take n)
    let loops (k : Nat) : List LoopEntry := ((List.range (min 4 (r k 0x0D 1))).map fun i =>
      ⟨BitVec.ofNat 64 (r k (0x30 + 24 * i) 8), BitVec.ofNat 64 (r k (0x38 + 24 * i) 8), BitVec.ofNat 32 (r k (0x40 + 24 * i) 4)⟩).reverse
    let entries (k : Nat) : List (DWord × BitVec 32) := (List.range (min 32 (r k 0x0B 1))).map fun i =>
      (BitVec.ofNat 64 (r k (0x200 + 16 * i) 8), BitVec.ofNat 32 (r k (0x208 + 16 * i) 4))
    let pc (k : Nat) : DWord := BitVec.ofNat 64 (r k 0 8)
    let go (k : Nat) : DWord × List LoopEntry := match (fr k).edge with
      | some e => backEdge e (pc k) (loops k)
      | none => (pc k, loops k)
    -- the frames' reads are counted as requests (R333)
    let after (served : FMap Nat) : State := { s with pwr := { s.pwr with takers := served } }
    Goes s .tret x c →
      ((∀ k ∈ x.ts, ∀ u, c.thread? k = some u → u.mode.getLsbD 15 = false) →
        exec .tret s = .next ((s.modCohort x.co Cohort.tidy).takeTraps x.co x.g (x.ts.map fun k => (k, x.cause .privilege 0)))) ∧
      ((∀ k ∈ x.ts, ∀ u, c.thread? k = some u → u.mode.getLsbD 15 = true ∧ u.frames.getLast? = some (fr k) ∧
          entries k = (fr k).divs.reverse.map Prod.snd ∧
          ∃ a, s.frameAddr c k (fr k).slot = some a ∧ ∀ cs ks n served, ∃ more,
            ({ after served with cohorts := cs, counters := ks, fresh := n }).readVa x [(a, 1024)] =
              (.done (bytes k), { after more with cohorts := cs, counters := ks, fresh := n })) →
        ∃ t served, exec .tret s = .next t ∧ Moves (after served) t x c c [] [x.ts] fun k u =>
          { u with
            pc := (go k).1, loops := (go k).2, divs := (fr k).divs.map Prod.fst, ovf := r k 0x0C 1
            flags := BitVec.ofNat 5 (r k 0x09 1), preds := BitVec.ofNat 8 (r k 0x0A 1)
            mode := (BitVec.ofNat 32 (r k 0x14 4) &&& 0x7C0F) ||| if u.frames.length ≤ 1 then 0 else 0x8000
            wbase := 32 * min (r k 0x0E 1) (nth c.hdr.window u.role 0 - 3), nlife := BitVec.ofNat 32 (r k 0x20 4), frames := u.frames.dropLast, latched := []
            land := false })

/-- R195, R196: `barr.init` makes a fresh barrier and `conv.init` a fresh convergence register, of which no thread waits;
a count of 0 raises RESERVED_FIELD. From `freeze` on the barrier is tested for BROKEN (R198, R233). -/
def Obligations.BarriersAndConvergenceRegistersStart : Prop :=
  ∀ (s : State) (x : Issue) (c : Cohort) (k : BitVec 4) (cv : BitVec 3) (a b : Sel) (imm : BitVec 30),
    let F (srcs : List Src) (ill : Bool) : Form := form7 srcs none ill false
    let FB := F [srcWord false a, srcWord false b] (!sel32 a || !sel32 b)
    let FBI := F [srcImm false (imm32 imm) a, srcImm false (imm32 imm) b] (!sel32I a || !sel32I b)
    let FC := F [srcWord false a] (!sel32 a)
    let FCI := F [srcImm false (imm32 imm) a] (!sel32I a)
    let starts (i : Instr) (f : Form) : Prop := ReadyLow s i f x c →
      let n := x.low c f 0 % 2 ^ 32
      let m : BitVec 32 := BitVec.ofNat 32 (x.low c f 1)
      let y : Barrier := ⟨false, n, 0, false, false, m, [], 0⟩
      (n = 0 → exec i s = .next (s.takeTraps x.co x.g (x.ts.map fun k => (k, x.cause .reservedField 0)))) ∧
      (n ≠ 0 → (∀ p ∈ c.threads, ∀ g ph nx, p.2.run ≠ .barWait g k.toNat ph nx ∧ p.2.run ≠ .barArrive g k.toNat) →
        ∃ t, exec i s = .next t ∧ Moves s t x c
          { c with bars := insert c.bars k.toNat { y with broken := decide (c.phase ≠ .prologue ∧ c.missing y + s.owed x.co k.toNat < n) } }
          [] [x.ts] fun _ u => u.advance x.len)
    let gathers (i : Instr) (f : Form) : Prop := ReadyLow s i f x c →
      let m : BitVec 32 := BitVec.ofNat 32 (x.low c f 0)
      let ks := keys (filterMap c.threads fun k _ => m.getLsbD (k / 32))
      let fresh : Conv := ⟨false, 0, [], m, 0, [], none, ⟨false, false, false, 0⟩, none⟩
      (∀ p ∈ c.threads, ∀ g, p.2.run ≠ .convWait g cv.toNat) →
        ∃ t, exec i s = .next t ∧ Moves s t x c
          { c with convs := insert c.convs cv.toNat
                     (if c.phase = .prologue then fresh else { fresh with inert := ks.isEmpty, expect := ks.length, members := ks }) }
          [] [x.ts] fun _ u => u.advance x.len
    starts (.barrInit k a b) FB ∧ starts (.barrInitImm k a b imm) FBI ∧
    gathers (.convInit cv a) FC ∧ gathers (.convInitImm cv a imm) FCI

/-- R196 to R198: an arrival adds 1 to ARRIVED and marks a member; where ARRIVED reaches COUNT the barrier flips and every
blocked waiter passes; a member that has arrived in the phase waits, and an arrival at an inert barrier raises
ACCESS_FAULT. `barr.wait` passes where PHASE differs from the operand and blocks otherwise; `barr.test` writes a
predicate; a BROKEN barrier whose PHASE does not differ raises BARRIER_UNREACHABLE.
R196: a step that takes ARRIVED to `a` at a barrier of COUNT `n`, with no decrement held, flips it `a / n` times: ARRIVED
falls below COUNT, PHASE has toggled that often, and the marks are cleared where it has flipped at all. -/
def Obligations.BarriersMeet : Prop :=
  (∀ (s : State) (x : Issue) (c : Cohort) (j : BitVec 4) (q : BitVec 3) (a : Sel) (k : Nat) (u : Thread),
    let b := c.bar j.toNat
    let member : Bool := b.members.getLsbD (k / 32)
    let acts (u : Thread) : FMap Nat := insert u.acts j.toNat (findD u.acts j.toNat 0 + 1)
    let y : Barrier := { b with arrived := b.arrived + 1, marks := if member then k :: b.marks else b.marks }
    let waits (p : Thread) : Option DWord := match p.run with
      | .barWait _ i _ n => if i = j.toNat then some n else none
      | _ => none
    let F (imm : Option (BitVec 30)) : Form := match imm with
      | none => form7 [srcWord false a] none (!sel32 a) false
      | some v => form7 [srcImm false (imm32 v) a] none (!sel32I a) (decide (2 ≤ v.toNat))
    let ph (f : Form) (k : Nat) : Bool := (arg (c.args f k) 0).testBit 0
    let arriveI : Instr := .barrArrive j
    -- one thread arrives
    (Goes s arriveI x c → x.ts = [k] → c.thread? k = some u → findD u.absorb j.toNat 0 = 0 →
      (b.inert = true → ∃ g, exec arriveI s = .next (g.takeTraps x.co x.g [(k, x.cause .accessFault 0)]) ∧ Apart x.co [] s g ∧
        find? g.cohorts x.co = some { c with groups := ((find? g.cohorts x.co).map Cohort.groups).getD [] }) ∧
      (b.inert = false → member = true → k ∈ b.marks →
        ∃ t d, exec arriveI s = .next t ∧ Apart x.co [] s t ∧ find? t.cohorts x.co = some d ∧
          d = { c with threads := d.threads, groups := d.groups } ∧ (∀ i, i ≠ k → d.thread? i = c.thread? i) ∧
          d.thread? k = some { u with run := .barArrive x.g j.toNat }) ∧
      (b.inert = false → ¬ (member = true ∧ k ∈ b.marks) → b.arrived + 1 < b.count → b.broken = true ∨ c.phase = .prologue →
        ∃ t, exec arriveI s = .next t ∧ Moves s t x c { c with bars := insert c.bars j.toNat y } [] [x.ts] fun _ u =>
          { u.advance 4 with acts := acts u }) ∧
      (b.inert = false → ¬ (member = true ∧ k ∈ b.marks) → b.arrived + 1 = b.count → b.held = 0 → 0 < b.count →
        b.broken = true ∨ c.phase = .prologue →
        ∃ t d, exec arriveI s = .next t ∧ Apart x.co [] s t ∧ find? t.cohorts x.co = some d ∧
          d = { c with bars := d.bars, threads := d.threads, groups := d.groups, fresh := d.fresh } ∧
          find? d.bars j.toNat = some { b with arrived := 0, phase := !b.phase, marks := [] } ∧
          (∀ i, i ≠ j.toNat → find? d.bars i = find? c.bars i) ∧
          (∃ g, d.thread? k = some { u.advance 4 with acts := acts u, run := .group g }) ∧
          ∀ i p, i ≠ k → c.thread? i = some p →
            match waits p with
            | some n => ∃ g, d.thread? i = some { p.resume n with run := .group g }
            | none => (∀ g, p.run ≠ .barArrive g j.toNat) → d.thread? i = some p)) ∧
    -- wait and test
    (∀ v : Option (BitVec 30), let f := F v
      let wait : Instr := match v with
        | none => .barrWait j a
        | some v => .barrWaitImm j a v
      let test : Instr := match v with
        | none => .barrTest q a j
        | some v => .barrTestImm q a j v
      (Ready s wait f x c → (∀ k ∈ x.ts, ph f k ≠ b.phase) →
        ∃ t, exec wait s = .next t ∧ Moves s t x c c [] [x.ts] fun _ u => u.advance x.len) ∧
      (Ready s wait f x c → (∀ k ∈ x.ts, ph f k = b.phase) → b.broken = false →
        ∃ t d, exec wait s = .next t ∧ Apart x.co [] s t ∧ find? t.cohorts x.co = some d ∧
          d = { c with threads := d.threads, groups := d.groups } ∧ (∀ i, i ∉ x.ts → d.thread? i = c.thread? i) ∧
          ∀ k ∈ x.ts, ∀ u, c.thread? k = some u →
            d.thread? k = some { u with run := .barWait x.g j.toNat b.phase (x.pc + BitVec.ofNat 64 x.len) }) ∧
      (Ready s test f x c → (∀ k ∈ x.ts, b.broken = true → ph f k ≠ b.phase) →
        Completes s test f x c fun k => onlyPred q (ph f k != b.phase)))) ∧
  (∀ b : Barrier, b.inert = false → 0 < b.count → b.held = 0 →
    let f := b.flip
    f.2 = b.arrived / b.count ∧ f.1.arrived = b.arrived % b.count ∧ f.1.count = b.count ∧ f.1.inert = false ∧
    f.1.phase = (if b.arrived / b.count % 2 = 0 then b.phase else !b.phase) ∧ f.1.broken = b.broken ∧ f.1.members = b.members ∧
    f.1.marks = if b.arrived < b.count then b.marks else [])

/-- R137 to R144, R148: a load reads, for each active lane in turn, the address `base + index * 2^SH + offset`, and owes the
lane the value, extended as its type says; a store writes the lanes' values, in an order that the device chooses where
two of them name one address. An access that traps or finds no page stops its lane alone. -/
def Obligations.LoadsAndStores : Prop :=
  ∀ (s s0 s1 : State) (x : Issue) (c c1 : Cohort) (p : Option Pfx) (d a b : Sel) (o24 : BitVec 24) (cl : BitVec 2) (sx : Bool)
    (sh : BitVec 3) (v : Nat → Nat) (k level : Nat) (z : Trap) (o : List (Nat × Nat × Nat)),
    let t := memType p
    let at_ (sp long : Bool) (vs : List Nat) : Nat :=
      let index : Int := if long && sx then toSigned 32 (arg vs 1) else (arg vs 1 % 2 ^ 32 : Nat)
      let base : Int := (if sp then arg vs 0 % 2 ^ 32 else arg vs 0 : Nat)
      let sum := base + if long then index * (2 ^ sh.toNat : Nat) + o24.toInt else index
      (sum % (2 ^ (if sp then 32 else 64) : Nat)).toNat
    let ref (sp long : Bool) : MemRef := if long then longRef sp a b o24 cl sx sh else shortRef sp a b
    let idle : Thread → Thread := fun u => u.advance x.len
    -- loads
    (∀ i sp long, (i, sp, long) ∈
        [(Instr.ld p d a b, false, false), (.ldOfs p d a b o24 cl sx sh, false, true), (.ldsp p d a b, true, false),
         (.ldspOfs p d a b o24 cl sx sh, true, true), (.ldc p d a b, false, false), (.ldcOfs p d a b o24 cl sx sh, false, true)] →
      let f := memForm p (ref sp long) true [] (some (dstOf t d))
      let on := x.on c f
      let const : Bool := match i with
        | .ldc .. | .ldcOfs .. => true
        | _ => false
      let acc (s : State) (k : Nat) : Acc Nat × State :=
        let ea := at_ sp long (c.args f k)
        let class_ := if long then cl.toNat else 0
        if const then s.loadConst x ea (t.width / 8) class_ else s.load x sp ea (t.width / 8) class_
      Ready s i f x c →
      (Runs (fun s k n u => acc s k = (.ok n, u)) v s on s1 → find? s1.cohorts x.co = some c →
        (∀ k ∈ on, k ∈ (s1.allocate x (dstOf t d) on).1) →
        let r (k : Nat) : Nat := t.toReg (v k)
        ∃ n, exec i s = .next n ∧
          if isSlot d = true ∨ isScalar d = true then Owes s1 n x c (dstOf t d) .load on x.ts r fun _ => idle
          else Wrote s1 n x c (some (dstOf t d)) on x.ts r fun _ => idle) ∧
      (x.ts = [k] → acc s k = (.trap z, s1) →
        exec i s = .next (s1.takeTraps x.co x.g [(k, x.cause z (at_ sp long (c.args f k)))])) ∧
      (x.ts = [k] → acc s k = (.page level, s1) →
        exec i s = .next (s1.parkOnPage x k (at_ sp long (c.args f k)) Need.read .thread level))) ∧
    -- stores
    (∀ i sp long, (i, sp, long) ∈
        [(Instr.st p d a b, false, false), (.stOfs p d a b o24 cl sx sh, false, true), (.stsp p d a b, true, false),
         (.stspOfs p d a b o24 cl sx sh, true, true)] →
      let f := memForm p (ref sp long) true [srcOf t false none d] none
      let on := x.on c f
      let ea (k : Nat) : Nat := at_ sp long (c.args f k)
      let data (k : Nat) : Nat := arg (c.args f k) 2
      Ready s i f x c →
      (s.laneOrder (on.map fun k => (k, ea k, data k)) = (o, s0) →
        Runs (fun s l (_ : Unit) u => s.store x sp l.2.1 (t.width / 8) l.2.2 = (.ok (), u)) (fun _ => ()) s0 o s1 →
        find? s1.cohorts x.co = some c1 → c1 = { c with high := c1.high } →
        ∃ n, exec i s = .next n ∧ Wrote s1 n x c1 none on x.ts (fun _ => 0) fun _ => idle) ∧
      (x.ts = [k] → s.store x sp (ea k) (t.width / 8) (data k) = (.trap z, s1) →
        exec i s = .next (s1.takeTraps x.co x.g [(k, x.cause z (ea k))])) ∧
      (x.ts = [k] → s.store x sp (ea k) (t.width / 8) (data k) = (.page level, s1) →
        exec i s = .next (s1.parkOnPage x k (ea k) Need.write .thread level)))

/-- R142, R309, R367: a load of memory or scratchpad gives the little-endian number of the bytes at its address and a store
writes exactly those bytes; the checks come in order: alignment, then translation and permission, then the page's world, and
in scratchpad the bound and the poison. -/
def Obligations.AccessesOfMemory : Prop :=
  ∀ (s s1 s2 : State) (ci ctx ea k v cl level : Nat) (z : Trap) (q : Place) (co : Nat) (c : Cohort),
    let line := q.pa / 128
    let u := (s1.countRdc (dieOf ci) q.pa q.world q.attr cl).recall ci line
    (k = 1 ∨ k = 2 ∨ k = 4 ∨ k = 8) →
    -- alignment, translation and world
    (ea % k ≠ 0 → s.loadMem ci ctx ea k cl = (.trap .alignFault, s) ∧ s.storeMem ci ctx ea k v = (.trap .alignFault, s)) ∧
    (ea % k = 0 →
      (s.placeOf ci ctx ea Need.read = (.page level, s1) → s.loadMem ci ctx ea k cl = (.page level, s1)) ∧
      (s.placeOf ci ctx ea Need.read = (.trap z, s1) → s.loadMem ci ctx ea k cl = (.trap z, s1)) ∧
      (s.placeOf ci ctx ea Need.write = (.page level, s1) → s.storeMem ci ctx ea k v = (.page level, s1)) ∧
      (s.placeOf ci ctx ea Need.write = (.trap z, s1) → s.storeMem ci ctx ea k v = (.trap z, s1))) ∧
    -- the bytes of a load
    (ea % k = 0 → s.placeOf ci ctx ea Need.read = (.ok q, s1) → q.attr ≠ 2 → q.pa % 128 + k ≤ 128 →
      (u.checkLine q.world line = (.ok, s2) → s.loadMem ci ctx ea k cl = (.ok (ofBytes (s2.mem.getBytes q.pa k)), s2)) ∧
      (u.checkLine q.world line = (.zeros, s2) → s.loadMem ci ctx ea k cl = (.ok 0, s2)) ∧
      (u.checkLine q.world line = (.fails z, s2) → s.loadMem ci ctx ea k cl = (.trap z, s2))) ∧
    -- the bytes of a store, and every other byte
    (ea % k = 0 → s.placeOf ci ctx ea Need.write = (.ok q, s1) → q.pa % 128 + k ≤ 128 →
      (s1.recall ci line).checkLine q.world line = (.ok, s2) → s2.mem.wf = true →
      ∃ t, s.storeMem ci ctx ea k v = (.ok (), t) ∧ t.mem.read q.pa k = v % 2 ^ (8 * k) ∧
        ∀ n, n < q.pa ∨ q.pa + k ≤ n → t.mem.get n = s2.mem.get n) ∧
    -- scratchpad
    (ea % k ≠ 0 → s.loadSpad c ea k = (.trap .alignFault, s) ∧ s.storeSpad co c ea k v = (.trap .alignFault, s)) ∧
    (ea % k = 0 → c.spadBytes < ea + k → s.loadSpad c ea k = (.trap .accessFault, s) ∧ s.storeSpad co c ea k v = (.trap .accessFault, s)) ∧
    (c.spadCheck ea k false = none →
      s.loadSpad c ea k = (if s.spadPoisoned c ea = true then .trap .poison else .ok (ofBytes (s.spadGet c ea k)), s.touchSpad c ea k)) ∧
    (ea % k = 0 → ea + k ≤ c.spadBytes → ea < c.owned → s.storeSpad co c ea k v = (.trap .templateWrite, s)) ∧
    (ea % k = 0 → ea + k ≤ c.spadBytes → c.owned ≤ ea → find? s.cohorts co = some c → (s.cluster c.ci).scratch.wf = true →
      ∃ t, s.storeSpad co c ea k v = (.ok (), t) ∧ t.mem = s.mem ∧
        (t.cluster c.ci).scratch.read (c.spadAt ea) k = v % 2 ^ (8 * k) ∧
        (∀ n, n < c.spadAt ea ∨ c.spadAt ea + k ≤ n → (t.cluster c.ci).scratch.get n = (s.cluster c.ci).scratch.get n) ∧
        ∀ d, d ≠ c.ci → t.cluster d = s.cluster d)

/-- R149, R150, R167: each lane of an atomic reads its location, computes the new value and stores it, but for a `cas` whose
comparand differs; the lanes follow one another in an order that the device chooses where they name one location.
`atom` gives the old value, `atomr` the one it stored, `red` nothing. In an idempotent region it raises REGION_VIOLATION. -/
def Obligations.Atomics : Prop :=
  ∀ (s s0 s1 : State) (x : Issue) (c : Cohort) (p : Option Pfx) (d a b e : Sel) (op : BitVec 4) (sp : Bool) (r : Nat → LaneRes)
    (o : List (Nat × Nat × List Nat)) (hi k : Nat),
    let t := memType p
    let size := t.width / 8
    let ea (vs : List Nat) : Nat := if sp then arg vs 0 % 2 ^ 32 else arg vs 0
    let new (old b : Nat) : Nat := match op.toNat with
      | 0 => t.wrap (t.num old + t.num b)
      | 1 => t.wrap (min (t.num old) (t.num b))
      | 2 => t.wrap (max (t.num old) (t.num b))
      | 3 => (old &&& b) % 2 ^ t.width
      | 4 => (old ||| b) % 2 ^ t.width
      | 5 => (old ^^^ b) % 2 ^ t.width
      | 6 | 7 => b % 2 ^ t.width
      | 8 => if t.num old < t.num b then t.wrap (t.num old + 1) else old
      | 9 => if t.num old > t.num b then t.wrap (t.num old - 1) else old
      | _ =>
        let f : Ety := if t.isPair then .f64 else .f32
        let v := addVal .rne (f.val old) (f.val b)
        (f.result .rne false false v.1 v.2).1
    let held (s : State) (k : Nat) : Bool := ((s.thread? x.co k).map Thread.idempotent).getD false
    let does (back : Bool) (s : State) (l : Nat × Nat × List Nat) (r : LaneRes) (u : State) : Prop :=
      held s l.1 = false ∧
      let b := arg l.2.2 1
      let go (old : Nat) : Bool := op.toNat != 7 || old == arg l.2.2 2 % 2 ^ t.width
      let gives (old : Nat) : Prop := r = onlyVal (t.toReg (if back && go old then new old b else old))
      if sp then ∃ y, find? s.cohorts x.co = some y ∧ y.spadCheck l.2.1 size true = none ∧
        let z := s.touchSpad y l.2.1 size
        z.spadPoisoned y l.2.1 = false ∧
        let old := ofBytes (z.spadGet y l.2.1 size)
        gives old ∧ u = if go old then (z.spadPut x.co l.2.1 (toBytes (new old b) size)).noteStale
          ⟨x.co, x.ts, true, l.2.1, z.spadGet y l.2.1 size⟩ (toBytes (new old b) size) else z
      else l.2.1 % size = 0 ∧ ∃ q w bs y, s.atomPlace x.ci x.ctx l.2.1 = (.ok q, w) ∧
        (w.recall x.ci (q.pa / 128)).readPhys q.world q.pa size = (.ok bs, y) ∧
        let old := ofBytes bs
        let z := y.countAtom x.ci q.pa
        gives old ∧ if go old then ∃ v, z.writePhys q.world q.pa (toBytes (new old b) size) = (none, v) ∧
            u = v.noteStale ⟨x.co, x.ts, false, q.pa, bs⟩ (toBytes (new old b) size)
          else u = z
    ∀ i dst e' back, (i, dst, e', back) ∈
        [(Instr.atom p d a b e op sp, some d, e, false), (.atomr p d a b e op sp, some d, e, true), (.red p a b op sp, none, 0, false)] →
      let f := atomForm p dst a b e' op sp
      let on := x.on c f
      let ls := on.map fun k => (k, c.args f k)
      -- the lanes that would complete get their registers first
      let dry := (doneLanes (atomInstr.byKey (s.atomLanes x op.toNat t back sp ls).1)).map Prod.fst
      let h : List Nat × State := match f.dst with
        | some q => s.allocate x q dry
        | none => (dry, s)
      let c1 : Cohort := { c with high := hi }
      Ready s i f x c →
      ((∀ k ∈ on, k ∈ dry ∧ k ∈ h.1) → h.2.laneOrder (ls.map fun l => (l.1, ea l.2, l.2)) = (o, s0) →
        Runs (does back) (fun l => r l.1) s0 o s1 → s1.cohorts = modify h.2.cohorts x.co (fun y => { y with high := hi }) →
        ∃ n, exec i s = .next n ∧
          Wrote { s1 with cohorts := modify s.cohorts x.co fun _ => c1 } n x c1 f.dst on x.ts (fun k => (r k).val) fun _ u => u.advance x.len) ∧
      (x.ts = [k] → held s k = true →
        exec i s = .next (s.takeTraps x.co x.g [(k, x.cause .regionViolation (ea (c.args f k)))])) ∧
      (x.ts = [k] → held s k = false → ea (c.args f k) % size ≠ 0 →
        exec i s = .next (s.takeTraps x.co x.g [(k, x.cause .alignFault (ea (c.args f k)))]))

/-- R146, R147, R152, R153: `ldq` appends an entry that its load fills later; `pref` changes no value and traps nowhere;
a fence lets on only the threads none of whose commands, or writes that a command left behind (R170), are outstanding;
`cflush` and `cinval` write back the lines that they name, seal them, and change no byte of memory, and `cinval` drops the
clean copies. Where the L1 TLB holds the page of every lane's address, a prefetch or a flush changes no byte of memory at
all; a walk may find a table that cannot be read, which is reported (R309, R312). -/
def Obligations.QueueLoadsFencesAndCaches : Prop :=
  ∀ (s s1 : State) (x : Issue) (c : Cohort) (p : Option Pfx) (d a b : Sel) (o24 : BitVec 24) (cl : BitVec 2) (sx : Bool)
    (sh : BitVec 3) (v : Nat → Nat) (bind : QBind),
    let idle : Nat → Thread → Thread := fun _ u => u.advance x.len
    let ref (long : Bool) : MemRef := if long then longRef false a b o24 cl sx sh else shortRef false a b
    let hit (va : Nat) : Prop := ∃ e ∈ (s.cluster x.ci).tlb, e.hits x.ctx va = true
    -- ldq
    (∀ i long, (i, long) ∈ [(Instr.ldq p d a b, false), (.ldqOfs p d a b o24 cl sx sh, true)] →
      let t := memType p
      let f : Form := { memForm p (ref long) true [] none with ill := (memForm p (ref long) true [] none).ill || decide (125 ≤ d.toNat) }
      let on := x.on c f
      let role := roleOf c on
      let q := d.toNat - 112
      let key := 8 * role + q
      let new := if t.isPair then [c.fresh, c.fresh + 1] else [c.fresh]
      let sp := (c.crewOf (x.ts.head?.getD 0)).sp
      let e : Cohort := { c with
        queues := modify c.queues key fun y => { y with entries := y.entries ++ new.map fun n => (n, none) }
        pends := insert c.pends (c.fresh + 2)
          ⟨.ldq role q bind.serial new, .drop, sp, on.map fun k => (k, t.toReg (v k)), c.fresh + 2⟩ }
      Ready s i f x c → oneRole c on = true →
      (isQueue d = true → find? c.queues key = some bind → bind.kind = 3 →
        (bind.entries.length + new.length ≤ 16 →
          Runs (fun s k n u => s.load x false ((ref long).ea (c.args f k)) (t.width / 8) (ref long).cl = (.ok n, u)) v s on s1 →
          find? s1.cohorts x.co = some c → ∃ n, exec i s = .next n ∧ Moves s1 n x c e [] [x.ts] idle) ∧
        (16 < bind.entries.length + new.length → exec i s = .next (s.pushWaits x (.loads key new.length) on []))) ∧
      (isQueue d = false ∨ (c.qbind? role q).map QBind.kind ≠ some 3 → on = x.ts →
        exec i s = .next (s.takeTraps x.co x.g (x.ts.map fun k => (k, x.cause .accessFault 0))))) ∧
    -- pref
    (∀ i long, (i, long) ∈ [(Instr.pref p a b, false), (.prefOfs p a b o24 cl sx sh, true)] →
      let f := memForm p (ref long) false [] none
      let ea (k : Nat) : Nat := (ref long).ea (c.args f k)
      let t := (x.on c f).foldl (fun s k => s.prefetch x (ea k) (ref long).cl) s
      Ready s i f x c → ∃ n, exec i s = .next n ∧ n.mem = t.mem ∧ n.lines = t.lines ∧
        (find? t.cohorts x.co = some c → Moves t n x c c [] [x.ts] idle) ∧
        ((∀ k ∈ x.on c f, hit (ea k)) → find? t.cohorts x.co = some c ∧ n.mem = s.mem ∧ n.lines = s.lines)) ∧
    -- fences
    (∀ i sys, (i, sys) ∈ [(Instr.fenceEng p, false), (.fenceSys p, true)] →
      let on := x.on c (bareMem p)
      let stuck (k : Nat) : Prop :=
        (∃ y ∈ s.cmds, y.2.cohort = x.co ∧ k ∈ y.2.threads ∧ (∀ st f a, y.2.state ≠ .ended st f a) ∧
          if sys then s.toHost y.2 = true else (nth y.2.words 0 0).getLsbD 20 = false) ∨
        ∃ y ∈ s.late, y.2.cohort = x.co ∧ k ∈ y.2.threads ∧ (sys = true → y.2.sp = false ∧ isHost y.2.pos = true)
      ∀ go, (∀ k, k ∈ go ↔ k ∈ x.ts ∧ ¬ (k ∈ on ∧ stuck k)) → Ready s i (bareMem p) x c →
        ∃ n, exec i s = .next n ∧
          (go ≠ [] → Moves (if sys then s else s.dropStale x.co (on.filter go.contains)) n x c c [] [go] idle) ∧ n.mem = s.mem) ∧
    -- cflush, cinval
    (∀ i long drop, (i, long, drop) ∈ [(Instr.cflush p a b, false, false), (.cflushOfs p a b o24 cl sx sh, true, false),
        (.cinval p a b, false, true), (.cinvalOfs p a b o24 cl sx sh, true, true)] →
      let f := memForm p (ref long) false [] none
      let on := x.on c f
      let ea (k : Nat) : Nat := (ref long).ea (c.args f k)
      let does (t : State) : Prop :=
        Runs (fun s k (_ : Unit) u => s.lineOp x (ea k) drop = (.done ⟨0, 0, none⟩, u)) (fun _ => ()) s on t
      Ready s i f x c →
        (does s1 → find? s1.cohorts x.co = some c → ∃ n, exec i s = .next n ∧ Moves s1 n x c c [] [x.ts] idle) ∧
        ((∀ k ∈ on, ∃ e, (s.cluster x.ci).tlb.find? (fun e => e.hits x.ctx (ea k / 128 * 128)) = some e ∧
            ∃ q, s.placeIn e (ea k / 128 * 128) Need.read = .ok q) →
          ∃ n t, does t ∧ exec i s = .next n ∧ Moves t n x c c [] [x.ts] idle ∧ n.mem = s.mem)) ∧
    ∀ ea drop q w, s.translate x.ci x.ctx (ea / 128 * 128) Need.read = (.ok q, w) →
      let n := q.pa / 128
      ∃ u, s.lineOp x ea drop = (.done ⟨0, 0, none⟩, u) ∧ u.mem = w.mem ∧ u.cohorts = w.cohorts ∧ (u.line n).held = none ∧
        (∀ j, j ≠ n → find? u.lines j = find? w.lines j) ∧
        (∀ o, (w.line n).held = some o → (u.line n).tag = o.1 ∧ (u.line n).epoch = (w.tdi o.1).epoch ∧
          (u.line n).writes = ((w.line n).writes + 1) % 2 ^ 64) ∧
        (drop = true → ∀ e ∈ (u.die (dieOf x.ci)).rdc, e.1 ≠ n)

/-- R155, R163, R165: `qbind` marks its destination empty and owes a status, with which the binding is made or refused;
`spat` binds a stream at position 0, where its base and strides are multiples of the element size, and `sfree` frees it; of a port
that is not bound it raises ACCESS_FAULT (R31). -/
def Obligations.BindingsAndStreams : Prop :=
  ∀ (s : State) (x : Issue) (c : Cohort) (p : Option Pfx) (d a b e : Sel) (kind : BitVec 4) (sig trapq : Bool) (dir : BitVec 2)
    (sp : Bool) (ety : BitVec 4) (rowlen : BitVec 12),
    let idle : Nat → Thread → Thread := fun _ u => u.advance x.len
    -- qbind
    (let i : Instr := .qbind p d a e kind sig trapq
      let f := qbindForm p d a e kind sig trapq
      ReadyLow s i f x c → oneRole c (x.on c f) = true → isSlot d = true ∨ isScalar d = true ∨ d = 124 →
      StatusIssues s s i f (statusDst d) x c fun s =>
        (.qbind (roleOf c (x.on c f)) (e.toNat - 112) kind.toNat sig trapq (BitVec.ofNat 64 (x.low c f 0)), 0, s)) ∧
    -- spat
    (let i : Instr := .spat p d a b e dir sp ety rowlen
      let f := spatForm p d a b e dir sp ety
      let size := ((tyInt ety.toNat).getD .b32).width / 8
      let base := if sp then x.low c f 0 % 2 ^ 32 else x.low c f 0
      let es := x.low c f 2 % 2 ^ 32
      let rs := x.low c f 2 / 2 ^ 32
      let y : Stream := {
        base := BitVec.ofNat 64 base, count := BitVec.ofNat 32 (x.low c f 1), estride := BitVec.ofNat 32 es
        rstride := BitVec.ofNat 32 rs, rowlen := rowlen.toNat + 1, ety := ety.toNat, write := decide (dir = 1), sp := sp, pos := 0 }
      ReadyLow s i f x c → oneRole c (x.on c f) = true →
      (base % size = 0 ∧ es % size = 0 ∧ rs % size = 0 →
        ∃ t, exec i s = .next t ∧ Moves s t x c
          { c with streams := insert c.streams (4 * roleOf c (x.on c f) + (d.toNat - 120)) y } [] [x.ts] idle) ∧
      (¬ (base % size = 0 ∧ es % size = 0 ∧ rs % size = 0) → x.on c f = x.ts →
        exec i s = .next (s.takeTraps x.co x.g (x.ts.map fun k => (k, x.cause .alignFault 0))))) ∧
    -- sfree
    (let i : Instr := .sfree p a
      let f : Form := { bareMem p with ill := !isStream a }
      let key := 4 * roleOf c (x.on c f) + (a.toNat - 120)
      Ready s i f x c → oneRole c (x.on c f) = true →
      ((find? c.streams key).isSome → ∃ t, exec i s = .next t ∧ Moves s t x c { c with streams := erase c.streams key } [] [x.ts] idle) ∧
      (find? c.streams key = none → x.on c f = x.ts →
        exec i s = .next (s.takeTraps x.co x.g (x.ts.map fun k => (k, x.cause .accessFault 0)))))

/-- R156, R158, R161, R162: `qtry` pops the oldest entry into the lanes and sets its predicate, or pushes the lanes' values,
with zero from inactive ones; without an entry or a slot it clears the predicate and does nothing more. `qstat` tells the
binding's kind, its free slots, its entries and whether a pop or a push would be done. -/
def Obligations.QueueTries : Prop :=
  ∀ (s : State) (x : Issue) (c c1 : Cohort) (p : Option Pfx) (d a : Sel) (q : BitVec 3) (b : QBind) (w : Lanes) (ws : List Lanes),
    let i : Instr := .qtry p d a q
    let f := qtryForm p d a
    let on := x.on c f
    let role := roleOf c on
    let held : Prop := ∀ k ∈ on, ∀ u, c.thread? k = some u → u.idempotent = false
    let fresh : Prop := ∀ k ∈ on, ∀ u, c.thread? k = some u → u.latched = []
    let sets (v : Bool) : Nat → Thread → Thread := doneThread x f on fun _ => onlyPred q v
    let key (z : Sel) : Nat := 8 * role + (z.toNat - 112)
    let crew := on.head?.getD 0 / 32
    let pushed : Lanes := (List.range 32).map fun n => match on.find? fun k => k % 32 == n with
      | some k => BitVec.ofNat 32 (arg (c.args f k) 0)
      | none => 0
    -- qstat
    (let i : Instr := .qstat p d a
      let f := qstatForm p d a
      Ready s i f x c → oneRole c (x.on c f) = true →
      let key := 8 * roleOf c (x.on c f) + (a.toNat - 112)
      let word (kind free held : Nat) (ready : Bool) : Nat :=
        kind * 2 ^ 24 + min free 255 * 2 ^ 16 + min held 255 * 2 ^ 8 + if ready then Status.ok.code else Status.busy.code
      let v : Nat := match find? c.queues key with
        | none => word 0 0 0 false
        | some b =>
          let n := (s.readyEntries c b).length
          let free := s.pushFree x.co key ((x.on c f).head?.getD 0 / 32) b
          if isPop b.kind then word (b.kind % 16) 0 n (decide (0 < n)) else word (b.kind % 16) free (s.pushHeld x.co key b) (decide (0 < free))
      Completes s i f x c fun _ => onlyVal v) ∧
    (oneRole c on = true → fresh →
    -- a pop
    (isQueue a = true → find? c.queues (key a) = some b → isPop b.kind = true →
      let g : Form := { f with srcs := [] }
      Ready s i g x c → (b.kind = 2 ∨ b.kind = 6 ∨ b.kind = 8 → held) →
      (s.readyEntries c b = w :: ws → (b.kind = 7 → b.trapq = true → bits (nth w 0 0).toNat 8 8 = 0) →
        find? (s.dropEntry x.co (key a)).cohorts x.co = some c1 →
        ∃ t, exec i s = .next t ∧
          Wrote (s.dropEntry x.co (key a)) t x c1 f.dst on x.ts (fun k => (nth w (k % 32) 0).toNat) (sets true)) ∧
      (s.readyEntries c b = [] → ∃ t, exec i s = .next t ∧ Wrote s t x c none on x.ts (fun _ => 0) (sets false))) ∧
    -- a push
    (isQueue d = true → find? c.queues (key d) = some b → isPush b.kind = true →
      let g : Form := { f with dst := none }
      Ready s i g x c → (b.kind = 4 ∨ b.kind = 5 → held) →
      (0 < s.pushFree x.co (key d) crew b → (b.kind = 1 → b.sig = true → cmdOpc pushed = 15) →
        ∃ t, exec i s = .next t ∧ Wrote (s.pushEntry x.co (key d) b on pushed) t x c none on x.ts (fun _ => 0) (sets true)) ∧
      (s.pushFree x.co (key d) crew b = 0 → ∃ t, exec i s = .next t ∧ Wrote s t x c none on x.ts (fun _ => 0) (sets false))))

/-- R169, R170: `cpy`, `gath` and `coll` read a record of 64 bytes from scratchpad, put their own header fields into its first
word and push it to their engine; a record that is not valid raises RESERVED_FIELD, one that a signal-class binding does
not take ACCESS_FAULT, and where no slot is free the push waits. -/
def Obligations.CommandsPushed : Prop :=
  ∀ (s : State) (x : Issue) (c : Cohort) (p : Option Pfx) (d a : Sel) (tag : BitVec 8) (evt outq acq rel : Bool) (scope : BitVec 3)
    (ba : Bool) (barr : BitVec 4) (b : QBind) (z : Trap),
    ∀ i engine, (i, engine) ∈ [(Instr.cpy p d a tag evt outq acq rel scope ba barr, 0), (.gath p d a tag evt outq acq rel scope ba barr, 1),
        (.coll p d a tag evt outq acq rel scope ba barr, 2)] →
    let f := form6 p [srcWord (polA p) a] none (!isQueue d || !sel32 a) (decide (5 ≤ scope.toNat))
    let on := x.on c f
    let crew := on.head?.getD 0 / 32
    let key := 8 * roleOf c on + (d.toNat - 112)
    let at_ := x.low c f 0 % 2 ^ 32
    -- the banks of the record are reached (R261)
    let s0 := s.touchSpad c at_ 64
    let bytes := s0.spadGet c at_ 64
    let word (n : Nat) : Nat := ofBytes ((bytes.drop (4 * n)).take 4)
    let head := tag.toNat * 2 ^ 24 + evt.toNat * 2 ^ 23 + outq.toNat * 2 ^ 22 + acq.toNat * 2 ^ 21 + rel.toNat * 2 ^ 20 +
      scope.toNat * 2 ^ 17 + ba.toNat * 2 ^ 16 + barr.toNat * 2 ^ 12 + word 0 % 2 ^ 12
    let ws := BitVec.ofNat 32 head :: ((List.range 15).map fun n => BitVec.ofNat 32 (word (n + 1)))
    let y : Cmd := {
      ci := c.ci, engine := engine, cohort := x.co, ctx := c.ctx, world := c.world, threads := on, words := ws, key := key
      reserved := if s0.ordinaryUsed c.ci engine < 32 then none else some crew
      state := .queued, progress := 0, parked := none, slotKey := none, plain := none, seen := []
      -- with ACQ = 0 it may read what its threads' stores replaced (R170)
      stale := if acq then [] else s0.stale.filter fun e => e.cohort == x.co && e.threads.any fun k => on.contains k
      serial := s0.fresh }
    let trap (t : State) (z : Trap) (addr : Nat) : Prop :=
      on = x.ts → exec i s = .next (t.takeTraps x.co x.g (x.ts.map fun k => (k, x.cause z addr)))
    ReadyLow s i f x c → oneRole c on = true → find? c.queues key = some b → b.kind = 1 →
      (c.spadCheck at_ 64 false = some z → trap s z at_) ∧
      (c.spadCheck at_ 64 false = none → s0.spadPoisoned c at_ = true → trap s0 .poison at_) ∧
      (c.spadCheck at_ 64 false = none → s0.spadPoisoned c at_ = false →
        (b.target.toNat % 4 ≠ engine ∨ cmdOk engine ws = false → trap s0 .reservedField 0) ∧
        (b.target.toNat % 4 = engine → cmdOk engine ws = true →
          (b.sig = true → cmdOpc ws ≠ 15 → trap s0 .accessFault 0) ∧
          ((b.sig = true → cmdOpc ws = 15) →
            (s0.pushFree x.co key crew b = 0 → exec i s = .next (s0.pushWaits x (.slot key 1 crew) on [])) ∧
            (0 < s0.pushFree x.co key crew b →
              ∃ t, exec i s = .next t ∧
                Moves { s0 with cmds := insert s0.cmds s0.fresh y, fresh := s0.fresh + 1 } t x c c [] [x.ts] fun _ u => u.advance x.len))))

/-- R169 to R173, R314, R336: an engine's command starts when no earlier one of its binding waits; a record that is not valid
ends REFUSED; a copy moves piece after piece and a gather element after element; a decrypting copy checks its key slot
and counter, then its tag, and writes only then; a collective runs its elements or ends REFUSED; a signal ends when
every earlier command of its cohort has. An ended command arrives at its barrier and posts its records. -/
def Obligations.CommandsRun : Prop :=
  ∀ (s s1 s2 : State) (id : Nat) (c c' : Cmd) (bs : List Byte) (peers : List (List DWord)) (tagFail : Bool) (key : Digest)
    (y : KeySlot) (st fault addr : Nat),
    let may : Prop := c.state = .queued ∧ s.canStart id c = true ∨ c.state = .running ∧ c.parked = none
    let run : Cmd := { c with state := .running }
    let w (n : Nat) : Nat := cmdWord c.words n
    let put (s : State) (c : Cmd) : Host.Outcome State Fault Refusal := .next { s with cmds := insert s.cmds id c }
    let ended (c : Cmd) (st : Status) : Cmd := { c with state := .ended st.code 0 0, plain := none }
    find? s.cmds id = some c →
      -- a record that is not valid
      (c.state = .queued → s.canStart id c = true → cmdOk c.engine c.words = false →
        ∀ i e, (i, e) ∈ [(Instr.copy id, 0), (.decryptingCopy id, 0), (.gather id, 1), (.collective id peers tagFail, 2), (.signal id, c.engine)] →
        c.engine = e → exec i s = put s (ended c .refused)) ∧
      (cmdOk c.engine c.words = true → may →
        -- copy
        (c.engine = 0 → cmdOpc c.words = 0 →
          let z := copyPiece c.words c.progress
          s.cmdRead run (bits (w 10) 0 2) z.1 z.2.2 = (.done bs, s1) → s1.cmdWrite run (bits (w 10) 2 2) z.2.1 bs = (.done (), s2) →
          let n := c.progress + z.2.2
          exec (.copy id) s = put s2 (if w 6 * w 7 ≤ n then ended { run with progress := n } .ok else { run with progress := n })) ∧
        -- decrypting copy
        (c.engine = 0 → cmdOpc c.words = 1 →
          (c.state = .queued → s.quarantined c.ci + w 6 ≤ 65536 ∧ s.unchecked (bits (w 10) 8 8) = false) →
          let sp := bits (w 10) 2 2
          let slot := bits (w 10) 8 8
          let iv := BitVec.ofNat 96 (cmdDword c.words 12 * 2 ^ 32 + w 11)
          (c.slotKey = none → (∀ y, find? s.sec.slots slot = some y → y.ctx ≠ c.ctx) →
            exec (.decryptingCopy id) s = put s (ended run .refused)) ∧
          (c.slotKey = none → find? s.sec.slots slot = some y → y.ctx = c.ctx →
            s.gcmDest run sp (cutSpan (cmdDword c.words 4) (w 6)) = (.done (), s1) → find? s1.sec.slots slot = some y →
            exec (.decryptingCopy id) s = if w 11 ≤ y.last then put s1 (ended run .ivReuse) else
              put { s1 with sec := { s1.sec with slots := insert s1.sec.slots slot { y with last := w 11 } } } { run with slotKey := some y.key }) ∧
          (c.slotKey = some key → c.plain = none →
            s.cmdReads run (bits (w 10) 0 2) (cutSpan (cmdDword c.words 2) (w 6 + 16)) = (.done bs, s1) →
            exec (.decryptingCopy id) s = if Config.gcmTag key iv (bs.take (w 6)) = bs.drop (w 6) then
              put s1 { run with plain := some (Config.gcmDecrypt key iv (bs.take (w 6))) } else put s1 (ended run .tagfail)) ∧
          ∀ q, c.slotKey = some key → c.plain = some bs → (cutLines (cmdDword c.words 4 + c.progress) (bs.drop c.progress)).head? = some q →
            s.cmdWrite run sp (q.1 % spaceMod sp) q.2 = (.done (), s1) →
            let n := c.progress + q.2.length
            exec (.decryptingCopy id) s = put s1 (if bs.length ≤ n then ended { run with progress := n } .ok else { run with progress := n })) ∧
        -- gather
        (c.engine = 1 → cmdOpc c.words = 2 → c.progress < w 8 → s.gatherElement run = (.done c', s1) →
          exec (.gather id) s = put s1 (if w 8 ≤ c'.progress then ended c' .ok else c')) ∧
        -- collective
        (c.engine = 2 → cmdOpc c.words = 3 →
          (c.state = .queued → s.collRefused c = true → exec (.collective id peers tagFail) s = put s (ended c .refused)) ∧
          ((c.state = .queued → s.collRefused c = false) →
            let g := w 8
            -- as it starts, its world's counter rises, and its ports have served a request of its context (R333)
            let s0 := if c.state = .queued then
              (s.groupPorts g).foldl (fun s p => s.takes (256 * (p / 9) + 244 + p % 9) c.ctx) (if c.world = 0 then s else
                { s with fab := { s.fab with counters := insert s.fab.counters g (findD s.fab.counters g 0 + 1) } })
              else s
            let n := s0.collTotal run - c.progress
            (tagFail = true → c.world ≠ 0 → exec (.collective id peers tagFail) s =
              put s0 { run with state := .ended Status.partialDone.code Trap.integrityFault.code 0 }) ∧
            (¬ (tagFail = true ∧ c.world ≠ 0) →
              Runs (fun s m (_ : Unit) u => s.collElement { run with progress := c.progress + m } peers = (.done (), u)) (fun _ => ()) s0
                (List.range n) s1 →
              exec (.collective id peers tagFail) s = put s1 (ended { run with progress := c.progress + n } .ok)))) ∧
        -- signal
        (cmdOpc c.words = 15 → exec (.signal id) s =
          if s.cmds.any (fun p => decide (p.1 < id) && p.2.cohort == c.cohort && p.2.engine == c.engine) then put s run else put s (ended c .ok))) ∧
      -- completion
      (c.state = .ended st fault addr →
        let h := w 0
        let s0 : State := { s with cmds := erase s.cmds id }
        let b := (find? s.cohorts c.cohort).map fun k => k.bar (bits h 12 4)
        let inert : Bool := bit h 16 && (b.map Barrier.inert).getD true
        let u := if bit h 16 && !inert then (s0.arriveBar c.cohort (bits h 12 4) 1).getD s0 else s0
        let bad : Bool := inert && st == Status.ok.code
        let r : CRec := {
          tag := bits h 24 8, fault := if bad then Trap.accessFault.code else fault, source := c.engine, opc := bits h 0 4
          status := if bad then Status.partialDone.code else st, progress := c.progress, addr := addr, failed := [] }
        let v := if bit h 23 then u.postEvent c.ci r else u
        exec (.engineCommandComplete id) s = .next (if bit h 22 then v.postOut c.ci c.engine r else v))

/-- R174, R178, R181: `mdesc` loads a descriptor whose fields are within their limits and raises RESERVED_FIELD for any other;
`mrow` gives the head operation of the sub-partition's unit, `mrow.wait` the same once the cohort has none of its
descriptor under way. -/
def Obligations.MatrixDescriptors : Prop :=
  ∀ (s s1 : State) (x : Issue) (c : Cohort) (p : Option Pfx) (d a : Sel) (md : BitVec 3) (sp : Bool) (v : Nat),
    let idle : Nat → Thread → Thread := fun _ u => u.advance x.len
    let row (k : Nat) : Nat := match nth (s.cluster x.ci).mxu (c.crewOf k).sp [] with
      | [] => 0
      | o :: os => (if o.parked.isSome then 2 ^ 31 else 0) + o.md % 8 * 2 ^ 28 + min (os.length + 1) 4 * 2 ^ 25 + o.krow
    -- mdesc
    (let i : Instr := .mdesc p md a sp
      let f := form6 p [baseSrc sp p a] none (!baseSel sp a) false
      let on := x.on c f
      let ea := if sp then x.low c f 0 % 2 ^ 32 else x.low c f 0
      ReadyLow s i f x c → s.load x sp ea 64 0 = (.ok v, s1) → find? s1.cohorts x.co = some c →
      match parseDesc (toBytes v 64) (nth c.hdr.window (roleOf c on) 0) with
      | some m => ∃ t, exec i s = .next t ∧ Moves s1 t x c { c with mds := insert c.mds md.toNat m } [] [x.ts] idle
      | none => on = x.ts → exec i s = .next (s1.takeTraps x.co x.g (x.ts.map fun k => (k, x.cause .reservedField 0)))) ∧
    -- mrow
    (let i : Instr := .mrow p d
      let f := form6 p [] (some (statusDst d)) (!statusSel d) false
      Ready s i f x c → Completes s i f x c fun k => onlyVal (row k)) ∧
    -- mrow.wait
    (let i : Instr := .mrowWait p d md
      let f := form6 p [] (some (statusDst d)) (!statusSel d) false
      let k := (x.on c f).head?.getD 0
      ReadyLow s i f x c → (∀ q ∈ c.pends, q.1 < c.fresh) →
      -- no other wait has come to its end
      (∀ q ∈ s.cohorts, q.2.ci = x.ci → ∀ n ∈ q.2.pends, ∀ m j, n.2.kind = .mrow m j → s.opsDone q.1 x.ci m = false) →
      -- no round waits for its scales (R176)
      (∀ cv < 8, (c.conv cv).inert = true ∨ (c.conv cv).signed = 0 ∨ (c.conv cv).signed < (c.conv cv).expect) →
      if s.opsDone x.co x.ci md.toNat = true then Completes s i f x c fun _ => onlyVal (row k)
      else StatusIssues s s i f (statusDst d) x c fun s => (.mrow md.toNat (c.crewOf k).sp, 0, s))

/-- R175 to R177: each active thread signs for the round; one that is no member of the set raises ACCESS_FAULT, one that has
signed waits for the round to end, one that names another descriptor raises RESERVED_FIELD; the signature that makes
SIGNED equal EXPECT queues one operation, with the descriptor that was captured first, or counts a dropped round, and
releases those that wait; it waits as a push does while the unit is full, and as a read does for empty scale registers. `mma.elect` queues one operation for its issue. -/
def Obligations.MatrixSigning : Prop :=
  ∀ (s : State) (x : Issue) (c : Cohort) (p : Option Pfx) (md cv : BitVec 3) (evt acq rel : Bool) (scope : BitVec 3) (m : MDesc)
    (k : Nat) (u : Thread),
    let idle : Nat → Thread → Thread := fun _ u => u.advance x.len
    let F : MFlags := ⟨evt, acq, rel, scope.toNat⟩
    let v := c.conv cv.toNat
    let j := 16 + cv.toNat
    let tally (u : Thread) : FMap Nat := insert u.acts j (findD u.acts j 0 + 1)
    let counted (r : RcReg) (s t : State) : Prop := s.counter r x.ci < 2 ^ 64 - 1 → t.counter r x.ci = s.counter r x.ci + 1
    (∀ i names, (i, names) ∈ [(Instr.msign p cv, false), (.mma p md cv evt acq rel scope, true)] →
      let f := form6 p [] none false (names && decide (5 ≤ scope.toNat))
      let on := x.on c f
      let w : Conv := if names then { v with md := some (v.md.getD (md.toNat, m)), flags := v.flags.or F } else v
      let signs (n : Nat) : Conv := { w with signed := v.signed + n }
      let trap (z : Trap) : Prop := x.ts = [k] → exec i s = .next (s.takeTraps x.co x.g [(k, x.cause z 0)])
      Ready s i f x c → (names = true → find? c.mds md.toNat = some m) →
      (names = true → c.thread? k = some u → u.idempotent = true → trap .regionViolation) ∧
      ((∀ k ∈ on, ∀ u, c.thread? k = some u → findD u.absorb j 0 = 0 ∧ (names = true → u.idempotent = false)) →
        (v.inert = true ∨ k ∉ v.members → trap .accessFault) ∧
        (v.inert = false → x.ts = [k] → k ∈ v.members → k ∈ v.marks → c.thread? k = some u →
          ∃ t d, exec i s = .next t ∧ Apart x.co [] s t ∧ find? t.cohorts x.co = some d ∧ d = { c with threads := d.threads } ∧
            (∀ n, n ≠ k → d.thread? n = c.thread? n) ∧ d.thread? k = some { u with run := .convWait x.g cv.toNat }) ∧
        (v.inert = false → k ∈ v.members → k ∉ v.marks → names = true → (∃ q, v.md = some q ∧ q.1 ≠ md.toNat) → trap .reservedField) ∧
        -- signatures that leave the round open
        (v.inert = false → (∀ k ∈ on, k ∈ v.members ∧ k ∉ v.marks) → (names = true → ∀ q, v.md = some q → q.1 = md.toNat) →
          v.signed + on.length < v.expect → on.Nodup →
          ∃ t, exec i s = .next t ∧
            Moves s t x c { c with convs := insert c.convs cv.toNat { signs on.length with marks := on.reverse ++ v.marks, last := on.getLast? } }
              [] [x.ts] fun k u => if k ∈ on then { u.advance x.len with acts := tally u } else u.advance x.len) ∧
        -- the signature that completes it
        (v.inert = false → x.ts = [k] → k ∈ v.members → k ∉ v.marks → (names = true → ∀ q, v.md = some q → q.1 = md.toNat) →
          v.signed + 1 = v.expect →
          let full := signs 1
          (s.unitCan x.co k full = false → s.stallDue x.co x.g = false → exec i s = .next (s.beginWait x (.unit (c.crewOf k).sp))) ∧
          (s.unitCan x.co k full = false → s.stallDue x.co x.g = true → trap .queueStall) ∧
          (s.unitCan x.co k full = true → s.roundCan x.co k full = false → exec i s = .next s) ∧
          (s.roundCan x.co k full = true → (∀ n ∈ v.members, (c.thread? n).isSome) → c.thread? k = some u →
            ∃ t d, exec i s = .next t ∧ find? t.cohorts x.co = some d ∧
              find? d.convs cv.toNat =
                some { v with signed := 0, md := none, marks := [], flags := ⟨false, false, false, 0⟩, last := none } ∧
              (∃ g, d.thread? k = some { u.advance x.len with acts := tally u, run := .group g }) ∧
              (∀ n y, n ≠ k → c.thread? n = some y → match y.run with
                | .convWait _ i => if i = cv.toNat then ∃ g, d.thread? n = some { y with run := .group g } else d.thread? n = some y
                | _ => d.thread? n = some y) ∧
              match full.md with
              | none => counted .cluMmaDrop s t ∧ t.clusters = s.clusters
              | some q => counted .cluMmaIssue s t ∧ ∃ o, (nth (t.cluster c.ci).mxu (c.crewOf k).sp []) =
                  (nth (s.cluster c.ci).mxu (c.crewOf k).sp []) ++ [o] ∧
                  o.cohort = x.co ∧ o.md = q.1 ∧ o.cv = cv.toNat ∧ o.desc = q.2 ∧ o.flags = full.flags ∧ o.krow = 0)))) ∧
    -- mma.elect
    (let i : Instr := .mmaElect p md evt acq rel scope
      let f := form6 p [] none (!s.selCompat) (decide (5 ≤ scope.toNat))
      let on := x.on c f
      let e := on.head?.getD 0
      let unit := nth (s.cluster x.ci).mxu (c.crewOf e).sp []
      Ready s i f x c → find? c.mds md.toNat = some m → (∀ k ∈ on, ∀ u, c.thread? k = some u → u.idempotent = false) →
      (4 ≤ unit.length → exec i s = .next (s.pushWaits x (.unit (c.crewOf e).sp) on [])) ∧
      (unit.length < 4 → c.scalesFull (e / 32) m = false → exec i s = .next s) ∧
      (unit.length < 4 → c.scalesFull (e / 32) m = true →
        ∃ t, exec i s = .next t ∧ Moves (s.queueOp x.co e on md.toNat 0 m F) t x c c [] [x.ts] idle))

/-- R179, R180: `macc.init` and `macc.flush` translate the lines of the accumulator tile, which for `macc.init` must be
device memory, and a flush its destinations, and owe a status. A flush whose row stride does not fit its elements raises RESERVED_FIELD. -/
def Obligations.AccumulatorsStart : Prop :=
  ∀ (s s1 s2 : State) (x : Issue) (c : Cohort) (p : Option Pfx) (d a : Sel) (md : BitVec 3) (keep evt : Bool) (scope : BitVec 3)
    (m : MDesc) (ps ds : List (Nat × Nat)) (u : Thread),
    find? c.mds md.toNat = some m →
    let lines := (8 * m.n + 127) / 128
    let tile := (List.range m.m).flatMap fun i => (List.range lines).map fun h => (m.caddr.toNat + i * m.cstride + 128 * h) % 2 ^ 64
    -- macc.init
    (let i : Instr := .maccInit p d md
      let f := form6 p [] (some (statusDst d)) (!statusSel d) false
      ReadyLow s i f x c → s.tilePlaces true x.ci x.ctx tile = (.done ps, s1) →
      StatusIssues s s1 i f (statusDst d) x c fun s =>
        (.maccInit (ps.map fun q => (q.1 / 128, q.2)) (if m.afmt = 7 then .a48 else .f64), 0, s)) ∧
    -- macc.flush
    (let i : Instr := .maccFlush p d a md keep evt scope
      let f := maccFlushForm p d a scope
      let on := x.on c f
      let t := elemTy p .f32
      let size := flushSize t
      let at_ := x.low c f 0
      let dests := (List.range m.m).flatMap fun i => (List.range m.n).map fun j => (at_ + i * m.fstride + j * size) % 2 ^ 64
      let trap (z : Trap) (addr : Nat) : Prop :=
        on = x.ts → exec i s = .next (s.takeTraps x.co x.g (x.ts.map fun k => (k, x.cause z addr)))
      ReadyLow s i f x c → c.thread? (on.head?.getD 0) = some u → (∀ k ∈ on, ∀ u, c.thread? k = some u → u.idempotent = false) →
      (m.fstride % size ≠ 0 ∨ m.fstride < m.n * size → trap .reservedField 0) ∧
      (m.fstride % size = 0 → m.n * size ≤ m.fstride →
        (at_ % size ≠ 0 → trap .alignFault at_) ∧
        (at_ % size = 0 → s.flushPlaces x.ci x.ctx size dests = (.done ds, s1) → s1.tilePlaces false x.ci x.ctx tile = (.done ps, s2) →
          StatusIssues s s2 i f (statusDst d) x c fun s =>
            (.flush {
              md := md.toNat, desc := m, keep := keep, evt := evt, ety := t, rnd := roundOf p u, sat := satOf p
              lines := ps.map Prod.fst, dests := ds }, 0, s))))

/-- R183 to R186, R268: `nwant` starts a request with the lifetime of its thread or of its tensor, and completes it REFUSED at
once where the name has no routing entry of the cohort's world; `noffer` owes a status; `nclose` raises the closed mark
of a tensor of the cohort's world, `nlife` sets NLIFE, and `mland` owes the status of its registration.
R185: raising the closed mark: `tid`'s routing entry then shows the iteration as closed, and a mark that is as high or
higher stays as it is. No byte of memory changes. -/
def Obligations.NamedTileInstructions : Prop :=
  (∀ (s s1 : State) (x : Issue) (c : Cohort) (p : Option Pfx) (d a b : Sel) (imm : BitVec 30) (port : BitVec 3) (ba : Bool)
    (barr : BitVec 4) (bd : QBind) (u : Thread) (ps : List (Nat × Nat)),
    let idle : Nat → Thread → Thread := fun _ u => u.advance x.len
    -- nwant
    (let i : Instr := .nwant p d a b
      let f := form6 p [srcOf .b64 (polA p) none a, srcWord (polB p) b] none (!isQueue d || !sel64 a || !sel32 b) false
      let on := x.on c f
      let role := roleOf c on
      let q := d.toNat - 112
      let name := BitVec.ofNat 64 (x.low c f 0)
      let off := x.low c f 1 % 2 ^ 32
      let entry := (s.nrt? (nameTid name)).map Prod.snd
      let bytes := (entry.map nrtBytes).getD 0
      let trap (z : Trap) (addr : Nat) : Prop :=
        on = x.ts → exec i s = .next (s.takeTraps x.co x.g (x.ts.map fun k => (k, x.cause z addr)))
      ReadyLow s i f x c → oneRole c on = true → c.thread? (on.head?.getD 0) = some u →
      ((c.qbind? role q).map QBind.kind ≠ some 7 → trap .accessFault 0) ∧
      (c.qbind? role q = some bd → bd.kind = 7 →
        (off % 128 ≠ 0 → trap .alignFault off) ∧
        (off % 128 = 0 → c.spadBytes < off + max bytes 1 → trap .accessFault off) ∧
        (off % 128 = 0 → off + max bytes 1 ≤ c.spadBytes →
          (16 ≤ s.wantsOut x.co role q bd.serial → exec i s = .next (s.pushWaits x (.request role q) on [])) ∧
          (s.wantsOut x.co role q bd.serial < 16 →
            ((∀ e, entry = some e → nrtWorld e ≠ c.world) →
              let w : Lanes := [2, BitVec.ofNat 32 name.toNat, BitVec.ofNat 32 (name.toNat / 2 ^ 32), BitVec.ofNat 32 off,
                BitVec.ofNat 32 bytes] ++ List.replicate 27 0
              ∃ t, exec i s = .next t ∧ Moves s t x c
                { c with queues := modify c.queues (8 * role + q) fun y =>
                    if y.serial = bd.serial then { y with entries := y.entries ++ [(0, some w)] } else y } [] [x.ts] idle) ∧
            (∀ e, entry = some e → nrtWorld e = c.world →
              let life := if u.nlife = 0 then nrtLife e else u.nlife.toNat
              let w : Want := {
                cohort := x.co, ci := x.ci, role := role, q := q, serial := bd.serial, name := name, off := off, bytes := bytes
                deadline := s.timer + life, state := .issued }
              ∃ t, exec i s = .next t ∧
                Moves { s with names := { s.names with wants := insert s.names.wants s.fresh w }, fresh := s.fresh + 1 } t x c c [] [x.ts] idle))))) ∧
    -- noffer
    (let i : Instr := .noffer p d a b
      let f := form6 p [srcOf .b64 (polA p) none a, srcOf .b64 (polB p) none b] (some (statusDst d))
          (!statusSel d || !sel64 a || !sel64 b) false
      let name := BitVec.ofNat 64 (x.low c f 0)
      let va := x.low c f 1
      ReadyLow s i f x c →
      (va % 128 ≠ 0 → x.on c f = x.ts →
        exec i s = .next (s.takeTraps x.co x.g (x.ts.map fun k => (k, x.cause .alignFault va)))) ∧
      (va % 128 = 0 → s.offerable c.world name = none → StatusIssues s s i f (statusDst d) x c fun s => (.noffer name [], 0, s)) ∧
      (∀ e, va % 128 = 0 → s.offerable c.world name = some e → s.offerLines x va (nrtBytes e / 128) = (.done ps, s1) →
        StatusIssues s s1 i f (statusDst d) x c fun s => (.noffer name ps, 0, s))) ∧
    -- nclose
    (let F (srcs : List Src) (ill res : Bool) : Form := form6 p srcs none ill res
      let closes (i : Instr) (f : Form) : Prop := ReadyLow s i f x c →
        let tid := x.low c f 0 % 2 ^ 16
        let named : Prop := (s.nrt? tid).map (fun e => nrtWorld e.2) = some c.world
        (¬ named → ∃ t, exec i s = .next t ∧ Moves s t x c c [] [x.ts] idle) ∧
        (∀ c1, named → find? (s.closeTensor tid (x.low c f 1 % 2 ^ 16)).cohorts x.co = some c1 → c1 = { c with queues := c1.queues } →
          ∃ t, exec i s = .next t ∧ Moves (s.closeTensor tid (x.low c f 1 % 2 ^ 16)) t x c1 c1 [] [x.ts] idle)
      closes (.nclose p a b) (F [srcWord (polA p) a, srcWord (polB p) b] (!sel32 a || !sel32 b) false) ∧
      closes (.ncloseImm p a b imm)
        (F [srcImm (polA p) imm.toNat a, srcImm (polB p) imm.toNat b] (!sel32I a || !sel32I b) (decide (2 ^ 16 ≤ imm.toNat)))) ∧
    -- nlife
    (let low := x.low c
      let sets (i : Instr) (f : Form) : Prop := ReadyLow s i f x c →
        ∃ t, exec i s = .next t ∧ Moves s t x c c [] [x.ts] fun k u =>
          if k ∈ x.on c f then { u.advance x.len with nlife := BitVec.ofNat 32 (low f 0) } else u.advance x.len
      sets (.nlife p a) (form6 p [srcWord (polA p) a] none (!sel32 a) false) ∧
      sets (.nlifeImm p a imm) (form6 p [srcImm (polA p) imm.toNat a] none (!sel32I a) imm.msb)) ∧
    -- mland
    (let i : Instr := .mland p d a b port ba barr
      let f := form6 p [srcWord (polA p) a, srcWord (polB p) b] (some (statusDst d)) (!statusSel d || !sel32 a || !sel32 b) false
      ReadyLow s i f x c → StatusIssues s s i f (statusDst d) x c fun s =>
        (.mland port.toNat (x.low c f 0 % 2 ^ 32) (x.low c f 1 % 2 ^ 32) ba barr.toNat, 0, s))) ∧
  (∀ (s : State) (tid iter i : Nat) (e : BitVec 128),
    s.nrt? tid = some (i, e) → iter < 2 ^ 16 →
      (nrtShut e iter = true → s.closeTensor tid iter = s) ∧
      (nrtShut e iter = false → ∃ t, s.closeTensor tid iter = t ∧ t.mem = s.mem ∧
        find? t.names.ents i = some (BitVec.ofNat 128 (setBits (setBits e.toNat 48 16 iter) 47 1 1))))

/-- R158, R186, R267: a message joins its port in the order of its binding, or is dropped, counted and reported with SOURCE 6;
a multicast copy fills the next slot of a registered landing buffer of its world and may arrive at a barrier, or is
dropped and counted; once no destination is left a send ends, with a record of SOURCE 7 where some copy was dropped. -/
def Obligations.MessagesAndMulticasts : Prop :=
  ∀ (s : State) (id ci : Nat) (m : Msg) (y : Mcast) (l : Landing) (c : Cohort),
    let rec_ (source : Nat) (failed : List Nat) : CRec := ⟨0, 0, source, 0, Status.partialDone.code, 0, 0, failed⟩
    let earlier : Bool := s.msgs.any fun p => decide (p.1 < id) && p.2.sender == m.sender && p.2.serial == m.serial &&
      p.2.dest == m.dest && p.2.port == m.port
    let port := nth (s.cluster m.dest).ports m.port Port.reset
    let rest : State := { s with msgs := erase s.msgs id }
    (find? s.msgs id = some m →
      (earlier = true → exec (.messageArrive id) s = .next s) ∧
      (earlier = false → port.owner = none →
        exec (.messageArrive id) s = .next ((rest.bump .cluStray m.dest 1).postEvent m.src (rec_ 6 [m.dest]))) ∧
      (earlier = false → port.owner ≠ none →
        exec (.messageArrive id) s = .next (rest.modCluster m.dest fun cl =>
          { cl with ports := setNth cl.ports m.port { port with items := port.items ++ [m.words] } }))) ∧
    (find? s.mcasts id = some y →
      let s0 : State := { s with mcasts := insert s.mcasts id { y with left := y.left.filter fun n => n != ci } }
      let room : Prop := find? (s.cluster ci).landing y.port = some l ∧ find? s.cohorts l.cohort = some c ∧ l.filled < l.slots ∧
        c.world = y.world ∧ c.yielding = none
      (ci ∈ y.left → room →
        let u := (s0.spadPut l.cohort (l.off + 128 * l.filled) (y.words.flatMap fun w => toBytes w.toNat 4)).modCluster ci fun cl =>
          { cl with landing := insert cl.landing y.port { l with filled := l.filled + 1 } }
        exec (.multicastDelivery id ci) s = .next (if l.ba then (u.arriveBar l.cohort l.barr 1).getD u else u)) ∧
      (ci ∈ y.left → (∀ l c, find? (s.cluster ci).landing y.port = some l → find? s.cohorts l.cohort = some c →
          l.slots ≤ l.filled ∨ c.world ≠ y.world ∨ c.yielding.isSome = true) →
        let u := ({ s0 with mcasts := modify s0.mcasts id fun m => { m with failed := m.failed ++ [ci] } }).bump .cluStray ci 1
        -- a barrier whose owed arrival is gone may be broken now (R198)
        exec (.multicastDelivery id ci) s = .next (match find? (s.cluster ci).landing y.port with
          | some l => u.testBars l.cohort
          | none => u)) ∧
      (y.left = [] →
        let u : State := { s with mcasts := erase s.mcasts id }
        exec (.multicastSendComplete id) s = .next (if y.failed = [] then u else u.postEvent y.src (rec_ 7 y.failed))))

/-- R183, R261, R270 to R272: an interest merges at its crossbar or goes on to its home slice, where it is served, refused,
expires or is recorded, and waits while the slice is in retention or its table is full; a return reaches every request of
its clusters and counts a stray where there is none, or where the cohort yields; at its deadline an interest ends with
EXPIRED. A request ends with an entry of five words and 27 zeros. -/
def Obligations.NamedTilesMove : Prop :=
  ∀ (s : State) (id ci : Nat) (w : Want) (m : Merge) (r : Return) (t : Tile) (e : BitVec 128) (slot : Nat) (i : Interest) (name : DWord)
    (mg tw : Bool),
    let g := groupOf w.ci
    let mine (n : Merge) : Bool := n.group == g && n.name == w.name
    let state (s : State) (z : WantState) : State :=
      { s with names := { s.names with wants := modify s.names.wants id fun w => { w with state := z } } }
    let table (s : State) (i : Interest) : State :=
      { s with names := { s.names with interests := insert s.names.interests w.name.toNat i } }
    -- no interest in the name that its deadline has passed is left
    let current : Prop := ∀ i, find? s.names.interests w.name.toNat = some i → s.timer ≤ i.deadline
    -- at the crossbar
    (find? s.names.wants id = some w → w.state = .issued → current → s.names.merges.find? mine = some m →
      let m' : Merge := ⟨g, w.name, max m.deadline w.deadline, (m.clusters ++ [w.ci]).eraseDups⟩
      let u := (state s .recorded).bump .nrtMerged (dieOf w.ci) 1
      exec (.interestRecord id) s = .next { u with names := { u.names with
        merges := u.names.merges.map fun n => if mine n then m' else n
        interests := modify u.names.interests w.name.toNat fun i => { i with deadline := max i.deadline w.deadline } } }) ∧
    -- at the home slice
    (find? s.names.wants id = some w → current → w.state = .issued ∧ s.names.merges.find? mine = none ∨ w.state = .waiting mg tw →
      let full : Bool := decide (64 ≤ (s.names.merges.filter fun n => n.group == g).length)
      let first : Bool := w.state == .issued
      let merged : Bool := if first then !full else mg
      let u : State :=
        if !first then s
        else if full then s.bump .nrtUnmerged (dieOf w.ci) 1
        else { s with names := { s.names with merges := s.names.merges ++ [⟨g, w.name, w.deadline, [w.ci]⟩] } }
      -- the vectors that it brings: its group, or its cluster
      let gs : List Nat := if merged then [g] else []
      let cs : List Nat := if merged then [] else [w.ci]
      let due := u.names.merges.foldl (fun n m => if merged ∧ m.name = w.name ∧ m.group = g then max n m.deadline else n) w.deadline
      let held := u.names.tiles.find? fun t => t.name == w.name
      let step := exec (.interestRecord id) s
      let end_ (st : Status) (code : Nat) : Host.Outcome State Fault Refusal := .next (u.endInterest w.name gs cs (some id) st code)
      (s.nrt? (nameTid w.name) = none → step = end_ .refused 0) ∧
      (s.nrt? (nameTid w.name) = some (slot, e) →
        (u.sliceAsleep (homeOf e w.name) = true →
          step = .next ((state u (.waiting merged (w.state == .waiting merged true))).wakeSlice (homeOf e w.name) w.ci)) ∧
        (u.sliceAsleep (homeOf e w.name) = false →
          (held = some t → step = .next ((state u .recorded).sendTile t gs cs)) ∧
          (held = none → nrtShut e (nameIter w.name) = true → step = end_ .refused 0x19) ∧
          (held = none → nrtShut e (nameIter w.name) = false → due < s.timer → step = end_ .expired 0x1A) ∧
          (held = none → nrtShut e (nameIter w.name) = false → s.timer ≤ due →
            (find? s.names.interests w.name.toNat = some i →
              step = .next (table (state u .recorded) ⟨max i.deadline due, (i.groups ++ gs).eraseDups, (i.direct ++ cs).eraseDups⟩)) ∧
            (find? s.names.interests w.name.toNat = none → u.tableUsed (homeOf e w.name) < 1024 →
              step = .next (table (state u .recorded) ⟨due, gs, cs⟩)) ∧
            (find? s.names.interests w.name.toNat = none → 1024 ≤ u.tableUsed (homeOf e w.name) →
              step = .next (if w.state = .waiting merged true then u
                else (state u (.waiting merged true)).bump .nrtTabWait (nrtHome e) 1)))))) ∧
    -- a return to one cluster
    (find? s.names.returns id = some r → s.reach r.name r.groups r.direct = [ci] →
      let u : State := { s with names := { s.names with
        returns := erase s.names.returns id
        merges := s.names.merges.filter fun m => !(m.name == r.name && r.groups.contains m.group) } }
      let ids := keys (filterMap s.names.wants fun _ w => w.name == r.name && w.ci == ci)
      (ids = [] → exec (.tileReturn id) s = .next (u.bump .cluStray ci 1).sweepTiles) ∧
      (∀ n, ids = [n] → find? s.names.wants n = some w →
        (((find? s.cohorts w.cohort).map fun c => c.yielding.isSome) = some true →
          exec (.tileReturn id) s = .next (({ u with names := { u.names with
            wants := modify u.names.wants n fun w => { w with state := .issued } } }).bump .cluStray w.ci 1).sweepTiles) ∧
        (((find? s.cohorts w.cohort).map fun c => c.yielding.isSome) = some false →
          let v := r.poison.foldl (fun s j => s.spadPoison w.cohort (w.off + 128 * j)) (u.spadPut w.cohort w.off (r.bytes.take w.bytes))
          exec (.tileReturn id) s = .next (v.endWant n .ok 0).sweepTiles))) ∧
    -- the deadline
    (find? s.names.interests name.toNat = some i →
      (s.timer < i.deadline → exec (.interestDeadline name) s = .next s) ∧
      (i.deadline ≤ s.timer → exec (.interestDeadline name) s =
        .next (({ s with names := { s.names with interests := erase s.names.interests name.toNat } }).endInterest name i.groups i.direct
          none .expired 0x1A))) ∧
    -- the entry
    (∀ st code c b, find? s.names.wants id = some w → find? s.cohorts w.cohort = some c → find? c.queues (8 * w.role + w.q) = some b →
      b.serial = w.serial →
      ∃ u d, s.endWant id st code = u ∧ find? u.cohorts w.cohort = some d ∧
        u = { s with cohorts := u.cohorts, names := { s.names with wants := erase s.names.wants id } } ∧
        (∀ k, k ≠ w.cohort → find? u.cohorts k = find? s.cohorts k) ∧ d = { c with queues := d.queues } ∧
        find? d.queues (8 * w.role + w.q) = some { b with entries := b.entries ++ [(0, some ([BitVec.ofNat 32 (code * 2 ^ 8 + st.code),
          BitVec.ofNat 32 w.name.toNat, BitVec.ofNat 32 (w.name.toNat / 2 ^ 32), BitVec.ofNat 32 w.off, BitVec.ofNat 32 w.bytes] ++
          List.replicate 27 0))] } ∧
        ∀ k, k ≠ 8 * w.role + w.q → find? d.queues k = find? c.queues k)

/-- R102, R231, R242: `exit` records the index, or in the prologue every index of the range, and the thread is gone: from its
divergence entries, those that a trap handler's frame saves among them, its group and the results it is owed; a cohort without a thread is ending. -/
def Obligations.ThreadsEnd : Prop :=
  ∀ (s s1 : State) (x : Issue) (c : Cohort) (k : Nat) (u : Thread),
    Goes s .exit x c → x.ts = [k] → c.thread? k = some u → rising c.threads = true → c.phase ≠ .saved →
      s.markAll c.grid c.ctx (c.marksOf s k) = (.ok, s1) → find? s1.cohorts x.co = some c →
      -- not every thread that is left is parked (R192)
      ((∀ p ∈ c.threads, p.1 = k) ∨ ∃ j v, j ≠ k ∧ c.thread? j = some v ∧ ∀ g o, v.run ≠ .parked g o) →
      ∃ t d, exec .exit s = .next t ∧ find? t.cohorts x.co = some d ∧ d.thread? k = none ∧
        (∀ j, j ≠ k → (d.thread? j).isSome = (c.thread? j).isSome) ∧ (∀ p ∈ d.pends, ∀ l ∈ p.2.lanes, l.1 ≠ k) ∧
        (∀ id ∈ u.masks, ∀ e, find? d.divs id = some e → k ∉ e.members) ∧
        ((∀ p ∈ c.threads, p.1 = k) → d.phase = .ending) ∧ t.mem = s1.mem

/-- R188 to R190, R233, R285: `freeze` ends the prologue: the ewe keeps the registers below the control role's ceiling and the
predicates, and each slot of a role becomes a lamb at its role's entry with an index of its own; padding gets none.
A nested `freeze` makes the lowest thread a parent that waits, with a range of its own; outside the prologue `freeze`
raises ILLEGAL_OP, and within it a nested one does. -/
def Obligations.TemplatesFreeze : Prop :=
  ∀ (s : State) (x : Issue) (c : Cohort) (g : Grid) (a : Sel) (k : Nat) (u : Thread),
    let busy (k : Nat) : Prop := s.pushing x.co k = true ∨ c.sampling k = true
    let quiet (k : Nat) : Prop := ¬ busy k ∧ ∀ p ∈ c.pends, ∀ l ∈ p.2.lanes, l.1 ≠ k
    let all (z : Trap) : Host.Outcome State Fault Refusal := .next (s.takeTraps x.co x.g (x.ts.map fun k => (k, x.cause z 0)))
    let first := c.coh * g.record.cohsz
    let count := min ((c.coh + 1) * g.record.cohsz) g.total - first
    let base (r : Nat) : Nat := 32 * ((c.hdr.crews.take r).foldl (· + ·) 0)
    let slot (r n : Nat) : Prop := r < 8 ∧ n < 32 * nth c.hdr.crews r 0 ∧ n < count ∧ g.padding (first + n) = false
    (Goes s .freeze x c → c.phase ≠ .prologue → exec .freeze s = all .illegalOp) ∧
    (Goes s .freeze x c → c.phase = .prologue → busy 0 → exec .freeze s = .next s) ∧
    (Goes s .freeze x c → c.phase = .prologue → quiet 0 → c.ewes ≠ [] → find? s.lch.grids c.grid = some g → c.thread? 0 = some u →
      ∃ t d, exec .freeze s = .next t ∧ find? t.cohorts x.co = some d ∧ t.mem = s.mem ∧
        (∀ r n, slot r n → ∃ y i, d.thread? (base r + n) = some y ∧ y.run = .group i ∧ y.role = r ∧ y.idx = first + n ∧
          y.pc = c.hdr.codeBase + BitVec.ofNat 64 (nth c.hdr.entries r 0) ∧ y.preds = u.preds ∧ y.flags = 0 ∧
          y.mode = BitVec.ofNat 32 (2 * c.hdr.rounding + c.hdr.ftz.toNat) ∧ y.wbase = 0 ∧ y.nlife = 0 ∧ y.loops = [] ∧ y.divs = [] ∧
          y.ovf = 0 ∧ y.frames = [] ∧ y.region = .entry) ∧
        (∀ key, (∀ r n, slot r n → key ≠ base r + n) → d.thread? key = none) ∧
        (∀ r, r < 32 * nth c.hdr.window 0 0 → findD (nth d.ewes 0 Ewe.empty).v r 0 = (c.vreg 0 r).1) ∧ (nth d.ewes 0 Ewe.empty).p = u.preds ∧
        ((∃ r n, slot r n) → d.phase = .flock) ∧ ((∀ r n, ¬ slot r n) → d.phase = .ending)) ∧
    -- nested
    (let i : Instr := .freezeNested a
      let f := form7 [src64 a] none (!sel64 a) false
      Ready s i f x c → x.ts = [k] → c.thread? k = some u →
      let first := arg (c.args f k) 0 % 2 ^ 32
      let count := arg (c.args f k) 0 / 2 ^ 32
      let may : Prop := u.role = 0 ∧ c.levels.length < c.hdr.template ∧ u.level = c.levels.length ∧ count ≠ 0
      (c.phase = .prologue → exec i s = all .illegalOp) ∧
      (c.phase ≠ .prologue → ¬ may → exec i s = all .accessFault) ∧
      (c.phase ≠ .prologue → may → busy k → exec i s = .next s) ∧
      (c.phase ≠ .prologue → may → quiet k →
        ∃ t d, exec i s = .next t ∧ t = { s with cohorts := t.cohorts } ∧ (∀ cp, cp ≠ x.co → find? t.cohorts cp = find? s.cohorts cp) ∧
          find? t.cohorts x.co = some d ∧ d.levels = c.levels ++ [⟨first, count, some k, List.replicate 8 0⟩] ∧
          d.depth = c.levels.length + 1 ∧ d.owned = max c.owned c.high ∧
          d = { c with levels := d.levels, depth := d.depth, owned := d.owned, ewes := d.ewes, threads := d.threads, groups := d.groups } ∧
          (∀ j, j ≠ k → d.thread? j = c.thread? j) ∧ 
          -- the parent is in its entry region again (R202, R288; log entry 71)
          ∃ y, d.thread? k = some { u with
            run := .nested (x.pc + 4), region := .entry, again := false, acts := [], absorb := [], capture := y }))

/-- R189, R194: `next` records the index and takes the role's next one: the thread goes on at its role's entry with WBASE 0, its
stacks empty and all else kept; in the prologue it raises ACCESS_FAULT. Indices are taken in order, those of the
innermost range first, but for those that its walk passes over; once a child range is finished its parent goes on. -/
def Obligations.IndicesAreTaken : Prop :=
  ∀ (s s1 s2 : State) (x : Issue) (c c2 : Cohort) (k n : Nat) (u : Thread) (co role : Nat) (l : Level),
    (Goes s .next x c → c.phase = .prologue →
      exec .next s = .next (s.takeTraps x.co x.g (x.ts.map fun k => (k, x.cause .accessFault 0)))) ∧
    (Goes s .next x c → c.phase ≠ .prologue → x.ts = [k] → c.thread? k = some u → u.masks = [] → c.serials = [] →
      (∀ p ∈ c.pends, ∀ l ∈ p.2.lanes, l.1 ≠ k) → s.recordIndex c u = (.ok, s1) → find? s1.cohorts x.co = some c →
      (s1.modThread x.co k fun t => { t with loops := [], divs := [], ovf := 0 }).takeIndex x.co u.role = (some n, s2) →
      find? s2.cohorts x.co = some c2 → c2.yielding = none →
      ∃ t d y, exec .next s = .next t ∧ find? t.cohorts x.co = some d ∧ t = { s2 with cohorts := t.cohorts } ∧
        (∀ cp, cp ≠ x.co → find? t.cohorts cp = find? s2.cohorts cp) ∧
        d = { c2 with threads := d.threads, groups := d.groups, fresh := d.fresh } ∧ (∀ j, j ≠ k → d.thread? j = c2.thread? j) ∧
        d.thread? k = some y ∧ (∃ i, y.run = .group i) ∧
        y = { u with
          pc := c2.hdr.codeBase + BitVec.ofNat 64 (nth c2.hdr.entries u.role 0), wbase := 0, idx := n, level := c2.levels.length
          region := .entry, loops := [], divs := [], ovf := 0, latched := [], acts := [], absorb := [], again := false, land := false
          capture := y.capture, run := y.run }) ∧
    -- which index
    (find? s.cohorts co = some c → c.levels.getLast? = some l →
      let t := nth l.taken role 0
      (t < l.count →
        -- an index that is padding of the root range, or whose bit is set, is passed over (R285, R291)
        (∀ g, find? s.lch.grids c.grid = some g → s.passes c g role (l.first + t) = (false, s)) →
          ∃ s2 d, s.takeIndex co role = (some (l.first + t), s2) ∧ find? s2.cohorts co = some d ∧
            d = { c with levels := setNth c.levels (c.levels.length - 1) { l with taken := setNth l.taken role (t + 1) } }) ∧
      (t + 1 = l.count → (∃ g, find? s.lch.grids c.grid = some g ∧ (s.passes c g role (l.first + t)).1 = true) →
        (s.takeIndex co role).1 = none) ∧
      (l.count ≤ t → (s.takeIndex co role).1 = none)) ∧
    -- the parent goes on
    (find? s.cohorts co = some c → c.levels.getLast? = some l → l.parent = some k → c.thread? k = some u →
      (c.childDone l = false → exec (.nestedFreezeResume co) s = .next s) ∧
      ∀ a, c.childDone l = true → u.run = .nested a → (∀ p ∈ c.threads, ∀ g, p.2.run ≠ .atNext g) →
        ∃ t d, exec (.nestedFreezeResume co) s = .next t ∧ find? t.cohorts co = some d ∧ t = { s with cohorts := t.cohorts } ∧
          d = { c with levels := c.levels.dropLast, depth := c.levels.length - 1, ewes := d.ewes, threads := d.threads, groups := d.groups,
                       fresh := d.fresh } ∧
          (∀ j, j ≠ k → d.thread? j = c.thread? j) ∧ ∃ i, d.thread? k = some { u.resume a with run := .group i })

/-- R199 to R201, R225, R229: `movs` reads a special register and `mtsr` writes one that may be written, in the width of the register;
a privileged one raises PRIVILEGE in a context without PRIV. TIMER and CYCLES are read at the lane edge at which the
instruction starts (R225, R229). A write to MODE keeps TRAPH and takes the bits that are
defined, and a value that the register may not take raises RESERVED_FIELD. `wbase` sets the window's base. -/
def Obligations.SpecialRegisters : Prop :=
  ∀ (s : State) (x : Issue) (c : Cohort) (d a : Sel) (imm : BitVec 30) (r : Nat → LaneRes) (z : Special) (k : Nat),
    let cl := s.cluster c.ci
    let priv : Bool := ((s.ctx? c.ctx).map Ctx.priv).getD false
    let trap (i : Instr) (z : Trap) : Prop := exec i s = .next (s.takeTraps x.co x.g (x.ts.map fun k => (k, x.cause z 0)))
    let comp (u : Thread) (i : Nat) : Nat := ((find? s.lch.grids c.grid).map fun g => nth (g.comps u.idx) i 0).getD 0
    let reads (k : Nat) (u : Thread) : Nat := match a.toNat with
      | 0 => 32                                                       -- WIDTH
      | 1 => u.lane
      | 2 => comp u 0
      | 3 => comp u 1
      | 4 => comp u 2
      | 5 => c.coh
      | 6 => c.hdr.stage
      | 7 => u.role
      | 8 => c.world
      | 9 => u.crew
      | 10 => s.timer
      | 11 => cl.cycles
      | 12 => ((s.ctx? c.ctx).map fun y => y.energy / 1000).getD 0
      | 13 => u.flags.toNat
      | 14 => u.mode.toNat
      | 15 => u.wbase
      | 16 => u.loops.length * 2 ^ 32 + (match u.loops with
          | [] => 0
          | l :: _ => l.count.toNat)
      | 17 => cl.mrow (c.crewOf k).sp
      | 18 => c.hdr.binage
      | 19 => u.nlife.toNat
      | 20 => u.level
      | 21 => u.divs.length + u.ovf
      | 22 => if u.frames = [] then 0 else (s.frameAddr c k (u.frames.length - 1)).getD 0
      | 64 => ((s.wunit (s.clusterUnit c.ci)).budget % (2 ^ 64 : Nat)).toNat
      | 65 => s.wear.tgt
      | 66 => ((s.ctx? c.ctx).map fun y => y.trapvec.toNat).getD 0
      | _ => c.ctx
    -- movs
    (let i : Instr := .movs d a
      let f := form7 [] (some (dstOf (if z.wide then .b64 else .b32) d)) (!specialSel z.wide false d) false
      special? a.toNat = some z → Ready s i f x c →
      (z.priv = true → priv = false → trap i .privilege) ∧
      (z.priv = false ∨ priv = true → a ≠ 10 → a ≠ 11 → (∀ k ∈ x.ts, ∀ u, c.thread? k = some u → r k = onlyVal (reads k u)) →
        Completes s i f x c r) ∧
      -- TIMER and CYCLES are read as the instruction starts in the lanes
      (a = 10 ∨ a = 11 → ∃ t v, exec i s = .next t ∧
        Owes s t x c (dstOf .b64 d) (.sample (decide (a = 11))) (x.on c f) x.ts v fun _ u => u.advance x.len)) ∧
    (∀ co id p cyc, find? s.cohorts co = some c → find? c.pends id = some p → p.kind = .sample cyc → Landable c p →
      ∃ t, ResultArrived s t co c id { p with lanes := p.lanes.map fun l => (l.1, if cyc then cl.cycles else s.timer) } ∧
        s.sample c.ci co id = t.completeRounds co) ∧
    -- mtsr
    (let i : Instr := .mtsr d a
      let f := form7 [if z.wide then src64 a else srcWord false a] none (!specialSel z.wide true a) false
      let v (k : Nat) : Nat := arg (c.args f k) 0
      special? d.toNat = some z → z.rw = true → Ready s i f x c →
      (z.priv = true → priv = false → trap i .privilege) ∧
      (z.priv = false ∨ priv = true →
        (d = 13 → ∃ t, exec i s = .next t ∧ Moves s t x c c [] [x.ts] fun k u => { u.advance x.len with flags := BitVec.ofNat 5 (v k) }) ∧
        (d = 14 → (∀ k ∈ x.ts, (rndOf (bits (v k) 1 3)).isSome) → ∃ t, exec i s = .next t ∧
          Moves s t x c c [] [x.ts] fun k u => { u.advance x.len with mode := (u.mode &&& 0x8000) ||| (BitVec.ofNat 32 (v k) &&& 0x7C0F) }) ∧
        (d = 14 → (∀ k ∈ x.ts, rndOf (bits (v k) 1 3) = none) → trap i .reservedField) ∧
        (d = 65 → x.ts = [k] → v k = 0 ∨ 2 ^ 16 ≤ v k → trap i .reservedField) ∧
        (d = 65 → x.ts = [k] → 0 < v k → v k < 2 ^ 16 → ∃ t, exec i s = .next t ∧
          Moves { s with wear := { s.wear with tgt := v k } } t x c c [] [x.ts] fun _ u => u.advance x.len) ∧
        (d = 66 → x.ts = [k] → ∃ t, exec i s = .next t ∧
          Moves ((s.modCtx c.ctx fun y => { y with trapvec := BitVec.ofNat 64 (v k) }).hubWrite (s.xlt.ctxBase.toNat + 64 * c.ctx + 0x10)
            (toBytes (v k) 8)) t x c c [] [x.ts] fun _ u => u.advance x.len))) ∧
    -- wbase
    (let bases (i : Instr) (f : Form) : Prop := Ready s i f x c →
        let n (k : Nat) : Nat := arg (c.args f k) 0 % 2 ^ 32
        let fits (k : Nat) : Prop := ∃ u, c.thread? k = some u ∧ n k + 3 ≤ nth c.hdr.window u.role 0
        ((∀ k ∈ x.ts, fits k) → ∃ t, exec i s = .next t ∧
          Moves s t x c c [] [x.ts] fun k u => { u.advance x.len with wbase := 32 * n k }) ∧
        ((∀ k ∈ x.ts, ¬ fits k) → trap i .reservedField)
     bases (.wbase a) (form7 [srcWord false a] none (!sel32 a) false) ∧
     bases (.wbaseImm a imm) (form7 [srcImm false (imm32 imm) a] none (!sel32I a) false))

/-- R193, R202, R289: `rfree` gives back the registers of a range of slots, once no result is owed to them; `region` enters a
region whose marker it stands at and captures the thread at the marker, raises REGION_VIOLATION elsewhere, and stops the thread
while the cohort yields. -/
def Obligations.RegistersFreedAndRegionsEntered : Prop :=
  ∀ (s : State) (x : Issue) (c : Cohort) (a b : Sel) (n : BitVec 12) (e : RegionEntry),
    let trap (i : Instr) (z : Trap) : Prop := exec i s = .next (s.takeTraps x.co x.g (x.ts.map fun k => (k, x.cause z 0)))
    let regs : List (Nat × Nat) := x.ts.flatMap fun k => (List.range (b.toNat - a.toNat + 1)).map fun i => (k / 32, c.regOf k a + i)
    (Goes s (.rfree a b) x c →
      (isSlot a = false ∨ isSlot b = false ∨ b.toNat < a.toNat → trap (.rfree a b) .reservedField) ∧
      (isSlot a = true → isSlot b = true → a.toNat ≤ b.toNat →
        ((∃ r ∈ regs, c.crewEmpty r.1 r.2 = true) → exec (.rfree a b) s = .next s) ∧
        ((∀ r ∈ regs, c.crewEmpty r.1 r.2 = false) →
          -- no thread of the cluster waits for a register (R192)
          (∀ q ∈ s.cohorts, q.2.ci = x.ci → ∀ p ∈ q.2.threads, ∀ g o, p.2.run ≠ .parked g o) →
          ∃ t, exec (.rfree a b) s = .next t ∧ Moves s t x c
            { c with crews := mapVals c.crews fun w y => { y with regs := filterMap y.regs fun r _ => !regs.contains (w, r) } }
            [] [x.ts] fun _ u => u.advance x.len))) ∧
    (Goes s (.region n) x c →
      (c.yielding = none → (∀ e, c.hdr.regions[n.toNat]? = some e → c.hdr.codeBase + BitVec.ofNat 64 e.start ≠ x.pc) →
        trap (.region n) .regionViolation) ∧
      (c.yielding = none → c.hdr.regions[n.toNat]? = some e → c.hdr.codeBase + BitVec.ofNat 64 e.start = x.pc →
        ∃ t, exec (.region n) s = .next t ∧
          Moves s t x c c [] [x.ts] fun _ u => { u.advance 4 with
            region := .inside n.toNat e.drain e.limit, acts := [], absorb := if u.again then u.absorb else [], again := false
            capture := c.captureOf u }) ∧
      (c.yielding ≠ none →
        ∃ t d, exec (.region n) s = .next t ∧ Apart x.co [] s t ∧ find? t.cohorts x.co = some d ∧
          d = { c with threads := d.threads, groups := d.groups } ∧ (∀ k, k ∉ x.ts → d.thread? k = c.thread? k) ∧
          ∀ k ∈ x.ts, ∀ u, c.thread? k = some u →
            d.thread? k = some { u with
              capture := c.captureOf u, acts := [], absorb := if u.again then u.absorb else [], run := .stopped x.g }))

/-- R203, R204, R330, R353: `preq` gives VFLOOR, VCEIL or REFUSED for a request outside its limits, BUSY while the policy ring is off
or full, and otherwise stores a record of 32 bytes in it and gives a ticket; `boost` is charged to the life budget, or
gives BUSY or REFUSED, and raises RESERVED_FIELD for a point or a duration that it does not offer. -/
def Obligations.PowerRequests : Prop :=
  ∀ (s : State) (x : Issue) (c : Cohort) (d a b e : Sel),
    -- preq
    (let i : Instr := .preq d a b e
      let f := form7 [srcWord false a, srcWord false b, srcWord false e] (some (statusDst d))
        (!statusSel d || !sel32 a || !sel32 b || !sel32 e) false
      let kind := x.low c f 0 % 2 ^ 32
      let value := x.low c f 1 % 2 ^ 32
      let dur := x.low c f 2 % 2 ^ 32
      let v := value % 2 ^ 16
      let mhz := value / 2 ^ 16
      let fails : Option Status :=
        if kind = 0 then
          if v < 48 then some .vfloor
          else if 70 < v ∨ (64 < v ∧ (s.island (laneIsland x.ci)).boost = none) then some .vceil
          else if mhz < 950 ∨ 2600 < mhz then some .refused else none
        else if kind = 1 then (if mhz ≠ 0 ∨ 1024 < v then some .refused else none)
        else some .refused
      let p := s.pwr
      let size := 2 ^ p.pqLogn
      let bytes := toBytes p.ticket 4 ++ toBytes x.ctx 1 ++ toBytes kind 1 ++ toBytes (dieOf x.ci) 1 ++ toBytes 0 1 ++
        toBytes (x.ci % 144) 2 ++ toBytes 0 2 ++ toBytes value 4 ++ toBytes dur 4 ++ toBytes 0 4 ++ toBytes s.timer 8
      ReadyLow s i f x c → StatusIssues s s i f (statusDst d) x c fun s => match fails with
        | some st => (.known, st.code, s)
        | none =>
          if p.pqEn = false ∨ (p.pqTail + 1) % size = p.pqHead % size then (.known, Status.busy.code, s)
          else
            let u := s.hubWrite (p.pqBase.toNat + 32 * (p.pqTail % size)) bytes
            (.known, Status.ok.code + p.ticket * 2 ^ 8, { u with pwr := { u.pwr with
              pqTail := (p.pqTail + 1) % size, ticket := if p.ticket = 0xFFFFFF then 1 else p.ticket + 1
              tickets := insert u.pwr.tickets p.ticket ⟨x.ctx, x.ci, kind, value, dur⟩ } })) ∧
    -- boost
    (let i : Instr := .boost d a
      let f := form7 [srcWord false a] (some (statusDst d)) (!statusSel d || !sel32 a) false
      let v := x.low c f 0 % 2 ^ 16
      let ms := x.low c f 0 / 2 ^ 16 % 2 ^ 16
      let unit := s.clusterUnit x.ci
      let cost := (s.wunit unit).boostCost v ms
      ReadyLow s i f x c →
      (v < 65 ∨ 70 < v ∨ ms < 1 ∨ 1000 < ms →
        exec i s = .next (s.takeTraps x.co x.g (x.ts.map fun k => (k, x.cause .reservedField 0)))) ∧
      (¬ (v < 65 ∨ 70 < v ∨ ms < 1 ∨ 1000 < ms) → StatusIssues s s i f (statusDst d) x c fun s =>
        if (s.island (laneIsland x.ci)).boost ≠ none then (.known, Status.busy.code, s)
        else if (s.wunit unit).budget < cost.1 then (.known, Status.refused.code, s)
        else (.known, Status.ok.code, (s.modUnit unit fun w => { w with hold := w.hold + cost.1, base := cost.2 }).modIsland
          (laneIsland x.ci) fun y => { y with boost := some (s.timer + ms * 1000000) })))

/-- R205, R208 to R210, R280: `sysc` stores a launch record and owes its status, tells whether a launch has completed, or gives
REFUSED; `halt` ends every cohort of the grid; `tmark` records a mark, or counts it once 16 fall in 10,000 ticks; `bload`
starts the loading of its lines, or raises RESERVED_FIELD or ACCESS_FAULT. -/
def Obligations.ServicesMarksAndLoads : Prop :=
  ∀ (s s1 : State) (x : Issue) (c : Cohort) (d a b e : Sel) (imm : BitVec 30) (barr : BitVec 4) (st : Status) (q : Nat) (bytes : List Byte)
    (pl : Place) (g : Grid) (ls : List (Nat × Nat × Nat)),
    let idle : Nat → Thread → Thread := fun _ u => u.advance x.len
    let trap (i : Instr) (z : Trap) (addr : Nat) : Prop :=
      exec i s = .next (s.takeTraps x.co x.g (x.ts.map fun k => (k, x.cause z addr)))
    -- sysc
    (let serves (i : Instr) (f : Form) : Prop := ReadyLow s i f x c →
        let service := x.low c f 0 % 2 ^ 32
        let v := x.low c f 1
        let mine := s.lch.grids.filter fun p => p.2.ctx == x.ctx
        let named := if v < 2 ^ 24 then (mine.filter fun p => p.1 % 2 ^ 24 == v).getLast? else mine.find? fun p => p.1 == v
        let ended (g : Grid) : Bool := match g.state with
          | .complete .. => true
          | _ => false
        let known (s1 : State) (st : Status) : Prop := StatusIssues s s1 i f (statusDst d) x c fun s => (.known, st.code, s)
        (service = 0 → s.launchCheck x v = (.status st, s1) → known s1 st) ∧
        (service = 0 → s.launchCheck x v = (.store q bytes pl, s1) → StatusIssues s s1 i f (statusDst d) x c fun s =>
          let w := (s.recall x.ci (pl.pa / 128)).writePhys pl.world pl.pa bytes
          (.launch q ((s.queue q).tail % (s.queue q).size), 0, w.2.modQueue q fun l => { l with tail := (l.tail + 1) % l.size })) ∧
        (service = 1 → known s (match named with
          | none => .refused
          | some p => if ended p.2 then .ok else .busy)) ∧
        (1 < service → known s .refused)
     serves (.sysc d a b) (form7 [srcWord false a, src64 b] (some (statusDst d)) (!statusSel d || (!sel32 a || !sel64 b)) false) ∧
     serves (.syscImm d a b imm) (form7 [srcImm false (imm32 imm) a, src64 b] (some (statusDst d))
       (!statusSel d || (!sel32I a || !sel64 b)) false)) ∧
    -- halt
    (let i : Instr := .halt a
      let f := form7 [srcWord false a] none (!sel32 a) false
      ReadyLow s i f x c → rising s.cohorts = true → find? s.lch.grids c.grid = some g → g.state = .running →
      ∃ t, exec i s = .next t ∧ t.mem = s.mem ∧
        (∀ co y, find? t.cohorts co = some y → y.grid = c.grid → y.phase = .ending ∧ y.threads = []) ∧
        (∀ co y, find? s.cohorts co = some y → y.grid ≠ c.grid → (find? t.cohorts co).map Cohort.phase = some y.phase) ∧
        find? t.lch.grids c.grid = some { g with state := .finished 1 (x.low c f 0 % 2 ^ 8) }) ∧
    -- tmark
    (let marks (i : Instr) (f : Form) : Prop := ReadyLow s i f x c →
        let v := x.low c f 0 % 2 ^ 32
        let recent := (s.cluster c.ci).marks.filter fun t => decide (s.timer < t + 10000)
        (16 ≤ recent.length → ∃ t, exec i s = .next t ∧ Moves s t x c c [rcKey .cluTmarkDrop c.ci] [x.ts] idle ∧
          (s.counter .cluTmarkDrop c.ci < 2 ^ 64 - 1 → t.counter .cluTmarkDrop c.ci = s.counter .cluTmarkDrop c.ci + 1)) ∧
        (recent.length < 16 → ∃ t, exec i s = .next t ∧
          Moves ((s.modCluster c.ci fun y => { y with marks := recent ++ [s.timer] }).bbx 6 (dieOf c.ci) (clusterCode c.ci) c.world c.ctx
            (evData (toBytes v 4))) t x c c [] [x.ts] idle)
     marks (.tmark a) (form7 [srcWord false a] none (!sel32 a) false) ∧
     marks (.tmarkImm a imm) (form7 [srcImm false (imm32 imm) a] none (!sel32I a) false)) ∧
    -- bload
    (let i : Instr := .bload a b e barr
      let f := form7 [src64 a, srcWord false b, srcWord false e] none (!sel64 a || !sel32 b || !sel32 e) false
      let va := x.low c f 0
      let at_ := x.low c f 1 % 2 ^ 32
      let n := x.low c f 2 % 2 ^ 32
      let bad : Prop := va % 128 ≠ 0 ∨ at_ % 128 ≠ 0 ∨ n % 128 ≠ 0 ∨ n < 128 ∨ 65536 < n
      ReadyLow s i f x c →
      (bad → trap i .reservedField 0) ∧
      (¬ bad → s.bloadLines x va at_ (n / 128) = (.done ls, s1) → find? s1.cohorts x.co = some c →
        (c.spadBytes < at_ + n → exec i s = .next (s1.takeTraps x.co x.g (x.ts.map fun k => (k, x.cause .accessFault at_)))) ∧
        (at_ + n ≤ c.spadBytes → ∃ t, exec i s = .next t ∧
          Moves { s1 with bloads := insert s1.bloads s1.fresh ⟨x.co, x.ci, barr.toNat, ls⟩, fresh := s1.fresh + 1 } t x c c [] [x.ts] idle)))

/-- R13, R45, R239: an issue group fetches the words at the address of its threads, and where they decode to an instruction, no
thread still owes the check of a target or a trap of another instruction, and the instruction moves a thread, one step of
the machine is that instruction's own effect on the group, and one opportunity taken in the front end of its
sub-partition (log entry 2: the group issues that is first in R241's order, with `pick` before it where the moment at which `pick`
became ready is open). -/
def Obligations.StepRunsDecoded : Prop :=
  ∀ (s : State) (ci sp co g k : Nat) (ks : List Nat) (c : Cohort) (u : Thread) (i : Instr) (ws : List Word) (v : State)
    (pick : Option (Nat × Nat)),
    -- fetching
    (decodeWords ws = .ok (i, ws.length) →
      (∀ n w, ws[n]? = some w → s.fetchAt ci c.ctx (u.pc + BitVec.ofNat 64 (4 * n)).toNat = (.word w, s)) →
      s.fetchInstr ci c.ctx u.pc = (.instr i ws, s)) ∧
    -- issuing
    (find? s.cohorts co = some c → c.ci = ci → c.members g = k :: ks → c.thread? k = some u → u.pc.toNat % 4 = 0 →
      ({ s with sel := none }).fetchInstr ci c.ctx u.pc = (.instr i ws, { s with sel := none }) →
      (∀ j ∈ k :: ks, ((c.thread? j).map Thread.land).getD false = false ∧ (c.thread? j).bind Thread.due = none) →
      exec i { s with sel := some (co, g) } = .next v →
      s.binToDraw ci sp = none → (nth (s.cluster ci).fe sp FrontEnd.reset).left ≠ 0 →
      (let first := pick.toList.filter fun a => (s.groupsOf ci sp).contains a && s.placeOpen a
       first ++ (s.groupsOf ci sp).filter fun a => !first.contains a).head? = some (co, g) →
      movedOn s v co = true →
      s.runGroup co g = .next v ∧
      step { s with tape := .issue ci sp pick :: s.tape } = .next (s.issued v ci sp co g false) ∧
      (s.tape = [] → pick = none → s.busy = [ci] → sp < 4 →
        (∀ q, q < sp → (nth (s.cluster ci).fe q FrontEnd.reset).left = 0) → step s = .next (s.issued v ci sp co g false)))

/-- R13 to R19, R34, R35: words that the spec writes out decode to the instruction that it gives for them: those of its section
"Encodings worked out", of its program read by hand (R227) and of its matrix and copy programs, at least one of each group; and
words that form no instruction, a tail first, a head without its tail, a modifier before a modifier, an unassigned slot and a
nonzero `res` field, decode to an illegal instruction that keeps them. -/
def Obligations.WordsDecode : Prop :=
  let plain : Pfx := ⟨0, false, false, 0, false, false, false, false, false, false, 0⟩
  -- groups 0 and 1
  decodeWords [0x400204FD, 0xFFFFFFFE] = .ok (.addImm none 8 9 125 0x3FFFFFFE, 2) ∧
  decodeWords [0x42A0407D, 0xD2345678] = .ok (.movi none 1 0x12345678, 2) ∧
  decodeWords [0x02C24280] = .ok (.mov none 9 5, 1) ∧
  decodeWords [0x08E20080] = .ok (.popc none 8 1, 1) ∧
  decodeWords [0x80003000, 0x498840FD, 0xC0000000] = .ok (.cmpImm (some { plain with ty := 3 }) 1 4 1 125 0, 3) ∧
  -- group 2
  decodeWords [0x94000000, 0x10014307] = .ok (.fadd (some { plain with rnd := 2, sat := true }) 5 6 7, 2) ∧
  decodeWords [0x94F00000, 0x10014307] =
    .ok (.fadd (some { plain with rnd := 2, sat := true, gp := 3, ge := true, gn := true }) 5 6 7, 2) ∧
  decodeWords [0x504285FD, 0xCFF00000] = .ok (.fmulImm none 10 11 125 0x0FF00000, 2) ∧
  decodeWords [0x82000000, 0x51E1427D, 0xC000007F] = .ok (.fscaleImm (some { plain with nf := true }) 5 4 125 127, 3) ∧
  -- groups 3 and 4
  decodeWords [0x59E38680, 0xC0000000] = .ok (.bcast none 14 13 0 false 0 0, 2) ∧
  decodeWords [0x6002817E, 0xC0000002] = .ok (.ldOfs none 10 2 126 0 0 false 2, 2) ∧
  decodeWords [0x2000417C] = .ok (.ld none 1 2 124, 1) ∧
  decodeWords [0x61DE450C, 0xC729FFF0] = .ok (.spat none 121 10 12 14 1 false 9 0xFFF, 2) ∧
  decodeWords [0x61DE030C, 0xC719FFF0] = .ok (.spat none 120 6 12 14 0 true 9 0xFFF, 2) ∧
  decodeWords [0x61200911, 0xC0000000] = .ok (.red none 18 17 0 false, 2) ∧
  decodeWords [0x62057E00, 0xF8880000] = .ok (.qbind none 21 124 113 1 false false, 2) ∧
  -- group 5
  decodeWords [0x68E00000, 0xC0028003] = .ok (.loop 0 2 true 3, 2) ∧
  decodeWords [0x68000000, 0xFFFFFFF8] = .ok (.bra false false 0 0x3FFFFFF8, 2) ∧
  decodeWords [0x29200000] = .ok (.exit, 1) ∧
  decodeWords [0x29800000] = .ok (.nop, 1) ∧
  -- groups 6 and 7
  decodeWords [0x31618202] = .ok (.noffer none 6 4 2, 1) ∧
  decodeWords [0x30A08020] = .ok (.mma none 2 0 false true false 0, 1) ∧
  decodeWords [0x3120C500] = .ok (.mrowWait none 3 2, 1) ∧
  decodeWords [0x7102C402, 0xC0000000] = .ok (.maccFlush none 11 8 2 false false 0, 2) ∧
  decodeWords [0x78607E81, 0xC0000020] = .ok (.barrInitImm 1 125 1 32, 2) ∧
  decodeWords [0x78A03E80, 0xC0000000] = .ok (.barrWaitImm 0 125 0, 2) ∧
  decodeWords [0x38003E00] = .ok (.freeze, 1) ∧
  decodeWords [0x39600001] = .ok (.region 1, 1) ∧
  -- no instruction
  decodeWords [0xC000007F] = .ok (.illegalOp (.orphanTail 0xC000007F), 1) ∧
  decodeWords [0x400204FD, 0x29800000] = .ok (.illegalOp (.headWithoutTail none 0x400204FD), 1) ∧
  decodeWords [0x94000000, 0x94000000] = .ok (.illegalOp (.orphanPrefix 0x94000000), 1) ∧
  decodeWords [0x94000000, 0x29800000] = .ok (.illegalOp (.orphanPrefix 0x94000000), 1) ∧
  decodeWords [0x02E00000] = .ok (.illegalOp (.unassigned none 0x02E00000), 1) ∧
  decodeWords [0x94000001, 0x10014307] = .ok (.illegalOp (.unassigned (some 0x94000001) 0x10014307), 2)

/-- R13 to R19, R34: decoding and encoding agree. Every well-formed instruction that has an encoding, with every operand at every
value, is what its own words decode to, whatever words follow; and an instruction that is read from one to three words encodes
to exactly them, an illegal one to the first of them, those that a trap frame records. -/
def Obligations.DecodeEncodeAgree : Prop :=
  (∀ (i : Instr) (rest : List Word), i.wellFormed = true → encode i ≠ [] → (∀ w, i ≠ .illegalOp w) →
    decodeWords (encode i ++ rest) = .ok (i, (encode i).length)) ∧
  (∀ (ws : List Word) (i : Instr) (n : Nat), decodeWords ws = .ok (i, n) →
    1 ≤ n ∧ n ≤ 3 ∧ n ≤ ws.length ∧
    1 ≤ (encode i).length ∧ (encode i).length ≤ n ∧ encode i = ws.take (encode i).length ∧
    ((∀ w, i ≠ .illegalOp w) → (encode i).length = n))

/-- R20, R22, R45: an instruction does nothing while a thread of its group is held by a scalar result. Where none is, one whose
guard lets no thread through is skipped, with no access and no register written: every thread only goes on; unless its words
are illegal, which is checked first and raises ILLEGAL_OP or RESERVED_FIELD in every thread. -/
def Obligations.GuardsAndHolds : Prop :=
  ∀ (s : State) (i : Instr) (x : Issue) (c : Cohort) (p : Pfx), encode i ≠ [] → s.issue? i = some x → find? s.cohorts x.co = some c →
    ((∃ k ∈ x.ts, c.isHeld k = true) → exec i s = .next s) ∧
    ((∀ k ∈ x.ts, c.isHeld k = false) → i.pfx = some p → p.ge = true →
      (∀ k ∈ x.ts, ∀ u, c.thread? k = some u → u.preds.getLsbD p.gp.toNat = p.gn) →
      (∃ t, exec i s = .next t ∧ Moves s t x c c [] [x.ts] fun _ u => u.advance x.len) ∨
      ∃ z, (z = .illegalOp ∨ z = .reservedField) ∧ exec i s = .next (s.takeTraps x.co x.g (x.ts.map fun k => (k, x.cause z 0))))

/-- R212, R220 to R226, R241, R317: a write of CLU_CLK sets RATE, but for 0b11, and one of DRP_CTL stores EN and a threshold of 4 to
100. An armed detector fires above its threshold, once until it rearms: it is counted and entered in the black box, and where no
response is in progress one has started. The six lane cycles after that of the firing are stretched, of which a firing in a
stretch begins none, and the 64 front-end cycles after it are halved; in a hop it only holds issue, and the 64 cycles begin when
the hop completes. A hop starts when its synthesiser is locked and no stretch runs or is due, ends with the new frequency, and
lasts at most 8 ticks. The hang watchdog reports once when its count reaches a limit that is not 0. A bin whose age reaches
BINAGE may be drawn. -/
def Obligations.ClocksAndDroop : Prop :=
  ∀ (s : State) (ci sp : Nat) (v : Word) (peak : BitVec 8),
    let c := s.cluster ci
    let k := c.clock
    let isl := laneIsland ci
    let rate := v.toNat / 2 ^ 24 % 4
    let fires := s.isCluster ci = true ∧ k.drpCtl.getLsbD 31 = true ∧ k.tripped = false ∧ k.drpCtl.toNat % 128 < peak.toNat
    let responds : Bool := k.strDue || k.str || k.arm != .no || k.halving || k.fired
    let seen (hop : Bool) := ((if responds then s else s.protEvent 1 true (dieOf ci) (isl % 256)).bump .drpFires isl 1).bbx 2
      (dieOf ci) (clusterCode ci) 0 0xFF (evData (toBytes peak.toNat 1 ++ toBytes hop.toNat 1))
    -- registers
    (exec (.cluClkWrite ci v) s = .next (if rate = 3 then s else s.modCluster ci fun c => { c with rate := rate })) ∧
    (s.isCluster ci = true → ∃ w : Word, exec (.drpCtlWrite ci v) s = .next (s.modClock ci fun k => { k with drpCtl := w }) ∧
      w.getLsbD 31 = v.getLsbD 31 ∧ w.toNat / 2 ^ 7 % 2 ^ 24 = 0 ∧
      w.toNat % 2 ^ 7 = if v.toNat % 128 < 4 then 4 else if 100 < v.toNat % 128 then 100 else v.toNat % 128) ∧
    -- the detector
    ((fires → k.hop = none → k.str = false → exec (.droopFire ci peak) s = .next ((seen false).modClock ci fun k =>
        { k with tripped := true, peak := peak.toNat, strDue := true, arm := .lane })) ∧
      (fires → k.hop = none → k.str = true → exec (.droopFire ci peak) s = .next ((seen false).modClock ci fun k =>
        { k with tripped := true, peak := peak.toNat, arm := .front })) ∧
      (fires → ∀ f, k.hop = some f → exec (.droopFire ci peak) s = .next (((seen true).bump .drpHophold isl 1).modClock ci fun k =>
        { k with tripped := true, peak := peak.toNat, fired := true })) ∧
      (¬ fires → exec (.droopFire ci peak) s = .next s) ∧
      exec (.droopRearm ci) s = .next (if k.tripped then s.modClock ci fun k => { k with tripped := false } else s)) ∧
    -- the edges
    (k.strDue = true → ∀ n, 1 ≤ n → n ≤ 7 → (Nat.repeat Clock.laneEdge n k).str = decide (n ≤ 6)) ∧
    (k.arm = .lane → k.laneEdge.arm = .front ∧ ∀ n, (Nat.repeat Clock.frontEdge n k).arm = .lane) ∧
    (k.arm = .front → ∀ n, 1 ≤ n → n ≤ 65 → (Nat.repeat Clock.frontEdge n k).halving = decide (n ≤ 64)) ∧
    (s.lanesStopped ci = false → (∀ f ∈ c.fe, f.fifo = []) →
      ((s.laneEdge ci false).cluster ci).clock = k.laneEdge ∧ ((s.laneEdge ci false).cluster ci).cycles = (c.cycles + 1) % 2 ^ 64) ∧
    (s.frontStopped ci = false → ((s.frontEdge ci).cluster ci).clock = k.frontEdge) ∧
    exec (.droopStretchEnd ci) s = .next (if k.str = true ∧ k.stretch = 0 then s.laneEdge ci false else s) ∧
    exec (.halvedIssueEnd ci) s = .next (if k.halving = true ∧ k.halve ≤ 1 then s.frontEdge ci else s) ∧
    -- hops
    (∀ m, (s.island isl).move = some m → m.locked = true → s.isCluster ci = true → k.hop = none → k.str = false → k.strDue = false →
      (m.freq < (s.island isl).f ∨ (s.island isl).f < m.freq ∧ (s.island isl).n = m.target) →
      exec (.clockHop ci) s = .next (s.modClock ci fun k => { k with hop := some m.freq, hopEnd := s.timer + 8 })) ∧
    (k.hop.isSome = true ∨ k.str = true ∨ k.strDue = true → exec (.clockHop ci) s = .next s) ∧
    (∀ f, k.hop = some f → exec (.hopComplete ci) s = .next ((s.modClock ci fun k => { k with
        hop := none, lmhz := f, hold := false, fired := false, arm := if k.fired then .front else k.arm }).modIsland isl fun i =>
          match i.move with
          | some m => if i.n = m.target ∧ f = m.freq then { i with f := f, move := none } else { i with f := f }
          | none => { i with f := f })) ∧
    (k.hop = none → exec (.hopComplete ci) s = .next s) ∧
    (∀ n, k.hop.isSome = true → k.hopEnd < s.timer + n → ((s.ticks n).cluster ci).clock.hop = none) ∧
    -- the watchdog and the bins
    (c.hangLim ≠ 0 → c.hangLim.toNat ≤ c.hangCount → c.hangReported = false → exec (.hangReport ci) s =
      .next (((s.modCluster ci fun c => { c with hangReported := true }).bbx 7 (dieOf ci) (clusterCode ci) 0 0xFF
        (evData (toBytes ci 4))).postError 6 0 (clusterCode ci) 0 0 0)) ∧
    (c.hangLim = 0 ∨ c.hangCount < c.hangLim.toNat ∨ c.hangReported = true → exec (.hangReport ci) s = .next s) ∧
    (∀ n b, find? c.bins n = some b → b.sp = sp → (∃ o, find? s.cohorts b.cohort = some o ∧ o.hdr.binage ≤ b.age) →
      exec (.binAgeExpiry ci sp n) s =
        .next (s.modCluster ci fun c => { c with bins := modify c.bins n fun b => { b with aged := true } }))

/-- R317 to R325, R331, R332, R335, R348: a legal write of VSET or FSET stores the point and starts a transition toward it, which a
rest holds back, and any other is dropped with its reason; an absent die's islands have no registers. A transition's frequency
falls before its voltage moves and rises after it, with no hop in progress, but in a ramp that a clamp found on its way. Telemetry
and the stall sample are stored. A thermal clamp, trip and recovery, and the end of a boost above 64 steps, enter their events, set
their bits and move the island. An answer to an outstanding ticket posts a completion record. -/
def Obligations.OperatingPoints : Prop :=
  ∀ (s : State) (die isl ci : Nat) (v : Word) (tel vi0 te0 vi1 te1 : DWord) (temp : BitVec 12), isl < 256 →
    let i := 256 * die + isl
    let x := s.island i
    let lane := decide (isl < 128)
    let least := if lane then 950 else islandMhz isl
    let at_ := 144 * die + 9 * (isl / 8) + isl % 8
    let rests : Prop := lane = true ∧ (find? s.wear.rests at_).isSome
    let hop : Option Nat := if lane then (s.cluster at_).clock.hop else none
    let go (u : State) : State :=
      if lane = true ∧ (find? u.wear.rests at_).isSome then u
      else u.modIsland i fun x =>
        if x.gate then { x with move := none, f := 0 }
        else
          let f := if lane = true ∧ x.thermal = 0 then min x.mhz x.ceilf else least
          { x with move := if x.n = x.mv / 25 ∧ hop.getD x.f = f then none else some ⟨x.mv / 25, f, false, false⟩ }
    let mv := v.toNat % 2 ^ 16
    let low := if lane then 48 else (islandRange isl).1
    let high := if lane then (if x.boost.isSome then 70 else 64) else (islandRange isl).2
    let vset : Status :=
      if lane = true ∧ v.getLsbD 31 = true ∧ [0, 1, 2, 3].any (fun sp => s.crewsOn at_ sp != 0) then .busy
      else if mv % 25 ≠ 0 then .refused
      else if mv / 25 < low then .vfloor
      else if high < mv / 25 then .vceil
      else if lane = true ∧ fmax (mv / 25) < x.mhz then .refused else .ok
    let f := v.toNat % 2 ^ 12
    let fset : Status := if f % 25 = 0 ∧ 950 ≤ f ∧ f ≤ fmax (x.mv / 25) then .ok else .refused
    let dropped (st : Status) : State := s.modIsland i fun x => { x with status := st.code }
    let on := x.gate = true ∧ v.getLsbD 31 = false
    -- commands
    (s.dieCount ≤ die → exec (.pwrIslVsetWrite die isl v) s = .next s ∧ exec (.pwrIslFsetWrite die isl v) s = .next s ∧
      exec (.islandTelemetryRefresh die isl tel) s = .next s) ∧
    (die < s.dieCount → vset ≠ .ok → exec (.pwrIslVsetWrite die isl v) s = .next (dropped vset)) ∧
    (die < s.dieCount → vset = .ok → exec (.pwrIslVsetWrite die isl v) s = .next (go (s.modIsland i fun x => { x with
      status := 0, gate := v.getLsbD 31, mv := mv, n := if on then 48 else x.n, f := if on then 0 else x.f }))) ∧
    (lane = false → exec (.pwrIslFsetWrite die isl v) s = .next s) ∧
    (die < s.dieCount → lane = true → fset ≠ .ok → exec (.pwrIslFsetWrite die isl v) s = .next (dropped .refused)) ∧
    (die < s.dieCount → lane = true → fset = .ok → exec (.pwrIslFsetWrite die isl v) s =
      .next (go ((s.modIsland i fun x => { x with status := 0, mhz := f }).noteClamp (s.clamped die) die))) ∧
    -- transitions
    exec (.synthLockComplete die isl) s =
      .next (s.modIsland i fun x => { x with move := x.move.map fun m => { m with locked := true } }) ∧
    (∀ m, x.move = some m → m.ramp = true ∨ x.f ≤ m.freq ∧ hop = none → x.n ≠ m.target →
      let n := if x.n < m.target then x.n + 1 else x.n - 1
      let f := if lane = false ∧ n = m.target then m.freq else x.f
      exec (.voltageStep die isl) s = .next (s.modIsland i fun x =>
        { x with n := n, f := f, move := if n = m.target ∧ f = m.freq then none else some m })) ∧
    ((x.move = none ∨ ∃ m, x.move = some m ∧ (m.ramp = false ∧ (m.freq < x.f ∨ hop.isSome = true) ∨ x.n = m.target)) →
      exec (.voltageStep die isl) s = .next s) ∧
    -- telemetry
    (let te (v : DWord) : DWord := BitVec.ofNat 64 (v.toNat % 2 ^ 32)
     exec (.stageTelemetryRefresh vi0 te0 vi1 te1) s = .next (if s.timer % 1000000 = 0 then
       { s with pwr := { s.pwr with stages := match s.code with
         | .dies => [0, 0, 0, 0]
         | .package => [0, 0, vi1, te te1]
         | .module => [vi0, te te0, vi1, te te1] } } else s)) ∧
    (die < s.dieCount → ∃ t, exec (.islandTelemetryRefresh die isl tel) s = .next t ∧ t.island i = { x with tel := tel } ∧
      (∀ j, j ≠ i → t.island j = s.island j) ∧
      t = { s with wear := t.wear, pwr := { s.pwr with
        islands := t.pwr.islands, energy := insert s.pwr.energy i (findD s.pwr.energy i 0 + tel.toNat % 2 ^ 20) } } ∧
      (x.gate = true ∨ rests → t.wear = s.wear)) ∧
    (let c := s.cluster ci
     exec (.stallWindow ci) s = .next (if s.timer % 10000 ≠ 0 then s else
      ({ s with pwr := { s.pwr with sumOpp := s.pwr.sumOpp + c.winOpp, sumStall := s.pwr.sumStall + c.winStall } }).setCluster ci { c with
        issueStall := BitVec.ofNat 64 (c.winOpp % 2 ^ 32 * 2 ^ 32 + c.winStall % 2 ^ 32), winOpp := 0, winStall := 0 })) ∧
    -- protective actions
    (800 ≤ temp.toInt → x.thermal = 0 → exec (.thermalClampStart die isl temp) s =
      .next (go (((s.modIsland i fun x => { x with thermal := 1 }).setProt 6).protEvent 4 true die isl))) ∧
    (temp.toInt < 800 ∨ x.thermal ≠ 0 → exec (.thermalClampStart die isl temp) s = .next s) ∧
    (880 ≤ temp.toInt → x.thermal = 0 ∨ x.thermal = 1 →
      let u := if x.thermal = 0 then (s.setProt 6).protEvent 4 true die isl else s
      exec (.thermalTrip die isl temp) s =
      .next ((go (((u.modIsland i fun x => { x with thermal := 2 }).setProt 5).protEvent 5 true die isl)).fatal (some 3))) ∧
    (temp.toInt < 880 ∨ x.thermal = 2 → exec (.thermalTrip die isl temp) s = .next s) ∧
    (temp.toInt ≤ 760 → x.thermal = 1 ∨ x.thermal = 2 → exec (.thermalRecover die isl temp) s =
      .next (go ((s.modIsland i fun x => { x with thermal := x.thermal - 1 }).protEvent (3 + x.thermal) false die isl))) ∧
    (760 < temp.toInt ∨ x.thermal = 0 → exec (.thermalRecover die isl temp) s = .next s) ∧
    (∀ e, x.boost = some e → e ≤ s.timer → x.mv ≤ 1600 →
      exec (.boostEnd die isl) s = .next (s.modIsland i fun x => { x with boost := none })) ∧
    (∀ e, x.boost = some e → e ≤ s.timer → 1600 < x.mv →
      let u := s.modIsland i fun x => { x with boost := none, mv := 1600, mhz := min x.mhz 2250, status := 0 }
      exec (.boostEnd die isl) s = .next (go ((((u.noteClamp (s.clamped die) die).setProt 4).protEvent 6 true die isl).protEvent
        6 false die isl))) ∧
    -- answers
    (let n := tel.toNat / 2 ^ 40
     let ctx := tel.toNat / 2 ^ 32 % 2 ^ 8
     let b := tel.toNat % 2 ^ 8
     let st := if b = 0 ∨ b = 2 ∨ b = 3 ∨ b = 4 then b else Status.refused.code
     (∀ t, find? s.pwr.tickets n = some t → t.ctx = ctx →
       let hint := if t.kind = 1 ∧ st = 0 then some (t.value % 2 ^ 16, if t.dur = 0 then none else some (s.timer + t.dur)) else s.pwr.nextHint
       let u := { s with pwr := { s.pwr with tickets := erase s.pwr.tickets n, nextHint := hint } }
       exec (.policyAnswer tel) s = .next (if s.cohorts.any fun p => p.2.ci == t.ci && p.2.ctx == ctx && p.2.phase != .saved then
           u.postEvent t.ci { tag := n % 2 ^ 8, fault := 0, source := 5, opc := 0, status := st, progress := n, addr := 0, failed := [] }
         else u.bump .cluStray t.ci 1)) ∧
     ((∀ t, find? s.pwr.tickets n = some t → t.ctx ≠ ctx) → exec (.policyAnswer tel) s = .next s))

/-- R326 to R329, R333, R338: at a multiple of 1,000,000 ticks, once, the memory share takes the hint in force, stays where a
policy table is installed, or takes what the default policy makes of the stall ratio and the stacks' use, and the limits follow
from it; the energy of each island is charged to the live contexts that it worked for, in proportion. The memory rail's clamp
steps the command rate between 8/16 and 16/16, and the boiling-limit clamp steps the ceilings of a die's lane islands down by
100 MHz from what runs, halves issue where none can fall, and raises them all by 100 MHz after 100 quiet samples while one is
below 2,600 MHz. -/
def Obligations.PowerBudget : Prop :=
  ∀ (s : State) (read written watts die : Nat) (table : Option Bool),
    let p := s.pwr
    let peak := 3200000000 * (4 * s.dieCount)
    -- the 1 ms boundary
    (s.timer % 1000000 ≠ 0 ∨ p.bound = some s.timer → exec (.powerBoundary read written table) s = .next s) ∧
    (s.timer % 1000000 = 0 → p.bound ≠ some s.timer → p.rsv + min 640 (max 160 (109 * p.pkgLim / 1024)) ≤ p.pkgLim →
      let hint := (p.nextHint.or p.hint).bind fun h => match h.2 with
        | some e => if e ≤ s.timer then none else some h
        | none => some h
      let clamp (n : Nat) : Nat := if n < 27 then 27 else if 109 < n then 109 else n
      let up := p.sumOpp ≠ 0 ∧ 30 * p.sumOpp ≤ 100 * p.sumStall ∧ 80 * peak ≤ 100 * (read + written)
      let down := p.sumOpp = 0 ∨ 100 * p.sumStall ≤ 10 * p.sumOpp ∨ 100 * (read + written) ≤ 50 * peak
      -- what an island did for the contexts since the last boundary
      let takers (i : Nat) := p.takers.filter fun q => q.1 / 256 == i
      let all (i : Nat) : Nat := ((takers i).map Prod.snd).sum
      ∃ t, exec (.powerBoundary read written table) s = .next t ∧
        t.pwr.hint = hint ∧ t.pwr.nextHint = none ∧ t.pwr.sumOpp = 0 ∧ t.pwr.sumStall = 0 ∧
        (∀ h, hint = some h → t.pwr.mshare = clamp h.1) ∧
        (hint = none → s.timer = 0 ∨ table.getD p.table = true → t.pwr.mshare = p.mshare) ∧
        (hint = none → s.timer ≠ 0 → table.getD p.table = false → up → t.pwr.mshare = clamp (p.mshare + 8)) ∧
        (hint = none → s.timer ≠ 0 → table.getD p.table = false → ¬ up → down → t.pwr.mshare = clamp (p.mshare - 8)) ∧
        (hint = none → s.timer ≠ 0 → table.getD p.table = false → ¬ up → ¬ down → t.pwr.mshare = clamp p.mshare) ∧
        t.pwr.lmem = min 640 (max 160 (t.pwr.mshare * p.pkgLim / 1024)) ∧
        (t.pwr.mshare ≤ 109 → t.pwr.lcomp + p.rsv + t.pwr.lmem = p.pkgLim) ∧
        (∀ d c : Nat, p.caps[d]? = some c → t.pwr.dieLim[d]? = some (min c (t.pwr.lcomp / 4))) ∧
        (∀ ctx x, find? s.xlt.ctxs ctx = some x → find? t.xlt.ctxs ctx = some
          (if x.live then { x with energy := x.energy + (p.energy.map fun e => ((takers e.1).map fun q =>
            if q.1 % 256 = ctx then e.2 * q.2 / all e.1 else 0).sum).sum } else x)) ∧
        t = { s with freeCtr := t.freeCtr, xlt := { s.xlt with ctxs := t.xlt.ctxs }
                     pwr := { p with table := table.getD p.table, hint := t.pwr.hint, nextHint := none, mshare := t.pwr.mshare, sumOpp := 0, sumStall := 0,
                                     lmem := t.pwr.lmem, lcomp := t.pwr.lcomp, dieLim := t.pwr.dieLim
                                     bound := some s.timer, energy := [], takers := [] } }) ∧
    -- the memory rail
    (∃ t, exec (.memoryRailSample watts) s = .next t ∧ t.mem = s.mem ∧ t.cohorts = s.cohorts ∧ t.clusters = s.clusters ∧
      (p.lmem < watts → t.pwr.memLow = 0 ∧ t.pwr.memRate = max 8 (p.memRate - 1) ∧ (p.memRate = 16 → t.pwr.prot.getLsbD 7 = true)) ∧
      (watts ≤ p.lmem → 95 * p.lmem < 100 * watts → t.pwr.memLow = 0 ∧ t.pwr.memRate = p.memRate) ∧
      (100 * watts ≤ 95 * p.lmem → p.memLow + 1 < 100 → t.pwr.memLow = p.memLow + 1 ∧ t.pwr.memRate = p.memRate) ∧
      (100 * watts ≤ 95 * p.lmem → 100 ≤ p.memLow + 1 → t.pwr.memLow = 0 ∧ t.pwr.memRate = min 16 (p.memRate + 1)) ∧
      (p.memRate ≤ 16 → watts ≤ p.lmem → t.pwr.prot = p.prot)) ∧
    -- a die
    (die < 4 → p.quiet.length = 4 → p.halved.length = 4 →
      let at_ (u : State) (k : Nat) : Island := u.island (256 * die + k)
      let power := ((List.range 244).map fun k => (at_ s k).tel.toNat % 2 ^ 20).sum
      let lim := 10 * p.dieLim.getD die 0
      let some950 := ∃ k, k < 128 ∧ 950 < (at_ s k).ceilf
      let low := ∃ k, k < 128 ∧ (at_ s k).ceilf < 2600
      let quiet := p.quiet.getD die 0
      ∃ t, exec (.diePowerSample die) s = .next t ∧ t.mem = s.mem ∧ t.cohorts = s.cohorts ∧ t.clusters = s.clusters ∧
        (∀ j, (∀ k, k < 128 → j ≠ 256 * die + k) → t.island j = s.island j) ∧
        (∀ k, k < 128 → (at_ t k).mv = (at_ s k).mv ∧ (at_ t k).mhz = (at_ s k).mhz ∧ (at_ t k).n = (at_ s k).n) ∧
        (lim < power → some950 → (t.pwr.quiet.getD die 0 = 0 ∧ ∀ k : Nat, k < 128 →
          let c := (at_ s k).ceilf
          let runs := s.fnow (256 * die + k)
          (at_ t k).ceilf = max 950 ((if 0 < runs then min c runs else c) - 100))) ∧
        (lim < power → ¬ some950 → (t.pwr.quiet.getD die 0 = 0 ∧ t.pwr.halved.getD die false = true ∧
          ∀ k, k < 128 → at_ t k = at_ s k)) ∧
        (power ≤ lim → t.pwr.halved.getD die false = false) ∧
        (power ≤ lim → 95 * lim < 100 * power → t.pwr.quiet.getD die 0 = 0 ∧ ∀ k, k < 128 → at_ t k = at_ s k) ∧
        (100 * power ≤ 95 * lim → quiet + 1 < 100 → t.pwr.quiet.getD die 0 = quiet + 1 ∧ ∀ k, k < 128 → at_ t k = at_ s k) ∧
        (100 * power ≤ 95 * lim → 100 ≤ quiet + 1 → t.pwr.quiet.getD die 0 = 0 ∧
          (low → ∀ k, k < 128 → (at_ t k).ceilf = (at_ s k).ceilf + 100) ∧ (¬ low → ∀ k, k < 128 → at_ t k = at_ s k)))

/-- R303 to R305, R310, R311, R316: a TDI is locked with a new seal key, runs where its stream is secure, and when stopped or in
ERROR has no live context and no key slot of its world, and once stopped none of its scratchpad bytes and named tiles. SPDM
answers in the order of its stages (what it answers is coded as log entry 18 says), with at most four sessions, and IDE_KM in an
reads poisoned ones from a protected line and changes nothing there, counted. An evidence request ends OK with the
record over the buffer, or REFUSED with nothing written. -/
def Obligations.WorldsAndTheHost : Prop :=
  ∀ (s : State) (n sess slot world ctx fn pa len : Nat) (nonce key : Digest) (bytes : List Byte) (v : Word),
    let d := s.tdi n
    let p := s.sec.spdm
    let tells (u : State) (ok : Bool) (bs : List Byte) : State := { u with reply := ⟨ok, false, bs⟩ }
    let withTdi (u : State) (x : Tdi) : State := { u with sec := { u.sec with tdis := insert u.sec.tdis n x } }
    let spdm (x : Spdm) : State := { s with sec := { s.sec with spdm := x } }
    let emptied (t : State) (w : Nat) : Prop := (∀ k x, find? t.xlt.ctxs k = some x → x.world = w → x.live = false) ∧
      ∀ e ∈ t.sec.slots, e.2.world ≠ w
    -- TDIs
    (0 < n → d.state = 0 → exec (.lockInterfaceRequest n) s =
      .next (withTdi { s with sec := { s.sec with epochs := s.sec.epochs + 1 } } ⟨1, d.ide, s.sec.epochs + 1⟩)) ∧
    (n = 0 ∨ d.state ≠ 0 → exec (.lockInterfaceRequest n) s = .next s) ∧
    (0 < n → d.state = 1 → d.ide = true → exec (.startInterfaceRequest n) s = .next (withTdi s ⟨2, true, d.epoch⟩)) ∧
    (n = 0 ∨ d.state ≠ 1 ∨ d.ide = false → exec (.startInterfaceRequest n) s = .next s) ∧
    (0 < n → rising s.xlt.ctxs = true → ∃ t, exec (.stopInterfaceRequest n) s = .next t ∧ (t.tdi n).state = 0 ∧ (t.tdi n).epoch = 0 ∧ emptied t n ∧
      (∀ e ∈ t.clusters, ∀ b ∈ e.2.scratch, e.2.spadWorld.toNat / 2 ^ (4 * (b.1 / bankBytes)) % 16 ≠ n) ∧
      (∀ y ∈ t.names.tiles, y.world ≠ n)) ∧
    exec (.stopInterfaceRequest 0) s = .next s ∧
    (0 < n → n < 16 → d.ide = true → exec (.ideFailure (some n)) s =
      .next (((withTdi s ⟨d.state, false, d.epoch⟩).tdiError n).postError 4 4 (unitCode 0 7 0) n 0 0)) ∧
    (n = 0 ∨ 15 < n ∨ d.ide = false → exec (.ideFailure (some n)) s = .next s) ∧
    (s.sec.link = true → exec (.ideFailure none) s = .next (((List.range 16).foldl (fun (u : State) k => u.tdiError k)
      { s with sec := { s.sec with link := false } }).postError 4 4 (unitCode 0 7 0) 0 0 0)) ∧
    (s.sec.link = false → exec (.ideFailure none) s = .next s) ∧
    (d.state = 1 ∨ d.state = 2 → rising s.xlt.ctxs = true → ((s.tdiError n).tdi n).state = 3 ∧ emptied (s.tdiError n) n) ∧
    (d.state ≠ 1 → d.state ≠ 2 → s.tdiError n = s) ∧
    -- SPDM
    exec .getVersion s = .next (tells (spdm { p with stage := 1 }) true [0x12, 0x13]) ∧
    (exec .getCapabilities s = .next (if p.stage = 0 then tells s false [] else tells (spdm { p with stage := max 2 p.stage }) true [4])) ∧
    (exec .negotiateAlgorithms s = .next (if p.stage < 2 then tells s false [] else tells (spdm { p with stage := 3 }) true [1, 2, 3, 4])) ∧
    (let ms := (List.range 3).flatMap fun i => toBytes (Config.measurement i s.mc.configs).toNat 32
     let cert := toBytes Config.certDigest.toNat 32
     let signed (bs : List Byte) := toBytes (Config.sm2Sign (Config.sm3 bs)).toNat 64
     ∀ e ∈ [(Instr.getDigests, cert), (.getCertificate, cert), (.challenge nonce, signed (toBytes nonce.toNat 32 ++ cert)),
         (.getMeasurements nonce, ms ++ signed (toBytes nonce.toNat 32 ++ ms))],
       exec e.1 s = .next (if p.stage < 3 then tells s false [] else tells s true e.2)) ∧
    (3 ≤ p.stage → p.sessions.length < 4 → fn < 16 → ∃ k, k < 5 ∧ p.session? k = none ∧ exec (.keyExchange fn) s =
      .next (tells (spdm { p with sessions := p.sessions ++ [(k, fn, false)] }) true (toBytes k 1))) ∧
    (p.stage < 3 ∨ 4 ≤ p.sessions.length ∨ 15 < fn → exec (.keyExchange fn) s = .next (tells s false [])) ∧
    (∀ f, p.session? sess = some (f, false) → ∃ t, exec (.finish sess) s = .next t ∧ t.reply = ⟨true, false, []⟩ ∧
      t.sec.spdm.session? sess = some (f, true) ∧ t = { s with reply := t.reply, sec := { s.sec with spdm := t.sec.spdm } }) ∧
    ((∀ f, p.session? sess ≠ some (f, false)) → exec (.finish sess) s = .next (tells s false [])) ∧
    (∀ i ∈ [Instr.keyUpdate sess, .heartbeat sess], exec i s = .next (tells s (p.open? sess) [])) ∧
    (exec (.endSession sess) s = .next (if p.open? sess then
      tells (spdm { p with sessions := p.sessions.filter fun x => x.1 != sess }) true [] else tells s false [])) ∧
    -- IDE_KM (log entry 18)
    step { s with tape := .ideKm sess n :: s.tape } = .next (s.ideKm sess n) ∧
    (∀ f, p.session? sess = some (f, true) → n < 16 → f = 0 ∨ f = n → s.ideKm sess n =
      if n = 0 then tells { s with sec := { s.sec with link := true } } true [] else tells (withTdi s ⟨d.state, true, d.epoch⟩) true []) ∧
    ((∀ f, p.session? sess = some (f, true) → 15 < n ∨ f ≠ 0 ∧ f ≠ n) → s.ideKm sess n = tells s false []) ∧
    -- key slots
    (∀ x, s.ctx? ctx = some x →
      let granted := p.open? sess = true ∧ slot < 64 ∧ find? s.sec.slots slot = none ∧ x.live = true ∧ x.world = world ∧
        ((world = 0 ∧ (p.session? sess).map Prod.fst = some 0) ∨ (world ≠ 0 ∧ ((s.tdi world).state = 1 ∨ (s.tdi world).state = 2)))
      (granted → exec (.keySet sess slot world ctx key) s =
        .next (tells { s with sec := { s.sec with slots := insert s.sec.slots slot ⟨world, ctx, key, 0⟩ } } true [])) ∧
      (¬ granted → exec (.keySet sess slot world ctx key) s = .next (tells s false []))) ∧
    (exec (.keyClear sess slot) s = .next (if p.open? sess then
      tells { s with sec := { s.sec with slots := erase s.sec.slots slot } } true [] else tells s false [])) ∧
    -- host accesses, of part of a line on which no cluster holds a grant
    (let l := s.line (pa / 128)
     let denied := l.tag ≠ 0 ∨ ∃ w old, l.held = some (w, old) ∧ w ≠ 0
     (∀ c ∈ s.clusters, pa / 128 ∉ c.2.granted) → s.isDevice pa = true →
     (0 < len → pa % 128 + len ≤ 128 → denied →
       exec (.hostMemoryRead pa len) s = .next { s with reply := ⟨true, true, List.replicate len 0xFF⟩ }) ∧
     (0 < len → pa % 128 + len ≤ 128 → ¬ denied → s.checkLine 0 (pa / 128) = (.ok, s) →
       exec (.hostMemoryRead pa len) s = .next { s with reply := ⟨true, false, s.mem.getBytes pa len⟩ }) ∧
     (bytes ≠ [] → pa % 128 + bytes.length ≤ 128 → denied →
       exec (.hostMemoryWrite pa bytes) s = .next (tells (s.bump .secHostDeny 0 1) true [])) ∧
     (bytes ≠ [] → pa % 128 + bytes.length < 128 → ¬ denied → l.poison = false →
       exec (.hostMemoryWrite pa bytes) s = .next (tells { s with mem := s.mem.setBytes pa bytes } true []))) ∧
    -- evidence
    (v.getLsbD 31 = false → exec (.jobEvidenceRequest v) s = .next { s with sec := { s.sec with evReq := v &&& 0xFF } }) ∧
    (v.getLsbD 31 = true → ∀ x, s.ctx? (v.toNat % 256) = some x →
      let c := v.toNat % 256
      let u := { s with sec := { s.sec with evReq := v &&& 0xFF } }
      let ends (y : State) (st : Nat) : State := { y with sec := { y.sec with evDone := true, evStatus := st } }
      let may := x.live = true ∧ (x.world = 0 ∨ (s.tdi x.world).state = 1 ∨ (s.tdi x.world).state = 2)
      (¬ may → exec (.jobEvidenceRequest v) s = .next (ends u 2)) ∧
      (may → ∀ q w nonce w' y, u.translateHub c s.sec.evAddr.toNat Need.atomic = (.ok q, w) → w.worldOk c q.world = true →
        w.readPhys q.world (q.pa + 8) 32 = (.ok nonce, w') →
        let bs := w'.evidence c x.world nonce
        let record := bs ++ toBytes (Config.sm2Sign (Config.sm3 bs)).toNat 64
        (w'.writable q.world q.pa record = (true, y) → exec (.jobEvidenceRequest v) s =
          .next (ends (((linesOf q.pa record.length).foldl (fun u n => u.recall hostAgent n) y).writePhys q.world q.pa record).2 0)) ∧
        (w'.writable q.world q.pa record = (false, y) → exec (.jobEvidenceRequest v) s = .next (ends y 2))))

/-- R8, R215, R261, R276, R297, R300, R302, R317, R326, R330, R334, R347, R358, R360: a write of a register stores its RW fields,
clears what its W1C bits name and leaves its read-only ones; a read of an RC register returns what it holds and clears it. In BAR0
an access of another size or alignment than 4 or 8 bytes is an Unsupported Request, a place without a register reads zero and
ignores writes, and the directory gives every register with its offset. An array that no access has reached for its idle interval,
where that is not 0, enters retention with its contents, and an access brings it out, its wait counted (ways of a slice: log
entry 75). -/
def Obligations.RegisterAccesses : Prop :=
  ∀ (s : State) (i : Nat) (v : DWord) (r : RcReg) (arr : RetArray) (waited : Nat),
    let n := v.toNat
    let w := n % 2 ^ 16
    let page := v &&& 0x000FFFFFFFFFF000#64
    let logn (old lo hi : Nat) : Nat := if lo ≤ n % 16 ∧ n % 16 ≤ hi then n % 16 else old
    let en := v.getLsbD 31
    let x := s.xlt
    let m := s.mc
    let p := s.pwr
    let idle : Nat := match arr with
      | .bank ci _ => (nth p.retIdle (dieOf ci) 0).toNat % 2 ^ 32
      | .way d _ _ => (nth p.retIdle d 0).toNat / 2 ^ 32
    -- writes
    (∀ e ∈ [
      (RwReg.xltCtxtBase, { s with xlt := { x with ctxBase := v &&& 0x000FFFFFFFFFC000#64 } }),
      (.xltFqBase, { s with xlt := { x with fqBase := page } }),
      (.xltFqCfg, State.postWaiting { s with xlt := { x with fqEn := en, fqLogn := if x.fqEn then x.fqLogn else logn x.fqLogn 4 12 } }),
      (.xltFqHead, State.postWaiting { s with xlt := { x with fqHead := w } }),
      (.xltMigPa, { s with xlt := { x with migPa := page } }),
      (.mcErrBase, { s with mc := { m with errBase := page } }),
      (.mcErrCfg, { s with mc := { m with errEn := en, errLogn := logn m.errLogn 6 14 } }),
      (.mcErrHead, { s with mc := { m with errHead := w } }),
      (.mcEvaddr, { s with sec := { s.sec with evAddr := v &&& 0x0000FFFFFFFFF000#64 } }),
      (.mcEvstat, if en then { s with sec := { s.sec with evDone := false } } else s),
      (.pwrProtStat, { s with pwr := { p with prot := p.prot &&& ~~~(v &&& 0xFF0#64) } }),
      (.pwrPkgLim, { s with pwr := { p with pkgLim := if 6000 < w then 6000 else w } }),
      (.pwrRsv, { s with pwr := { p with rsv := w } }),
      (.pwrCap, { s with pwr := { p with caps := setNth p.caps i (if w < 400 then 400 else if 1350 < w then 1350 else w) } }),
      (.pwrSlide, { s with pwr := { p with mshare := n % 2 ^ 10 } }),
      (.pwrPqBase, { s with pwr := { p with pqBase := v &&& 0x000FFFFFFFFFFFE0#64 } }),
      (.pwrPqCfg, { s with pwr := { p with pqEn := en, pqLogn := if p.pqEn then p.pqLogn else logn p.pqLogn 4 10 } }),
      (.pwrPqHead, { s with pwr := { p with pqHead := w } }),
      (.pwrRetIdle, { s with pwr := { p with retIdle := setNth p.retIdle i v } }),
      (.wearLife, if w = 0 then s else { s with wear := { s.wear with tgt := w } }),
      (.lchQbase, if i < 256 then s.modQueue i fun q => { q with base := page } else s),
      (.cluQstallLim, if s.isCluster i then s.modCluster i fun c => { c with qstall := BitVec.ofNat 32 n } else s),
      (.cluHangLim, if s.isCluster i then s.modCluster i fun c => { c with hangLim := BitVec.ofNat 32 n } else s),
      (.readOnly, s)],
      exec (.registerWrite e.1 i v) s = .next e.2) ∧
    (∃ c : DWord, exec (.registerWrite .wearCtl i v) s = .next { s with wear := { s.wear with ctlNew := c } } ∧
      c &&& ~~~0x00FF0000#64 = v &&& 0x000000FFCF00FF00#64 ∧
      c.toNat / 2 ^ 16 % 2 ^ 8 = if n / 2 ^ 16 % 2 ^ 8 = 0 then s.wear.ctlNew.toNat / 2 ^ 16 % 2 ^ 8 else n / 2 ^ 16 % 2 ^ 8) ∧
    (i < 36 → ∃ a : DWord, exec (.registerWrite .fabPortAlarm i v) s =
        .next { s with fab := { s.fab with ports := insert s.fab.ports i { s.fabPort i with alarm := a } } } ∧
      let old := (s.fabPort i).alarm
      (∀ k, k = 61 ∨ k = 62 ∨ k = 63 → a.getLsbD k = (old.getLsbD k && !v.getLsbD k)) ∧ a.getLsbD 60 = old.getLsbD 60 ∧
      a.toNat / 2 ^ 56 % 2 ^ 4 = 0 ∧ a.toNat / 2 ^ 48 % 2 ^ 8 = max 17 (n / 2 ^ 48 % 2 ^ 8) ∧
      a.toNat / 2 ^ 24 % 2 ^ 24 = min 999999 (n / 2 ^ 24 % 2 ^ 24) ∧ a.toNat % 2 ^ 24 = n % 2 ^ 24) ∧
    exec (.registerWrite .bbxCtl i v) s = exec (.bbxCommitRequest v) s ∧ exec (.bbxDump v) s = exec (.bbxCommitRequest v) s ∧
    exec (.registerWrite .wearRpt i v) s = exec (.wearReport v) s ∧
    (let ctx := n / 2 ^ 4 % 2 ^ 8
     let va := n / 2 ^ 12
     let op := n % 2 ^ 4
     (op = 0 → exec (.registerWrite .xltFqResp i v) s = exec (.faultReplay ctx (va % 2 ^ 36)) s) ∧
     (op = 1 → exec (.registerWrite .xltFqResp i v) s = exec (.faultDecline ctx (va % 2 ^ 36)) s) ∧
     (1 < op → exec (.registerWrite .xltFqResp i v) s = .next s) ∧
     (op = 4 → exec (.registerWrite .xltCmd i v) s = exec (.migratePage ctx va) s) ∧
     (op = 2 → exec (.registerWrite .xltCmd i v) s = exec (.invalidatePage ctx va) s) ∧
     (va = 0 → (op = 1 → exec (.registerWrite .xltCmd i v) s = exec (.invalidateContext ctx) s) ∧
       (ctx = 0 → op = 3 → exec (.registerWrite .xltCmd i v) s = exec .invalidateAll s) ∧
       (op = 5 → exec (.registerWrite .xltCmd i v) s = exec (.teardown ctx) s)) ∧
     (op = 0 ∨ 5 < op → exec (.registerWrite .xltCmd i v) s =
       .next (if x.busy then s else { s with xlt := { x with cmd := v } }))) ∧
    -- reads
    (let fe (sp : Nat) : FrontEnd := nth (s.cluster i).fe sp FrontEnd.reset
     let fifos := (fe 0).occ + (fe 1).occ * 2 ^ 5 + (fe 2).occ * 2 ^ 10 + (fe 3).occ * 2 ^ 15 +
       (fe 0).hw * 2 ^ 20 + (fe 1).hw * 2 ^ 25 + (fe 2).hw * 2 ^ 30 + (fe 3).hw * 2 ^ 35
     (s.isCluster i = true → exec (.rcRead .cluXfifo i) s =
       .next (({ s with reply := ⟨true, false, toBytes fifos 8⟩ }).modCluster i fun c =>
         { c with fe := c.fe.map fun (f : FrontEnd) => { f with hw := 0 } })) ∧
     (r ≠ .cluXfifo → i < 2 ^ 16 → exec (.rcRead r i) s =
       .next { s with counters := erase s.counters (rcKey r i), reply := ⟨true, false, toBytes (s.counter r i) 8⟩ })) ∧
    -- BAR0
    (∀ (fn off len : Nat) (env : WriteEnv), let size := if fn = 0 then 2 ^ 28 else 2 ^ 16
      let legal : Prop := (len = 4 ∨ len = 8) ∧ off % len = 0 ∧ off + len ≤ size
      step { s with tape := .barRead fn off len :: s.tape } = .next (s.barRead fn off len) ∧
      step { s with tape := .barWrite fn off len v env :: s.tape } = .next (s.barWrite fn off len v env) ∧
      (¬ legal → s.barRead fn off len = { s with reply := ⟨false, false, []⟩ } ∧
        s.barWrite fn off len v env = { s with reply := ⟨false, false, []⟩ }) ∧
      (legal → fn = 0 → len = 4 → s.regAt off = none → s.barWrite fn off len v env = { s with reply := ⟨true, false, []⟩ } ∧
        (off < 0x00F00000 ∨ 0x01000000 ≤ off → s.barRead fn off len = { s with reply := ⟨true, false, [0, 0, 0, 0]⟩ }))) ∧
    (∀ row ∈ allRegs, ∃ k at_ : Nat, (∀ o, row.pos = some o → at_ = o) ∧ k < 2 ^ 15 ∧
      (directory.drop (32 * k)).take 32 = (row.name.toList.map fun ch => BitVec.ofNat 8 ch.toNat) ++
        List.replicate (24 - row.name.length) 0 ++ toBytes at_ 4 ++ toBytes row.width 2 ++ [0, 0]) ∧
    -- retention
    (let last : Nat := match arr with
       | .bank ci b => findD (s.cluster ci).touched b 0
       | .way _ _ _ => 0
     let rest := p.asleep.filter fun e => e.arr != arr
     let enters : Prop := s.isArray arr = true ∧ idle ≠ 0 ∧ s.sleeping arr = false ∧ last + idle ≤ s.timer
     (enters → exec (.retentionEntry arr) s = .next { s with pwr := { p with asleep := rest ++ [⟨arr, s.timer, none⟩] } }) ∧
     (¬ enters → exec (.retentionEntry arr) s = .next s) ∧
     (∀ e, p.asleep.find? (fun e => e.arr == arr) = some e →
       (∀ tick, e.wake = some tick → exec (.retentionExit arr waited) s =
         .next (if s.timer < tick then s else { s with pwr := { p with asleep := rest } })) ∧
       (∀ ci b, arr = .bank ci b → e.wake = none → exec (.retentionExit arr waited) s = .next s ∧
         let wait := (e.since + 2000 - s.timer) + 1500
         let t := s.touchBank ci b
         t.counters = (s.bump .cluRetWait ci wait).counters ∧ ∀ e ∈ t.pwr.asleep, e.arr = arr → e.wake = some (s.timer + wait)) ∧
       (∀ d sl way, arr = .way d sl way → e.wake = none →
         (waited = 0 ∨ 28000 < waited → exec (.retentionExit arr waited) s = .next s) ∧
         (0 < waited → waited ≤ 28000 → ∃ t ci, exec (.retentionExit arr waited) s = .next t ∧
           t = { s with pwr := { p with asleep := rest }
                        choices := t.choices, choiceCtr := t.choiceCtr, counters := t.counters } ∧
           t.counters = (s.bump .cluRetWait ci waited).counters))) ∧
     (p.asleep.find? (fun e => e.arr == arr) = none → exec (.retentionExit arr waited) s = .next s))

/-- R268, R301, R304, R306, R313 to R315: a write to the low words of a 128-bit register is staged, one to the highest commits, and
a read of its lowest word latches the rest. A committed routing entry is valid only with a size of at most 4, a home on a die that
is there and a tensor id of its own, and is not closed where the old one was valid; a group's entry loses ATT, which attestation
of its switches by the reference list sets again, and a switch that fails takes from every group that has it. Sub-partitions
without a crew and ways are given to worlds, with the copies of a world that loses a way invalidated (log entry 75), unless a
world of them is LOCKED or RUN, whose TDI then goes to ERROR. A port's sample raises its alarms; retraining clears DOWN. -/
def Obligations.AssignmentsAndFabric : Prop :=
  ∀ (s : State) (r : Reg128) (word i ci die port : Nat) (wide : Bool) (v : DWord) (w : Word) (rs : List SwitchReport)
    (gs : List (Nat × List SwitchReport)) (ident : Digest) (eye : BitVec 8) (cfr : BitVec 24) (ttf : Word),
    let field (x : BitVec 128) (lo n : Nat) : Nat := x.toNat / 2 ^ lo % 2 ^ n
    let commit (q : Reg128) : BitVec 128 := BitVec.ofNat 128 (if wide then v.toNat * 2 ^ 64 + (s.staged q).toNat % 2 ^ 64
      else v.toNat * 2 ^ 96 + (s.staged q).toNat % 2 ^ 96)
    -- attestation by a reference list that reads as `refs`
    let passes (refs : List (List Byte)) (x : SwitchReport) : Prop :=
      x.chain = true ∧ toBytes x.ident.toNat 32 ++ toBytes x.meas.toNat 32 ∈ refs
    let reads (u : State) (refs : List (List Byte)) : Prop := ∀ st gr sw,
      ({ u with staging := st, fab := { u.fab with groups := gr, switches := sw } } : State).swrefs =
        (refs, { u with staging := st, fab := { u.fab with groups := gr, switches := sw } })
    let has (g : Nat) (d : Digest) : Prop := ∃ l, find? s.fab.switches g = some l ∧ ∃ p ∈ l, p.1 = d
    let group (u : State) (g : Nat) : BitVec 128 := u.reg128 (.fabCgrp g)
    -- staging
    ((wide = false → word ≤ 2) → (wide = true → word = 0) → ∃ t, exec (.reg128StagingWrite r word wide v) s = .next t ∧
      t = { s with staging := t.staging } ∧ (∀ q, q ≠ r → t.staged q = s.staged q) ∧
      ∀ k, k < 128 → (t.staged r).getLsbD k =
        if 32 * word ≤ k ∧ k < 32 * word + (if wide then 64 else 32) then v.getLsbD (k - 32 * word) else (s.staged r).getLsbD k) ∧
    (wide = false → 2 < word → exec (.reg128StagingWrite r word wide v) s = .next s) ∧
    (∃ t, exec (.reg128LowRead r) s = .next t ∧ t.reply = ⟨true, false, toBytes (s.reg128 r).toNat 8⟩ ∧ t.staged r = s.reg128 r ∧
      t.latches.find? (fun p => p.1 == r) = some (r, (s.reg128 r).extractLsb' 32 96) ∧
      (∀ q, q ≠ r → t.staged q = s.staged q ∧ t.latches.find? (fun p => p.1 == q) = s.latches.find? fun p => p.1 == q) ∧
      t = { s with staging := t.staging, latches := t.latches, reply := t.reply }) ∧
    -- routing entries
    (let q := Reg128.nrtEnt i
     let x := commit q
     let old := s.reg128 q
     let dup := s.names.ents.any fun p => p.1 != i && p.2.getLsbD 111 && (field p.2 112 16 == field x 112 16)
     (wide = true ∨ v.toNat < 2 ^ 32) → rising s.names.ents = true → ∃ t e, exec (.nrtEntWrite i wide v) s = .next t ∧
       t.reg128 q = e ∧ t.staged q = e ∧ (∀ j, j ≠ i → find? t.names.ents j = find? s.names.ents j) ∧
       field e 112 16 = field x 112 16 ∧ e.getLsbD 111 = (x.getLsbD 111 && decide (field x 99 3 ≤ 4) && decide (field x 109 2 < s.dieCount) && !dup) ∧
       field e 99 12 = field x 99 12 ∧ field e 96 3 = 0 ∧ field e 64 32 = field x 64 32 ∧
       field e 47 17 = (if old.getLsbD 111 then 0 else field old 47 17) ∧ field e 40 7 = 0 ∧ field e 32 8 = field x 32 8 ∧
       field e 0 32 = 0 ∧
       t = { s with staging := t.staging, names := { s.names with
                      ents := t.names.ents, owners := erase s.names.owners i, tiles := t.names.tiles } }) ∧
    -- groups of collectives
    (let x := commit (.fabCgrp i)
     (wide = true ∨ v.toNat < 2 ^ 32) → ∃ e : BitVec 128,
       (∀ k, k < 128 → e.getLsbD k = (x.getLsbD k && decide (k ≠ 122 ∧ (k < 36 ∨ 68 ≤ k)))) ∧
       let u : State := { s with
         staging := s.staging.filter fun p => !(p.1 == .fabCgrp i)
         fab := { s.fab with groups := insert s.fab.groups i e, switches := erase s.fab.switches i } }
       (x.getLsbD 127 = false → exec (.fabCgrpWrite i wide v rs) s = .next u) ∧
       (x.getLsbD 127 = true → ∃ t, exec (.fabCgrpWrite i wide v rs) s = .next t ∧
         (rising s.fab.groups = true → rising s.fab.switches = true → ∀ refs, reads u refs →
           (∀ k, k < 128 → k ≠ 122 → (group t i).getLsbD k = e.getLsbD k) ∧
           ((group t i).getLsbD 122 = true ↔ ∀ z ∈ rs, passes refs z) ∧ t.staged (.fabCgrp i) = group t i ∧
           (∀ g, g ≠ i → (∀ k, k < 128 → k ≠ 122 → (group t g).getLsbD k = (group s g).getLsbD k) ∧
             ((group t g).getLsbD 122 = true ↔ (group s g).getLsbD 122 = true ∧ ∀ z ∈ rs, ¬ passes refs z → ¬ has g z.ident)) ∧
           t = { u with staging := t.staging, fab := { u.fab with groups := t.fab.groups, switches := t.fab.switches } }))) ∧
    (∃ t, exec (.mcSwrefWrite v gs) s = .next t ∧
      (let u : State := { s with fab := { s.fab with swref := v &&& 0x000FFFFFFFFFFFFF#64 } }
       rising s.fab.groups = true → rising s.fab.switches = true → ∀ refs, reads u refs →
         t = { u with staging := t.staging, fab := { u.fab with groups := t.fab.groups, switches := t.fab.switches } } ∧
         ∀ g, (find? s.fab.groups g).isSome → (group s g).getLsbD 127 = true →
           (∀ k, k < 128 → k ≠ 122 → (group t g).getLsbD k = (group s g).getLsbD k) ∧
           -- a switch that passed here and fails for a group that is attested later is one that has failed
           ((group t g).getLsbD 122 = true ↔ ∃ e, gs.find? (fun e => e.1 == g) = some e ∧ (∀ z ∈ e.2, passes refs z) ∧
             ∀ h f, g < h → (group s h).getLsbD 127 = true → gs.find? (fun e => e.1 == h) = some f →
               ∀ z ∈ f.2, ¬ passes refs z → ∀ y ∈ e.2, y.ident ≠ z.ident))) ∧
    (rising s.fab.groups = true → rising s.fab.switches = true → ∃ t, exec (.switchSessionClose ident) s = .next t ∧ ∀ g,
       (has g ident → (group t g).getLsbD 122 = false) ∧ (¬ has g ident → group t g = group s g) ∧
       ∀ k, k < 128 → k ≠ 122 → (group t g).getLsbD k = (group s g).getLsbD k) ∧
    -- resources of worlds
    (let old (sp : Nat) : Nat := (s.cluster ci).spWorld.toNat / 2 ^ (4 * sp) % 16
     let new (sp : Nat) : Nat := w.toNat / 2 ^ (4 * sp) % 16
     let moves (sp : Nat) : Prop := sp < 4 ∧ old sp ≠ new sp ∧ s.crewsOn ci sp = 0
     let frozen (x : Nat) : Prop := s.frozenWorld x = true ∧ ∃ sp, sp < 4 ∧ old sp ≠ new sp ∧ (x = old sp ∨ x = new sp)
     ((∀ x, ¬ frozen x) → ∃ t, exec (.secSpWorldWrite ci w) s = .next t ∧
       (∀ sp, sp < 4 → (moves sp → (t.cluster ci).spWorld.toNat / 2 ^ (4 * sp) % 16 = new sp) ∧
         (¬ moves sp → (t.cluster ci).spWorld.toNat / 2 ^ (4 * sp) % 16 = old sp)) ∧
       t = s.modCluster ci fun c => { c with spWorld := (t.cluster ci).spWorld }) ∧
     (∀ x, frozen x → ∃ t, exec (.secSpWorldWrite ci w) s = .next t ∧ (t.tdi x).state = 3 ∧
       (t.cluster ci).spWorld = (s.cluster ci).spWorld)) ∧
    (let old (k : Nat) : Nat := (s.die die).wayMap.toNat / 2 ^ (4 * k) % 16
     let new (k : Nat) : Nat := v.toNat / 2 ^ (4 * k) % 16
     let frozen (x : Nat) : Prop := s.frozenWorld x = true ∧ ∃ k, k < 12 ∧ old k ≠ new k ∧ (x = old k ∨ x = new k)
     ((∀ x, ¬ frozen x) → ∃ t, exec (.slcWaymapWrite die v) s = .next t ∧ (t.die die).wayMap = v &&& 0x0000FFFFFFFFFFFF#64 ∧
       ∀ k, k < 12 → old k ≠ new k → ∀ e ∈ (t.die die).rdc, e.2 ≠ old k) ∧
     (∀ x, frozen x → ∃ t, exec (.slcWaymapWrite die v) s = .next t ∧ (t.tdi x).state = 3 ∧
       (t.die die).wayMap = (s.die die).wayMap)) ∧
    -- ports
    (let p := s.fabPort port
     let thr (lo n : Nat) : Nat := p.alarm.toNat / 2 ^ lo % 2 ^ n
     let down := eye.toNat ≤ 16 ∨ 10 ^ 6 ≤ cfr.toNat
     (∃ t, exec (.portHealthSample port eye cfr ttf) s = .next t ∧
       let a := (t.fabPort port).alarm
       (t.fabPort port).health.toNat = eye.toNat * 2 ^ 56 + cfr.toNat * 2 ^ 32 + ttf.toNat ∧
       (a.getLsbD 63 = true ↔ p.alarm.getLsbD 63 = true ∨ eye.toNat < thr 48 8) ∧
       (a.getLsbD 62 = true ↔ p.alarm.getLsbD 62 = true ∨ thr 24 24 < cfr.toNat) ∧
       (a.getLsbD 61 = true ↔ p.alarm.getLsbD 61 = true ∨ ttf.toNat < thr 0 24) ∧
       (a.getLsbD 60 = true ↔ p.alarm.getLsbD 60 = true ∨ down) ∧ a.toNat % 2 ^ 60 = p.alarm.toNat % 2 ^ 60 ∧
       t = { s with fab := t.fab, mc := t.mc, mem := t.mem, lines := t.lines, counters := t.counters, clusters := t.clusters }) ∧
     (∃ a : DWord, exec (.linkRetrainComplete port) s =
         .next { s with fab := { s.fab with ports := insert s.fab.ports port { p with alarm := a } } } ∧
       a.getLsbD 60 = false ∧ ∀ k, k < 64 → k ≠ 60 → a.getLsbD k = p.alarm.getLsbD k))

/-- R67 to R69, R71, R155, R159, R173, R178 to R180, R184, R186, R198, R210: what the device does by itself for the threads. A status comes
with what it reports (a binding made or refused, accumulator lines all at +0 or none, an offer, a landing buffer). A flush
writes each element once and takes the lines out of accumulator state unless it keeps them. A landed line of a `bload`
arrives with 128 bytes, and one that cannot be read never does. A push that has waited longer than the limit and still finds no
room traps. A
matrix unit loads its K rows in order, sums a block when its rows are there, parks on a PAGE_FAULT and abandons its
operation on any other fault; a slice adds a partial in the accumulator's format; an operation completes when none of its
partials is left. -/
def Obligations.DeviceWorkForThreads : Prop :=
  ∀ (s s1 s2 : State) (co id line g ci sp : Nat) (c : Cohort) (p : Pend) (b : Bload) (o : MatOp) (m : Partial) (sh : Shadow),
    let full (u : State) (v : Nat) : Host.Outcome State Fault Refusal := .next (u.fillStatus co id v)
    let comes := exec (.statusDestinationFull co id) s
    -- statuses
    (find? s.cohorts co = some c → find? c.pends id = some p →
      (∀ role q kind sig trapq target, p.kind = .qbind role q kind sig trapq target →
        let u := s.unbind co role q
        (∀ e, s.bindCheck co c role kind target = .error e → comes = full s e.code) ∧
        (∀ ds, s.bindCheck co c role kind target = .ok ds →
          (kind = 0 → comes = full u 0) ∧
          (kind ∈ [1, 3, 4, 7] → comes = full (u.modCohort co fun c => { c with
            queues := insert c.queues (8 * role + q) ⟨kind, sig, trapq, target, ds, 0, [], c.fresh⟩, fresh := c.fresh + 1 }) 0))) ∧
      (∀ lines fmt, p.kind = .maccInit lines fmt →
        let bad : Prop := ∃ n w, (n, w) ∈ lines ∧ (w ≠ 0 ∧ s.hasWay (128 * n / dieBytes) w = false ∨
          s.sliceFailed (128 * n / dieBytes) (sliceOf (128 * n)) = true)
        (bad → comes = full s 1) ∧
        (¬ bad → (∀ n w, (n, w) ∈ lines → ∃ sh, find? s.shadows n = some sh ∧ sh.world = w) →
          ∃ u, comes = full u 0 ∧ u = { s with shadows := u.shadows } ∧
            (∀ n, (∀ w, (n, w) ∉ lines) → find? u.shadows n = find? s.shadows n) ∧
            (∀ n w, (n, w) ∈ lines → find? u.shadows n = some ⟨c.ctx, w, fmt, List.replicate 16 0, false⟩))) ∧
      (∀ name lines, p.kind = .noffer name lines →
        (s.offerable c.world name = none → comes = full s 2) ∧
        (∀ e, s.offerable c.world name = some e → (s.names.tiles.any fun t => t.name == name) = true →
          comes = full ((s.noteOffer co name).bump .cluNofferDup c.ci 1) 0)) ∧
      (∀ port off slots ba barr, p.kind = .mland port off slots ba barr →
        let lands (f : FMap Landing → FMap Landing) := s.modCluster c.ci fun cl => { cl with landing := f cl.landing }
        (∀ l, find? (s.cluster c.ci).landing port = some l → l.cohort ≠ co → comes = full s 1) ∧
        ((∀ l, find? (s.cluster c.ci).landing port = some l → l.cohort = co) →
          (slots = 0 → comes = full ((lands fun m => erase m port).testBars co) 0) ∧
          (0 < slots → slots ≤ 4096 → off % 128 = 0 → off + 128 * slots ≤ c.spadBytes →
            comes = full ((lands fun m => insert m port ⟨co, off, slots, 0, ba, barr⟩).testBars co) 0) ∧
          (0 < slots → 4096 < slots ∨ off % 128 ≠ 0 ∨ c.spadBytes < off + 128 * slots → comes = full s 2))) ∧
      (∀ k v ls, p.kind = .known → p.lanes = (k, v) :: ls → comes = full s v)) ∧
    -- flushes
    (find? s.cohorts co = some c → find? c.pends id = some p → ∀ f, p.kind = .flush f →
      let here (n : Nat) : Prop := ∃ pa ∈ f.lines, n = pa / 128
      -- no line that it writes in part refuses the write; else the threads take INTEGRITY_FAULT (log entry 73)
      (∀ w, s.flushOpen f = (false, w) → exec (.flushComplete co id) s = .next
        (let u := (w.setDue co (c.threadsOf p.issue) .integrityFault).fillStatus co id 2
         if f.evt then u.postEvent c.ci ⟨f.md, 0, 4, 0, 2, 0, 0, []⟩ else u)) ∧
      ∀ w, s.flushOpen f = (true, w) → w.shadows = s.shadows →
      ∃ v u, exec (.flushComplete co id) s = .next (if f.evt then (u.fillStatus co id v).postEvent c.ci
          ⟨f.md, 0, 4, 0, v % 256, if v % 256 = 0 then f.desc.m * f.desc.n else 0, 0, []⟩ else u.fillStatus co id v) ∧
        ((∃ n, here n ∧ find? s.shadows n = none) → v = 2 ∧ u = w) ∧
        ((∀ n, here n → find? s.shadows n ≠ none) → v % 256 = 0 ∧
          (∀ n, find? u.shadows n = if f.keep then find? s.shadows n else if f.lines.any (fun pa => pa / 128 == n) then none else find? s.shadows n) ∧
          (∀ d tag, f.lines = [line] → f.desc.m = 1 → f.desc.n = 1 → f.dests = [(d, tag)] → find? s.shadows (line / 128) = some sh →
            sh.poison = false → f.keep = true →
            let x := sh.fmt.val (nth sh.elems 0 0).toNat
            let r := f.ety.result f.rnd false f.sat x 0
            let bytes := toBytes r.1 (flushSize f.ety)
            u = (((w.recall c.ci (d / 128)).writePhys tag d bytes).2).ncStore c.ci d bytes ∧
            v = (if x.isNan then 256 else 0) + (match x with | .inf _ => 512 | _ => 0) +
              (match x with
                | .num .. => (if r.2 &&& flOF ≠ 0 then 1024 else 0)
                | _ => 0) + (if r.2 &&& flNX ≠ 0 then 2048 else 0)))) ∧
    -- lines of a bload
    (find? s.bloads id = some b → find? s.cohorts b.cohort = some c → ∀ pa w off, b.left[line]? = some (pa, w, off) →
      let left := b.left.eraseIdx line
      let u : State := { s with bloads := if left = [] then erase s.bloads id else insert s.bloads id { b with left := left } }
      (∀ bs, (u.recall b.ci (pa / 128)).readPhys w pa 128 = (.ok bs, s1) → c.spadRange off 128 true = none →
        let v := s1.spadPut b.cohort off bs
        exec (.bloadLand id line) s = .next ((v.arriveBar b.cohort b.barr 128).getD v)) ∧
      (∀ z, (u.recall b.ci (pa / 128)).readPhys w pa 128 = (.error z, s1) →
        exec (.bloadLand id line) s = .next (s1.testBroken b.cohort b.barr))) ∧
    -- the limit of a push
    (find? s.cohorts co = some c →
      let lim := (s.cluster c.ci).qstall.toNat
      let waits := (find? c.groups g).bind Group.since
      (∀ t0 push, waits = some (t0, push) → lim = 0 ∨ s.timer - t0 ≤ lim ∨ s.pushOpen co c push = true →
        exec (.queueStall co g) s = .next s) ∧
      (∀ t0 push k ks i ws, waits = some (t0, push) → lim ≠ 0 → lim < s.timer - t0 → s.pushOpen co c push = false →
        c.members g = k :: ks →
        s.fetchInstr c.ci c.ctx (((c.thread? k).map Thread.pc).getD 0) = (.instr i ws, s1) → s1.stallDue co g = true →
        let x : Issue := ⟨co, g, c.ci, c.ctx, k :: ks, ((c.thread? k).map Thread.pc).getD 0, ws⟩
        c.active x (if x.prefixed then some (decPfx (nth ws 0 0)) else none) = k :: ks →
        exec (.queueStall co g) s = .next (s1.takeTraps co g ((k :: ks).map fun j => (j, x.cause .queueStall 0))))) ∧
    -- a matrix unit
    (∀ os, nth (s.cluster ci).mxu sp [] = o :: os →
      let step := exec (.matrixOperation ci sp) s
      let d := o.desc
      let still : Prop := o.result = none ∧ o.parked = none ∧ o.krow < d.k
      (¬ still → step = .next s) ∧
      (still → o.started = false → ∀ ps, s.tilePlaces true ci o.ctx d.tileLines = (.done ps, s1) →
        step = .next (s1.modHead ci sp fun o => { o with started := true, lines := ps.map Prod.fst, acc := List.replicate (d.m * d.n) 0 })) ∧
      (still → o.started = true →
        (∀ as bs, s.loadColumn ci o (List.range d.m) = (.done as, s1) → s1.loadRow ci o = (.done bs, s2) →
          let o' : MatOp := { o with krow := o.krow + 1, rowsA := o.rowsA ++ [as], rowsB := o.rowsB ++ [bs] }
          let u := s2.modHead ci sp fun _ => o'
          step = .next (if (o.krow + 1) % d.block = 0 then u.endBlock ci sp o' else u)) ∧
        (∀ va l n, s.loadColumn ci o (List.range d.m) = (.page va l n, s1) →
          (s1.pageFault o.ctx va Need.read .matrix l (dieOf ci)).1 = true →
          step = .next ((s1.pageFault o.ctx va Need.read .matrix l (dieOf ci)).2.modHead ci sp fun o => { o with parked := some (va / 4096) })) ∧
        (∀ z va, s.loadColumn ci o (List.range d.m) = (.trap z va, s1) →
          step = .next (s1.modHead ci sp fun o => { o with result := o.result.or (some (7, z.code, va)), parked := none }))) ∧
      -- completion
      (let done := exec (.matrixOperationComplete ci sp) s
       let v := o.result.getD (0, 0, 0)
       let r : CRec := ⟨o.md + 8 * o.cv, v.2.1, 3, 0, v.1, o.krow, v.2.2, []⟩
       let u := s.modCluster ci fun c => { c with mxu := c.mxu.modify sp List.tail }
       let w := if o.flags.evt then u.postEvent ci r else u
       ((∃ q ∈ s.partials, q.2.op = o.serial) → done = .next s) ∧
       (o.result = none → o.krow < d.k ∨ o.started = false → done = .next s) ∧
       ((∀ q ∈ s.partials, q.2.op ≠ o.serial) → o.result ≠ none ∨ d.k ≤ o.krow ∧ o.started = true →
         done = .next (((keys (filterMap w.cohorts fun _ c => c.ci == ci)).foldl (fun s co => s.completeRounds co) w).fillMrow ci)))) ∧
    -- sums and promotions
    (∀ (af : Ety) (acc : Nat) (bs : FVal),
      (isLarge bs = true → (accumulate .f32 af acc bs false).1 = 0 ∧ (accumulate .f32 af acc bs false).2.2 = true ∧
        (af.roundVal .rne bs).1 ∈ (accumulate .f32 af acc bs false).2.1) ∧
      (accumulate .f64 af acc bs false).2 = ([], false) ∧ (accumulate .f64 af acc bs true).1 = 0 ∧
      ∀ g ps, ps.any FVal.isNan = true → blockSum g ps = (.nan false, false)) ∧
    -- partials
    (find? s.partials id = some m →
      let u : State := { s with partials := erase s.partials id }
      let n := m.pa / 128
      let j := m.pa % 128 / 8
      let step := exec (.slicePartialAdd id) s
      let abandon (z : Trap) := u.modOp m.ci m.sp m.op fun o =>
        { o with result := o.result.or (some (7, z.code, m.va)), parked := none }
      (find? s.shadows n = none → step = .next (abandon .accessFault)) ∧
      (find? s.shadows n = some sh → sh.fmt ≠ m.fmt → step = .next (abandon .reservedField)) ∧
      (find? s.shadows n = some sh → sh.fmt = m.fmt →
        step = .next { u with shadows := insert s.shadows n { sh with elems := setNth sh.elems j (BitVec.ofNat 64 (sh.fmt.roundVal .rne
          (addVal .rne (sh.fmt.val (nth sh.elems j 0).toNat) (sh.fmt.val m.value.toNat)).1).1) } }))

/-- R41, R42, R231, R232, R279 to R285, R287, R289 to R291: a doorbell and a queue's configuration are written under their limits. The
launcher reads the record at HEAD, gives it the next sequence number and advances HEAD; it refuses a record with the CODE
of the check it fails, starts one whose waits have completed, and fixes its extents and its cohorts. A grid whose turn it
is places its next cohort on the eligible cluster that comes first by wear index, by locality, and by number; a saved
cohort goes before a new one, and the turn passes on when none is left. A cohort retires when it has no thread and its work is done, and the last one ends its grid;
a completed grid writes its 32 bytes. A victim's idempotent threads are discarded at once; a drain thread past its limit
traps and the yield is withdrawn; once no thread runs the cohort is saved and counted. -/
def Obligations.LaunchesAndCohorts : Prop :=
  ∀ (s s1 : State) (fn q seq co key ci : Nat) (tail : BitVec 16) (v : Word) (g : Grid) (h : Header) (c : Cohort) (bs : List Byte)
    (hint : Option Nat),
    let lq := s.queue q
    -- doorbells and configurations
    exec (.lchQtailWrite fn q tail) s =
      .next (if fn = 0 ∨ s.worldOfCtx lq.ctx = some fn then s.modQueue q fun l => { l with tail := tail.toNat } else s) ∧
    (let logn := v.toNat / 2 ^ 16 % 16
     exec (.lchQcfgWrite q v) s = .next (
      if v.getLsbD 31 = true ∧ (logn < 4 ∨ 12 < logn ∨ 2 ^ (logn - 1) < v.toNat / 2 ^ 8 % 256 ∨ lq.en = true ∨ s.mc.boot ≠ 0) then s
      else s.modQueue q fun l => { l with cfg := v &&& 0xFFFFFF00 })) ∧
    -- acceptance
    (lq.en = false ∨ lq.head % lq.size = lq.tail % lq.size → exec (.launchAccept q) s = .next s) ∧
    (lq.en = true → lq.head % lq.size ≠ lq.tail % lq.size → (s.ctx? lq.ctx).isSome = true →
      let slot := lq.head % lq.size
      let r := recordOf bs
      s.launcherRead lq.ctx (spans (lq.base.toNat + 128 * slot) 128) = (.ok bs, s1) → s1.lch = s.lch →
      let n := s.lch.seq
      let ok : Prop := r.clean = true ∧ r.cpl ≠ 0 ∧ r.cpl.toNat % 32 = 0 ∧ (∀ w ∈ r.waits, w = 0 ∨ w < n) ∧ (r.sig = false →
        r.header.toNat % 256 = 0 ∧ (∀ e ∈ r.shape, 1 ≤ e) ∧ 1 ≤ r.cohsz ∧ 1 ≤ r.banks ∧ r.banks ≤ 32 ∧ r.bmap ≠ 0 ∧
        r.bmap.toNat % 128 = 0 ∧ r.trapa.toNat % 1024 = 0 ∧ r.save.toNat % 4096 = 0)
      let takes (st : GState) (answer : Nat) : Prop :=
        ∃ u : State, exec (.launchAccept q) s = .next (u.answerLaunch q slot (answer + n % 2 ^ 24 * 256)) ∧
          u = { s1 with lch := u.lch } ∧ u.lch.seq = n + 1 ∧ (u.queue q).head = (slot + 1) % lq.size ∧
          ∃ g, find? u.lch.grids n = some g ∧ g.queue = q ∧ g.ctx = lq.ctx ∧ g.prio = lq.prio ∧ g.record = r ∧ g.state = st ∧ g.placed = 0
      (s1.ctxRuns lq.ctx = false → takes (.finished 3 5) 2) ∧
      (s1.ctxRuns lq.ctx = true → ok → takes .waiting 0) ∧
      (s1.ctxRuns lq.ctx = true → ¬ ok → takes (.finished 3 1) 2)) ∧
    -- starting
    (find? s.lch.grids seq = some g → g.state = .waiting →
      let start := exec (.launchStart seq) s
      let refused (u : State) (code : Nat) : Prop := start = .next (u.modGrid seq fun g =>
        if g.state = .waiting then { g with state := .finished 3 code } else g)
      let waits := g.record.waits.filter fun w => w != 0
      let ended (w : Nat) (good : Prop) : Prop := ∃ y e code, find? s.lch.grids w = some y ∧ y.state = .complete e code ∧ (e = 0 ↔ good)
      ((∃ w ∈ waits, ∀ y, find? s.lch.grids w = some y → ∀ e code, y.state ≠ .complete e code) → start = .next s) ∧
      ((∀ w ∈ waits, ∃ good, ended w good) → (∃ w ∈ waits, ended w False) → refused s 4) ∧
      ((∀ w ∈ waits, ended w True) →
        (g.record.sig = true → start = .next (s.modGrid seq fun g => { g with state := .finished 0 0 })) ∧
        (g.record.sig = false → s.readHeader g.ctx g.world g.record.header.toNat = (.bad, s1) → refused s1 2) ∧
        (g.record.sig = false → s.readHeader g.ctx g.world g.record.header.toNat = (.ok h, s1) →
          let fits (b : Bucket) : Bool := (List.range 3).all fun d =>
            decide (nth b.lo d 0 ≤ nth g.record.shape d 0) && decide (nth g.record.shape d 0 ≤ nth b.hi d 0)
          let runs (e : List Nat) (pro : Nat) : Prop :=
            let total := nth e 0 1 * nth e 1 1 * nth e 2 1
            if 2 ^ 32 < total then refused s1 3
            else start = .next (s1.modGrid seq fun y => { y with
              state := .running, hdr := some h, extents := e, prologue := pro, total := total
              ncoh := (total + g.record.cohsz - 1) / g.record.cohsz })
          (h.buckets = [] → runs g.record.shape h.prologue) ∧
          (h.buckets ≠ [] → (∀ b ∈ h.buckets, fits b = false) → refused s1 3) ∧
          (∀ b, h.buckets.find? fits = some b → runs b.hi b.prologue)))) ∧
    -- placement
    (s.nextServed ≠ some seq → exec (.placeCohort seq) s = .next s) ∧
    (find? s.lch.grids seq = some g → g.hdr = some h → s.nextServed = some seq → g.placed ≠ 0 → s.hintDie g = (hint, s1) →
      let place := exec (.placeCohort seq) s
      (∀ id d, s1.savedOf seq = some (id, d) → s1.pickCluster hint (some d.ci) (s1.choices? g) = some ci →
        place = .next ((s1.placeSaved seq ci id d).endTurn seq)) ∧
      (s1.savedOf seq = none → s1.pickCluster hint none (s1.choices? g) = some ci →
        place = .next ((s1.placeNew seq ci g h).endTurn seq))) ∧
    (find? s.lch.grids seq = some g → g.state = .running →
      let more : Prop := g.placed < g.ncoh ∨ ∃ p ∈ s.cohorts, p.2.grid = seq ∧ p.2.phase = .saved
      (more → s.endTurn seq = s) ∧ (¬ more → s.endTurn seq = { s with lch := { s.lch with turn := g.queue } })) ∧
    (∀ l, s.pickCluster hint none l = some ci → ci ∈ l ∧ ∀ x ∈ l,
      let w (x : Nat) := (s.wunit (s.clusterUnit x)).widx
      let far (x : Nat) : Nat := if hint = none ∨ hint = some (dieOf x) then 0 else 1
      w ci < w x ∨ w ci = w x ∧ (far ci < far x ∨ far ci = far x ∧ ci ≤ x)) ∧
    (∀ l, key ∈ l → s.pickCluster hint (some key) l = some key) ∧
    -- retirement
    (find? s.cohorts co = some c →
      (c.phase ≠ .ending ∨ c.threads ≠ [] ∨ s.workDone co = false → exec (.cohortRetire co) s = .next s) ∧
      (c.phase = .ending → c.threads = [] → s.workDone co = true →
        let u := (s.endBindings co).withdraw co fun _ => true
        let w : State := { u with bloads := u.bloads.filter fun p => p.2.cohort != co, cohorts := erase u.cohorts co }
        exec (.cohortRetire co) s = .next ((w.modGrid c.grid fun g =>
          if g.state = .running ∧ g.retired + 1 = g.ncoh then { g with retired := g.retired + 1, state := .finished 0 0 }
          else { g with retired := g.retired + 1 }).wakeParked c.ci))) ∧
    -- completion
    (∀ e code, find? s.lch.grids seq = some g → g.state = .finished e code →
      let ends (u : State) (e code : Nat) : State := (u.modGrid seq fun g => { g with state := .complete e code }).retireProducer seq
      let bytes := [BitVec.ofNat 8 (if e = 3 then 2 else 0), BitVec.ofNat 8 e, BitVec.ofNat 8 code, 0, 0, 0, 0, 0] ++
        toBytes seq 8 ++ toBytes s.timer 8 ++ [1, 0, 0, 0, 0, 0, 0, 0]
      ((∃ p ∈ s.cohorts, p.2.grid = seq) → exec (.gridComplete seq) s = .next s) ∧
      ((∀ p ∈ s.cohorts, p.2.grid ≠ seq) → g.record.cpl ≠ 0 → g.record.cpl.toNat % 32 = 0 →
        (s.launcherWrite g.ctx g.record.cpl.toNat 32 false (fun _ => bytes) = (.ok, s1) →
          exec (.gridComplete seq) s = .next (ends s1 e code)) ∧
        (s.launcherWrite g.ctx g.record.cpl.toNat 32 false (fun _ => bytes) = (.ended, s1) →
          exec (.gridComplete seq) s = .next (ends s1 2 6)))) ∧
    -- yields
    (find? s.cohorts co = some c → seq ≠ 0 →
      let asked := exec (.yieldRequest co seq) s
      let drops := keys (filterMap c.threads fun _ t => match t.run, t.region with
        | .nested _, _ | .atNext _, _ => false
        | _, .inside _ drain _ => !drain
        | _, .entry => true)
      ((∀ p ∈ s.victims seq, p.1 ≠ co) → asked = .next s) ∧
      ((∃ p ∈ s.victims seq, s.yieldsFirst p.2 c = true) → asked = .next s) ∧
      ((∃ p ∈ s.victims seq, p.1 = co) → (∀ p ∈ s.victims seq, s.yieldsFirst p.2 c = false) →
        asked = .next ((s.setCohort co { c with yielding := some ⟨s.timer, seq⟩ }).discard co drops))) ∧
    (∀ y, find? s.cohorts co = some c → c.yielding = some y →
      let late (k : Nat) : Prop := ∃ t r n, (k, t) ∈ c.threads ∧ t.region = .inside r true n ∧ y.t0 + n ≤ s.timer ∧
        t.run ≠ .discarded ∧ (∀ g, t.run ≠ .stopped g ∧ t.run ≠ .atNext g) ∧ ∀ b, t.run ≠ .nested b
      (¬ late key → exec (.drainLimitExpiry co key) s = .next s) ∧
      (∀ t, c.threads.filter (fun p => p.2.drainLimit.any fun n => decide (y.t0 + n ≤ s.timer)) = [(key, t)] → y.seq ≠ 0 →
        (c.busyWith [key] = true → exec (.drainLimitExpiry co key) s = .next s) ∧ (c.busyWith [key] = false →
        let u := (s.bump .lchDrainOver 0 1).setCohort co { c with yielding := none, kept := y.seq :: c.kept }
        let w := ((u.takeTrap co key ⟨.regionViolation, 0, ((c.thread? key).map Thread.pc).getD 0, 0, 0, none⟩).groupUp co [key]).tidyBins co
        exec (.drainLimitExpiry co key) s =
          .next ((w.restart co (c.halted false)).release co (keys (filterMap c.threads fun _ t => match t.run with
            | .stopped _ => true
            | _ => false)))))) ∧
    (find? s.cohorts co = some c →
      let quiet (t : Thread) : Prop := t.run = .discarded ∨ (∃ g, t.run = .stopped g ∨ t.run = .atNext g) ∨ ∃ b, t.run = .nested b
      let slot := g.record.save.toNat + c.coh * (g.record.banks * 16384 + 196608)
      let lines := (g.record.banks * 16384 + 196608) / 128
      (c.yielding = none ∨ (∃ p ∈ c.threads, ¬ quiet p.2) ∨ s.workDone co = false ∨ c.busyWith (keys c.threads) = true → exec (.yieldSave co) s = .next s) ∧
      (c.yielding.isSome = true → c.threads ≠ [] → (∀ p ∈ c.threads, quiet p.2) → s.workDone co = true →
        c.busyWith (keys c.threads) = false →
        (∀ p ∈ s.bloads, p.2.cohort ≠ co) → find? s.lch.grids c.grid = some g →
        (s.fillSlot c.ctx slot lines = (true, s1) → exec (.yieldSave co) s = .next (s1.saveCohort co c)) ∧
        (s.fillSlot c.ctx slot lines = (false, s1) → exec (.yieldSave co) s = .next (s1.endContext c.ctx 4))))

/-- R260, R278, R297, R298: an answer counts for an outstanding page only: replay makes every agent parked on it go on, and decline
ends the context. A command written while one runs is ignored. An invalidation drops the matching entries of every TLB and
gives OK; a migration that R260 or R298 does not allow gives REFUSED, and one that is made moves the page's bytes and
rewrites its leaf, with a sealed line sealed again; a teardown ends a live context and is REFUSED for any other. A command
completes, and clears BUSY, once every access that used an entry which it dropped is made. A
context that ends has its code written and V cleared, loses its commands, shadows and key slots, and its grids end with
END 2, or END 3 and CODE 5 where they have not started. -/
def Obligations.TranslationCommands : Prop :=
  ∀ (s : State) (ctx page n code : Nat) (x : Ctx) (e at_ : Nat),
    let outstanding : Prop := (ctx, page) ∈ s.xlt.pages
    let answered : State := { s with 
      xlt := { s.xlt with pages := s.xlt.pages.filter (· != (ctx, page)) }
      lch := { s.lch with parked := s.lch.parked.filter (· != (ctx, page)) } }
    let cmd (op ctx page : Nat) : DWord := BitVec.ofNat 64 (page * 2 ^ 12 + ctx % 256 * 2 ^ 4 + op)
    let runs (op ctx page : Nat) : State := { s with xlt := { s.xlt with cmd := cmd op ctx page, busy := true } }
    -- what a command has done, and what it waits for: the accesses that used the entries it drops
    let gives (u : State) (st : Nat) (used : TlbEntry → Bool) : Host.Outcome State Fault Refusal :=
      .next { u with xlt := { u.xlt with status := st, awaits := s.rangesOf used } }
    let none_ : TlbEntry → Bool := fun _ => false
    let drop (u : State) (p : TlbEntry → Bool) : State := { u with
      clusters := mapVals u.clusters fun _ c => { c with tlb := c.tlb.filter fun (e : TlbEntry) => !p e }
      dies := mapVals u.dies fun _ d => { d with tlb := d.tlb.filter fun (e : TlbEntry) => !p e } }
    -- answers
    (¬ outstanding → exec (.faultReplay ctx page) s = .next s ∧ exec (.faultDecline ctx page) s = .next s) ∧
    (outstanding → exec (.faultDecline ctx page) s = .next (answered.endContext ctx 2)) ∧
    (outstanding →
      let u : State := { answered with
        cmds := mapVals s.cmds fun _ c => if c.ctx = ctx ∧ c.parked = some page then { c with parked := none } else c
        clusters := mapVals s.clusters fun _ cl => { cl with mxu := cl.mxu.map fun (q : List MatOp) =>
          (q.map fun (o : MatOp) => if o.ctx = ctx ∧ o.parked = some page then { o with parked := none } else o) } }
      exec (.faultReplay ctx page) s = .next (s.cohorts.foldl (fun s p =>
        if p.2.ctx = ctx then s.release p.1 (keys (filterMap p.2.threads fun _ t => match t.run with
          | .faulted _ n => n == page
          | _ => false)) else s) u)) ∧
    -- commands
    (s.xlt.busy = true → ∀ i ∈ [Instr.invalidateContext ctx, .invalidatePage ctx page, .invalidateAll, .migratePage ctx page, .teardown ctx],
      exec i s = .next s) ∧
    (s.xlt.busy = false →
      let ofCtx (e : TlbEntry) : Bool := e.ctx == ctx
      let ofPage (e : TlbEntry) : Bool :=
        e.ctx == ctx && e.page == page * 4096 / 2 ^ pageShift e.size * 2 ^ (pageShift e.size - 12)
      exec (.invalidateContext ctx) s = gives (drop (runs 1 ctx 0) ofCtx) 0 ofCtx ∧
      exec (.invalidatePage ctx page) s = gives (drop (runs 2 ctx page) ofPage) 0 ofPage ∧
      exec .invalidateAll s = gives (drop (runs 3 0 0) fun _ => true) 0 (fun _ => true) ∧
      (s.ctx? ctx = some x → x.live = true → exec (.teardown ctx) s = gives ((runs 5 ctx 0).endContext ctx 5) 0 none_) ∧
      (s.ctx? ctx = some x → x.live = false → exec (.teardown ctx) s = gives (runs 5 ctx 0) 2 none_) ∧
      (∀ u, s.ctx? ctx = none → (runs 5 ctx 0).readCtx ctx = (none, u) → u.ctx? ctx = none →
        exec (.teardown ctx) s = gives u 2 none_)) ∧
    -- migration
    (s.xlt.busy = false → s.ctx? ctx = some x →
      let u := runs 4 ctx page
      let new := s.xlt.migPa.toNat / 4096 % 2 ^ 40 * 4096
      let size := 2 ^ pageShift (pteSize e)
      let old := ptePa e
      let may : Prop := s.isDevice old = true ∧ s.isDevice (old + size - 1) = true ∧ new % size = 0 ∧ s.isDevice new = true ∧
        s.isDevice (new + size - 1) = true ∧ s.pinned old size = false
      (∀ w, u.leafAt (page * 4096) 3 x.root = (none, w) → exec (.migratePage ctx page) s = gives w 2 none_) ∧
      (u.leafAt (page * 4096) 3 x.root = (some (e, at_), u) →
        (¬ may → exec (.migratePage ctx page) s = gives u 2 none_) ∧
        (may → new = old → exec (.migratePage ctx page) s = gives u 0 none_) ∧
        (may → new ≠ old → pteSize e = 0 → old % 4096 = 0 → (∀ i < 32, (s.line (old / 128 + i)).held = none) → s.memoryOk → rising s.lines = true → at_ % 8 = 0 → (at_ + 8 ≤ old ∨ old + 4096 ≤ at_) →
          (at_ + 8 ≤ new ∨ new + 4096 ≤ at_) → e = s.mem.read at_ 8 →
          (let l := s.line (at_ / 128); l.tag = 0 ∧ l.held = none ∧ l.failed = false) →
          ∃ t, exec (.migratePage ctx page) s = .next t ∧ t.xlt.status = 0 ∧ t.xlt.busy = true ∧
            (∀ i < 4096, t.mem.get (new + i) = s.mem.get (old + i)) ∧
            (∀ i < 32, let l := s.line (old / 128 + i)
              let place := s.line (new / 128 + i)
              t.line (new / 128 + i) = { l with writes := if l.tag = 0 then place.writes else (place.writes + 1) % 2 ^ 64 }) ∧
            t.mem.read at_ 8 = setBits e 12 40 (new / 4096) ∧
            (∀ a, (a < new ∨ new + 4096 ≤ a) → (a < at_ ∨ at_ + 8 ≤ a) → t.mem.get a = s.mem.get a) ∧
            (∀ k, (t.cluster k).tlb = (s.cluster k).tlb.filter fun y => !y.hits ctx (page * 4096))))) ∧
    -- completion
    (let op := s.xlt.cmd.toNat % 16
     let gone (n : Nat) (x : Ctx) : Bool := !x.live && (op == 3 || (op == 1 && n == s.xlt.cmd.toNat / 16 % 256))
     let owed : Prop := ∃ p ∈ s.lch.grids, p.2.ctx ∈ keys (filterMap s.xlt.ctxs gone) ∧ ∃ e c, p.2.state = .finished e c
     let waits : Prop := s.outstanding (fun a => s.xlt.awaits.any fun r => decide (r.1 ≤ a ∧ a < r.1 + r.2)) = true
     (s.xlt.busy = false ∨ owed ∨ waits → exec .xltCmdComplete s = .next s) ∧
     (s.xlt.busy = true → ¬ owed → ¬ waits → (s.xlt.ctxs.map Prod.fst).Nodup → exec .xltCmdComplete s = .next { s with
       xlt := { s.xlt with busy := false, awaits := [], ctxs := filterMap s.xlt.ctxs fun n x => !gone n x } })) ∧
    -- the end of a context that has no cohort
    (s.ctx? n = some x → x.live = true → (∀ p ∈ s.cohorts, p.2.ctx ≠ n) →
      let t := s.endContext n code
      let d := s.xlt.ctxBase.toNat + 64 * n
      t.ctx? n = some { x with live := false } ∧
      t.cmds = s.cmds.filter (fun p => p.2.ctx != n) ∧ t.shadows = s.shadows.filter (fun p => p.2.ctx != n) ∧
      t.sec.slots = s.sec.slots.filter (fun p => p.2.ctx != n) ∧
      (d % 64 = 0 → (s.line (d / 128)).tag = 0 → (s.line (d / 128)).held = none → (s.line (d / 128)).failed = false → s.memoryOk →
        t.mem.get (d + 0x0B) = BitVec.ofNat 8 code ∧ t.mem.get (d + 0x09) = BitVec.ofNat 8 (2 * x.priv.toNat + 4 * x.replay.toNat) ∧
        ∀ a, a ≠ d + 0x0B → a ≠ d + 0x09 → t.mem.get a = s.mem.get a) ∧
      ∀ g y, find? s.lch.grids g = some y → ∃ z, find? t.lch.grids g = some z ∧
        z = { y with state := z.state } ∧
        (y.ctx ≠ n → z = y) ∧
        (y.ctx = n → y.state = .waiting → z.state = .finished 3 5) ∧
        (y.ctx = n → y.state = .running → z.state = .finished 2 code))

/-- R341 to R348, R350, R351, R353, R354, R365: at a wear boundary an update starts, WEAR_SEQ rises, and each live unit's records grow
by what its interval's inputs give (a cluster's activity is the lane cycles in which it started an instruction) and drain by its
recovery; units that are spare or failed do not change. Clusters far
above their die's median and out of their gap are marked for rest, at most RMAX of a die pending or resting, and every
count of ms goes down. The update publishes its results together, with WEAR_SEQ, and commits them in place of the older copy. A marked cluster rests
once no crew is resident, for RLEN ms, and its island then ramps as after gating. WEAR_RPT writes a report of 159,304 bytes
or sets ERR. -/
def Obligations.WearAndRests : Prop :=
  ∀ (s : State) (activity : List (Nat × Nat)) (ci : Nat) (v : DWord),
    let w := s.wear
    let ctl := w.ctlNew.toNat
    -- the boundary
    (s.timer % 1000000 ≠ 0 ∨ s.timer = w.last ∨ w.next ≠ none → exec (.wearBoundary activity) s = .next s) ∧
    (s.timer % 1000000 = 0 → s.timer ≠ w.last → w.next = none →
      let rate := w.eol / (w.tgt * 86400000)
      ∃ m : FMap WearUnit, exec (.wearBoundary activity) s = .next { s with wear := { w with
          ctl := w.ctlNew, seq := (w.seq + 1) % 2 ^ 64, last := s.timer, gather := [], started := [], arate := rate, next := some m } } ∧
        ∀ d < s.dieCount,
          let at_ (u : Nat) : WearUnit := findD m (1024 * d + u) (s.wunit (1024 * d + u))
          let live := (List.range 144).filter fun c => decide ((s.wunit (1024 * d + c)).state < 3)
          let busy (f : Nat → WearUnit) : Nat := (live.filter fun c => (f c).state != 0).length
          (busy at_ ≤ max (ctl / 2 ^ 24 % 16) (busy fun c => s.wunit (1024 * d + c))) ∧
          ∀ u < 829,
            let x := s.wunit (1024 * d + u)
            let y := at_ u
            let i := s.unitIsland d u
            let g := findD w.gather i Gather.zero
            (find? m (1024 * d + u)).isSome = true ∧
            (3 ≤ x.state → y = { x with widx := if u < 144 then 0 else x.widx }) ∧
            (x.state < 3 →
              let db := if y.fb = 0 then 0 else 1000 * fvB y.vb * ftB y.tb * y.fb / 2 ^ 24
              let dh := if y.fb = 0 then 0 else 1000 * fvH y.vb * ftH y.tb * y.fah / 2 ^ 24
              let de := if y.fb = 0 then 0 else 1000 * fj y.jb * ftE y.tb * y.fb / 2 ^ 24
              let pool := min 100000 (x.pool + 3 * db / 10)
              let rec_ := (if u < 144 then 600 * g.rev / 1000000 else 0) + 150 * g.off / 1000000
              let drain := min pool rec_
              let worst (x : WearUnit) : Nat := max x.b (max x.h x.e)
              y.fb = 256 * (1000000 - g.rev - g.off - g.cold) / 1000000 ∧
              y.fah = min 1023 (256 * findD (if u < 144 then w.started else activity) (1024 * d + u) 0 / (if u < 720 then 1125000 else if u < 820 then 750000 else 437500)) ∧
              (g.count = 0 → y.vb = x.vb ∧ y.tb = x.tb ∧ y.jb = x.jb) ∧
              (g.count ≠ 0 → y.vb = min 12 ((g.vSum / (2 * g.count) - 600) / 25) ∧
                y.jb = min 11 (8 * g.iSum / (g.count * (if u < 720 then 1000 else if u < 820 then 200 else 300)))) ∧
              y.b = x.b + db - drain ∧ y.h = x.h + dh ∧ y.e = x.e + de ∧ y.pool = pool - drain ∧
              (u < 144 → y.allow = x.allow + rate ∧ y.rleft = x.rleft - 1 ∧ y.rgap = x.rgap - 1 ∧
                (∀ e, (s.island i).boost = some e → s.timer < e → y.hold = x.hold - (worst y - worst x - x.base) ∧ y.base = x.base) ∧
                ((∀ e, (s.island i).boost = some e → e ≤ s.timer) → y.hold = 0 ∧ y.base = 0) ∧
                (y.state = x.state ∨ x.state = 0 ∧ y.state = 1 ∧ x.rgap = 0 ∧ ctl / 2 ^ 31 % 2 = 1 ∧
                  ∃ med, (1000 + ctl / 2 ^ 8 % 256) * med < 1000 * y.b ∧
                    (live.filter fun c => decide ((at_ c).b < med)).length < (live.length + 1) / 2 ∧
                    (live.length + 1) / 2 ≤ (live.filter fun c => decide ((at_ c).b ≤ med)).length)) ∧
              (144 ≤ u → y.state = x.state))) ∧
    -- its end
    (∀ m, w.next = some m → exec .wearUpdateComplete s = .next { s with wear := { w with
      units := m, seq := (w.seq + 1) % 2 ^ 64, next := none, mram := ⟨m, (w.seq + 1) % 2 ^ 64, true⟩ :: w.mram.take 1 } }) ∧
    (w.next = none → exec .wearUpdateComplete s = .next s) ∧
    -- rests
    (let u := s.clusterUnit ci
     let idle : Prop := ∀ sp < 4, s.crewsOn ci sp = 0
     (s.isCluster ci = false ∨ (s.wunit u).state ≠ 1 ∨ ¬ idle → exec (.restStart ci) s = .next s) ∧
     (s.isCluster ci = true → (s.wunit u).state = 1 → idle →
       let len := ctl / 2 ^ 16 % 256
       let t := s.modUnit u fun x => { x with state := 2, rleft := len }
       exec (.restStart ci) s = .next ((({ t with wear := { t.wear with
         rests := insert w.rests ci (s.timer + 1000000 * len, !w.ctlNew.getLsbD 30) } }).modIsland (laneIsland ci) fun x =>
           { x with move := none }).modClock ci fun k =>
             { k with hop := none, hold := false, fired := false, arm := if k.fired then .front else k.arm })) ∧
     (find? w.rests ci = none → exec (.restEnd ci) s = .next s) ∧
     (∀ due rev, find? w.rests ci = some (due, rev) →
       (s.timer < due → exec (.restEnd ci) s = .next s) ∧
       (due ≤ s.timer →
         let t := s.modUnit u fun x => { x with state := 0, rleft := 0, rgap := w.ctl.toNat / 2 ^ 32 % 256 }
         exec (.restEnd ci) s = .next ((({ t with wear := { t.wear with rests := erase w.rests ci } }).modIsland (laneIsland ci) fun x =>
           { x with n := 48, f := 0 }).transition (laneIsland ci) false)))) ∧
    -- reports
    (let pa := v.toNat / 2 ^ 12 % 2 ^ 40 * 2 ^ 12
     let rpt (u : State) (n : Nat) : Host.Outcome State Fault Refusal := .next { u with wear := { u.wear with rpt := BitVec.ofNat 64 n } }
     let inside : Prop := s.isDevice pa = true ∧ s.isDevice (pa + 159303) = true
     (v.getLsbD 0 = false → exec (.wearReport v) s = rpt s (pa + 2 * (w.rpt.toNat / 2 % 2))) ∧
     (v.getLsbD 0 = true → ¬ inside → exec (.wearReport v) s = rpt s (pa + 2)) ∧
     (v.getLsbD 0 = true → inside → ∃ body, exec (.wearReport v) s = rpt (s.hubWrite pa (body ++ signBytes body)) pa ∧
       body.take 72 = toBytes 1 4 ++ toBytes 829 2 ++ toBytes 0 2 ++ s.mem.getBytes pa 32 ++ toBytes (w.seq / 2 * 2) 8 ++
         toBytes s.timer 8 ++ toBytes w.eol 8 ++ toBytes w.tgt 4 ++ toBytes 0 4 ∧
       ∀ d < s.dieCount, ∀ u < 829,
         let x := s.wunit (1024 * d + u)
         (body.drop (72 + 48 * (829 * d + u))).take 24 = toBytes x.b 8 ++ toBytes x.h 8 ++ toBytes x.e 8))

/-- R349, R359 to R364: a fatal event starts a commit of the ring with its cause, or owes one after the commit in progress; an ended
commit fills the next slot and raises BBX_SEQ. A dump writes a slot or the live ring, or sets ERR. A cluster call waits until
no crew is resident and then switches the cluster to its spare, a slice call switches at once; with no spare left, for a unit
that has failed, or for a die that is absent, it is REFUSED. Power-on zeroes device memory and enters events of KIND 10 and 11; a
package reset commits first, keeps lines of tag 0 and zeroes the others (write counts stay: R308), and both keep what the MRAM
holds, load the newer copy of the wear records that its digest finds sound, and clear the rest. An FLR of VF n
ends the contexts of world n and clears its key slots, its TDI and its lines. -/
def Obligations.BlackBoxSparesAndResets : Prop :=
  ∀ (s : State) (v : DWord) (z : Word) (mram fwOk stacksOk : Bool) (n : Nat) (cause : ResetCause),
    let m := s.mc
    let commits (u t : State) (cause : Nat) : Prop := t = { u with freeCtr := t.freeCtr, mc :=
      if u.mc.commit = none then { u.mc with commit := some (cause, u.timer, u.mc.ring) } else { u.mc with owed := some cause } }
    -- fatal events
    (∀ i ∈ [Instr.inputUndervoltage, .mcWatchdogExpiry], ∃ t cause, exec i s = .next t ∧ cause < 256 ∧ commits s t cause) ∧
    (∃ syn t, exec (.hubUncorrectableError mram) s = .next t ∧
      commits ({ s with freeCtr := s.freeCtr + 1 }.postError 2 3 (7 * 2 ^ 10 + if mram then 2 else 1) 0 syn 0) t 8) ∧
    (m.commit = none → exec .blackBoxCommitComplete s = .next s) ∧
    (∀ cause tick es, m.commit = some (cause, tick, es) → exec .blackBoxCommitComplete s = .next { s with mc := { m with
      slots := insert m.slots (m.bbxSeq % 16) ⟨es, cause, m.bbxSeq, tick⟩, bbxSeq := (m.bbxSeq + 1) % 2 ^ 64
      bbxCtl := if m.owed = none then m.bbxCtl &&& ~~~2#64 else m.bbxCtl
      commit := m.owed.map fun c => (c, s.timer, m.ring), owed := none } }) ∧
    -- BBX_CTL
    (let pa := v.toNat / 2 ^ 12 % 2 ^ 40 * 2 ^ 12
     let slot := v.toNat / 8 % 32
     let kept := pa + slot * 8 + m.bbxCtl.toNat / 2 % 4 * 2
     let ctl (t : State) (x : Nat) : State := { t with mc := { t.mc with bbxCtl := BitVec.ofNat 64 x } }
     let src : Option BbxSlot := if slot < 16 then find? m.slots slot else if slot = 16 then some ⟨m.ring, 0, m.bbxSeq, s.timer⟩ else none
     (v.getLsbD 0 = false → v.getLsbD 1 = false → exec (.bbxCommitRequest v) s = .next (ctl s kept)) ∧
     (v.getLsbD 0 = false → v.getLsbD 1 = true → ∃ t cause w, exec (.bbxCommitRequest v) s = .next t ∧ cause < 256 ∧
       w = BitVec.ofNat 64 kept ||| 2#64 ∧ commits (ctl s w.toNat) t cause) ∧
     (v.getLsbD 0 = true → v.getLsbD 1 = false →
       (src = none → exec (.bbxDump v) s = .next (ctl s (pa + slot * 8 + 4 + m.bbxCtl.toNat / 2 % 2 * 2))) ∧
       (∀ b, src = some b → s.isDevice (pa + 131199) = false →
         exec (.bbxDump v) s = .next (ctl s (pa + slot * 8 + 4 + m.bbxCtl.toNat / 2 % 2 * 2))) ∧
       (∀ b, src = some b → s.isDevice (pa + 131199) = true → ∃ body, exec (.bbxDump v) s =
           .next (ctl (s.hubWrite pa (body ++ signBytes body)) (pa + slot * 8 + m.bbxCtl.toNat / 2 % 2 * 2)) ∧
         body.take 64 = toBytes 1 4 ++ toBytes slot 1 ++ toBytes b.cause 1 ++ toBytes 0 2 ++ toBytes b.seq 8 ++ toBytes b.tick 8 ++
           toBytes b.events.length 4 ++ toBytes 0 36 ∧
         ∃ rest, body.drop 64 = b.events.flatMap (fun e => toBytes e.tick 8 ++ toBytes e.kind 1 ++ toBytes e.die 1 ++
           toBytes e.unit 2 ++ toBytes e.world 1 ++ toBytes e.ctx 1 ++ toBytes 0 2 ++ evData e.shown) ++ rest))) ∧
    -- spare calls
    (let stat (t : State) (n : Nat) : State := { t with mc := { t.mc with spareStat := n } }
     let go (t : State) (w : Word) : State := { t with mc := { t.mc with spareCall := w } }
     let d := z.toNat / 2 ^ 28 % 4
     let num := z.toNat % 2 ^ 7
     let g := num / 8
     let p := num % 8
     let w (u : Nat) : WearUnit := s.wunit (1024 * d + u)
     let c := s.physCluster (144 * d + 9 * g + p) % 144
     let spare := 9 * (c / 9) + 8
     let call := exec (.clusterSpareCall z) s
     exec (.sliceSpareCall z) s = call ∧
     (m.spareCall.getLsbD 31 = true → call = .next (if z.getLsbD 31 then stat s 1 else s)) ∧
     (m.spareCall.getLsbD 31 = false → z.getLsbD 31 = false → call = .next (go s (z &&& 0x7000007F))) ∧
     (m.spareCall.getLsbD 31 = false → z.getLsbD 31 = true → s.dieCount ≤ d → call = .next (stat (go s (z &&& 0x7000007F)) 2)) ∧
     (m.spareCall.getLsbD 31 = false → z.getLsbD 31 = true → d < s.dieCount → z.getLsbD 30 = false →
       let u := go s (z &&& 0x7000007F)
       ((w c).state = 4 → call = .next (stat u 2)) ∧
       ((w c).state ≠ 4 → (w spare).state ≠ 3 → ∃ t, call = .next t ∧ t.mc.spareStat = 2 ∧ t.mc.remapClu = m.remapClu ∧
         ∀ k ∈ clusterUnits c, (t.wunit (1024 * d + k)).state = 4) ∧
       ((w c).state ≠ 4 → (w spare).state = 3 → call = .next (go s (z &&& 0x7000007F ||| 0x80000000)))) ∧
     (m.spareCall.getLsbD 31 = false → z.getLsbD 31 = true → d < s.dieCount → z.getLsbD 30 = true →
       let q := s.physSlice d num
       let free (k : Nat) : Prop := (w (816 + k)).state = 3
       (96 ≤ num ∨ (w (720 + q)).state = 4 → call = .next (stat (go s (z &&& 0x7000007F)) 2)) ∧
       (num < 96 → (w (720 + q)).state ≠ 4 → (∀ k < 4, ¬ free k) →
         ∃ t, call = .next t ∧ t.mc.spareStat = 2 ∧ t.mc.remapSlc = m.remapSlc ∧ (t.wunit (1024 * d + 720 + q)).state = 4) ∧
       (∀ k < 4, num < 96 → (w (720 + q)).state ≠ 4 → free k → (∀ j < k, ¬ free j) → q ≠ 96 + k →
         ∃ t e r, call = .next t ∧ t.mc.spareStat = 0 ∧ t.mc.spareCall.getLsbD 31 = false ∧
           (t.wunit (1024 * d + 720 + q)).state = 4 ∧ (t.wunit (1024 * d + 816 + k)).state = 0 ∧
           find? t.mc.remapSlc d = some r ∧ r.toNat / 2 ^ (8 * k) % 256 = 128 + num ∧ t.mem = s.mem ∧
           t.mc.ring.getLast? = some e ∧ e.kind = 5 ∧ e.die = d ∧
           e.data = evData ([1, 0] ++ toBytes num 2 ++ toBytes q 2 ++ toBytes (96 + k) 2)))) ∧
    (let z := m.spareCall
     let d := z.toNat / 2 ^ 28 % 4
     let g := z.toNat % 2 ^ 7 / 8
     let p := z.toNat % 2 ^ 7 % 8
     let ci := 144 * d + 9 * g + p
     let c := s.physCluster ci % 144
     let spare := 9 * g + 8
     let idle : Prop := ∀ sp < 4, s.crewsOn ci sp = 0
     (z.getLsbD 31 = false ∨ z.getLsbD 30 = true ∨ ¬ idle → exec .clusterSpareSwitch s = .next s) ∧
     (z.getLsbD 31 = true → z.getLsbD 30 = false → idle → c ≠ spare →
       ∃ t e r, exec .clusterSpareSwitch s = .next t ∧ t.mc.spareStat = 0 ∧ t.mc.spareCall.getLsbD 31 = false ∧
         find? t.mc.remapClu (16 * d + g) = some r ∧ r.toNat / 2 ^ (4 * p) % 16 = 8 ∧ t.mem = s.mem ∧ t.cohorts = s.cohorts ∧
         (∀ k ∈ clusterUnits c, (t.wunit (1024 * d + k)).state = 4) ∧ (∀ k ∈ clusterUnits spare, (t.wunit (1024 * d + k)).state = 0) ∧
         (let x := t.wunit (1024 * d + spare); x.allow = max x.b (max x.h x.e) ∧ x.hold = 0 ∧ x.base = 0) ∧
         t.mc.ring.getLast? = some e ∧ e.kind = 5 ∧ e.die = d ∧
         e.data = evData ([0, 0] ++ toBytes (9 * g + p) 2 ++ toBytes c 2 ++ toBytes spare 2))) ∧
    -- resets
    (let result := if fwOk = false then 1 else if stacksOk = false then 2 else 0
     let boots (t : State) (events : List BbxEvent) : Prop := t.timer = 0 ∧ t.mc.boot = result ∧
       t.mc.ring = events ++ [⟨0, 11, 0xFF, 7 * 2 ^ 10 + 1, 0, 0xFF, toBytes result 16⟩] ∧
       t.cohorts = [] ∧ t.cmds = [] ∧ t.shadows = [] ∧ t.xlt.ctxs = [] ∧ t.lch = State.reset.lch ∧ t.names = State.reset.names ∧
       t.sec.slots = [] ∧ t.sec.tdis = [] ∧ t.counters = [] ∧ t.pwr = State.reset.pwr ∧ t.wear.ctlNew = 0x1088041400 ∧
       t.mc.remapClu = m.remapClu ∧ t.mc.remapSlc = m.remapSlc ∧ t.wear.tgt = s.wear.tgt ∧ t.wear.seq = s.wear.newest.seq ∧
       t.code = s.code ∧ t.dieCount = s.dieCount ∧ t.wear.mram = s.wear.mram ∧ t.sec.epochs = s.sec.epochs ∧
       ∀ k x, find? s.wear.newest.units k = some x → find? t.wear.units k = some { x with rleft := 0, rgap := 0 }
     let device (a : Nat) : Prop := s.isDevice (a / 128 * 128) = true
     let bare (a : Nat) : Line := { Line.none with writes := (s.line (a / 128)).writes }
     (∃ t, exec (.powerOn fwOk stacksOk) s = .next t ∧ boots t [⟨0, 10, 0xFF, 7 * 2 ^ 10 + 1, 0, 0xFF, toBytes 1 16⟩] ∧
       (∀ a, device a → t.mem.get a = 0 ∧ t.line (a / 128) = bare a) ∧
       (∀ a, ¬ device a → t.mem.get a = s.mem.get a) ∧
       (m.commit = none → t.mc.bbxSeq = m.bbxSeq ∧ t.mc.slots = m.slots)) ∧
     (∀ w, cause = .hostWrite w → (w.toNat / 2 ^ 16 ≠ 0xA5C3 ∨ w.getLsbD 0 = false) →
       exec (.packageReset cause fwOk stacksOk) s = .next s) ∧
     ((∀ w, cause = .hostWrite w → w.toNat / 2 ^ 16 = 0xA5C3 ∧ w.getLsbD 0 = true) →
       ∃ t, exec (.packageReset cause fwOk stacksOk) s = .next t ∧ boots t [] ∧
         ((∀ p ∈ s.lines, p.2.held = none) → ∀ a, device a →
           ((s.line (a / 128)).tag = 0 → t.mem.get a = s.mem.get a ∧ t.line (a / 128) = s.line (a / 128)) ∧
           ((s.line (a / 128)).tag ≠ 0 → t.mem.get a = 0 ∧ t.line (a / 128) = bare a)) ∧
         (m.commit = none → m.owed = none → ∃ b e, t.mc.bbxSeq = (m.bbxSeq + 1) % 2 ^ 64 ∧ find? t.mc.slots (m.bbxSeq % 16) = some b ∧
           b.cause = 10 ∧ b.seq = m.bbxSeq ∧ b.tick = s.timer ∧ b.events.getLast? = some e ∧ e.kind = 10)) ∧
     exec (.vfFlr 0) s = .next s ∧
     (n ≠ 0 → ∃ t, exec (.vfFlr n) s = .next t ∧ t.timer = s.timer ∧ (t.tdi n).state = 0 ∧ (t.tdi n).epoch = 0 ∧
       (∀ p ∈ t.sec.slots, p.2.world ≠ n) ∧ (∀ k x, t.ctx? k = some x → x.world = n → x.live = false) ∧
       ∀ a, device a → (t.line (a / 128)).tag ≠ n))

/-- R9, R160, R212, R220, R226, R279, R280, R297, R304, R313, R347, R361: right after reset TIMER is 0, nothing is resident or queued,
every byte of device memory reads 0 with tag 0 and no poison, every RC register reads 0, sequence numbers start at 1, no
queue is enabled, and each register has the value of its Reset column: RATE 2, DRP_CTL with EN 1 and THR 40, a push limit of
1,000,000 and a hang limit of 1,000,000,000 ticks, rings of 2^6 entries, alarm thresholds of 48, 10,000 and 3,600,000, and
WEAR_CTL with ROT 1, RMAX 8, RLEN 4, RTHR 20 and RGAP 16. The boot result is 0, and the black box holds its two events. -/
def Obligations.ResetState : Prop :=
  let s := State.reset
  s.timer = 0 ∧ s.memoryOk ∧ s.cohorts = [] ∧ s.cmds = [] ∧ s.shadows = [] ∧ s.partials = [] ∧ s.msgs = [] ∧ s.mcasts = [] ∧
  s.bloads = [] ∧ s.xlt.ctxs = [] ∧ s.names.ents = [] ∧ s.lch.grids = [] ∧ s.lch.seq = 1 ∧ s.sec.slots = [] ∧
  (∀ a, s.mem.get a = 0) ∧
  (∀ n, (s.line n).tag = 0 ∧ (s.line n).poison = false ∧ (s.line n).failed = false) ∧
  (∀ r i, s.counter r i = 0) ∧
  (∀ ci, let c := s.cluster ci
    c.rate = 2 ∧ c.qstall.toNat = 1000000 ∧ c.hangLim.toNat = 1000000000 ∧ c.hangCount = 0 ∧ c.spWorld = 0 ∧ c.spadWorld = 0 ∧
    c.tlb = [] ∧ (∀ sp, nth c.mxu sp [] = []) ∧ c.clock.drpCtl.getLsbD 31 = true ∧ c.clock.drpCtl.toNat % 128 = 40 ∧
    c.clock.tripped = false ∧ c.clock.hop = none) ∧
  (∀ q, (s.queue q).en = false ∧ (s.queue q).tail = 0 ∧ (s.queue q).head = 0 ∧ (s.queue q).base = 0) ∧
  (s.xlt.fqEn = false ∧ s.xlt.fqLogn = 6 ∧ s.xlt.fqTail = 0 ∧ s.xlt.fqHead = 0 ∧ s.xlt.busy = false ∧ s.xlt.pages = []) ∧
  (∀ n, (s.tdi n).state = 0 ∧ (s.tdi n).epoch = 0) ∧
  (∀ p, let x := (s.fabPort p).alarm.toNat
    x / 2 ^ 48 % 256 = 48 ∧ x / 2 ^ 24 % 2 ^ 24 = 10000 ∧ x % 2 ^ 24 = 3600000 ∧ x / 2 ^ 60 = 0) ∧
  (let x := s.wear.ctl.toNat
   x / 2 ^ 32 % 256 = 16 ∧ x / 2 ^ 31 % 2 = 1 ∧ x / 2 ^ 30 % 2 = 0 ∧ x / 2 ^ 24 % 16 = 8 ∧ x / 2 ^ 16 % 256 = 4 ∧ x / 2 ^ 8 % 256 = 20) ∧
  (s.pwr.pkgLim = 6000 ∧ s.pwr.prot = 0 ∧ s.wear.arate = 1200 ∧ s.wear.tgt = 2557 ∧ s.wear.eol = 265109760000000) ∧
  (s.mc.boot = 0 ∧ s.mc.errEn = false ∧ s.mc.commit = none ∧ s.mc.ring.map (fun e => (e.tick, e.kind, e.die)) = [(0, 10, 0xFF), (0, 11, 0xFF)])

/-- R250: memory is bytes at physical addresses. Every step keeps the model's canonical form of it: addresses rise strictly, and no
byte that reads as zero is listed, so that equal memories are equal data. The form is the model's own (log entry 4). -/
def Obligations.MemoryStaysCanonical : Prop :=
  ∀ s t : State, s.memoryOk → step s = .next t → t.memoryOk
end

