-- ==== Sys2Proof/Laws/Maps.lean ====
section
/-!
SUPPORT. Tables with natural-number keys and memory: reading after writing, the rising order, and the
canonical form that every memory operation keeps.
-/

namespace Sys2Proof.Machine


variable {α : Type}

@[simp] theorem find?_insert_self (m : FMap α) (k : Nat) (v : α) : find? (insert m k v) k = some v := by
  induction m with
  | nil => simp [insert, find?]
  | cons p m ih =>
    obtain ⟨j, u⟩ := p
    simp only [insert]
    split
    · simp [find?]
    · split
      · simp [find?]
      · rename_i h
        have : j ≠ k := fun e => h e.symm
        simp [find?, this, ih]

theorem find?_insert_ne (m : FMap α) {k j : Nat} (v : α) (h : j ≠ k) : find? (insert m k v) j = find? m j := by
  have h' : k ≠ j := fun e => h e.symm
  induction m with
  | nil => simp [insert, find?, h']
  | cons p m ih =>
    obtain ⟨i, u⟩ := p
    simp only [insert]
    split
    · simp [find?, h']
    · split
      · rename_i e; subst e; simp [find?, h']
      · simp only [find?, ih]

theorem find?_insert (m : FMap α) (k j : Nat) (v : α) :
    find? (insert m k v) j = if j = k then some v else find? m j := by
  split
  · rename_i e; subst e; simp
  · rename_i e; exact find?_insert_ne m v e

theorem find?_modify (m : FMap α) (k j : Nat) (f : α → α) :
    find? (modify m k f) j = if j = k then (find? m j).map f else find? m j := by
  induction m with
  | nil => simp [modify, find?]
  | cons p m ih =>
    obtain ⟨i, u⟩ := p
    simp only [modify, List.map_cons] at ih ⊢
    by_cases hi : i = k
    · subst hi
      by_cases hj : i = j
      · subst hj; simp [find?]
      · have hj' : j ≠ i := fun e => hj e.symm
        simp only [if_true, find?, if_neg hj]
        rw [ih]
    · simp only [if_neg hi, find?]
      by_cases hj : i = j
      · subst hj; simp [hi]
      · simp only [if_neg hj]; rw [ih]

@[simp] theorem find?_modify_self (m : FMap α) (k : Nat) (f : α → α) : find? (modify m k f) k = (find? m k).map f := by
  simp [find?_modify]

theorem find?_modify_ne (m : FMap α) {k j : Nat} (f : α → α) (h : j ≠ k) : find? (modify m k f) j = find? m j := by
  simp [find?_modify, h]

theorem find?_map {β : Type} (m : FMap α) (f : Nat → α → β) (k : Nat) :
    find? (m.map fun p => (p.1, f p.1 p.2)) k = (find? m k).map (f k) := by
  induction m with
  | nil => simp [find?]
  | cons p m ih =>
    obtain ⟨i, u⟩ := p
    simp only [List.map_cons, find?]
    by_cases h : i = k
    · subst h; simp
    · simp [h, ih]

theorem find?_mapVals {β : Type} (m : FMap α) (f : Nat → α → β) (k : Nat) :
    find? (mapVals m f) k = (find? m k).map (f k) := find?_map m f k

/-- Values at some keys changed: what `modThreads` does. -/
theorem find?_mapIf (m : FMap α) (ks : List Nat) (f : Nat → α → α) (k : Nat) :
    find? (m.map fun p => if ks.contains p.1 then (p.1, f p.1 p.2) else p) k =
      if k ∈ ks then (find? m k).map (f k) else find? m k := by
  induction m with
  | nil => simp [find?]
  | cons p m ih =>
    obtain ⟨i, u⟩ := p
    simp only [List.map_cons, List.contains_eq_mem] at ih ⊢
    by_cases h : i = k
    · subst h
      by_cases hk : i ∈ ks <;> simp [find?, hk]
    · by_cases hi : i ∈ ks <;> simp [find?, hi, h] at ih ⊢ <;> exact ih

theorem find?_erase_ne (m : FMap α) {k j : Nat} (h : j ≠ k) : find? (erase m k) j = find? m j := by
  induction m with
  | nil => simp [erase]
  | cons p m ih =>
    obtain ⟨i, u⟩ := p
    simp only [erase]
    split
    · rename_i e; subst e
      have : i ≠ j := fun e => h e.symm
      simp [find?, this]
    · simp only [find?, ih]

/-- Every key of a table is above a bound. -/
def above (b : Nat) (m : FMap α) : Prop := ∀ p ∈ m, b < p.1

theorem rising_cons (a : Nat) (v : α) (m : FMap α) : rising ((a, v) :: m) = true ↔ above a m ∧ rising m = true := by
  induction m generalizing a v with
  | nil => simp [rising, above]
  | cons p m ih =>
    obtain ⟨b, u⟩ := p
    simp only [rising, Bool.and_eq_true, decide_eq_true_eq]
    constructor
    · rintro ⟨h, hr⟩
      refine ⟨?_, hr⟩
      have hb := (ih b u).1 hr
      intro q hq
      rcases List.mem_cons.1 hq with rfl | hq
      · exact h
      · exact Nat.lt_trans h (hb.1 q hq)
    · rintro ⟨h, hr⟩
      exact ⟨h (b, u) (List.mem_cons_self ..), hr⟩

theorem find?_above {b : Nat} {m : FMap α} (h : above b m) : find? m b = none := by
  induction m with
  | nil => rfl
  | cons p m ih =>
    obtain ⟨i, u⟩ := p
    have hi : b < i := h (i, u) (List.mem_cons_self ..)
    have : i ≠ b := Nat.ne_of_gt hi
    simp only [find?, if_neg this]
    exact ih fun q hq => h q (List.mem_cons_of_mem _ hq)

theorem find?_erase_self {m : FMap α} (h : rising m = true) (k : Nat) : find? (erase m k) k = none := by
  induction m with
  | nil => rfl
  | cons p m ih =>
    obtain ⟨i, u⟩ := p
    obtain ⟨ha, hr⟩ := (rising_cons i u m).1 h
    simp only [erase]
    split
    · rename_i e; subst e; exact find?_above ha
    · rename_i e
      simp only [find?, if_neg e]
      exact ih hr

theorem above_insert {b k : Nat} {m : FMap α} (v : α) (hb : b < k) (h : above b m) : above b (insert m k v) := by
  induction m with
  | nil => intro p hp; simp [insert] at hp; subst hp; exact hb
  | cons q m ih =>
    obtain ⟨i, u⟩ := q
    have hi : b < i := h (i, u) (List.mem_cons_self ..)
    have hm : above b m := fun p hp => h p (List.mem_cons_of_mem _ hp)
    simp only [insert]
    split
    · intro p hp
      rcases List.mem_cons.1 hp with rfl | hp
      · exact hb
      · exact h p hp
    · split
      · intro p hp
        rcases List.mem_cons.1 hp with rfl | hp
        · exact hb
        · exact hm p hp
      · intro p hp
        rcases List.mem_cons.1 hp with rfl | hp
        · exact hi
        · exact ih hm p hp

theorem rising_insert {m : FMap α} (h : rising m = true) (k : Nat) (v : α) : rising (insert m k v) = true := by
  induction m with
  | nil => rfl
  | cons p m ih =>
    obtain ⟨i, u⟩ := p
    obtain ⟨ha, hr⟩ := (rising_cons i u m).1 h
    simp only [insert]
    split
    · rename_i hk
      refine (rising_cons _ _ _).2 ⟨?_, h⟩
      intro q hq
      rcases List.mem_cons.1 hq with rfl | hq
      · exact hk
      · exact Nat.lt_trans hk (ha q hq)
    · split
      · rename_i e; subst e; exact (rising_cons _ _ _).2 ⟨ha, hr⟩
      · rename_i h1 h2
        exact (rising_cons _ _ _).2 ⟨above_insert v (by omega) ha, ih hr⟩

theorem above_erase {b : Nat} {m : FMap α} (k : Nat) (h : above b m) : above b (erase m k) := by
  induction m with
  | nil => exact h
  | cons p m ih =>
    obtain ⟨i, u⟩ := p
    have hm : above b m := fun q hq => h q (List.mem_cons_of_mem _ hq)
    simp only [erase]
    split
    · exact hm
    · intro q hq
      rcases List.mem_cons.1 hq with rfl | hq
      · exact h _ (List.mem_cons_self ..)
      · exact ih hm q hq

theorem rising_erase {m : FMap α} (h : rising m = true) (k : Nat) : rising (erase m k) = true := by
  induction m with
  | nil => rfl
  | cons p m ih =>
    obtain ⟨i, u⟩ := p
    obtain ⟨ha, hr⟩ := (rising_cons i u m).1 h
    simp only [erase]
    split
    · exact hr
    · exact (rising_cons _ _ _).2 ⟨above_erase k ha, ih hr⟩

theorem all_insert {m : FMap α} (P : Nat × α → Bool) (k : Nat) (v : α) (hv : P (k, v) = true) (h : m.all P = true) :
    (insert m k v).all P = true := by
  induction m with
  | nil => simp [insert, hv]
  | cons p m ih =>
    obtain ⟨i, u⟩ := p
    simp only [List.all_cons, Bool.and_eq_true] at h
    simp only [insert]
    split
    · simp [hv, h]
    · split
      · simp [hv, h.2]
      · simp [h.1, ih h.2]

theorem all_erase {m : FMap α} (P : Nat × α → Bool) (k : Nat) (h : m.all P = true) : (erase m k).all P = true := by
  induction m with
  | nil => rfl
  | cons p m ih =>
    obtain ⟨i, u⟩ := p
    simp only [List.all_cons, Bool.and_eq_true] at h
    simp only [erase]
    split
    · exact h.2
    · simp [h.1, ih h.2]

/-! Memory. -/

theorem wf_set {m : Memory} (h : m.wf = true) (a : Nat) (b : Byte) : (m.set a b).wf = true := by
  simp only [Memory.wf, Bool.and_eq_true] at h ⊢
  simp only [Memory.set]
  split
  · exact ⟨rising_erase h.1 a, all_erase _ a h.2⟩
  · rename_i hb
    exact ⟨rising_insert h.1 a b, all_insert _ a b (by simpa using hb) h.2⟩

/-- Storing bytes keeps the canonical form. -/
theorem wf_setBytes {m : Memory} (h : m.wf = true) (a : Nat) (bs : List Byte) : (m.setBytes a bs).wf = true := by
  induction bs generalizing m a with
  | nil => exact h
  | cons b bs ih => exact ih (wf_set h a b) (a + 1)

theorem wf_write {m : Memory} (h : m.wf = true) (a n x : Nat) : (m.write a n x).wf = true := wf_setBytes h a _

theorem get_set_ne (m : Memory) {a c : Nat} (b : Byte) (h : c ≠ a) : (m.set a b).get c = m.get c := by
  simp only [Memory.get, Memory.set, findD]
  split
  · rw [find?_erase_ne m h]
  · rw [find?_insert_ne m b h]

theorem get_set_self {m : Memory} (h : m.wf = true) (a : Nat) (b : Byte) : (m.set a b).get a = b := by
  simp only [Memory.wf, Bool.and_eq_true] at h
  simp only [Memory.get, Memory.set, findD]
  split
  · rename_i e; rw [find?_erase_self h.1 a]; exact e.symm
  · simp

/-- Storing bytes leaves every byte outside them. -/
theorem get_setBytes_out (m : Memory) (a c : Nat) (bs : List Byte) (h : c < a ∨ a + bs.length ≤ c) :
    (m.setBytes a bs).get c = m.get c := by
  induction bs generalizing m a with
  | nil => rfl
  | cons b bs ih =>
    simp only [Memory.setBytes, List.length_cons] at h ⊢
    rw [ih (m.set a b) (a + 1) (by omega), get_set_ne m b (by omega)]

/-- A stored byte reads back. -/
theorem get_setBytes_in {m : Memory} (h : m.wf = true) (a i : Nat) (bs : List Byte) (hi : i < bs.length) :
    (m.setBytes a bs).get (a + i) = bs[i] := by
  induction bs generalizing m a i with
  | nil => simp at hi
  | cons b bs ih =>
    simp only [Memory.setBytes]
    cases i with
    | zero =>
      simp only [Nat.add_zero, List.getElem_cons_zero]
      rw [get_setBytes_out _ (a + 1) a bs (by omega), get_set_self h]
    | succ i =>
      have := ih (wf_set h a b) (a + 1) i (by simpa using hi)
      simpa [Nat.add_assoc, Nat.add_comm 1] using this

@[simp] theorem length_getBytes (m : Memory) (a n : Nat) : (m.getBytes a n).length = n := by
  induction n generalizing a with
  | zero => rfl
  | succ n ih => simp [Memory.getBytes, ih]

/-- Bytes stored read back whole. -/
theorem getBytes_setBytes {m : Memory} (h : m.wf = true) (a : Nat) (bs : List Byte) :
    (m.setBytes a bs).getBytes a bs.length = bs := by
  induction bs generalizing m a with
  | nil => rfl
  | cons b bs ih =>
    simp only [Memory.setBytes, List.length_cons, Memory.getBytes]
    rw [ih (wf_set h a b) (a + 1), get_setBytes_out _ (a + 1) a bs (by omega), get_set_self h]

@[simp] theorem length_toBytes (x n : Nat) : (toBytes x n).length = n := by
  induction n generalizing x with
  | zero => rfl
  | succ n ih => simp [toBytes, ih]

theorem ofBytes_toBytes (n x : Nat) : ofBytes (toBytes x n) = x % 2 ^ (8 * n) := by
  induction n generalizing x with
  | zero => simp [toBytes, ofBytes, Nat.mod_one]
  | succ n ih =>
    have e : 2 ^ (8 * (n + 1)) = 2 ^ 8 * 2 ^ (8 * n) := by rw [← Nat.pow_add]; congr 1; omega
    simp only [toBytes, ofBytes, ih, BitVec.toNat_ofNat]
    rw [e, Nat.mod_mul]

/-- A number stored reads back within its bytes. -/
theorem read_write {m : Memory} (h : m.wf = true) (a n x : Nat) : (m.write a n x).read a n = x % 2 ^ (8 * n) := by
  have := getBytes_setBytes h a (toBytes x n)
  rw [length_toBytes] at this
  simp only [Memory.read, Memory.write, this, ofBytes_toBytes]

end Sys2Proof.Machine
end

