-- ==== Sys2Proof/Laws/State.lean ====
section
/-!
SUPPORT. What each update of the state leaves in each field, and what it puts where it writes.
-/

namespace Sys2Proof.Machine

variable (s : State)

@[simp] theorem State.setCluster_code (ci : Nat) (c : Cluster) : (s.setCluster ci c).code = s.code := rfl
@[simp] theorem State.setCluster_dieCount (ci : Nat) (c : Cluster) : (s.setCluster ci c).dieCount = s.dieCount := rfl
@[simp] theorem State.setCluster_timer (ci : Nat) (c : Cluster) : (s.setCluster ci c).timer = s.timer := rfl
@[simp] theorem State.setCluster_tape (ci : Nat) (c : Cluster) : (s.setCluster ci c).tape = s.tape := rfl
@[simp] theorem State.setCluster_sel (ci : Nat) (c : Cluster) : (s.setCluster ci c).sel = s.sel := rfl
@[simp] theorem State.setCluster_choices (ci : Nat) (c : Cluster) : (s.setCluster ci c).choices = s.choices := rfl
@[simp] theorem State.setCluster_choiceCtr (ci : Nat) (c : Cluster) : (s.setCluster ci c).choiceCtr = s.choiceCtr := rfl
@[simp] theorem State.setCluster_freeCtr (ci : Nat) (c : Cluster) : (s.setCluster ci c).freeCtr = s.freeCtr := rfl
@[simp] theorem State.setCluster_mem (ci : Nat) (c : Cluster) : (s.setCluster ci c).mem = s.mem := rfl
@[simp] theorem State.setCluster_lines (ci : Nat) (c : Cluster) : (s.setCluster ci c).lines = s.lines := rfl
@[simp] theorem State.setCluster_cohorts (ci : Nat) (c : Cluster) : (s.setCluster ci c).cohorts = s.cohorts := rfl
@[simp] theorem State.setCluster_cmds (ci : Nat) (c : Cluster) : (s.setCluster ci c).cmds = s.cmds := rfl
@[simp] theorem State.setCluster_late (ci : Nat) (c : Cluster) : (s.setCluster ci c).late = s.late := rfl
@[simp] theorem State.setCluster_stale (ci : Nat) (c : Cluster) : (s.setCluster ci c).stale = s.stale := rfl
@[simp] theorem State.setCluster_partials (ci : Nat) (c : Cluster) : (s.setCluster ci c).partials = s.partials := rfl
@[simp] theorem State.setCluster_shadows (ci : Nat) (c : Cluster) : (s.setCluster ci c).shadows = s.shadows := rfl
@[simp] theorem State.setCluster_msgs (ci : Nat) (c : Cluster) : (s.setCluster ci c).msgs = s.msgs := rfl
@[simp] theorem State.setCluster_mcasts (ci : Nat) (c : Cluster) : (s.setCluster ci c).mcasts = s.mcasts := rfl
@[simp] theorem State.setCluster_bloads (ci : Nat) (c : Cluster) : (s.setCluster ci c).bloads = s.bloads := rfl
@[simp] theorem State.setCluster_dies (ci : Nat) (c : Cluster) : (s.setCluster ci c).dies = s.dies := rfl
@[simp] theorem State.setCluster_xlt (ci : Nat) (c : Cluster) : (s.setCluster ci c).xlt = s.xlt := rfl
@[simp] theorem State.setCluster_lch (ci : Nat) (c : Cluster) : (s.setCluster ci c).lch = s.lch := rfl
@[simp] theorem State.setCluster_names (ci : Nat) (c : Cluster) : (s.setCluster ci c).names = s.names := rfl
@[simp] theorem State.setCluster_sec (ci : Nat) (c : Cluster) : (s.setCluster ci c).sec = s.sec := rfl
@[simp] theorem State.setCluster_fab (ci : Nat) (c : Cluster) : (s.setCluster ci c).fab = s.fab := rfl
@[simp] theorem State.setCluster_pwr (ci : Nat) (c : Cluster) : (s.setCluster ci c).pwr = s.pwr := rfl
@[simp] theorem State.setCluster_wear (ci : Nat) (c : Cluster) : (s.setCluster ci c).wear = s.wear := rfl
@[simp] theorem State.setCluster_mc (ci : Nat) (c : Cluster) : (s.setCluster ci c).mc = s.mc := rfl
@[simp] theorem State.setCluster_counters (ci : Nat) (c : Cluster) : (s.setCluster ci c).counters = s.counters := rfl
@[simp] theorem State.setCluster_staging (ci : Nat) (c : Cluster) : (s.setCluster ci c).staging = s.staging := rfl
@[simp] theorem State.setCluster_latches (ci : Nat) (c : Cluster) : (s.setCluster ci c).latches = s.latches := rfl
@[simp] theorem State.setCluster_reply (ci : Nat) (c : Cluster) : (s.setCluster ci c).reply = s.reply := rfl
@[simp] theorem State.setCluster_fresh (ci : Nat) (c : Cluster) : (s.setCluster ci c).fresh = s.fresh := rfl

@[simp] theorem State.modCluster_code (ci : Nat) (f : Cluster → Cluster) : (s.modCluster ci f).code = s.code := rfl
@[simp] theorem State.modCluster_dieCount (ci : Nat) (f : Cluster → Cluster) : (s.modCluster ci f).dieCount = s.dieCount := rfl
@[simp] theorem State.modCluster_timer (ci : Nat) (f : Cluster → Cluster) : (s.modCluster ci f).timer = s.timer := rfl
@[simp] theorem State.modCluster_tape (ci : Nat) (f : Cluster → Cluster) : (s.modCluster ci f).tape = s.tape := rfl
@[simp] theorem State.modCluster_sel (ci : Nat) (f : Cluster → Cluster) : (s.modCluster ci f).sel = s.sel := rfl
@[simp] theorem State.modCluster_choices (ci : Nat) (f : Cluster → Cluster) : (s.modCluster ci f).choices = s.choices := rfl
@[simp] theorem State.modCluster_choiceCtr (ci : Nat) (f : Cluster → Cluster) : (s.modCluster ci f).choiceCtr = s.choiceCtr := rfl
@[simp] theorem State.modCluster_freeCtr (ci : Nat) (f : Cluster → Cluster) : (s.modCluster ci f).freeCtr = s.freeCtr := rfl
@[simp] theorem State.modCluster_mem (ci : Nat) (f : Cluster → Cluster) : (s.modCluster ci f).mem = s.mem := rfl
@[simp] theorem State.modCluster_lines (ci : Nat) (f : Cluster → Cluster) : (s.modCluster ci f).lines = s.lines := rfl
@[simp] theorem State.modCluster_cohorts (ci : Nat) (f : Cluster → Cluster) : (s.modCluster ci f).cohorts = s.cohorts := rfl
@[simp] theorem State.modCluster_cmds (ci : Nat) (f : Cluster → Cluster) : (s.modCluster ci f).cmds = s.cmds := rfl
@[simp] theorem State.modCluster_late (ci : Nat) (f : Cluster → Cluster) : (s.modCluster ci f).late = s.late := rfl
@[simp] theorem State.modCluster_stale (ci : Nat) (f : Cluster → Cluster) : (s.modCluster ci f).stale = s.stale := rfl
@[simp] theorem State.modCluster_partials (ci : Nat) (f : Cluster → Cluster) : (s.modCluster ci f).partials = s.partials := rfl
@[simp] theorem State.modCluster_shadows (ci : Nat) (f : Cluster → Cluster) : (s.modCluster ci f).shadows = s.shadows := rfl
@[simp] theorem State.modCluster_msgs (ci : Nat) (f : Cluster → Cluster) : (s.modCluster ci f).msgs = s.msgs := rfl
@[simp] theorem State.modCluster_mcasts (ci : Nat) (f : Cluster → Cluster) : (s.modCluster ci f).mcasts = s.mcasts := rfl
@[simp] theorem State.modCluster_bloads (ci : Nat) (f : Cluster → Cluster) : (s.modCluster ci f).bloads = s.bloads := rfl
@[simp] theorem State.modCluster_dies (ci : Nat) (f : Cluster → Cluster) : (s.modCluster ci f).dies = s.dies := rfl
@[simp] theorem State.modCluster_xlt (ci : Nat) (f : Cluster → Cluster) : (s.modCluster ci f).xlt = s.xlt := rfl
@[simp] theorem State.modCluster_lch (ci : Nat) (f : Cluster → Cluster) : (s.modCluster ci f).lch = s.lch := rfl
@[simp] theorem State.modCluster_names (ci : Nat) (f : Cluster → Cluster) : (s.modCluster ci f).names = s.names := rfl
@[simp] theorem State.modCluster_sec (ci : Nat) (f : Cluster → Cluster) : (s.modCluster ci f).sec = s.sec := rfl
@[simp] theorem State.modCluster_fab (ci : Nat) (f : Cluster → Cluster) : (s.modCluster ci f).fab = s.fab := rfl
@[simp] theorem State.modCluster_pwr (ci : Nat) (f : Cluster → Cluster) : (s.modCluster ci f).pwr = s.pwr := rfl
@[simp] theorem State.modCluster_wear (ci : Nat) (f : Cluster → Cluster) : (s.modCluster ci f).wear = s.wear := rfl
@[simp] theorem State.modCluster_mc (ci : Nat) (f : Cluster → Cluster) : (s.modCluster ci f).mc = s.mc := rfl
@[simp] theorem State.modCluster_counters (ci : Nat) (f : Cluster → Cluster) : (s.modCluster ci f).counters = s.counters := rfl
@[simp] theorem State.modCluster_staging (ci : Nat) (f : Cluster → Cluster) : (s.modCluster ci f).staging = s.staging := rfl
@[simp] theorem State.modCluster_latches (ci : Nat) (f : Cluster → Cluster) : (s.modCluster ci f).latches = s.latches := rfl
@[simp] theorem State.modCluster_reply (ci : Nat) (f : Cluster → Cluster) : (s.modCluster ci f).reply = s.reply := rfl
@[simp] theorem State.modCluster_fresh (ci : Nat) (f : Cluster → Cluster) : (s.modCluster ci f).fresh = s.fresh := rfl

@[simp] theorem State.setCohort_code (co : Nat) (c : Cohort) : (s.setCohort co c).code = s.code := rfl
@[simp] theorem State.setCohort_dieCount (co : Nat) (c : Cohort) : (s.setCohort co c).dieCount = s.dieCount := rfl
@[simp] theorem State.setCohort_timer (co : Nat) (c : Cohort) : (s.setCohort co c).timer = s.timer := rfl
@[simp] theorem State.setCohort_tape (co : Nat) (c : Cohort) : (s.setCohort co c).tape = s.tape := rfl
@[simp] theorem State.setCohort_sel (co : Nat) (c : Cohort) : (s.setCohort co c).sel = s.sel := rfl
@[simp] theorem State.setCohort_choices (co : Nat) (c : Cohort) : (s.setCohort co c).choices = s.choices := rfl
@[simp] theorem State.setCohort_choiceCtr (co : Nat) (c : Cohort) : (s.setCohort co c).choiceCtr = s.choiceCtr := rfl
@[simp] theorem State.setCohort_freeCtr (co : Nat) (c : Cohort) : (s.setCohort co c).freeCtr = s.freeCtr := rfl
@[simp] theorem State.setCohort_mem (co : Nat) (c : Cohort) : (s.setCohort co c).mem = s.mem := rfl
@[simp] theorem State.setCohort_lines (co : Nat) (c : Cohort) : (s.setCohort co c).lines = s.lines := rfl
@[simp] theorem State.setCohort_clusters (co : Nat) (c : Cohort) : (s.setCohort co c).clusters = s.clusters := rfl
@[simp] theorem State.setCohort_cmds (co : Nat) (c : Cohort) : (s.setCohort co c).cmds = s.cmds := rfl
@[simp] theorem State.setCohort_late (co : Nat) (c : Cohort) : (s.setCohort co c).late = s.late := rfl
@[simp] theorem State.setCohort_stale (co : Nat) (c : Cohort) : (s.setCohort co c).stale = s.stale := rfl
@[simp] theorem State.setCohort_partials (co : Nat) (c : Cohort) : (s.setCohort co c).partials = s.partials := rfl
@[simp] theorem State.setCohort_shadows (co : Nat) (c : Cohort) : (s.setCohort co c).shadows = s.shadows := rfl
@[simp] theorem State.setCohort_msgs (co : Nat) (c : Cohort) : (s.setCohort co c).msgs = s.msgs := rfl
@[simp] theorem State.setCohort_mcasts (co : Nat) (c : Cohort) : (s.setCohort co c).mcasts = s.mcasts := rfl
@[simp] theorem State.setCohort_bloads (co : Nat) (c : Cohort) : (s.setCohort co c).bloads = s.bloads := rfl
@[simp] theorem State.setCohort_dies (co : Nat) (c : Cohort) : (s.setCohort co c).dies = s.dies := rfl
@[simp] theorem State.setCohort_xlt (co : Nat) (c : Cohort) : (s.setCohort co c).xlt = s.xlt := rfl
@[simp] theorem State.setCohort_lch (co : Nat) (c : Cohort) : (s.setCohort co c).lch = s.lch := rfl
@[simp] theorem State.setCohort_names (co : Nat) (c : Cohort) : (s.setCohort co c).names = s.names := rfl
@[simp] theorem State.setCohort_sec (co : Nat) (c : Cohort) : (s.setCohort co c).sec = s.sec := rfl
@[simp] theorem State.setCohort_fab (co : Nat) (c : Cohort) : (s.setCohort co c).fab = s.fab := rfl
@[simp] theorem State.setCohort_pwr (co : Nat) (c : Cohort) : (s.setCohort co c).pwr = s.pwr := rfl
@[simp] theorem State.setCohort_wear (co : Nat) (c : Cohort) : (s.setCohort co c).wear = s.wear := rfl
@[simp] theorem State.setCohort_mc (co : Nat) (c : Cohort) : (s.setCohort co c).mc = s.mc := rfl
@[simp] theorem State.setCohort_counters (co : Nat) (c : Cohort) : (s.setCohort co c).counters = s.counters := rfl
@[simp] theorem State.setCohort_staging (co : Nat) (c : Cohort) : (s.setCohort co c).staging = s.staging := rfl
@[simp] theorem State.setCohort_latches (co : Nat) (c : Cohort) : (s.setCohort co c).latches = s.latches := rfl
@[simp] theorem State.setCohort_reply (co : Nat) (c : Cohort) : (s.setCohort co c).reply = s.reply := rfl
@[simp] theorem State.setCohort_fresh (co : Nat) (c : Cohort) : (s.setCohort co c).fresh = s.fresh := rfl

@[simp] theorem State.modCohort_code (co : Nat) (f : Cohort → Cohort) : (s.modCohort co f).code = s.code := rfl
@[simp] theorem State.modCohort_dieCount (co : Nat) (f : Cohort → Cohort) : (s.modCohort co f).dieCount = s.dieCount := rfl
@[simp] theorem State.modCohort_timer (co : Nat) (f : Cohort → Cohort) : (s.modCohort co f).timer = s.timer := rfl
@[simp] theorem State.modCohort_tape (co : Nat) (f : Cohort → Cohort) : (s.modCohort co f).tape = s.tape := rfl
@[simp] theorem State.modCohort_sel (co : Nat) (f : Cohort → Cohort) : (s.modCohort co f).sel = s.sel := rfl
@[simp] theorem State.modCohort_choices (co : Nat) (f : Cohort → Cohort) : (s.modCohort co f).choices = s.choices := rfl
@[simp] theorem State.modCohort_choiceCtr (co : Nat) (f : Cohort → Cohort) : (s.modCohort co f).choiceCtr = s.choiceCtr := rfl
@[simp] theorem State.modCohort_freeCtr (co : Nat) (f : Cohort → Cohort) : (s.modCohort co f).freeCtr = s.freeCtr := rfl
@[simp] theorem State.modCohort_mem (co : Nat) (f : Cohort → Cohort) : (s.modCohort co f).mem = s.mem := rfl
@[simp] theorem State.modCohort_lines (co : Nat) (f : Cohort → Cohort) : (s.modCohort co f).lines = s.lines := rfl
@[simp] theorem State.modCohort_clusters (co : Nat) (f : Cohort → Cohort) : (s.modCohort co f).clusters = s.clusters := rfl
@[simp] theorem State.modCohort_cmds (co : Nat) (f : Cohort → Cohort) : (s.modCohort co f).cmds = s.cmds := rfl
@[simp] theorem State.modCohort_late (co : Nat) (f : Cohort → Cohort) : (s.modCohort co f).late = s.late := rfl
@[simp] theorem State.modCohort_stale (co : Nat) (f : Cohort → Cohort) : (s.modCohort co f).stale = s.stale := rfl
@[simp] theorem State.modCohort_partials (co : Nat) (f : Cohort → Cohort) : (s.modCohort co f).partials = s.partials := rfl
@[simp] theorem State.modCohort_shadows (co : Nat) (f : Cohort → Cohort) : (s.modCohort co f).shadows = s.shadows := rfl
@[simp] theorem State.modCohort_msgs (co : Nat) (f : Cohort → Cohort) : (s.modCohort co f).msgs = s.msgs := rfl
@[simp] theorem State.modCohort_mcasts (co : Nat) (f : Cohort → Cohort) : (s.modCohort co f).mcasts = s.mcasts := rfl
@[simp] theorem State.modCohort_bloads (co : Nat) (f : Cohort → Cohort) : (s.modCohort co f).bloads = s.bloads := rfl
@[simp] theorem State.modCohort_dies (co : Nat) (f : Cohort → Cohort) : (s.modCohort co f).dies = s.dies := rfl
@[simp] theorem State.modCohort_xlt (co : Nat) (f : Cohort → Cohort) : (s.modCohort co f).xlt = s.xlt := rfl
@[simp] theorem State.modCohort_lch (co : Nat) (f : Cohort → Cohort) : (s.modCohort co f).lch = s.lch := rfl
@[simp] theorem State.modCohort_names (co : Nat) (f : Cohort → Cohort) : (s.modCohort co f).names = s.names := rfl
@[simp] theorem State.modCohort_sec (co : Nat) (f : Cohort → Cohort) : (s.modCohort co f).sec = s.sec := rfl
@[simp] theorem State.modCohort_fab (co : Nat) (f : Cohort → Cohort) : (s.modCohort co f).fab = s.fab := rfl
@[simp] theorem State.modCohort_pwr (co : Nat) (f : Cohort → Cohort) : (s.modCohort co f).pwr = s.pwr := rfl
@[simp] theorem State.modCohort_wear (co : Nat) (f : Cohort → Cohort) : (s.modCohort co f).wear = s.wear := rfl
@[simp] theorem State.modCohort_mc (co : Nat) (f : Cohort → Cohort) : (s.modCohort co f).mc = s.mc := rfl
@[simp] theorem State.modCohort_counters (co : Nat) (f : Cohort → Cohort) : (s.modCohort co f).counters = s.counters := rfl
@[simp] theorem State.modCohort_staging (co : Nat) (f : Cohort → Cohort) : (s.modCohort co f).staging = s.staging := rfl
@[simp] theorem State.modCohort_latches (co : Nat) (f : Cohort → Cohort) : (s.modCohort co f).latches = s.latches := rfl
@[simp] theorem State.modCohort_reply (co : Nat) (f : Cohort → Cohort) : (s.modCohort co f).reply = s.reply := rfl
@[simp] theorem State.modCohort_fresh (co : Nat) (f : Cohort → Cohort) : (s.modCohort co f).fresh = s.fresh := rfl

@[simp] theorem State.modThread_code (co k : Nat) (f : Thread → Thread) : (s.modThread co k f).code = s.code := rfl
@[simp] theorem State.modThread_dieCount (co k : Nat) (f : Thread → Thread) : (s.modThread co k f).dieCount = s.dieCount := rfl
@[simp] theorem State.modThread_timer (co k : Nat) (f : Thread → Thread) : (s.modThread co k f).timer = s.timer := rfl
@[simp] theorem State.modThread_tape (co k : Nat) (f : Thread → Thread) : (s.modThread co k f).tape = s.tape := rfl
@[simp] theorem State.modThread_sel (co k : Nat) (f : Thread → Thread) : (s.modThread co k f).sel = s.sel := rfl
@[simp] theorem State.modThread_choices (co k : Nat) (f : Thread → Thread) : (s.modThread co k f).choices = s.choices := rfl
@[simp] theorem State.modThread_choiceCtr (co k : Nat) (f : Thread → Thread) : (s.modThread co k f).choiceCtr = s.choiceCtr := rfl
@[simp] theorem State.modThread_freeCtr (co k : Nat) (f : Thread → Thread) : (s.modThread co k f).freeCtr = s.freeCtr := rfl
@[simp] theorem State.modThread_mem (co k : Nat) (f : Thread → Thread) : (s.modThread co k f).mem = s.mem := rfl
@[simp] theorem State.modThread_lines (co k : Nat) (f : Thread → Thread) : (s.modThread co k f).lines = s.lines := rfl
@[simp] theorem State.modThread_clusters (co k : Nat) (f : Thread → Thread) : (s.modThread co k f).clusters = s.clusters := rfl
@[simp] theorem State.modThread_cmds (co k : Nat) (f : Thread → Thread) : (s.modThread co k f).cmds = s.cmds := rfl
@[simp] theorem State.modThread_late (co k : Nat) (f : Thread → Thread) : (s.modThread co k f).late = s.late := rfl
@[simp] theorem State.modThread_stale (co k : Nat) (f : Thread → Thread) : (s.modThread co k f).stale = s.stale := rfl
@[simp] theorem State.modThread_partials (co k : Nat) (f : Thread → Thread) : (s.modThread co k f).partials = s.partials := rfl
@[simp] theorem State.modThread_shadows (co k : Nat) (f : Thread → Thread) : (s.modThread co k f).shadows = s.shadows := rfl
@[simp] theorem State.modThread_msgs (co k : Nat) (f : Thread → Thread) : (s.modThread co k f).msgs = s.msgs := rfl
@[simp] theorem State.modThread_mcasts (co k : Nat) (f : Thread → Thread) : (s.modThread co k f).mcasts = s.mcasts := rfl
@[simp] theorem State.modThread_bloads (co k : Nat) (f : Thread → Thread) : (s.modThread co k f).bloads = s.bloads := rfl
@[simp] theorem State.modThread_dies (co k : Nat) (f : Thread → Thread) : (s.modThread co k f).dies = s.dies := rfl
@[simp] theorem State.modThread_xlt (co k : Nat) (f : Thread → Thread) : (s.modThread co k f).xlt = s.xlt := rfl
@[simp] theorem State.modThread_lch (co k : Nat) (f : Thread → Thread) : (s.modThread co k f).lch = s.lch := rfl
@[simp] theorem State.modThread_names (co k : Nat) (f : Thread → Thread) : (s.modThread co k f).names = s.names := rfl
@[simp] theorem State.modThread_sec (co k : Nat) (f : Thread → Thread) : (s.modThread co k f).sec = s.sec := rfl
@[simp] theorem State.modThread_fab (co k : Nat) (f : Thread → Thread) : (s.modThread co k f).fab = s.fab := rfl
@[simp] theorem State.modThread_pwr (co k : Nat) (f : Thread → Thread) : (s.modThread co k f).pwr = s.pwr := rfl
@[simp] theorem State.modThread_wear (co k : Nat) (f : Thread → Thread) : (s.modThread co k f).wear = s.wear := rfl
@[simp] theorem State.modThread_mc (co k : Nat) (f : Thread → Thread) : (s.modThread co k f).mc = s.mc := rfl
@[simp] theorem State.modThread_counters (co k : Nat) (f : Thread → Thread) : (s.modThread co k f).counters = s.counters := rfl
@[simp] theorem State.modThread_staging (co k : Nat) (f : Thread → Thread) : (s.modThread co k f).staging = s.staging := rfl
@[simp] theorem State.modThread_latches (co k : Nat) (f : Thread → Thread) : (s.modThread co k f).latches = s.latches := rfl
@[simp] theorem State.modThread_reply (co k : Nat) (f : Thread → Thread) : (s.modThread co k f).reply = s.reply := rfl
@[simp] theorem State.modThread_fresh (co k : Nat) (f : Thread → Thread) : (s.modThread co k f).fresh = s.fresh := rfl

@[simp] theorem State.modThreads_code (co : Nat) (ks : List Nat) (f : Nat → Thread → Thread) : (s.modThreads co ks f).code = s.code := rfl
@[simp] theorem State.modThreads_dieCount (co : Nat) (ks : List Nat) (f : Nat → Thread → Thread) : (s.modThreads co ks f).dieCount = s.dieCount := rfl
@[simp] theorem State.modThreads_timer (co : Nat) (ks : List Nat) (f : Nat → Thread → Thread) : (s.modThreads co ks f).timer = s.timer := rfl
@[simp] theorem State.modThreads_tape (co : Nat) (ks : List Nat) (f : Nat → Thread → Thread) : (s.modThreads co ks f).tape = s.tape := rfl
@[simp] theorem State.modThreads_sel (co : Nat) (ks : List Nat) (f : Nat → Thread → Thread) : (s.modThreads co ks f).sel = s.sel := rfl
@[simp] theorem State.modThreads_choices (co : Nat) (ks : List Nat) (f : Nat → Thread → Thread) : (s.modThreads co ks f).choices = s.choices := rfl
@[simp] theorem State.modThreads_choiceCtr (co : Nat) (ks : List Nat) (f : Nat → Thread → Thread) : (s.modThreads co ks f).choiceCtr = s.choiceCtr := rfl
@[simp] theorem State.modThreads_freeCtr (co : Nat) (ks : List Nat) (f : Nat → Thread → Thread) : (s.modThreads co ks f).freeCtr = s.freeCtr := rfl
@[simp] theorem State.modThreads_mem (co : Nat) (ks : List Nat) (f : Nat → Thread → Thread) : (s.modThreads co ks f).mem = s.mem := rfl
@[simp] theorem State.modThreads_lines (co : Nat) (ks : List Nat) (f : Nat → Thread → Thread) : (s.modThreads co ks f).lines = s.lines := rfl
@[simp] theorem State.modThreads_clusters (co : Nat) (ks : List Nat) (f : Nat → Thread → Thread) : (s.modThreads co ks f).clusters = s.clusters := rfl
@[simp] theorem State.modThreads_cmds (co : Nat) (ks : List Nat) (f : Nat → Thread → Thread) : (s.modThreads co ks f).cmds = s.cmds := rfl
@[simp] theorem State.modThreads_late (co : Nat) (ks : List Nat) (f : Nat → Thread → Thread) : (s.modThreads co ks f).late = s.late := rfl
@[simp] theorem State.modThreads_stale (co : Nat) (ks : List Nat) (f : Nat → Thread → Thread) : (s.modThreads co ks f).stale = s.stale := rfl
@[simp] theorem State.modThreads_partials (co : Nat) (ks : List Nat) (f : Nat → Thread → Thread) : (s.modThreads co ks f).partials = s.partials := rfl
@[simp] theorem State.modThreads_shadows (co : Nat) (ks : List Nat) (f : Nat → Thread → Thread) : (s.modThreads co ks f).shadows = s.shadows := rfl
@[simp] theorem State.modThreads_msgs (co : Nat) (ks : List Nat) (f : Nat → Thread → Thread) : (s.modThreads co ks f).msgs = s.msgs := rfl
@[simp] theorem State.modThreads_mcasts (co : Nat) (ks : List Nat) (f : Nat → Thread → Thread) : (s.modThreads co ks f).mcasts = s.mcasts := rfl
@[simp] theorem State.modThreads_bloads (co : Nat) (ks : List Nat) (f : Nat → Thread → Thread) : (s.modThreads co ks f).bloads = s.bloads := rfl
@[simp] theorem State.modThreads_dies (co : Nat) (ks : List Nat) (f : Nat → Thread → Thread) : (s.modThreads co ks f).dies = s.dies := rfl
@[simp] theorem State.modThreads_xlt (co : Nat) (ks : List Nat) (f : Nat → Thread → Thread) : (s.modThreads co ks f).xlt = s.xlt := rfl
@[simp] theorem State.modThreads_lch (co : Nat) (ks : List Nat) (f : Nat → Thread → Thread) : (s.modThreads co ks f).lch = s.lch := rfl
@[simp] theorem State.modThreads_names (co : Nat) (ks : List Nat) (f : Nat → Thread → Thread) : (s.modThreads co ks f).names = s.names := rfl
@[simp] theorem State.modThreads_sec (co : Nat) (ks : List Nat) (f : Nat → Thread → Thread) : (s.modThreads co ks f).sec = s.sec := rfl
@[simp] theorem State.modThreads_fab (co : Nat) (ks : List Nat) (f : Nat → Thread → Thread) : (s.modThreads co ks f).fab = s.fab := rfl
@[simp] theorem State.modThreads_pwr (co : Nat) (ks : List Nat) (f : Nat → Thread → Thread) : (s.modThreads co ks f).pwr = s.pwr := rfl
@[simp] theorem State.modThreads_wear (co : Nat) (ks : List Nat) (f : Nat → Thread → Thread) : (s.modThreads co ks f).wear = s.wear := rfl
@[simp] theorem State.modThreads_mc (co : Nat) (ks : List Nat) (f : Nat → Thread → Thread) : (s.modThreads co ks f).mc = s.mc := rfl
@[simp] theorem State.modThreads_counters (co : Nat) (ks : List Nat) (f : Nat → Thread → Thread) : (s.modThreads co ks f).counters = s.counters := rfl
@[simp] theorem State.modThreads_staging (co : Nat) (ks : List Nat) (f : Nat → Thread → Thread) : (s.modThreads co ks f).staging = s.staging := rfl
@[simp] theorem State.modThreads_latches (co : Nat) (ks : List Nat) (f : Nat → Thread → Thread) : (s.modThreads co ks f).latches = s.latches := rfl
@[simp] theorem State.modThreads_reply (co : Nat) (ks : List Nat) (f : Nat → Thread → Thread) : (s.modThreads co ks f).reply = s.reply := rfl
@[simp] theorem State.modThreads_fresh (co : Nat) (ks : List Nat) (f : Nat → Thread → Thread) : (s.modThreads co ks f).fresh = s.fresh := rfl

@[simp] theorem State.setLane_code (co k reg : Nat) (v : Word) : (s.setLane co k reg v).code = s.code := rfl
@[simp] theorem State.setLane_dieCount (co k reg : Nat) (v : Word) : (s.setLane co k reg v).dieCount = s.dieCount := rfl
@[simp] theorem State.setLane_timer (co k reg : Nat) (v : Word) : (s.setLane co k reg v).timer = s.timer := rfl
@[simp] theorem State.setLane_tape (co k reg : Nat) (v : Word) : (s.setLane co k reg v).tape = s.tape := rfl
@[simp] theorem State.setLane_sel (co k reg : Nat) (v : Word) : (s.setLane co k reg v).sel = s.sel := rfl
@[simp] theorem State.setLane_choices (co k reg : Nat) (v : Word) : (s.setLane co k reg v).choices = s.choices := rfl
@[simp] theorem State.setLane_choiceCtr (co k reg : Nat) (v : Word) : (s.setLane co k reg v).choiceCtr = s.choiceCtr := rfl
@[simp] theorem State.setLane_freeCtr (co k reg : Nat) (v : Word) : (s.setLane co k reg v).freeCtr = s.freeCtr := rfl
@[simp] theorem State.setLane_mem (co k reg : Nat) (v : Word) : (s.setLane co k reg v).mem = s.mem := rfl
@[simp] theorem State.setLane_lines (co k reg : Nat) (v : Word) : (s.setLane co k reg v).lines = s.lines := rfl
@[simp] theorem State.setLane_clusters (co k reg : Nat) (v : Word) : (s.setLane co k reg v).clusters = s.clusters := rfl
@[simp] theorem State.setLane_cmds (co k reg : Nat) (v : Word) : (s.setLane co k reg v).cmds = s.cmds := rfl
@[simp] theorem State.setLane_late (co k reg : Nat) (v : Word) : (s.setLane co k reg v).late = s.late := rfl
@[simp] theorem State.setLane_stale (co k reg : Nat) (v : Word) : (s.setLane co k reg v).stale = s.stale := rfl
@[simp] theorem State.setLane_partials (co k reg : Nat) (v : Word) : (s.setLane co k reg v).partials = s.partials := rfl
@[simp] theorem State.setLane_shadows (co k reg : Nat) (v : Word) : (s.setLane co k reg v).shadows = s.shadows := rfl
@[simp] theorem State.setLane_msgs (co k reg : Nat) (v : Word) : (s.setLane co k reg v).msgs = s.msgs := rfl
@[simp] theorem State.setLane_mcasts (co k reg : Nat) (v : Word) : (s.setLane co k reg v).mcasts = s.mcasts := rfl
@[simp] theorem State.setLane_bloads (co k reg : Nat) (v : Word) : (s.setLane co k reg v).bloads = s.bloads := rfl
@[simp] theorem State.setLane_dies (co k reg : Nat) (v : Word) : (s.setLane co k reg v).dies = s.dies := rfl
@[simp] theorem State.setLane_xlt (co k reg : Nat) (v : Word) : (s.setLane co k reg v).xlt = s.xlt := rfl
@[simp] theorem State.setLane_lch (co k reg : Nat) (v : Word) : (s.setLane co k reg v).lch = s.lch := rfl
@[simp] theorem State.setLane_names (co k reg : Nat) (v : Word) : (s.setLane co k reg v).names = s.names := rfl
@[simp] theorem State.setLane_sec (co k reg : Nat) (v : Word) : (s.setLane co k reg v).sec = s.sec := rfl
@[simp] theorem State.setLane_fab (co k reg : Nat) (v : Word) : (s.setLane co k reg v).fab = s.fab := rfl
@[simp] theorem State.setLane_pwr (co k reg : Nat) (v : Word) : (s.setLane co k reg v).pwr = s.pwr := rfl
@[simp] theorem State.setLane_wear (co k reg : Nat) (v : Word) : (s.setLane co k reg v).wear = s.wear := rfl
@[simp] theorem State.setLane_mc (co k reg : Nat) (v : Word) : (s.setLane co k reg v).mc = s.mc := rfl
@[simp] theorem State.setLane_counters (co k reg : Nat) (v : Word) : (s.setLane co k reg v).counters = s.counters := rfl
@[simp] theorem State.setLane_staging (co k reg : Nat) (v : Word) : (s.setLane co k reg v).staging = s.staging := rfl
@[simp] theorem State.setLane_latches (co k reg : Nat) (v : Word) : (s.setLane co k reg v).latches = s.latches := rfl
@[simp] theorem State.setLane_reply (co k reg : Nat) (v : Word) : (s.setLane co k reg v).reply = s.reply := rfl
@[simp] theorem State.setLane_fresh (co k reg : Nat) (v : Word) : (s.setLane co k reg v).fresh = s.fresh := rfl

@[simp] theorem State.modDie_code (d : Nat) (f : DieNet → DieNet) : (s.modDie d f).code = s.code := rfl
@[simp] theorem State.modDie_dieCount (d : Nat) (f : DieNet → DieNet) : (s.modDie d f).dieCount = s.dieCount := rfl
@[simp] theorem State.modDie_timer (d : Nat) (f : DieNet → DieNet) : (s.modDie d f).timer = s.timer := rfl
@[simp] theorem State.modDie_tape (d : Nat) (f : DieNet → DieNet) : (s.modDie d f).tape = s.tape := rfl
@[simp] theorem State.modDie_sel (d : Nat) (f : DieNet → DieNet) : (s.modDie d f).sel = s.sel := rfl
@[simp] theorem State.modDie_choices (d : Nat) (f : DieNet → DieNet) : (s.modDie d f).choices = s.choices := rfl
@[simp] theorem State.modDie_choiceCtr (d : Nat) (f : DieNet → DieNet) : (s.modDie d f).choiceCtr = s.choiceCtr := rfl
@[simp] theorem State.modDie_freeCtr (d : Nat) (f : DieNet → DieNet) : (s.modDie d f).freeCtr = s.freeCtr := rfl
@[simp] theorem State.modDie_mem (d : Nat) (f : DieNet → DieNet) : (s.modDie d f).mem = s.mem := rfl
@[simp] theorem State.modDie_lines (d : Nat) (f : DieNet → DieNet) : (s.modDie d f).lines = s.lines := rfl
@[simp] theorem State.modDie_clusters (d : Nat) (f : DieNet → DieNet) : (s.modDie d f).clusters = s.clusters := rfl
@[simp] theorem State.modDie_cohorts (d : Nat) (f : DieNet → DieNet) : (s.modDie d f).cohorts = s.cohorts := rfl
@[simp] theorem State.modDie_cmds (d : Nat) (f : DieNet → DieNet) : (s.modDie d f).cmds = s.cmds := rfl
@[simp] theorem State.modDie_late (d : Nat) (f : DieNet → DieNet) : (s.modDie d f).late = s.late := rfl
@[simp] theorem State.modDie_stale (d : Nat) (f : DieNet → DieNet) : (s.modDie d f).stale = s.stale := rfl
@[simp] theorem State.modDie_partials (d : Nat) (f : DieNet → DieNet) : (s.modDie d f).partials = s.partials := rfl
@[simp] theorem State.modDie_shadows (d : Nat) (f : DieNet → DieNet) : (s.modDie d f).shadows = s.shadows := rfl
@[simp] theorem State.modDie_msgs (d : Nat) (f : DieNet → DieNet) : (s.modDie d f).msgs = s.msgs := rfl
@[simp] theorem State.modDie_mcasts (d : Nat) (f : DieNet → DieNet) : (s.modDie d f).mcasts = s.mcasts := rfl
@[simp] theorem State.modDie_bloads (d : Nat) (f : DieNet → DieNet) : (s.modDie d f).bloads = s.bloads := rfl
@[simp] theorem State.modDie_xlt (d : Nat) (f : DieNet → DieNet) : (s.modDie d f).xlt = s.xlt := rfl
@[simp] theorem State.modDie_lch (d : Nat) (f : DieNet → DieNet) : (s.modDie d f).lch = s.lch := rfl
@[simp] theorem State.modDie_names (d : Nat) (f : DieNet → DieNet) : (s.modDie d f).names = s.names := rfl
@[simp] theorem State.modDie_sec (d : Nat) (f : DieNet → DieNet) : (s.modDie d f).sec = s.sec := rfl
@[simp] theorem State.modDie_fab (d : Nat) (f : DieNet → DieNet) : (s.modDie d f).fab = s.fab := rfl
@[simp] theorem State.modDie_pwr (d : Nat) (f : DieNet → DieNet) : (s.modDie d f).pwr = s.pwr := rfl
@[simp] theorem State.modDie_wear (d : Nat) (f : DieNet → DieNet) : (s.modDie d f).wear = s.wear := rfl
@[simp] theorem State.modDie_mc (d : Nat) (f : DieNet → DieNet) : (s.modDie d f).mc = s.mc := rfl
@[simp] theorem State.modDie_counters (d : Nat) (f : DieNet → DieNet) : (s.modDie d f).counters = s.counters := rfl
@[simp] theorem State.modDie_staging (d : Nat) (f : DieNet → DieNet) : (s.modDie d f).staging = s.staging := rfl
@[simp] theorem State.modDie_latches (d : Nat) (f : DieNet → DieNet) : (s.modDie d f).latches = s.latches := rfl
@[simp] theorem State.modDie_reply (d : Nat) (f : DieNet → DieNet) : (s.modDie d f).reply = s.reply := rfl
@[simp] theorem State.modDie_fresh (d : Nat) (f : DieNet → DieNet) : (s.modDie d f).fresh = s.fresh := rfl

@[simp] theorem State.modIsland_code (i : Nat) (f : Island → Island) : (s.modIsland i f).code = s.code := rfl
@[simp] theorem State.modIsland_dieCount (i : Nat) (f : Island → Island) : (s.modIsland i f).dieCount = s.dieCount := rfl
@[simp] theorem State.modIsland_timer (i : Nat) (f : Island → Island) : (s.modIsland i f).timer = s.timer := rfl
@[simp] theorem State.modIsland_tape (i : Nat) (f : Island → Island) : (s.modIsland i f).tape = s.tape := rfl
@[simp] theorem State.modIsland_sel (i : Nat) (f : Island → Island) : (s.modIsland i f).sel = s.sel := rfl
@[simp] theorem State.modIsland_choices (i : Nat) (f : Island → Island) : (s.modIsland i f).choices = s.choices := rfl
@[simp] theorem State.modIsland_choiceCtr (i : Nat) (f : Island → Island) : (s.modIsland i f).choiceCtr = s.choiceCtr := rfl
@[simp] theorem State.modIsland_freeCtr (i : Nat) (f : Island → Island) : (s.modIsland i f).freeCtr = s.freeCtr := rfl
@[simp] theorem State.modIsland_mem (i : Nat) (f : Island → Island) : (s.modIsland i f).mem = s.mem := rfl
@[simp] theorem State.modIsland_lines (i : Nat) (f : Island → Island) : (s.modIsland i f).lines = s.lines := rfl
@[simp] theorem State.modIsland_clusters (i : Nat) (f : Island → Island) : (s.modIsland i f).clusters = s.clusters := rfl
@[simp] theorem State.modIsland_cohorts (i : Nat) (f : Island → Island) : (s.modIsland i f).cohorts = s.cohorts := rfl
@[simp] theorem State.modIsland_cmds (i : Nat) (f : Island → Island) : (s.modIsland i f).cmds = s.cmds := rfl
@[simp] theorem State.modIsland_late (i : Nat) (f : Island → Island) : (s.modIsland i f).late = s.late := rfl
@[simp] theorem State.modIsland_stale (i : Nat) (f : Island → Island) : (s.modIsland i f).stale = s.stale := rfl
@[simp] theorem State.modIsland_partials (i : Nat) (f : Island → Island) : (s.modIsland i f).partials = s.partials := rfl
@[simp] theorem State.modIsland_shadows (i : Nat) (f : Island → Island) : (s.modIsland i f).shadows = s.shadows := rfl
@[simp] theorem State.modIsland_msgs (i : Nat) (f : Island → Island) : (s.modIsland i f).msgs = s.msgs := rfl
@[simp] theorem State.modIsland_mcasts (i : Nat) (f : Island → Island) : (s.modIsland i f).mcasts = s.mcasts := rfl
@[simp] theorem State.modIsland_bloads (i : Nat) (f : Island → Island) : (s.modIsland i f).bloads = s.bloads := rfl
@[simp] theorem State.modIsland_dies (i : Nat) (f : Island → Island) : (s.modIsland i f).dies = s.dies := rfl
@[simp] theorem State.modIsland_xlt (i : Nat) (f : Island → Island) : (s.modIsland i f).xlt = s.xlt := rfl
@[simp] theorem State.modIsland_lch (i : Nat) (f : Island → Island) : (s.modIsland i f).lch = s.lch := rfl
@[simp] theorem State.modIsland_names (i : Nat) (f : Island → Island) : (s.modIsland i f).names = s.names := rfl
@[simp] theorem State.modIsland_sec (i : Nat) (f : Island → Island) : (s.modIsland i f).sec = s.sec := rfl
@[simp] theorem State.modIsland_fab (i : Nat) (f : Island → Island) : (s.modIsland i f).fab = s.fab := rfl
@[simp] theorem State.modIsland_wear (i : Nat) (f : Island → Island) : (s.modIsland i f).wear = s.wear := rfl
@[simp] theorem State.modIsland_mc (i : Nat) (f : Island → Island) : (s.modIsland i f).mc = s.mc := rfl
@[simp] theorem State.modIsland_counters (i : Nat) (f : Island → Island) : (s.modIsland i f).counters = s.counters := rfl
@[simp] theorem State.modIsland_staging (i : Nat) (f : Island → Island) : (s.modIsland i f).staging = s.staging := rfl
@[simp] theorem State.modIsland_latches (i : Nat) (f : Island → Island) : (s.modIsland i f).latches = s.latches := rfl
@[simp] theorem State.modIsland_reply (i : Nat) (f : Island → Island) : (s.modIsland i f).reply = s.reply := rfl
@[simp] theorem State.modIsland_fresh (i : Nat) (f : Island → Island) : (s.modIsland i f).fresh = s.fresh := rfl

@[simp] theorem State.modQueue_code (i : Nat) (f : LQueue → LQueue) : (s.modQueue i f).code = s.code := rfl
@[simp] theorem State.modQueue_dieCount (i : Nat) (f : LQueue → LQueue) : (s.modQueue i f).dieCount = s.dieCount := rfl
@[simp] theorem State.modQueue_timer (i : Nat) (f : LQueue → LQueue) : (s.modQueue i f).timer = s.timer := rfl
@[simp] theorem State.modQueue_tape (i : Nat) (f : LQueue → LQueue) : (s.modQueue i f).tape = s.tape := rfl
@[simp] theorem State.modQueue_sel (i : Nat) (f : LQueue → LQueue) : (s.modQueue i f).sel = s.sel := rfl
@[simp] theorem State.modQueue_choices (i : Nat) (f : LQueue → LQueue) : (s.modQueue i f).choices = s.choices := rfl
@[simp] theorem State.modQueue_choiceCtr (i : Nat) (f : LQueue → LQueue) : (s.modQueue i f).choiceCtr = s.choiceCtr := rfl
@[simp] theorem State.modQueue_freeCtr (i : Nat) (f : LQueue → LQueue) : (s.modQueue i f).freeCtr = s.freeCtr := rfl
@[simp] theorem State.modQueue_mem (i : Nat) (f : LQueue → LQueue) : (s.modQueue i f).mem = s.mem := rfl
@[simp] theorem State.modQueue_lines (i : Nat) (f : LQueue → LQueue) : (s.modQueue i f).lines = s.lines := rfl
@[simp] theorem State.modQueue_clusters (i : Nat) (f : LQueue → LQueue) : (s.modQueue i f).clusters = s.clusters := rfl
@[simp] theorem State.modQueue_cohorts (i : Nat) (f : LQueue → LQueue) : (s.modQueue i f).cohorts = s.cohorts := rfl
@[simp] theorem State.modQueue_cmds (i : Nat) (f : LQueue → LQueue) : (s.modQueue i f).cmds = s.cmds := rfl
@[simp] theorem State.modQueue_late (i : Nat) (f : LQueue → LQueue) : (s.modQueue i f).late = s.late := rfl
@[simp] theorem State.modQueue_stale (i : Nat) (f : LQueue → LQueue) : (s.modQueue i f).stale = s.stale := rfl
@[simp] theorem State.modQueue_partials (i : Nat) (f : LQueue → LQueue) : (s.modQueue i f).partials = s.partials := rfl
@[simp] theorem State.modQueue_shadows (i : Nat) (f : LQueue → LQueue) : (s.modQueue i f).shadows = s.shadows := rfl
@[simp] theorem State.modQueue_msgs (i : Nat) (f : LQueue → LQueue) : (s.modQueue i f).msgs = s.msgs := rfl
@[simp] theorem State.modQueue_mcasts (i : Nat) (f : LQueue → LQueue) : (s.modQueue i f).mcasts = s.mcasts := rfl
@[simp] theorem State.modQueue_bloads (i : Nat) (f : LQueue → LQueue) : (s.modQueue i f).bloads = s.bloads := rfl
@[simp] theorem State.modQueue_dies (i : Nat) (f : LQueue → LQueue) : (s.modQueue i f).dies = s.dies := rfl
@[simp] theorem State.modQueue_xlt (i : Nat) (f : LQueue → LQueue) : (s.modQueue i f).xlt = s.xlt := rfl
@[simp] theorem State.modQueue_names (i : Nat) (f : LQueue → LQueue) : (s.modQueue i f).names = s.names := rfl
@[simp] theorem State.modQueue_sec (i : Nat) (f : LQueue → LQueue) : (s.modQueue i f).sec = s.sec := rfl
@[simp] theorem State.modQueue_fab (i : Nat) (f : LQueue → LQueue) : (s.modQueue i f).fab = s.fab := rfl
@[simp] theorem State.modQueue_pwr (i : Nat) (f : LQueue → LQueue) : (s.modQueue i f).pwr = s.pwr := rfl
@[simp] theorem State.modQueue_wear (i : Nat) (f : LQueue → LQueue) : (s.modQueue i f).wear = s.wear := rfl
@[simp] theorem State.modQueue_mc (i : Nat) (f : LQueue → LQueue) : (s.modQueue i f).mc = s.mc := rfl
@[simp] theorem State.modQueue_counters (i : Nat) (f : LQueue → LQueue) : (s.modQueue i f).counters = s.counters := rfl
@[simp] theorem State.modQueue_staging (i : Nat) (f : LQueue → LQueue) : (s.modQueue i f).staging = s.staging := rfl
@[simp] theorem State.modQueue_latches (i : Nat) (f : LQueue → LQueue) : (s.modQueue i f).latches = s.latches := rfl
@[simp] theorem State.modQueue_reply (i : Nat) (f : LQueue → LQueue) : (s.modQueue i f).reply = s.reply := rfl
@[simp] theorem State.modQueue_fresh (i : Nat) (f : LQueue → LQueue) : (s.modQueue i f).fresh = s.fresh := rfl

@[simp] theorem State.modGrid_code (q : Nat) (f : Grid → Grid) : (s.modGrid q f).code = s.code := rfl
@[simp] theorem State.modGrid_dieCount (q : Nat) (f : Grid → Grid) : (s.modGrid q f).dieCount = s.dieCount := rfl
@[simp] theorem State.modGrid_timer (q : Nat) (f : Grid → Grid) : (s.modGrid q f).timer = s.timer := rfl
@[simp] theorem State.modGrid_tape (q : Nat) (f : Grid → Grid) : (s.modGrid q f).tape = s.tape := rfl
@[simp] theorem State.modGrid_sel (q : Nat) (f : Grid → Grid) : (s.modGrid q f).sel = s.sel := rfl
@[simp] theorem State.modGrid_choices (q : Nat) (f : Grid → Grid) : (s.modGrid q f).choices = s.choices := rfl
@[simp] theorem State.modGrid_choiceCtr (q : Nat) (f : Grid → Grid) : (s.modGrid q f).choiceCtr = s.choiceCtr := rfl
@[simp] theorem State.modGrid_freeCtr (q : Nat) (f : Grid → Grid) : (s.modGrid q f).freeCtr = s.freeCtr := rfl
@[simp] theorem State.modGrid_mem (q : Nat) (f : Grid → Grid) : (s.modGrid q f).mem = s.mem := rfl
@[simp] theorem State.modGrid_lines (q : Nat) (f : Grid → Grid) : (s.modGrid q f).lines = s.lines := rfl
@[simp] theorem State.modGrid_clusters (q : Nat) (f : Grid → Grid) : (s.modGrid q f).clusters = s.clusters := rfl
@[simp] theorem State.modGrid_cohorts (q : Nat) (f : Grid → Grid) : (s.modGrid q f).cohorts = s.cohorts := rfl
@[simp] theorem State.modGrid_cmds (q : Nat) (f : Grid → Grid) : (s.modGrid q f).cmds = s.cmds := rfl
@[simp] theorem State.modGrid_late (q : Nat) (f : Grid → Grid) : (s.modGrid q f).late = s.late := rfl
@[simp] theorem State.modGrid_stale (q : Nat) (f : Grid → Grid) : (s.modGrid q f).stale = s.stale := rfl
@[simp] theorem State.modGrid_partials (q : Nat) (f : Grid → Grid) : (s.modGrid q f).partials = s.partials := rfl
@[simp] theorem State.modGrid_shadows (q : Nat) (f : Grid → Grid) : (s.modGrid q f).shadows = s.shadows := rfl
@[simp] theorem State.modGrid_msgs (q : Nat) (f : Grid → Grid) : (s.modGrid q f).msgs = s.msgs := rfl
@[simp] theorem State.modGrid_mcasts (q : Nat) (f : Grid → Grid) : (s.modGrid q f).mcasts = s.mcasts := rfl
@[simp] theorem State.modGrid_bloads (q : Nat) (f : Grid → Grid) : (s.modGrid q f).bloads = s.bloads := rfl
@[simp] theorem State.modGrid_dies (q : Nat) (f : Grid → Grid) : (s.modGrid q f).dies = s.dies := rfl
@[simp] theorem State.modGrid_xlt (q : Nat) (f : Grid → Grid) : (s.modGrid q f).xlt = s.xlt := rfl
@[simp] theorem State.modGrid_names (q : Nat) (f : Grid → Grid) : (s.modGrid q f).names = s.names := rfl
@[simp] theorem State.modGrid_sec (q : Nat) (f : Grid → Grid) : (s.modGrid q f).sec = s.sec := rfl
@[simp] theorem State.modGrid_fab (q : Nat) (f : Grid → Grid) : (s.modGrid q f).fab = s.fab := rfl
@[simp] theorem State.modGrid_pwr (q : Nat) (f : Grid → Grid) : (s.modGrid q f).pwr = s.pwr := rfl
@[simp] theorem State.modGrid_wear (q : Nat) (f : Grid → Grid) : (s.modGrid q f).wear = s.wear := rfl
@[simp] theorem State.modGrid_mc (q : Nat) (f : Grid → Grid) : (s.modGrid q f).mc = s.mc := rfl
@[simp] theorem State.modGrid_counters (q : Nat) (f : Grid → Grid) : (s.modGrid q f).counters = s.counters := rfl
@[simp] theorem State.modGrid_staging (q : Nat) (f : Grid → Grid) : (s.modGrid q f).staging = s.staging := rfl
@[simp] theorem State.modGrid_latches (q : Nat) (f : Grid → Grid) : (s.modGrid q f).latches = s.latches := rfl
@[simp] theorem State.modGrid_reply (q : Nat) (f : Grid → Grid) : (s.modGrid q f).reply = s.reply := rfl
@[simp] theorem State.modGrid_fresh (q : Nat) (f : Grid → Grid) : (s.modGrid q f).fresh = s.fresh := rfl

@[simp] theorem State.bbx_code (kind die unit world ctx : Nat) (data : List Byte) : (s.bbx kind die unit world ctx data).code = s.code := by unfold State.bbx; rfl
@[simp] theorem State.bbx_dieCount (kind die unit world ctx : Nat) (data : List Byte) : (s.bbx kind die unit world ctx data).dieCount = s.dieCount := by unfold State.bbx; rfl
@[simp] theorem State.bbx_timer (kind die unit world ctx : Nat) (data : List Byte) : (s.bbx kind die unit world ctx data).timer = s.timer := by unfold State.bbx; rfl
@[simp] theorem State.bbx_tape (kind die unit world ctx : Nat) (data : List Byte) : (s.bbx kind die unit world ctx data).tape = s.tape := by unfold State.bbx; rfl
@[simp] theorem State.bbx_sel (kind die unit world ctx : Nat) (data : List Byte) : (s.bbx kind die unit world ctx data).sel = s.sel := by unfold State.bbx; rfl
@[simp] theorem State.bbx_choices (kind die unit world ctx : Nat) (data : List Byte) : (s.bbx kind die unit world ctx data).choices = s.choices := by unfold State.bbx; rfl
@[simp] theorem State.bbx_choiceCtr (kind die unit world ctx : Nat) (data : List Byte) : (s.bbx kind die unit world ctx data).choiceCtr = s.choiceCtr := by unfold State.bbx; rfl
@[simp] theorem State.bbx_freeCtr (kind die unit world ctx : Nat) (data : List Byte) : (s.bbx kind die unit world ctx data).freeCtr = s.freeCtr := by unfold State.bbx; rfl
@[simp] theorem State.bbx_mem (kind die unit world ctx : Nat) (data : List Byte) : (s.bbx kind die unit world ctx data).mem = s.mem := by unfold State.bbx; rfl
@[simp] theorem State.bbx_lines (kind die unit world ctx : Nat) (data : List Byte) : (s.bbx kind die unit world ctx data).lines = s.lines := by unfold State.bbx; rfl
@[simp] theorem State.bbx_clusters (kind die unit world ctx : Nat) (data : List Byte) : (s.bbx kind die unit world ctx data).clusters = s.clusters := by unfold State.bbx; rfl
@[simp] theorem State.bbx_cohorts (kind die unit world ctx : Nat) (data : List Byte) : (s.bbx kind die unit world ctx data).cohorts = s.cohorts := by unfold State.bbx; rfl
@[simp] theorem State.bbx_cmds (kind die unit world ctx : Nat) (data : List Byte) : (s.bbx kind die unit world ctx data).cmds = s.cmds := by unfold State.bbx; rfl
@[simp] theorem State.bbx_late (kind die unit world ctx : Nat) (data : List Byte) : (s.bbx kind die unit world ctx data).late = s.late := by unfold State.bbx; rfl
@[simp] theorem State.bbx_stale (kind die unit world ctx : Nat) (data : List Byte) : (s.bbx kind die unit world ctx data).stale = s.stale := by unfold State.bbx; rfl
@[simp] theorem State.bbx_partials (kind die unit world ctx : Nat) (data : List Byte) : (s.bbx kind die unit world ctx data).partials = s.partials := by unfold State.bbx; rfl
@[simp] theorem State.bbx_shadows (kind die unit world ctx : Nat) (data : List Byte) : (s.bbx kind die unit world ctx data).shadows = s.shadows := by unfold State.bbx; rfl
@[simp] theorem State.bbx_msgs (kind die unit world ctx : Nat) (data : List Byte) : (s.bbx kind die unit world ctx data).msgs = s.msgs := by unfold State.bbx; rfl
@[simp] theorem State.bbx_mcasts (kind die unit world ctx : Nat) (data : List Byte) : (s.bbx kind die unit world ctx data).mcasts = s.mcasts := by unfold State.bbx; rfl
@[simp] theorem State.bbx_bloads (kind die unit world ctx : Nat) (data : List Byte) : (s.bbx kind die unit world ctx data).bloads = s.bloads := by unfold State.bbx; rfl
@[simp] theorem State.bbx_dies (kind die unit world ctx : Nat) (data : List Byte) : (s.bbx kind die unit world ctx data).dies = s.dies := by unfold State.bbx; rfl
@[simp] theorem State.bbx_xlt (kind die unit world ctx : Nat) (data : List Byte) : (s.bbx kind die unit world ctx data).xlt = s.xlt := by unfold State.bbx; rfl
@[simp] theorem State.bbx_lch (kind die unit world ctx : Nat) (data : List Byte) : (s.bbx kind die unit world ctx data).lch = s.lch := by unfold State.bbx; rfl
@[simp] theorem State.bbx_names (kind die unit world ctx : Nat) (data : List Byte) : (s.bbx kind die unit world ctx data).names = s.names := by unfold State.bbx; rfl
@[simp] theorem State.bbx_sec (kind die unit world ctx : Nat) (data : List Byte) : (s.bbx kind die unit world ctx data).sec = s.sec := by unfold State.bbx; rfl
@[simp] theorem State.bbx_fab (kind die unit world ctx : Nat) (data : List Byte) : (s.bbx kind die unit world ctx data).fab = s.fab := by unfold State.bbx; rfl
@[simp] theorem State.bbx_pwr (kind die unit world ctx : Nat) (data : List Byte) : (s.bbx kind die unit world ctx data).pwr = s.pwr := by unfold State.bbx; rfl
@[simp] theorem State.bbx_wear (kind die unit world ctx : Nat) (data : List Byte) : (s.bbx kind die unit world ctx data).wear = s.wear := by unfold State.bbx; rfl
@[simp] theorem State.bbx_counters (kind die unit world ctx : Nat) (data : List Byte) : (s.bbx kind die unit world ctx data).counters = s.counters := by unfold State.bbx; rfl
@[simp] theorem State.bbx_staging (kind die unit world ctx : Nat) (data : List Byte) : (s.bbx kind die unit world ctx data).staging = s.staging := by unfold State.bbx; rfl
@[simp] theorem State.bbx_latches (kind die unit world ctx : Nat) (data : List Byte) : (s.bbx kind die unit world ctx data).latches = s.latches := by unfold State.bbx; rfl
@[simp] theorem State.bbx_reply (kind die unit world ctx : Nat) (data : List Byte) : (s.bbx kind die unit world ctx data).reply = s.reply := by unfold State.bbx; rfl
@[simp] theorem State.bbx_fresh (kind die unit world ctx : Nat) (data : List Byte) : (s.bbx kind die unit world ctx data).fresh = s.fresh := by unfold State.bbx; rfl

@[simp] theorem State.setLine_code (n : Nat) (l : Line) : (s.setLine n l).code = s.code := rfl
@[simp] theorem State.setLine_dieCount (n : Nat) (l : Line) : (s.setLine n l).dieCount = s.dieCount := rfl
@[simp] theorem State.setLine_timer (n : Nat) (l : Line) : (s.setLine n l).timer = s.timer := rfl
@[simp] theorem State.setLine_tape (n : Nat) (l : Line) : (s.setLine n l).tape = s.tape := rfl
@[simp] theorem State.setLine_sel (n : Nat) (l : Line) : (s.setLine n l).sel = s.sel := rfl
@[simp] theorem State.setLine_choices (n : Nat) (l : Line) : (s.setLine n l).choices = s.choices := rfl
@[simp] theorem State.setLine_choiceCtr (n : Nat) (l : Line) : (s.setLine n l).choiceCtr = s.choiceCtr := rfl
@[simp] theorem State.setLine_freeCtr (n : Nat) (l : Line) : (s.setLine n l).freeCtr = s.freeCtr := rfl
@[simp] theorem State.setLine_mem (n : Nat) (l : Line) : (s.setLine n l).mem = s.mem := rfl
@[simp] theorem State.setLine_clusters (n : Nat) (l : Line) : (s.setLine n l).clusters = s.clusters := rfl
@[simp] theorem State.setLine_cohorts (n : Nat) (l : Line) : (s.setLine n l).cohorts = s.cohorts := rfl
@[simp] theorem State.setLine_cmds (n : Nat) (l : Line) : (s.setLine n l).cmds = s.cmds := rfl
@[simp] theorem State.setLine_late (n : Nat) (l : Line) : (s.setLine n l).late = s.late := rfl
@[simp] theorem State.setLine_stale (n : Nat) (l : Line) : (s.setLine n l).stale = s.stale := rfl
@[simp] theorem State.setLine_partials (n : Nat) (l : Line) : (s.setLine n l).partials = s.partials := rfl
@[simp] theorem State.setLine_shadows (n : Nat) (l : Line) : (s.setLine n l).shadows = s.shadows := rfl
@[simp] theorem State.setLine_msgs (n : Nat) (l : Line) : (s.setLine n l).msgs = s.msgs := rfl
@[simp] theorem State.setLine_mcasts (n : Nat) (l : Line) : (s.setLine n l).mcasts = s.mcasts := rfl
@[simp] theorem State.setLine_bloads (n : Nat) (l : Line) : (s.setLine n l).bloads = s.bloads := rfl
@[simp] theorem State.setLine_dies (n : Nat) (l : Line) : (s.setLine n l).dies = s.dies := rfl
@[simp] theorem State.setLine_xlt (n : Nat) (l : Line) : (s.setLine n l).xlt = s.xlt := rfl
@[simp] theorem State.setLine_lch (n : Nat) (l : Line) : (s.setLine n l).lch = s.lch := rfl
@[simp] theorem State.setLine_names (n : Nat) (l : Line) : (s.setLine n l).names = s.names := rfl
@[simp] theorem State.setLine_sec (n : Nat) (l : Line) : (s.setLine n l).sec = s.sec := rfl
@[simp] theorem State.setLine_fab (n : Nat) (l : Line) : (s.setLine n l).fab = s.fab := rfl
@[simp] theorem State.setLine_pwr (n : Nat) (l : Line) : (s.setLine n l).pwr = s.pwr := rfl
@[simp] theorem State.setLine_wear (n : Nat) (l : Line) : (s.setLine n l).wear = s.wear := rfl
@[simp] theorem State.setLine_mc (n : Nat) (l : Line) : (s.setLine n l).mc = s.mc := rfl
@[simp] theorem State.setLine_counters (n : Nat) (l : Line) : (s.setLine n l).counters = s.counters := rfl
@[simp] theorem State.setLine_staging (n : Nat) (l : Line) : (s.setLine n l).staging = s.staging := rfl
@[simp] theorem State.setLine_latches (n : Nat) (l : Line) : (s.setLine n l).latches = s.latches := rfl
@[simp] theorem State.setLine_reply (n : Nat) (l : Line) : (s.setLine n l).reply = s.reply := rfl
@[simp] theorem State.setLine_fresh (n : Nat) (l : Line) : (s.setLine n l).fresh = s.fresh := rfl

@[simp] theorem State.recall_code (ci n : Nat) : (s.recall ci n).code = s.code := by unfold State.recall; split <;> rfl
@[simp] theorem State.recall_dieCount (ci n : Nat) : (s.recall ci n).dieCount = s.dieCount := by unfold State.recall; split <;> rfl
@[simp] theorem State.recall_timer (ci n : Nat) : (s.recall ci n).timer = s.timer := by unfold State.recall; split <;> rfl
@[simp] theorem State.recall_tape (ci n : Nat) : (s.recall ci n).tape = s.tape := by unfold State.recall; split <;> rfl
@[simp] theorem State.recall_sel (ci n : Nat) : (s.recall ci n).sel = s.sel := by unfold State.recall; split <;> rfl
@[simp] theorem State.recall_choices (ci n : Nat) : (s.recall ci n).choices = s.choices := by unfold State.recall; split <;> rfl
@[simp] theorem State.recall_choiceCtr (ci n : Nat) : (s.recall ci n).choiceCtr = s.choiceCtr := by unfold State.recall; split <;> rfl
@[simp] theorem State.recall_freeCtr (ci n : Nat) : (s.recall ci n).freeCtr = s.freeCtr := by unfold State.recall; split <;> rfl
@[simp] theorem State.recall_mem (ci n : Nat) : (s.recall ci n).mem = s.mem := by unfold State.recall; split <;> rfl
@[simp] theorem State.recall_lines (ci n : Nat) : (s.recall ci n).lines = s.lines := by unfold State.recall; split <;> rfl
@[simp] theorem State.recall_cohorts (ci n : Nat) : (s.recall ci n).cohorts = s.cohorts := by unfold State.recall; split <;> rfl
@[simp] theorem State.recall_cmds (ci n : Nat) : (s.recall ci n).cmds = s.cmds := by unfold State.recall; split <;> rfl
@[simp] theorem State.recall_late (ci n : Nat) : (s.recall ci n).late = s.late := by unfold State.recall; split <;> rfl
@[simp] theorem State.recall_stale (ci n : Nat) : (s.recall ci n).stale = s.stale := by unfold State.recall; split <;> rfl
@[simp] theorem State.recall_partials (ci n : Nat) : (s.recall ci n).partials = s.partials := by unfold State.recall; split <;> rfl
@[simp] theorem State.recall_shadows (ci n : Nat) : (s.recall ci n).shadows = s.shadows := by unfold State.recall; split <;> rfl
@[simp] theorem State.recall_msgs (ci n : Nat) : (s.recall ci n).msgs = s.msgs := by unfold State.recall; split <;> rfl
@[simp] theorem State.recall_mcasts (ci n : Nat) : (s.recall ci n).mcasts = s.mcasts := by unfold State.recall; split <;> rfl
@[simp] theorem State.recall_bloads (ci n : Nat) : (s.recall ci n).bloads = s.bloads := by unfold State.recall; split <;> rfl
@[simp] theorem State.recall_dies (ci n : Nat) : (s.recall ci n).dies = s.dies := by unfold State.recall; split <;> rfl
@[simp] theorem State.recall_xlt (ci n : Nat) : (s.recall ci n).xlt = s.xlt := by unfold State.recall; split <;> rfl
@[simp] theorem State.recall_lch (ci n : Nat) : (s.recall ci n).lch = s.lch := by unfold State.recall; split <;> rfl
@[simp] theorem State.recall_names (ci n : Nat) : (s.recall ci n).names = s.names := by unfold State.recall; split <;> rfl
@[simp] theorem State.recall_sec (ci n : Nat) : (s.recall ci n).sec = s.sec := by unfold State.recall; split <;> rfl
@[simp] theorem State.recall_fab (ci n : Nat) : (s.recall ci n).fab = s.fab := by unfold State.recall; split <;> rfl
@[simp] theorem State.recall_pwr (ci n : Nat) : (s.recall ci n).pwr = s.pwr := by unfold State.recall; split <;> rfl
@[simp] theorem State.recall_wear (ci n : Nat) : (s.recall ci n).wear = s.wear := by unfold State.recall; split <;> rfl
@[simp] theorem State.recall_mc (ci n : Nat) : (s.recall ci n).mc = s.mc := by unfold State.recall; split <;> rfl
@[simp] theorem State.recall_counters (ci n : Nat) : (s.recall ci n).counters = s.counters := by unfold State.recall; split <;> rfl
@[simp] theorem State.recall_staging (ci n : Nat) : (s.recall ci n).staging = s.staging := by unfold State.recall; split <;> rfl
@[simp] theorem State.recall_latches (ci n : Nat) : (s.recall ci n).latches = s.latches := by unfold State.recall; split <;> rfl
@[simp] theorem State.recall_reply (ci n : Nat) : (s.recall ci n).reply = s.reply := by unfold State.recall; split <;> rfl
@[simp] theorem State.recall_fresh (ci n : Nat) : (s.recall ci n).fresh = s.fresh := by unfold State.recall; split <;> rfl

@[simp] theorem State.bump_code (r : RcReg) (i n : Nat) : (s.bump r i n).code = s.code := by unfold State.bump; split <;> rfl
@[simp] theorem State.bump_dieCount (r : RcReg) (i n : Nat) : (s.bump r i n).dieCount = s.dieCount := by unfold State.bump; split <;> rfl
@[simp] theorem State.bump_timer (r : RcReg) (i n : Nat) : (s.bump r i n).timer = s.timer := by unfold State.bump; split <;> rfl
@[simp] theorem State.bump_tape (r : RcReg) (i n : Nat) : (s.bump r i n).tape = s.tape := by unfold State.bump; split <;> rfl
@[simp] theorem State.bump_sel (r : RcReg) (i n : Nat) : (s.bump r i n).sel = s.sel := by unfold State.bump; split <;> rfl
@[simp] theorem State.bump_choices (r : RcReg) (i n : Nat) : (s.bump r i n).choices = s.choices := by unfold State.bump; split <;> rfl
@[simp] theorem State.bump_choiceCtr (r : RcReg) (i n : Nat) : (s.bump r i n).choiceCtr = s.choiceCtr := by unfold State.bump; split <;> rfl
@[simp] theorem State.bump_freeCtr (r : RcReg) (i n : Nat) : (s.bump r i n).freeCtr = s.freeCtr := by unfold State.bump; split <;> rfl
@[simp] theorem State.bump_mem (r : RcReg) (i n : Nat) : (s.bump r i n).mem = s.mem := by unfold State.bump; split <;> rfl
@[simp] theorem State.bump_lines (r : RcReg) (i n : Nat) : (s.bump r i n).lines = s.lines := by unfold State.bump; split <;> rfl
@[simp] theorem State.bump_clusters (r : RcReg) (i n : Nat) : (s.bump r i n).clusters = s.clusters := by unfold State.bump; split <;> rfl
@[simp] theorem State.bump_cohorts (r : RcReg) (i n : Nat) : (s.bump r i n).cohorts = s.cohorts := by unfold State.bump; split <;> rfl
@[simp] theorem State.bump_cmds (r : RcReg) (i n : Nat) : (s.bump r i n).cmds = s.cmds := by unfold State.bump; split <;> rfl
@[simp] theorem State.bump_late (r : RcReg) (i n : Nat) : (s.bump r i n).late = s.late := by unfold State.bump; split <;> rfl
@[simp] theorem State.bump_stale (r : RcReg) (i n : Nat) : (s.bump r i n).stale = s.stale := by unfold State.bump; split <;> rfl
@[simp] theorem State.bump_partials (r : RcReg) (i n : Nat) : (s.bump r i n).partials = s.partials := by unfold State.bump; split <;> rfl
@[simp] theorem State.bump_shadows (r : RcReg) (i n : Nat) : (s.bump r i n).shadows = s.shadows := by unfold State.bump; split <;> rfl
@[simp] theorem State.bump_msgs (r : RcReg) (i n : Nat) : (s.bump r i n).msgs = s.msgs := by unfold State.bump; split <;> rfl
@[simp] theorem State.bump_mcasts (r : RcReg) (i n : Nat) : (s.bump r i n).mcasts = s.mcasts := by unfold State.bump; split <;> rfl
@[simp] theorem State.bump_bloads (r : RcReg) (i n : Nat) : (s.bump r i n).bloads = s.bloads := by unfold State.bump; split <;> rfl
@[simp] theorem State.bump_dies (r : RcReg) (i n : Nat) : (s.bump r i n).dies = s.dies := by unfold State.bump; split <;> rfl
@[simp] theorem State.bump_xlt (r : RcReg) (i n : Nat) : (s.bump r i n).xlt = s.xlt := by unfold State.bump; split <;> rfl
@[simp] theorem State.bump_lch (r : RcReg) (i n : Nat) : (s.bump r i n).lch = s.lch := by unfold State.bump; split <;> rfl
@[simp] theorem State.bump_names (r : RcReg) (i n : Nat) : (s.bump r i n).names = s.names := by unfold State.bump; split <;> rfl
@[simp] theorem State.bump_sec (r : RcReg) (i n : Nat) : (s.bump r i n).sec = s.sec := by unfold State.bump; split <;> rfl
@[simp] theorem State.bump_fab (r : RcReg) (i n : Nat) : (s.bump r i n).fab = s.fab := by unfold State.bump; split <;> rfl
@[simp] theorem State.bump_pwr (r : RcReg) (i n : Nat) : (s.bump r i n).pwr = s.pwr := by unfold State.bump; split <;> rfl
@[simp] theorem State.bump_wear (r : RcReg) (i n : Nat) : (s.bump r i n).wear = s.wear := by unfold State.bump; split <;> rfl
@[simp] theorem State.bump_mc (r : RcReg) (i n : Nat) : (s.bump r i n).mc = s.mc := by unfold State.bump; split <;> rfl
@[simp] theorem State.bump_staging (r : RcReg) (i n : Nat) : (s.bump r i n).staging = s.staging := by unfold State.bump; split <;> rfl
@[simp] theorem State.bump_latches (r : RcReg) (i n : Nat) : (s.bump r i n).latches = s.latches := by unfold State.bump; split <;> rfl
@[simp] theorem State.bump_reply (r : RcReg) (i n : Nat) : (s.bump r i n).reply = s.reply := by unfold State.bump; split <;> rfl
@[simp] theorem State.bump_fresh (r : RcReg) (i n : Nat) : (s.bump r i n).fresh = s.fresh := by unfold State.bump; split <;> rfl

@[simp] theorem State.choose_code (n : Nat) : (s.choose n).2.code = s.code := by
  unfold State.choose; split
  · rfl
  · split <;> rfl
@[simp] theorem State.choose_dieCount (n : Nat) : (s.choose n).2.dieCount = s.dieCount := by
  unfold State.choose; split
  · rfl
  · split <;> rfl
@[simp] theorem State.choose_timer (n : Nat) : (s.choose n).2.timer = s.timer := by
  unfold State.choose; split
  · rfl
  · split <;> rfl
@[simp] theorem State.choose_tape (n : Nat) : (s.choose n).2.tape = s.tape := by
  unfold State.choose; split
  · rfl
  · split <;> rfl
@[simp] theorem State.choose_sel (n : Nat) : (s.choose n).2.sel = s.sel := by
  unfold State.choose; split
  · rfl
  · split <;> rfl
@[simp] theorem State.choose_freeCtr (n : Nat) : (s.choose n).2.freeCtr = s.freeCtr := by
  unfold State.choose; split
  · rfl
  · split <;> rfl
@[simp] theorem State.choose_mem (n : Nat) : (s.choose n).2.mem = s.mem := by
  unfold State.choose; split
  · rfl
  · split <;> rfl
@[simp] theorem State.choose_lines (n : Nat) : (s.choose n).2.lines = s.lines := by
  unfold State.choose; split
  · rfl
  · split <;> rfl
@[simp] theorem State.choose_clusters (n : Nat) : (s.choose n).2.clusters = s.clusters := by
  unfold State.choose; split
  · rfl
  · split <;> rfl
@[simp] theorem State.choose_cohorts (n : Nat) : (s.choose n).2.cohorts = s.cohorts := by
  unfold State.choose; split
  · rfl
  · split <;> rfl
@[simp] theorem State.choose_cmds (n : Nat) : (s.choose n).2.cmds = s.cmds := by
  unfold State.choose; split
  · rfl
  · split <;> rfl
@[simp] theorem State.choose_late (n : Nat) : (s.choose n).2.late = s.late := by
  unfold State.choose; split
  · rfl
  · split <;> rfl
@[simp] theorem State.choose_stale (n : Nat) : (s.choose n).2.stale = s.stale := by
  unfold State.choose; split
  · rfl
  · split <;> rfl
@[simp] theorem State.choose_partials (n : Nat) : (s.choose n).2.partials = s.partials := by
  unfold State.choose; split
  · rfl
  · split <;> rfl
@[simp] theorem State.choose_shadows (n : Nat) : (s.choose n).2.shadows = s.shadows := by
  unfold State.choose; split
  · rfl
  · split <;> rfl
@[simp] theorem State.choose_msgs (n : Nat) : (s.choose n).2.msgs = s.msgs := by
  unfold State.choose; split
  · rfl
  · split <;> rfl
@[simp] theorem State.choose_mcasts (n : Nat) : (s.choose n).2.mcasts = s.mcasts := by
  unfold State.choose; split
  · rfl
  · split <;> rfl
@[simp] theorem State.choose_bloads (n : Nat) : (s.choose n).2.bloads = s.bloads := by
  unfold State.choose; split
  · rfl
  · split <;> rfl
@[simp] theorem State.choose_dies (n : Nat) : (s.choose n).2.dies = s.dies := by
  unfold State.choose; split
  · rfl
  · split <;> rfl
@[simp] theorem State.choose_xlt (n : Nat) : (s.choose n).2.xlt = s.xlt := by
  unfold State.choose; split
  · rfl
  · split <;> rfl
@[simp] theorem State.choose_lch (n : Nat) : (s.choose n).2.lch = s.lch := by
  unfold State.choose; split
  · rfl
  · split <;> rfl
@[simp] theorem State.choose_names (n : Nat) : (s.choose n).2.names = s.names := by
  unfold State.choose; split
  · rfl
  · split <;> rfl
@[simp] theorem State.choose_sec (n : Nat) : (s.choose n).2.sec = s.sec := by
  unfold State.choose; split
  · rfl
  · split <;> rfl
@[simp] theorem State.choose_fab (n : Nat) : (s.choose n).2.fab = s.fab := by
  unfold State.choose; split
  · rfl
  · split <;> rfl
@[simp] theorem State.choose_pwr (n : Nat) : (s.choose n).2.pwr = s.pwr := by
  unfold State.choose; split
  · rfl
  · split <;> rfl
@[simp] theorem State.choose_wear (n : Nat) : (s.choose n).2.wear = s.wear := by
  unfold State.choose; split
  · rfl
  · split <;> rfl
@[simp] theorem State.choose_mc (n : Nat) : (s.choose n).2.mc = s.mc := by
  unfold State.choose; split
  · rfl
  · split <;> rfl
@[simp] theorem State.choose_counters (n : Nat) : (s.choose n).2.counters = s.counters := by
  unfold State.choose; split
  · rfl
  · split <;> rfl
@[simp] theorem State.choose_staging (n : Nat) : (s.choose n).2.staging = s.staging := by
  unfold State.choose; split
  · rfl
  · split <;> rfl
@[simp] theorem State.choose_latches (n : Nat) : (s.choose n).2.latches = s.latches := by
  unfold State.choose; split
  · rfl
  · split <;> rfl
@[simp] theorem State.choose_reply (n : Nat) : (s.choose n).2.reply = s.reply := by
  unfold State.choose; split
  · rfl
  · split <;> rfl
@[simp] theorem State.choose_fresh (n : Nat) : (s.choose n).2.fresh = s.fresh := by
  unfold State.choose; split
  · rfl
  · split <;> rfl

@[simp] theorem State.freeValue_code : s.freeValue.2.code = s.code := rfl
@[simp] theorem State.freeValue_dieCount : s.freeValue.2.dieCount = s.dieCount := rfl
@[simp] theorem State.freeValue_timer : s.freeValue.2.timer = s.timer := rfl
@[simp] theorem State.freeValue_tape : s.freeValue.2.tape = s.tape := rfl
@[simp] theorem State.freeValue_sel : s.freeValue.2.sel = s.sel := rfl
@[simp] theorem State.freeValue_choices : s.freeValue.2.choices = s.choices := rfl
@[simp] theorem State.freeValue_choiceCtr : s.freeValue.2.choiceCtr = s.choiceCtr := rfl
@[simp] theorem State.freeValue_mem : s.freeValue.2.mem = s.mem := rfl
@[simp] theorem State.freeValue_lines : s.freeValue.2.lines = s.lines := rfl
@[simp] theorem State.freeValue_clusters : s.freeValue.2.clusters = s.clusters := rfl
@[simp] theorem State.freeValue_cohorts : s.freeValue.2.cohorts = s.cohorts := rfl
@[simp] theorem State.freeValue_cmds : s.freeValue.2.cmds = s.cmds := rfl
@[simp] theorem State.freeValue_late : s.freeValue.2.late = s.late := rfl
@[simp] theorem State.freeValue_stale : s.freeValue.2.stale = s.stale := rfl
@[simp] theorem State.freeValue_partials : s.freeValue.2.partials = s.partials := rfl
@[simp] theorem State.freeValue_shadows : s.freeValue.2.shadows = s.shadows := rfl
@[simp] theorem State.freeValue_msgs : s.freeValue.2.msgs = s.msgs := rfl
@[simp] theorem State.freeValue_mcasts : s.freeValue.2.mcasts = s.mcasts := rfl
@[simp] theorem State.freeValue_bloads : s.freeValue.2.bloads = s.bloads := rfl
@[simp] theorem State.freeValue_dies : s.freeValue.2.dies = s.dies := rfl
@[simp] theorem State.freeValue_xlt : s.freeValue.2.xlt = s.xlt := rfl
@[simp] theorem State.freeValue_lch : s.freeValue.2.lch = s.lch := rfl
@[simp] theorem State.freeValue_names : s.freeValue.2.names = s.names := rfl
@[simp] theorem State.freeValue_sec : s.freeValue.2.sec = s.sec := rfl
@[simp] theorem State.freeValue_fab : s.freeValue.2.fab = s.fab := rfl
@[simp] theorem State.freeValue_pwr : s.freeValue.2.pwr = s.pwr := rfl
@[simp] theorem State.freeValue_wear : s.freeValue.2.wear = s.wear := rfl
@[simp] theorem State.freeValue_mc : s.freeValue.2.mc = s.mc := rfl
@[simp] theorem State.freeValue_counters : s.freeValue.2.counters = s.counters := rfl
@[simp] theorem State.freeValue_staging : s.freeValue.2.staging = s.staging := rfl
@[simp] theorem State.freeValue_latches : s.freeValue.2.latches = s.latches := rfl
@[simp] theorem State.freeValue_reply : s.freeValue.2.reply = s.reply := rfl
@[simp] theorem State.freeValue_fresh : s.freeValue.2.fresh = s.fresh := rfl
@[simp] theorem State.newId_code : s.newId.2.code = s.code := rfl
@[simp] theorem State.newId_dieCount : s.newId.2.dieCount = s.dieCount := rfl
@[simp] theorem State.newId_timer : s.newId.2.timer = s.timer := rfl
@[simp] theorem State.newId_tape : s.newId.2.tape = s.tape := rfl
@[simp] theorem State.newId_sel : s.newId.2.sel = s.sel := rfl
@[simp] theorem State.newId_choices : s.newId.2.choices = s.choices := rfl
@[simp] theorem State.newId_choiceCtr : s.newId.2.choiceCtr = s.choiceCtr := rfl
@[simp] theorem State.newId_freeCtr : s.newId.2.freeCtr = s.freeCtr := rfl
@[simp] theorem State.newId_mem : s.newId.2.mem = s.mem := rfl
@[simp] theorem State.newId_lines : s.newId.2.lines = s.lines := rfl
@[simp] theorem State.newId_clusters : s.newId.2.clusters = s.clusters := rfl
@[simp] theorem State.newId_cohorts : s.newId.2.cohorts = s.cohorts := rfl
@[simp] theorem State.newId_cmds : s.newId.2.cmds = s.cmds := rfl
@[simp] theorem State.newId_late : s.newId.2.late = s.late := rfl
@[simp] theorem State.newId_stale : s.newId.2.stale = s.stale := rfl
@[simp] theorem State.newId_partials : s.newId.2.partials = s.partials := rfl
@[simp] theorem State.newId_shadows : s.newId.2.shadows = s.shadows := rfl
@[simp] theorem State.newId_msgs : s.newId.2.msgs = s.msgs := rfl
@[simp] theorem State.newId_mcasts : s.newId.2.mcasts = s.mcasts := rfl
@[simp] theorem State.newId_bloads : s.newId.2.bloads = s.bloads := rfl
@[simp] theorem State.newId_dies : s.newId.2.dies = s.dies := rfl
@[simp] theorem State.newId_xlt : s.newId.2.xlt = s.xlt := rfl
@[simp] theorem State.newId_lch : s.newId.2.lch = s.lch := rfl
@[simp] theorem State.newId_names : s.newId.2.names = s.names := rfl
@[simp] theorem State.newId_sec : s.newId.2.sec = s.sec := rfl
@[simp] theorem State.newId_fab : s.newId.2.fab = s.fab := rfl
@[simp] theorem State.newId_pwr : s.newId.2.pwr = s.pwr := rfl
@[simp] theorem State.newId_wear : s.newId.2.wear = s.wear := rfl
@[simp] theorem State.newId_mc : s.newId.2.mc = s.mc := rfl
@[simp] theorem State.newId_counters : s.newId.2.counters = s.counters := rfl
@[simp] theorem State.newId_staging : s.newId.2.staging = s.staging := rfl
@[simp] theorem State.newId_latches : s.newId.2.latches = s.latches := rfl
@[simp] theorem State.newId_reply : s.newId.2.reply = s.reply := rfl

/-! What the updates put where they write. -/

@[simp] theorem State.cluster_setCluster (ci : Nat) (c : Cluster) : (s.setCluster ci c).cluster ci = c := by
  simp [State.cluster, State.setCluster, findD]

theorem State.cluster_setCluster_ne {ci cj : Nat} (c : Cluster) (h : cj ≠ ci) :
    (s.setCluster ci c).cluster cj = s.cluster cj := by
  simp [State.cluster, State.setCluster, findD, find?_insert_ne _ _ h]

@[simp] theorem State.cluster_modCluster (ci : Nat) (f : Cluster → Cluster) :
    (s.modCluster ci f).cluster ci = f (s.cluster ci) := by simp [State.modCluster]

theorem State.cluster_modCluster_ne {ci cj : Nat} (f : Cluster → Cluster) (h : cj ≠ ci) :
    (s.modCluster ci f).cluster cj = s.cluster cj := by
  simp [State.modCluster, State.cluster_setCluster_ne _ _ h]

@[simp] theorem State.cohort_setCohort (co : Nat) (c : Cohort) : find? (s.setCohort co c).cohorts co = some c := by
  simp [State.setCohort]

theorem State.cohort_setCohort_ne {co cp : Nat} (c : Cohort) (h : cp ≠ co) :
    find? (s.setCohort co c).cohorts cp = find? s.cohorts cp := by
  simp [State.setCohort, find?_insert_ne _ _ h]

@[simp] theorem State.cohort_modCohort (co : Nat) (f : Cohort → Cohort) :
    find? (s.modCohort co f).cohorts co = (find? s.cohorts co).map f := by simp [State.modCohort]

theorem State.cohort_modCohort_ne {co cp : Nat} (f : Cohort → Cohort) (h : cp ≠ co) :
    find? (s.modCohort co f).cohorts cp = find? s.cohorts cp := by
  simp [State.modCohort, find?_modify_ne _ _ h]

@[simp] theorem State.die_modDie (d : Nat) (f : DieNet → DieNet) : (s.modDie d f).die d = f (s.die d) := by
  simp [State.die, State.modDie, findD]

@[simp] theorem State.island_modIsland (i : Nat) (f : Island → Island) : (s.modIsland i f).island i = f (s.island i) := by
  simp [State.island, State.modIsland, findD]

theorem State.island_modIsland_ne {i j : Nat} (f : Island → Island) (h : j ≠ i) :
    (s.modIsland i f).island j = s.island j := by
  simp [State.island, State.modIsland, findD, find?_insert_ne _ _ h]

@[simp] theorem State.queue_modQueue (i : Nat) (f : LQueue → LQueue) : (s.modQueue i f).queue i = f (s.queue i) := by
  simp [State.queue, State.modQueue, findD]

theorem State.queue_modQueue_ne {i j : Nat} (f : LQueue → LQueue) (h : j ≠ i) :
    (s.modQueue i f).queue j = s.queue j := by
  simp [State.queue, State.modQueue, findD, find?_insert_ne _ _ h]

/-- A counter raised by `n` (R8). -/
theorem State.counter_bump (r : RcReg) (i n : Nat) (h : s.counter r i + n < 2 ^ 64) :
    (s.bump r i n).counter r i = s.counter r i + n := by
  unfold State.bump
  split
  · rename_i e; subst e; rfl
  · simp only [State.counter, findD, find?_insert_self, Option.getD_some] at h ⊢
    exact Nat.mod_eq_of_lt h

@[simp] theorem State.bump_zero (r : RcReg) (i : Nat) : s.bump r i 0 = s := by simp [State.bump]

end Sys2Proof.Machine
end

