-- ==== Sys2Proof/Laws/Regs.lean ====
section
/-!
SUPPORT. Crew registers: what mapping a register and writing a lane word of one leave in every register, and what
the allocation of an instruction's destination can do.
-/

namespace Sys2Proof.Machine

@[simp] theorem PhysReg.word_put_self (r : PhysReg) (k : Nat) (v : Word) : (r.put k v).word k = v := by
  simp [PhysReg.word, PhysReg.put]

theorem PhysReg.word_put_ne (r : PhysReg) {k j : Nat} (v : Word) (h : j % 32 ≠ k % 32) : (r.put k v).word j = r.word j := by
  simp [PhysReg.word, PhysReg.put, Ne.symm h]

@[simp] theorem PhysReg.poison_put_self (r : PhysReg) (k : Nat) (v : Word) : (r.put k v).poison.getLsbD (k % 32) = false := by
  simp [PhysReg.put, BitVec.getLsbD_shiftLeft]

theorem PhysReg.poison_put_ne (r : PhysReg) {k j : Nat} (v : Word) (h : j % 32 ≠ k % 32) :
    (r.put k v).poison.getLsbD (j % 32) = r.poison.getLsbD (j % 32) := by
  have hj : j % 32 < 32 := Nat.mod_lt _ (by decide)
  have hk : k % 32 < 32 := Nat.mod_lt _ (by decide)
  simp only [PhysReg.put, BitVec.getLsbD_and, BitVec.getLsbD_not, BitVec.getLsbD_shiftLeft, hj, decide_true, Bool.true_and]
  by_cases hl : j % 32 < k % 32
  · simp [hl]
  · have : (1#32).getLsbD (j % 32 - k % 32) = false := by
      have e : j % 32 - k % 32 = (j % 32 - k % 32 - 1) + 1 := by omega
      rw [e]
      simp [BitVec.getLsbD_one]
    simp [hl, this]

@[simp] theorem Cohort.putLane_threads (c : Cohort) (k reg : Nat) (v : Word) : (c.putLane k reg v).threads = c.threads := rfl
@[simp] theorem Cohort.mapReg_threads (c : Cohort) (w reg : Nat) (r : PhysReg) : (c.mapReg w reg r).threads = c.threads := rfl
@[simp] theorem Cohort.putLane_ewes (c : Cohort) (k reg : Nat) (v : Word) : (c.putLane k reg v).ewes = c.ewes := rfl
@[simp] theorem Cohort.mapReg_ewes (c : Cohort) (w reg : Nat) (r : PhysReg) : (c.mapReg w reg r).ewes = c.ewes := rfl
@[simp] theorem Cohort.putLane_thread? (c : Cohort) (k reg j : Nat) (v : Word) :
    (c.putLane k reg v).thread? j = c.thread? j := rfl
@[simp] theorem Cohort.mapReg_thread? (c : Cohort) (w reg j : Nat) (r : PhysReg) :
    (c.mapReg w reg r).thread? j = c.thread? j := rfl
@[simp] theorem Cohort.putLane_eweVal (c : Cohort) (k reg l r : Nat) (v : Word) :
    (c.putLane k reg v).eweVal l r = c.eweVal l r := rfl
@[simp] theorem Cohort.mapReg_eweVal (c : Cohort) (w reg l q : Nat) (r : PhysReg) :
    (c.mapReg w reg r).eweVal l q = c.eweVal l q := rfl
@[simp] theorem Cohort.putLane_regOf (c : Cohort) (k reg j : Nat) (v : Word) (x : Sel) :
    (c.putLane k reg v).regOf j x = c.regOf j x := rfl
@[simp] theorem Cohort.mapReg_regOf (c : Cohort) (w reg j : Nat) (r : PhysReg) (x : Sel) :
    (c.mapReg w reg r).regOf j x = c.regOf j x := rfl

theorem Cohort.phys?_putLane (c : Cohort) (k reg : Nat) (v : Word) (w r : Nat) :
    (c.putLane k reg v).phys? w r = if w = k / 32 ∧ r = reg then (c.phys? w r).map fun p => p.put k v else c.phys? w r := by
  simp only [Cohort.phys?, Cohort.putLane, find?_modify]
  by_cases hw : w = k / 32
  · subst hw
    simp only [if_true, true_and]
    cases h : find? c.crews (k / 32) with
    | none => simp
    | some u => simp [find?_modify]
  · simp [hw]

theorem Cohort.phys?_mapReg (c : Cohort) (crew reg : Nat) (p : PhysReg) (w r : Nat) :
    (c.mapReg crew reg p).phys? w r =
      if w = crew then if r = reg then some p else c.phys? w r else c.phys? w r := by
  simp only [Cohort.phys?, Cohort.mapReg, find?_insert]
  by_cases hw : w = crew
  · subst hw
    simp only [if_true, Option.bind_some, find?_insert]
    by_cases hr : r = reg
    · simp [hr]
    · simp only [hr, if_false, Cohort.crewOf, findD]
      have : 32 * w / 32 = w := by omega
      rw [this]
      cases find? c.crews w <;> simp [find?]
  · simp [hw]

/-- The number whose bits in a range are those a test holds for. -/
theorem foldl_bits (p : Nat → Bool) (n : Nat) :
    (List.range n).foldl (fun a b => if p b then a + 2 ^ b else a) 0 < 2 ^ n ∧
    ∀ k, ((List.range n).foldl (fun a b => if p b then a + 2 ^ b else a) 0).testBit k = (decide (k < n) && p k) := by
  induction n with
  | zero => simp
  | succ n ih =>
    obtain ⟨hl, hb⟩ := ih
    rw [List.range_succ, List.foldl_append]
    generalize (List.range n).foldl (fun a b => if p b then a + 2 ^ b else a) 0 = x at hl hb
    simp only [List.foldl_cons, List.foldl_nil]
    by_cases hp : p n
    · simp only [hp, if_true]
      refine ⟨by rw [Nat.pow_succ]; omega, fun k => ?_⟩
      rw [Nat.add_comm]
      rcases Nat.lt_trichotomy k n with h | h | h
      · rw [Nat.testBit_two_pow_add_gt h, hb]; simp [h, Nat.lt_succ_of_lt h]
      · subst h; rw [Nat.testBit_two_pow_add_eq, hb]; simp [hp]
      · have : 2 ^ n + x < 2 ^ k := by
          calc 2 ^ n + x < 2 ^ (n + 1) := by rw [Nat.pow_succ]; omega
            _ ≤ 2 ^ k := Nat.pow_le_pow_right (by decide) h
        rw [Nat.testBit_lt_two_pow this]; simp; omega
    · simp only [hp]
      refine ⟨by rw [Nat.pow_succ]; simp; omega, fun k => ?_⟩
      rw [if_neg (by simp), hb]
      by_cases h : k = n
      · subst h; simp [hp]
      · congr 1; simp; omega

/-- A bit of the word of a list of lanes. -/
theorem getLsbD_bitsIn (l : List Nat) (k : Nat) (hk : k < 32) :
    (BitVec.ofNat 32 (bitsIn l 0)).getLsbD k = l.contains k := by
  have h := (foldl_bits (fun b => l.contains b) 32).2 k
  simp only [BitVec.getLsbD_ofNat, bitsIn, Nat.zero_add]
  rw [h]; simp [hk]

/-- A lane word read back after a lane word of a mapped register is written. -/
theorem Cohort.vreg_putLane (c : Cohort) (k reg : Nat) (v : Word) (j r : Nat) (hm : (c.phys? (k / 32) reg).isSome) :
    (c.putLane k reg v).vreg j r = if j = k ∧ r = reg then (v, false) else c.vreg j r := by
  simp only [Cohort.vreg, Cohort.phys?_putLane]
  by_cases hjr : j / 32 = k / 32 ∧ r = reg
  · obtain ⟨hj, hr⟩ := hjr
    subst hr
    simp only [hj, and_self, if_true, and_true]
    obtain ⟨p, hp⟩ := Option.isSome_iff_exists.1 hm
    simp only [hp, Option.map_some]
    by_cases h : j = k
    · subst h; simp
    · have hl : j % 32 ≠ k % 32 := by
        intro e; apply h
        have := Nat.div_add_mod j 32
        have := Nat.div_add_mod k 32
        omega
      simp [h, PhysReg.word_put_ne _ _ hl, PhysReg.poison_put_ne _ _ hl]
  · have hn : ¬ (j = k ∧ r = reg) := fun e => hjr ⟨by rw [e.1], e.2⟩
    simp only [if_neg hjr, if_neg hn, Cohort.putLane_thread?, Cohort.putLane_eweVal]
    rfl

/-- Mapping a register changes what no live thread reads (R191, R234). -/
theorem Cohort.vreg_mapReg (c : Cohort) (crew reg b level : Nat) (k r : Nat) (hu : c.phys? crew reg = none)
    (hk : (c.thread? k).isSome) : (c.mapReg crew reg ⟨b, c.eweLanes crew level reg, c.eweSickLanes crew level reg⟩).vreg k r = c.vreg k r := by
  simp only [Cohort.vreg, Cohort.phys?_mapReg]
  by_cases h : k / 32 = crew ∧ r = reg
  · obtain ⟨hw, hr⟩ := h
    subst hr
    have hkk : 32 * crew + k % 32 = k := by have := Nat.div_add_mod k 32; omega
    simp only [if_pos hw, if_true]
    rw [hw, hu]
    obtain ⟨t, ht⟩ := Option.isSome_iff_exists.1 hk
    have hl : k % 32 < 32 := Nat.mod_lt _ (by decide)
    have hs : (c.eweSickLanes crew level r).getLsbD (k % 32) = c.eweSick t.level r := by
      rw [Cohort.eweSickLanes, getLsbD_bitsIn _ _ hl, Bool.eq_iff_iff]
      simp [hl, hkk, ht]
    simp [PhysReg.word, Cohort.eweLanes, hkk, ht, hs]
  · have hs (n : Nat) : (c.mapReg crew reg ⟨b, c.eweLanes crew level reg, c.eweSickLanes crew level reg⟩).eweSick n r =
        c.eweSick n r := rfl
    by_cases hw : k / 32 = crew
    · have hr : r ≠ reg := fun e => h ⟨hw, e⟩
      simp [hw, hr, hs]
    · simp [hw, hs]

end Sys2Proof.Machine
end

