-- ==== Sys2Proof/Laws/Alloc.lean ====
section
/-!
SUPPORT. What an issue may touch beside its cohort, and the allocation of destination registers (R191).
-/

namespace Sys2Proof.Machine

theorem Aside.refl (co ci : Nat) (s : State) : Aside co ci s s := ⟨rfl, fun _ _ => rfl, fun _ _ _ => rfl⟩

theorem Aside.trans {co ci : Nat} {s t u : State} (h : Aside co ci s t) (g : Aside co ci t u) : Aside co ci s u where
  rest := by
    have e := congrArg (fun (z : State) => { z with
      cohorts := u.cohorts, counters := u.counters, choices := u.choices, choiceCtr := u.choiceCtr, fresh := u.fresh }) h.rest
    exact g.rest.trans e
  others cp hc := (g.others cp hc).trans (h.others cp hc)
  counts k h1 h2 := (g.counts k h1 h2).trans (h.counts k h1 h2)

theorem Aside.modCohort (co ci : Nat) (s : State) (f : Cohort → Cohort) : Aside co ci s (s.modCohort co f) :=
  ⟨rfl, fun _ h => State.cohort_modCohort_ne s f h, fun _ _ _ => rfl⟩

theorem Aside.setCohort (co ci : Nat) (s : State) (c : Cohort) : Aside co ci s (s.setCohort co c) :=
  ⟨rfl, fun _ h => State.cohort_setCohort_ne s c h, fun _ _ _ => rfl⟩

theorem Aside.modThreads (co ci : Nat) (s : State) (ks : List Nat) (f : Nat → Thread → Thread) :
    Aside co ci s (s.modThreads co ks f) := Aside.modCohort co ci s _

theorem Aside.fresh (co ci : Nat) (s : State) (n : Nat) : Aside co ci s { s with fresh := n } :=
  ⟨rfl, fun _ _ => rfl, fun _ _ _ => rfl⟩

theorem Aside.choose (co ci : Nat) (s : State) (n : Nat) : Aside co ci s (s.choose n).2 := by
  unfold State.choose
  split
  · exact Aside.refl ..
  · split <;> exact ⟨rfl, fun _ _ => rfl, fun _ _ _ => rfl⟩

theorem Aside.bump (co ci : Nat) (s : State) (r : RcReg) (n : Nat) (h : r = .cluCopyAlloc ∨ r = .cluBankSpill) :
    Aside co ci s (s.bump r ci n) := by
  unfold State.bump
  split
  · exact Aside.refl ..
  · refine ⟨rfl, fun _ _ => rfl, fun key h1 h2 => find?_insert_ne _ _ ?_⟩
    rcases h with rfl | rfl
    · exact h1
    · exact h2

theorem State.pickBank_aside (s : State) (co ci sp reg : Nat) : Aside co ci s (s.pickBank ci sp reg).2 := by
  unfold State.pickBank
  simp only
  split
  · exact Aside.refl ..
  · split
    · exact Aside.refl ..
    · exact Aside.trans (Aside.choose co ci s _) (Aside.bump co ci _ RcReg.cluBankSpill 1 (.inr rfl))

@[simp] theorem State.pickBank_cohorts (s : State) (ci sp reg : Nat) : (s.pickBank ci sp reg).2.cohorts = s.cohorts := by
  unfold State.pickBank
  simp only
  split
  · rfl
  · split <;> simp

theorem nodup_eraseDups {α : Type} [BEq α] [LawfulBEq α] (n : Nat) :
    ∀ l : List α, l.length ≤ n → l.eraseDups.Nodup := by
  induction n with
  | zero =>
    intro l h
    have : l = [] := List.length_eq_zero_iff.1 (Nat.le_zero.1 h)
    subst this
    simp
  | succ n ih =>
    intro l h
    cases l with
    | nil => simp
    | cons a l =>
      rw [List.eraseDups_cons, List.nodup_cons]
      exact ⟨by simp, ih _ (Nat.le_trans (List.length_filter_le ..) (by simpa using h))⟩

/-- A cohort that differs at most in registers of crews that have been mapped, as live threads read them. -/
structure Grown (c d : Cohort) : Prop where
  rest : d = { c with crews := d.crews }
  reads : ∀ k, (c.thread? k).isSome → ∀ r, d.vreg k r = c.vreg k r
  keeps : ∀ w r, (c.phys? w r).isSome → (d.phys? w r).isSome

theorem Grown.refl (c : Cohort) : Grown c c := ⟨rfl, fun _ _ _ => rfl, fun _ _ h => h⟩

theorem Grown.trans {c d e : Cohort} (h : Grown c d) (g : Grown d e) : Grown c e where
  rest := g.rest.trans (congrArg (fun (z : Cohort) => { z with crews := e.crews }) h.rest)
  reads k hk r := by
    have : (d.thread? k).isSome := by rw [h.rest]; exact hk
    exact (g.reads k this r).trans (h.reads k hk r)
  keeps w r hw := g.keeps w r (h.keeps w r hw)

theorem Grown.thread? {c d : Cohort} (h : Grown c d) (k : Nat) : d.thread? k = c.thread? k := by rw [h.rest]; rfl
theorem Grown.ci {c d : Cohort} (h : Grown c d) : d.ci = c.ci := by rw [h.rest]
theorem Grown.regOf {c d : Cohort} (h : Grown c d) (k : Nat) (x : Sel) : d.regOf k x = c.regOf k x := by
  simp only [Cohort.regOf, h.thread?]
theorem Grown.dstRegs {c d : Cohort} (h : Grown c d) (k : Nat) (o : Dst) : d.dstRegs k o = c.dstRegs k o := by
  simp only [Cohort.dstRegs, h.regOf]

/-- Allocating a register (R191): it is mapped afterwards, and no live thread reads anything else. -/
theorem State.allocReg_spec {s t : State} {co crew level reg : Nat} {c : Cohort} (hc : find? s.cohorts co = some c)
    (h : s.allocReg co crew level reg = some t) :
    Aside co c.ci s t ∧ ∃ d, find? t.cohorts co = some d ∧ Grown c d ∧ (d.phys? crew reg).isSome := by
  simp only [State.allocReg, hc] at h
  split at h
  · rename_i r hr
    cases h
    exact ⟨Aside.refl .., c, hc, Grown.refl c, by simp [hr]⟩
  · rename_i hn
    split at h
    · cases h
    · rename_i b s' hp
      cases h
      have ha := State.pickBank_aside s co c.ci (c.crewOf (32 * crew)).sp reg
      rw [hp] at ha
      refine ⟨(ha.trans (Aside.setCohort co c.ci s' _)).trans (Aside.bump co c.ci _ _ _ (.inl rfl)),
        c.mapReg crew reg ⟨b, c.eweLanes crew level reg, c.eweSickLanes crew level reg⟩, ?_, ?_, ?_⟩
      · simp [State.setCohort]
      · refine ⟨rfl, fun k hk r => Cohort.vreg_mapReg c crew reg b level k r hn hk, fun w r hw => ?_⟩
        rw [Cohort.phys?_mapReg]
        split
        · split
          · rfl
          · exact hw
        · exact hw
      · simp [Cohort.phys?_mapReg]

/-- Allocating several registers of a crew. -/
theorem State.allocRegs_spec {co crew level : Nat} (regs : List Nat) {s t : State} {c : Cohort}
    (hc : find? s.cohorts co = some c) (h : s.allocRegs co crew level regs = some t) :
    Aside co c.ci s t ∧ ∃ d, find? t.cohorts co = some d ∧ Grown c d ∧ ∀ r ∈ regs, (d.phys? crew r).isSome := by
  induction regs generalizing s c with
  | nil => cases h; exact ⟨Aside.refl .., c, hc, Grown.refl c, by simp⟩
  | cons r rs ih =>
    simp only [State.allocRegs] at h
    cases ha : s.allocReg co crew level r with
    | none => simp [ha] at h
    | some u =>
      simp only [ha, Option.bind_some] at h
      obtain ⟨h1, d, hd, hg, hr⟩ := State.allocReg_spec hc ha
      obtain ⟨h2, e, he, hg2, hrs⟩ := ih hd h
      rw [hg.ci] at h2
      refine ⟨h1.trans h2, e, he, hg.trans hg2, ?_⟩
      intro q hq
      rcases List.mem_cons.1 hq with rfl | hq
      · exact hg2.keeps _ _ hr
      · exact hrs q hq

/-- Only threads of the crews in the list get their registers. -/
theorem State.mem_allocCrews (x : Issue) (o : Dst) (ks : List Nat) (ws : List Nat) (s : State) {k : Nat}
    (h : k ∈ (s.allocCrews x o ks ws).1) : k / 32 ∈ ws := by
  induction ws generalizing s with
  | nil => simp [State.allocCrews] at h
  | cons w ws ih =>
    simp only [State.allocCrews] at h
    split at h
    · simp at h
    · split at h
      · simp only [List.mem_append, List.mem_filter, beq_iff_eq] at h
        rcases h with ⟨-, h⟩ | h
        · simp [h]
        · exact List.mem_cons_of_mem _ (ih _ h)
      · exact List.mem_cons_of_mem _ (ih _ h)

/-- The allocation of a slot destination for threads that all get their registers. -/
theorem State.allocCrews_spec (x : Issue) (o : Dst) (ks : List Nat) (ws : List Nat) {s : State} {c : Cohort}
    (hn : ws.Nodup) (hw : ∀ w ∈ ws, ∃ k ∈ ks, k / 32 = w) (hc : find? s.cohorts x.co = some c)
    (hall : ∀ k ∈ ks, k / 32 ∈ ws → k ∈ (s.allocCrews x o ks ws).1) :
    Aside x.co c.ci s (s.allocCrews x o ks ws).2 ∧ ∃ d, find? (s.allocCrews x o ks ws).2.cohorts x.co = some d ∧
      Grown c d ∧ ∀ k ∈ ks, k / 32 ∈ ws → ∀ r ∈ c.dstRegs k o, (d.phys? (k / 32) r).isSome := by
  induction ws generalizing s c with
  | nil => exact ⟨Aside.refl .., c, hc, Grown.refl c, by simp⟩
  | cons w ws ih =>
    obtain ⟨hnw, hn⟩ := List.nodup_cons.1 hn
    simp only [State.allocCrews, hc] at hall ⊢
    cases ha : s.allocRegs x.co w (((((ks.filter fun k => k / 32 == w)).head?.bind c.thread?).map Thread.level).getD 1)
        (((ks.filter fun k => k / 32 == w).flatMap fun k => c.dstRegs k o).eraseDups) with
    | none =>
      exfalso
      simp only [ha] at hall
      obtain ⟨k, hk, hkw⟩ := hw w (List.mem_cons_self ..)
      have := hall k hk (by simp [hkw])
      exact hnw (hkw ▸ State.mem_allocCrews x o ks ws _ this)
    | some t =>
      simp only [ha] at hall ⊢
      obtain ⟨h1, d, hd, hg, hr⟩ := State.allocRegs_spec _ hc ha
      have hall' : ∀ k ∈ ks, k / 32 ∈ ws → k ∈ (t.allocCrews x o ks ws).1 := by
        intro k hk hkw
        have := hall k hk (List.mem_cons_of_mem _ hkw)
        simp only [List.mem_append, List.mem_filter, beq_iff_eq] at this
        rcases this with ⟨-, e⟩ | h
        · exact absurd (e ▸ hkw) hnw
        · exact h
      obtain ⟨h2, e, he, hg2, hr2⟩ := ih hn (fun v hv => hw v (List.mem_cons_of_mem _ hv)) hd hall'
      rw [hg.ci] at h2
      refine ⟨h1.trans h2, e, he, hg.trans hg2, ?_⟩
      intro k hk hkw r hrk
      rcases List.mem_cons.1 hkw with e1 | hkw
      · refine hg2.keeps _ _ ?_
        rw [e1]
        refine hr r ?_
        simp only [List.mem_eraseDups, List.mem_flatMap, List.mem_filter, beq_iff_eq]
        exact ⟨k, ⟨hk, e1⟩, hrk⟩
      · rw [← hg.dstRegs] at hrk
        exact hr2 k hk hkw r hrk

/-- The allocation of a destination for threads that all get their registers (R191). -/
theorem State.allocate_spec {s : State} {x : Issue} {o : Dst} {ks : List Nat} {c : Cohort}
    (hc : find? s.cohorts x.co = some c) (hall : ∀ k ∈ ks, k ∈ (s.allocate x o ks).1) :
    Aside x.co c.ci s (s.allocate x o ks).2 ∧ ∃ d, find? (s.allocate x o ks).2.cohorts x.co = some d ∧ Grown c d ∧
      (isSlot o.sel = true → ∀ k ∈ ks, ∀ r ∈ c.dstRegs k o, (d.phys? (k / 32) r).isSome) := by
  unfold State.allocate at hall ⊢
  cases hs : isSlot o.sel with
  | false => exact ⟨Aside.refl .., c, by simpa [hs] using hc, Grown.refl c, by simp⟩
  | true =>
    simp only [hs, Bool.not_true, Bool.false_eq_true, if_false] at hall ⊢
    have hmem : ∀ k ∈ ks, k / 32 ∈ crewsOf ks := fun k hk => by
      simp only [crewsOf, List.mem_eraseDups, List.mem_map]; exact ⟨k, hk, rfl⟩
    have hw : ∀ w ∈ crewsOf ks, ∃ k ∈ ks, k / 32 = w := fun w hw => by
      simpa only [crewsOf, List.mem_eraseDups, List.mem_map] using hw
    obtain ⟨h1, d, hd, hg, hr⟩ := State.allocCrews_spec x o ks (crewsOf ks) (nodup_eraseDups _ _ (Nat.le_refl _)) hw hc
      fun k hk _ => hall k hk
    exact ⟨h1, d, hd, hg, fun _ k hk => hr k hk (hmem k hk)⟩

end Sys2Proof.Machine
end

