-- ==== Sys2Proof/Laws/Exec.lean ====
section
/-!
SUPPORT. The arm of each constructor, so that no proof unfolds the dispatch.
-/

namespace Sys2Proof.Machine

theorem exec_add (p : Option Pfx) (d a b : Sel) (s : State) :
    exec (.add p d a b) s = execAdd p d a b s := rfl
theorem exec_addImm (p : Option Pfx) (d a b : Sel) (imm : BitVec 30) (s : State) :
    exec (.addImm p d a b imm) s = execAddImm p d a b imm s := rfl
theorem exec_sub (p : Option Pfx) (d a b : Sel) (s : State) :
    exec (.sub p d a b) s = execSub p d a b s := rfl
theorem exec_subImm (p : Option Pfx) (d a b : Sel) (imm : BitVec 30) (s : State) :
    exec (.subImm p d a b imm) s = execSubImm p d a b imm s := rfl
theorem exec_addc (p : Option Pfx) (d a b : Sel) (s : State) :
    exec (.addc p d a b) s = execAddc p d a b s := rfl
theorem exec_addcImm (p : Option Pfx) (d a b : Sel) (imm : BitVec 30) (s : State) :
    exec (.addcImm p d a b imm) s = execAddcImm p d a b imm s := rfl
theorem exec_subb (p : Option Pfx) (d a b : Sel) (s : State) :
    exec (.subb p d a b) s = execSubb p d a b s := rfl
theorem exec_subbImm (p : Option Pfx) (d a b : Sel) (imm : BitVec 30) (s : State) :
    exec (.subbImm p d a b imm) s = execSubbImm p d a b imm s := rfl
theorem exec_mul (p : Option Pfx) (d a b : Sel) (s : State) :
    exec (.mul p d a b) s = execMul p d a b s := rfl
theorem exec_mulImm (p : Option Pfx) (d a b : Sel) (imm : BitVec 30) (s : State) :
    exec (.mulImm p d a b imm) s = execMulImm p d a b imm s := rfl
theorem exec_mulh (p : Option Pfx) (d a b : Sel) (s : State) :
    exec (.mulh p d a b) s = execMulh p d a b s := rfl
theorem exec_mulhImm (p : Option Pfx) (d a b : Sel) (imm : BitVec 30) (s : State) :
    exec (.mulhImm p d a b imm) s = execMulhImm p d a b imm s := rfl
theorem exec_mad (p : Option Pfx) (d a b c : Sel) (s : State) :
    exec (.mad p d a b c) s = execMad p d a b c s := rfl
theorem exec_madw (p : Option Pfx) (d a b c : Sel) (s : State) :
    exec (.madw p d a b c) s = execMadw p d a b c s := rfl
theorem exec_div (p : Option Pfx) (d a b : Sel) (s : State) :
    exec (.div p d a b) s = execDiv p d a b s := rfl
theorem exec_divImm (p : Option Pfx) (d a b : Sel) (imm : BitVec 30) (s : State) :
    exec (.divImm p d a b imm) s = execDivImm p d a b imm s := rfl
theorem exec_rem (p : Option Pfx) (d a b : Sel) (s : State) :
    exec (.rem p d a b) s = execRem p d a b s := rfl
theorem exec_remImm (p : Option Pfx) (d a b : Sel) (imm : BitVec 30) (s : State) :
    exec (.remImm p d a b imm) s = execRemImm p d a b imm s := rfl
theorem exec_neg (p : Option Pfx) (d a : Sel) (s : State) :
    exec (.neg p d a) s = execNeg p d a s := rfl
theorem exec_abs (p : Option Pfx) (d a : Sel) (s : State) :
    exec (.abs p d a) s = execAbs p d a s := rfl
theorem exec_min (p : Option Pfx) (d a b : Sel) (s : State) :
    exec (.min p d a b) s = execMin p d a b s := rfl
theorem exec_minImm (p : Option Pfx) (d a b : Sel) (imm : BitVec 30) (s : State) :
    exec (.minImm p d a b imm) s = execMinImm p d a b imm s := rfl
theorem exec_max (p : Option Pfx) (d a b : Sel) (s : State) :
    exec (.max p d a b) s = execMax p d a b s := rfl
theorem exec_maxImm (p : Option Pfx) (d a b : Sel) (imm : BitVec 30) (s : State) :
    exec (.maxImm p d a b imm) s = execMaxImm p d a b imm s := rfl
theorem exec_shl (p : Option Pfx) (d a b : Sel) (s : State) :
    exec (.shl p d a b) s = execShl p d a b s := rfl
theorem exec_shlImm (p : Option Pfx) (d a b : Sel) (imm : BitVec 30) (s : State) :
    exec (.shlImm p d a b imm) s = execShlImm p d a b imm s := rfl
theorem exec_shr (p : Option Pfx) (d a b : Sel) (s : State) :
    exec (.shr p d a b) s = execShr p d a b s := rfl
theorem exec_shrImm (p : Option Pfx) (d a b : Sel) (imm : BitVec 30) (s : State) :
    exec (.shrImm p d a b imm) s = execShrImm p d a b imm s := rfl
theorem exec_sar (p : Option Pfx) (d a b : Sel) (s : State) :
    exec (.sar p d a b) s = execSar p d a b s := rfl
theorem exec_sarImm (p : Option Pfx) (d a b : Sel) (imm : BitVec 30) (s : State) :
    exec (.sarImm p d a b imm) s = execSarImm p d a b imm s := rfl
theorem exec_rotl (p : Option Pfx) (d a b : Sel) (s : State) :
    exec (.rotl p d a b) s = execRotl p d a b s := rfl
theorem exec_rotlImm (p : Option Pfx) (d a b : Sel) (imm : BitVec 30) (s : State) :
    exec (.rotlImm p d a b imm) s = execRotlImm p d a b imm s := rfl
theorem exec_lea (p : Option Pfx) (d a b c : Sel) (sh : BitVec 3) (s : State) :
    exec (.lea p d a b c sh) s = execLea p d a b c sh s := rfl
theorem exec_addp (p : Option Pfx) (d a b : Sel) (s : State) :
    exec (.addp p d a b) s = execAddp p d a b s := rfl
theorem exec_addpImm (p : Option Pfx) (d a b : Sel) (imm : BitVec 30) (s : State) :
    exec (.addpImm p d a b imm) s = execAddpImm p d a b imm s := rfl
theorem exec_subp (p : Option Pfx) (d a b : Sel) (s : State) :
    exec (.subp p d a b) s = execSubp p d a b s := rfl
theorem exec_movi (p : Option Pfx) (d : Sel) (imm : BitVec 30) (s : State) :
    exec (.movi p d imm) s = execMovi p d imm s := rfl
theorem exec_mov (p : Option Pfx) (d a : Sel) (s : State) :
    exec (.mov p d a) s = execMov p d a s := rfl
theorem exec_and (p : Option Pfx) (d a b : Sel) (s : State) :
    exec (.and p d a b) s = execAnd p d a b s := rfl
theorem exec_andImm (p : Option Pfx) (d a b : Sel) (imm : BitVec 30) (s : State) :
    exec (.andImm p d a b imm) s = execAndImm p d a b imm s := rfl
theorem exec_or (p : Option Pfx) (d a b : Sel) (s : State) :
    exec (.or p d a b) s = execOr p d a b s := rfl
theorem exec_orImm (p : Option Pfx) (d a b : Sel) (imm : BitVec 30) (s : State) :
    exec (.orImm p d a b imm) s = execOrImm p d a b imm s := rfl
theorem exec_xor (p : Option Pfx) (d a b : Sel) (s : State) :
    exec (.xor p d a b) s = execXor p d a b s := rfl
theorem exec_xorImm (p : Option Pfx) (d a b : Sel) (imm : BitVec 30) (s : State) :
    exec (.xorImm p d a b imm) s = execXorImm p d a b imm s := rfl
theorem exec_not (p : Option Pfx) (d a : Sel) (s : State) :
    exec (.not p d a) s = execNot p d a s := rfl
theorem exec_andn (p : Option Pfx) (d a b : Sel) (s : State) :
    exec (.andn p d a b) s = execAndn p d a b s := rfl
theorem exec_andnImm (p : Option Pfx) (d a b : Sel) (imm : BitVec 30) (s : State) :
    exec (.andnImm p d a b imm) s = execAndnImm p d a b imm s := rfl
theorem exec_bfe (p : Option Pfx) (d a b c : Sel) (pi : Bool) (pos wid : BitVec 7) (s : State) :
    exec (.bfe p d a b c pi pos wid) s = execBfe p d a b c pi pos wid s := rfl
theorem exec_bfi (p : Option Pfx) (d a b c : Sel) (pi : Bool) (pos wid : BitVec 7) (s : State) :
    exec (.bfi p d a b c pi pos wid) s = execBfi p d a b c pi pos wid s := rfl
theorem exec_popc (p : Option Pfx) (d a : Sel) (s : State) :
    exec (.popc p d a) s = execPopc p d a s := rfl
theorem exec_clz (p : Option Pfx) (d a : Sel) (s : State) :
    exec (.clz p d a) s = execClz p d a s := rfl
theorem exec_ctz (p : Option Pfx) (d a : Sel) (s : State) :
    exec (.ctz p d a) s = execCtz p d a s := rfl
theorem exec_brev (p : Option Pfx) (d a : Sel) (s : State) :
    exec (.brev p d a) s = execBrev p d a s := rfl
theorem exec_bshuf (p : Option Pfx) (d a b c : Sel) (s : State) :
    exec (.bshuf p d a b c) s = execBshuf p d a b c s := rfl
theorem exec_cmp (p : Option Pfx) (q : BitVec 3) (cond : BitVec 4) (a b : Sel) (s : State) :
    exec (.cmp p q cond a b) s = execCmp p q cond a b s := rfl
theorem exec_cmpImm (p : Option Pfx) (q : BitVec 3) (cond : BitVec 4) (a b : Sel) (imm : BitVec 30) (s : State) :
    exec (.cmpImm p q cond a b imm) s = execCmpImm p q cond a b imm s := rfl
theorem exec_sel (p : Option Pfx) (d a b : Sel) (n : Bool) (q : BitVec 3) (s : State) :
    exec (.sel p d a b n q) s = execSel p d a b n q s := rfl
theorem exec_pand (p : Option Pfx) (d : BitVec 3) (na : Bool) (a : BitVec 3) (nb : Bool) (b : BitVec 3) (s : State) :
    exec (.pand p d na a nb b) s = execPand p d na a nb b s := rfl
theorem exec_por (p : Option Pfx) (d : BitVec 3) (na : Bool) (a : BitVec 3) (nb : Bool) (b : BitVec 3) (s : State) :
    exec (.por p d na a nb b) s = execPor p d na a nb b s := rfl
theorem exec_pxor (p : Option Pfx) (d : BitVec 3) (na : Bool) (a : BitVec 3) (nb : Bool) (b : BitVec 3) (s : State) :
    exec (.pxor p d na a nb b) s = execPxor p d na a nb b s := rfl
theorem exec_pnot (p : Option Pfx) (d : BitVec 3) (na : Bool) (a : BitVec 3) (s : State) :
    exec (.pnot p d na a) s = execPnot p d na a s := rfl
theorem exec_pmov (p : Option Pfx) (d : BitVec 3) (na : Bool) (a : BitVec 3) (s : State) :
    exec (.pmov p d na a) s = execPmov p d na a s := rfl
theorem exec_matchLanes (p : Option Pfx) (d a : Sel) (s : State) :
    exec (.matchLanes p d a) s = execMatchLanes p d a s := rfl
theorem exec_fadd (p : Option Pfx) (d a b : Sel) (s : State) :
    exec (.fadd p d a b) s = execFadd p d a b s := rfl
theorem exec_faddImm (p : Option Pfx) (d a b : Sel) (imm : BitVec 30) (s : State) :
    exec (.faddImm p d a b imm) s = execFaddImm p d a b imm s := rfl
theorem exec_fsub (p : Option Pfx) (d a b : Sel) (s : State) :
    exec (.fsub p d a b) s = execFsub p d a b s := rfl
theorem exec_fsubImm (p : Option Pfx) (d a b : Sel) (imm : BitVec 30) (s : State) :
    exec (.fsubImm p d a b imm) s = execFsubImm p d a b imm s := rfl
theorem exec_fmul (p : Option Pfx) (d a b : Sel) (s : State) :
    exec (.fmul p d a b) s = execFmul p d a b s := rfl
theorem exec_fmulImm (p : Option Pfx) (d a b : Sel) (imm : BitVec 30) (s : State) :
    exec (.fmulImm p d a b imm) s = execFmulImm p d a b imm s := rfl
theorem exec_fma (p : Option Pfx) (d a b c : Sel) (s : State) :
    exec (.fma p d a b c) s = execFma p d a b c s := rfl
theorem exec_fmin (p : Option Pfx) (d a b : Sel) (s : State) :
    exec (.fmin p d a b) s = execFmin p d a b s := rfl
theorem exec_fminImm (p : Option Pfx) (d a b : Sel) (imm : BitVec 30) (s : State) :
    exec (.fminImm p d a b imm) s = execFminImm p d a b imm s := rfl
theorem exec_fmax (p : Option Pfx) (d a b : Sel) (s : State) :
    exec (.fmax p d a b) s = execFmax p d a b s := rfl
theorem exec_fmaxImm (p : Option Pfx) (d a b : Sel) (imm : BitVec 30) (s : State) :
    exec (.fmaxImm p d a b imm) s = execFmaxImm p d a b imm s := rfl
theorem exec_fabs (p : Option Pfx) (d a : Sel) (s : State) :
    exec (.fabs p d a) s = execFabs p d a s := rfl
theorem exec_fneg (p : Option Pfx) (d a : Sel) (s : State) :
    exec (.fneg p d a) s = execFneg p d a s := rfl
theorem exec_fcmp (p : Option Pfx) (q : BitVec 3) (cond : BitVec 4) (a b : Sel) (s : State) :
    exec (.fcmp p q cond a b) s = execFcmp p q cond a b s := rfl
theorem exec_fcmpImm (p : Option Pfx) (q : BitVec 3) (cond : BitVec 4) (a b : Sel) (imm : BitVec 30) (s : State) :
    exec (.fcmpImm p q cond a b imm) s = execFcmpImm p q cond a b imm s := rfl
theorem exec_fclass (p : Option Pfx) (d a : Sel) (s : State) :
    exec (.fclass p d a) s = execFclass p d a s := rfl
theorem exec_frint (p : Option Pfx) (d a : Sel) (s : State) :
    exec (.frint p d a) s = execFrint p d a s := rfl
theorem exec_fsqrt (p : Option Pfx) (d a : Sel) (s : State) :
    exec (.fsqrt p d a) s = execFsqrt p d a s := rfl
theorem exec_frcp (p : Option Pfx) (d a : Sel) (s : State) :
    exec (.frcp p d a) s = execFrcp p d a s := rfl
theorem exec_frsq (p : Option Pfx) (d a : Sel) (s : State) :
    exec (.frsq p d a) s = execFrsq p d a s := rfl
theorem exec_fdiv (p : Option Pfx) (d a b : Sel) (s : State) :
    exec (.fdiv p d a b) s = execFdiv p d a b s := rfl
theorem exec_fdivImm (p : Option Pfx) (d a b : Sel) (imm : BitVec 30) (s : State) :
    exec (.fdivImm p d a b imm) s = execFdivImm p d a b imm s := rfl
theorem exec_fscale (p : Option Pfx) (d a b : Sel) (s : State) :
    exec (.fscale p d a b) s = execFscale p d a b s := rfl
theorem exec_fscaleImm (p : Option Pfx) (d a b : Sel) (imm : BitVec 30) (s : State) :
    exec (.fscaleImm p d a b imm) s = execFscaleImm p d a b imm s := rfl
theorem exec_hadd2 (p : Option Pfx) (d a b : Sel) (s : State) :
    exec (.hadd2 p d a b) s = execHadd2 p d a b s := rfl
theorem exec_hfma2 (p : Option Pfx) (d a b c : Sel) (s : State) :
    exec (.hfma2 p d a b c) s = execHfma2 p d a b c s := rfl
theorem exec_bfma2 (p : Option Pfx) (d a b c : Sel) (s : State) :
    exec (.bfma2 p d a b c) s = execBfma2 p d a b c s := rfl
theorem exec_dot2 (p : Option Pfx) (d a b c : Sel) (s : State) :
    exec (.dot2 p d a b c) s = execDot2 p d a b c s := rfl
theorem exec_dot4 (p : Option Pfx) (d a b c : Sel) (s : State) :
    exec (.dot4 p d a b c) s = execDot4 p d a b c s := rfl
theorem exec_cvt (p : Option Pfx) (d a : Sel) (dt st : BitVec 4) (s : State) :
    exec (.cvt p d a dt st) s = execCvt p d a dt st s := rfl
theorem exec_pack (p : Option Pfx) (d a b : Sel) (s : State) :
    exec (.pack p d a b) s = execPack p d a b s := rfl
theorem exec_unpack (p : Option Pfx) (d a b : Sel) (s : State) :
    exec (.unpack p d a b) s = execUnpack p d a b s := rfl
theorem exec_unpackImm (p : Option Pfx) (d a b : Sel) (imm : BitVec 30) (s : State) :
    exec (.unpackImm p d a b imm) s = execUnpackImm p d a b imm s := rfl
theorem exec_tdec (p : Option Pfx) (d a : Sel) (e : BitVec 2) (s : State) :
    exec (.tdec p d a e) s = execTdec p d a e s := rfl
theorem exec_tenc (p : Option Pfx) (d a b : Sel) (e : BitVec 2) (s : State) :
    exec (.tenc p d a b e) s = execTenc p d a b e s := rfl
theorem exec_qscale (p : Option Pfx) (d a b : Sel) (neg : Bool) (bsel : BitVec 2) (s : State) :
    exec (.qscale p d a b neg bsel) s = execQscale p d a b neg bsel s := rfl
theorem exec_sin (p : Option Pfx) (d a : Sel) (s : State) :
    exec (.sin p d a) s = execSin p d a s := rfl
theorem exec_cos (p : Option Pfx) (d a : Sel) (s : State) :
    exec (.cos p d a) s = execCos p d a s := rfl
theorem exec_fexp2 (p : Option Pfx) (d a : Sel) (s : State) :
    exec (.fexp2 p d a) s = execFexp2 p d a s := rfl
theorem exec_flog2 (p : Option Pfx) (d a : Sel) (s : State) :
    exec (.flog2 p d a) s = execFlog2 p d a s := rfl
theorem exec_tanh (p : Option Pfx) (d a : Sel) (s : State) :
    exec (.tanh p d a) s = execTanh p d a s := rfl
theorem exec_sig (p : Option Pfx) (d a : Sel) (s : State) :
    exec (.sig p d a) s = execSig p d a s := rfl
theorem exec_shfl (p : Option Pfx) (d a b c : Sel) (mk wr : Bool) (seg : BitVec 3) (ii : Bool) (idx : BitVec 6) (s : State) :
    exec (.shfl p d a b c mk wr seg ii idx) s = execShfl p d a b c mk wr seg ii idx s := rfl
theorem exec_shflRel (p : Option Pfx) (d a b c : Sel) (mk wr : Bool) (seg : BitVec 3) (ii : Bool) (idx : BitVec 6) (s : State) :
    exec (.shflRel p d a b c mk wr seg ii idx) s = execShflRel p d a b c mk wr seg ii idx s := rfl
theorem exec_shflXor (p : Option Pfx) (d a b c : Sel) (mk wr : Bool) (seg : BitVec 3) (ii : Bool) (idx : BitVec 6) (s : State) :
    exec (.shflXor p d a b c mk wr seg ii idx) s = execShflXor p d a b c mk wr seg ii idx s := rfl
theorem exec_bcast (p : Option Pfx) (d a c : Sel) (mk : Bool) (lsel : BitVec 2) (lane : BitVec 5) (s : State) :
    exec (.bcast p d a c mk lsel lane) s = execBcast p d a c mk lsel lane s := rfl
theorem exec_vote (p : Option Pfx) (d : Sel) (na : Bool) (a : BitVec 3) (c : Sel) (mk : Bool) (op : BitVec 3) (s : State) :
    exec (.vote p d na a c mk op) s = execVote p d na a c mk op s := rfl
theorem exec_lred (p : Option Pfx) (d a c : Sel) (mk : Bool) (op k : BitVec 3) (s : State) :
    exec (.lred p d a c mk op k) s = execLred p d a c mk op k s := rfl
theorem exec_ld (p : Option Pfx) (d a b : Sel) (s : State) :
    exec (.ld p d a b) s = execLd p d a b s := rfl
theorem exec_ldOfs (p : Option Pfx) (d a b : Sel) (ofs : BitVec 24) (cl : BitVec 2) (sx : Bool) (sh : BitVec 3) (s : State) :
    exec (.ldOfs p d a b ofs cl sx sh) s = execLdOfs p d a b ofs cl sx sh s := rfl
theorem exec_st (p : Option Pfx) (d a b : Sel) (s : State) :
    exec (.st p d a b) s = execSt p d a b s := rfl
theorem exec_stOfs (p : Option Pfx) (d a b : Sel) (ofs : BitVec 24) (cl : BitVec 2) (sx : Bool) (sh : BitVec 3) (s : State) :
    exec (.stOfs p d a b ofs cl sx sh) s = execStOfs p d a b ofs cl sx sh s := rfl
theorem exec_ldsp (p : Option Pfx) (d a b : Sel) (s : State) :
    exec (.ldsp p d a b) s = execLdsp p d a b s := rfl
theorem exec_ldspOfs (p : Option Pfx) (d a b : Sel) (ofs : BitVec 24) (cl : BitVec 2) (sx : Bool) (sh : BitVec 3) (s : State) :
    exec (.ldspOfs p d a b ofs cl sx sh) s = execLdspOfs p d a b ofs cl sx sh s := rfl
theorem exec_stsp (p : Option Pfx) (d a b : Sel) (s : State) :
    exec (.stsp p d a b) s = execStsp p d a b s := rfl
theorem exec_stspOfs (p : Option Pfx) (d a b : Sel) (ofs : BitVec 24) (cl : BitVec 2) (sx : Bool) (sh : BitVec 3) (s : State) :
    exec (.stspOfs p d a b ofs cl sx sh) s = execStspOfs p d a b ofs cl sx sh s := rfl
theorem exec_ldc (p : Option Pfx) (d a b : Sel) (s : State) :
    exec (.ldc p d a b) s = execLdc p d a b s := rfl
theorem exec_ldcOfs (p : Option Pfx) (d a b : Sel) (ofs : BitVec 24) (cl : BitVec 2) (sx : Bool) (sh : BitVec 3) (s : State) :
    exec (.ldcOfs p d a b ofs cl sx sh) s = execLdcOfs p d a b ofs cl sx sh s := rfl
theorem exec_ldq (p : Option Pfx) (d a b : Sel) (s : State) :
    exec (.ldq p d a b) s = execLdq p d a b s := rfl
theorem exec_ldqOfs (p : Option Pfx) (d a b : Sel) (ofs : BitVec 24) (cl : BitVec 2) (sx : Bool) (sh : BitVec 3) (s : State) :
    exec (.ldqOfs p d a b ofs cl sx sh) s = execLdqOfs p d a b ofs cl sx sh s := rfl
theorem exec_pref (p : Option Pfx) (a b : Sel) (s : State) :
    exec (.pref p a b) s = execPref p a b s := rfl
theorem exec_prefOfs (p : Option Pfx) (a b : Sel) (ofs : BitVec 24) (cl : BitVec 2) (sx : Bool) (sh : BitVec 3) (s : State) :
    exec (.prefOfs p a b ofs cl sx sh) s = execPrefOfs p a b ofs cl sx sh s := rfl
theorem exec_atom (p : Option Pfx) (d a b c : Sel) (op : BitVec 4) (sp : Bool) (s : State) :
    exec (.atom p d a b c op sp) s = execAtom p d a b c op sp s := rfl
theorem exec_atomr (p : Option Pfx) (d a b c : Sel) (op : BitVec 4) (sp : Bool) (s : State) :
    exec (.atomr p d a b c op sp) s = execAtomr p d a b c op sp s := rfl
theorem exec_red (p : Option Pfx) (a b : Sel) (op : BitVec 4) (sp : Bool) (s : State) :
    exec (.red p a b op sp) s = execRed p a b op sp s := rfl
theorem exec_fenceEng (p : Option Pfx) (s : State) :
    exec (.fenceEng p) s = execFenceEng p s := rfl
theorem exec_fenceSys (p : Option Pfx) (s : State) :
    exec (.fenceSys p) s = execFenceSys p s := rfl
theorem exec_cflush (p : Option Pfx) (a b : Sel) (s : State) :
    exec (.cflush p a b) s = execCflush p a b s := rfl
theorem exec_cflushOfs (p : Option Pfx) (a b : Sel) (ofs : BitVec 24) (cl : BitVec 2) (sx : Bool) (sh : BitVec 3) (s : State) :
    exec (.cflushOfs p a b ofs cl sx sh) s = execCflushOfs p a b ofs cl sx sh s := rfl
theorem exec_cinval (p : Option Pfx) (a b : Sel) (s : State) :
    exec (.cinval p a b) s = execCinval p a b s := rfl
theorem exec_cinvalOfs (p : Option Pfx) (a b : Sel) (ofs : BitVec 24) (cl : BitVec 2) (sx : Bool) (sh : BitVec 3) (s : State) :
    exec (.cinvalOfs p a b ofs cl sx sh) s = execCinvalOfs p a b ofs cl sx sh s := rfl
theorem exec_spat (p : Option Pfx) (d a b c : Sel) (dir : BitVec 2) (sp : Bool) (ety : BitVec 4) (rowlen : BitVec 12) (s : State) :
    exec (.spat p d a b c dir sp ety rowlen) s = execSpat p d a b c dir sp ety rowlen s := rfl
theorem exec_sfree (p : Option Pfx) (a : Sel) (s : State) :
    exec (.sfree p a) s = execSfree p a s := rfl
theorem exec_qbind (p : Option Pfx) (d a c : Sel) (kind : BitVec 4) (sig trapq : Bool) (s : State) :
    exec (.qbind p d a c kind sig trapq) s = execQbind p d a c kind sig trapq s := rfl
theorem exec_qtry (p : Option Pfx) (d a : Sel) (q : BitVec 3) (s : State) :
    exec (.qtry p d a q) s = execQtry p d a q s := rfl
theorem exec_qstat (p : Option Pfx) (d a : Sel) (s : State) :
    exec (.qstat p d a) s = execQstat p d a s := rfl
theorem exec_bra (ce n : Bool) (q : BitVec 3) (imm : BitVec 30) (s : State) :
    exec (.bra ce n q imm) s = execBra ce n q imm s := rfl
theorem exec_brd (n : Bool) (q : BitVec 3) (tgt join : BitVec 15) (s : State) :
    exec (.brd n q tgt join) s = execBrd n q tgt join s := rfl
theorem exec_join (s : State) :
    exec (.join) s = execJoin s := rfl
theorem exec_reform (s : State) :
    exec (.reform) s = execReform s := rfl
theorem exec_call (d : Sel) (imm : BitVec 30) (s : State) :
    exec (.call d imm) s = execCall d imm s := rfl
theorem exec_ret (a : Sel) (s : State) :
    exec (.ret a) s = execRet a s := rfl
theorem exec_jmp (a : Sel) (s : State) :
    exec (.jmp a) s = execJmp a s := rfl
theorem exec_loop (a : Sel) (stop : BitVec 14) (ci : Bool) (icount : BitVec 15) (s : State) :
    exec (.loop a stop ci icount) s = execLoop a stop ci icount s := rfl
theorem exec_lbrk (s : State) :
    exec (.lbrk) s = execLbrk s := rfl
theorem exec_exit (s : State) :
    exec (.exit) s = execExit s := rfl
theorem exec_trap (code : BitVec 21) (s : State) :
    exec (.trap code) s = execTrap code s := rfl
theorem exec_brk (code : BitVec 21) (s : State) :
    exec (.brk code) s = execBrk code s := rfl
theorem exec_nop (s : State) :
    exec (.nop) s = execNop s := rfl
theorem exec_cpy (p : Option Pfx) (d a : Sel) (tag : BitVec 8) (evt outq acq rel : Bool) (scope : BitVec 3) (ba : Bool) (barr : BitVec 4) (s : State) :
    exec (.cpy p d a tag evt outq acq rel scope ba barr) s = execCpy p d a tag evt outq acq rel scope ba barr s := rfl
theorem exec_gath (p : Option Pfx) (d a : Sel) (tag : BitVec 8) (evt outq acq rel : Bool) (scope : BitVec 3) (ba : Bool) (barr : BitVec 4) (s : State) :
    exec (.gath p d a tag evt outq acq rel scope ba barr) s = execGath p d a tag evt outq acq rel scope ba barr s := rfl
theorem exec_coll (p : Option Pfx) (d a : Sel) (tag : BitVec 8) (evt outq acq rel : Bool) (scope : BitVec 3) (ba : Bool) (barr : BitVec 4) (s : State) :
    exec (.coll p d a tag evt outq acq rel scope ba barr) s = execColl p d a tag evt outq acq rel scope ba barr s := rfl
theorem exec_mdesc (p : Option Pfx) (md : BitVec 3) (a : Sel) (sp : Bool) (s : State) :
    exec (.mdesc p md a sp) s = execMdesc p md a sp s := rfl
theorem exec_msign (p : Option Pfx) (cv : BitVec 3) (s : State) :
    exec (.msign p cv) s = execMsign p cv s := rfl
theorem exec_mma (p : Option Pfx) (md cv : BitVec 3) (evt acq rel : Bool) (scope : BitVec 3) (s : State) :
    exec (.mma p md cv evt acq rel scope) s = execMma p md cv evt acq rel scope s := rfl
theorem exec_mmaElect (p : Option Pfx) (md : BitVec 3) (evt acq rel : Bool) (scope : BitVec 3) (s : State) :
    exec (.mmaElect p md evt acq rel scope) s = execMmaElect p md evt acq rel scope s := rfl
theorem exec_maccInit (p : Option Pfx) (d : Sel) (md : BitVec 3) (s : State) :
    exec (.maccInit p d md) s = execMaccInit p d md s := rfl
theorem exec_maccFlush (p : Option Pfx) (d a : Sel) (md : BitVec 3) (keep evt : Bool) (scope : BitVec 3) (s : State) :
    exec (.maccFlush p d a md keep evt scope) s = execMaccFlush p d a md keep evt scope s := rfl
theorem exec_mrow (p : Option Pfx) (d : Sel) (s : State) :
    exec (.mrow p d) s = execMrow p d s := rfl
theorem exec_mrowWait (p : Option Pfx) (d : Sel) (md : BitVec 3) (s : State) :
    exec (.mrowWait p d md) s = execMrowWait p d md s := rfl
theorem exec_nwant (p : Option Pfx) (d a b : Sel) (s : State) :
    exec (.nwant p d a b) s = execNwant p d a b s := rfl
theorem exec_noffer (p : Option Pfx) (d a b : Sel) (s : State) :
    exec (.noffer p d a b) s = execNoffer p d a b s := rfl
theorem exec_nclose (p : Option Pfx) (a b : Sel) (s : State) :
    exec (.nclose p a b) s = execNclose p a b s := rfl
theorem exec_ncloseImm (p : Option Pfx) (a b : Sel) (imm : BitVec 30) (s : State) :
    exec (.ncloseImm p a b imm) s = execNcloseImm p a b imm s := rfl
theorem exec_nlife (p : Option Pfx) (a : Sel) (s : State) :
    exec (.nlife p a) s = execNlife p a s := rfl
theorem exec_nlifeImm (p : Option Pfx) (a : Sel) (imm : BitVec 30) (s : State) :
    exec (.nlifeImm p a imm) s = execNlifeImm p a imm s := rfl
theorem exec_mland (p : Option Pfx) (d a b : Sel) (port : BitVec 3) (ba : Bool) (barr : BitVec 4) (s : State) :
    exec (.mland p d a b port ba barr) s = execMland p d a b port ba barr s := rfl
theorem exec_freeze (s : State) :
    exec (.freeze) s = execFreeze s := rfl
theorem exec_freezeNested (a : Sel) (s : State) :
    exec (.freezeNested a) s = execFreezeNested a s := rfl
theorem exec_next (s : State) :
    exec (.next) s = execNext s := rfl
theorem exec_convInit (cv : BitVec 3) (a : Sel) (s : State) :
    exec (.convInit cv a) s = execConvInit cv a s := rfl
theorem exec_convInitImm (cv : BitVec 3) (a : Sel) (imm : BitVec 30) (s : State) :
    exec (.convInitImm cv a imm) s = execConvInitImm cv a imm s := rfl
theorem exec_barrInit (k : BitVec 4) (a b : Sel) (s : State) :
    exec (.barrInit k a b) s = execBarrInit k a b s := rfl
theorem exec_barrInitImm (k : BitVec 4) (a b : Sel) (imm : BitVec 30) (s : State) :
    exec (.barrInitImm k a b imm) s = execBarrInitImm k a b imm s := rfl
theorem exec_barrArrive (k : BitVec 4) (s : State) :
    exec (.barrArrive k) s = execBarrArrive k s := rfl
theorem exec_barrWait (k : BitVec 4) (a : Sel) (s : State) :
    exec (.barrWait k a) s = execBarrWait k a s := rfl
theorem exec_barrWaitImm (k : BitVec 4) (a : Sel) (imm : BitVec 30) (s : State) :
    exec (.barrWaitImm k a imm) s = execBarrWaitImm k a imm s := rfl
theorem exec_barrTest (q : BitVec 3) (a : Sel) (k : BitVec 4) (s : State) :
    exec (.barrTest q a k) s = execBarrTest q a k s := rfl
theorem exec_barrTestImm (q : BitVec 3) (a : Sel) (k : BitVec 4) (imm : BitVec 30) (s : State) :
    exec (.barrTestImm q a k imm) s = execBarrTestImm q a k imm s := rfl
theorem exec_movs (d a : Sel) (s : State) :
    exec (.movs d a) s = execMovs d a s := rfl
theorem exec_mtsr (d a : Sel) (s : State) :
    exec (.mtsr d a) s = execMtsr d a s := rfl
theorem exec_wbase (a : Sel) (s : State) :
    exec (.wbase a) s = execWbase a s := rfl
theorem exec_wbaseImm (a : Sel) (imm : BitVec 30) (s : State) :
    exec (.wbaseImm a imm) s = execWbaseImm a imm s := rfl
theorem exec_rfree (a b : Sel) (s : State) :
    exec (.rfree a b) s = execRfree a b s := rfl
theorem exec_region (i : BitVec 12) (s : State) :
    exec (.region idx) s = execRegion idx s := rfl
theorem exec_preq (d a b c : Sel) (s : State) :
    exec (.preq d a b c) s = execPreq d a b c s := rfl
theorem exec_boost (d a : Sel) (s : State) :
    exec (.boost d a) s = execBoost d a s := rfl
theorem exec_sysc (d a b : Sel) (s : State) :
    exec (.sysc d a b) s = execSysc d a b s := rfl
theorem exec_syscImm (d a b : Sel) (imm : BitVec 30) (s : State) :
    exec (.syscImm d a b imm) s = execSyscImm d a b imm s := rfl
theorem exec_tret (s : State) :
    exec (.tret) s = execTret s := rfl
theorem exec_halt (a : Sel) (s : State) :
    exec (.halt a) s = execHalt a s := rfl
theorem exec_tmark (a : Sel) (s : State) :
    exec (.tmark a) s = execTmark a s := rfl
theorem exec_tmarkImm (a : Sel) (imm : BitVec 30) (s : State) :
    exec (.tmarkImm a imm) s = execTmarkImm a imm s := rfl
theorem exec_bload (a b c : Sel) (barr : BitVec 4) (s : State) :
    exec (.bload a b c barr) s = execBload a b c barr s := rfl
theorem exec_binAgeExpiry (ci sp bin : Nat) (s : State) :
    exec (.binAgeExpiry ci sp bin) s = execBinAgeExpiry ci sp bin s := rfl
theorem exec_loadComplete (co id : Nat) (s : State) :
    exec (.loadComplete co id) s = execLoadComplete co id s := rfl
theorem exec_divRemComplete (co id : Nat) (s : State) :
    exec (.divRemComplete co id) s = execDivRemComplete co id s := rfl
theorem exec_multicycleComplete (co id : Nat) (s : State) :
    exec (.multicycleComplete co id) s = execMulticycleComplete co id s := rfl
theorem exec_queueStall (co g : Nat) (s : State) :
    exec (.queueStall co g) s = execQueueStall co g s := rfl
theorem exec_copy (id : Nat) (s : State) :
    exec (.copy id) s = execCopy id s := rfl
theorem exec_decryptingCopy (id : Nat) (s : State) :
    exec (.decryptingCopy id) s = execDecryptingCopy id s := rfl
theorem exec_gather (id : Nat) (s : State) :
    exec (.gather id) s = execGather id s := rfl
theorem exec_collective (id : Nat) (peers : List (List DWord)) (tagFail : Bool) (s : State) :
    exec (.collective id peers tagFail) s = execCollective id peers tagFail s := rfl
theorem exec_signal (id : Nat) (s : State) :
    exec (.signal id) s = execSignal id s := rfl
theorem exec_engineCommandComplete (id : Nat) (s : State) :
    exec (.engineCommandComplete id) s = execEngineCommandComplete id s := rfl
theorem exec_matrixOperation (ci sp : Nat) (s : State) :
    exec (.matrixOperation ci sp) s = execMatrixOperation ci sp s := rfl
theorem exec_matrixOperationComplete (ci sp : Nat) (s : State) :
    exec (.matrixOperationComplete ci sp) s = execMatrixOperationComplete ci sp s := rfl
theorem exec_slicePartialAdd (id : Nat) (s : State) :
    exec (.slicePartialAdd id) s = execSlicePartialAdd id s := rfl
theorem exec_messageArrive (id : Nat) (s : State) :
    exec (.messageArrive id) s = execMessageArrive id s := rfl
theorem exec_multicastDelivery (id ci : Nat) (s : State) :
    exec (.multicastDelivery id ci) s = execMulticastDelivery id ci s := rfl
theorem exec_multicastSendComplete (id : Nat) (s : State) :
    exec (.multicastSendComplete id) s = execMulticastSendComplete id s := rfl
theorem exec_bloadLand (id line : Nat) (s : State) :
    exec (.bloadLand id line) s = execBloadLand id line s := rfl
theorem exec_interestRecord (id : Nat) (s : State) :
    exec (.interestRecord id) s = execInterestRecord id s := rfl
theorem exec_tileReturn (id : Nat) (s : State) :
    exec (.tileReturn id) s = execTileReturn id s := rfl
theorem exec_interestDeadline (name : DWord) (s : State) :
    exec (.interestDeadline name) s = execInterestDeadline name s := rfl
theorem exec_nestedFreezeResume (co : Nat) (s : State) :
    exec (.nestedFreezeResume co) s = execNestedFreezeResume co s := rfl
theorem exec_hangReport (ci : Nat) (s : State) :
    exec (.hangReport ci) s = execHangReport ci s := rfl
theorem exec_droopFire (ci : Nat) (peak : BitVec 8) (s : State) :
    exec (.droopFire ci peak) s = execDroopFire ci peak s := rfl
theorem exec_droopStretchEnd (ci : Nat) (s : State) :
    exec (.droopStretchEnd ci) s = execDroopStretchEnd ci s := rfl
theorem exec_halvedIssueEnd (ci : Nat) (s : State) :
    exec (.halvedIssueEnd ci) s = execHalvedIssueEnd ci s := rfl
theorem exec_clockHop (ci : Nat) (s : State) :
    exec (.clockHop ci) s = execClockHop ci s := rfl
theorem exec_hopComplete (ci : Nat) (s : State) :
    exec (.hopComplete ci) s = execHopComplete ci s := rfl
theorem exec_cluClkWrite (ci : Nat) (v : Word) (s : State) :
    exec (.cluClkWrite ci v) s = execCluClkWrite ci v s := rfl
theorem exec_drpCtlWrite (ci : Nat) (v : Word) (s : State) :
    exec (.drpCtlWrite ci v) s = execDrpCtlWrite ci v s := rfl
theorem exec_lchQtailWrite (fn q : Nat) (v : BitVec 16) (s : State) :
    exec (.lchQtailWrite fn q v) s = execLchQtailWrite fn q v s := rfl
theorem exec_lchQcfgWrite (q : Nat) (v : Word) (s : State) :
    exec (.lchQcfgWrite q v) s = execLchQcfgWrite q v s := rfl
theorem exec_launchAccept (q : Nat) (s : State) :
    exec (.launchAccept q) s = execLaunchAccept q s := rfl
theorem exec_launchStart (seq : Nat) (s : State) :
    exec (.launchStart seq) s = execLaunchStart seq s := rfl
theorem exec_placeCohort (seq : Nat) (s : State) :
    exec (.placeCohort seq) s = execPlaceCohort seq s := rfl
theorem exec_cohortRetire (co : Nat) (s : State) :
    exec (.cohortRetire co) s = execCohortRetire co s := rfl
theorem exec_gridComplete (seq : Nat) (s : State) :
    exec (.gridComplete seq) s = execGridComplete seq s := rfl
theorem exec_yieldRequest (co seq : Nat) (s : State) :
    exec (.yieldRequest co seq) s = execYieldRequest co seq s := rfl
theorem exec_drainLimitExpiry (co key : Nat) (s : State) :
    exec (.drainLimitExpiry co key) s = execDrainLimitExpiry co key s := rfl
theorem exec_yieldSave (co : Nat) (s : State) :
    exec (.yieldSave co) s = execYieldSave co s := rfl
theorem exec_faultReplay (ctx page : Nat) (s : State) :
    exec (.faultReplay ctx page) s = execFaultReplay ctx page s := rfl
theorem exec_faultDecline (ctx page : Nat) (s : State) :
    exec (.faultDecline ctx page) s = execFaultDecline ctx page s := rfl
theorem exec_invalidateContext (ctx : Nat) (s : State) :
    exec (.invalidateContext ctx) s = execInvalidateContext ctx s := rfl
theorem exec_invalidatePage (ctx page : Nat) (s : State) :
    exec (.invalidatePage ctx page) s = execInvalidatePage ctx page s := rfl
theorem exec_invalidateAll (s : State) :
    exec (.invalidateAll) s = execInvalidateAll s := rfl
theorem exec_migratePage (ctx page : Nat) (s : State) :
    exec (.migratePage ctx page) s = execMigratePage ctx page s := rfl
theorem exec_teardown (ctx : Nat) (s : State) :
    exec (.teardown ctx) s = execTeardown ctx s := rfl
theorem exec_xltCmdComplete (s : State) :
    exec (.xltCmdComplete) s = execXltCmdComplete s := rfl
theorem exec_reg128StagingWrite (r : Reg128) (word : Nat) (wide : Bool) (v : DWord) (s : State) :
    exec (.reg128StagingWrite r word wide v) s = execReg128StagingWrite r word wide v s := rfl
theorem exec_reg128LowRead (r : Reg128) (s : State) :
    exec (.reg128LowRead r) s = execReg128LowRead r s := rfl
theorem exec_nrtEntWrite (i : Nat) (wide : Bool) (v : DWord) (s : State) :
    exec (.nrtEntWrite idx wide v) s = execNrtEntWrite idx wide v s := rfl
theorem exec_fabCgrpWrite (g : Nat) (wide : Bool) (v : DWord) (reports : List SwitchReport) (s : State) :
    exec (.fabCgrpWrite g wide v reports) s = execFabCgrpWrite g wide v reports s := rfl
theorem exec_mcSwrefWrite (v : DWord) (reports : List (Nat × List SwitchReport)) (s : State) :
    exec (.mcSwrefWrite v reports) s = execMcSwrefWrite v reports s := rfl
theorem exec_switchSessionClose (ident : Digest) (s : State) :
    exec (.switchSessionClose ident) s = execSwitchSessionClose ident s := rfl
theorem exec_secSpWorldWrite (ci : Nat) (v : Word) (s : State) :
    exec (.secSpWorldWrite ci v) s = execSecSpWorldWrite ci v s := rfl
theorem exec_slcWaymapWrite (die : Nat) (v : DWord) (s : State) :
    exec (.slcWaymapWrite die v) s = execSlcWaymapWrite die v s := rfl
theorem exec_lockInterfaceRequest (n : Nat) (s : State) :
    exec (.lockInterfaceRequest n) s = execLockInterfaceRequest n s := rfl
theorem exec_startInterfaceRequest (n : Nat) (s : State) :
    exec (.startInterfaceRequest n) s = execStartInterfaceRequest n s := rfl
theorem exec_stopInterfaceRequest (n : Nat) (s : State) :
    exec (.stopInterfaceRequest n) s = execStopInterfaceRequest n s := rfl
theorem exec_ideFailure (stream : Option Nat) (s : State) :
    exec (.ideFailure stream) s = execIdeFailure stream s := rfl
theorem exec_hostMemoryRead (pa len : Nat) (s : State) :
    exec (.hostMemoryRead pa len) s = execHostMemoryRead pa len s := rfl
theorem exec_hostMemoryWrite (pa : Nat) (bytes : List Byte) (s : State) :
    exec (.hostMemoryWrite pa bytes) s = execHostMemoryWrite pa bytes s := rfl
theorem exec_getVersion (s : State) :
    exec (.getVersion) s = execGetVersion s := rfl
theorem exec_getCapabilities (s : State) :
    exec (.getCapabilities) s = execGetCapabilities s := rfl
theorem exec_negotiateAlgorithms (s : State) :
    exec (.negotiateAlgorithms) s = execNegotiateAlgorithms s := rfl
theorem exec_getDigests (s : State) :
    exec (.getDigests) s = execGetDigests s := rfl
theorem exec_getCertificate (s : State) :
    exec (.getCertificate) s = execGetCertificate s := rfl
theorem exec_challenge (nonce : Digest) (s : State) :
    exec (.challenge nonce) s = execChallenge nonce s := rfl
theorem exec_getMeasurements (nonce : Digest) (s : State) :
    exec (.getMeasurements nonce) s = execGetMeasurements nonce s := rfl
theorem exec_keyExchange (fn : Nat) (s : State) :
    exec (.keyExchange fn) s = execKeyExchange fn s := rfl
theorem exec_finish (sess : Nat) (s : State) :
    exec (.finish sess) s = execFinish sess s := rfl
theorem exec_keyUpdate (sess : Nat) (s : State) :
    exec (.keyUpdate sess) s = execKeyUpdate sess s := rfl
theorem exec_heartbeat (sess : Nat) (s : State) :
    exec (.heartbeat sess) s = execHeartbeat sess s := rfl
theorem exec_endSession (sess : Nat) (s : State) :
    exec (.endSession sess) s = execEndSession sess s := rfl
theorem exec_keySet (sess slot world ctx : Nat) (key : Digest) (s : State) :
    exec (.keySet sess slot world ctx key) s = execKeySet sess slot world ctx key s := rfl
theorem exec_keyClear (sess slot : Nat) (s : State) :
    exec (.keyClear sess slot) s = execKeyClear sess slot s := rfl
theorem exec_jobEvidenceRequest (v : Word) (s : State) :
    exec (.jobEvidenceRequest v) s = execJobEvidenceRequest v s := rfl
theorem exec_portHealthSample (port : Nat) (eye : BitVec 8) (cfr : BitVec 24) (ttf : Word) (s : State) :
    exec (.portHealthSample port eye cfr ttf) s = execPortHealthSample port eye cfr ttf s := rfl
theorem exec_linkRetrainComplete (port : Nat) (s : State) :
    exec (.linkRetrainComplete port) s = execLinkRetrainComplete port s := rfl
theorem exec_retentionEntry (arr : RetArray) (s : State) :
    exec (.retentionEntry arr) s = execRetentionEntry arr s := rfl
theorem exec_retentionExit (arr : RetArray) (waited : Nat) (s : State) :
    exec (.retentionExit arr waited) s = execRetentionExit arr waited s := rfl
theorem exec_pwrIslVsetWrite (die isl : Nat) (v : Word) (s : State) :
    exec (.pwrIslVsetWrite die isl v) s = execPwrIslVsetWrite die isl v s := rfl
theorem exec_pwrIslFsetWrite (die isl : Nat) (v : Word) (s : State) :
    exec (.pwrIslFsetWrite die isl v) s = execPwrIslFsetWrite die isl v s := rfl
theorem exec_synthLockComplete (die isl : Nat) (s : State) :
    exec (.synthLockComplete die isl) s = execSynthLockComplete die isl s := rfl
theorem exec_voltageStep (die isl : Nat) (s : State) :
    exec (.voltageStep die isl) s = execVoltageStep die isl s := rfl
theorem exec_stageTelemetryRefresh (vi0 te0 vi1 te1 : DWord) (s : State) :
    exec (.stageTelemetryRefresh vi0 te0 vi1 te1) s = execStageTelemetryRefresh vi0 te0 vi1 te1 s := rfl
theorem exec_islandTelemetryRefresh (die isl : Nat) (v : DWord) (s : State) :
    exec (.islandTelemetryRefresh die isl v) s = execIslandTelemetryRefresh die isl v s := rfl
theorem exec_stallWindow (ci : Nat) (s : State) :
    exec (.stallWindow ci) s = execStallWindow ci s := rfl
theorem exec_powerBoundary (read written : Nat) (table : Option Bool) (s : State) :
    exec (.powerBoundary read written table) s = execPowerBoundary read written table s := rfl
theorem exec_memoryRailSample (watts : Nat) (s : State) :
    exec (.memoryRailSample watts) s = execMemoryRailSample watts s := rfl
theorem exec_diePowerSample (die : Nat) (s : State) :
    exec (.diePowerSample die) s = execDiePowerSample die s := rfl
theorem exec_thermalClampStart (die isl : Nat) (temp : BitVec 12) (s : State) :
    exec (.thermalClampStart die isl temp) s = execThermalClampStart die isl temp s := rfl
theorem exec_thermalTrip (die isl : Nat) (temp : BitVec 12) (s : State) :
    exec (.thermalTrip die isl temp) s = execThermalTrip die isl temp s := rfl
theorem exec_thermalRecover (die isl : Nat) (temp : BitVec 12) (s : State) :
    exec (.thermalRecover die isl temp) s = execThermalRecover die isl temp s := rfl
theorem exec_boostEnd (die isl : Nat) (s : State) :
    exec (.boostEnd die isl) s = execBoostEnd die isl s := rfl
theorem exec_policyAnswer (v : DWord) (s : State) :
    exec (.policyAnswer v) s = execPolicyAnswer v s := rfl
theorem exec_wearBoundary (activity : List (Nat × Nat)) (s : State) :
    exec (.wearBoundary activity) s = execWearBoundary activity s := rfl
theorem exec_wearUpdateComplete (s : State) :
    exec (.wearUpdateComplete) s = execWearUpdateComplete s := rfl
theorem exec_restStart (ci : Nat) (s : State) :
    exec (.restStart ci) s = execRestStart ci s := rfl
theorem exec_restEnd (ci : Nat) (s : State) :
    exec (.restEnd ci) s = execRestEnd ci s := rfl
theorem exec_wearReport (v : DWord) (s : State) :
    exec (.wearReport v) s = execWearReport v s := rfl
theorem exec_bbxCommitRequest (v : DWord) (s : State) :
    exec (.bbxCommitRequest v) s = execBbxCommitRequest v s := rfl
theorem exec_bbxDump (v : DWord) (s : State) :
    exec (.bbxDump v) s = execBbxDump v s := rfl
theorem exec_inputUndervoltage (s : State) :
    exec (.inputUndervoltage) s = execInputUndervoltage s := rfl
theorem exec_mcWatchdogExpiry (s : State) :
    exec (.mcWatchdogExpiry) s = execMcWatchdogExpiry s := rfl
theorem exec_powerOn (fwOk stacksOk : Bool) (s : State) :
    exec (.powerOn fwOk stacksOk) s = execPowerOn fwOk stacksOk s := rfl
theorem exec_packageReset (cause : ResetCause) (signed stks : Bool) (s : State) :
    exec (.packageReset cause signed stks) s = execPackageReset cause signed stks s := rfl
theorem exec_vfFlr (n : Nat) (s : State) :
    exec (.vfFlr n) s = execVfFlr n s := rfl
theorem exec_clusterSpareCall (v : Word) (s : State) :
    exec (.clusterSpareCall v) s = execClusterSpareCall v s := rfl
theorem exec_clusterSpareSwitch (s : State) :
    exec (.clusterSpareSwitch) s = execClusterSpareSwitch s := rfl
theorem exec_sliceSpareCall (v : Word) (s : State) :
    exec (.sliceSpareCall v) s = execSliceSpareCall v s := rfl
theorem exec_rcRead (r : RcReg) (i : Nat) (s : State) :
    exec (.rcRead r idx) s = execRcRead r idx s := rfl
theorem exec_registerWrite (r : RwReg) (i : Nat) (v : DWord) (s : State) :
    exec (.registerWrite r idx v) s = execRegisterWrite r idx v s := rfl
theorem exec_illegalOp (w : BadWords) (s : State) :
    exec (.illegalOp w) s = execIllegalOp w s := rfl
theorem exec_flushComplete (co id : Nat) (s : State) :
    exec (.flushComplete co id) s = execFlushComplete co id s := rfl
theorem exec_statusDestinationFull (co id : Nat) (s : State) :
    exec (.statusDestinationFull co id) s = execStatusDestinationFull co id s := rfl
theorem exec_droopRearm (ci : Nat) (s : State) :
    exec (.droopRearm ci) s = execDroopRearm ci s := rfl
theorem exec_hubUncorrectableError (mram : Bool) (s : State) :
    exec (.hubUncorrectableError mram) s = execHubUncorrectableError mram s := rfl
theorem exec_blackBoxCommitComplete (s : State) :
    exec (.blackBoxCommitComplete) s = execBlackBoxCommitComplete s := rfl

end Sys2Proof.Machine
end

