-- ==== Sys2Proof/Laws/Groups.lean ====
section
/-!
SUPPORT. Issue groups after an issue (R239): what regrouping can do to a cohort, and the end of an issue.
-/

namespace Sys2Proof.Machine

/-- A cohort in which the threads `ks` have moved by `h` into issue groups, and nothing else has changed. -/
structure Moved (c d : Cohort) (ks : List Nat) (h : Nat → Thread → Thread) : Prop where
  rest : d = { c with threads := d.threads, groups := d.groups, fresh := d.fresh }
  on   : MovedOn c d ks h

theorem Moved.here {c d : Cohort} {ks : List Nat} {h : Nat → Thread → Thread} (m : Moved c d ks h) :
    ∀ k u, c.thread? k = some u → k ∈ ks → ∃ g, d.thread? k = some { h k u with run := .group g } := m.on.here

theorem Moved.away {c d : Cohort} {ks : List Nat} {h : Nat → Thread → Thread} (m : Moved c d ks h) :
    ∀ k, k ∉ ks → d.thread? k = c.thread? k := m.on.away

theorem MovedOn.threads {c d : Cohort} {ks js : List Nat} {h : Nat → Thread → Thread} (m : MovedOn c d ks h)
    (e : ∀ k, k ∈ ks ↔ k ∈ js) : MovedOn c d js h :=
  ⟨fun k u hu hk => m.here k u hu ((e k).2 hk), fun k hk => m.away k fun h => hk ((e k).1 h),
    fun j k u v hu hv hj hk => m.one j k u v hu hv ((e j).2 hj) ((e k).2 hk)⟩

theorem mem_byLane {k : Nat} {ks : List Nat} : k ∈ byLane ks ↔ k ∈ ks := by
  simp only [byLane, List.mem_flatMap, List.mem_range, List.mem_filter, beq_iff_eq]
  exact ⟨fun ⟨_, _, h, _⟩ => h, fun h => ⟨k % 32, Nat.mod_lt _ (by decide), h, rfl⟩⟩

theorem Cohort.tidy_rest (c : Cohort) : c.tidy = { c with groups := c.tidy.groups } := rfl

/-- Threads that become one issue group. -/
theorem State.groupUp_spec {s : State} {co : Nat} {c : Cohort} (ks : List Nat) (hc : find? s.cohorts co = some c) :
    (∀ ci, Aside co ci s (s.groupUp co ks)) ∧ ∃ d, find? (s.groupUp co ks).cohorts co = some d ∧
      Moved c d ks (fun _ u => u) ∧ ∃ g, ∀ k u, c.thread? k = some u → k ∈ ks → (d.thread? k).map Thread.run = some (.group g) := by
  cases ks with
  | nil =>
    simp only [State.groupUp]
    exact ⟨fun ci => Aside.refl .., c, hc, ⟨rfl, by simp, by simp, by simp⟩, 0, by simp⟩
  | cons k ks =>
    simp only [State.groupUp, hc]
    refine ⟨fun ci => (Aside.setCohort co ci s _).trans (Aside.fresh co ci _ _), _, by simp only [State.setCohort, find?_insert_self]; rfl, ?_⟩
    have hin : ∀ j u, c.thread? j = some u → j ∈ k :: ks →
        find? (mapVals c.threads fun k_1 t => if (k :: ks).contains k_1 then { t with run := .group c.fresh } else t) j =
          some { u with run := .group c.fresh } := by
      intro j u hu hj
      simp only [Cohort.thread?] at hu
      rw [find?_mapVals, hu]
      simp [hj]
    refine ⟨⟨rfl, fun j u hu hj => ⟨c.fresh, hin j u hu hj⟩, ?_, ?_⟩, c.fresh, ?_⟩
    · intro j hj
      simp only [Cohort.tidy, Cohort.thread?]
      rw [find?_mapVals]
      simp only [List.mem_cons, not_or] at hj
      cases find? c.threads j <;> simp [hj.1, hj.2]
    · intro i j u v hu hv hi hj _
      exact (congrArg (Option.map Thread.run) (hin i u hu hi)).trans (congrArg (Option.map Thread.run) (hin j v hv hj)).symm
    · intro j u hu hj
      exact congrArg (Option.map Thread.run) (hin j u hu hj)

theorem State.groupUp_none {s : State} {co : Nat} {c : Cohort} (ks : List Nat) (hc : find? s.cohorts co = some c) (k : Nat)
    (hk : c.thread? k = none) : ∃ d, find? (s.groupUp co ks).cohorts co = some d ∧ d.thread? k = none := by
  cases ks with
  | nil => exact ⟨c, hc, hk⟩
  | cons j ks =>
    simp only [State.groupUp, hc]
    refine ⟨_, by simp only [State.setCohort, find?_insert_self]; rfl, ?_⟩
    simp only [Cohort.tidy, Cohort.thread?] at hk ⊢
    rw [find?_mapVals, hk]; rfl

/-- Threads grouped by address. -/
theorem State.groupAll_spec {co : Nat} (ks : List Nat) (pcOf : Nat → Option DWord) (as : List (Option DWord)) {s : State}
    {c : Cohort} (hc : find? s.cohorts co = some c) (hp : ∀ k u, c.thread? k = some u → pcOf k = some u.pc) :
    (∀ ci, Aside co ci s (as.foldl (fun s a => s.groupUp co (ks.filter fun k => pcOf k == a)) s)) ∧
      ∃ d, find? (as.foldl (fun s a => s.groupUp co (ks.filter fun k => pcOf k == a)) s).cohorts co = some d ∧
        Moved c d (ks.filter fun k => as.contains (pcOf k)) fun _ u => u := by
  induction as generalizing s c with
  | nil => exact ⟨fun ci => Aside.refl .., c, hc, rfl, by simp, by simp, by simp⟩
  | cons a as ih =>
    obtain ⟨h1, d, hd, hm, g0, hg0⟩ := State.groupUp_spec (ks.filter fun k => pcOf k == a) hc
    have hpd : ∀ k u, d.thread? k = some u → pcOf k = some u.pc := by
      intro k u hu
      cases hk : c.thread? k with
      | none =>
        exfalso
        by_cases hka : k ∈ ks.filter fun k => pcOf k == a
        · have := hm.rest
          have hnone : d.thread? k = none := by
            obtain ⟨d', hd', hr⟩ := State.groupUp_none (ks.filter fun k => pcOf k == a) hc k hk
            rw [hd] at hd'; cases hd'; exact hr
          rw [hnone] at hu; cases hu
        · rw [hm.away k hka, hk] at hu; cases hu
      | some v =>
        rw [hp k v hk]
        by_cases hka : k ∈ ks.filter fun k => pcOf k == a
        · obtain ⟨g, hg⟩ := hm.here k v hk hka
          rw [hg] at hu; cases hu; rfl
        · rw [hm.away k hka, hk] at hu; cases hu; rfl
    obtain ⟨h2, e, he, hm2⟩ := ih hd hpd
    refine ⟨fun ci => (h1 ci).trans (h2 ci), e, he, ?_, ?_, ?_, ?_⟩
    · exact hm2.rest.trans (congrArg (fun (z : Cohort) => { z with threads := e.threads, groups := e.groups, fresh := e.fresh }) hm.rest)
    · intro k u hu hk
      simp only [List.mem_filter, List.contains_eq_mem, decide_eq_true_eq] at hk
      by_cases hka : k ∈ ks.filter fun k => pcOf k == a
      · obtain ⟨g, hg⟩ := hm.here k u hu hka
        by_cases hk2 : k ∈ ks.filter fun k => as.contains (pcOf k)
        · obtain ⟨g2, hg2⟩ := hm2.here k _ hg hk2
          exact ⟨g2, hg2⟩
        · exact ⟨g, by rw [hm2.away k hk2, hg]⟩
      · have hu' : d.thread? k = some u := by rw [hm.away k hka, hu]
        refine hm2.here k u hu' ?_
        simp only [List.mem_filter, beq_iff_eq, not_and] at hka
        simp only [List.mem_filter, List.contains_eq_mem, decide_eq_true_eq]
        rcases List.mem_cons.1 hk.2 with h | h
        · exact absurd h (hka hk.1)
        · exact ⟨hk.1, h⟩
    · intro k hk
      have h1' : k ∉ ks.filter fun k => pcOf k == a := by
        intro h
        simp only [List.mem_filter, beq_iff_eq] at h
        exact hk (by simp [h.1, h.2])
      have h2' : k ∉ ks.filter fun k => as.contains (pcOf k) := by
        intro h
        simp only [List.mem_filter, List.contains_eq_mem, decide_eq_true_eq] at h
        exact hk (by simp [h.1, h.2])
      rw [hm2.away k h2', hm.away k h1']
    · intro i j u v hu hv hi hj hpc
      have hij : pcOf i = pcOf j := by rw [hp i u hu, hp j v hv, show u.pc = v.pc from hpc]
      have hmv : ∀ k u, c.thread? k = some u → ∃ w, d.thread? k = some w ∧ w.pc = u.pc := by
        intro k u hu
        by_cases hka : k ∈ ks.filter fun k => pcOf k == a
        · obtain ⟨g, hg⟩ := hm.here k u hu hka; exact ⟨_, hg, rfl⟩
        · exact ⟨u, by rw [hm.away k hka, hu], rfl⟩
      obtain ⟨u2, hu2, hpu⟩ := hmv i u hu
      obtain ⟨v2, hv2, hpv⟩ := hmv j v hv
      simp only [List.mem_filter] at hi hj
      by_cases has : as.contains (pcOf i) = true
      · exact hm2.on.one i j u2 v2 hu2 hv2 (List.mem_filter.2 ⟨hi.1, has⟩) (List.mem_filter.2 ⟨hj.1, hij ▸ has⟩)
          (hpu.trans (Eq.trans hpc hpv.symm))
      · have hni : ∀ k, pcOf k = pcOf i → k ∉ ks.filter fun k => as.contains (pcOf k) := by
          intro k hk h
          exact has (hk ▸ (List.mem_filter.1 h).2)
        rw [hm2.away i (hni i rfl), hm2.away j (hni j hij.symm)]
        have hia : pcOf i = a := by
          have := hi.2
          simp only [List.contains_eq_mem, decide_eq_true_eq] at this has
          rcases List.mem_cons.1 this with h | h
          · exact h
          · exact absurd h has
        rw [hg0 i u hu (List.mem_filter.2 ⟨hi.1, by simp [hia]⟩), hg0 j v hv (List.mem_filter.2 ⟨hj.1, by simp [← hij, hia]⟩)]

/-- Threads that go on together. -/
theorem State.regroup_spec {s : State} {co : Nat} {c : Cohort} (ks : List Nat) (hc : find? s.cohorts co = some c) :
    (∀ ci, Aside co ci s (s.regroup co ks)) ∧ ∃ d, find? (s.regroup co ks).cohorts co = some d ∧
      Moved c d ks fun _ u => u := by
  simp only [State.regroup, hc]
  obtain ⟨h1, d, hd, hm⟩ := State.groupAll_spec ks (fun k => (c.thread? k).map Thread.pc)
    ((ks.map fun k => (c.thread? k).map Thread.pc).eraseDups) hc (fun k u hu => by simp [hu])
  have e : (ks.filter fun k => ((ks.map fun k => (c.thread? k).map Thread.pc).eraseDups).contains
      ((c.thread? k).map Thread.pc)) = ks := by
    rw [List.filter_eq_self]
    intro k hk
    simp only [List.contains_eq_mem, List.mem_eraseDups, List.mem_map, decide_eq_true_eq]
    exact ⟨k, hk, rfl⟩
  rw [e] at hm
  exact ⟨h1, d, hd, hm⟩

/-- The groups of some threads after an issue. -/
theorem State.settle_spec {s : State} {co g : Nat} {c : Cohort} (ks : List Nat) (hc : find? s.cohorts co = some c) :
    (∀ ci, Aside co ci s (s.settle co g ks)) ∧ ∃ d, find? (s.settle co g ks).cohorts co = some d ∧
      Moved c d ks fun _ u => u := by
  have hlive : ∀ k u, c.thread? k = some u → k ∈ ks → k ∈ byLane (ks.filter fun k => (c.thread? k).isSome) := by
    intro k u hu hk
    rw [mem_byLane]
    simp [hk, hu]
  have widen : ∀ d : Cohort, Moved c d (byLane (ks.filter fun k => (c.thread? k).isSome)) (fun _ u => u) →
      Moved c d ks fun _ u => u := by
    intro d hm
    refine ⟨hm.rest, fun k u hu hk => hm.here k u hu (hlive k u hu hk), fun k hk => hm.away k ?_,
      fun j k u v hu hv hj hk => hm.on.one j k u v hu hv (hlive j u hu hj) (hlive k v hv hk)⟩
    rw [mem_byLane]
    intro h
    exact hk (List.mem_filter.1 h).1
  simp only [State.settle, hc]
  split
  · rename_i h
    refine ⟨fun ci => Aside.modCohort co ci s _, c.tidy, by simp [hc], ?_⟩
    suffices hno : ∀ k u, c.thread? k = some u → k ∈ ks → False from
      ⟨rfl, fun k u hu hk => (hno k u hu hk).elim, fun _ _ => rfl, fun j _ u _ hu _ hj _ _ => (hno j u hu hj).elim⟩
    intro k u hu hk
    have := hlive k u hu hk
    have : ((c.thread? k).map Thread.pc).getD 0 ∈ ((byLane (ks.filter fun k => (c.thread? k).isSome)).map fun k =>
        ((c.thread? k).map Thread.pc).getD 0).eraseDups := by
      rw [List.mem_eraseDups, List.mem_map]; exact ⟨k, this, rfl⟩
    rw [h] at this
    cases this
  · split
    · refine ⟨fun ci => ((Aside.modThreads co ci s _ _).trans (Aside.modCohort co ci _ _)).trans (Aside.fresh co ci _ _), ?_⟩
      refine ⟨_, by simp only [State.cohort_modCohort, State.modThreads, hc, Option.map_some]; rfl, widen _ ?_⟩
      have hin : ∀ k u, c.thread? k = some u → k ∈ byLane (ks.filter fun k => (c.thread? k).isSome) →
          find? (c.threads.map fun p => if (byLane (ks.filter fun k => (c.thread? k).isSome)).contains p.1 then
            (p.1, { p.2 with run := .group g }) else p) k = some { u with run := .group g } := by
        intro k u hu hk
        have e := find?_mapIf c.threads (byLane (ks.filter fun k => (c.thread? k).isSome)) (fun _ t => { t with run := .group g }) k
        rw [if_pos hk, show find? c.threads k = some u from hu] at e
        exact e
      refine ⟨rfl, fun k u hu hk => ⟨g, hin k u hu hk⟩, ?_, fun i j u v hu hv hi hj _ =>
        (congrArg (Option.map Thread.run) (hin i u hu hi)).trans (congrArg (Option.map Thread.run) (hin j v hv hj)).symm⟩
      · intro k hk
        have e := find?_mapIf c.threads (byLane (ks.filter fun k => (c.thread? k).isSome)) (fun _ t => { t with run := .group g }) k
        rw [if_neg hk] at e
        exact e
    · obtain ⟨h1, d, hd, hm⟩ := State.regroup_spec (byLane (ks.filter fun k => (c.thread? k).isSome)) hc
      exact ⟨h1, d, hd, widen d hm⟩
  · obtain ⟨h1, d, hd, hm⟩ := State.regroup_spec (byLane (ks.filter fun k => (c.thread? k).isSome)) hc
    exact ⟨h1, d, hd, widen d hm⟩

/-- Threads changed and then grouped. -/
theorem State.moveSettle_spec {s : State} {co g : Nat} {c : Cohort} (ks : List Nat) (f : Nat → Thread → Thread)
    (hc : find? s.cohorts co = some c) :
    (∀ ci, Aside co ci s ((s.modThreads co ks f).settle co g ks)) ∧
      ∃ d, find? ((s.modThreads co ks f).settle co g ks).cohorts co = some d ∧ Moved c d ks f := by
  have hc1 : find? (s.modThreads co ks f).cohorts co =
      some { c with threads := c.threads.map fun p => if ks.contains p.1 then (p.1, f p.1 p.2) else p } := by
    simp [State.modThreads, hc]
  obtain ⟨h1, d, hd, hm⟩ := State.settle_spec (g := g) ks hc1
  have hin : ∀ k u, c.thread? k = some u → k ∈ ks →
      find? (c.threads.map fun p => if ks.contains p.1 then (p.1, f p.1 p.2) else p) k = some (f k u) := by
    intro k u hu hk
    simp only [Cohort.thread?] at hu
    rw [find?_mapIf, if_pos hk, hu]
    rfl
  refine ⟨fun ci => (Aside.modThreads co ci s ks f).trans (h1 ci), d, hd, ?_, fun k u hu hk => hm.here k (f k u) (hin k u hu hk) hk, ?_,
    fun i j u v hu hv hi hj => hm.on.one i j _ _ (hin i u hu hi) (hin j v hv hj) hi hj⟩
  · rw [hm.rest]
  · intro k hk
    rw [hm.away k hk]
    simp only [Cohort.thread?]
    rw [find?_mapIf, if_neg hk]

/-- The end of an instruction for threads without a transfer (R98). -/
theorem State.retire_spec {s : State} {x : Issue} {c : Cohort} (ks : List Nat) (hc : find? s.cohorts x.co = some c) :
    (∀ ci, Aside x.co ci s (s.retire x ks)) ∧ ∃ d, find? (s.retire x ks).cohorts x.co = some d ∧
      Moved c d ks fun _ u => u.advance x.len :=
  State.moveSettle_spec ks (fun _ u => u.advance x.len) hc

theorem State.takeTraps_nil (s : State) (co g : Nat) : s.takeTraps co g [] = s := rfl

/-- The end of an issue without traps. -/
theorem State.close_spec {s : State} {x : Issue} {c : Cohort} (ks : List Nat) (hc : find? s.cohorts x.co = some c)
    (hk : ks ≠ []) :
    (∀ ci, Aside x.co ci s (s.close x ks [])) ∧ ∃ d, find? (s.close x ks []).cohorts x.co = some d ∧
      Moved c d ks fun _ u => u.advance x.len := by
  have : ks.isEmpty = false := by cases ks <;> simp_all
  simp only [State.close, this, Bool.false_eq_true, if_false, State.takeTraps_nil]
  exact State.retire_spec ks hc

end Sys2Proof.Machine
end

