-- ==== Sys2Proof/Laws/Issue.lean ====
section
/-!
SUPPORT. The parts of an issue: the write of a slot destination, the regrouping of its threads, and the operand
step where every operand is a register or a constant.
-/

namespace Sys2Proof.Machine

/-! The write of a destination. -/

/-- What a slot destination's lane words are in a cohort. -/
def Cohort.holds (d : Cohort) (o : Dst) (c : Cohort) (k v : Nat) : Prop :=
  d.vreg k (c.regOf k o.sel) = (BitVec.ofNat 32 v, false) ∧
    (o.wide = true → d.vreg k (c.regOf k o.sel + 1) = (BitVec.ofNat 32 (v / 2 ^ 32), false))

theorem Cohort.slot_mem (c : Cohort) (k : Nat) (o : Dst) : c.regOf k o.sel ∈ c.dstRegs k o := by
  simp only [Cohort.dstRegs]; split <;> simp

theorem Cohort.pair_mem (c : Cohort) (k : Nat) (o : Dst) (h : o.wide = true) : c.regOf k o.sel + 1 ∈ c.dstRegs k o := by
  simp [Cohort.dstRegs, h]

/-- A cohort whose registers differ only in lane words of `ks` at the destination. -/
structure Put (c d : Cohort) (o : Dst) (ks : List Nat) : Prop where
  rest  : d = { c with crews := d.crews }
  reads : ∀ k r, ¬ (k ∈ ks ∧ r ∈ c.dstRegs k o) → d.vreg k r = c.vreg k r
  keeps : ∀ w r, (c.phys? w r).isSome → (d.phys? w r).isSome

theorem Put.refl (c : Cohort) (o : Dst) (ks : List Nat) : Put c c o ks := ⟨rfl, fun _ _ _ => rfl, fun _ _ h => h⟩

theorem Put.trans {c d e : Cohort} {o : Dst} {ks : List Nat} (h : Put c d o ks) (g : Put d e o ks) : Put c e o ks where
  rest := g.rest.trans (congrArg (fun (z : Cohort) => { z with crews := e.crews }) h.rest)
  reads k r hn := by
    have : d.dstRegs k o = c.dstRegs k o := by
      have : d.regOf k o.sel = c.regOf k o.sel := by rw [h.rest]; rfl
      simp only [Cohort.dstRegs, this]
    rw [g.reads k r (by rw [this]; exact hn), h.reads k r hn]
  keeps w r hw := g.keeps w r (h.keeps w r hw)

theorem Put.mono {c d : Cohort} {o : Dst} {ks js : List Nat} (h : Put c d o ks) (hs : ∀ k ∈ ks, k ∈ js) : Put c d o js :=
  ⟨h.rest, fun k r hn => h.reads k r fun ⟨a, b⟩ => hn ⟨hs k a, b⟩, h.keeps⟩

theorem Put.putLane (c : Cohort) (o : Dst) (k r : Nat) (v : Word) (ks : List Nat) (hk : k ∈ ks) (hr : r ∈ c.dstRegs k o)
    (hm : (c.phys? (k / 32) r).isSome) : Put c (c.putLane k r v) o ks where
  rest := rfl
  reads j q hn := by
    rw [Cohort.vreg_putLane c k r v j q hm, if_neg]
    rintro ⟨rfl, rfl⟩
    exact hn ⟨hk, hr⟩
  keeps w q hw := by
    rw [Cohort.phys?_putLane]
    split
    · simpa using hw
    · exact hw

/-- One thread's slot destination is written. -/
theorem State.writeSlot_spec {s : State} {x : Issue} {o : Dst} {k v : Nat} {c : Cohort} (hc : find? s.cohorts x.co = some c)
    (hm : ∀ r ∈ c.dstRegs k o, (c.phys? (k / 32) r).isSome) (ks : List Nat) (hk : k ∈ ks) :
    (∀ ci, Aside x.co ci s (s.writeSlot x o k v)) ∧ ∃ d, find? (s.writeSlot x o k v).cohorts x.co = some d ∧
      Put c d o ks ∧ d.holds o c k v := by
  have hm1 := hm _ (c.slot_mem k o)
  simp only [State.writeSlot, hc]
  cases hw : o.wide with
  | false =>
    simp only [Bool.false_eq_true, if_false]
    refine ⟨fun ci => Aside.modCohort x.co ci s _, c.putLane k (c.regOf k o.sel) (BitVec.ofNat 32 v), ?_, ?_, ?_⟩
    · simp [State.setLane, hc]
    · exact Put.putLane c o k _ _ ks hk (c.slot_mem k o) hm1
    · refine ⟨by rw [Cohort.vreg_putLane _ _ _ _ _ _ hm1]; simp, by simp [hw]⟩
  | true =>
    simp only [if_true]
    have hm2 := hm _ (c.pair_mem k o hw)
    have hp := Put.putLane c o k (c.regOf k o.sel) (BitVec.ofNat 32 v) ks hk (c.slot_mem k o) hm1
    have hm2' := hp.keeps _ _ hm2
    have hd : (c.putLane k (c.regOf k o.sel) (BitVec.ofNat 32 v)).dstRegs k o = c.dstRegs k o := rfl
    refine ⟨fun ci => (Aside.modCohort x.co ci s _).trans (Aside.modCohort x.co ci _ _),
      (c.putLane k (c.regOf k o.sel) (BitVec.ofNat 32 v)).putLane k (c.regOf k o.sel + 1) (BitVec.ofNat 32 (v / 2 ^ 32)), ?_, ?_, ?_⟩
    · simp [State.setLane, hc]
    · exact hp.trans (Put.putLane _ o k _ _ ks hk (hd ▸ c.pair_mem k o hw) hm2')
    · refine ⟨?_, fun _ => ?_⟩
      · rw [Cohort.vreg_putLane _ _ _ _ _ _ hm2', if_neg (by simp), Cohort.vreg_putLane _ _ _ _ _ _ hm1]
        simp
      · rw [Cohort.vreg_putLane _ _ _ _ _ _ hm2']
        simp

/-- The slot destinations of some threads are written, each with its thread's value. -/
theorem State.writeSlots_spec {x : Issue} {o : Dst} (val : Nat → Nat) (all js ks : List Nat) {s : State} {c : Cohort}
    (hc : find? s.cohorts x.co = some c) (hall : ∀ k ∈ js, k ∈ ks) (hin : ∀ k ∈ js, k ∈ all)
    (hm : ∀ k ∈ js, ∀ r ∈ c.dstRegs k o, (c.phys? (k / 32) r).isSome) :
    ∃ t, ((js.map fun k => (k, val k)).foldl (fun s v => if all.contains v.1 then s.writeSlot x o v.1 v.2 else s) s) = t ∧
      (∀ ci, Aside x.co ci s t) ∧ ∃ d, find? t.cohorts x.co = some d ∧ Put c d o ks ∧
        ∀ k ∈ ks, (k ∈ js ∨ c.holds o c k (val k)) → d.holds o c k (val k) := by
  induction js generalizing s c with
  | nil => exact ⟨s, rfl, fun ci => Aside.refl .., c, hc, Put.refl .., by simp⟩
  | cons j js ih =>
    have hj := hall j (List.mem_cons_self ..)
    have hja := hin j (List.mem_cons_self ..)
    obtain ⟨h1, d, hd, hp, hv⟩ := State.writeSlot_spec (v := val j) hc (hm j (List.mem_cons_self ..)) ks hj
    have hregs : ∀ k, d.dstRegs k o = c.dstRegs k o := fun k => by
      have : d.regOf k o.sel = c.regOf k o.sel := by rw [hp.rest]; rfl
      simp only [Cohort.dstRegs, this]
    have hreg : ∀ k, d.regOf k o.sel = c.regOf k o.sel := fun k => by rw [hp.rest]; rfl
    obtain ⟨t, ht, h2, e, he, hp2, hv2⟩ := ih hd (fun k hk => hall k (List.mem_cons_of_mem _ hk))
      (fun k hk => hin k (List.mem_cons_of_mem _ hk))
      (fun k hk r hr => hp.keeps _ _ (hm k (List.mem_cons_of_mem _ hk) r (hregs k ▸ hr)))
    refine ⟨t, ?_, fun ci => (h1 ci).trans (h2 ci), e, he, hp.trans hp2, ?_⟩
    · simpa [List.map_cons, List.foldl_cons, hja] using ht
    · intro k hk hor
      have hholds : ∀ z : Cohort, z.holds o d k (val k) ↔ z.holds o c k (val k) := fun z => by
        simp only [Cohort.holds, hreg]
      rw [← hholds]
      refine hv2 k hk ?_
      by_cases hkj : k ∈ js
      · exact .inl hkj
      · refine .inr ((hholds d).2 ?_)
        rcases hor with hm' | hh
        · rcases List.mem_cons.1 hm' with rfl | hk'
          · exact hv
          · exact absurd hk' hkj
        · by_cases hkj' : k = j
          · subst hkj'; exact hv
          · obtain ⟨-, dd, hdd, hpp, -⟩ := State.writeSlot_spec (v := val j) hc (hm j (List.mem_cons_self ..)) [j] (by simp)
            rw [hd] at hdd
            cases hdd
            refine ⟨?_, fun hw => ?_⟩
            · rw [hpp.reads k _ (by simp [hkj'])]; exact hh.1
            · rw [hpp.reads k _ (by simp [hkj'])]; exact hh.2 hw

end Sys2Proof.Machine
end

