-- ==== Sys2Proof/Laws/Operand.lean ====
section
/-!
SUPPORT. The operand step and the write of the destination where every operand is a register or a constant, and
with them what an instruction whose lanes work alone does.
-/

namespace Sys2Proof.Machine

theorem filter_none {α : Type} {l : List α} {p : α → Bool} (h : ∀ a ∈ l, p a = false) : l.filter p = [] := by
  rw [List.filter_eq_nil_iff]; intro a ha; simp [h a ha]

theorem filter_notin_nil {l : List Nat} : (l.filter fun k => !([] : List Nat).contains k) = l := by simp

/-- Threads of an issue. -/
theorem State.issue?_spec {s : State} {i : Instr} {x : Issue} (h : s.issue? i = some x) :
    s.sel = some (x.co, x.g) ∧ ∃ c, find? s.cohorts x.co = some c ∧ x.ci = c.ci ∧ x.ctx = c.ctx ∧ x.ts = c.members x.g ∧
      x.ts ≠ [] ∧ x.words = encode i ∧ ∃ k u, x.ts.head? = some k ∧ c.thread? k = some u ∧ x.pc = u.pc := by
  unfold State.issue? at h
  cases hs : s.sel with
  | none => simp [hs] at h
  | some p =>
    obtain ⟨co, g⟩ := p
    simp only [hs, Option.bind_some] at h
    cases hc : find? s.cohorts co with
    | none => simp [hc] at h
    | some c =>
      simp only [hc, Option.bind_some] at h
      split at h
      · cases h
      · rename_i k ks hm
        cases ht : c.thread? k with
        | none => simp [ht] at h
        | some t =>
          simp only [ht, Option.map_some, Option.some.injEq] at h
          subst h
          exact ⟨rfl, c, hc, rfl, rfl, hm.symm, by simp, rfl, k, t, rfl, ht, rfl⟩

theorem Cohort.active_thread {c : Cohort} {x : Issue} {p : Option Pfx} {k : Nat} (h : k ∈ c.active x p) :
    k ∈ x.ts ∧ (c.thread? k).isSome := by
  simp only [Cohort.active, List.mem_filter] at h
  refine ⟨h.1, ?_⟩
  cases ht : c.thread? k with
  | none => simp [ht] at h
  | some t => rfl

theorem Ready.ci {s : State} {i : Instr} {f : Form} {x : Issue} {c : Cohort} (h : Ready s i f x c) : x.ci = c.ci := by
  obtain ⟨-, d, hd, hci, -⟩ := State.issue?_spec h.issue
  rw [h.coh] at hd; cases hd; exact hci

/-- A thread's sources, where every one is a register or a constant. -/
theorem State.readSrcs_plain {s : State} {x : Issue} {c : Cohort} (hc : find? s.cohorts x.co = some c) (role k : Nat)
    (hk : (c.thread? k).isSome) (all srcs : List Src) (i : Nat)
    (hs : ∀ o ∈ srcs, isQueue o.sel = false ∧ isStream o.sel = false ∧ (c.plain k o).2 = false) :
    s.readSrcs x role k all i srcs = (.done (srcs.map fun o => (c.plain k o).1), s) := by
  obtain ⟨u, hu⟩ := Option.isSome_iff_exists.1 hk
  induction srcs generalizing i with
  | nil => rfl
  | cons o os ih =>
    obtain ⟨h1, h2, h3⟩ := hs o (List.mem_cons_self ..)
    simp only [State.readSrcs, hc, Option.bind_some, hu, Option.map_some, h1, h2, h3, Bool.false_eq_true, if_false]
    rw [ih (i + 1) fun o ho => hs o (List.mem_cons_of_mem _ ho)]
    rfl

/-- Lanes that are all done without an effect. -/
theorem State.eachLane_done {α β : Type} {s : State} (f : State → Nat → α → Lane β × State) (g : Nat → α → β)
    (l : List (Nat × α)) (h : ∀ p ∈ l, f s p.1 p.2 = (.done (g p.1 p.2), s)) :
    s.eachLane f l = (l.map fun p => (p.1, .done (g p.1 p.2)), s) := by
  induction l with
  | nil => rfl
  | cons p l ih =>
    obtain ⟨k, a⟩ := p
    simp only [State.eachLane]
    rw [h (k, a) (List.mem_cons_self ..), ih fun p hp => h p (List.mem_cons_of_mem _ hp)]
    rfl

theorem doneLanes_map {α β : Type} (l : List α) (k : α → Nat) (v : α → β) :
    doneLanes (l.map fun p => (k p, Lane.done (v p))) = l.map fun p => (k p, v p) := by
  induction l with
  | nil => rfl
  | cons p l ih => simpa [doneLanes] using ih

theorem trapLanes_map {α β : Type} (x : Issue) (l : List α) (k : α → Nat) (v : α → β) :
    trapLanes x (l.map fun p => (k p, Lane.done (v p))) = [] := by
  induction l with
  | nil => rfl
  | cons p l ih => exact ih

theorem State.parkLanes_map {α β : Type} (s : State) (x : Issue) (a : Agent) (l : List α) (k : α → Nat) (v : α → β) :
    s.parkLanes x a (l.map fun p => (k p, Lane.done (v p))) = s := by
  induction l with
  | nil => rfl
  | cons p l ih => exact ih

/-- Some threads' operands are registers and constants, full and not poisoned, and a destination is one that they may
write. -/
structure Plain (s : State) (f : Form) (x : Issue) (c : Cohort) (act : List Nat) : Prop where
  coh  : find? s.cohorts x.co = some c
  ne   : act ≠ []
  live : ∀ k ∈ act, (c.thread? k).isSome
  srcs : ∀ o ∈ f.srcs, isQueue o.sel = false ∧ isStream o.sel = false
  full : ∀ o ∈ f.srcs, ∀ k ∈ act, c.slotEmpty k o.sel o.wide = false ∧ (c.plain k o).2 = false
  dst  : ∀ o, f.dst = some o → isQueue o.sel = false ∧ isStream o.sel = false ∧
           (isScalar o.sel = true → c.phase = .prologue ∨ ∀ k ∈ act, ((c.thread? k).map Thread.role).getD 0 = 0) ∧
           ∀ k ∈ act, c.slotEmpty k o.sel o.wide = false

/-- The operand step of an instruction that goes ahead: it changes nothing, and every active lane has its values. -/
theorem Plain.operands {s : State} {f : Form} {x : Issue} {c : Cohort} {act : List Nat} (h : Plain s f x c act) :
    s.operands x f act = .lanes s (act.map fun k => (k, c.args f k)) [] := by
  have hact : act.isEmpty = false := by have := h.ne; cases hh : act <;> simp_all
  have hports : f.ports = false := by
    simp only [Form.ports, Bool.or_eq_false_iff, List.any_eq_false]
    refine ⟨fun o ho => by simp [h.srcs o ho], ?_⟩
    cases hd : f.dst with
    | none => rfl
    | some o => simp [(h.dst o hd).1, (h.dst o hd).2.1]
  have hbad : f.barred c act = [] := by
    unfold Form.barred
    split
    · rename_i hb
      simp only [Bool.and_eq_true, bne_iff_ne, ne_eq] at hb
      cases hd : f.dst with
      | none => simp [hd] at hb
      | some o =>
        simp only [hd, Option.map_some, Option.getD_some] at hb
        rcases (h.dst o hd).2.2.1 hb.1 with hp | hp
        · exact absurd hp hb.2
        · exact filter_none fun k hk => by simp [hp k hk]
    · rfl
  have hempty : ∀ r j, f.emptyOf s c r j act (replaying c act) = .traps [] := by
    intro r j
    simp only [Form.emptyOf]
    cases hj : f.srcs[j]? with
    | none => rfl
    | some o =>
      have ho : o ∈ f.srcs := List.mem_of_getElem? hj
      have : (act.filter fun k => c.slotEmpty k o.sel o.wide) = [] := filter_none fun k hk => (h.full o ho k hk).1
      simp [(h.srcs o ho).1, this]
  have hsift : ∀ r l, f.sift s x c r (replaying c act) act [] l = some (act, []) := by
    intro r l
    induction l with
    | nil => rfl
    | cons j l ih => simp only [Form.sift, hempty, filter_notin_nil, List.map_nil, List.append_nil, ih]
  have hwait : f.dstEmpty c act = false := by
    unfold Form.dstEmpty
    split
    · rename_i o hd; simp only [List.any_eq_false]; intro k hk; simp [(h.dst o hd).2.2.2 k hk]
    · rfl
  have hfull : ∀ r, f.full s x c r act = false := by
    intro r
    cases hd : f.dst with
    | none => simp [Form.full, hd]
    | some o => simp [Form.full, hd, (h.dst o hd).1]
  have hviol : ∀ r, f.violators c r act (replaying c act) = [] := by
    intro r
    have h1 : (f.srcs.any fun o => isQueue o.sel && popOnce (((c.qbind? r (o.sel.toNat - 112)).map QBind.kind).getD 0)) = false := by
      rw [List.any_eq_false]; intro o ho; simp [(h.srcs o ho).1]
    have h2 : ((f.dst.map fun o => isQueue o.sel && pushOnce (((c.qbind? r (o.sel.toNat - 112)).map QBind.kind).getD 0)).getD
        false) = false := by
      cases hd : f.dst with
      | none => rfl
      | some o => simp [(h.dst o hd).1]
    simp only [Form.violators, h1, h2, Bool.and_false, Bool.or_false, Bool.false_eq_true, if_false]
  have hsick : (act.filter fun k => f.srcs.any fun o => !isQueue o.sel && !isStream o.sel && (c.plain k o).2) = [] := by
    refine filter_none fun k hk => ?_
    rw [List.any_eq_false]
    intro o ho
    simp [(h.full o ho k hk).2]
  have hlanes : s.eachLane (fun s k (_ : Unit) => s.readSrcs x (roleOf c act) k f.srcs 0 f.srcs)
      (act.map fun k => (k, ())) = ((act.map fun k => (k, ())).map fun p => (p.1, .done (c.args f p.1)), s) := by
    refine State.eachLane_done _ (fun k _ => c.args f k) _ ?_
    intro p hp
    obtain ⟨k, hk, rfl⟩ := List.mem_map.1 hp
    exact State.readSrcs_plain h.coh _ k (h.live k hk) f.srcs f.srcs 0
      fun o ho => ⟨(h.srcs o ho).1, (h.srcs o ho).2, (h.full o ho k hk).2⟩
  unfold State.operands State.checked
  simp only [h.coh, hports, Bool.false_and, Bool.false_eq_true, if_false]
  simp only [hbad, filter_notin_nil, List.map_nil, hsift]
  simp only [hwait, hact, hfull, hviol, hsick, Bool.false_eq_true, if_false, filter_notin_nil, List.map_nil, List.append_nil,
    Bool.and_false, hlanes]
  simp only [doneLanes_map, trapLanes_map, State.parkLanes_map, List.map_map, Function.comp_def, List.append_nil]

/-- An issue that reads no queue takes no entry. -/
theorem State.withPops_none {s t : State} {x : Issue} {c : Cohort} {f : Form} {act : List Nat} {g : State → State}
    (h : ∀ o ∈ f.srcs, isQueue o.sel = false) : s.withPops t x c f act g = g t := by
  have : f.pops = false := by simp only [Form.pops, List.any_eq_false]; exact fun o ho => by simp [h o ho]
  simp [State.withPops, this]

theorem Ready.plain {s : State} {i : Instr} {f : Form} {x : Issue} {c : Cohort} (h : Ready s i f x c) : Plain s f x c (x.on c f) :=
  ⟨h.coh, h.act, fun _ hk => (Cohort.active_thread hk).2, h.srcs, h.full, h.dst⟩

theorem Ready.operands {s : State} {i : Instr} {f : Form} {x : Issue} {c : Cohort} (h : Ready s i f x c) :
    s.operands x f (x.on c f) = .lanes s ((x.on c f).map fun k => (k, c.args f k)) [] := h.plain.operands

/-- The scalar register that a destination names is written. -/
theorem State.writeDst_scalar {s : State} {x : Issue} {o : Dst} {c : Cohort} (hc : find? s.cohorts x.co = some c)
    (h : isScalar o.sel = true) (v : Nat × Nat) (vs : List (Nat × Nat)) :
    s.writeDst x o (v :: vs) = ((v :: vs).map Prod.fst, [],
      s.modCohort x.co fun c => { c with s := insert c.s (o.sel.toNat - 96) (scalarExt o.wide o.ety v.2) }) := by
  have hn : isSlot o.sel = false := by
    simp only [isScalar, Bool.and_eq_true, decide_eq_true_eq] at h
    simp only [isSlot, decide_eq_false_iff_not]
    omega
  simp [State.writeDst, hc, hn, h]

/-- A destination that is the zero selector: nothing is written. -/
theorem State.writeDst_zero {s : State} {x : Issue} {o : Dst} {c : Cohort} (hc : find? s.cohorts x.co = some c)
    (h1 : isSlot o.sel = false) (h2 : isScalar o.sel = false) (h3 : isQueue o.sel = false) (h4 : isStream o.sel = false)
    (v : Nat × Nat) (vs : List (Nat × Nat)) : s.writeDst x o (v :: vs) = ((v :: vs).map Prod.fst, [], s) := by
  simp [State.writeDst, hc, h1, h2, h3, h4]

/-- Threads noted and then retired. -/
theorem State.noteClose_spec {s : State} {x : Issue} {c : Cohort} (f : Form) (on js off : List Nat) (r : Nat → LaneRes)
    (hc : find? s.cohorts x.co = some c) (hne : off ++ js ≠ []) (hjs : ∀ k, k ∈ js ↔ k ∈ on) :
    (∀ ci, Aside x.co ci s ((s.noteLanes x.co f js (on.map fun k => (k, r k))).close x (off ++ js) [])) ∧
      ∃ d, find? ((s.noteLanes x.co f js (on.map fun k => (k, r k))).close x (off ++ js) []).cohorts x.co = some d ∧
        Moved c d (off ++ js) fun k u => if k ∈ on then (u.advance x.len).note (nfOf f.p) (r k) else u.advance x.len := by
  let F : Nat → Thread → Thread := fun k t =>
    match (on.map fun k => (k, r k)).find? fun p => p.1 == k with
    | some p => t.note (nfOf f.p) p.2
    | none => t
  have hF : ∀ k u, k ∈ on → F k u = u.note (nfOf f.p) (r k) := by
    intro k u hk
    have : (on.map fun k => (k, r k)).find? (fun p => p.1 == k) = some (k, r k) := by
      clear hne hjs
      induction on with
      | nil => cases hk
      | cons j l ih =>
        by_cases h : j = k
        · subst h; simp
        · rcases List.mem_cons.1 hk with e | hk
          · exact absurd e.symm h
          · rw [List.map_cons, List.find?_cons_of_neg (by simpa using h)]
            exact ih hk
    simp only [F, this]
  have hc1 : find? (s.noteLanes x.co f js (on.map fun k => (k, r k))).cohorts x.co =
      some { c with threads := c.threads.map fun p => if js.contains p.1 then (p.1, F p.1 p.2) else p } := by
    simp only [State.noteLanes, State.modThreads, State.cohort_modCohort, hc, Option.map_some, F] <;> rfl
  obtain ⟨h1, d, hd, hm⟩ := State.close_spec (off ++ js) hc1 hne
  have hadv : ∀ k u, c.thread? k = some u → ∃ w, find? (c.threads.map fun p => if js.contains p.1 then (p.1, F p.1 p.2) else p) k =
      some w ∧ (w.advance x.len).pc = (if k ∈ on then (u.advance x.len).note (nfOf f.p) (r k) else u.advance x.len).pc := by
    intro k u hu
    have e := find?_mapIf c.threads js F k
    by_cases hon : k ∈ on
    · rw [if_pos ((hjs k).2 hon), show find? c.threads k = some u from hu] at e
      refine ⟨_, e, ?_⟩
      rw [hF k u hon, if_pos hon]; rfl
    · rw [if_neg fun h => hon ((hjs k).1 h), show find? c.threads k = some u from hu] at e
      exact ⟨_, e, by rw [if_neg hon]⟩
  refine ⟨fun ci => (Aside.modThreads x.co ci s js _).trans (h1 ci), d, hd, hm.rest.trans rfl, ?_, ?_, ?_⟩
  · intro k u hu hk
    have e := find?_mapIf c.threads js F k
    by_cases hon : k ∈ on
    · rw [if_pos ((hjs k).2 hon), show find? c.threads k = some u from hu] at e
      obtain ⟨g, hg⟩ := hm.here k _ e hk
      refine ⟨g, ?_⟩
      rw [hg, hF k u hon, if_pos hon]
      rfl
    · rw [if_neg fun h => hon ((hjs k).1 h), show find? c.threads k = some u from hu] at e
      obtain ⟨g, hg⟩ := hm.here k _ e hk
      exact ⟨g, by rw [hg, if_neg hon]⟩
  · intro k hk
    have hon : k ∉ js := fun h => hk (List.mem_append_right _ h)
    rw [hm.away k hk]
    have e := find?_mapIf c.threads js F k
    rw [if_neg hon] at e
    exact e
  · intro i j u v hu hv hi hj hpc
    obtain ⟨u2, hu2, e1⟩ := hadv i u hu
    obtain ⟨v2, hv2, e2⟩ := hadv j v hv
    exact hm.on.one i j u2 v2 hu2 hv2 hi hj (e1.trans (Eq.trans hpc e2.symm))

theorem Moved.regs {c d : Cohort} {ks : List Nat} {h : Nat → Thread → Thread} (hm : Moved c d ks h)
    (hl : ∀ k u, c.thread? k = some u → (h k u).level = u.level) (k reg : Nat) (hk : (c.thread? k).isSome) :
    d.vreg k reg = c.vreg k reg := by
  have hp : ∀ w r, d.phys? w r = c.phys? w r := fun w r => by rw [hm.rest]; rfl
  have he : ∀ l r, d.eweVal l r = c.eweVal l r := fun l r => by rw [hm.rest]; rfl
  obtain ⟨u, hu⟩ := Option.isSome_iff_exists.1 hk
  have ht : ((d.thread? k).map Thread.level).getD 1 = ((c.thread? k).map Thread.level).getD 1 := by
    by_cases hks : k ∈ ks
    · obtain ⟨g, hg⟩ := hm.here k u hu hks
      simp [hg, hu, hl k u hu]
    · rw [hm.away k hks]
  have hs : ∀ l r, d.eweSick l r = c.eweSick l r := fun l r => by rw [hm.rest]; rfl
  simp only [Cohort.vreg, hp, he, hs, ht]

theorem doneThread_level (x : Issue) (f : Form) (on : List Nat) (r : Nat → LaneRes) (k : Nat) (u : Thread) :
    (doneThread x f on r k u).level = u.level := by
  unfold doneThread; split <;> rfl

theorem State.allocCrews_sub (x : Issue) (o : Dst) (ks : List Nat) (ws : List Nat) (s : State) {k : Nat}
    (h : k ∈ (s.allocCrews x o ks ws).1) : k ∈ ks := by
  induction ws generalizing s with
  | nil => simp [State.allocCrews] at h
  | cons w ws ih =>
    simp only [State.allocCrews] at h
    split at h
    · simp at h
    · split at h
      · rcases List.mem_append.1 h with h | h
        · exact (List.mem_filter.1 h).1
        · exact ih _ h
      · exact ih _ h

theorem State.allocate_sub {s : State} {x : Issue} {o : Dst} {ks : List Nat} {k : Nat} (h : k ∈ (s.allocate x o ks).1) :
    k ∈ ks := by
  unfold State.allocate at h
  split at h
  · exact h
  · exact State.allocCrews_sub x o ks _ s h

theorem isSlot_scalar {x : Sel} (h : isSlot x = true) : isScalar x = false := by
  simp only [isSlot, decide_eq_true_eq] at h
  simp only [isScalar, Bool.and_eq_false_iff, decide_eq_false_iff_not]
  omega

/-- The threads `on` of an issue, whose destination is a register that they have, or the zero selector. -/
structure Going (s : State) (f : Form) (x : Issue) (c : Cohort) (on : List Nat) : Prop where
  coh  : find? s.cohorts x.co = some c
  live : ∀ k ∈ on, (c.thread? k).isSome
  dst  : ∀ o, f.dst = some o → isQueue o.sel = false ∧ isStream o.sel = false
  room : ∀ o, f.dst = some o → ∀ k ∈ on, k ∈ (s.allocate x o on).1

theorem Ready.going {s : State} {i : Instr} {f : Form} {x : Issue} {c : Cohort} (h : Ready s i f x c) :
    Going s f x c (x.on c f) :=
  ⟨h.coh, fun _ hk => (Cohort.active_thread hk).2, fun o ho => ⟨(h.dst o ho).1, (h.dst o ho).2.1⟩, h.room⟩

/-- The write of the destination of the threads `on`, all of which get their register. -/
theorem Going.write {s : State} {f : Form} {x : Issue} {c : Cohort} {on : List Nat} (h : Going s f x c on) (hne : on ≠ [])
    (o : Dst) (hd : f.dst = some o) (val : Nat → Nat) :
    ∃ js t e, s.writeDst x o (on.map fun k => (k, val k)) = (js, [], t) ∧ (∀ k, k ∈ js ↔ k ∈ on) ∧
      Aside x.co c.ci s t ∧ find? t.cohorts x.co = some e ∧
      (isSlot o.sel = true → ∀ k ∈ on, e.holds o c k (val k)) ∧
      (isScalar o.sel = true → ∀ k, on.head? = some k →
        e.s = insert c.s (o.sel.toNat - 96) (scalarExt o.wide o.ety (val k))) ∧
      (∀ k reg, (c.thread? k).isSome → ¬ (k ∈ on ∧ c.writes f.dst k reg) → e.vreg k reg = c.vreg k reg) ∧
      (isScalar o.sel = false → e.s = c.s) ∧ e = { c with s := e.s, crews := e.crews } := by
  obtain ⟨a, l, hl⟩ : ∃ a l, on = a :: l := by
    cases hh : on with
    | nil => exact absurd hh hne
    | cons a l => exact ⟨a, l, rfl⟩
  obtain ⟨hq1, hq2⟩ := h.dst o hd
  cases hs : isSlot o.sel with
  | true =>
    obtain ⟨h1, d, hd1, hg, hmap⟩ := State.allocate_spec h.coh (h.room o hd)
    have hregs : ∀ k, d.dstRegs k o = c.dstRegs k o := fun k => hg.dstRegs k o
    obtain ⟨t, ht, h2, e, he, hput, hval⟩ := State.writeSlots_spec val ((s.allocate x o on).1) on on
      hd1 (fun k hk => hk) (h.room o hd) (fun k hk q hq => hmap hs k hk q (hregs k ▸ hq))
    refine ⟨(s.allocate x o on).1, t, e, ?_, fun k => ⟨State.allocate_sub, h.room o hd k⟩, h1.trans (h2 c.ci), he,
      ?_, ?_, ?_, ?_, ?_⟩
    · unfold State.writeDst
      have hne : (on.map fun k => (k, val k)).isEmpty = false := by simp [hl]
      simp only [h.coh, hne, hs, Bool.false_eq_true, if_false, if_true, List.map_map, Function.comp_def, List.map_id']
      rw [ht]
    · intro _ k hk
      have := hval k hk (.inl hk)
      simpa only [Cohort.holds, hg.regOf] using this
    · intro hsc; rw [isSlot_scalar hs] at hsc; cases hsc
    · intro k reg hk hn
      have hr : ¬ (k ∈ on ∧ reg ∈ d.dstRegs k o) := by
        rintro ⟨p, q⟩
        exact hn ⟨p, o, hd, hs, hregs k ▸ q⟩
      rw [hput.reads k reg hr, hg.reads k hk reg]
    · intro _; rw [hput.rest, hg.rest]
    · rw [hput.rest, hg.rest]
  | false =>
    cases hsc : isScalar o.sel with
    | true =>
      refine ⟨on, s.modCohort x.co fun c =>
          { c with s := insert c.s (o.sel.toNat - 96) (scalarExt o.wide o.ety (val a)) },
        { c with s := insert c.s (o.sel.toNat - 96) (scalarExt o.wide o.ety (val a)) }, ?_, fun k => Iff.rfl,
        Aside.modCohort x.co c.ci s _, ?_, by simp, ?_, ?_, by simp, ?_⟩
      · rw [hl, List.map_cons, State.writeDst_scalar h.coh hsc, ← List.map_cons (f := fun k => (k, val k)), ← hl]
        simp only [List.map_map, Function.comp_def, List.map_id']
      · rw [State.cohort_modCohort, h.coh, Option.map_some]
      · intro _ k hk
        rw [hl] at hk
        simp only [List.head?_cons, Option.some.injEq] at hk
        subst hk; rfl
      · intros; rfl
      · rfl
    | false =>
      refine ⟨on, s, c, ?_, fun k => Iff.rfl, Aside.refl .., h.coh, by simp, by simp, fun _ _ _ _ => rfl, fun _ => rfl, rfl⟩
      rw [hl, List.map_cons, State.writeDst_zero h.coh hs hsc hq1 hq2, ← List.map_cons (f := fun k => (k, val k)), ← hl]
      simp only [List.map_map, Function.comp_def, List.map_id']

/-- A statement about an issue names the threads that moved on as a set. -/
theorem Wrote.threads {s t : State} {x : Issue} {c : Cohort} {o : Option Dst} {on mv mv' : List Nat} {val : Nat → Nat}
    {next : Nat → Thread → Thread} (h : Wrote s t x c o on mv val next) (he : ∀ k, k ∈ mv ↔ k ∈ mv') :
    Wrote s t x c o on mv' val next := by
  obtain ⟨a, d, h0, h1, h2, h3, h4⟩ := h
  exact ⟨a, d, h0, h1, h2, h3.threads he, h4⟩

/-- The end of an instruction whose lanes `on` are all done, where at least one thread moves on (R45, R64, R191). -/
theorem Going.finish {s : State} {f : Form} {x : Issue} {c : Cohort} {on : List Nat} (h : Going s f x c on)
    (off : List Nat) (hne : off ++ on ≠ []) (r : Nat → LaneRes) :
    Wrote s (s.finish x f off [] (on.map fun k => (k, .done (r k)))) x c f.dst on (off ++ on) (fun k => (r k).val)
      (doneThread x f on r) := by
  have hts : ∀ js : List Nat, (∀ k, k ∈ js ↔ k ∈ on) → ∀ k, k ∈ off ++ js ↔ k ∈ off ++ on := by
    intro js hjs k
    simp only [List.mem_append, hjs]
  have hne' : ∀ js : List Nat, (∀ k, k ∈ js ↔ k ∈ on) → off ++ js ≠ [] := by
    intro js hjs e
    obtain ⟨e1, e2⟩ := List.append_eq_nil_iff.1 e
    refine hne ?_
    rw [e1, List.nil_append]
    cases hh : on with
    | nil => rfl
    | cons a l =>
      have : a ∈ js := (hjs a).2 (by simp [hh])
      rw [e2] at this
      cases this
  have hdone : doneLanes (on.map fun k => (k, Lane.done (r k))) = on.map fun k => (k, r k) := doneLanes_map on id r
  have htrap : trapLanes x (on.map fun k => (k, Lane.done (r k))) = [] := trapLanes_map x on id r
  -- whatever the write came to, the threads move on from there
  have last : ∀ js t e, (∀ k, k ∈ js ↔ k ∈ on) → Aside x.co c.ci s t → find? t.cohorts x.co = some e →
      (∀ q, f.dst = some q → isSlot q.sel = true → ∀ k ∈ on, e.holds q c k (r k).val) →
      (∀ q k, f.dst = some q → isScalar q.sel = true → on.head? = some k →
        e.s = insert c.s (q.sel.toNat - 96) (scalarExt q.wide q.ety (r k).val)) →
      (∀ k reg, (c.thread? k).isSome → ¬ (k ∈ on ∧ c.writes f.dst k reg) → e.vreg k reg = c.vreg k reg) →
      ((∀ q, f.dst = some q → isScalar q.sel = false) → e.s = c.s) → e = { c with s := e.s, crews := e.crews } →
      Wrote s ((t.noteLanes x.co f js (on.map fun k => (k, r k))).close x (off ++ js) []) x c f.dst on (off ++ on)
        (fun k => (r k).val) (doneThread x f on r) := by
    intro js t e hjs ha he hslot hscal hreads hs hrest
    obtain ⟨h1, d, hd, hm⟩ := State.noteClose_spec f on js off r he (hne' js hjs) hjs
    have hth : ∀ k, e.thread? k = c.thread? k := fun k => by rw [hrest]; rfl
    have hlev : ∀ k u, e.thread? k = some u →
        (if k ∈ on then (u.advance x.len).note (nfOf f.p) (r k) else u.advance x.len).level = u.level := by
      intro k u _; split <;> rfl
    refine ⟨ha.trans (h1 c.ci), d, hd, ?_, ?_, ?_, ?_, ?_, ?_⟩
    · intro q hq hsl k hk
      have hk' : (e.thread? k).isSome := by rw [hth]; exact h.live k hk
      have := hslot q hq hsl k hk
      exact ⟨by rw [hm.regs hlev k _ hk']; exact this.1, fun hw => by rw [hm.regs hlev k _ hk']; exact this.2 hw⟩
    · intro q k hq hsc hk
      rw [← hscal q k hq hsc hk, hm.rest]
    · have := hm.on.threads (hts js hjs)
      exact ⟨fun k u hu => this.here k u ((hth k).trans hu), fun k hk => (this.away k hk).trans (hth k),
        fun i j u v hu hv => this.one i j u v ((hth i).trans hu) ((hth j).trans hv)⟩
    · intro k reg hk hn
      rw [hm.regs hlev k reg (by rw [hth]; exact hk)]
      exact hreads k reg hk hn
    · intro hq
      rw [← hs hq, hm.rest]
    · rw [hm.rest, hrest]
  unfold State.finish
  simp only [hdone, htrap, List.append_nil, List.nil_append, List.map_map, Function.comp_def]
  cases hd : f.dst with
  | none =>
    simp only [List.map_id']
    have := last on s c (fun _ => Iff.rfl) (Aside.refl ..) h.coh (by simp [hd]) (by simp [hd]) (fun _ _ _ _ => rfl)
      (fun _ => rfl) rfl
    rw [hd] at this
    simpa using this
  | some o =>
    by_cases hon : on = []
    · have hw : s.writeDst x o (on.map fun k => (k, (r k).val)) = (on, [], s) := by
        subst hon; simp [State.writeDst, h.coh]
      simp only [hw]
      have := last on s c (fun _ => Iff.rfl) (Aside.refl ..) h.coh (by simp [hon]) (by simp [hon]) (fun _ _ _ _ => rfl)
        (fun _ => rfl) rfl
      rw [hd] at this
      exact this
    obtain ⟨js, t, e, hw, hjs, ha, he, h1, h2, h3, h4, h5⟩ := h.write hon o hd fun k => (r k).val
    simp only [hw]
    rw [← hd]
    refine last js t e hjs ha he ?_ ?_ h3 (fun hq => h4 (hq o hd)) h5
    · intro q hq; rw [hd] at hq; cases hq; exact h1
    · intro q k hq hsc hk; rw [hd] at hq; cases hq; exact h2 hsc k hk

theorem Issue.off_on {x : Issue} {c : Cohort} {f : Form} (k : Nat) :
    k ∈ (x.ts.filter fun k => !(x.on c f).contains k) ++ x.on c f ↔ k ∈ x.ts := by
  simp only [List.mem_append, List.mem_filter, List.contains_eq_mem, Bool.not_eq_true', decide_eq_false_iff_not]
  constructor
  · rintro (⟨h, -⟩ | h)
    · exact h
    · exact (Cohort.active_thread h).1
  · intro hk
    by_cases h : k ∈ x.on c f
    · exact .inr h
    · exact .inl ⟨hk, h⟩

/-- The end of an instruction of which every active lane is done, where it goes ahead. -/
theorem Ready.finish {s : State} {i : Instr} {f : Form} {x : Issue} {c : Cohort} (h : Ready s i f x c) (r : Nat → LaneRes) :
    Wrote s (s.finish x f (x.ts.filter fun k => !(x.on c f).contains k) []
        ((x.on c f).map fun k => (k, .done (r k)))) x c f.dst (x.on c f) x.ts (fun k => (r k).val)
      (doneThread x f (x.on c f) r) :=
  (h.going.finish _ (by simp [h.act]) r).threads Issue.off_on

/-- An instruction whose lanes work alone completes where it goes ahead and no lane traps. -/
theorem Ready.lanes {s : State} {i : Instr} {f : Form} {x : Issue} {c : Cohort} (h : Ready s i f x c)
    (op : Thread → List Nat → Lane LaneRes) (r : Nat → LaneRes)
    (hop : ∀ k ∈ x.on c f, ∀ u, c.thread? k = some u → op u (c.args f k) = .done (r k)) :
    ∃ t, s.runLanes i f op = .next t ∧
      Wrote s t x c f.dst (x.on c f) x.ts (fun k => (r k).val) (doneThread x f (x.on c f) r) := by
  have hfree : x.ts.any c.isHeld = false := by
    rw [List.any_eq_false]; intro k hk; simp [h.free k hk]
  have hact : (c.active x f.p).isEmpty = false := by
    have := h.act
    simp only [Issue.on] at this
    cases hh : c.active x f.p <;> simp_all
  have hres : (((x.on c f).map fun k => (k, c.args f k)).filterMap fun p =>
      (s.thread? x.co p.1).map fun t => (p.1, op t p.2)) = (x.on c f).map fun k => (k, .done (r k)) := by
    have : ∀ l : List Nat, (∀ k ∈ l, k ∈ x.on c f) → ((l.map fun k => (k, c.args f k)).filterMap fun p =>
        (s.thread? x.co p.1).map fun t => (p.1, op t p.2)) = l.map fun k => (k, .done (r k)) := by
      intro l
      induction l with
      | nil => intro _; rfl
      | cons k l ih =>
        intro hl
        obtain ⟨u, hu⟩ := Option.isSome_iff_exists.1 (Cohort.active_thread (hl k (List.mem_cons_self ..))).2
        have hu' : s.thread? x.co k = some u := by simp only [State.thread?, h.coh, Option.bind_some]; exact hu
        rw [List.map_cons, List.filterMap_cons_some (by rw [hu']; rfl), ih fun j hj => hl j (List.mem_cons_of_mem _ hj)]
        show (k, op u (c.args f k)) :: _ = _
        rw [hop k (hl k (List.mem_cons_self ..)) u hu]
        rfl
    exact this _ fun k hk => hk
  refine ⟨_, ?_, h.finish r⟩
  unfold State.runLanes State.run State.runPre
  simp only [h.issue, h.coh, hfree, h.legal, hact, open_, Bool.false_eq_true, if_false]
  have hops := h.operands
  simp only [Issue.on] at hops hres ⊢
  rw [hops]
  simp only [State.withPops_none fun o ho => (h.srcs o ho).1, hres]

theorem Yields.of {s : State} {i : Instr} {f : Form} {op : Thread → List Nat → LaneRes}
    {op' : Thread → List Nat → Lane LaneRes} (h : exec i s = s.runLanes i f op') (ho : ∀ u vs, op' u vs = .done (op u vs)) :
    Yields s i f op := by
  intro x c r hr hk
  obtain ⟨t, h1, h2⟩ := hr.lanes op' r fun k hk' u hu => by rw [ho, hk k hk' u hu]
  exact ⟨t, h.trans h1, h2⟩

end Sys2Proof.Machine
end

