-- ==== Sys2Proof/Laws/Lanes.lean ====
section
/-!
SUPPORT. The shared shapes of the instructions of groups 0 to 3 as runs of lanes, and what such a run yields.
-/

namespace Sys2Proof.Machine

theorem binInt_runs (i : Instr) (p : Option Pfx) (d a b : Sel) (imm : Option (BitVec 30)) (ok sat : Ety → Bool)
    (op : Ety → Nat → Nat → Int) (s : State) :
    binInt i p d a b imm ok sat op s = s.runLanes i (binIntForm p d a b imm ok sat) fun _ vs =>
      justVal (reduce ((gty p .s32).getD .s32) (satOf p) (op ((gty p .s32).getD .s32) (arg vs 0) (arg vs 1))) := rfl

theorem unInt_runs (i : Instr) (p : Option Pfx) (d a : Sel) (dflt : Ety) (ok sat : Ety → Bool) (op : Ety → Nat → Nat)
    (s : State) :
    unInt i p d a dflt ok sat op s =
      s.runLanes i (unIntForm p d a dflt ok sat) fun _ vs => justVal (op ((gty p dflt).getD dflt) (arg vs 0)) := rfl

theorem shiftInt_runs (i : Instr) (p : Option Pfx) (d a b : Sel) (imm : Option (BitVec 30)) (sat : Ety → Bool)
    (op : Ety → Nat → Nat → Nat) (s : State) :
    shiftInt i p d a b imm sat op s = s.runLanes i (shiftForm p d a b imm sat) fun _ vs =>
      justVal (op ((gty p .s32).getD .s32) (arg vs 0) (arg vs 1 % 2 ^ 8)) := rfl

theorem binBits_runs (i : Instr) (p : Option Pfx) (d a b : Sel) (imm : Option (BitVec 30)) (op : Ety → Nat → Nat → Nat)
    (s : State) :
    binBits i p d a b imm op s = s.runLanes i (binBitsForm p d a b imm) fun _ vs =>
      justVal (((gty p .b32).getD .b32).toReg (op ((gty p .b32).getD .b32) (arg vs 0 % 2 ^ ((gty p .b32).getD .b32).width)
        (arg vs 1 % 2 ^ ((gty p .b32).getD .b32).width))) := rfl

theorem countBits_runs (i : Instr) (p : Option Pfx) (d a : Sel) (op : Nat → Nat → Nat) (s : State) :
    countBits i p d a op s = s.runLanes i (countForm p d a) fun _ vs =>
      justVal (op ((gty p .b32).getD .b32).width (arg vs 0 % 2 ^ ((gty p .b32).getD .b32).width)) := rfl

/-! The instructions that have a shape of their own. -/

theorem carryInt_runs (i : Instr) (p : Option Pfx) (d a b : Sel) (imm : Option (BitVec 30)) (borrow : Bool) (s : State) :
    let t := (gty p .s32).getD .s32
    carryInt i p d a b imm borrow s =
    s.runLanes i (binIntForm p d a b imm isSN32 noTy)
      fun th vs =>
        let c := (th.preds.getLsbD 7).toNat
        let A := arg vs 0 % 2 ^ t.width
        let B := arg vs 1 % 2 ^ t.width
        let x : Int := if borrow then (A : Int) - B - c else (A + B + c : Nat)
        let out := if borrow then decide (x < 0) else decide (2 ^ t.width ≤ A + B + c)
        .done ⟨t.toReg (t.wrap x), 0, some (7, out)⟩ := rfl

theorem execMad_runs (p : Option Pfx) (d a b c : Sel) (s : State) :
    let t := (gty p .s32).getD .s32
    execMad p d a b c s =
    s.runLanes (.mad p d a b c)
      (madForm p d a b c isSN id)
      fun _ vs => justVal (reduce t (satOf p) (t.num (arg vs 0) * t.num (arg vs 1) + t.num (arg vs 2))) := rfl

theorem execMadw_runs (p : Option Pfx) (d a b c : Sel) (s : State) :
    let t := (gty p .s32).getD .s32
    let w : Ety := if t = .n32 then .n64 else .s64
    execMadw p d a b c s =
    s.runLanes (.madw p d a b c)
      (madForm p d a b c (fun t => t == .s32 || t == .n32) fun _ => .s64)
      fun _ vs => justVal (reduce w (satOf p) (t.num (arg vs 0) * t.num (arg vs 1) + w.num (arg vs 2))) := rfl

theorem execLea_runs (p : Option Pfx) (d a b c : Sel) (sh : BitVec 3) (s : State) :
    let signed := tyCode p == 3
    execLea p d a b c sh s =
    s.runLanes (.lea p d a b c sh) (leaForm p d a b c)
      fun _ vs =>
        let idx : Int := if signed then toSigned 32 (arg vs 1) else (arg vs 1 % 2 ^ 32 : Nat)
        justVal (wrapNat 64 (arg vs 0 + idx * (2 ^ sh.toNat : Nat) + arg vs 2)) := rfl

theorem execAddp_runs (p : Option Pfx) (d a b : Sel) (s : State) :
    execAddp p d a b s =
    s.runLanes (.addp p d a b) (addrForm p [srcOf .b64 (polA p) none a, srcWord (polB p) b] d)
      fun _ vs => justVal (wrapNat 64 (arg vs 0 + toSigned 32 (arg vs 1))) := rfl

theorem execAddpImm_runs (p : Option Pfx) (d a b : Sel) (imm : BitVec 30) (s : State) :
    execAddpImm p d a b imm s =
    s.runLanes (.addpImm p d a b imm)
      (addrForm p [srcOf .b64 (polA p) (some imm) a, { srcWord (polB p) b with ext := some (Ety.s32.ext imm) }] d)
      fun _ vs => justVal (wrapNat 64 (arg vs 0 + toSigned 32 (arg vs 1))) := rfl

theorem execSubp_runs (p : Option Pfx) (d a b : Sel) (s : State) :
    execSubp p d a b s =
    s.runLanes (.subp p d a b) (addrForm p [srcOf .b64 (polA p) none a, srcOf .b64 (polB p) none b] d)
      fun _ vs => justVal (wrapNat 64 ((arg vs 0 : Int) - arg vs 1)) := rfl

theorem execMovi_runs (p : Option Pfx) (d : Sel) (imm : BitVec 30) (s : State) :
    let t := (gty p .s32).getD .s32
    execMovi p d imm s =
    s.runLanes (.movi p d imm) (moviForm p d) fun _ _ => justVal (t.toReg (t.ext imm)) := rfl

theorem execBfe_runs (p : Option Pfx) (d a b c : Sel) (pi : Bool) (pos wid : BitVec 7) (s : State) :
    let t := (gty p .b32).getD .b32
    execBfe p d a b c pi pos wid s =
    s.runLanes (.bfe p d a b c pi pos wid) (bfeForm p d a b c pi)
      fun _ vs =>
        if pi then justVal (extractField t (arg vs 0) pos.toNat wid.toNat)
        else justVal (extractField t (arg vs 0) (arg vs 1 % 2 ^ 8) (arg vs 2 % 2 ^ 8)) := rfl

theorem execBfi_runs (p : Option Pfx) (d a b c : Sel) (pi : Bool) (pos wid : BitVec 7) (s : State) :
    let t := (gty p .b32).getD .b32
    execBfi p d a b c pi pos wid s =
    s.runLanes (.bfi p d a b c pi pos wid) (bfiForm p d a b c pi)
      fun _ vs =>
        if pi then justVal (insertField t (arg vs 0) (arg vs 1) pos.toNat wid.toNat)
        else justVal (insertField t (arg vs 0) (arg vs 1) (arg vs 2 % 2 ^ 8) (bits (arg vs 2) 8 8)) := rfl

theorem execBshuf_runs (p : Option Pfx) (d a b c : Sel) (s : State) :
    execBshuf p d a b c s =
    s.runLanes (.bshuf p d a b c) (bshufForm p d a b c)
      fun _ vs =>
        let byte (n : Nat) : Nat := shufByte (arg vs 0) (arg vs 1) (bits (arg vs 2) (8 * n) 8) * 2 ^ (8 * n)
        justVal (byte 0 + byte 1 + byte 2 + byte 3) := rfl

theorem cmpInt_runs (i : Instr) (p : Option Pfx) (q : BitVec 3) (cond : BitVec 4) (a b : Sel) (imm : Option (BitVec 30))
    (s : State) :
    let t := (gty p .b32).getD .b32
    cmpInt i p q cond a b imm s =
    s.runLanes i (cmpForm p cond a b imm)
      fun _ vs => justPred q.toNat (condInt t cond.toNat (arg vs 0) (arg vs 1)) := rfl

theorem execSel_runs (p : Option Pfx) (d a b : Sel) (n : Bool) (q : BitVec 3) (s : State) :
    execSel p d a b n q s =
    s.runLanes (.sel p d a b n q) (selForm p d a b)
      fun th vs => justVal (if th.preds.getLsbD q.toNat != n then arg vs 0 else arg vs 1) := rfl

theorem execPand_runs (p : Option Pfx) (d : BitVec 3) (na : Bool) (a : BitVec 3) (nb : Bool) (b : BitVec 3) (s : State) :
    execPand p d na a nb b s =
    s.runLanes (.pand p d na a nb b) (predForm p) fun th _ => justPred d.toNat (predArg th na a && predArg th nb b) := rfl

theorem execPor_runs (p : Option Pfx) (d : BitVec 3) (na : Bool) (a : BitVec 3) (nb : Bool) (b : BitVec 3) (s : State) :
    execPor p d na a nb b s =
    s.runLanes (.por p d na a nb b) (predForm p) fun th _ => justPred d.toNat (predArg th na a || predArg th nb b) := rfl

theorem execPxor_runs (p : Option Pfx) (d : BitVec 3) (na : Bool) (a : BitVec 3) (nb : Bool) (b : BitVec 3) (s : State) :
    execPxor p d na a nb b s =
    s.runLanes (.pxor p d na a nb b) (predForm p) fun th _ => justPred d.toNat (predArg th na a != predArg th nb b) := rfl

theorem execPnot_runs (p : Option Pfx) (d : BitVec 3) (na : Bool) (a : BitVec 3) (s : State) :
    execPnot p d na a s =
    s.runLanes (.pnot p d na a) (predForm p) fun th _ => justPred d.toNat (!predArg th na a) := rfl

theorem execPmov_runs (p : Option Pfx) (d : BitVec 3) (na : Bool) (a : BitVec 3) (s : State) :
    execPmov p d na a s =
    s.runLanes (.pmov p d na a) (predForm p) fun th _ => justPred d.toNat (predArg th na a) := rfl

theorem binFp_runs (i : Instr) (p : Option Pfx) (d a b : Sel) (imm : Option (BitVec 30)) (op : Rnd → FVal → FVal → FVal × Fl)
    (s : State) :
    let t := elemTy p .f32
    binFp i p d a b imm op s =
    s.runLanes i (binFpForm p d a b imm accAll)
      fun th vs => fpRes th (fout p t th (op (roundOf p th) (fin t th (arg vs 0)) (fin t th (arg vs 1)))) := rfl

theorem execFma_runs (p : Option Pfx) (d a b c : Sel) (s : State) :
    let t := elemTy p .f32
    execFma p d a b c s =
    s.runLanes (.fma p d a b c) (fmaForm p d a b c)
      fun th vs => fpRes th (fout p t th
        (fmaVal (roundOf p th) (fin t th (arg vs 0)) (fin t th (arg vs 1)) (fin t th (arg vs 2)))) := rfl

theorem minMax_runs (i : Instr) (p : Option Pfx) (d a b : Sel) (imm : Option (BitVec 30)) (isMin : Bool) (s : State) :
    let t := elemTy p .f32
    minMax i p d a b imm isMin s =
    s.runLanes i (binFpForm p d a b imm accNf)
      fun th vs => fpRes th (minMaxFp isMin t (t.flush th.ftz (arg vs 0)) (t.flush th.ftz (arg vs 1))) := rfl

theorem rawFp_runs (i : Instr) (p : Option Pfx) (a : Sel) (ok : Ety → Bool) (dst : Ety → Dst) (op : Ety → Nat → Nat) (s : State) :
    let t := elemTy p .f32
    rawFp i p a ok dst op s =
    s.runLanes i (unFpForm p a accNone ok dst)
      fun _ vs => justVal (op t (arg vs 0 % 2 ^ t.width)) := rfl

theorem cmpFp_runs (i : Instr) (p : Option Pfx) (q : BitVec 3) (cond : BitVec 4) (a b : Sel) (imm : Option (BitVec 30))
    (s : State) :
    let t := elemTy p .f32
    cmpFp i p q cond a b imm s =
    s.runLanes i (fcmpForm p cond a b imm)
      fun th vs =>
        let r := condFp cond.toNat (fin t th (arg vs 0)) (fin t th (arg vs 1))
        fpPred th q.toNat r.1 r.2 := rfl

theorem execFrint_runs (p : Option Pfx) (d a : Sel) (s : State) :
    let t := elemTy p .f32
    execFrint p d a s =
    s.runLanes (.frint p d a) (unFpForm p a accRndNf isFp fun t => dstOf t d)
      fun th vs => fpRes th (fout p t th (integral (roundOf p th) (fin t th (arg vs 0)))) := rfl

theorem scaleFp_runs (i : Instr) (p : Option Pfx) (d a b : Sel) (imm : Option (BitVec 30)) (s : State) :
    let t := elemTy p .f32
    scaleFp i p d a b imm s =
    s.runLanes i (scaleForm p d a b imm)
      fun th vs => fpRes th (fout p t th (scaleVal (fin t th (arg vs 0)) (toSigned 32 (arg vs 1)), 0)) := rfl

theorem packedFp_runs (i : Instr) (p : Option Pfx) (d : Sel) (dflt : Ety) (ok : Ety → Bool) (srcs : List Src)
    (op : Rnd → (Nat → FVal) → FVal × Fl) (s : State) :
    let t := elemTy p dflt
    packedFp i p d dflt ok srcs op s =
    s.runLanes i (packedForm p dflt ok srcs (dstOf .b32 d))
      fun th vs =>
        let e (n : Nat) : Nat × Fl :=
          fout p t th (op (roundOf p th) fun i => fin t th (packed t (arg vs i) n))
        fpRes th ((e 0).1 + (e 1).1 * 2 ^ 16, (e 0).2 ||| (e 1).2) := rfl

theorem dotFp_runs (i : Instr) (p : Option Pfx) (d a b c : Sel) (dflt : Ety) (ok : Ety → Bool) (n : Nat) (s : State) :
    let t := elemTy p dflt
    dotFp i p d a b c dflt ok n s =
    s.runLanes i (packedForm p dflt ok [srcWord (polA p) a, srcWord (polB p) b, srcWord false c] (dstOf .f32 d))
      fun th vs =>
        let ps := (List.range n).map fun e => (fin t th (packed t (arg vs 0) e), fin t th (packed t (arg vs 1) e))
        fpRes th (fout p .f32 th (dotVal (roundOf p th) ps (fin .f32 th (arg vs 2)))) := rfl

theorem execCvt_runs (p : Option Pfx) (d a : Sel) (dt st : BitVec 4) (s : State) :
    let D := (cvtTy dt).getD .f32
    let S := (cvtTy st).getD .f32
    execCvt p d a dt st s =
    s.runLanes (.cvt p d a dt st) (cvtForm p d a dt st)
      fun th vs => fpRes th (cvtOut D (roundOf p th) th.ftz (satOf p) (cvtIn S th.ftz (arg vs 0))) := rfl

theorem execPack_runs (p : Option Pfx) (d a b : Sel) (s : State) :
    let t := elemTy p .f16
    execPack p d a b s =
    s.runLanes (.pack p d a b) (packedForm p .f16 isHalf (srcsAB p a b none .f32) (dstOf .b32 d))
      fun th vs =>
        let e (n : Nat) : Nat × Fl := fout p t th (fin .f32 th (arg vs n), 0)
        fpRes th ((e 0).1 + (e 1).1 * 2 ^ 16, (e 0).2 ||| (e 1).2) := rfl

theorem unpackFp_runs (i : Instr) (p : Option Pfx) (d a b : Sel) (imm : Option (BitVec 30)) (s : State) :
    let t := elemTy p .f16
    unpackFp i p d a b imm s =
    s.runLanes i (unpackForm p d a b imm)
      fun th vs => fpRes th (Ety.f32.roundVal .rne (fin t th (packed t (arg vs 0) (arg vs 1 % packCount t)))) := rfl

theorem execTdec_runs (p : Option Pfx) (d a : Sel) (e : BitVec 2) (s : State) :
    let t := elemTy p .t8
    execTdec p d a e s =
    s.runLanes (.tdec p d a e) (taperForm p accNone [srcWord (polA p) a] (dstOf .f32 d))
      fun _ vs => justVal (Ety.f32.roundVal .rne (t.val (packed t (arg vs 0) e.toNat))).1 := rfl

theorem execTenc_runs (p : Option Pfx) (d a b : Sel) (e : BitVec 2) (s : State) :
    let t := elemTy p .t8
    execTenc p d a b e s =
    s.runLanes (.tenc p d a b e) (taperForm p accRndNf [srcOf .f32 (polA p) none a, srcWord (polB p) b] (dstOf .b32 d))
      fun th vs =>
        let r := t.roundVal (roundOf p th) (fin .f32 th (arg vs 0))
        fpRes th (setBits (arg vs 1 % 2 ^ (4 * t.width)) (t.width * e.toNat) t.width r.1, r.2) := rfl

theorem execQscale_runs (p : Option Pfx) (d a b : Sel) (neg : Bool) (bsel : BitVec 2) (s : State) :
    let t := elemTy p .f32
    execQscale p d a b neg bsel s =
    s.runLanes (.qscale p d a b neg bsel) (qscaleForm p d a b)
      fun th vs =>
        let e8 := bits (arg vs 1) (8 * bsel.toNat) 8
        if e8 = 0xFF then justVal (t.finish false (satOf p) (t.defaultNan, 0)).1
        else fpRes th (fout p t th (scaleVal (fin t th (arg vs 0)) (if neg then 127 - e8 else e8 - 127), 0)) := rfl

/-- What lanes that are all done yield. -/
theorem Yields.runLanes {s : State} {i : Instr} {f : Form} {op : Thread → List Nat → LaneRes}
    {op' : Thread → List Nat → Lane LaneRes} {o : Host.Outcome State Fault Refusal} (h : exec i s = o)
    (ho : o = s.runLanes i f op') (hd : ∀ u vs, op' u vs = .done (op u vs)) : Yields s i f op :=
  .of (h.trans ho) hd

theorem Yields.binInt {s : State} {i : Instr} {p : Option Pfx} {d a b : Sel} {imm : Option (BitVec 30)} {ok sat : Ety → Bool}
    {op : Ety → Nat → Nat → Int} {g : Thread → List Nat → LaneRes} (h : exec i s = binInt i p d a b imm ok sat op s)
    (hg : ∀ u vs, onlyVal (reduce ((gty p .s32).getD .s32) (satOf p) (op ((gty p .s32).getD .s32) (arg vs 0) (arg vs 1))) = g u vs) :
    Yields s i (binIntForm p d a b imm ok sat) g :=
  .runLanes h (binInt_runs ..) fun u vs => by rw [← hg]; rfl

theorem Yields.unInt {s : State} {i : Instr} {p : Option Pfx} {d a : Sel} {dflt : Ety} {ok sat : Ety → Bool}
    {op : Ety → Nat → Nat} {g : Thread → List Nat → LaneRes} (h : exec i s = unInt i p d a dflt ok sat op s)
    (hg : ∀ u vs, onlyVal (op ((gty p dflt).getD dflt) (arg vs 0)) = g u vs) :
    Yields s i (unIntForm p d a dflt ok sat) g :=
  .runLanes h (unInt_runs ..) fun u vs => by rw [← hg]; rfl

theorem Yields.shiftInt {s : State} {i : Instr} {p : Option Pfx} {d a b : Sel} {imm : Option (BitVec 30)} {sat : Ety → Bool}
    {op : Ety → Nat → Nat → Nat} {g : Thread → List Nat → LaneRes} (h : exec i s = shiftInt i p d a b imm sat op s)
    (hg : ∀ u vs, onlyVal (op ((gty p .s32).getD .s32) (arg vs 0) (arg vs 1 % 2 ^ 8)) = g u vs) :
    Yields s i (shiftForm p d a b imm sat) g :=
  .runLanes h (shiftInt_runs ..) fun u vs => by rw [← hg]; rfl

theorem Yields.binBits {s : State} {i : Instr} {p : Option Pfx} {d a b : Sel} {imm : Option (BitVec 30)}
    {op : Ety → Nat → Nat → Nat} {g : Thread → List Nat → LaneRes} (h : exec i s = binBits i p d a b imm op s)
    (hg : ∀ u vs, onlyVal (((gty p .b32).getD .b32).toReg (op ((gty p .b32).getD .b32)
      (arg vs 0 % 2 ^ ((gty p .b32).getD .b32).width) (arg vs 1 % 2 ^ ((gty p .b32).getD .b32).width))) = g u vs) :
    Yields s i (binBitsForm p d a b imm) g :=
  .runLanes h (binBits_runs ..) fun u vs => by rw [← hg]; rfl

theorem Yields.countBits {s : State} {i : Instr} {p : Option Pfx} {d a : Sel} {op : Nat → Nat → Nat}
    {g : Thread → List Nat → LaneRes} (h : exec i s = countBits i p d a op s)
    (hg : ∀ u vs, onlyVal (op ((gty p .b32).getD .b32).width (arg vs 0 % 2 ^ ((gty p .b32).getD .b32).width)) = g u vs) :
    Yields s i (countForm p d a) g :=
  .runLanes h (countBits_runs ..) fun u vs => by rw [← hg]; rfl

end Sys2Proof.Machine
end

