-- ==== Sys2Proof/Laws/Later.lean ====
section
/-!
SUPPORT. Results that come later: what `addPends` leaves, and an instruction that marks its destination empty.
-/

namespace Sys2Proof.Machine

theorem find?_filter_key (vs : List (Nat × Nat)) (q : Nat × Nat → Bool) (k : Nat) (hq : ∀ v, v.1 = k → q v = true) :
    (vs.filter q).find? (fun l => l.1 == k) = vs.find? fun l => l.1 == k := by
  induction vs with
  | nil => rfl
  | cons v vs ih =>
    by_cases hk : v.1 = k
    · rw [List.filter_cons_of_pos (hq v hk), List.find?_cons_of_pos (by simpa using hk), List.find?_cons_of_pos (by simpa using hk)]
    · rw [List.find?_cons_of_neg (by simpa using hk)]
      by_cases h : q v = true
      · rw [List.filter_cons_of_pos h, List.find?_cons_of_neg (by simpa using hk)]; exact ih
      · rw [List.filter_cons_of_neg h]; exact ih

theorem find?_map_key (on : List Nat) (val : Nat → Nat) (k : Nat) (hk : k ∈ on) :
    (on.map fun k => (k, val k)).find? (fun l => l.1 == k) = some (k, val k) := by
  induction on with
  | nil => cases hk
  | cons j l ih =>
    by_cases h : j = k
    · subst h; simp
    · rcases List.mem_cons.1 hk with e | hk
      · exact absurd e.symm h
      · rw [List.map_cons, List.find?_cons_of_neg (by simpa using h)]; exact ih hk

/-- One outstanding result after another. -/
theorem State.addPends_fold (co : Nat) (kind : PKind) (w n : Nat) (vs : PDest → List (Nat × Nat)) (ds : List PDest) {s : State}
    {c : Cohort} (hc : find? s.cohorts co = some c) :
    ∃ t d, ds.foldl (fun s e => s.modCohort co fun c =>
        { c with pends := insert c.pends c.fresh ⟨kind, e, (c.crewOf w).sp, vs e, n⟩, fresh := c.fresh + 1 }) s = t ∧
      (∀ ci, Aside co ci s t) ∧ find? t.cohorts co = some d ∧ d = { c with pends := d.pends, fresh := d.fresh } ∧
      c.fresh ≤ d.fresh ∧ (∀ id, id < c.fresh → find? d.pends id = find? c.pends id) ∧
      ∀ e ∈ ds, ∃ id, c.fresh ≤ id ∧ id < d.fresh ∧ find? d.pends id = some ⟨kind, e, (c.crewOf w).sp, vs e, n⟩ := by
  induction ds generalizing s c with
  | nil => exact ⟨s, c, rfl, fun ci => Aside.refl .., hc, rfl, Nat.le_refl _, fun _ _ => rfl, by simp⟩
  | cons e ds ih =>
    let c1 : Cohort := { c with pends := insert c.pends c.fresh ⟨kind, e, (c.crewOf w).sp, vs e, n⟩, fresh := c.fresh + 1 }
    obtain ⟨t, d, h1, h2, h3, h4, h5, h6, h7⟩ := ih (s := s.modCohort co fun c =>
        { c with pends := insert c.pends c.fresh ⟨kind, e, (c.crewOf w).sp, vs e, n⟩, fresh := c.fresh + 1 }) (c := c1)
      (by rw [State.cohort_modCohort, hc]; rfl)
    refine ⟨t, d, h1, fun ci => (Aside.modCohort co ci s _).trans (h2 ci), h3, h4, Nat.le_trans (Nat.le_succ _) h5, ?_, ?_⟩
    · intro id hid
      rw [h6 id (Nat.lt_succ_of_lt hid)]
      exact find?_insert_ne _ _ (Nat.ne_of_lt hid)
    · intro q hq
      rcases List.mem_cons.1 hq with rfl | hq
      · refine ⟨c.fresh, Nat.le_refl _, Nat.lt_of_lt_of_le (Nat.lt_succ_self _) h5, ?_⟩
        rw [h6 c.fresh (Nat.lt_succ_self _)]
        exact find?_insert_self ..
      · obtain ⟨id, a, b, e⟩ := h7 q hq
        exact ⟨id, Nat.le_trans (Nat.le_succ _) a, b, e⟩

theorem mem_of_find? {α : Type} {m : FMap α} {k : Nat} {v : α} (h : find? m k = some v) : ∃ j, (j, v) ∈ m := by
  induction m with
  | nil => cases h
  | cons p m ih =>
    obtain ⟨j, a⟩ := p
    simp only [find?] at h
    split at h
    · cases h; exact ⟨j, List.mem_cons_self ..⟩
    · obtain ⟨i, hi⟩ := ih h; exact ⟨i, List.mem_cons_of_mem _ hi⟩

/-- An instruction whose lanes `on` are all done and whose result comes later. -/
theorem Going.later {s : State} {f : Form} {x : Issue} {c : Cohort} {on : List Nat} (h : Going s f x c on) (hon : on ≠ [])
    (kind : PKind) (o : Dst) (hd : f.dst = some o) (hs : (isSlot o.sel || isScalar o.sel) = true) (off : List Nat)
    (r : Nat → LaneRes) :
    Owes s (s.finishLater x f kind off [] (on.map fun k => (k, .done (r k)))) x c o kind on (off ++ on) (fun k => (r k).val)
      (doneThread x f on r) := by
  obtain ⟨a, l, hl⟩ : ∃ a l, on = a :: l := by
    cases hh : on with
    | nil => exact absurd hh hon
    | cons a l => exact ⟨a, l, rfl⟩
  have hdone : doneLanes (on.map fun k => (k, Lane.done (r k))) = on.map fun k => (k, r k) :=
    doneLanes_map on id r
  have htrap : trapLanes x (on.map fun k => (k, Lane.done (r k))) = [] := trapLanes_map x on id r
  obtain ⟨ha, e, he, hg, -⟩ := State.allocate_spec h.coh (h.room o hd)
  generalize hal : s.allocate x o on = al at ha he
  have hsub : ∀ k, k ∈ al.1 ↔ k ∈ on := fun k => by
    rw [← hal]; exact ⟨State.allocate_sub, h.room o hd k⟩
  have hall : ∀ k ∈ on, al.1.contains k = true := fun k hk => by simpa using (hsub k).2 hk
  have hflt : ((on.map fun k => (k, r k)).filter fun p => al.1.contains p.1) = on.map fun k => (k, r k) := by
    rw [List.filter_eq_self]; intro p hp; obtain ⟨k, hk, rfl⟩ := List.mem_map.1 hp; exact hall k hk
  let vs : List (Nat × Nat) := on.map fun k => (k, (r k).val)
  have hvs : vs.isEmpty = false := by simp [vs, hl]
  have hpd : ∀ k, pdestOf e k o = pdestOf c k o := fun k => by simp only [pdestOf, hg.regOf]
  obtain ⟨t, d, ht, h2, hd2, hrest, hfr, hold, hnew⟩ := State.addPends_fold x.co kind (x.ts.head?.getD 0) e.fresh
    (fun q => vs.filter fun v => pdestOf e v.1 o == q) (vs.map fun v => pdestOf e v.1 o).eraseDups (s := al.2) he
  have hadd : al.2.addPends x kind o vs = t := by
    unfold State.addPends
    simp only [he]
    exact ht
  have hts : ∀ k, k ∈ off ++ al.1 ↔ k ∈ off ++ on := by
    intro k
    simp only [List.mem_append, hsub]
  have hne : off ++ al.1 ≠ [] := by
    intro e
    have : a ∈ al.1 := (hsub a).2 (by simp [hl])
    rw [(List.append_eq_nil_iff.1 e).2] at this
    cases this
  obtain ⟨h1, g, hgc, hm⟩ := State.noteClose_spec f on al.1 off r hd2 hne hsub
  have hthd : ∀ k, d.thread? k = c.thread? k := fun k => by
    rw [show d.thread? k = e.thread? k by rw [hrest]; rfl, hg.thread?]
  have hlev : ∀ k u, d.thread? k = some u →
      (if k ∈ on then (u.advance x.len).note (nfOf f.p) (r k) else u.advance x.len).level = u.level := by
    intro k u _; split <;> rfl
  have hpends : g.pends = d.pends := by rw [hm.rest]
  have hw : ∀ k, (c.thread? k).isSome → g.regOf k o.sel = c.regOf k o.sel := by
    intro k hk
    obtain ⟨u, hu⟩ := Option.isSome_iff_exists.1 hk
    rw [← hthd] at hu
    by_cases hks : k ∈ off ++ al.1
    · obtain ⟨n, hn⟩ := hm.here k u hu hks
      have : (if k ∈ on then (u.advance x.len).note (nfOf f.p) (r k) else u.advance x.len).wbase = u.wbase := by
        split <;> rfl
      simp only [Cohort.regOf, hn, Option.map_some, Option.getD_some, this, ← hthd k, hu]
    · simp only [Cohort.regOf, hm.away k hks, hthd]
  have hpend : ∀ k ∈ on, ∃ id p, c.fresh ≤ id ∧ find? d.pends id = some p ∧ p.kind = kind ∧ p.dest = pdestOf c k o ∧
      p.lanes.find? (fun l => l.1 == k) = some (k, (r k).val) := by
    intro k hk
    obtain ⟨id, h5, -, h6⟩ := hnew (pdestOf e k o) (by
      simp only [List.mem_eraseDups, List.mem_map]
      exact ⟨(k, (r k).val), List.mem_map.2 ⟨k, hk, rfl⟩, rfl⟩)
    have hcf : c.fresh = e.fresh := by rw [hg.rest]
    refine ⟨id, _, hcf ▸ h5, h6, rfl, hpd k, ?_⟩
    simp only
    rw [find?_filter_key _ _ k (by rintro v rfl; simp)]
    exact find?_map_key on (fun k => (r k).val) k hk
  have hfin : s.finishLater x f kind off []
      (on.map fun k => (k, .done (r k))) =
      (t.noteLanes x.co f al.1 (on.map fun k => (k, r k))).close x
        (off ++ al.1) [] := by
    unfold State.finishLater
    have hfst : ((on.map fun k => (k, r k)).map Prod.fst) = on := by
      rw [List.map_map]; exact List.map_id _
    have hvs' : ((on.map fun k => (k, r k)).map fun p => (p.1, p.2.val)) = vs := by
      rw [List.map_map]; rfl
    simp only [hd, hs, if_true, hdone, hfst, hal, hflt, hvs', hvs, Bool.false_eq_true, if_false, hadd, htrap, List.append_nil]
  rw [hfin]
  refine ⟨(ha.trans (h2 c.ci)).trans (h1 c.ci), g, hgc, ?_, ?_, ?_, ?_, ?_, ?_, ?_⟩
  · intro k hk; rw [hpends]; exact hpend k hk
  · intro id hid
    rw [hpends, hold id (by rw [hg.rest]; exact hid), hg.rest]
  · intro k hk hsl
    obtain ⟨id, p, -, hp, -, hp2, hp3⟩ := hpend k hk
    obtain ⟨j, hj⟩ := mem_of_find? hp
    rw [← hpends] at hj
    have hkk := (h.live k hk)
    simp only [Cohort.slotEmpty, hsl, Bool.true_and, Bool.or_eq_true, hw k hkk]
    left
    simp only [Cohort.isEmpty, List.any_eq_true]
    refine ⟨(j, p), hj, ?_⟩
    simp only [hp2, pdestOf, hsl, if_true]
    simp only [beq_self_eq_true, Bool.true_or, Bool.true_and, List.any_eq_true]
    exact ⟨(k, (r k).val), List.mem_of_find?_eq_some hp3, by simp⟩
  · intro k hk hsc
    obtain ⟨id, p, -, hp, -, hp2, hp3⟩ := hpend k hk
    obtain ⟨j, hj⟩ := mem_of_find? hp
    rw [← hpends] at hj
    have hns : isSlot o.sel = false := by
      cases hx : isSlot o.sel with
      | false => rfl
      | true => rw [isSlot_scalar hx] at hsc; cases hsc
    simp only [Cohort.isHeld, List.any_eq_true]
    refine ⟨(j, p), hj, ?_⟩
    simp only [hp2, pdestOf, hns, hsc, Bool.false_eq_true, if_false, if_true, List.any_eq_true]
    exact ⟨(k, (r k).val), List.mem_of_find?_eq_some hp3, by simp⟩
  · have := hm.on.threads hts
    exact ⟨fun k u hu => this.here k u ((hthd k).trans hu), fun k hk => (this.away k hk).trans (hthd k),
      fun i j u v hu hv => this.one i j u v ((hthd i).trans hu) ((hthd j).trans hv)⟩
  · intro k reg hk
    rw [hm.regs hlev k reg (by rw [hthd]; exact hk), ← hg.reads k hk reg]
    rw [hrest]; rfl
  · rw [hm.rest, hrest, hg.rest]

theorem Ready.later {s : State} {i : Instr} {f : Form} {x : Issue} {c : Cohort} (h : Ready s i f x c) (kind : PKind) (o : Dst)
    (hd : f.dst = some o) (hs : (isSlot o.sel || isScalar o.sel) = true) (r : Nat → LaneRes) :
    Owes s (s.finishLater x f kind (x.ts.filter fun k => !(x.on c f).contains k) []
      ((x.on c f).map fun k => (k, .done (r k)))) x c o kind (x.on c f) x.ts (fun k => (r k).val)
      (doneThread x f (x.on c f) r) := by
  obtain ⟨a, d, h0, h1, h2, h3, h4, h5, h6⟩ := h.going.later h.act kind o hd hs
    (x.ts.filter fun k => !(x.on c f).contains k) r
  exact ⟨a, d, h0, h1, h2, h3, h4, h5.threads Issue.off_on, h6⟩

/-- A multi-cycle instruction starts, where it goes ahead, its unit has a slot and no lane traps. -/
theorem startsAll {s : State} {i : Instr} {f : Form} {kind : PKind} {sfu : Bool} {op : Thread → List Nat → Option LaneRes}
    {op' : Thread → List Nat → Lane LaneRes} (hx : exec i s = s.runLong i f kind sfu op')
    (ho : ∀ u vs r, op u vs = some r → op' u vs = .done r) (x : Issue) (c : Cohort) (o : Dst) (r : Nat → LaneRes)
    (h : Ready s i f x c) (hd : f.dst = some o) (hslot : s.hasSlot sfu x c)
    (hop : ∀ k ∈ x.on c f, ∀ u, c.thread? k = some u → op u (c.args f k) = some (r k)) :
    if (isSlot o.sel || isScalar o.sel) = true ∧ Delays kind c (x.on c f) then
      ∃ t, exec i s = .next t ∧ Owes s t x c o kind (x.on c f) x.ts (fun k => (r k).val) (doneThread x f (x.on c f) r)
    else Completes s i f x c r := by
  have hfree : x.ts.any c.isHeld = false := by
    rw [List.any_eq_false]; intro k hk; simp [h.free k hk]
  have hact : (c.active x f.p).isEmpty = false := by
    have := h.act
    simp only [Issue.on] at this
    cases hh : c.active x f.p <;> simp_all
  have hthread : ∀ k ∈ x.on c f, ∃ u, c.thread? k = some u ∧ s.thread? x.co k = some u := by
    intro k hk
    obtain ⟨u, hu⟩ := Option.isSome_iff_exists.1 (Cohort.active_thread hk).2
    exact ⟨u, hu, by simp only [State.thread?, h.coh, Option.bind_some]; exact hu⟩
  have hres : (((x.on c f).map fun k => (k, c.args f k)).filterMap fun p =>
      (s.thread? x.co p.1).map fun t => (p.1, op' t p.2)) = (x.on c f).map fun k => (k, .done (r k)) := by
    have : ∀ l : List Nat, (∀ k ∈ l, k ∈ x.on c f) → ((l.map fun k => (k, c.args f k)).filterMap fun p =>
        (s.thread? x.co p.1).map fun t => (p.1, op' t p.2)) = l.map fun k => (k, .done (r k)) := by
      intro l
      induction l with
      | nil => intro _; rfl
      | cons k l ih =>
        intro hl
        obtain ⟨u, hu, hu'⟩ := hthread k (hl k (List.mem_cons_self ..))
        rw [List.map_cons, List.filterMap_cons_some (by rw [hu']; rfl), ih fun j hj => hl j (List.mem_cons_of_mem _ hj)]
        show (k, op' u (c.args f k)) :: _ = _
        rw [ho u _ _ (hop k (hl k (List.mem_cons_self ..)) u hu)]
        rfl
    exact this _ fun k hk => hk
  have hrun : exec i s = .next (s.finishLong x f kind (x.ts.filter fun k => !(x.on c f).contains k) []
      ((x.on c f).map fun k => (k, .done (r k)))) := by
    rw [hx]
    unfold State.runLong State.run State.runPre
    have hgate : decide ((if sfu = true then 16 else 8) ≤ s.inFlight x.ci (c.crewOf (x.ts.head?.getD 0)).sp sfu) = false := by
      simpa [State.hasSlot] using hslot
    simp only [h.issue, h.coh, hfree, h.legal, hact, hgate, Bool.false_eq_true, if_false]
    have hops := h.operands
    simp only [Issue.on] at hops hres ⊢
    rw [hops]
    simp only [State.withPops_none fun o ho => (h.srcs o ho).1, hres]
  have hdone : doneLanes ((x.on c f).map fun k => (k, Lane.done (r k))) = (x.on c f).map fun k => (k, r k) :=
    doneLanes_map (x.on c f) id r
  have hprec : (kind != .div && (doneLanes ((x.on c f).map fun k => (k, Lane.done (r k)))).any fun p =>
      ((s.thread? x.co p.1).map fun t => t.enables != 0).getD false) = true ↔ ¬ Delays kind c (x.on c f) := by
    rw [hdone, Delays, not_or, Bool.and_eq_true, bne_iff_ne]
    refine and_congr Iff.rfl ?_
    constructor
    · intro ha hn
      obtain ⟨p, hp, hq⟩ := List.any_eq_true.1 ha
      obtain ⟨k, hk, rfl⟩ := List.mem_map.1 hp
      obtain ⟨u, hu, hu'⟩ := hthread k hk
      simp [hu', hn k hk u hu] at hq
    · intro hn
      rw [List.any_eq_true]
      apply Classical.byContradiction
      intro hc
      refine hn fun k hk u hu => ?_
      apply Classical.byContradiction
      intro he
      obtain ⟨v, hv, hv'⟩ := hthread k hk
      rw [hu] at hv; cases hv
      exact hc ⟨(k, r k), List.mem_map.2 ⟨k, hk, rfl⟩, by simpa [hv'] using he⟩
  split
  · rename_i hc
    refine ⟨_, hrun, ?_⟩
    unfold State.finishLong
    simp only [mt hprec.1 (not_not_intro hc.2), if_false, Bool.false_eq_true]
    exact h.later kind o hd hc.1 r
  · rename_i hc
    refine ⟨_, hrun, ?_⟩
    unfold State.finishLong
    by_cases he : Delays kind c (x.on c f)
    · simp only [mt hprec.1 (not_not_intro he), if_false, Bool.false_eq_true]
      have hs : (isSlot o.sel || isScalar o.sel) = false := by
        cases hh : (isSlot o.sel || isScalar o.sel) with
        | false => rfl
        | true => exact absurd ⟨hh, he⟩ hc
      unfold State.finishLater
      simp only [hd, hs, Bool.false_eq_true, if_false]
      rw [← hd]
      exact h.finish r
    · simp only [hprec.2 he, if_true]
      exact h.finish r

theorem divInt_runs (i : Instr) (p : Option Pfx) (d a b : Sel) (imm : Option (BitVec 30)) (isRem : Bool) (s : State) :
    let t := (gty p .s32).getD .s32
    divInt i p d a b imm isRem s =
    s.runLong i (binIntForm p d a b imm isSN32 fun t => !isRem && isSN t) .div false
      fun _ vs =>
        let A := t.num (arg vs 0)
        let B := t.num (arg vs 1)
        if B = 0 then .trap .intDivzero 0
        else justVal (reduce t (satOf p) (if isRem then A.tmod B else A.tdiv B)) := rfl

theorem divFp_runs (i : Instr) (p : Option Pfx) (d a b : Sel) (imm : Option (BitVec 30)) (s : State) :
    let t := elemTy p .f32
    divFp i p d a b imm s = s.runLong i (binFpForm p d a b imm accAll) (.multi false) false
      fun th vs => fpRes th (fout p t th (divOp (roundOf p th) (fin t th (arg vs 0)) (fin t th (arg vs 1)))) := rfl

theorem execFsqrt_runs (p : Option Pfx) (d a : Sel) (s : State) :
    let t := elemTy p .f32
    execFsqrt p d a s = s.runLong (.fsqrt p d a) (unFpForm p a accAll isFp fun t => dstOf t d) (.multi false) false
      fun th vs => fpRes th (fout p t th (rootVal (fin t th (arg vs 0)))) := rfl

theorem sfuFp_runs (i : Instr) (p : Option Pfx) (d a : Sel) (ok : Ety → Bool) (f : Ety → Nat → Nat × Fl) (s : State) :
    let t := elemTy p .f32
    sfuFp i p d a ok f s = s.runLong i (unFpForm p a accSatNf ok fun t => dstOf t d) (.multi true) true
      fun th vs => fpRes th (t.finish th.ftz (satOf p) (f t (t.flush th.ftz (arg vs 0)))) := rfl

/-! Their arrival. -/

/-- The lane words of a delayed result, put into a cohort. -/
def Cohort.putAll (c : Cohort) (r : Nat) (wide : Bool) (ls : List (Nat × Nat)) : Cohort :=
  ls.foldl (fun c l =>
    let c := c.putLane l.1 r (BitVec.ofNat 32 l.2)
    if wide then c.putLane l.1 (r + 1) (BitVec.ofNat 32 (l.2 / 2 ^ 32)) else c) c

theorem State.setLanes_fold (co r : Nat) (wide : Bool) (ls : List (Nat × Nat)) {s : State} {c : Cohort}
    (hc : find? s.cohorts co = some c) :
    ∃ t, ls.foldl (fun s l =>
        let s := s.setLane co l.1 r (BitVec.ofNat 32 l.2)
        if wide then s.setLane co l.1 (r + 1) (BitVec.ofNat 32 (l.2 / 2 ^ 32)) else s) s = t ∧
      t = { s with cohorts := t.cohorts } ∧ (∀ cp, cp ≠ co → find? t.cohorts cp = find? s.cohorts cp) ∧
      find? t.cohorts co = some (c.putAll r wide ls) := by
  induction ls generalizing s c with
  | nil => exact ⟨s, rfl, rfl, fun _ _ => rfl, hc⟩
  | cons l ls ih =>
    let c1 : Cohort := if wide then (c.putLane l.1 r (BitVec.ofNat 32 l.2)).putLane l.1 (r + 1) (BitVec.ofNat 32 (l.2 / 2 ^ 32))
      else c.putLane l.1 r (BitVec.ofNat 32 l.2)
    let s1 : State := if wide then (s.setLane co l.1 r (BitVec.ofNat 32 l.2)).setLane co l.1 (r + 1) (BitVec.ofNat 32 (l.2 / 2 ^ 32))
      else s.setLane co l.1 r (BitVec.ofNat 32 l.2)
    have hs1 : find? s1.cohorts co = some c1 := by
      simp only [s1, c1]
      cases wide <;> simp [State.setLane, hc]
    have hr : s1 = { s with cohorts := s1.cohorts } := by
      simp only [s1]; cases wide <;> rfl
    have ho : ∀ cp, cp ≠ co → find? s1.cohorts cp = find? s.cohorts cp := by
      intro cp h
      simp only [s1]
      cases wide with
      | false => exact State.cohort_modCohort_ne s _ h
      | true => exact (State.cohort_modCohort_ne _ _ h).trans (State.cohort_modCohort_ne s _ h)
    obtain ⟨t, h1, h2, h3, h4⟩ := ih hs1
    refine ⟨t, h1, ?_, fun cp h => (h3 cp h).trans (ho cp h), h4⟩
    exact h2.trans (congrArg (fun (z : State) => { z with cohorts := t.cohorts }) hr)

theorem Cohort.putAll_rest (c : Cohort) (r : Nat) (wide : Bool) (ls : List (Nat × Nat)) :
    c.putAll r wide ls = { c with crews := (c.putAll r wide ls).crews } := by
  induction ls generalizing c with
  | nil => rfl
  | cons l ls ih =>
    have h := ih (if wide then (c.putLane l.1 r (BitVec.ofNat 32 l.2)).putLane l.1 (r + 1) (BitVec.ofNat 32 (l.2 / 2 ^ 32))
      else c.putLane l.1 r (BitVec.ofNat 32 l.2))
    refine Eq.trans h ?_
    cases wide <;> rfl

theorem Cohort.phys?_putLane_isSome (c : Cohort) (k reg : Nat) (v : Word) {w r : Nat} (h : (c.phys? w r).isSome) :
    ((c.putLane k reg v).phys? w r).isSome := by
  rw [Cohort.phys?_putLane]; split
  · simpa using h
  · exact h

theorem Cohort.putAll_reads (r : Nat) (wide : Bool) (ls : List (Nat × Nat)) (c : Cohort) (hn : (ls.map Prod.fst).Nodup)
    (hm : ∀ l ∈ ls, (c.phys? (l.1 / 32) r).isSome ∧ (wide = true → (c.phys? (l.1 / 32) (r + 1)).isSome)) :
    (∀ k v, (k, v) ∈ ls → (c.putAll r wide ls).vreg k r = (BitVec.ofNat 32 v, false) ∧
      (wide = true → (c.putAll r wide ls).vreg k (r + 1) = (BitVec.ofNat 32 (v / 2 ^ 32), false))) ∧
    (∀ k q, ¬ (k ∈ ls.map Prod.fst ∧ (q = r ∨ wide = true ∧ q = r + 1)) → (c.putAll r wide ls).vreg k q = c.vreg k q) := by
  induction ls generalizing c with
  | nil => exact ⟨by simp, fun _ _ _ => rfl⟩
  | cons l ls ih =>
    obtain ⟨j, w⟩ := l
    let c1 : Cohort := if wide then (c.putLane j r (BitVec.ofNat 32 w)).putLane j (r + 1) (BitVec.ofNat 32 (w / 2 ^ 32))
      else c.putLane j r (BitVec.ofNat 32 w)
    rw [List.map_cons, List.nodup_cons] at hn
    obtain ⟨hj1, hj2⟩ := hm (j, w) (List.mem_cons_self ..)
    have hk1 : ∀ {a b}, (c.phys? a b).isSome → (c1.phys? a b).isSome := by
      intro a b h
      simp only [c1]; cases wide
      · exact Cohort.phys?_putLane_isSome _ _ _ _ h
      · exact Cohort.phys?_putLane_isSome _ _ _ _ (Cohort.phys?_putLane_isSome _ _ _ _ h)
    have hread : ∀ k q, c1.vreg k q = if k = j ∧ q = r then (BitVec.ofNat 32 w, false)
        else if wide = true ∧ k = j ∧ q = r + 1 then (BitVec.ofNat 32 (w / 2 ^ 32), false) else c.vreg k q := by
      intro k q
      simp only [c1]
      cases hw : wide with
      | false => simp [Cohort.vreg_putLane _ _ _ _ _ _ hj1]
      | true =>
        simp only [if_true, true_and]
        rw [Cohort.vreg_putLane _ _ _ _ _ _ (Cohort.phys?_putLane_isSome _ _ _ _ (hj2 hw)),
          Cohort.vreg_putLane _ _ _ _ _ _ hj1]
        by_cases h1 : k = j ∧ q = r
        · have : ¬ (k = j ∧ q = r + 1) := by omega
          simp [h1]
        · simp [h1]
    obtain ⟨h1, h2⟩ := ih c1 hn.2 fun l hl =>
      ⟨hk1 (hm l (List.mem_cons_of_mem _ hl)).1, fun hw => hk1 ((hm l (List.mem_cons_of_mem _ hl)).2 hw)⟩
    have e : c.putAll r wide ((j, w) :: ls) = c1.putAll r wide ls := rfl
    rw [e]
    refine ⟨?_, ?_⟩
    · intro k v hkv
      rcases List.mem_cons.1 hkv with he | hkv
      · cases he
        refine ⟨?_, fun hw => ?_⟩
        · rw [h2 _ r fun h => hn.1 h.1, hread]; simp
        · rw [h2 _ (r + 1) fun h => hn.1 h.1, hread]; simp [hw]
      · exact h1 k v hkv
    · intro k q hq
      rw [h2 k q fun h => hq ⟨List.mem_cons_of_mem _ h.1, h.2⟩, hread, if_neg, if_neg]
      · rintro ⟨a, rfl, b⟩; exact hq ⟨List.mem_cons_self .., .inr ⟨a, b⟩⟩
      · rintro ⟨rfl, b⟩; exact hq ⟨List.mem_cons_self .., .inl b⟩

theorem State.putEntries_other {s : State} {co : Nat} {p : Pend} (h : ∀ role q n es, p.kind ≠ .ldq role q n es) :
    s.putEntries co p = s := by
  unfold State.putEntries
  cases hk : p.kind with
  | ldq role q n es => exact absurd hk (h role q n es)
  | _ => rfl

/-- The arrival of a delayed result that is no entry of a load queue. -/
theorem State.landPend_spec {s : State} {co id : Nat} {c : Cohort} {p : Pend} (hc : find? s.cohorts co = some c)
    (hp : find? c.pends id = some p) (hl : Landable c p) (hk : ∀ role q n es, p.kind ≠ .ldq role q n es) :
    ResultArrived s (s.landPend co id) co c id p := by
  unfold State.landPend
  simp only [hc, Option.bind_some, hp, State.putEntries_other hk]
  unfold State.putResult
  cases hd : p.dest with
  | drop =>
    refine ⟨rfl, fun cp h => State.cohort_modCohort_ne s _ h, { c with pends := erase c.pends id }, ?_, ?_, ?_, rfl⟩
    · rw [State.cohort_modCohort, hc]; rfl
    · intro r w h; rw [hd] at h; cases h
    · intro n e h; rw [hd] at h; cases h
  | vreg r wide =>
    obtain ⟨t, h1, h2, h3, h4⟩ := State.setLanes_fold co r wide p.lanes hc
    obtain ⟨h5, h6⟩ := Cohort.putAll_reads r wide p.lanes c hl.keys (hl.mapped r wide hd)
    have hrest := Cohort.putAll_rest c r wide p.lanes
    simp only [h1]
    refine ⟨?_, fun cp h => (State.cohort_modCohort_ne t _ h).trans (h3 cp h),
      { (c.putAll r wide p.lanes) with pends := erase c.pends id }, ?_, ?_, ?_, ?_⟩
    · have := congrArg (fun (z : State) => z.modCohort co fun c => { c with pends := erase c.pends id }) h2
      exact this
    · rw [State.cohort_modCohort, h4, Option.map_some]
      rw [hrest]
    · intro r' w' h
      rw [hd] at h; cases h
      exact ⟨h5, h6, by rw [hrest]⟩
    · intro n e h; rw [hd] at h; cases h
    · rw [hrest]
  | sreg n ety =>
    cases hls : p.lanes with
    | nil =>
      refine ⟨rfl, fun cp h => State.cohort_modCohort_ne s _ h, { c with pends := erase c.pends id }, ?_, ?_, ?_, rfl⟩
      · rw [State.cohort_modCohort, hc]; rfl
      · intro r w h; rw [hd] at h; cases h
      · intro m e h; exact ⟨fun _ _ => rfl, fun k v l hl => by rw [hls] at hl; cases hl⟩
    | cons l ls =>
      refine ⟨rfl, fun cp h => (State.cohort_modCohort_ne _ _ h).trans (State.cohort_modCohort_ne s _ h),
        { c with s := insert c.s n (scalarExt ety.isPair ety l.2), pends := erase c.pends id }, ?_, ?_, ?_, rfl⟩
      · rw [State.cohort_modCohort, State.cohort_modCohort, hc]; rfl
      · intro r w h; rw [hd] at h; cases h
      · intro m e h
        rw [hd] at h; cases h
        refine ⟨fun _ _ => rfl, fun k v l' hl => ?_⟩
        rw [hls] at hl; cases hl; rfl

end Sys2Proof.Machine
end

