-- ==== Sys2Proof/Laws/Trap.lean ====
section
/-!
SUPPORT. An instruction of which some threads trap: the others complete, and the traps are taken after that.
-/

namespace Sys2Proof.Machine

theorem State.close_traps (s : State) (x : Issue) (done : List Nat) (zs : List (Nat × Cause)) :
    s.close x done zs = (s.close x done []).takeTraps x.co x.g zs := by
  unfold State.close
  simp only [State.takeTraps_nil]

theorem State.writeDst_noTraps {s : State} {x : Issue} {o : Dst} (vs : List (Nat × Nat)) (h1 : isQueue o.sel = false)
    (h2 : isStream o.sel = false) : (s.writeDst x o vs).2.1 = [] := by
  unfold State.writeDst
  split
  · rfl
  · simp only [h1, h2, Bool.false_eq_true, if_false]
    split
    · rfl
    · split
      · rfl
      · split <;> rfl

/-- The lanes that are done, as a list of results of their own. -/
def onlyDone (rs : List (Nat × Lane LaneRes)) : List (Nat × Lane LaneRes) := (doneLanes rs).map fun p => (p.1, .done p.2)

theorem doneLanes_onlyDone (rs : List (Nat × Lane LaneRes)) : doneLanes (onlyDone rs) = doneLanes rs := by
  simp only [onlyDone]
  rw [doneLanes_map (doneLanes rs) Prod.fst Prod.snd]
  exact List.map_id _

theorem trapLanes_onlyDone (x : Issue) (rs : List (Nat × Lane LaneRes)) : trapLanes x (onlyDone rs) = [] :=
  trapLanes_map x (doneLanes rs) Prod.fst Prod.snd

theorem State.finish_traps {s : State} {x : Issue} {f : Form} (hd : ∀ o, f.dst = some o → isQueue o.sel = false ∧ isStream o.sel = false)
    (off : List Nat) (zs : List (Nat × Cause)) (rs : List (Nat × Lane LaneRes)) :
    s.finish x f off zs rs = (s.finish x f off [] (onlyDone rs)).takeTraps x.co x.g (zs ++ trapLanes x rs) := by
  unfold State.finish
  simp only [doneLanes_onlyDone, trapLanes_onlyDone, List.nil_append]
  cases h : f.dst with
  | none =>
    simp only [List.append_nil]
    exact State.close_traps ..
  | some o =>
    obtain ⟨h1, h2⟩ := hd o h
    simp only [State.writeDst_noTraps _ h1 h2, List.append_nil]
    exact State.close_traps ..

theorem State.finishLater_traps {s : State} {x : Issue} {f : Form} {kind : PKind}
    (hd : ∀ o, f.dst = some o → isQueue o.sel = false ∧ isStream o.sel = false) (off : List Nat) (zs : List (Nat × Cause)) (rs : List (Nat × Lane LaneRes)) :
    s.finishLater x f kind off zs rs = (s.finishLater x f kind off [] (onlyDone rs)).takeTraps x.co x.g (zs ++ trapLanes x rs) := by
  unfold State.finishLater
  cases h : f.dst with
  | none => exact State.finish_traps hd off zs rs
  | some o =>
    simp only [doneLanes_onlyDone, trapLanes_onlyDone, List.nil_append]
    split
    · exact State.close_traps ..
    · exact State.finish_traps hd off zs rs

theorem State.finishLong_traps {s : State} {x : Issue} {f : Form} {kind : PKind}
    (hd : ∀ o, f.dst = some o → isQueue o.sel = false ∧ isStream o.sel = false) (off : List Nat) (zs : List (Nat × Cause)) (rs : List (Nat × Lane LaneRes)) :
    s.finishLong x f kind off zs rs = (s.finishLong x f kind off [] (onlyDone rs)).takeTraps x.co x.g (zs ++ trapLanes x rs) := by
  unfold State.finishLong
  simp only [doneLanes_onlyDone]
  split
  · exact State.finish_traps hd off zs rs
  · exact State.finishLater_traps hd off zs rs

/-- The results of active threads some of which trap with `z`. -/
theorem lanes_split {x : Issue} {c : Cohort} {f : Form} {op : Thread → List Nat → Option LaneRes} {z : Trap} {r : Nat → LaneRes}
    (hr : ∀ k ∈ x.good c f op, ∀ u, c.thread? k = some u → op u (c.args f k) = some (r k)) (res : Nat → Lane LaneRes)
    (hres : ∀ k u, c.thread? k = some u → res k = match op u (c.args f k) with
      | some a => .done a
      | none => .trap z 0) :
    onlyDone ((x.on c f).map fun k => (k, res k)) = (x.good c f op).map (fun k => (k, .done (r k))) ∧
    trapLanes x ((x.on c f).map fun k => (k, res k)) = (x.trapping c f op).map (fun k => (k, x.cause z 0)) := by
  have key : ∀ l : List Nat, (∀ k ∈ l, (c.thread? k).isSome) →
      (∀ k ∈ l.filter fun k => ((c.thread? k).bind fun u => op u (c.args f k)).isSome, ∀ u, c.thread? k = some u →
        op u (c.args f k) = some (r k)) →
      onlyDone (l.map fun k => (k, res k)) =
        (l.filter fun k => ((c.thread? k).bind fun u => op u (c.args f k)).isSome).map (fun k => (k, .done (r k))) ∧
      trapLanes x (l.map fun k => (k, res k)) =
        (l.filter fun k => ((c.thread? k).bind fun u => op u (c.args f k)).isNone).map (fun k => (k, x.cause z 0)) := by
    intro l
    induction l with
    | nil => intro _ _; exact ⟨rfl, rfl⟩
    | cons k l ih =>
      intro hl hg
      obtain ⟨u, hu⟩ := Option.isSome_iff_exists.1 (hl k (List.mem_cons_self ..))
      have hrk := hres k u hu
      obtain ⟨i1, i2⟩ := ih (fun j hj => hl j (List.mem_cons_of_mem _ hj)) fun j hj => hg j (by
        rw [List.filter_cons]; split
        · exact List.mem_cons_of_mem _ hj
        · exact hj)
      cases ho : op u (c.args f k) with
      | some a =>
        have ha : a = r k := by
          have := hg k (by rw [List.filter_cons_of_pos (by simp [hu, ho])]; exact List.mem_cons_self ..) u hu
          rw [ho] at this; cases this; rfl
        rw [ho] at hrk
        rw [List.filter_cons_of_pos (by simp [hu, ho]), List.filter_cons_of_neg (by simp [hu, ho]), List.map_cons, List.map_cons, ← i2]
        refine ⟨?_, ?_⟩
        · rw [← i1, ← ha]
          simp only [onlyDone, doneLanes, List.filterMap_cons, hrk, List.map_cons]
        · simp only [trapLanes, List.filterMap_cons, hrk]
      | none =>
        rw [ho] at hrk
        rw [List.filter_cons_of_neg (by simp [hu, ho]), List.filter_cons_of_pos (by simp [hu, ho]), List.map_cons, List.map_cons, ← i1]
        refine ⟨?_, ?_⟩
        · simp only [onlyDone, doneLanes, List.filterMap_cons, hrk]
        · rw [← i2]; simp only [trapLanes, List.filterMap_cons, hrk]
  exact key _ (fun k hk => (Cohort.active_thread hk).2) hr

/-- Threads of a group that do not trap: those the guard left out and the good ones. -/
theorem Issue.rest_mem {x : Issue} {c : Cohort} {f : Form} {op : Thread → List Nat → Option LaneRes} (k : Nat) :
    k ∈ (x.ts.filter fun k => !(x.on c f).contains k) ++ x.good c f op ↔
      k ∈ x.ts.filter fun k => !(x.trapping c f op).contains k := by
  simp only [Issue.good, Issue.trapping, List.mem_append, List.mem_filter, List.contains_eq_mem, Bool.not_eq_true',
    decide_eq_false_iff_not, Option.isNone_iff_eq_none]
  constructor
  · rintro (⟨h1, h2⟩ | ⟨h1, h2⟩)
    · exact ⟨h1, fun h => h2 h.1⟩
    · refine ⟨(Cohort.active_thread h1).1, fun h => ?_⟩
      rw [h.2] at h2; cases h2
  · rintro ⟨h1, h2⟩
    by_cases h : k ∈ x.on c f
    · refine .inr ⟨h, ?_⟩
      cases hh : (c.thread? k).bind fun u => op u (c.args f k) with
      | none => exact absurd ⟨h, hh⟩ h2
      | some a => rfl
    · exact .inl ⟨h1, h⟩

/-- What the lanes of an instruction come to, as `exec` meets them. -/
theorem Ready.results {s : State} {i : Instr} {f : Form} {x : Issue} {c : Cohort} (h : Ready s i f x c)
    (op' : Thread → List Nat → Lane LaneRes) :
    (((x.on c f).map fun k => (k, c.args f k)).filterMap fun p =>
      (s.thread? x.co p.1).map fun t => (p.1, op' t p.2)) =
    (x.on c f).map fun k => (k, match c.thread? k with
      | some u => op' u (c.args f k)
      | none => .trap .illegalOp 0) := by
  have : ∀ l : List Nat, (∀ k ∈ l, k ∈ x.on c f) → ((l.map fun k => (k, c.args f k)).filterMap fun p =>
      (s.thread? x.co p.1).map fun t => (p.1, op' t p.2)) = l.map fun k => (k, match c.thread? k with
        | some u => op' u (c.args f k)
        | none => .trap .illegalOp 0) := by
    intro l
    induction l with
    | nil => intro _; rfl
    | cons k l ih =>
      intro hl
      obtain ⟨u, hu⟩ := Option.isSome_iff_exists.1 (Cohort.active_thread (hl k (List.mem_cons_self ..))).2
      have hu' : s.thread? x.co k = some u := by simp only [State.thread?, h.coh, Option.bind_some]; exact hu
      rw [List.map_cons, List.filterMap_cons_some (by rw [hu']; rfl), ih fun j hj => hl j (List.mem_cons_of_mem _ hj)]
      simp only [List.map_cons, hu]
  exact this _ fun k hk => hk

/-- What is known of an instruction some of whose threads trap, before its end. -/
theorem Ready.split {s : State} {i : Instr} {f : Form} {x : Issue} {c : Cohort} (h : Ready s i f x c)
    {op : Thread → List Nat → Option LaneRes} (hroom : ∀ o, f.dst = some o → ∀ k ∈ x.good c f op, k ∈ (s.allocate x o (x.good c f op)).1) :
    Going s f x c (x.good c f op) :=
  ⟨h.coh, fun _ hk => (Cohort.active_thread (List.mem_filter.1 hk).1).2, fun o ho => ⟨(h.dst o ho).1, (h.dst o ho).2.1⟩, hroom⟩

theorem modify_id {α : Type} (m : FMap α) (k : Nat) (f : α → α) (h : ∀ v, f v = v) : modify m k f = m := by
  unfold modify
  refine (List.map_congr_left (g := id) fun p _ => ?_).trans (List.map_id _)
  simp only [h, id]
  split <;> rfl

theorem State.noteLanes_nil (s : State) (co : Nat) (f : Form) (ok : List (Nat × LaneRes)) : s.noteLanes co f [] ok = s := by
  have h : s.noteLanes co f [] ok = { s with cohorts := s.cohorts } := by
    simp only [State.noteLanes, State.modThreads, State.modCohort]
    congr 1
    refine modify_id _ _ _ fun v => ?_
    simp
  exact h

theorem State.finish_none {s : State} {x : Issue} {f : Form} {c : Cohort} (hc : find? s.cohorts x.co = some c) :
    s.finish x f [] [] [] = s := by
  unfold State.finish
  cases hd : f.dst with
  | none =>
    simp only [doneLanes, trapLanes, List.filterMap_nil, List.map_nil, List.append_nil, State.noteLanes_nil]
    simp [State.close, State.takeTraps_nil]
  | some o =>
    have hw : s.writeDst x o ([] : List (Nat × Nat)) = ([], [], s) := by simp [State.writeDst, hc]
    simp only [doneLanes, trapLanes, List.filterMap_nil, List.map_nil, hw, List.append_nil, State.noteLanes_nil]
    simp [State.close, State.takeTraps_nil]

theorem State.finishLater_none {s : State} {x : Issue} {f : Form} {kind : PKind} {c : Cohort} (hc : find? s.cohorts x.co = some c) :
    s.finishLater x f kind [] [] [] = s := by
  unfold State.finishLater
  cases hd : f.dst with
  | none => exact State.finish_none hc
  | some o =>
    simp only []
    split
    · have ha : s.allocate x o [] = ([], s) := by
        unfold State.allocate
        split
        · rfl
        · simp [crewsOf, State.allocCrews]
      simp only [doneLanes, trapLanes, List.filterMap_nil, List.map_nil, ha, List.filter_nil, List.isEmpty_nil, if_true,
        State.noteLanes_nil, List.append_nil]
      simp [State.close, State.takeTraps_nil]
    · exact State.finish_none hc

/-- Lanes that work alone, some of which trap. -/
theorem TrapsAlone.of {s : State} {i : Instr} {f : Form} {z : Trap} {op : Thread → List Nat → Option LaneRes}
    {op' : Thread → List Nat → Lane LaneRes} (hx : exec i s = s.runLanes i f op')
    (ho : ∀ u vs, op' u vs = match op u vs with
      | some a => .done a
      | none => .trap z 0) :
    TrapsAlone s i f z op (fun _ _ => True) fun t x c good rest r =>
      Wrote s t x c f.dst good rest (fun k => (r k).val) (doneThread x f good r) := by
  intro x c r h _ good bad hbad hroom hr rest
  have hfree : x.ts.any c.isHeld = false := by
    rw [List.any_eq_false]; intro k hk; simp [h.free k hk]
  have hact : (c.active x f.p).isEmpty = false := by
    have := h.act
    simp only [Issue.on] at this
    cases hh : c.active x f.p <;> simp_all
  have hd : ∀ o, f.dst = some o → isQueue o.sel = false ∧ isStream o.sel = false :=
    fun o ho => ⟨(h.dst o ho).1, (h.dst o ho).2.1⟩
  obtain ⟨h1, h2⟩ := lanes_split (z := z) hr (fun k => match c.thread? k with
    | some u => op' u (c.args f k)
    | none => .trap .illegalOp 0) (by intro k u hu; simp only [hu, ho])
  refine ⟨s.finish x f (x.ts.filter fun k => !(x.on c f).contains k) [] (good.map fun k => (k, .done (r k))), ?_, ?_, ?_⟩
  · intro hrest
    have hnil : (x.ts.filter fun k => !(x.on c f).contains k) ++ good = [] := by
      rw [List.eq_nil_iff_forall_not_mem]
      intro k hk
      have : k ∈ rest := (Issue.rest_mem k).1 hk
      rw [hrest] at this; cases this
    obtain ⟨e1, e2⟩ := List.append_eq_nil_iff.1 hnil
    rw [e1, e2]
    exact State.finish_none h.coh
  · intro hrest
    refine ((h.split hroom).finish _ ?_ r).threads Issue.rest_mem
    intro hnil
    apply hrest
    rw [List.eq_nil_iff_forall_not_mem]
    intro k hk
    have := (Issue.rest_mem (op := op) k).2 hk
    rw [show (x.ts.filter fun k => !(x.on c f).contains k) ++ x.good c f op = [] from hnil] at this; cases this
  · rw [hx]
    unfold State.runLanes State.run State.runPre
    simp only [h.issue, h.coh, hfree, h.legal, hact, open_, Bool.false_eq_true, if_false]
    have hops := h.operands
    have hres := h.results op'
    simp only [Issue.on] at hops hres ⊢
    rw [hops]
    simp only [State.withPops_none fun o ho => (h.srcs o ho).1, hres]
    rw [State.finish_traps hd, List.nil_append]
    simp only [Issue.on] at h1 h2
    rw [h1, h2]

/-- A multi-cycle instruction, some of whose threads trap. -/
theorem TrapsAlone.long {s : State} {i : Instr} {f : Form} {z : Trap} {kind : PKind} {op : Thread → List Nat → Option LaneRes}
    {op' : Thread → List Nat → Lane LaneRes} {sfu : Bool} (hx : exec i s = s.runLong i f kind sfu op')
    (ho : ∀ u vs, op' u vs = match op u vs with
      | some a => .done a
      | none => .trap z 0) :
    TrapsAlone s i f z op (s.hasSlot sfu) fun t x c good rest r =>
      ∀ o, f.dst = some o →
        if good ≠ [] ∧ (isSlot o.sel || isScalar o.sel) = true ∧ Delays kind c good then
          Owes s t x c o kind good rest (fun k => (r k).val) (doneThread x f good r)
        else Wrote s t x c f.dst good rest (fun k => (r k).val) (doneThread x f good r) := by
  intro x c r h hslot good bad hbad hroom hr rest
  have hfree : x.ts.any c.isHeld = false := by
    rw [List.any_eq_false]; intro k hk; simp [h.free k hk]
  have hact : (c.active x f.p).isEmpty = false := by
    have := h.act
    simp only [Issue.on] at this
    cases hh : c.active x f.p <;> simp_all
  have hd : ∀ o, f.dst = some o → isQueue o.sel = false ∧ isStream o.sel = false :=
    fun o ho => ⟨(h.dst o ho).1, (h.dst o ho).2.1⟩
  obtain ⟨h1, h2⟩ := lanes_split (z := z) hr (fun k => match c.thread? k with
    | some u => op' u (c.args f k)
    | none => .trap .illegalOp 0) (by intro k u hu; simp only [hu, ho])
  have hdone : doneLanes (good.map fun k => (k, Lane.done (r k))) = good.map fun k => (k, r k) := doneLanes_map good id r
  have hprec : (kind != .div && (doneLanes (good.map fun k => (k, Lane.done (r k)))).any fun p =>
      ((s.thread? x.co p.1).map fun t => t.enables != 0).getD false) = true ↔ ¬ Delays kind c good := by
    rw [hdone, Delays, not_or, Bool.and_eq_true, bne_iff_ne]
    refine and_congr Iff.rfl ?_
    constructor
    · intro ha hn
      obtain ⟨p, hp, hq⟩ := List.any_eq_true.1 ha
      obtain ⟨k, hk, rfl⟩ := List.mem_map.1 hp
      obtain ⟨u, hu⟩ := Option.isSome_iff_exists.1 (Cohort.active_thread (List.mem_filter.1 hk).1).2
      have hu' : s.thread? x.co k = some u := by simp only [State.thread?, h.coh, Option.bind_some]; exact hu
      simp [hu', hn k hk u hu] at hq
    · intro hn
      rw [List.any_eq_true]
      apply Classical.byContradiction
      intro hc
      refine hn fun k hk u hu => ?_
      apply Classical.byContradiction
      intro he
      have hu' : s.thread? x.co k = some u := by simp only [State.thread?, h.coh, Option.bind_some]; exact hu
      exact hc ⟨(k, r k), List.mem_map.2 ⟨k, hk, rfl⟩, by simpa [hu'] using he⟩
  refine ⟨s.finishLong x f kind (x.ts.filter fun k => !(x.on c f).contains k) [] (good.map fun k => (k, .done (r k))), ?_, ?_, ?_⟩
  · intro hrest
    have hnil : (x.ts.filter fun k => !(x.on c f).contains k) ++ good = [] := by
      rw [List.eq_nil_iff_forall_not_mem]
      intro k hk
      have : k ∈ rest := (Issue.rest_mem k).1 hk
      rw [hrest] at this; cases this
    obtain ⟨e1, e2⟩ := List.append_eq_nil_iff.1 hnil
    rw [e1, e2]
    unfold State.finishLong
    dsimp only
    split
    · exact State.finish_none h.coh
    · exact State.finishLater_none h.coh
  · intro hrest o hdo
    have hfin : Wrote s (s.finish x f (x.ts.filter fun k => !(x.on c f).contains k) [] (good.map fun k => (k, .done (r k)))) x c
        f.dst good rest (fun k => (r k).val) (doneThread x f good r) := by
      refine ((h.split hroom).finish _ ?_ r).threads Issue.rest_mem
      intro hnil
      apply hrest
      rw [List.eq_nil_iff_forall_not_mem]
      intro k hk
      have := (Issue.rest_mem (op := op) k).2 hk
      rw [show (x.ts.filter fun k => !(x.on c f).contains k) ++ x.good c f op = [] from hnil] at this; cases this
    unfold State.finishLong
    split
    · rename_i hc
      simp only [mt hprec.1 (not_not_intro hc.2.2), if_false, Bool.false_eq_true]
      obtain ⟨a, d, g0, g1, g2, g3, g4, g5, g6⟩ := (h.split hroom).later hc.1 kind o hdo hc.2.1
        (x.ts.filter fun k => !(x.on c f).contains k) r
      exact ⟨a, d, g0, g1, g2, g3, g4, g5.threads Issue.rest_mem, g6⟩
    · rename_i hc
      by_cases he : Delays kind c good
      · simp only [mt hprec.1 (not_not_intro he), if_false, Bool.false_eq_true]
        by_cases hs : (isSlot o.sel || isScalar o.sel) = true
        · have hg : good = [] := Classical.byContradiction fun hg => hc ⟨hg, hs, he⟩
          have : s.finishLater x f kind (x.ts.filter fun k => !(x.on c f).contains k) [] (good.map fun k => (k, .done (r k))) =
              s.finish x f (x.ts.filter fun k => !(x.on c f).contains k) [] (good.map fun k => (k, .done (r k))) := by
            rw [hg]
            have ha : s.allocate x o [] = ([], s) := by
              unfold State.allocate
              split
              · rfl
              · simp [crewsOf, State.allocCrews]
            have hw : s.writeDst x o ([] : List (Nat × Nat)) = ([], [], s) := by simp [State.writeDst, h.coh]
            unfold State.finishLater State.finish
            simp only [hdo, hs, if_true, doneLanes, trapLanes, List.filterMap_nil, List.map_nil, ha, hw, List.filter_nil,
              List.isEmpty_nil, State.noteLanes_nil, List.append_nil]
          rw [this]
          exact hfin
        · unfold State.finishLater
          simp only [hdo, hs, Bool.false_eq_true, if_false]
          rw [← hdo]
          exact hfin
      · simp only [hprec.2 he, if_true]
        exact hfin
  · rw [hx]
    unfold State.runLong State.run State.runPre
    have hgate : decide ((if sfu = true then 16 else 8) ≤ s.inFlight x.ci (c.crewOf (x.ts.head?.getD 0)).sp sfu) = false := by
      simpa [State.hasSlot] using hslot
    simp only [h.issue, h.coh, hfree, h.legal, hact, hgate, Bool.false_eq_true, if_false]
    have hops := h.operands
    have hres := h.results op'
    simp only [Issue.on] at hops hres ⊢
    rw [hops]
    simp only [State.withPops_none fun o ho => (h.srcs o ho).1, hres]
    rw [State.finishLong_traps hd, List.nil_append]
    simp only [Issue.on] at h1 h2
    rw [h1, h2]

theorem YieldsFp.of {s : State} {i : Instr} {f : Form} {op : Thread → List Nat → LaneRes}
    {op' : Thread → List Nat → Lane LaneRes} (h : exec i s = s.runLanes i f op')
    (ho : ∀ u vs, op' u vs = if (op u vs).fl &&& u.enables ≠ 0 then .trap .fpTrap 0 else .done (op u vs)) :
    YieldsFp s i f op where
  completes x c r hr hu hk := by
    obtain ⟨t, h1, h2⟩ := hr.lanes op' r fun k hk' u hu' => by
      have := hu k hk' u hu'
      rw [ho, if_neg (not_not_intro this), hk k hk' u hu']
    exact ⟨t, h.trans h1, h2⟩
  traps := .of h fun u vs => by rw [ho]; split <;> rfl

/-- A multi-cycle instruction starts. -/
theorem Starts.of {s : State} {i : Instr} {f : Form} {kind : PKind} {sfu : Bool} {z : Trap}
    {op : Thread → List Nat → Option LaneRes} {op' : Thread → List Nat → Lane LaneRes} (hx : exec i s = s.runLong i f kind sfu op')
    (ho : ∀ u vs, op' u vs = match op u vs with
      | some a => .done a
      | none => .trap z 0) : Starts s i f kind sfu z op where
  starts x c o r h hd hslot hop :=
    startsAll hx (fun u vs a ha => by rw [ho, ha]) x c o r h hd hslot hop
  traps := .long hx ho

end Sys2Proof.Machine
end

