-- ==== Sys2Proof/Laws/Cross.lean ====
section
/-!
SUPPORT. Cross-lane instructions: the lanes that contribute, and what such an instruction yields.
-/

namespace Sys2Proof.Machine

theorem bit_ones {l : Nat} (h : l < 32) : bit (2 ^ 32 - 1) l = true := by
  have : ∀ l < 32, bit (2 ^ 32 - 1) l = true := by decide
  exact this l h

/-- Lanes that contribute, as the instruction computes them. -/
theorem maskLanes_eq (ks : List Nat) (m : Nat) : maskLanes ks m = (ks.map (· % 32)).filter fun l => bit m l := rfl

theorem sees_sel {s : State} {i : Instr} {x : Issue} {c : Cohort} (h : s.issue? i = some x) (hc : find? s.cohorts x.co = some c) :
    s.selCompat = c.hdr.compat := by
  have hs : s.sel = some (x.co, x.g) := by
    unfold State.issue? at h
    cases h1 : s.sel with
    | none => simp [h1] at h
    | some p =>
      obtain ⟨co, g⟩ := p
      simp only [h1, Option.bind_some] at h
      cases h2 : find? s.cohorts co with
      | none => simp [h2] at h
      | some d =>
        simp only [h2, Option.bind_some] at h
        split at h
        · cases h
        · rename_i k ks hm
          cases h3 : d.thread? k with
          | none => simp [h3] at h
          | some u => simp only [h3, Option.map_some, Option.some.injEq] at h; subst h; rfl
  simp only [State.selCompat, hs, Option.map_some, Option.getD_some, State.compat, hc]

theorem filter_not_filter (on : List Nat) (p : Nat → Bool) :
    (on.filter fun k => !(on.filter fun k => !p k).contains k) = on.filter p := by
  refine List.filter_congr fun k hk => ?_
  cases hp : p k <;> simp [hp, hk]

theorem filter_self (on : List Nat) (p : Nat → Bool) : (on.filter p).filter p = on.filter p := by
  rw [List.filter_eq_self]; intro k hk; exact (List.mem_filter.1 hk).2

/-- The lanes that are written, those that only move on, and those that trap. -/
theorem crossParts {s : State} {x : Issue} {c : Cohort} {f : Form} {elect mk : Bool} {m : Sel}
    (hc : find? s.cohorts x.co = some c) (hon : x.on c f ≠ []) (hmk : elect = true → mk = true)
    (hq : elect = true → isQueue m = false ∧ isStream m = false)
    (hp : elect = true → (c.plain ((x.on c f).head?.getD 0) (srcWord false m)).2 = false) :
    let L := lanesOf elect mk m x c f
    let ls := (x.on c f).map fun k => (k, c.args f k)
    ∃ extra, (if !mk then ((ls.map fun p => (⟨p.1, p.2, ls.map fun q => q.1 % laneWidth⟩ : XLane)), ([] : List Nat), [])
        else if elect then electMasks s x m ls else ((ownMasks x ls).1, [], (ownMasks x ls).2)) =
      (L.good.map (fun k => (⟨k, c.args f k, L.peers k⟩ : XLane)), extra, L.bad.map fun k => (k, x.cause .maskSelf 0)) ∧
    (∀ k, k ∈ extra ++ L.good ↔ k ∈ x.on c f ∧ k ∉ L.bad) ∧ (∀ k ∈ L.good, k ∈ x.on c f) ∧ ∀ k ∈ L.bad, k ∈ x.on c f := by
  intro L ls
  cases mk with
  | false =>
    have he : elect = false := by cases elect <;> simp_all
    subst he
    have h1 : ∀ k : Nat, bit (2 ^ 32 - 1) (k % 32) = true := fun k => bit_ones (Nat.mod_lt _ (by decide))
    have hbad : L.bad = [] := by
      simp only [L, lanesOf, Bool.false_and, Bool.false_eq_true, if_false, Bool.not_false, if_true]
      exact filter_none fun k _ => by rw [h1 k]; rfl
    have hgood : L.good = x.on c f := by
      have : L.good = ((x.on c f).filter fun k => !L.bad.contains k).filter fun k => bit (2 ^ 32 - 1) (k % 32) := rfl
      rw [this, hbad, filter_notin_nil, List.filter_eq_self]
      exact fun k _ => h1 k
    have hpeers : ∀ k, L.peers k = (x.on c f).map (· % 32) := by
      intro k
      have : L.peers k = (((x.on c f).filter fun k => !L.bad.contains k).map (· % 32)).filter fun l => bit (2 ^ 32 - 1) l := rfl
      rw [this, hbad, filter_notin_nil]
      refine List.filter_eq_self.2 fun l hl => ?_
      obtain ⟨j, -, rfl⟩ := List.mem_map.1 hl
      exact h1 j
    refine ⟨[], ?_, ?_, ?_, ?_⟩
    · simp only [Bool.not_false, if_true, hgood, hpeers, hbad, List.map_nil, ls, List.map_map, Function.comp_def, laneWidth]
    · simp [hgood, hbad]
    · simp [hgood]
    · simp [hbad]
  | true =>
    cases elect with
    | false =>
      let p (k : Nat) : Bool := bit ((c.args f k).getLast?.getD 0) (k % 32)
      have hbad : L.bad = (x.on c f).filter fun k => !p k := rfl
      have hleft : ((x.on c f).filter fun k => !L.bad.contains k) = (x.on c f).filter p := by
        rw [hbad]; exact filter_not_filter _ _
      have hgood : L.good = (x.on c f).filter p := by
        have : L.good = ((x.on c f).filter fun k => !L.bad.contains k).filter p := rfl
        rw [this, hleft, filter_self]
      have hpeers : ∀ k, L.peers k = (((x.on c f).filter p).map (· % 32)).filter fun l => bit ((c.args f k).getLast?.getD 0) l := by
        intro k
        have : L.peers k = (((x.on c f).filter fun k => !L.bad.contains k).map (· % 32)).filter
          fun l => bit ((c.args f k).getLast?.getD 0) l := rfl
        rw [this, hleft]
      have hls : (ls.filter fun q => bit (q.2.getLast?.getD 0) (q.1 % laneWidth)) =
          ((x.on c f).filter p).map fun k => (k, c.args f k) := by
        rw [List.filter_map]; rfl
      have hls2 : (ls.filter fun q => !bit (q.2.getLast?.getD 0) (q.1 % laneWidth)) =
          ((x.on c f).filter fun k => !p k).map fun k => (k, c.args f k) := by
        rw [List.filter_map]; rfl
      refine ⟨[], ?_, ?_, ?_, ?_⟩
      · simp only [Bool.not_true, Bool.false_eq_true, if_false, ownMasks, hls, hls2, hgood, hpeers, hbad, List.map_map,
          Function.comp_def, maskLanes_eq, List.map_id']
      · intro k
        simp only [hgood, hbad, List.nil_append, List.mem_filter, Bool.not_eq_true', not_and]
        constructor
        · rintro ⟨a, b⟩; exact ⟨a, fun _ => by simp [b]⟩
        · rintro ⟨a, b⟩; exact ⟨a, by simpa using b a⟩
      · intro k hk; rw [hgood] at hk; exact (List.mem_filter.1 hk).1
      · intro k hk; rw [hbad] at hk; exact (List.mem_filter.1 hk).1
    | true =>
      obtain ⟨e, l, hl⟩ : ∃ e l, x.on c f = e :: l := by
        cases hh : x.on c f with
        | nil => exact absurd hh hon
        | cons a l => exact ⟨a, l, rfl⟩
      have he : (x.on c f).head?.getD 0 = e := by simp [hl]
      obtain ⟨q1, q2⟩ := hq rfl
      have hps := hp rfl
      rw [he] at hps
      let M : Nat := (c.plain e (srcWord false m)).1
      have hmask : ∀ k, L.mask k = M := fun k => by
        have : L.mask k = (c.plain ((x.on c f).head?.getD 0) (srcWord false m)).1 := rfl
        rw [this, he]
      have hbad : L.bad = if bit M (e % 32) then [] else [e] := by
        have : L.bad = if bit (L.mask ((x.on c f).head?.getD 0)) (((x.on c f).head?.getD 0) % 32) then [] else [(x.on c f).head?.getD 0] := rfl
        rw [this, hmask, he]
      have hgood : L.good = ((x.on c f).filter fun k => !L.bad.contains k).filter fun k => bit M (k % 32) := by
        have : L.good = ((x.on c f).filter fun k => !L.bad.contains k).filter fun k => bit (L.mask k) (k % 32) := rfl
        simp only [this, hmask]
      have hpeers : ∀ k, L.peers k = (((x.on c f).filter fun k => !L.bad.contains k).map (· % 32)).filter fun l => bit M l := by
        intro k
        have : L.peers k = (((x.on c f).filter fun k => !L.bad.contains k).map (· % 32)).filter fun l => bit (L.mask k) l := rfl
        simp only [this, hmask]
      have hel : electLane s x m ls = ([], some (e, M)) := by
        simp only [ls, hl, List.map_cons, electLane, hc, q1, q2, Bool.or_self, Bool.false_eq_true, if_false, hps, M]
      have hon1 : (if bit M (e % laneWidth) then ls else ls.filter fun p => p.1 != e) =
          ((x.on c f).filter fun k => !L.bad.contains k).map fun k => (k, c.args f k) := by
        rw [hbad]
        by_cases hb : bit M (e % 32) = true
        · simp only [hb, if_true, laneWidth, ls, filter_notin_nil]
        · simp only [hb, laneWidth, Bool.false_eq_true, if_false, ls, List.filter_map]
          congr 1
          refine List.filter_congr fun k _ => ?_
          simp [bne, BEq.beq]
      refine ⟨((x.on c f).filter fun k => !L.bad.contains k).filter fun k => !bit M (k % 32), ?_, ?_, ?_, ?_⟩
      · simp only [Bool.not_true, Bool.false_eq_true, if_false, if_true, electMasks, hel, List.map_nil, List.nil_append]
        have hfil : (ls.filter fun p => !([] : List Nat).contains p.1) = ls := by simp
        rw [hfil, hon1]
        simp only [hgood, hpeers, List.map_map, List.filter_map, Function.comp_def, maskLanes_eq, List.map_id', laneWidth]
        rw [hbad]
        by_cases hb : bit M (e % 32) = true
        · simp only [hb, if_true, List.map_nil]
        · simp only [hb, Bool.false_eq_true, if_false, List.map_cons, List.map_nil]
      · intro k
        rw [hgood]
        simp only [List.mem_append, List.mem_filter, Bool.not_eq_true', List.contains_eq_mem, decide_eq_false_iff_not]
        constructor
        · rintro (⟨⟨a, b⟩, -⟩ | ⟨⟨a, b⟩, -⟩) <;> exact ⟨a, b⟩
        · rintro ⟨a, b⟩
          cases hb : bit M (k % 32)
          · exact .inl ⟨⟨a, b⟩, rfl⟩
          · exact .inr ⟨⟨a, b⟩, rfl⟩
      · intro k hk
        rw [hgood] at hk
        exact (List.mem_filter.1 (List.mem_filter.1 hk).1).1
      · intro k hk
        rw [hbad] at hk
        split at hk
        · cases hk
        · rw [List.mem_singleton.1 hk, hl]; exact List.mem_cons_self ..

/-- Where an instruction goes ahead, its body gets the operands (R45). -/
theorem Ready.runPre {s : State} {i : Instr} {f : Form} {x : Issue} {c : Cohort} (h : Ready s i f x c)
    {pre : State → Issue → Cohort → List Nat → Pre} (hp : pre s x c (x.on c f) = .go)
    (rest : State → Issue → List Nat → List (Nat × List Nat) → List (Nat × Cause) → State) :
    s.runPre i f pre rest = .next (rest s x (x.ts.filter fun k => !(x.on c f).contains k)
      ((x.on c f).map fun k => (k, c.args f k)) []) := by
  have hfree : x.ts.any c.isHeld = false := by
    rw [List.any_eq_false]; intro k hk; simp [h.free k hk]
  have hact : (c.active x f.p).isEmpty = false := by
    have := h.act
    simp only [Issue.on] at this
    cases hh : c.active x f.p <;> simp_all
  unfold State.runPre
  simp only [h.issue, h.coh, hfree, h.legal, hact, Bool.false_eq_true, if_false]
  have hops := h.operands
  simp only [Issue.on] at hops hp ⊢
  rw [hp, hops]
  simp only [State.withPops_none fun o ho => (h.srcs o ho).1]

theorem CrossYields.of {s : State} {i : Instr} {f : Form} {mk : Bool} {m : Sel} {op : Thread → List XLane → XLane → LaneRes}
    {op' : Thread → List XLane → XLane → Lane LaneRes} (hx : exec i s = s.crossLanes i f mk m op')
    (ho : ∀ u all l, (op u all l).fl &&& u.enables = 0 → op' u all l = .done (op u all l)) : CrossYields s i f mk m op := by
  intro x c r elect F L all h hel hroom hr rest
  have hF : F = f.masked elect mk m := rfl
  have hq : elect = true → isQueue m = false ∧ isStream m = false := by
    intro he
    cases hc : (isQueue m || isStream m) with
    | false => exact ⟨(Bool.or_eq_false_iff.1 hc).1, (Bool.or_eq_false_iff.1 hc).2⟩
    | true =>
      have hmk : mk = true := by
        have : (s.selCompat && mk) = true := he
        simp only [Bool.and_eq_true] at this
        exact this.2
      have : srcWord false m ∈ F.srcs := by
        have h2 : maskSrc elect mk m = [srcWord false m] := by
          rcases (Bool.or_eq_true ..).mp hc with h3 | h3 <;> simp [maskSrc, hmk, h3]
        rw [hF]
        show _ ∈ f.srcs ++ maskSrc elect mk m
        rw [h2]; exact List.mem_append_right _ (List.mem_singleton_self _)
      exact h.srcs _ this
  obtain ⟨extra, hparts, hmem, hgon, hbon⟩ := crossParts (elect := elect) (mk := mk) (m := m) h.coh h.act
    (fun he => by have : (s.selCompat && mk) = true := he; simp only [Bool.and_eq_true] at this; exact this.2) hq
    (fun he => (hel he).2)
  have hgate : (elect && (x.on c F).any fun k => c.slotEmpty k m false) = false := by
    cases he : elect with
    | false => rfl
    | true =>
      rw [Bool.true_and, List.any_eq_false]
      intro k hk
      simp [(hel he).1 k hk]
  have hd : ∀ o, F.dst = some o → isQueue o.sel = false ∧ isStream o.sel = false := fun o ho => ⟨(h.dst o ho).1, (h.dst o ho).2.1⟩
  have hgoing : Going s F x c L.good :=
    ⟨h.coh, fun k hk => (Cohort.active_thread (hgon k hk)).2, hd, hroom⟩
  -- the lanes' results
  have hres : ∀ l : List Nat, (∀ k ∈ l, k ∈ L.good) →
      ((l.map fun k => (⟨k, c.args F k, L.peers k⟩ : XLane)).filterMap fun l =>
        (s.thread? x.co l.key).map fun t => (l.key, op' t all l)) = l.map fun k => (k, .done (r k)) := by
    intro l
    induction l with
    | nil => intro _; rfl
    | cons k l ih =>
      intro hl
      obtain ⟨u, hu⟩ := Option.isSome_iff_exists.1 (hgoing.live k (hl k (List.mem_cons_self ..)))
      have hu' : s.thread? x.co k = some u := by simp only [State.thread?, h.coh, Option.bind_some]; exact hu
      rw [List.map_cons, List.filterMap_cons_some (by rw [hu']; rfl), ih fun j hj => hl j (List.mem_cons_of_mem _ hj)]
      obtain ⟨e1, e2⟩ := hr k (hl k (List.mem_cons_self ..)) u hu
      show (k, op' u all _) :: _ = _
      rw [List.map_cons, ho u all _ (e1 ▸ e2), ← e1]
  let off := x.ts.filter fun k => !(x.on c F).contains k
  have hrest : ∀ k, k ∈ (off ++ extra) ++ L.good ↔ k ∈ rest := by
    intro k
    have hL : L = lanesOf elect mk m x c F := rfl
    rw [List.append_assoc, List.mem_append]
    simp only [off, rest, List.mem_filter, Bool.not_eq_true', List.contains_eq_mem, decide_eq_false_iff_not]
    constructor
    · rintro (⟨a, b⟩ | a)
      · exact ⟨a, fun hb => b (hbon k hb)⟩
      · exact ⟨(Cohort.active_thread ((hmem k).1 a).1).1, ((hmem k).1 a).2⟩
    · rintro ⟨a, b⟩
      by_cases hk : k ∈ x.on c F
      · exact .inr ((hmem k).2 ⟨hk, b⟩)
      · exact .inl ⟨a, hk⟩
  refine ⟨s.finish x F (off ++ extra) [] (L.good.map fun k => (k, .done (r k))), ?_, ?_, ?_⟩
  · intro hnil
    have : (off ++ extra) ++ L.good = [] := by
      rw [List.eq_nil_iff_forall_not_mem]
      intro k hk
      have := (hrest k).1 hk
      rw [hnil] at this; cases this
    obtain ⟨e1, e2⟩ := List.append_eq_nil_iff.1 this
    rw [e1, e2]
    exact State.finish_none h.coh
  · intro hne
    refine (hgoing.finish _ ?_ r).threads hrest
    intro hnil
    apply hne
    rw [List.eq_nil_iff_forall_not_mem]
    intro k hk
    have := (hrest k).2 hk
    rw [hnil] at this; cases this
  · rw [hx]
    unfold State.crossLanes State.run
    rw [h.runPre (by
      show (if (elect && (x.on c F).any fun k => c.slotEmpty k m false) = true then Pre.hold s else .go) = .go
      rw [hgate]; rfl)]
    have key : ∀ R : List XLane × List Nat × List (Nat × Cause),
        R = (L.good.map (fun k => (⟨k, c.args F k, L.peers k⟩ : XLane)), extra, L.bad.map fun k => (k, x.cause .maskSelf 0)) →
        s.finish x F (off ++ R.2.1) ([] ++ R.2.2)
          (R.1.filterMap fun l => (s.thread? x.co l.key).map fun t => (l.key, op' t all l)) =
        if L.bad = [] then s.finish x F (off ++ extra) [] (L.good.map fun k => (k, .done (r k)))
        else (s.finish x F (off ++ extra) [] (L.good.map fun k => (k, .done (r k)))).takeTraps x.co x.g
          (L.bad.map fun k => (k, x.cause .maskSelf 0)) := by
      intro R hR
      subst hR
      dsimp only
      rw [hres L.good fun k hk => hk, List.nil_append]
      cases hb : L.bad with
      | nil => rfl
      | cons b bs =>
        rw [if_neg (by simp), State.finish_traps hd]
        have h1 : onlyDone (L.good.map fun k => (k, Lane.done (r k))) = L.good.map fun k => (k, .done (r k)) := by
          have := doneLanes_map L.good id r
          simp only [id] at this
          simp only [onlyDone, this, List.map_map, Function.comp_def]
        have h2 : trapLanes x (L.good.map fun k => (k, Lane.done (r k))) = [] := trapLanes_map x L.good id r
        rw [h1, h2, List.append_nil]
    have := key _ hparts
    simp only [List.map_map, Function.comp_def] at this ⊢
    exact congrArg Host.Outcome.next this

theorem shuffle_runs (i : Instr) (kind : Shuffle) (p : Option Pfx) (d a b c : Sel) (mk wr : Bool) (seg : BitVec 3) (ii : Bool)
    (idx : BitVec 6) (s : State) :
    shuffle i kind p d a b c mk wr seg ii idx s = s.crossLanes i (shuffleForm p d a b c mk seg ii) mk c fun _ all l =>
      match shuffleSrc kind (segSize seg.toNat) (l.key % laneWidth) (if ii then idx.toNat else arg l.vals 1 % 2 ^ 32)
        (if ii then idx.toInt else toSigned 32 (arg l.vals 1)) wr with
      | some k => justVal (if l.peers.contains k then laneVal all k 0 else 0)
      | none => justVal 0 := rfl

/-- `match` completes where it goes ahead (R89). -/
theorem matchLanes_completes {s : State} {p : Option Pfx} {d a : Sel} {x : Issue} {c : Cohort} {r : Nat → LaneRes}
    (h : Ready s (.matchLanes p d a) (matchForm p d a) x c)
    (hr : ∀ k ∈ x.on c (matchForm p d a), r k = onlyVal (bitsIn (((x.on c (matchForm p d a)).filter fun j =>
      arg (c.args (matchForm p d a) j) 0 == arg (c.args (matchForm p d a) k) 0).map (· % 32)) 0)) :
    Completes s (.matchLanes p d a) (matchForm p d a) x c r := by
  refine ⟨_, ?_, h.finish r⟩
  rw [exec_matchLanes]
  unfold execMatchLanes State.run
  rw [h.runPre rfl]
  simp only [List.map_map, List.filter_map, Function.comp_def]
  refine congrArg Host.Outcome.next (congrArg (s.finish x _ _ []) (List.map_congr_left fun k hk => ?_))
  rw [hr k hk]
  rfl

theorem bcast_runs (p : Option Pfx) (d a c : Sel) (mk : Bool) (lsel : BitVec 2) (lane : BitVec 5) (s : State) :
    execBcast p d a c mk lsel lane s = s.crossLanes (.bcast p d a c mk lsel lane) (bcastForm p d a c mk lsel lane) mk c
      fun _ all l =>
        match bcastFrom lsel lane l.peers with
        | some k => justVal (if l.peers.contains k then laneVal all k 0 else 0)
        | none => justVal 0 := rfl

theorem vote_runs (p : Option Pfx) (d : Sel) (na : Bool) (a : BitVec 3) (c : Sel) (mk : Bool) (op : BitVec 3) (s : State) :
    execVote p d na a c mk op s = s.crossLanes (.vote p d na a c mk op) (voteForm p d c mk op) mk c fun _ all l =>
      justVal (voteOf op.toNat ((all.filter fun q => l.peers.contains (q.key % laneWidth)).map fun q =>
        (q.key % laneWidth, s.votes na a q.key))) := rfl

theorem lred_runs (p : Option Pfx) (d a c : Sel) (mk : Bool) (op k : BitVec 3) (s : State) :
    execLred p d a c mk op k s = s.crossLanes (.lred p d a c mk op k) (lredForm p d a c mk op k) mk c fun th all l =>
      if l.peers.contains (l.key % laneWidth ^^^ laneWidth / 2 ^ k.toNat) then
        reduceOp p th (elemTy p .s32) op.toNat (arg l.vals 0) (laneVal all (l.key % laneWidth ^^^ laneWidth / 2 ^ k.toNat) 0)
      else justVal (arg l.vals 0) := rfl

end Sys2Proof.Machine
end

