-- ==== Sys2Proof/Laws/Flow.lean ====
section
/-!
SUPPORT. Instructions of groups 5 and 7: what goes ahead, and threads that move without a write.
-/

namespace Sys2Proof.Machine

theorem Apart.refl (co : Nat) (keys : List Nat) (s : State) : Apart co keys s s := ⟨rfl, fun _ _ => rfl, fun _ _ => rfl⟩

theorem Apart.trans {co : Nat} {keys : List Nat} {s t u : State} (h : Apart co keys s t) (g : Apart co keys t u) :
    Apart co keys s u where
  rest := by
    have e := congrArg (fun (z : State) => { z with
      cohorts := u.cohorts, counters := u.counters, choices := u.choices, choiceCtr := u.choiceCtr, fresh := u.fresh }) h.rest
    exact g.rest.trans e
  others cp hc := (g.others cp hc).trans (h.others cp hc)
  counts k hk := (g.counts k hk).trans (h.counts k hk)

theorem Apart.modCohort (co : Nat) (keys : List Nat) (s : State) (f : Cohort → Cohort) : Apart co keys s (s.modCohort co f) :=
  ⟨rfl, fun _ h => State.cohort_modCohort_ne s f h, fun _ _ => rfl⟩

theorem Apart.bump (co : Nat) {keys : List Nat} (s : State) (r : RcReg) (i n : Nat) (h : rcKey r i ∈ keys) :
    Apart co keys s (s.bump r i n) := by
  unfold State.bump
  split
  · exact Apart.refl ..
  · refine ⟨rfl, fun _ _ => rfl, fun key hk => find?_insert_ne _ _ ?_⟩
    rintro rfl
    exact hk h

/-- What leaves the counts of every cluster alone leaves every count alone. -/
theorem Aside.apart_all {co : Nat} {keys : List Nat} {s t : State} (h : ∀ ci, Aside co ci s t) : Apart co keys s t := by
  refine ⟨(h 0).rest, (h 0).others, fun key _ => ?_⟩
  by_cases hk : ∃ ci, (key = rcKey .cluCopyAlloc ci ∨ key = rcKey .cluBankSpill ci)
  · obtain ⟨ci, hk⟩ := hk
    refine (h (ci + 2 ^ 40)).counts key ?_ ?_
    · rcases hk with rfl | rfl <;> (simp only [rcKey, rcCode]; omega)
    · rcases hk with rfl | rfl <;> (simp only [rcKey, rcCode]; omega)
  · exact (h 0).counts key (fun e => hk ⟨0, .inl e⟩) (fun e => hk ⟨0, .inr e⟩)

/-- The body of an instruction of group 5 or 7 that goes ahead. -/
theorem Goes.control {s : State} {i : Instr} {x : Issue} {c : Cohort} (h : Goes s i x c) (body : State → Issue → Cohort → State) :
    s.control i none body = .next (body s x c) := by
  have hfree : x.ts.any c.isHeld = false := by
    rw [List.any_eq_false]; intro k hk; simp [h.free k hk]
  unfold State.control
  simp only [h.issue, h.coh, hfree, Bool.false_eq_true, if_false]

theorem find?_none_keys {α : Type} {m : FMap α} {k : Nat} (h : find? m k = none) : k ∉ m.map Prod.fst := by
  induction m with
  | nil => simp
  | cons p m ih =>
    obtain ⟨j, v⟩ := p
    simp only [find?] at h
    split at h
    · cases h
    · rename_i hne
      simp only [List.map_cons, List.mem_cons, not_or]
      exact ⟨fun e => hne e.symm, ih h⟩

theorem Goes.thread {s : State} {i : Instr} {x : Issue} {c : Cohort} (h : Goes s i x c) {k : Nat} (hk : k ∈ x.ts) :
    ∃ u, c.thread? k = some u := by
  obtain ⟨-, d, hd, -, -, hts, -⟩ := State.issue?_spec h.issue
  rw [h.coh] at hd; cases hd
  rw [hts] at hk
  simp only [Cohort.members, mem_byLane] at hk
  unfold keys at hk
  obtain ⟨p, hp, rfl⟩ := List.mem_map.1 hk
  have : p.1 ∈ c.threads.map Prod.fst := by
    unfold filterMap at hp
    exact List.mem_map.2 ⟨p, (List.mem_filter.1 hp).1, rfl⟩
  cases hf : c.thread? p.1 with
  | some u => exact ⟨u, rfl⟩
  | none => exact absurd this (find?_none_keys hf)

theorem Goes.ne {s : State} {i : Instr} {x : Issue} {c : Cohort} (h : Goes s i x c) : x.ts ≠ [] := by
  obtain ⟨-, d, -, -, -, -, hne, -⟩ := State.issue?_spec h.issue
  exact hne

/-- Threads that all move on as one part. -/
theorem Moved.moves {s t : State} {x : Issue} {c d : Cohort} {ks : List Nat} {f : Nat → Thread → Thread} {keys : List Nat}
    (h : Apart x.co keys s t) (hd : find? t.cohorts x.co = some d) (m : Moved c d ks f) : Moves s t x c c keys [ks] f :=
  ⟨h, d, hd, by simpa using m.here, by simpa using m.away, by simpa using m.on.one, m.rest⟩

theorem Ready.goes {s : State} {i : Instr} {f : Form} {x : Issue} {c : Cohort} (h : Ready s i f x c) : Goes s i x c :=
  ⟨h.issue, h.coh, h.free⟩

/-- Without a guard every thread of the group is active (R20, R90). -/
theorem Goes.on_all {s : State} {i : Instr} {x : Issue} {c : Cohort} (h : Goes s i x c) {f : Form} (hp : f.p = none) :
    x.on c f = x.ts := by
  simp only [Issue.on, Cohort.active, hp]
  refine List.filter_eq_self.2 fun k hk => ?_
  obtain ⟨u, hu⟩ := h.thread hk
  simp [hu, guardOn]

theorem State.modThreads_nil (s : State) (co : Nat) (f : Nat → Thread → Thread) : s.modThreads co [] f = s := by
  have h : s.modThreads co [] f = { s with cohorts := s.cohorts } := by
    simp only [State.modThreads, State.modCohort]
    congr 1
    refine modify_id _ _ _ fun v => ?_
    simp
  exact h

theorem Issue.off_eq (x : Issue) (n : Int) : x.off n = x.pc + BitVec.ofInt 64 (4 * n) := by
  apply BitVec.eq_of_toNat_eq
  simp only [Issue.off, wrapNat, BitVec.toNat_ofNat, BitVec.toNat_add, BitVec.toNat_ofInt]
  omega

/-- Threads of two parts that move each by its own rule. -/
theorem State.parts_moves {s t : State} {x : Issue} {c : Cohort} {keys : List Nat} {T F : List Nat} {f : Nat → Thread → Thread}
    (ha : Apart x.co keys s t) (hc : find? t.cohorts x.co = some c) (hdis : ∀ k ∈ F, k ∉ T) (g : Nat → Thread → Thread) (e : Cohort)
    (he : ∀ k, e.thread? k = (c.thread? k).map fun u => if k ∈ T then f k u else if k ∈ F then g k u else u)
    {r : State} (hr : find? r.cohorts x.co = some e) (hra : Apart x.co keys t r) (hrest : e = { c with threads := e.threads }) :
    Moves s (r.parts x T F) x c c keys [T, F] (fun k u => if k ∈ T then f k u else g k u) := by
  unfold State.parts
  obtain ⟨h1, d1, hd1, m1⟩ := State.settle_spec (g := x.g) T hr
  obtain ⟨h2, d2, hd2, m2⟩ := State.settle_spec (g := x.g) F hd1
  refine ⟨((ha.trans hra).trans (Aside.apart_all h1)).trans (Aside.apart_all h2), d2, hd2, ?_, ?_, ?_, ?_⟩
  · intro k u hu hk
    simp only [List.flatten_cons, List.flatten_nil, List.append_nil, List.mem_append] at hk
    have hek := he k
    rw [hu, Option.map_some] at hek
    by_cases hT : k ∈ T
    · rw [if_pos hT] at hek ⊢
      obtain ⟨n, hn⟩ := m1.here k _ hek hT
      exact ⟨n, (m2.away k fun h => hdis k h hT).trans hn⟩
    · have hF : k ∈ F := hk.resolve_left hT
      rw [if_neg hT, if_pos hF] at hek
      rw [if_neg hT]
      exact m2.here k _ ((m1.away k hT).trans hek) hF
  · intro k hk
    simp only [List.flatten_cons, List.flatten_nil, List.append_nil, List.mem_append, not_or] at hk
    rw [m2.away k hk.2, m1.away k hk.1, he k]
    simp only [hk.1, hk.2, if_false]
    exact Option.map_id'
  · intro ks hks j k u v hu hv hj hk hpc
    have hej := he j
    have hek := he k
    rw [hu, Option.map_some] at hej
    rw [hv, Option.map_some] at hek
    rcases List.mem_cons.1 hks with rfl | hks
    · rw [if_pos hj] at hej hpc
      rw [if_pos hk] at hek hpc
      rw [m2.away j fun h => hdis j h hj, m2.away k fun h => hdis k h hk]
      exact m1.on.one j k _ _ hej hek hj hk hpc
    · have : ks = F := List.mem_singleton.1 hks
      subst this
      have nj := hdis j hj
      have nk := hdis k hk
      rw [if_neg nj, if_pos hj] at hej
      rw [if_neg nk, if_pos hk] at hek
      rw [if_neg nj, if_neg nk] at hpc
      exact m2.on.one j k _ _ ((m1.away j nj).trans hej) ((m1.away k nk).trans hek) hj hk hpc
  · rw [m2.rest, m1.rest, hrest]

/-- The operand step of an instruction that acts once, where it goes ahead. -/
theorem ReadyLow.operandsLow {s : State} {i : Instr} {f : Form} {x : Issue} {c : Cohort} (h : ReadyLow s i f x c) (first : Bool) :
    s.operandsLow x f first (x.on c f) = .go s (x.on c f) (c.args f ((x.on c f).head?.getD 0)) [] := by
  have live : ∀ k ∈ x.on c f, (c.thread? k).isSome := fun _ hk => (Cohort.active_thread hk).2
  have h1 : Plain s { f with srcs := [] } x c (x.on c f) := ⟨h.coh, h.act, live, by simp, by simp, h.dst⟩
  obtain ⟨k, l, hl⟩ : ∃ k l, x.on c f = k :: l := by
    cases hh : x.on c f with
    | nil => exact absurd hh h.act
    | cons k l => exact ⟨k, l, rfl⟩
  have h2 : Plain s { f with dst := none } x c [k] :=
    ⟨h.coh, by simp, by simpa using live k (by simp [hl]), h.srcs, fun o ho j hj => by
      rw [List.mem_singleton.1 hj]; exact h.full o ho k (by simp [hl]), by simp⟩
  unfold State.operandsLow
  rw [h1.operands, hl]
  simp only [List.map_cons, h2.operands, List.map_nil, List.map_map, Function.comp_def, List.map_id']
  rfl

/-- The body of an instruction that acts once gets the lowest lane's operands. -/
theorem ReadyLow.runLow {s : State} {i : Instr} {f : Form} {x : Issue} {c : Cohort} (h : ReadyLow s i f x c)
    {pre : State → Issue → Cohort → List Nat → Pre} (hp : pre s x c (x.on c f) = .go)
    (rest : State → Issue → List Nat → List Nat → List Nat → List (Nat × Cause) → State) :
    s.runLow i f pre rest = .next (rest s x (x.ts.filter fun k => !(x.on c f).contains k) (x.on c f)
      (c.args f ((x.on c f).head?.getD 0)) []) := by
  have hfree : x.ts.any c.isHeld = false := by
    rw [List.any_eq_false]; intro k hk; simp [h.free k hk]
  have hact : (x.on c f).isEmpty = false := by
    have := h.act
    cases hh : x.on c f <;> simp_all
  have hlegal : ({ f with srcs := f.srcs } : Form).illegal = none := h.legal
  unfold State.runLow State.runPre
  simp only [h.issue, h.coh, hfree, hlegal, Bool.false_eq_true, if_false]
  have hops := h.operandsLow (regionFirst i)
  simp only [Issue.on] at hops hp hact ⊢
  simp only [hact, Bool.false_eq_true, if_false, hp, hops, State.withPops_none fun o ho => (h.srcs o ho).1]

end Sys2Proof.Machine
end

