-- ==== Sys2Proof/Laws/Memory.lean ====
section
/-!
SUPPORT. The canonical form of memory in the state: at reset, and under the operations that change memory whatever the
marks of its lines.
-/

namespace Sys2Proof.Machine

/-- What each step of a fold keeps, the fold keeps. -/
theorem foldl_keeps {σ β : Type} (P : σ → Prop) {f : σ → β → σ} (h : ∀ s b, P s → P (f s b)) (l : List β) {s : σ} (hs : P s) :
    P (l.foldl f s) := by
  induction l generalizing s with
  | nil => exact hs
  | cons b l ih => exact ih (h s b hs)

theorem rising_filter {α : Type} {m : FMap α} (p : Nat × α → Bool) (h : rising m = true) : rising (m.filter p) = true := by
  induction m with
  | nil => rfl
  | cons q m ih =>
    obtain ⟨i, u⟩ := q
    obtain ⟨ha, hr⟩ := (rising_cons i u m).1 h
    rw [List.filter_cons]
    split
    · exact (rising_cons _ _ _).2 ⟨fun r hq => ha r (List.mem_filter.1 hq).1, ih hr⟩
    · exact ih hr

theorem wf_filter {m : Memory} (p : Nat × Byte → Bool) (h : m.wf = true) : Memory.wf (m.filter p) = true := by
  simp only [Memory.wf, Bool.and_eq_true, List.all_eq_true] at h ⊢
  exact ⟨rising_filter p h.1, fun c hc => h.2 c (List.mem_filter.1 hc).1⟩

/-- The memory after reset is in its canonical form. -/
theorem State.reset_memoryOk : State.reset.memoryOk := rfl

theorem State.memoryOk_of_mem {s t : State} (h : t.mem = s.mem) (hs : s.memoryOk) : t.memoryOk := by
  unfold State.memoryOk at *
  rw [h]
  exact hs

theorem State.hubWrite_memoryOk {s : State} (pa : Nat) (bs : List Byte) (hs : s.memoryOk) : (s.hubWrite pa bs).memoryOk := by
  refine foldl_keeps State.memoryOk (fun t p ht => ?_) _ hs
  have hr : (t.recall hostAgent (p.1 / 128)).memoryOk := State.memoryOk_of_mem (State.recall_mem ..) ht
  dsimp only
  split
  · exact State.memoryOk_of_mem (State.setLine_mem ..) (wf_setBytes hr _ _)
  · split
    · exact wf_setBytes hr _ _
    · exact hr

theorem State.dropHeld_memoryOk {s : State} (p : Nat → Nat → Bool) (hs : s.memoryOk) : (s.dropHeld p).memoryOk := by
  refine foldl_keeps State.memoryOk (fun t x ht => ?_) _ hs
  dsimp only
  split
  · split
    · exact State.memoryOk_of_mem (State.setLine_mem ..) (wf_setBytes ht _ _)
    · exact ht
  · exact ht

theorem State.zeroLines_memoryOk {s : State} (p : Line → Bool) (hs : s.memoryOk) : (s.zeroLines p).memoryOk := wf_filter _ hs

theorem State.writeBackAll_memoryOk {s : State} (p : Nat → Nat → Bool) (hs : s.memoryOk) : (s.writeBackAll p).memoryOk := by
  refine foldl_keeps State.memoryOk (fun t x ht => ?_) _ hs
  split
  · split
    · unfold State.writeBack
      dsimp only
      split
      · exact ht
      · exact State.memoryOk_of_mem (State.setLine_mem ..) ht
    · exact ht
  · exact ht

theorem State.movePage_memoryOk {s : State} (old new size : Nat) (hs : s.memoryOk) : (s.movePage old new size).memoryOk :=
  foldl_keeps (fun m : Memory => m.wf = true) (fun _ c hm => wf_set hm c.1 c.2) _
    (wf_filter _ (State.writeBackAll_memoryOk _ hs))

end Sys2Proof.Machine
end

