-- ==== Sys2Proof/Laws/PerInstr.lean ====
section
/-!
SUPPORT. A statement about every instruction as syntax, one lemma for each constructor: its words are at most three
(R13 to R19: a modifier, a head and a tail).
-/

namespace Sys2Proof.Laws.Length

open Sys2Proof

/-- An instruction has at most three words. -/
def Statement (i : Instr) : Prop := (encode i).length ≤ 3

theorem pfx (p : Option Pfx) : (encPfx p).length ≤ 1 := by cases p <;> simp [encPfx]

theorem after1 (p : Option Pfx) (w : Word) : (encPfx p ++ [w]).length ≤ 3 := by
  have := pfx p
  simp only [List.length_append, List.length_cons, List.length_nil]
  omega

theorem after2 (p : Option Pfx) (v w : Word) : (encPfx p ++ [v, w]).length ≤ 3 := by
  have := pfx p
  simp only [List.length_append, List.length_cons, List.length_nil]
  omega

theorem short0 : ([] : List Word).length ≤ 3 := by decide

theorem short1 (w : Word) : [w].length ≤ 3 := by simp

theorem short2 (v w : Word) : [v, w].length ≤ 3 := by simp

theorem bad (w : BadWords) : (badWords w).length ≤ 3 := by
  cases w with
  | headWithoutTail p w => cases p <;> simp [badWords]
  | unassigned p w => cases p <;> simp [badWords]
  | _ => simp [badWords]

theorem add (p d a b) : Statement (.add p d a b) := after1 p _
theorem addImm (p d a b imm) : Statement (.addImm p d a b imm) := after2 p _ _
theorem sub (p d a b) : Statement (.sub p d a b) := after1 p _
theorem subImm (p d a b imm) : Statement (.subImm p d a b imm) := after2 p _ _
theorem addc (p d a b) : Statement (.addc p d a b) := after1 p _
theorem addcImm (p d a b imm) : Statement (.addcImm p d a b imm) := after2 p _ _
theorem subb (p d a b) : Statement (.subb p d a b) := after1 p _
theorem subbImm (p d a b imm) : Statement (.subbImm p d a b imm) := after2 p _ _
theorem mul (p d a b) : Statement (.mul p d a b) := after1 p _
theorem mulImm (p d a b imm) : Statement (.mulImm p d a b imm) := after2 p _ _
theorem mulh (p d a b) : Statement (.mulh p d a b) := after1 p _
theorem mulhImm (p d a b imm) : Statement (.mulhImm p d a b imm) := after2 p _ _
theorem mad (p d a b c) : Statement (.mad p d a b c) := after2 p _ _
theorem madw (p d a b c) : Statement (.madw p d a b c) := after2 p _ _
theorem div (p d a b) : Statement (.div p d a b) := after1 p _
theorem divImm (p d a b imm) : Statement (.divImm p d a b imm) := after2 p _ _
theorem rem (p d a b) : Statement (.rem p d a b) := after1 p _
theorem remImm (p d a b imm) : Statement (.remImm p d a b imm) := after2 p _ _
theorem neg (p d a) : Statement (.neg p d a) := after1 p _
theorem abs (p d a) : Statement (.abs p d a) := after1 p _
theorem min (p d a b) : Statement (.min p d a b) := after1 p _
theorem minImm (p d a b imm) : Statement (.minImm p d a b imm) := after2 p _ _
theorem max (p d a b) : Statement (.max p d a b) := after1 p _
theorem maxImm (p d a b imm) : Statement (.maxImm p d a b imm) := after2 p _ _
theorem shl (p d a b) : Statement (.shl p d a b) := after1 p _
theorem shlImm (p d a b imm) : Statement (.shlImm p d a b imm) := after2 p _ _
theorem shr (p d a b) : Statement (.shr p d a b) := after1 p _
theorem shrImm (p d a b imm) : Statement (.shrImm p d a b imm) := after2 p _ _
theorem sar (p d a b) : Statement (.sar p d a b) := after1 p _
theorem sarImm (p d a b imm) : Statement (.sarImm p d a b imm) := after2 p _ _
theorem rotl (p d a b) : Statement (.rotl p d a b) := after1 p _
theorem rotlImm (p d a b imm) : Statement (.rotlImm p d a b imm) := after2 p _ _
theorem lea (p d a b c sh) : Statement (.lea p d a b c sh) := after2 p _ _
theorem addp (p d a b) : Statement (.addp p d a b) := after1 p _
theorem addpImm (p d a b imm) : Statement (.addpImm p d a b imm) := after2 p _ _
theorem subp (p d a b) : Statement (.subp p d a b) := after1 p _
theorem movi (p d imm) : Statement (.movi p d imm) := after2 p _ _
theorem mov (p d a) : Statement (.mov p d a) := after1 p _
theorem and (p d a b) : Statement (.and p d a b) := after1 p _
theorem andImm (p d a b imm) : Statement (.andImm p d a b imm) := after2 p _ _
theorem or (p d a b) : Statement (.or p d a b) := after1 p _
theorem orImm (p d a b imm) : Statement (.orImm p d a b imm) := after2 p _ _
theorem xor (p d a b) : Statement (.xor p d a b) := after1 p _
theorem xorImm (p d a b imm) : Statement (.xorImm p d a b imm) := after2 p _ _
theorem not (p d a) : Statement (.not p d a) := after1 p _
theorem andn (p d a b) : Statement (.andn p d a b) := after1 p _
theorem andnImm (p d a b imm) : Statement (.andnImm p d a b imm) := after2 p _ _
theorem bfe (p d a b c pi pos wid) : Statement (.bfe p d a b c pi pos wid) := after2 p _ _
theorem bfi (p d a b c pi pos wid) : Statement (.bfi p d a b c pi pos wid) := after2 p _ _
theorem popc (p d a) : Statement (.popc p d a) := after1 p _
theorem clz (p d a) : Statement (.clz p d a) := after1 p _
theorem ctz (p d a) : Statement (.ctz p d a) := after1 p _
theorem brev (p d a) : Statement (.brev p d a) := after1 p _
theorem bshuf (p d a b c) : Statement (.bshuf p d a b c) := after2 p _ _
theorem cmp (p q cond a b) : Statement (.cmp p q cond a b) := after1 p _
theorem cmpImm (p q cond a b imm) : Statement (.cmpImm p q cond a b imm) := after2 p _ _
theorem sel (p d a b n q) : Statement (.sel p d a b n q) := after2 p _ _
theorem pand (p d na a nb b) : Statement (.pand p d na a nb b) := after1 p _
theorem por (p d na a nb b) : Statement (.por p d na a nb b) := after1 p _
theorem pxor (p d na a nb b) : Statement (.pxor p d na a nb b) := after1 p _
theorem pnot (p d na a) : Statement (.pnot p d na a) := after1 p _
theorem pmov (p d na a) : Statement (.pmov p d na a) := after1 p _
theorem matchLanes (p d a) : Statement (.matchLanes p d a) := after1 p _
theorem fadd (p d a b) : Statement (.fadd p d a b) := after1 p _
theorem faddImm (p d a b imm) : Statement (.faddImm p d a b imm) := after2 p _ _
theorem fsub (p d a b) : Statement (.fsub p d a b) := after1 p _
theorem fsubImm (p d a b imm) : Statement (.fsubImm p d a b imm) := after2 p _ _
theorem fmul (p d a b) : Statement (.fmul p d a b) := after1 p _
theorem fmulImm (p d a b imm) : Statement (.fmulImm p d a b imm) := after2 p _ _
theorem fma (p d a b c) : Statement (.fma p d a b c) := after2 p _ _
theorem fmin (p d a b) : Statement (.fmin p d a b) := after1 p _
theorem fminImm (p d a b imm) : Statement (.fminImm p d a b imm) := after2 p _ _
theorem fmax (p d a b) : Statement (.fmax p d a b) := after1 p _
theorem fmaxImm (p d a b imm) : Statement (.fmaxImm p d a b imm) := after2 p _ _
theorem fabs (p d a) : Statement (.fabs p d a) := after1 p _
theorem fneg (p d a) : Statement (.fneg p d a) := after1 p _
theorem fcmp (p q cond a b) : Statement (.fcmp p q cond a b) := after1 p _
theorem fcmpImm (p q cond a b imm) : Statement (.fcmpImm p q cond a b imm) := after2 p _ _
theorem fclass (p d a) : Statement (.fclass p d a) := after1 p _
theorem frint (p d a) : Statement (.frint p d a) := after1 p _
theorem fsqrt (p d a) : Statement (.fsqrt p d a) := after1 p _
theorem frcp (p d a) : Statement (.frcp p d a) := after1 p _
theorem frsq (p d a) : Statement (.frsq p d a) := after1 p _
theorem fdiv (p d a b) : Statement (.fdiv p d a b) := after1 p _
theorem fdivImm (p d a b imm) : Statement (.fdivImm p d a b imm) := after2 p _ _
theorem fscale (p d a b) : Statement (.fscale p d a b) := after1 p _
theorem fscaleImm (p d a b imm) : Statement (.fscaleImm p d a b imm) := after2 p _ _
theorem hadd2 (p d a b) : Statement (.hadd2 p d a b) := after1 p _
theorem hfma2 (p d a b c) : Statement (.hfma2 p d a b c) := after2 p _ _
theorem bfma2 (p d a b c) : Statement (.bfma2 p d a b c) := after2 p _ _
theorem dot2 (p d a b c) : Statement (.dot2 p d a b c) := after2 p _ _
theorem dot4 (p d a b c) : Statement (.dot4 p d a b c) := after2 p _ _
theorem cvt (p d a dt st) : Statement (.cvt p d a dt st) := after2 p _ _
theorem pack (p d a b) : Statement (.pack p d a b) := after1 p _
theorem unpack (p d a b) : Statement (.unpack p d a b) := after1 p _
theorem unpackImm (p d a b imm) : Statement (.unpackImm p d a b imm) := after2 p _ _
theorem tdec (p d a e) : Statement (.tdec p d a e) := after2 p _ _
theorem tenc (p d a b e) : Statement (.tenc p d a b e) := after2 p _ _
theorem qscale (p d a b neg bsel) : Statement (.qscale p d a b neg bsel) := after2 p _ _
theorem sin (p d a) : Statement (.sin p d a) := after1 p _
theorem cos (p d a) : Statement (.cos p d a) := after1 p _
theorem fexp2 (p d a) : Statement (.fexp2 p d a) := after1 p _
theorem flog2 (p d a) : Statement (.flog2 p d a) := after1 p _
theorem tanh (p d a) : Statement (.tanh p d a) := after1 p _
theorem sig (p d a) : Statement (.sig p d a) := after1 p _
theorem shfl (p d a b c mk wr seg ii idx) : Statement (.shfl p d a b c mk wr seg ii idx) := after2 p _ _
theorem shflRel (p d a b c mk wr seg ii idx) : Statement (.shflRel p d a b c mk wr seg ii idx) := after2 p _ _
theorem shflXor (p d a b c mk wr seg ii idx) : Statement (.shflXor p d a b c mk wr seg ii idx) := after2 p _ _
theorem bcast (p d a c mk lsel lane) : Statement (.bcast p d a c mk lsel lane) := after2 p _ _
theorem vote (p d na a c mk op) : Statement (.vote p d na a c mk op) := after2 p _ _
theorem lred (p d a c mk op k) : Statement (.lred p d a c mk op k) := after2 p _ _
theorem ld (p d a b) : Statement (.ld p d a b) := after1 p _
theorem ldOfs (p d a b ofs cl sx sh) : Statement (.ldOfs p d a b ofs cl sx sh) := after2 p _ _
theorem st (p d a b) : Statement (.st p d a b) := after1 p _
theorem stOfs (p d a b ofs cl sx sh) : Statement (.stOfs p d a b ofs cl sx sh) := after2 p _ _
theorem ldsp (p d a b) : Statement (.ldsp p d a b) := after1 p _
theorem ldspOfs (p d a b ofs cl sx sh) : Statement (.ldspOfs p d a b ofs cl sx sh) := after2 p _ _
theorem stsp (p d a b) : Statement (.stsp p d a b) := after1 p _
theorem stspOfs (p d a b ofs cl sx sh) : Statement (.stspOfs p d a b ofs cl sx sh) := after2 p _ _
theorem ldc (p d a b) : Statement (.ldc p d a b) := after1 p _
theorem ldcOfs (p d a b ofs cl sx sh) : Statement (.ldcOfs p d a b ofs cl sx sh) := after2 p _ _
theorem ldq (p d a b) : Statement (.ldq p d a b) := after1 p _
theorem ldqOfs (p d a b ofs cl sx sh) : Statement (.ldqOfs p d a b ofs cl sx sh) := after2 p _ _
theorem pref (p a b) : Statement (.pref p a b) := after1 p _
theorem prefOfs (p a b ofs cl sx sh) : Statement (.prefOfs p a b ofs cl sx sh) := after2 p _ _
theorem atom (p d a b c op sp) : Statement (.atom p d a b c op sp) := after2 p _ _
theorem atomr (p d a b c op sp) : Statement (.atomr p d a b c op sp) := after2 p _ _
theorem red (p a b op sp) : Statement (.red p a b op sp) := after2 p _ _
theorem fenceEng (p) : Statement (.fenceEng p) := after1 p _
theorem fenceSys (p) : Statement (.fenceSys p) := after1 p _
theorem cflush (p a b) : Statement (.cflush p a b) := after1 p _
theorem cflushOfs (p a b ofs cl sx sh) : Statement (.cflushOfs p a b ofs cl sx sh) := after2 p _ _
theorem cinval (p a b) : Statement (.cinval p a b) := after1 p _
theorem cinvalOfs (p a b ofs cl sx sh) : Statement (.cinvalOfs p a b ofs cl sx sh) := after2 p _ _
theorem spat (p d a b c dir sp ety rowlen) : Statement (.spat p d a b c dir sp ety rowlen) := after2 p _ _
theorem sfree (p a) : Statement (.sfree p a) := after1 p _
theorem qbind (p d a c kind sig trapq) : Statement (.qbind p d a c kind sig trapq) := after2 p _ _
theorem qtry (p d a q) : Statement (.qtry p d a q) := after1 p _
theorem qstat (p d a) : Statement (.qstat p d a) := after1 p _
theorem bra (ce n q imm) : Statement (.bra ce n q imm) := short2 _ _
theorem brd (n q tgt join) : Statement (.brd n q tgt join) := short2 _ _
theorem join : Statement (.join) := short1 _
theorem reform : Statement (.reform) := short1 _
theorem call (d imm) : Statement (.call d imm) := short2 _ _
theorem ret (a) : Statement (.ret a) := short1 _
theorem jmp (a) : Statement (.jmp a) := short1 _
theorem loop (a stop ci icount) : Statement (.loop a stop ci icount) := short2 _ _
theorem lbrk : Statement (.lbrk) := short1 _
theorem exit : Statement (.exit) := short1 _
theorem trap (code) : Statement (.trap code) := short1 _
theorem brk (code) : Statement (.brk code) := short1 _
theorem nop : Statement (.nop) := short1 _
theorem cpy (p d a tag evt outq acq rel scope ba barr) : Statement (.cpy p d a tag evt outq acq rel scope ba barr) := after2 p _ _
theorem gath (p d a tag evt outq acq rel scope ba barr) : Statement (.gath p d a tag evt outq acq rel scope ba barr) := after2 p _ _
theorem coll (p d a tag evt outq acq rel scope ba barr) : Statement (.coll p d a tag evt outq acq rel scope ba barr) := after2 p _ _
theorem mdesc (p md a sp) : Statement (.mdesc p md a sp) := after2 p _ _
theorem msign (p cv) : Statement (.msign p cv) := after1 p _
theorem mma (p md cv evt acq rel scope) : Statement (.mma p md cv evt acq rel scope) := after1 p _
theorem mmaElect (p md evt acq rel scope) : Statement (.mmaElect p md evt acq rel scope) := after1 p _
theorem maccInit (p d md) : Statement (.maccInit p d md) := after1 p _
theorem maccFlush (p d a md keep evt scope) : Statement (.maccFlush p d a md keep evt scope) := after2 p _ _
theorem mrow (p d) : Statement (.mrow p d) := after1 p _
theorem mrowWait (p d md) : Statement (.mrowWait p d md) := after1 p _
theorem nwant (p d a b) : Statement (.nwant p d a b) := after1 p _
theorem noffer (p d a b) : Statement (.noffer p d a b) := after1 p _
theorem nclose (p a b) : Statement (.nclose p a b) := after1 p _
theorem ncloseImm (p a b imm) : Statement (.ncloseImm p a b imm) := after2 p _ _
theorem nlife (p a) : Statement (.nlife p a) := after1 p _
theorem nlifeImm (p a imm) : Statement (.nlifeImm p a imm) := after2 p _ _
theorem mland (p d a b port ba barr) : Statement (.mland p d a b port ba barr) := after2 p _ _
theorem freeze : Statement (.freeze) := short1 _
theorem freezeNested (a) : Statement (.freezeNested a) := short1 _
theorem next : Statement (.next) := short1 _
theorem convInit (cv a) : Statement (.convInit cv a) := short1 _
theorem convInitImm (cv a imm) : Statement (.convInitImm cv a imm) := short2 _ _
theorem barrInit (k a b) : Statement (.barrInit k a b) := short1 _
theorem barrInitImm (k a b imm) : Statement (.barrInitImm k a b imm) := short2 _ _
theorem barrArrive (k) : Statement (.barrArrive k) := short1 _
theorem barrWait (k a) : Statement (.barrWait k a) := short1 _
theorem barrWaitImm (k a imm) : Statement (.barrWaitImm k a imm) := short2 _ _
theorem barrTest (q a k) : Statement (.barrTest q a k) := short1 _
theorem barrTestImm (q a k imm) : Statement (.barrTestImm q a k imm) := short2 _ _
theorem movs (d a) : Statement (.movs d a) := short1 _
theorem mtsr (d a) : Statement (.mtsr d a) := short1 _
theorem wbase (a) : Statement (.wbase a) := short1 _
theorem wbaseImm (a imm) : Statement (.wbaseImm a imm) := short2 _ _
theorem rfree (a b) : Statement (.rfree a b) := short1 _
theorem region (idx) : Statement (.region idx) := short1 _
theorem preq (d a b c) : Statement (.preq d a b c) := short2 _ _
theorem boost (d a) : Statement (.boost d a) := short1 _
theorem sysc (d a b) : Statement (.sysc d a b) := short1 _
theorem syscImm (d a b imm) : Statement (.syscImm d a b imm) := short2 _ _
theorem tret : Statement (.tret) := short1 _
theorem halt (a) : Statement (.halt a) := short1 _
theorem tmark (a) : Statement (.tmark a) := short1 _
theorem tmarkImm (a imm) : Statement (.tmarkImm a imm) := short2 _ _
theorem bload (a b c barr) : Statement (.bload a b c barr) := short2 _ _
theorem binAgeExpiry (ci sp bin) : Statement (.binAgeExpiry ci sp bin) := short0
theorem loadComplete (co id) : Statement (.loadComplete co id) := short0
theorem divRemComplete (co id) : Statement (.divRemComplete co id) := short0
theorem multicycleComplete (co id) : Statement (.multicycleComplete co id) := short0
theorem queueStall (co g) : Statement (.queueStall co g) := short0
theorem copy (id) : Statement (.copy id) := short0
theorem decryptingCopy (id) : Statement (.decryptingCopy id) := short0
theorem gather (id) : Statement (.gather id) := short0
theorem collective (id peers tagFail) : Statement (.collective id peers tagFail) := short0
theorem signal (id) : Statement (.signal id) := short0
theorem engineCommandComplete (id) : Statement (.engineCommandComplete id) := short0
theorem matrixOperation (ci sp) : Statement (.matrixOperation ci sp) := short0
theorem matrixOperationComplete (ci sp) : Statement (.matrixOperationComplete ci sp) := short0
theorem slicePartialAdd (id) : Statement (.slicePartialAdd id) := short0
theorem messageArrive (id) : Statement (.messageArrive id) := short0
theorem multicastDelivery (id ci) : Statement (.multicastDelivery id ci) := short0
theorem multicastSendComplete (id) : Statement (.multicastSendComplete id) := short0
theorem bloadLand (id line) : Statement (.bloadLand id line) := short0
theorem interestRecord (id) : Statement (.interestRecord id) := short0
theorem tileReturn (id) : Statement (.tileReturn id) := short0
theorem interestDeadline (name) : Statement (.interestDeadline name) := short0
theorem nestedFreezeResume (co) : Statement (.nestedFreezeResume co) := short0
theorem hangReport (ci) : Statement (.hangReport ci) := short0
theorem droopFire (ci peak) : Statement (.droopFire ci peak) := short0
theorem droopStretchEnd (ci) : Statement (.droopStretchEnd ci) := short0
theorem halvedIssueEnd (ci) : Statement (.halvedIssueEnd ci) := short0
theorem clockHop (ci) : Statement (.clockHop ci) := short0
theorem hopComplete (ci) : Statement (.hopComplete ci) := short0
theorem cluClkWrite (ci v) : Statement (.cluClkWrite ci v) := short0
theorem drpCtlWrite (ci v) : Statement (.drpCtlWrite ci v) := short0
theorem lchQtailWrite (fn q v) : Statement (.lchQtailWrite fn q v) := short0
theorem lchQcfgWrite (q v) : Statement (.lchQcfgWrite q v) := short0
theorem launchAccept (q) : Statement (.launchAccept q) := short0
theorem launchStart (seq) : Statement (.launchStart seq) := short0
theorem placeCohort (seq) : Statement (.placeCohort seq) := short0
theorem cohortRetire (co) : Statement (.cohortRetire co) := short0
theorem gridComplete (seq) : Statement (.gridComplete seq) := short0
theorem yieldRequest (co seq) : Statement (.yieldRequest co seq) := short0
theorem drainLimitExpiry (co key) : Statement (.drainLimitExpiry co key) := short0
theorem yieldSave (co) : Statement (.yieldSave co) := short0
theorem faultReplay (ctx page) : Statement (.faultReplay ctx page) := short0
theorem faultDecline (ctx page) : Statement (.faultDecline ctx page) := short0
theorem invalidateContext (ctx) : Statement (.invalidateContext ctx) := short0
theorem invalidatePage (ctx page) : Statement (.invalidatePage ctx page) := short0
theorem invalidateAll : Statement (.invalidateAll) := short0
theorem migratePage (ctx page) : Statement (.migratePage ctx page) := short0
theorem teardown (ctx) : Statement (.teardown ctx) := short0
theorem xltCmdComplete : Statement (.xltCmdComplete) := short0
theorem reg128StagingWrite (r word wide v) : Statement (.reg128StagingWrite r word wide v) := short0
theorem reg128LowRead (r) : Statement (.reg128LowRead r) := short0
theorem nrtEntWrite (idx wide v) : Statement (.nrtEntWrite idx wide v) := short0
theorem fabCgrpWrite (g wide v reports) : Statement (.fabCgrpWrite g wide v reports) := short0
theorem mcSwrefWrite (v reports) : Statement (.mcSwrefWrite v reports) := short0
theorem switchSessionClose (ident) : Statement (.switchSessionClose ident) := short0
theorem secSpWorldWrite (ci v) : Statement (.secSpWorldWrite ci v) := short0
theorem slcWaymapWrite (die v) : Statement (.slcWaymapWrite die v) := short0
theorem lockInterfaceRequest (n) : Statement (.lockInterfaceRequest n) := short0
theorem startInterfaceRequest (n) : Statement (.startInterfaceRequest n) := short0
theorem stopInterfaceRequest (n) : Statement (.stopInterfaceRequest n) := short0
theorem ideFailure (stream) : Statement (.ideFailure stream) := short0
theorem hostMemoryRead (pa len) : Statement (.hostMemoryRead pa len) := short0
theorem hostMemoryWrite (pa bytes) : Statement (.hostMemoryWrite pa bytes) := short0
theorem getVersion : Statement (.getVersion) := short0
theorem getCapabilities : Statement (.getCapabilities) := short0
theorem negotiateAlgorithms : Statement (.negotiateAlgorithms) := short0
theorem getDigests : Statement (.getDigests) := short0
theorem getCertificate : Statement (.getCertificate) := short0
theorem challenge (nonce) : Statement (.challenge nonce) := short0
theorem getMeasurements (nonce) : Statement (.getMeasurements nonce) := short0
theorem keyExchange (fn) : Statement (.keyExchange fn) := short0
theorem finish (sess) : Statement (.finish sess) := short0
theorem keyUpdate (sess) : Statement (.keyUpdate sess) := short0
theorem heartbeat (sess) : Statement (.heartbeat sess) := short0
theorem endSession (sess) : Statement (.endSession sess) := short0
theorem keySet (sess slot world ctx key) : Statement (.keySet sess slot world ctx key) := short0
theorem keyClear (sess slot) : Statement (.keyClear sess slot) := short0
theorem jobEvidenceRequest (v) : Statement (.jobEvidenceRequest v) := short0
theorem portHealthSample (port eye cfr ttf) : Statement (.portHealthSample port eye cfr ttf) := short0
theorem linkRetrainComplete (port) : Statement (.linkRetrainComplete port) := short0
theorem retentionEntry (arr) : Statement (.retentionEntry arr) := short0
theorem retentionExit (arr waited) : Statement (.retentionExit arr waited) := short0
theorem pwrIslVsetWrite (die isl v) : Statement (.pwrIslVsetWrite die isl v) := short0
theorem pwrIslFsetWrite (die isl v) : Statement (.pwrIslFsetWrite die isl v) := short0
theorem synthLockComplete (die isl) : Statement (.synthLockComplete die isl) := short0
theorem voltageStep (die isl) : Statement (.voltageStep die isl) := short0
theorem stageTelemetryRefresh (vi0 te0 vi1 te1) : Statement (.stageTelemetryRefresh vi0 te0 vi1 te1) := short0
theorem islandTelemetryRefresh (die isl v) : Statement (.islandTelemetryRefresh die isl v) := short0
theorem stallWindow (ci) : Statement (.stallWindow ci) := short0
theorem powerBoundary (read written table) : Statement (.powerBoundary read written table) := short0
theorem memoryRailSample (watts) : Statement (.memoryRailSample watts) := short0
theorem diePowerSample (die) : Statement (.diePowerSample die) := short0
theorem thermalClampStart (die isl temp) : Statement (.thermalClampStart die isl temp) := short0
theorem thermalTrip (die isl temp) : Statement (.thermalTrip die isl temp) := short0
theorem thermalRecover (die isl temp) : Statement (.thermalRecover die isl temp) := short0
theorem boostEnd (die isl) : Statement (.boostEnd die isl) := short0
theorem policyAnswer (v) : Statement (.policyAnswer v) := short0
theorem wearBoundary (activity) : Statement (.wearBoundary activity) := short0
theorem wearUpdateComplete : Statement (.wearUpdateComplete) := short0
theorem restStart (ci) : Statement (.restStart ci) := short0
theorem restEnd (ci) : Statement (.restEnd ci) := short0
theorem wearReport (v) : Statement (.wearReport v) := short0
theorem bbxCommitRequest (v) : Statement (.bbxCommitRequest v) := short0
theorem bbxDump (v) : Statement (.bbxDump v) := short0
theorem inputUndervoltage : Statement (.inputUndervoltage) := short0
theorem mcWatchdogExpiry : Statement (.mcWatchdogExpiry) := short0
theorem powerOn (fwOk stacksOk) : Statement (.powerOn fwOk stacksOk) := short0
theorem packageReset (cause signed stks) : Statement (.packageReset cause signed stks) := short0
theorem vfFlr (n) : Statement (.vfFlr n) := short0
theorem clusterSpareCall (v) : Statement (.clusterSpareCall v) := short0
theorem clusterSpareSwitch : Statement (.clusterSpareSwitch) := short0
theorem sliceSpareCall (v) : Statement (.sliceSpareCall v) := short0
theorem rcRead (r idx) : Statement (.rcRead r idx) := short0
theorem registerWrite (r idx v) : Statement (.registerWrite r idx v) := short0
theorem illegalOp (w) : Statement (.illegalOp w) := bad w
theorem flushComplete (co id) : Statement (.flushComplete co id) := short0
theorem statusDestinationFull (co id) : Statement (.statusDestinationFull co id) := short0
theorem droopRearm (ci) : Statement (.droopRearm ci) := short0
theorem hubUncorrectableError (mram) : Statement (.hubUncorrectableError mram) := short0
theorem blackBoxCommitComplete : Statement (.blackBoxCommitComplete) := short0

end Sys2Proof.Laws.Length
end

