-- ==== Sys2Proof/Tests/Slice0.lean ====
section
/-!
SUPPORT. Tests: ill-formed terms that the checks refuse, words written out from the spec's encodings, single steps whose
results the spec gives, and for each statement a state that meets its hypotheses.
-/

open Sys2Proof Sys2Proof.Machine Host

/-! ## Well-formedness: a term that each check refuses -/

/-- A modifier whose rounding is reserved (R20). -/
theorem test_wf_modifier : (Instr.add (some ⟨6, false, false, 0, false, false, false, false, false, false, 0⟩) 1 2 3).wellFormed = false := by
  decide

/-- A guard number without a guard (R20). -/
theorem test_wf_guard : (Instr.add (some ⟨0, false, false, 3, false, false, false, false, false, false, 0⟩) 1 2 3).wellFormed = false := by
  decide

/-- The reserved selector as a source, and `lid` as a destination (R25). -/
theorem test_wf_selectors : (Instr.add none 1 127 3).wellFormed = false ∧ (Instr.add none 126 2 3).wellFormed = false := by
  decide

/-- Register fields that PI = 1 requires to be zero (R83). -/
theorem test_wf_unused : (Instr.bfe none 1 2 3 0 true 4 4).wellFormed = false ∧ (Instr.bfe none 1 2 0 0 true 4 4).wellFormed = true := by
  decide

/-- A cluster beyond the last (R3). -/
theorem test_wf_index : (Instr.restStart 576).wellFormed = false ∧ (Instr.restStart 575).wellFormed = true := by
  decide

/-- A word that is no tail where a tail stands alone (R16). -/
theorem test_wf_words : (Instr.illegalOp (.orphanTail 0)).wellFormed = false ∧ (Instr.illegalOp (.orphanTail 0xC0000000)).wellFormed = true := by
  decide

/-! ## Decoding -/

/-- What the decoder reads from words, where it reads all of them. -/
def reads (ws : List Word) : Option Instr :=
  match decodeWords ws with
  | .ok (i, n) => if n = ws.length then some i else none
  | .error _ => none

/-- Group 0 (R34): the words of its instructions, and what they decode to. -/
theorem test_decode_integer_1 : ∀ p ∈ ([
    ([0x00014307], .add none 5 6 7),
    ([0x40014307, 0xD2345678], .addImm none 5 6 7 0x12345678),
    ([0x00214307], .sub none 5 6 7),
    ([0x40214307, 0xD2345678], .subImm none 5 6 7 0x12345678),
    ([0x00414307], .addc none 5 6 7),
    ([0x40414307, 0xD2345678], .addcImm none 5 6 7 0x12345678),
    ([0x00614307], .subb none 5 6 7),
    ([0x40614307, 0xD2345678], .subbImm none 5 6 7 0x12345678),
    ([0x00814307], .mul none 5 6 7),
    ([0x40814307, 0xD2345678], .mulImm none 5 6 7 0x12345678),
    ([0x00A14307], .mulh none 5 6 7),
    ([0x40A14307, 0xD2345678], .mulhImm none 5 6 7 0x12345678),
    ([0x40C14307, 0xC4000000], .mad none 5 6 7 8),
    ([0x40E14307, 0xC4000000], .madw none 5 6 7 8),
    ([0x01014307], .div none 5 6 7),
    ([0x41014307, 0xD2345678], .divImm none 5 6 7 0x12345678)] : List (List Word × Instr)), reads p.1 = some p.2 := by
  decide

/-- Group 0 (R34): the words of its instructions, and what they decode to. -/
theorem test_decode_integer_2 : ∀ p ∈ ([
    ([0x01214307], .rem none 5 6 7),
    ([0x41214307, 0xD2345678], .remImm none 5 6 7 0x12345678),
    ([0x01414300], .neg none 5 6),
    ([0x01614300], .abs none 5 6),
    ([0x01814307], .min none 5 6 7),
    ([0x41814307, 0xD2345678], .minImm none 5 6 7 0x12345678),
    ([0x01A14307], .max none 5 6 7),
    ([0x41A14307, 0xD2345678], .maxImm none 5 6 7 0x12345678),
    ([0x01C14307], .shl none 5 6 7),
    ([0x41C14307, 0xD2345678], .shlImm none 5 6 7 0x12345678),
    ([0x01E14307], .shr none 5 6 7),
    ([0x41E14307, 0xD2345678], .shrImm none 5 6 7 0x12345678),
    ([0x02014307], .sar none 5 6 7),
    ([0x42014307, 0xD2345678], .sarImm none 5 6 7 0x12345678),
    ([0x02214307], .rotl none 5 6 7),
    ([0x42214307, 0xD2345678], .rotlImm none 5 6 7 0x12345678)] : List (List Word × Instr)), reads p.1 = some p.2 := by
  decide

/-- Group 0 (R34): the words of its instructions, and what they decode to. -/
theorem test_decode_integer_3 : ∀ p ∈ ([
    ([0x42414307, 0xC4500000], .lea none 5 6 7 8 5),
    ([0x02614307], .addp none 5 6 7),
    ([0x42614307, 0xD2345678], .addpImm none 5 6 7 0x12345678),
    ([0x02814307], .subp none 5 6 7),
    ([0x42A1407D, 0xD2345678], .movi none 5 0x12345678),
    ([0x02C14300], .mov none 5 6)] : List (List Word × Instr)), reads p.1 = some p.2 := by
  decide

/-- Group 1 (R34): the words of its instructions, and what they decode to. -/
theorem test_decode_logic_1 : ∀ p ∈ ([
    ([0x08014307], .and none 5 6 7),
    ([0x48014307, 0xD2345678], .andImm none 5 6 7 0x12345678),
    ([0x08214307], .or none 5 6 7),
    ([0x48214307, 0xD2345678], .orImm none 5 6 7 0x12345678),
    ([0x08414307], .xor none 5 6 7),
    ([0x48414307, 0xD2345678], .xorImm none 5 6 7 0x12345678),
    ([0x08614300], .not none 5 6),
    ([0x08814307], .andn none 5 6 7),
    ([0x48814307, 0xD2345678], .andnImm none 5 6 7 0x12345678),
    ([0x48A14300, 0xC056AD00], .bfe none 5 6 0 0 true 0x2D 0x2D),
    ([0x48C14307, 0xC056AD00], .bfi none 5 6 7 0 true 0x2D 0x2D),
    ([0x08E14300], .popc none 5 6),
    ([0x09014300], .clz none 5 6),
    ([0x09214300], .ctz none 5 6),
    ([0x09414300], .brev none 5 6),
    ([0x49614307, 0xC4000000], .bshuf none 5 6 7 8)] : List (List Word × Instr)), reads p.1 = some p.2 := by
  decide

/-- Group 1 (R34): the words of its instructions, and what they decode to. -/
theorem test_decode_logic_2 : ∀ p ∈ ([
    ([0x099B4307], .cmp none 5 0xD 6 7),
    ([0x499B4307, 0xD2345678], .cmpImm none 5 0xD 6 7 0x12345678),
    ([0x49A14307, 0xC000000D], .sel none 5 6 7 true 5),
    ([0x09C1468D], .pand none 5 true 5 true 5),
    ([0x09E1468D], .por none 5 true 5 true 5),
    ([0x0A01468D], .pxor none 5 true 5 true 5),
    ([0x0A214680], .pnot none 5 true 5),
    ([0x0A414680], .pmov none 5 true 5),
    ([0x0A614300], .matchLanes none 5 6)] : List (List Word × Instr)), reads p.1 = some p.2 := by
  decide

/-- Group 2 (R34): the words of its instructions, and what they decode to. -/
theorem test_decode_float_1 : ∀ p ∈ ([
    ([0x10014307], .fadd none 5 6 7),
    ([0x50014307, 0xD2345678], .faddImm none 5 6 7 0x12345678),
    ([0x10214307], .fsub none 5 6 7),
    ([0x50214307, 0xD2345678], .fsubImm none 5 6 7 0x12345678),
    ([0x10414307], .fmul none 5 6 7),
    ([0x50414307, 0xD2345678], .fmulImm none 5 6 7 0x12345678),
    ([0x50614307, 0xC4000000], .fma none 5 6 7 8),
    ([0x10814307], .fmin none 5 6 7),
    ([0x50814307, 0xD2345678], .fminImm none 5 6 7 0x12345678),
    ([0x10A14307], .fmax none 5 6 7),
    ([0x50A14307, 0xD2345678], .fmaxImm none 5 6 7 0x12345678),
    ([0x10C14300], .fabs none 5 6),
    ([0x10E14300], .fneg none 5 6),
    ([0x111B4307], .fcmp none 5 0xD 6 7),
    ([0x511B4307, 0xD2345678], .fcmpImm none 5 0xD 6 7 0x12345678),
    ([0x11214300], .fclass none 5 6)] : List (List Word × Instr)), reads p.1 = some p.2 := by
  decide

/-- Group 2 (R34): the words of its instructions, and what they decode to. -/
theorem test_decode_float_2 : ∀ p ∈ ([
    ([0x11414300], .frint none 5 6),
    ([0x11614300], .fsqrt none 5 6),
    ([0x11814300], .frcp none 5 6),
    ([0x11A14300], .frsq none 5 6),
    ([0x11C14307], .fdiv none 5 6 7),
    ([0x51C14307, 0xD2345678], .fdivImm none 5 6 7 0x12345678),
    ([0x11E14307], .fscale none 5 6 7),
    ([0x51E14307, 0xD2345678], .fscaleImm none 5 6 7 0x12345678),
    ([0x12014307], .hadd2 none 5 6 7),
    ([0x52214307, 0xC4000000], .hfma2 none 5 6 7 8),
    ([0x52414307, 0xC4000000], .bfma2 none 5 6 7 8),
    ([0x52614307, 0xC4000000], .dot2 none 5 6 7 8),
    ([0x52814307, 0xC4000000], .dot4 none 5 6 7 8)] : List (List Word × Instr)), reads p.1 = some p.2 := by
  decide

/-- Group 3 (R34): the words of its instructions, and what they decode to. -/
theorem test_decode_cross_lane_1 : ∀ p ∈ ([
    ([0x58014300, 0xC06E8000], .cvt none 5 6 0xD 0xD),
    ([0x18214307], .pack none 5 6 7),
    ([0x18414307], .unpack none 5 6 7),
    ([0x58414307, 0xD2345678], .unpackImm none 5 6 7 0x12345678),
    ([0x58614300, 0xC0200000], .tdec none 5 6 1),
    ([0x58814307, 0xC0200000], .tenc none 5 6 7 1),
    ([0x58A14307, 0xC0500000], .qscale none 5 6 7 true 1),
    ([0x18C14300], .sin none 5 6),
    ([0x18E14300], .cos none 5 6),
    ([0x19014300], .fexp2 none 5 6),
    ([0x19214300], .flog2 none 5 6),
    ([0x19414300], .tanh none 5 6),
    ([0x19614300], .sig none 5 6),
    ([0x59814307, 0xC4756800], .shfl none 5 6 7 8 true true 5 false 0x2D),
    ([0x59A14307, 0xC4756800], .shflRel none 5 6 7 8 true true 5 false 0x2D),
    ([0x59C14307, 0xC4756800], .shflXor none 5 6 7 8 true true 5 false 0x2D)] : List (List Word × Instr)), reads p.1 = some p.2 := by
  decide

/-- Group 3 (R34): the words of its instructions, and what they decode to. -/
theorem test_decode_cross_lane_2 : ∀ p ∈ ([
    ([0x59E14300, 0xC4500000], .bcast none 5 6 8 true 1 0),
    ([0x5A014680, 0xC4680000], .vote none 5 true 5 8 true 5),
    ([0x5A214300, 0xC46D0000], .lred none 5 6 8 true 5 5)] : List (List Word × Instr)), reads p.1 = some p.2 := by
  decide

/-- Group 4 (R34): the words of its instructions, and what they decode to. -/
theorem test_decode_memory_1 : ∀ p ∈ ([
    ([0x20014307], .ld none 5 6 7),
    ([0x60014307, 0xC0000B5D], .ldOfs none 5 6 7 0x2D 1 true 5),
    ([0x20214307], .st none 5 6 7),
    ([0x60214307, 0xC0000B5D], .stOfs none 5 6 7 0x2D 1 true 5),
    ([0x20414307], .ldsp none 5 6 7),
    ([0x60414307, 0xC0000B5D], .ldspOfs none 5 6 7 0x2D 1 true 5),
    ([0x20614307], .stsp none 5 6 7),
    ([0x60614307, 0xC0000B5D], .stspOfs none 5 6 7 0x2D 1 true 5),
    ([0x20814307], .ldc none 5 6 7),
    ([0x60814307, 0xC0000B5D], .ldcOfs none 5 6 7 0x2D 1 true 5),
    ([0x20A14307], .ldq none 5 6 7),
    ([0x60A14307, 0xC0000B5D], .ldqOfs none 5 6 7 0x2D 1 true 5),
    ([0x20C00307], .pref none 6 7),
    ([0x60C00307, 0xC0000B5D], .prefOfs none 6 7 0x2D 1 true 5),
    ([0x60E14307, 0xC43C0000], .atom none 5 6 7 8 7 true),
    ([0x61014307, 0xC43C0000], .atomr none 5 6 7 8 7 true)] : List (List Word × Instr)), reads p.1 = some p.2 := by
  decide

/-- Group 4 (R34): the words of its instructions, and what they decode to. -/
theorem test_decode_memory_2 : ∀ p ∈ ([
    ([0x61200307, 0xC06C0000], .red none 6 7 0xD true),
    ([0x21400000], .fenceEng none),
    ([0x21600000], .fenceSys none),
    ([0x21800307], .cflush none 6 7),
    ([0x61800307, 0xC0000B5D], .cflushOfs none 6 7 0x2D 1 true 5),
    ([0x21A00307], .cinval none 6 7),
    ([0x61A00307, 0xC0000B5D], .cinvalOfs none 6 7 0x2D 1 true 5),
    ([0x61C14307, 0xC43D02D0], .spat none 5 6 7 8 1 true 0xD 0x2D),
    ([0x21E00300], .sfree none 6),
    ([0x62014300, 0xC46E0000], .qbind none 5 6 8 0xD true true),
    ([0x22214305], .qtry none 5 6 5),
    ([0x22414300], .qstat none 5 6)] : List (List Word × Instr)), reads p.1 = some p.2 := by
  decide

/-- Group 5 (R34): the words of its instructions, and what they decode to. -/
theorem test_decode_control_1 : ∀ p ∈ ([
    ([0x68074000, 0xD2345678], .bra true true 5 0x12345678),
    ([0x68234000, 0xC016802D], .brd true 5 0x2D 0x2D),
    ([0x28400000], .join),
    ([0x28600000], .reform),
    ([0x68814000, 0xD2345678], .call 5 0x12345678),
    ([0x28A00300], .ret 6),
    ([0x28C00300], .jmp 6),
    ([0x68E00000, 0xC02D802D], .loop 0 0x2D true 0x2D),
    ([0x29000000], .lbrk),
    ([0x29200000], .exit),
    ([0x2940002D], .trap 0x2D),
    ([0x2960002D], .brk 0x2D),
    ([0x29800000], .nop)] : List (List Word × Instr)), reads p.1 = some p.2 := by
  decide

/-- Group 6 (R34): the words of its instructions, and what they decode to. -/
theorem test_decode_engine_1 : ∀ p ∈ ([
    ([0x70014300, 0xC016FDE8], .cpy none 5 6 0x2D true true true true 5 true 0xD),
    ([0x70214300, 0xC016FDE8], .gath none 5 6 0x2D true true true true 5 true 0xD),
    ([0x70414300, 0xC016FDE8], .coll none 5 6 0x2D true true true true 5 true 0xD),
    ([0x70614300, 0xC0400000], .mdesc none 5 6 true),
    ([0x30800280], .msign none 5),
    ([0x30A142FA], .mma none 5 5 true true true 5),
    ([0x30C1407A], .mmaElect none 5 true true true 5),
    ([0x30E14280], .maccInit none 5 5),
    ([0x71014305, 0xC0740000], .maccFlush none 5 6 5 true true 5),
    ([0x31214000], .mrow none 5),
    ([0x31214680], .mrowWait none 5 5),
    ([0x31414307], .nwant none 5 6 7),
    ([0x31614307], .noffer none 5 6 7),
    ([0x31800307], .nclose none 6 7),
    ([0x71800307, 0xD2345678], .ncloseImm none 6 7 0x12345678),
    ([0x31A00300], .nlife none 6)] : List (List Word × Instr)), reads p.1 = some p.2 := by
  decide

/-- Group 6 (R34): the words of its instructions, and what they decode to. -/
theorem test_decode_engine_2 : ∀ p ∈ ([
    ([0x71A00300, 0xD2345678], .nlifeImm none 6 0x12345678),
    ([0x71C14307, 0xC05E8000], .mland none 5 6 7 5 true 0xD)] : List (List Word × Instr)), reads p.1 = some p.2 := by
  decide

/-- Group 7 (R34): the words of its instructions, and what they decode to. -/
theorem test_decode_system_1 : ∀ p ∈ ([
    ([0x38003E00], .freeze),
    ([0x38000300], .freezeNested 6),
    ([0x38200000], .next),
    ([0x38414300], .convInit 5 6),
    ([0x78414300, 0xD2345678], .convInitImm 5 6 0x12345678),
    ([0x38634307], .barrInit 0xD 6 7),
    ([0x78634307, 0xD2345678], .barrInitImm 0xD 6 7 0x12345678),
    ([0x38834000], .barrArrive 0xD),
    ([0x38A34300], .barrWait 0xD 6),
    ([0x78A34300, 0xD2345678], .barrWaitImm 0xD 6 0x12345678),
    ([0x38C1430D], .barrTest 5 6 0xD),
    ([0x78C1430D, 0xD2345678], .barrTestImm 5 6 0xD 0x12345678),
    ([0x38E14300], .movs 5 6),
    ([0x39014300], .mtsr 5 6),
    ([0x39200300], .wbase 6),
    ([0x79200300, 0xD2345678], .wbaseImm 6 0x12345678)] : List (List Word × Instr)), reads p.1 = some p.2 := by
  decide

/-- Group 7 (R34): the words of its instructions, and what they decode to. -/
theorem test_decode_system_2 : ∀ p ∈ ([
    ([0x39400307], .rfree 6 7),
    ([0x3960002D], .region 0x2D),
    ([0x79814307, 0xC4000000], .preq 5 6 7 8),
    ([0x39A14300], .boost 5 6),
    ([0x39C14307], .sysc 5 6 7),
    ([0x79C14307, 0xD2345678], .syscImm 5 6 7 0x12345678),
    ([0x39E00000], .tret),
    ([0x3A000300], .halt 6),
    ([0x3A200300], .tmark 6),
    ([0x7A200300, 0xD2345678], .tmarkImm 6 0x12345678),
    ([0x7A400307, 0xC4680000], .bload 6 7 8 0xD)] : List (List Word × Instr)), reads p.1 = some p.2 := by
  decide

/-! ## A small state

Two threads of one issue group on cluster 0, at address 0 of a context whose page 0 is memory's first 4,096 bytes. -/

/-- The cohort of the tests: its registers hold what `v` and `s` list, and zero elsewhere. -/
def labCohort (v : FMap Word) (s : FMap DWord) : Cohort :=
  { placedCohort with threads := [(0, placedThread), (1, { placedThread with lane := 1 })], ewes := [⟨v, s, 0, []⟩] }

/-- A state with cohort 0, whose group 0 is selected, and choices for all that the device may choose. -/
def lab (c : Cohort) : State :=
  { State.reset.place with sel := some (0, 0), choices := List.replicate 32 0, cohorts := [(0, c)] }

/-- The issue of an instruction in a state. -/
def labIssue (s : State) (i : Instr) : Issue := (s.issue? i).getD ⟨0, 0, 0, 0, [], 0, []⟩

/-- What `Ready` and `ReadyLow` ask, of the lanes `ls` for the sources, as one check. -/
def readyBy (low : Bool) (s : State) (i : Instr) (f : Form) (x : Issue) (c : Cohort) : Bool :=
  let on := x.on c f
  s.issue? i == some x && find? s.cohorts x.co == some c && x.ts.all (fun k => !c.isHeld k) && f.illegal == none && on != [] &&
  f.srcs.all (fun o => !isQueue o.sel && !isStream o.sel &&
    (if low then on.head?.toList else on).all fun k => !c.slotEmpty k o.sel o.wide && !(c.plain k o).2) &&
  f.dst.all fun o => !isQueue o.sel && !isStream o.sel &&
    (!isScalar o.sel || c.phase == .prologue || on.all fun k => ((c.thread? k).map Thread.role).getD 0 == 0) &&
    on.all fun k => !c.slotEmpty k o.sel o.wide && (s.allocate x o on).1.contains k

/-- An instruction goes ahead in a state of cohort 0. -/
def ready (s : State) (i : Instr) (f : Form) : Bool := (find? s.cohorts 0).any fun c => readyBy false s i f (labIssue s i) c

theorem ready_of {s : State} {i : Instr} {f : Form} {x : Issue} {c : Cohort} (h : readyBy false s i f x c = true) : Ready s i f x c := by
  simp only [readyBy, Bool.and_eq_true, beq_iff_eq, List.all_eq_true, Bool.not_eq_true', bne_iff_ne, ne_eq, Bool.false_eq_true, if_false,
    Option.all_eq_true, Bool.or_eq_true, List.contains_iff_mem] at h
  obtain ⟨⟨⟨⟨⟨⟨a, b⟩, cc⟩, d⟩, e⟩, f⟩, g⟩ := h
  refine ⟨a, b, cc, d, e, fun o ho => (f o ho).1, fun o ho => (f o ho).2, fun o ho => ?_, fun o ho k hk => (g o ho).2 k hk |>.2⟩
  obtain ⟨⟨⟨g1, g2⟩, g3⟩, g4⟩ := g o ho
  refine ⟨g1, g2, fun hs => ?_, fun k hk => (g4 k hk).1⟩
  rcases g3 with (g3 | g3) | g3
  · simp [hs] at g3
  · exact .inl g3
  · exact .inr g3

theorem readyLow_of {s : State} {i : Instr} {f : Form} {x : Issue} {c : Cohort} (h : readyBy true s i f x c = true) :
    ReadyLow s i f x c := by
  simp only [readyBy, Bool.and_eq_true, beq_iff_eq, List.all_eq_true, Bool.not_eq_true', bne_iff_ne, ne_eq, if_true,
    Option.all_eq_true, Bool.or_eq_true, List.contains_iff_mem] at h
  obtain ⟨⟨⟨⟨⟨⟨a, b⟩, cc⟩, d⟩, e⟩, f⟩, g⟩ := h
  refine ⟨a, b, cc, d, e, fun o ho => (f o ho).1, fun o ho k hk => (f o ho).2 k (by simp [hk]), fun o ho => ?_,
    fun o ho k hk => (g o ho).2 k hk |>.2⟩
  obtain ⟨⟨⟨g1, g2⟩, g3⟩, g4⟩ := g o ho
  refine ⟨g1, g2, fun hs => ?_, fun k hk => (g4 k hk).1⟩
  rcases g3 with (g3 | g3) | g3
  · simp [hs] at g3
  · exact .inl g3
  · exact .inr g3

/-- What `Goes` asks, as one check. -/
def goesBy (s : State) (i : Instr) (x : Issue) (c : Cohort) : Bool :=
  s.issue? i == some x && find? s.cohorts x.co == some c && x.ts.all fun k => !c.isHeld k

theorem goes_of {s : State} {i : Instr} {x : Issue} {c : Cohort} (h : goesBy s i x c = true) : Goes s i x c := by
  simp only [goesBy, Bool.and_eq_true, beq_iff_eq, List.all_eq_true, Bool.not_eq_true'] at h
  exact ⟨h.1.1, h.1.2, h.2⟩

/-- Registers and a pair of scalar registers that the tests read. -/
def labRegs : Cohort := labCohort [(2, 7), (3, 5), (4, 1), (8, 64), (10, 4096), (14, 16256)] [(1, 9)]

/-- Two instructions' forms go ahead in `lab labRegs`, each of a list. -/
def aheadAll (low : Bool) (l : List (Instr × Form)) : Bool :=
  l.all fun p => readyBy low (lab labRegs) p.1 p.2 (labIssue (lab labRegs) p.1) labRegs

theorem ahead_of {l : List (Instr × Form)} (h : aheadAll false l = true) :
    ∀ p ∈ l, Ready (lab labRegs) p.1 p.2 (labIssue (lab labRegs) p.1) labRegs :=
  fun p hp => ready_of (List.all_eq_true.1 h p hp)

/-- What a statement about an instruction of which some lanes trap asks of the state. -/
structure Alone (s : State) (i : Instr) (f : Form) (op : Thread → List Nat → Option LaneRes) (ok : Issue → Cohort → Prop) (x : Issue)
    (c : Cohort) : Prop where
  ready : Ready s i f x c
  ok    : ok x c
  bad   : x.trapping c f op ≠ []
  room  : ∀ o, f.dst = some o → ∀ k ∈ x.good c f op, k ∈ (s.allocate x o (x.good c f op)).1
  vals  : ∃ r : Nat → LaneRes, ∀ k ∈ x.good c f op, ∀ u, c.thread? k = some u → op u (c.args f k) = some (r k)

theorem alone_of {s : State} {i : Instr} {f : Form} {op : Thread → List Nat → Option LaneRes} {ok : Issue → Cohort → Prop} {x : Issue}
    {c : Cohort} (h : readyBy false s i f x c = true) (hk : ok x c)
    (hb : (x.trapping c f op != [] && f.dst.all fun o => (x.good c f op).all fun k => (s.allocate x o (x.good c f op)).1.contains k) = true) :
    Alone s i f op ok x c := by
  simp only [Bool.and_eq_true, bne_iff_ne, ne_eq, Option.all_eq_true, List.all_eq_true, List.contains_iff_mem] at hb
  refine ⟨ready_of h, hk, hb.1, hb.2, fun k => (((c.thread? k).bind fun u => op u (c.args f k))).getD ⟨0, 0, none⟩, fun k hk u hu => ?_⟩
  simp only [Issue.good, List.mem_filter, hu, Option.bind_some] at hk
  obtain ⟨v, hv⟩ := Option.isSome_iff_exists.1 hk.2
  simp [hu, hv]

/-! ## Witnesses: states that meet the hypotheses of the statements -/

theorem test_witness_IntegerArithmetic :
    (let S := binIntForm none 5 2 3 none
     let I := binIntForm none 5 2 125 (some 9)
     ∀ p ∈ [(Instr.add none 5 2 3, S isSN isSN), (.addImm none 5 2 125 9, I isSN isSN), (.sub none 5 2 3, S isSN isSN),
       (.subImm none 5 2 125 9, I isSN isSN), (.mul none 5 2 3, S isSN isSN), (.mulImm none 5 2 125 9, I isSN isSN),
       (.min none 5 2 3, S isSN noTy), (.minImm none 5 2 125 9, I isSN noTy), (.max none 5 2 3, S isSN noTy),
       (.maxImm none 5 2 125 9, I isSN noTy), (.mulh none 5 2 3, S isSN32 noTy), (.mulhImm none 5 2 125 9, I isSN32 noTy),
       (.neg none 5 2, unIntForm none 5 2 .s32 Ety.isS isSN), (.abs none 5 2, unIntForm none 5 2 .s32 Ety.isS isSN),
       (.mad none 5 2 3 4, madForm none 5 2 3 4 isSN id),
       (.madw none 6 2 3 98, madForm none 6 2 3 98 (fun t => t == .s32 || t == .n32) fun _ => .s64)],
       Ready (lab labRegs) p.1 p.2 (labIssue (lab labRegs) p.1) labRegs) ∧
    isSN .s32 = true :=
  ⟨ahead_of (by decide), by decide⟩

theorem test_witness_CarryArithmetic : ∀ p ∈ [
    (Instr.addc none 5 2 3, binIntForm none 5 2 3 none isSN32 noTy), (.addcImm none 5 2 125 9, binIntForm none 5 2 125 (some 9) isSN32 noTy),
    (.subb none 5 2 3, binIntForm none 5 2 3 none isSN32 noTy), (.subbImm none 5 2 125 9, binIntForm none 5 2 125 (some 9) isSN32 noTy)],
    Ready (lab labRegs) p.1 p.2 (labIssue (lab labRegs) p.1) labRegs :=
  ahead_of (by decide)

theorem test_witness_Shifts :
    let S := shiftForm none 5 2 3 none
    let I := shiftForm none 5 2 125 (some 9)
    ∀ p ∈ [(Instr.shl none 5 2 3, S isSN), (.shlImm none 5 2 125 9, I isSN), (.shr none 5 2 3, S noTy), (.shrImm none 5 2 125 9, I noTy),
      (.sar none 5 2 3, S noTy), (.sarImm none 5 2 125 9, I noTy), (.rotl none 5 2 3, S noTy), (.rotlImm none 5 2 125 9, I noTy)],
      Ready (lab labRegs) p.1 p.2 (labIssue (lab labRegs) p.1) labRegs :=
  ahead_of (by decide)

theorem test_witness_AddressesAndMoves : ∀ p ∈ [
    (Instr.lea none 6 2 3 4 2, leaForm none 6 2 3 4),
    (.addp none 6 2 3, addrForm none [srcOf .b64 (polA none) none 2, srcWord (polB none) 3] 6),
    (.addpImm none 6 2 125 9, addrForm none [srcOf .b64 (polA none) (some 9) 2, { srcWord (polB none) 125 with ext := some (Ety.s32.ext 9) }] 6),
    (.subp none 6 2 4, addrForm none [srcOf .b64 (polA none) none 2, srcOf .b64 (polB none) none 4] 6),
    (.mov none 5 2, unIntForm none 5 2 .s32 isSNB noTy), (.movi none 5 9, moviForm none 5)],
    Ready (lab labRegs) p.1 p.2 (labIssue (lab labRegs) p.1) labRegs :=
  ahead_of (by decide)

theorem test_witness_LogicAndBits :
    let S := binBitsForm none 5 2 3 none
    let I := binBitsForm none 5 2 125 (some 9)
    ∀ p ∈ [(Instr.and none 5 2 3, S), (.andImm none 5 2 125 9, I), (.or none 5 2 3, S), (.orImm none 5 2 125 9, I),
      (.xor none 5 2 3, S), (.xorImm none 5 2 125 9, I), (.andn none 5 2 3, S), (.andnImm none 5 2 125 9, I),
      (.not none 5 2, unIntForm none 5 2 .b32 isSNB noTy), (.bfe none 5 2 0 0 true 3 32, bfeForm none 5 2 0 0 true),
      (.bfe none 5 2 3 4 false 0 0, bfeForm none 5 2 3 4 false), (.bfi none 5 2 3 0 true 31 1, bfiForm none 5 2 3 0 true),
      (.bfi none 5 2 3 4 false 0 0, bfiForm none 5 2 3 4 false), (.popc none 5 2, countForm none 5 2), (.clz none 5 2, countForm none 5 2),
      (.ctz none 5 2, countForm none 5 2), (.brev none 5 2, unIntForm none 5 2 .b32 Ety.isB noTy),
      (.bshuf none 5 2 3 4, bshufForm none 5 2 3 4)],
      Ready (lab labRegs) p.1 p.2 (labIssue (lab labRegs) p.1) labRegs :=
  ahead_of (by decide)

theorem test_witness_ComparesAndPredicates : ∀ p ∈ [
    (Instr.cmp (some ⟨0, false, false, 0, false, false, false, false, false, false, 3⟩) 1 5 2 3,
      cmpForm (some ⟨0, false, false, 0, false, false, false, false, false, false, 3⟩) 5 2 3 none), (.cmpImm none 1 0 2 125 9, cmpForm none 0 2 125 (some 9)),
    (.sel none 5 2 3 true 7, selForm none 5 2 3), (.pand none 1 true 2 false 3, predForm none), (.por none 1 false 2 false 3, predForm none),
    (.pxor none 1 false 2 false 3, predForm none), (.pnot none 1 false 2, predForm none), (.pmov none 1 false 2, predForm none)],
    Ready (lab labRegs) p.1 p.2 (labIssue (lab labRegs) p.1) labRegs :=
  ahead_of (by decide)

theorem test_witness_FloatArithmetic :
    let S := binFpForm none 5 2 3 none
    let I := binFpForm none 5 2 125 (some 9)
    (∀ p ∈ [(Instr.fadd none 5 2 3, S accAll), (.faddImm none 5 2 125 9, I accAll), (.fsub none 5 2 3, S accAll),
      (.fsubImm none 5 2 125 9, I accAll), (.fmul none 5 2 3, S accAll), (.fmulImm none 5 2 125 9, I accAll),
      (.fma none 5 2 3 4, fmaForm none 5 2 3 4), (.fmin none 5 2 3, S accNf), (.fminImm none 5 2 125 9, I accNf),
      (.fmax none 5 2 3, S accNf), (.fmaxImm none 5 2 125 9, I accNf), (.fabs none 5 2, unFpForm none 2 accNone isFp fun t => dstOf t 5),
      (.fneg none 5 2, unFpForm none 2 accNone isFp fun t => dstOf t 5),
      (.fclass none 5 2, unFpForm none 2 accNone (fun t => isFp t || t == .a48) fun _ => dstOf .n32 5),
      (.frint none 5 2, unFpForm none 2 accRndNf isFp fun t => dstOf t 5), (.fscale none 5 2 3, scaleForm none 5 2 3 none),
      (.fscaleImm none 5 2 125 9, scaleForm none 5 2 125 (some 9))],
      Ready (lab labRegs) p.1 p.2 (labIssue (lab labRegs) p.1) labRegs) :=
  ahead_of (by decide)

theorem test_witness_PackedArithmetic :
    let abc := [srcWord false 2, srcWord false 3, srcWord false 4]
    ∀ p ∈ [(Instr.hadd2 none 5 2 3, packedForm none .f16 isHalf [srcWord false 2, srcWord false 3] (dstOf .b32 5)),
      (.hfma2 none 5 2 3 4, packedForm none .f16 (· == .f16) abc (dstOf .b32 5)),
      (.bfma2 none 5 2 3 4, packedForm none .bf16 (· == .bf16) abc (dstOf .b32 5)),
      (.dot2 none 5 2 3 4, packedForm none .f16 isHalf abc (dstOf .f32 5)),
      (.dot4 none 5 2 3 4, packedForm none .t8 Ety.isT abc (dstOf .f32 5)),
      (.pack none 5 2 3, packedForm none .f16 isHalf [srcOf .f32 false none 2, srcOf .f32 false none 3] (dstOf .b32 5))],
      Ready (lab labRegs) p.1 p.2 (labIssue (lab labRegs) p.1) labRegs :=
  ahead_of (by decide)

theorem test_witness_Conversions : ∀ p ∈ [
    (Instr.cvt none 5 2 10 3, cvtForm none 5 2 10 3), (.unpack none 5 2 3, unpackForm none 5 2 3 none),
    (.unpackImm none 5 2 125 1, unpackForm none 5 2 125 (some 1)), (.tdec none 5 2 3, taperForm none accNone [srcWord false 2] (dstOf .f32 5)),
    (.tenc none 5 2 3 0, taperForm none accRndNf [srcOf .f32 false none 2, srcWord false 3] (dstOf .b32 5)),
    (.qscale none 5 2 3 true 1, qscaleForm none 5 2 3)],
    Ready (lab labRegs) p.1 p.2 (labIssue (lab labRegs) p.1) labRegs :=
  ahead_of (by decide)

/-- Floating-point registers of which the first pair is an invalid operation in lane 0 alone, with its trap enabled, or in both. -/
def labNan (both : Bool) : Cohort :=
  { labCohort [(2, 0x7F800001), (3, 0x7C017C01), (4, 0x3F800000)] [] with
    threads := [(0, { placedThread with mode := 0x7C02 }), (1, if both then { placedThread with lane := 1, mode := 0x7C02 } else { placedThread with lane := 1 })] }

/-- What the trapping clause of `YieldsFp` asks. -/
def aloneFp (i : Instr) (f : Form) (op : Thread → List Nat → LaneRes) : Bool :=
  let s := lab (labNan false)
  let x := labIssue s i
  let op' (u : Thread) (vs : List Nat) : Option LaneRes := if (op u vs).fl &&& u.enables ≠ 0 then none else some (op u vs)
  readyBy false s i f x (labNan false) && (x.trapping (labNan false) f op' != [] &&
    f.dst.all fun o => (x.good (labNan false) f op').all fun k => (s.allocate x o (x.good (labNan false) f op')).1.contains k)

theorem test_witness_FloatTraps :
    aloneFp (.fadd none 5 2 4) (binFpForm none 5 2 4 none accAll) (fun u vs =>
      let v := addVal (roundOf none u) (Ety.f32.val (arg vs 0)) (Ety.f32.val (arg vs 1))
      let r := Ety.f32.result (roundOf none u) u.ftz false v.1 v.2
      ⟨r.1, r.2, none⟩) = true ∧
    aloneFp (.fcmp none 1 2 2 4) (fcmpForm none 2 2 4 none) (fun _ _ => ⟨0, flNV, some (1, false)⟩) = true ∧
    aloneFp (.hadd2 none 5 3 4) (packedForm none .f16 isHalf [srcWord false 3, srcWord false 4] (dstOf .b32 5)) (fun _ _ => ⟨0, flNV, none⟩) = true ∧
    aloneFp (.cvt none 5 2 10 3) (cvtForm none 5 2 10 3) (fun _ _ => ⟨0, flNV, none⟩) = true := by
  decide

theorem test_witness_FloatCompare : ∀ p ∈ [
    (Instr.fcmp none 1 2 2 4, fcmpForm none 2 2 4 none), (.fcmpImm none 1 7 2 125 9, fcmpForm none 7 2 125 (some 9))],
    Ready (lab labRegs) p.1 p.2 (labIssue (lab labRegs) p.1) labRegs :=
  ahead_of (by decide)

/-- A quotient, where lane 0 divides by its own number. -/
def labQuo (_ : Thread) (vs : List Nat) : Option LaneRes := if arg vs 1 = 0 then none else some (onlyVal (arg vs 0 / arg vs 1))

theorem test_witness_MultiCycleInstructionsStart :
    (let D := binIntForm none 5 2 3 none isSN32
     let I := binIntForm none 5 2 125 (some 9) isSN32
     let F (acc : Accept) (ok : Ety → Bool) := unFpForm none 2 acc ok fun t => dstOf t 5
     ∀ p ∈ [(Instr.div none 5 2 3, D isSN), (.divImm none 5 2 125 9, I isSN), (.rem none 5 2 3, D noTy), (.remImm none 5 2 125 9, I noTy),
       (.fdiv none 5 2 3, binFpForm none 5 2 3 none accAll), (.fdivImm none 5 2 125 9, binFpForm none 5 2 125 (some 9) accAll),
       (.fsqrt none 5 2, F accAll isFp), (.frcp none 5 2, F accSatNf isFp), (.frsq none 5 2, F accSatNf isFp),
       (.sin none 5 2, F accSatNf isSfu), (.cos none 5 2, F accSatNf isSfu), (.fexp2 none 5 2, F accSatNf isSfu),
       (.flog2 none 5 2, F accSatNf isSfu), (.tanh none 5 2, F accSatNf isSfu), (.sig none 5 2, F accSatNf isSfu)],
       Ready (lab labRegs) p.1 p.2 (labIssue (lab labRegs) p.1) labRegs) ∧
    (∀ sfu, (lab labRegs).hasSlot sfu (labIssue (lab labRegs) (.div none 5 2 3)) labRegs) ∧
    Alone (lab labRegs) (.div none 5 2 126) (binIntForm none 5 2 126 none isSN32 isSN) labQuo ((lab labRegs).hasSlot false)
      (labIssue (lab labRegs) (.div none 5 2 126)) labRegs ∧
    Alone (lab (labNan false)) (.fdiv none 5 2 4) (binFpForm none 5 2 4 none accAll)
      (fun u _ => if flNV &&& u.enables ≠ 0 then none else some (onlyVal 0)) ((lab (labNan false)).hasSlot false)
      (labIssue (lab (labNan false)) (.fdiv none 5 2 4)) (labNan false) :=
  ⟨ahead_of (by decide), by unfold State.hasSlot; decide, alone_of (by decide) (by unfold State.hasSlot; decide) (by decide),
    alone_of (by decide) (by unfold State.hasSlot; decide) (by decide)⟩

/-- A result outstanding for both threads, in a cohort that has given them register 5 and 6. -/
def labOwed (kind : PKind) (dest : PDest) : Cohort :=
  { labRegs with
    crews := [(0, ⟨0, 0, [(5, ⟨1, Vector.replicate 32 0, 0⟩), (6, ⟨2, Vector.replicate 32 0, 0⟩)], []⟩)]
    pends := [(0, ⟨kind, dest, 0, [(0, 11), (1, 12)], 0⟩)] }

theorem test_witness_DelayedResultsArrive : ∀ kind ∈ [PKind.load, .div, .multi false, .multi true],
    ∀ dest ∈ [PDest.vreg 5 true, .vreg 6 false, .sreg 15 .s32, .drop],
    ∃ c p, find? (lab (labOwed kind dest)).cohorts 0 = some c ∧ find? c.pends 0 = some p ∧ Landable c p ∧ p.kind = kind := by
  intro kind _ dest hd
  refine ⟨labOwed kind dest, ⟨kind, dest, 0, [(0, 11), (1, 12)], 0⟩, rfl, rfl, ⟨?_, fun r wide e l hl => ?_⟩, rfl⟩
  · exact (by decide : [0, 1].Nodup)
  · have hc : (labOwed kind dest).crews = (labOwed .load .drop).crews := rfl
    simp only [List.mem_cons, List.not_mem_nil, or_false] at hd hl
    rcases hd with rfl | rfl | rfl | rfl <;> simp only [PDest.vreg.injEq, reduceCtorEq] at e <;> obtain ⟨rfl, rfl⟩ := e <;>
      rcases hl with rfl | rfl <;> simp only [Cohort.phys?, hc] <;> decide

/-- What the hypotheses of `CrossYields` ask, but of `r`, which they define. -/
structure Crosses (s : State) (i : Instr) (f : Form) (mk : Bool) (m : Sel) (c : Cohort) (x : Issue) (bad : List Nat) : Prop where
  ready : Ready s i (f.masked (s.selCompat && mk) mk m) x c
  mask  : (s.selCompat && mk) = true → let on := (lanesOf true mk m x c (f.masked true mk m)).on
    (∀ k ∈ on, c.slotEmpty k m false = false) ∧ (c.plain (on.head?.getD 0) (srcWord false m)).2 = false
  room  : let g := (lanesOf (s.selCompat && mk) mk m x c (f.masked (s.selCompat && mk) mk m)).good
    ∀ o, f.dst = some o → ∀ k ∈ g, k ∈ (s.allocate x o g).1
  bad   : (lanesOf (s.selCompat && mk) mk m x c (f.masked (s.selCompat && mk) mk m)).bad = bad
  calm  : ∀ p ∈ c.threads, p.2.enables = 0

/-- `Crosses` as one check. -/
def crossBy (s : State) (i : Instr) (f : Form) (mk : Bool) (m : Sel) (c : Cohort) (bad : List Nat) : Bool :=
  let e := s.selCompat && mk
  let x := labIssue s i
  let F := f.masked e mk m
  let L := lanesOf e mk m x c F
  readyBy false s i F x c && (L.on.all fun k => !c.slotEmpty k m false) && !(c.plain (L.on.head?.getD 0) (srcWord false m)).2 &&
  (f.dst.all fun o => L.good.all fun k => (s.allocate x o L.good).1.contains k) && L.bad == bad &&
  c.threads.all fun p => p.2.enables == 0

theorem crosses_of {s : State} {i : Instr} {f : Form} {mk : Bool} {m : Sel} {c : Cohort} {bad : List Nat}
    (h : crossBy s i f mk m c bad = true) : Crosses s i f mk m c (labIssue s i) bad := by
  simp only [crossBy, Bool.and_eq_true, List.all_eq_true, Bool.not_eq_true', Option.all_eq_true, List.contains_iff_mem, beq_iff_eq] at h
  obtain ⟨⟨⟨⟨⟨a, b⟩, b'⟩, cc⟩, d⟩, e⟩ := h
  refine ⟨ready_of a, fun he => ?_, cc, d, e⟩
  rw [he] at b b'
  exact ⟨b, b'⟩

/-- The selected cohort's kernel is compiled for `.compat elect`. -/
def labElect : Cohort := { labRegs with hdr := { placedHeader with compat := true } }

/-- A mask of register 3: bits 0 and 2 are set, and lane 1's own bit is not. -/
def crossCases (m : Sel) : List (Instr × Form) := [
  (.shfl none 5 2 3 m true true 0 false 0, shuffleForm none 5 2 3 m true 0 false),
  (.shflRel none 5 2 0 m true false 5 true 31, shuffleForm none 5 2 0 m true 5 true),
  (.shflXor none 5 2 3 m true true 2 false 0, shuffleForm none 5 2 3 m true 2 false),
  (.bcast none 5 2 m true 2 0, bcastForm none 5 2 m true 2 0), (.vote none 5 true 0 m true 0, voteForm none 5 m true 0),
  (.lred none 5 2 m true 2 1, lredForm none 5 2 m true 2 1)]

theorem test_witness_CrossLaneInstructions :
    (∀ p ∈ [(Instr.shfl none 5 2 3 0 false true 0 false 0, shuffleForm none 5 2 3 0 false 0 false),
      (.shflRel none 5 2 0 0 false false 5 true (-32), shuffleForm none 5 2 0 0 false 5 true),
      (.shflXor none 5 2 3 0 false true 2 false 0, shuffleForm none 5 2 3 0 false 2 false),
      (.bcast none 5 2 0 false 0 31, bcastForm none 5 2 0 false 0 31), (.vote none 5 true 7 0 false 4, voteForm none 5 0 false 4),
      (.lred none 5 2 0 false 0 5, lredForm none 5 2 0 false 0 5)],
      Crosses (lab labRegs) p.1 p.2 false 0 labRegs (labIssue (lab labRegs) p.1) []) ∧
    (∀ p ∈ crossCases 3, Crosses (lab labRegs) p.1 p.2 true 3 labRegs (labIssue (lab labRegs) p.1) [1] ∧
      Crosses (lab labElect) p.1 p.2 true 3 labElect (labIssue (lab labElect) p.1) []) ∧
    -- the lowest lane's mask leaves it out
    (∀ p ∈ crossCases 126, Crosses (lab labElect) p.1 p.2 true 126 labElect (labIssue (lab labElect) p.1) [0]) ∧
    Ready (lab labRegs) (.matchLanes none 5 2) (matchForm none 5 2) (labIssue (lab labRegs) (.matchLanes none 5 2)) labRegs := by
  have all {s : State} {mk : Bool} {m : Sel} {c : Cohort} {bad : List Nat} {l : List (Instr × Form)}
      (h : l.all (fun p => crossBy s p.1 p.2 mk m c bad) = true) : ∀ p ∈ l, Crosses s p.1 p.2 mk m c (labIssue s p.1) bad :=
    fun p hp => crosses_of (List.all_eq_true.1 h p hp)
  exact ⟨all (by decide), fun p hp => ⟨all (by decide) p hp, all (by decide) p hp⟩, all (by decide), ready_of (by decide)⟩

/-- The cohort of the tests with each thread changed; and with its first thread alone. -/
def labT (f : Thread → Thread) : Cohort := { labRegs with threads := labRegs.threads.map fun p => (p.1, f p.2) }
def lone (c : Cohort) : Cohort := { c with threads := c.threads.take 1 }

/-- The instruction has a group to run for. -/
def go (c : Cohort) (i : Instr) : Bool := goesBy (lab c) i (labIssue (lab c) i) c

theorem go_of {c : Cohort} {i : Instr} (h : go c i = true) : Goes (lab c) i (labIssue (lab c) i) c := goes_of h

/-- The state after a target's check. -/
def landed (s : State) (i : Instr) (a : DWord) (first : Bool) : State := (s.checkTarget (labIssue s i).ci (labIssue s i).ctx a first).2

theorem lands_of {s : State} {i : Instr} {c : Cohort} {a : DWord} {first un : Bool}
    (h : ((s.checkTarget (labIssue s i).ci (labIssue s i).ctx a first).1 == (if un then .unread else .ok) &&
      goesBy (landed s i a first) i (labIssue s i) c) = true) :
    Lands s i (labIssue s i) c a first (landed s i a first) un := by
  simp only [Bool.and_eq_true, beq_iff_eq] at h
  exact ⟨Prod.ext h.1 rfl, goes_of h.2⟩

/-- A loop entry that the words below do not end. -/
def labLoop : LoopEntry := ⟨64, 128, 3⟩

/-- The words at 64 and before it are read from copies. -/
theorem steady64 (words : List Word) : Steady (lab labRegs) ⟨0, 0, 0, 0, [0, 1], 0, words⟩ 64 := by
  intro cs ks fr
  have h (a : Nat) (h : a = 64 ∨ a = 60) : ({ lab labRegs with cohorts := cs, counters := ks, fresh := fr }).fetchAt 0 0 a =
      (.word 0, { lab labRegs with cohorts := cs, counters := ks, fresh := fr }) := by
    rcases h with rfl | rfl <;> rfl
  simp [State.checkTarget, h, wordKind]

theorem test_witness_ControlTransfers :
    -- bra and call: a target that is checked, and one that cannot be read
    (∀ p ∈ [(Instr.bra false false 0 3, (12 : DWord), false), (.bra true true 2 1024, 4096, true), (.call 6 3, 12, false), (.call 6 1024, 4096, true)],
      Goes (lab labRegs) p.1 (labIssue (lab labRegs) p.1) labRegs ∧
      Lands (lab labRegs) p.1 (labIssue (lab labRegs) p.1) labRegs p.2.1 false (landed (lab labRegs) p.1 p.2.1 false) p.2.2 ∧
      (landed (lab labRegs) p.1 p.2.1 false).counter .cluBraDiverge 0 < 2 ^ 64 - 1) ∧
    linkOk 6 = true ∧
    Ready (landed (lab labRegs) (.call 6 3) 12 false) (.call 6 3) (bareForm [] (some (dstOf .b64 6))) (labIssue (lab labRegs) (.call 6 3)) labRegs ∧
    -- ret and jmp
    addrOk 8 = true ∧ (∀ i ∈ [Instr.ret 8, .jmp 8], Ready (lab labRegs) i (bareForm [srcOf .b64 false none 8] none) (labIssue (lab labRegs) i) labRegs ∧
      Steady (lab labRegs) (labIssue (lab labRegs) i) 64) ∧
    -- loop: a count of 2; with four entries already; and a count of 0
    (∀ p ∈ [(labRegs, (2 : BitVec 15)), (labT fun u => { u with loops := List.replicate 4 labLoop }, 2), (labRegs, 0)],
      let i := Instr.loop 0 2 true p.2
      let t := landed (lab p.1) i 16 true
      Goes (lab p.1) i (labIssue (lab p.1) i) p.1 ∧ Lands (lab p.1) i (labIssue (lab p.1) i) p.1 16 true t false ∧
      Ready t i (bareForm [] none) (labIssue (lab p.1) i) p.1 ∧ t.afterInstr (labIssue (lab p.1) i) 16 = (.at 20, t) ∧
      find? t.cohorts 0 = some p.1) ∧
    -- lbrk: with no entry, and with one whose end can be read
    (∀ c ∈ [labRegs, labT fun u => { u with loops := [labLoop] }], Goes (lab c) .lbrk (labIssue (lab c) .lbrk) c) ∧
    (let c := labT fun u => { u with loops := [labLoop] }
     (lab c).afterInstr (labIssue (lab c) .lbrk) 128 = (.at 132, lab c) ∧ find? (lab c).cohorts 0 = some c) ∧
    Goes (lab labRegs) .nop (labIssue (lab labRegs) .nop) labRegs := by
  have each {α : Type} {l : List α} {P : α → Prop} {b : α → Bool} (h : l.all b = true) (f : ∀ a, b a = true → P a) : ∀ a ∈ l, P a :=
    fun a ha => f a (List.all_eq_true.1 h a ha)
  refine ⟨each (b := fun p : Instr × DWord × Bool => go labRegs p.1 && (((lab labRegs).checkTarget (labIssue (lab labRegs) p.1).ci
      (labIssue (lab labRegs) p.1).ctx p.2.1 false).1 == (if p.2.2 then .unread else .ok) &&
      goesBy (landed (lab labRegs) p.1 p.2.1 false) p.1 (labIssue (lab labRegs) p.1) labRegs) &&
      decide ((landed (lab labRegs) p.1 p.2.1 false).counter .cluBraDiverge 0 < 2 ^ 64 - 1)) (by decide +kernel) fun p h => ?_,
    by decide, ready_of (by decide), by decide, fun i hi => ⟨?_, steady64 (encode i)⟩, ?_, ?_, ⟨by decide, rfl⟩, go_of (by decide)⟩
  · simp only [Bool.and_eq_true, decide_eq_true_eq] at h
    exact ⟨go_of h.1.1, lands_of (by simp [h.1.2]), h.2⟩
  · exact each (b := fun i => readyBy false (lab labRegs) i (bareForm [srcOf .b64 false none 8] none) (labIssue (lab labRegs) i) labRegs)
      (by decide) (fun _ h => ready_of h) i hi
  · intro p hp
    simp only [List.mem_cons, List.not_mem_nil, or_false] at hp
    rcases hp with rfl | rfl | rfl <;> exact ⟨go_of (by decide), lands_of (by decide), ready_of (by decide), by decide, by decide⟩
  · exact each (b := fun c => go c .lbrk) (by decide) fun _ h => go_of h

theorem each {α : Type} {l : List α} {P : α → Prop} {b : α → Bool} (h : l.all b = true) (f : ∀ a, b a = true → P a) : ∀ a ∈ l, P a :=
  fun a ha => f a (List.all_eq_true.1 h a ha)

/-- `Goes` for some cohorts, each with an instruction. -/
theorem goes_all {l : List (Cohort × Instr)} (h : (l.all fun p => go p.1 p.2) = true) :
    ∀ p ∈ l, Goes (lab p.1) p.2 (labIssue (lab p.1) p.2) p.1 := each h fun _ => go_of

/-- The kernels of the tests with DIVOVER 0 or 1, and threads that have a full divergence stack or an overflow count. -/
def labFull (ovf : Bool) : Cohort := { labT (fun u => { u with divs := [9, 9, 9, 9, 9, 9, 9, 9] }) with hdr := { placedHeader with divover := ovf } }
def labOvf (n : Nat) : Cohort := labT fun u => { u with ovf := n }

theorem lands_at {s : State} {i : Instr} {c : Cohort} {a : DWord} {x : Issue} (hx : labIssue s i = x)
    (h : ((s.checkTarget (labIssue s i).ci (labIssue s i).ctx a false).1 == .ok &&
      goesBy (landed s i a false) i (labIssue s i) c) = true) : Lands s i x c a false (landed s i a false) false :=
  hx ▸ lands_of (un := false) h

theorem test_witness_DivergentBranch :
    let i : Instr := .brd true 0 3 5
    ∀ c ∈ [labRegs, labOvf 1, labFull true, labFull false],
      let s1 := landed (lab c) i 12 false
      Goes (lab c) i (labIssue (lab c) i) c ∧ Lands (lab c) i (labIssue (lab c) i) c 12 false s1 false ∧
      Lands s1 i (labIssue (lab c) i) c 20 false (landed s1 i 20 false) false := by
  intro i c hc
  simp only [List.mem_cons, List.not_mem_nil, or_false] at hc
  rcases hc with rfl | rfl | rfl | rfl <;>
    exact ⟨go_of (by decide), lands_of (by decide), lands_at (by decide +kernel) (by decide +kernel)⟩

/-- Threads whose top entry joins at the address they stand at; with `wait` the second one has arrived there before. -/
def labJoin (wait : Bool) : Cohort :=
  { labRegs with
    divs := [(7, ⟨0, [0, 1]⟩)]
    threads := [(0, { placedThread with divs := [7] }), (1, { placedThread with lane := 1, divs := [7], run := if wait then .join 4 else .group 0 })] }

/-- A serial run in which the first thread runs; the second has still to run, or has run. -/
def labSerial (more : Bool) : Cohort :=
  { labRegs with
    serials := [(9, ⟨if more then [1] else [], [0, 1]⟩)]
    threads := [(0, { placedThread with ovf := 1 }), (1, { placedThread with lane := 1, run := if more then .serialWait 9 else .serialDone 9 4 })] }

theorem test_witness_JoinMeets :
    (∀ p ∈ [(labRegs, Instr.join), (labJoin false, .join), (labJoin true, .join), (labOvf 2, .join), (labSerial true, .join), (labSerial false, .join)],
      Goes (lab p.1) p.2 (labIssue (lab p.1) p.2) p.1) ∧
    (lab labRegs).counter .cluJoinNop 0 < 2 ^ 64 - 1 ∧
    (∀ w, find? (labJoin w).divs 7 = some ⟨0, [0, 1]⟩) ∧
    (∀ b, (labIssue (lab (labSerial b)) .join).ts = [0] ∧ (labSerial b).serialOf 0 = some 9 ∧ (find? (labSerial b).serials 9).isSome = true) :=
  ⟨goes_all (by decide), by decide, fun _ => rfl, by decide⟩

theorem test_witness_ReformFiles : ∀ c ∈ [labRegs, labOvf 1], let x := labIssue (lab c) .reform
    Goes (lab c) .reform x c ∧ (∀ k ∈ x.ts, (c.crewOf k).sp = 0) ∧
    (((lab c).cluster x.ci).bins.filter fun b => b.2.sp == 0).length + x.ts.length ≤ 64 ∧
    (∀ b ∈ ((lab c).cluster x.ci).bins, b.1 < (lab c).fresh) ∧ (lab c).isCluster x.ci = true := by
  intro c hc
  simp only [List.mem_cons, List.not_mem_nil, or_false] at hc
  rcases hc with rfl | rfl <;> exact ⟨go_of (by decide), by decide⟩

theorem test_witness_SoftwareTraps : ∀ p ∈ [(labRegs, Instr.trap 0), (labRegs, .brk 0x1FFFFF), (labRegs, .illegalOp (.orphanTail 0xC0000000)),
    (labRegs, .illegalOp (.unassigned none 0x02E00000))], Goes (lab p.1) p.2 (labIssue (lab p.1) p.2) p.1 :=
  goes_all (by decide)

/-- A launch record with a trap area at 0. -/
def labRecord : Record := {
  header := 256, shape := [2, 1, 1], cohsz := 2, banks := 1, sig := false, waits := [], bmap := 128, cpl := 32, locpa := 0, trapa := 1024
  save := 0, clean := true }

/-- The grid of the cohort of the tests. -/
def labGrid : Grid := {
  queue := 0, ctx := 0, world := 0, prio := 0, record := labRecord, state := .running, hdr := some placedHeader, extents := [2, 1, 1]
  prologue := 0xFFFFFFFF, total := 2, ncoh := 1, placed := 1, retired := 0, offered := [] }

/-- A state with that grid, whose context traps to address `v`. -/
def labTrap (v : DWord) (c : Cohort) : State :=
  let s := lab c
  { s with
    lch := { s.lch with grids := [(0, labGrid)] }
    xlt := { s.xlt with ctxs := [(0, ⟨0, 0, true, true, 0, v, 0, true⟩)] } }

/-- Threads in a handler, each with one frame, of slot 0. -/
def labHandler : Cohort := labT fun u => { u with mode := 0x8002, frames := [⟨0, [], none, 0⟩] }

theorem test_witness_TakingATrap :
    (∀ v : DWord, find? (labTrap v labRegs).cohorts 0 = some labRegs ∧ (labRegs.thread? 0).isSome = true ∧
      ((labTrap v labRegs).ctx? labRegs.ctx).isSome = true ∧ labRegs.pends = [] ∧
      (labTrap v labRegs).frameAddr labRegs 0 0 = some 1024) ∧
    (let s := labTrap 256 labRegs
     let r := s.translate 0 0 1024 Need.write
     r.1 = .ok ⟨1024, 0, 0⟩ ∧ r.2.worldOk 0 0 = true ∧
     let w := r.2.writePhys 0 1024 (s.frameBytes 0 labRegs placedThread ⟨.syscall, 0, 4, 0, 0, some 0⟩)
     w.1 = none ∧ find? w.2.cohorts 0 = some labRegs) :=
  ⟨fun _ => ⟨rfl, rfl, rfl, rfl, rfl⟩, rfl, by decide, by decide +kernel, by decide +kernel⟩

/-- A line that nothing has marked passes its checks for world 0, which leave the state as it is. -/
theorem checkLine_plain {s : State} (hl : s.lines = []) (n : Nat) : s.checkLine 0 n = (.ok, s) := by
  have hn : s.line n = Line.none := by simp [State.line, hl, findD, find?]
  have stored : s.checkStored 0 n = (.ok, s) := by
    unfold State.checkStored
    rw [hn]
    rfl
  unfold State.checkLine
  rw [hn]
  split
  · rfl
  · exact stored

/-- Of lines that nothing has marked world 0 reads what memory holds, which leaves the state as it is. -/
theorem readRun_plain {s : State} (hl : s.lines = []) (ps : List (Nat × List Byte)) :
    s.readRun 0 ps = (.ok (ps.flatMap fun p => s.mem.getBytes p.1 p.2.length), s) := by
  induction ps with
  | nil => rfl
  | cons p ps ih =>
    have line : s.readLine 0 p.1 p.2.length = (.ok (s.mem.getBytes p.1 p.2.length), s) := by
      unfold State.readLine
      rw [checkLine_plain hl]
    unfold State.readRun
    simp only [line, ih, List.flatMap_cons]

theorem flatMap_replicate_length (ps : List (Nat × List Byte)) :
    ps.flatMap (fun p => List.replicate p.2.length (0 : Byte)) = List.replicate (ps.map fun p => p.2.length).sum 0 := by
  induction ps with
  | nil => rfl
  | cons p ps ih => simp only [List.flatMap_cons, ih, List.replicate_append_replicate, List.map_cons, List.sum_cons]

/-- Memory that nothing has written reads as zeros. -/
theorem getBytes_zeros (a k : Nat) : Memory.getBytes [] a k = List.replicate k 0 := by
  induction k generalizing a with
  | zero => rfl
  | succ k ih => simp [Memory.getBytes, ih, List.replicate_succ, Memory.get, findD, find?, Memory.absent]

theorem test_witness_TrapReturns :
    Goes (lab labRegs) .tret (labIssue (lab labRegs) .tret) labRegs ∧
    (let s := labTrap 256 labHandler
     let x := labIssue s .tret
     let after (served : FMap Nat) : State := { s with pwr := { s.pwr with takers := served } }
     goesBy s .tret x labHandler = true ∧ x.ts = [0, 1] ∧
     ∀ k ∈ [0, 1], ∃ a, s.frameAddr labHandler k 0 = some a ∧ ∀ cs ks n served, ∃ more,
       ({ after served with cohorts := cs, counters := ks, fresh := n }).readVa x [(a, 1024)] =
         (.done (List.replicate 1024 0), { after more with cohorts := cs, counters := ks, fresh := n })) := by
  refine ⟨go_of (by decide), by decide, by decide, fun k hk => ?_⟩
  let after (served : FMap Nat) : State := { labTrap 256 labHandler with pwr := { (labTrap 256 labHandler).pwr with takers := served } }
  have zeros (a : Nat) (h : a = 1024 ∨ a = 3072) (cs ks n served) : ∃ more,
      ({ after served with cohorts := cs, counters := ks, fresh := n }).readVa (labIssue (labTrap 256 labHandler) .tret) [(a, 1024)] =
        (.done (List.replicate 1024 0), { after more with cohorts := cs, counters := ks, fresh := n }) := by
    have hp : ({ after served with cohorts := cs, counters := ks, fresh := n }).placeOf 0 0 (a % 2 ^ 64) Need.read =
        (.ok ⟨a, 0, 0⟩, ({ after served with cohorts := cs, counters := ks, fresh := n }).serves 0 a) := by rcases h with rfl | rfl <;> rfl
    have hs : ∃ more, ({ after served with cohorts := cs, counters := ks, fresh := n }).serves 0 a =
        { after more with cohorts := cs, counters := ks, fresh := n } := by rcases h with rfl | rfl <;> exact ⟨_, rfl⟩
    obtain ⟨more, hs⟩ := hs
    refine ⟨more, ?_⟩
    rw [hs] at hp
    have hr : (({ after more with cohorts := cs, counters := ks, fresh := n }).countRdc 0 a 0 0 0).recall 0 (a / 128) =
        { after more with cohorts := cs, counters := ks, fresh := n } := by rcases h with rfl | rfl <;> rfl
    have hb : (cutLines a (List.replicate 1024 0)).flatMap (fun p => Memory.getBytes [] p.1 p.2.length) = List.replicate 1024 0 := by
      have hn : ((cutLines a (List.replicate 1024 0)).map fun p => p.2.length).sum = 1024 := by rcases h with rfl | rfl <;> decide +kernel
      simp only [getBytes_zeros, flatMap_replicate_length, hn]
    have hx : (labIssue (labTrap 256 labHandler) .tret).ci = 0 ∧ (labIssue (labTrap 256 labHandler) .tret).ctx = 0 := ⟨rfl, rfl⟩
    simp only [State.readVa, hx.1, hx.2, hp, show dieOf 0 = 0 from rfl, hr, State.readPhys]
    rw [readRun_plain rfl]
    show (Lane.done ((cutLines a (List.replicate 1024 0)).flatMap (fun p => Memory.getBytes [] p.1 p.2.length) ++ []), _) = _
    rw [hb]
    exact congrArg (fun l => (Lane.done l, _)) (List.append_nil _)
  simp only [List.mem_cons, List.not_mem_nil, or_false] at hk
  rcases hk with rfl | rfl
  · exact ⟨1024, rfl, zeros 1024 (.inl rfl)⟩
  · exact ⟨3072, rfl, zeros 3072 (.inr rfl)⟩

theorem readyLow_all {l : List (Cohort × Instr × Form)} (h : (l.all fun p => readyBy true (lab p.1) p.2.1 p.2.2 (labIssue (lab p.1) p.2.1) p.1) = true) :
    ∀ p ∈ l, ReadyLow (lab p.1) p.2.1 p.2.2 (labIssue (lab p.1) p.2.1) p.1 := each h fun _ => readyLow_of

theorem ready_all {l : List (Cohort × Instr × Form)} (h : (l.all fun p => readyBy false (lab p.1) p.2.1 p.2.2 (labIssue (lab p.1) p.2.1) p.1) = true) :
    ∀ p ∈ l, Ready (lab p.1) p.2.1 p.2.2 (labIssue (lab p.1) p.2.1) p.1 := each h fun _ => ready_of

theorem test_witness_BarriersAndConvergenceRegistersStart : ∀ p ∈ [
    -- counts of 7 and of 0
    (labRegs, Instr.barrInit 15 2 3, form7 [srcWord false 2, srcWord false 3] none false false),
    (labRegs, .barrInit 0 5 3, form7 [srcWord false 5, srcWord false 3] none false false),
    (labRegs, .barrInitImm 1 125 3 9, form7 [srcImm false (imm32 9) 125, srcImm false (imm32 9) 3] none false false),
    (labRegs, .convInit 7 3, form7 [srcWord false 3] none false false),
    (labRegs, .convInitImm 0 125 1, form7 [srcImm false (imm32 1) 125] none false false)],
    ReadyLow (lab p.1) p.2.1 p.2.2 (labIssue (lab p.1) p.2.1) p.1 :=
  readyLow_all (by decide)

/-- One thread, and barrier 0. -/
def labBar (b : Barrier) : Cohort := { lone labRegs with bars := [(0, b)] }

theorem test_witness_BarriersMeet :
    -- arrivals: at an inert barrier, again in a phase, before the last, and as the last
    (∀ p ∈ [(lone labRegs, Instr.barrArrive 0), (labBar ⟨false, 2, 1, false, false, 1, [0], 0⟩, .barrArrive 0),
      (labBar ⟨false, 3, 1, false, true, 1, [], 0⟩, .barrArrive 0), (labBar ⟨false, 2, 1, false, true, 1, [], 0⟩, .barrArrive 0)],
      Goes (lab p.1) p.2 (labIssue (lab p.1) p.2) p.1) ∧ (lone labRegs).bar 0 = Barrier.inertOne ∧
    (∀ b, (labBar b).bar 0 = b ∧ (labIssue (lab (labBar b)) (.barrArrive 0)).ts = [0]) ∧
    -- the phase differs, or does not
    (∀ b : Bool, ∀ p ∈ [(labBar ⟨false, 2, 0, b, b, 1, [], 0⟩, Instr.barrWait 0 5, form7 [srcWord false 5] none false false),
      (labBar ⟨false, 2, 0, b, b, 1, [], 0⟩, .barrWaitImm 0 125 0, form7 [srcImm false (imm32 0) 125] none false false),
      (labBar ⟨false, 2, 0, b, b, 1, [], 0⟩, .barrTest 1 5 0, form7 [srcWord false 5] none false false),
      (labBar ⟨false, 2, 0, b, b, 1, [], 0⟩, .barrTestImm 1 125 0 0, form7 [srcImm false (imm32 0) 125] none false false)],
      Ready (lab p.1) p.2.1 p.2.2 (labIssue (lab p.1) p.2.1) p.1) ∧
    -- flips
    (∃ b : Barrier, b.inert = false ∧ 0 < b.count ∧ b.held = 0) := by
  refine ⟨goes_all (by decide), rfl, fun b => ⟨rfl, rfl⟩, fun b => ?_, ⟨false, 2, 5, false, false, 0, [], 0⟩, rfl, by decide, rfl⟩
  cases b <;> exact ready_all (by decide)

/-- The loads and stores of the statements, with their forms: a base of `a`. -/
def labLoads (a : Sel) : List (Instr × Form × Bool × Bool) := [
  (.ld none 5 a 9, memForm none (shortRef false a 9) true [] (some (dstOf (memType none) 5)), false, false),
  (.ldOfs none 5 a 9 0 3 true 0, memForm none (longRef false a 9 0 3 true 0) true [] (some (dstOf (memType none) 5)), false, false),
  (.ldsp none 5 a 9, memForm none (shortRef true a 9) true [] (some (dstOf (memType none) 5)), true, false),
  (.ldspOfs none 5 a 9 0 0 false 3, memForm none (longRef true a 9 0 0 false 3) true [] (some (dstOf (memType none) 5)), true, false),
  (.ldc none 5 a 9, memForm none (shortRef false a 9) true [] (some (dstOf (memType none) 5)), false, true),
  (.ldcOfs none 5 a 9 0 0 false 0, memForm none (longRef false a 9 0 0 false 0) true [] (some (dstOf (memType none) 5)), false, true)]

def labStores (a : Sel) : List (Instr × Form × Bool) := [
  (.st none 3 a 9, memForm none (shortRef false a 9) true [srcOf (memType none) false none 3] none, false),
  (.stOfs none 3 a 9 0 0 true 0, memForm none (longRef false a 9 0 0 true 0) true [srcOf (memType none) false none 3] none, false),
  (.stsp none 3 a 9, memForm none (shortRef true a 9) true [srcOf (memType none) false none 3] none, true),
  (.stspOfs none 3 a 9 0 0 false 3, memForm none (longRef true a 9 0 0 false 3) true [srcOf (memType none) false none 3] none, true)]

/-- An access of a load. -/
def labAcc (s : State) (x : Issue) (sp const : Bool) (ea : Nat) : Acc Nat × State :=
  if const then s.loadConst x ea 4 0 else s.load x sp ea 4 0

/-- Two lanes' loads at address 64, one after the other. -/
def labTwice (p : Instr × Form × Bool × Bool) : Bool :=
  let x := labIssue (lab labRegs) p.1
  let a := labAcc (lab labRegs) x p.2.2.1 p.2.2.2 64
  let b := labAcc a.2 x p.2.2.1 p.2.2.2 64
  readyBy false (lab labRegs) p.1 p.2.1 x labRegs && (a.1 == .ok 0) && (b.1 == .ok 0) && (find? b.2.cohorts 0 == some labRegs) &&
    ((b.2.allocate x (dstOf .b32 5) [0, 1]).1 == [0, 1])

theorem test_witness_LoadsAndStores :
    (∀ p ∈ labLoads 8, let x := labIssue (lab labRegs) p.1
      Ready (lab labRegs) p.1 p.2.1 x labRegs ∧ ∃ s1, labAcc (lab labRegs) x p.2.2.1 p.2.2.2 64 = (.ok 0, s1) ∧
        ∃ s2, labAcc s1 x p.2.2.1 p.2.2.2 64 = (.ok 0, s2) ∧ find? s2.cohorts 0 = some labRegs ∧
          (s2.allocate x (dstOf .b32 5) [0, 1]).1 = [0, 1]) ∧
    -- a misaligned address, and one on a page that is not mapped
    (∀ a ∈ [(2 : Sel), 10], ∀ p ∈ labLoads a, Ready (lab (lone labRegs)) p.1 p.2.1 (labIssue (lab (lone labRegs)) p.1) (lone labRegs)) ∧
    (∀ sp const, (labAcc (lab labRegs) (labIssue (lab labRegs) (.ld none 5 2 9)) sp const 7).1 = .trap .alignFault) ∧
    (∀ const, ∃ l, (labAcc (lab labRegs) (labIssue (lab labRegs) (.ld none 5 10 9)) false const 4096).1 = .page l) ∧
    (∀ p ∈ labStores 8, let x := labIssue (lab labRegs) p.1
      Ready (lab labRegs) p.1 p.2.1 x labRegs ∧
      let o := (lab labRegs).laneOrder [(0, 64, 5), (1, 64, 5)]
      (o.1.map fun l => l.2) = [(64, 5), (64, 5)] ∧ ∃ s1, o.2.store x p.2.2 64 4 5 = (.ok (), s1) ∧
        ∃ s2, s1.store x p.2.2 64 4 5 = (.ok (), s2) ∧ ∃ c1, find? s2.cohorts 0 = some c1 ∧ c1 = { labRegs with high := c1.high }) ∧
    (∀ a ∈ [(2 : Sel), 10], ∀ p ∈ labStores a, Ready (lab (lone labRegs)) p.1 p.2.1 (labIssue (lab (lone labRegs)) p.1) (lone labRegs)) ∧
    (∀ sp, ((lab labRegs).store (labIssue (lab labRegs) (.st none 3 2 9)) sp 7 4 5).1 = .trap .alignFault) ∧
    (∃ l, ((lab labRegs).store (labIssue (lab labRegs) (.st none 3 10 9)) false 4096 4 5).1 = .page l) := by
  refine ⟨?_, ?_, by decide, fun c => ⟨3, by cases c <;> decide +kernel⟩, ?_, ?_, by decide, ⟨3, by decide +kernel⟩⟩
  · refine each (b := labTwice) (by decide +kernel) fun p h => ?_
    simp only [labTwice, Bool.and_eq_true, beq_iff_eq] at h
    obtain ⟨⟨⟨⟨a, b⟩, c⟩, d⟩, e⟩ := h
    exact ⟨ready_of a, _, Prod.ext b rfl, _, Prod.ext c rfl, d, e⟩
  · exact each (b := fun a => (labLoads a).all fun p => readyBy false (lab (lone labRegs)) p.1 p.2.1 (labIssue (lab (lone labRegs)) p.1) (lone labRegs))
      (by decide) fun a h p hp => ready_of (List.all_eq_true.1 h p hp)
  · intro p hp
    simp only [labStores, List.mem_cons, List.not_mem_nil, or_false] at hp
    rcases hp with rfl | rfl | rfl | rfl <;> exact ⟨ready_of (by decide), by decide, _, rfl, _, rfl, _, rfl, rfl⟩
  · exact each (b := fun a => (labStores a).all fun p => readyBy false (lab (lone labRegs)) p.1 p.2.1 (labIssue (lab (lone labRegs)) p.1) (lone labRegs))
      (by decide) fun a h p hp => ready_of (List.all_eq_true.1 h p hp)

/-- Page 0 mapped for a world, with permissions; `mark` is what marks line 0. -/
def labPage (e : TlbEntry) (world : Nat) (mark : Line) (c : Cohort) : State :=
  let s := lab c
  { (s.modCluster 0 fun c => { c with tlb := [e] }) with
    lines := [(0, mark)], xlt := { s.xlt with ctxs := [(0, ⟨0, world, true, true, 0, 0, 0, true⟩)] } }

theorem test_witness_AccessesOfMemory :
    -- no page; a page that may not be read or written; an address of a page whose line is there, has never been sealed, or is poisoned
    ((lab labRegs).placeOf 0 0 4096 Need.read).1 = .page 3 ∧ ((lab labRegs).placeOf 0 0 4096 Need.write).1 = .page 3 ∧
    (let s := labPage { placedEntry with r := false, w := false } 0 Line.none labRegs
     (s.placeOf 0 0 0 Need.read).1 = .trap .accessFault ∧ (s.placeOf 0 0 0 Need.write).1 = .trap .accessFault) ∧
    (let r := (lab labRegs).placeOf 0 0 0 Need.read
     r.1 = .ok ⟨0, 0, 0⟩ ∧ (((r.2.countRdc 0 0 0 0 0).recall 0 0).checkLine 0 0).1 = .ok) ∧
    (let s := labPage { placedEntry with world := 1 } 1 Line.none labRegs
     let r := s.placeOf 0 0 0 Need.read
     r.1 = .ok ⟨0, 1, 0⟩ ∧ (((r.2.countRdc 0 0 1 0 0).recall 0 0).checkLine 1 0).1 = .zeros) ∧
    (let s := labPage placedEntry 0 { Line.none with poison := true } labRegs
     let r := s.placeOf 0 0 0 Need.read
     r.1 = .ok ⟨0, 0, 0⟩ ∧ (((r.2.countRdc 0 0 0 0 0).recall 0 0).checkLine 0 0).1 = .fails .poison) ∧
    (let r := (lab labRegs).placeOf 0 0 0 Need.write
     let q := (r.2.recall 0 0).checkLine 0 0
     r.1 = .ok ⟨0, 0, 0⟩ ∧ q.1 = .ok ∧ q.2.mem.wf = true) ∧
    -- scratchpad: its last word, the first one past it, one that is owned, and one that can be stored to
    labRegs.spadBytes = 16384 ∧ labRegs.spadCheck 16380 4 false = none ∧ labRegs.owned = 0 ∧ find? (lab labRegs).cohorts 0 = some labRegs ∧
    ((lab labRegs).cluster 0).scratch.wf = true ∧ ({ labRegs with owned := 128 } : Cohort).owned = 128 :=
  ⟨by decide +kernel, by decide +kernel, by decide +kernel, by decide +kernel, by decide +kernel, by decide +kernel, by decide +kernel,
    rfl, rfl, rfl, rfl, rfl, rfl⟩

/-- One thread in a region that is not idempotent. -/
def labDrain : Cohort := labT fun u => { u with region := .inside 0 true 64 }

def labAtoms (sp : Bool) (a : Sel) : List (Instr × Form) := [
  (.atom none 5 a 3 4 7 sp, atomForm none (some 5) a 3 4 7 sp), (.atomr none 5 a 3 0 0 sp, atomForm none (some 5) a 3 0 0 sp),
  (.red none a 3 5 sp, atomForm none none a 3 0 5 sp)]

theorem test_witness_Atomics :
    (∀ sp, ∀ p ∈ labAtoms sp 8, Ready (lab labDrain) p.1 p.2 (labIssue (lab labDrain) p.1) labDrain) ∧
    -- both lanes complete, their registers are there, and each finds what it needs: an addition
    (∀ sp, let i := Instr.atomr none 5 8 3 0 0 sp
      let x := labIssue (lab labDrain) i
      let ls : List (Nat × List Nat) := [(0, [64, 5]), (1, [64, 5])]
      let dry := (doneLanes (atomInstr.byKey ((lab labDrain).atomLanes x 0 (memType none) true sp ls).1)).map Prod.fst
      dry = [0, 1] ∧
      let h := (lab labDrain).allocate x (dstOf (memType none) 5) dry
      h.1 = [0, 1] ∧ (h.2.laneOrder (ls.map fun l => (l.1, 64, l.2))).1 = [(0, 64, [64, 5]), (1, 64, [64, 5])]) ∧
    (let x := labIssue (lab labDrain) (.atomr none 5 8 3 0 0 false)
     let does (s : State) (old new : Nat) (u : State) : Prop := ∃ q w bs y, s.atomPlace x.ci x.ctx 64 = (.ok q, w) ∧
       (w.recall x.ci (q.pa / 128)).readPhys q.world q.pa 4 = (.ok bs, y) ∧ ofBytes bs = old ∧
       ∃ v, (y.countAtom x.ci q.pa).writePhys q.world q.pa (toBytes new 4) = (none, v) ∧
         u = v.noteStale ⟨x.co, x.ts, false, q.pa, bs⟩ (toBytes new 4)
     let s := ((lab labDrain).allocate x (dstOf (memType none) 5) [0, 1]).2
     ∃ u v, does s 0 5 u ∧ does u 5 10 v ∧ v.cohorts = modify s.cohorts 0 fun y => { y with high := 0 }) ∧
    (let s := ((lab labDrain).allocate (labIssue (lab labDrain) (.atomr none 5 8 3 0 0 true)) (dstOf (memType none) 5) [0, 1]).2
     (find? s.cohorts 0).any (fun y => y.spadCheck 64 4 true == none && !s.spadPoisoned y 64) = true) ∧
    -- in an idempotent region; and at an address that is not aligned
    placedThread.idempotent = true ∧ (∀ u ∈ labDrain.threads, u.2.idempotent = false) ∧
    (∀ sp, ∀ c ∈ [lone labRegs, lone labDrain], ∀ p ∈ labAtoms sp 2, Ready (lab c) p.1 p.2 (labIssue (lab c) p.1) c) := by
  have all (sp : Bool) (a : Sel) (c : Cohort) (h : (labAtoms sp a).all (fun p => readyBy false (lab c) p.1 p.2 (labIssue (lab c) p.1) c) = true) :
      ∀ p ∈ labAtoms sp a, Ready (lab c) p.1 p.2 (labIssue (lab c) p.1) c := each h fun _ => ready_of
  refine ⟨fun sp => all sp _ _ (by cases sp <;> decide), by decide, ⟨_, _, ⟨_, _, _, _, rfl, rfl, rfl, _, rfl, rfl⟩, ⟨_, _, _, _, rfl, rfl, rfl, _, rfl, rfl⟩, rfl⟩, by decide,
    rfl, by decide, fun sp c hc => ?_⟩
  simp only [List.mem_cons, List.not_mem_nil, or_false] at hc
  rcases hc with rfl | rfl <;> exact all sp _ _ (by cases sp <;> decide)

/-- Queue 112 of role 0 is bound. -/
def labQueue (kind : Nat) (sig : Bool) (entries : List (Nat × Option Lanes)) : Cohort :=
  { labDrain with queues := [(0, ⟨kind, sig, false, 0, [], 0, entries, 0⟩)] }

/-- An entry that is ready. -/
def labEntry : Nat × Option Lanes := (9, some (List.replicate 32 7))

theorem test_witness_QueueLoadsFencesAndCaches :
    -- ldq: with room, on a full queue, and to a destination that is no such queue
    (∀ p ∈ [(labQueue 3 false [labEntry], Instr.ldq none 112 8 9, memForm none (shortRef false 8 9) true [] none),
      (labQueue 3 false (List.replicate 16 labEntry), .ldqOfs none 112 8 9 0 0 false 0, memForm none (longRef false 8 9 0 0 false 0) true [] none),
      (labRegs, .ldq none 5 8 9, memForm none (shortRef false 8 9) true [] none),
      (labRegs, .ldq none 112 8 9, memForm none (shortRef false 8 9) true [] none),
      -- pref, the fences and the line operations
      (labRegs, .pref none 8 9, memForm none (shortRef false 8 9) false [] none),
      (labRegs, .prefOfs none 10 9 0 1 true 4, memForm none (longRef false 10 9 0 1 true 4) false [] none),
      (labRegs, .fenceEng none, bareMem none), (labRegs, .fenceSys none, bareMem none),
      (labRegs, .cflush none 8 9, memForm none (shortRef false 8 9) false [] none),
      (labRegs, .cflushOfs none 8 9 0 0 false 0, memForm none (longRef false 8 9 0 0 false 0) false [] none),
      (labRegs, .cinval none 8 9, memForm none (shortRef false 8 9) false [] none),
      (labRegs, .cinvalOfs none 8 9 0 0 false 0, memForm none (longRef false 8 9 0 0 false 0) false [] none)],
      Ready (lab p.1) p.2.1 p.2.2 (labIssue (lab p.1) p.2.1) p.1) ∧
    oneRole labRegs [0, 1] = true ∧ labRegs.qbind? 0 0 = none ∧ (labQueue 3 false [labEntry]).queues ≠ [] ∧
    (let r := (lab (labQueue 3 false [labEntry])).load (labIssue (lab (labQueue 3 false [labEntry])) (.ldq none 112 8 9)) false 64 4 0
     r.1 = .ok 0 ∧ find? r.2.cohorts 0 = some (labQueue 3 false [labEntry])) ∧
    -- the page of the lanes' addresses is in the L1 TLB
    (let s := lab labRegs
     (∃ e ∈ (s.cluster 0).tlb, e.hits 0 64 = true) ∧ (s.cluster 0).tlb.find? (fun e => e.hits 0 (64 / 128 * 128)) = some placedEntry ∧
     s.placeIn placedEntry (64 / 128 * 128) Need.read = .ok ⟨0, 0, 0⟩ ∧ s.cmds = [] ∧ s.late = []) ∧
    (let x := labIssue (lab labRegs) (.pref none 8 9)
     find? ([0, 1].foldl (fun s _ => s.prefetch x 64 0) (lab labRegs)).cohorts 0 = some labRegs) ∧
    (∀ drop, let x := labIssue (lab labRegs) (.cflush none 8 9)
      let u := (lab labRegs).lineOp x 64 drop
      let v := u.2.lineOp x 64 drop
      u.1 = .done ⟨0, 0, none⟩ ∧ v.1 = .done ⟨0, 0, none⟩ ∧ find? v.2.cohorts 0 = some labRegs) ∧
    ((lab labRegs).translate 0 0 0 Need.read).1 = .ok ⟨0, 0, 0⟩ :=
  ⟨ready_all (by decide), by decide, rfl, by decide, by decide +kernel, ⟨⟨placedEntry, by decide, by decide⟩, by decide, rfl, rfl, rfl⟩,
    by decide +kernel, by decide +kernel, rfl⟩

/-- Stream port 123 of role 0 is bound. -/
def labStream : Cohort := { labRegs with streams := [(3, ⟨64, 4, 4, 64, 1, 0, false, false, 0⟩)] }

theorem test_witness_BindingsAndStreams :
    (∀ p ∈ [(labRegs, Instr.qbind none 5 8 112 0 false false, qbindForm none 5 8 112 0 false false),
      (labRegs, .qbind none 96 8 119 1 true false, qbindForm none 96 8 119 1 true false),
      (labRegs, .qbind none 124 8 119 7 false true, qbindForm none 124 8 119 7 false true),
      -- a base that is aligned, and one that is not
      (labRegs, .spat none 120 8 3 12 0 false 9 0, spatForm none 120 8 3 12 0 false 9),
      (labRegs, .spat none 123 2 3 12 1 true 10 0xFFF, spatForm none 123 2 3 12 1 true 10)],
      ReadyLow (lab p.1) p.2.1 p.2.2 (labIssue (lab p.1) p.2.1) p.1) ∧
    -- a port that is not bound, and one that is
    (∀ c ∈ [labRegs, labStream], Ready (lab c) (.sfree none 123) { bareMem none with ill := false } (labIssue (lab c) (.sfree none 123)) c) ∧
    labRegs.streams = [] ∧ (find? labStream.streams 3).isSome = true ∧ oneRole labRegs [0, 1] = true :=
  ⟨readyLow_all (by decide), each (b := fun c => readyBy false (lab c) (.sfree none 123) { bareMem none with ill := false }
    (labIssue (lab c) (.sfree none 123)) c) (by decide) fun _ h => ready_of h, rfl, by decide, by decide⟩

/-- Four multicast sends of that binding are in flight. -/
def labBusy : State :=
  { lab (labQueue 5 false []) with mcasts := (List.range 4).map fun n => (n, ⟨0, ⟨0, 0, 0⟩, 0, 0, 0, [1], [], List.replicate 32 0⟩) }

theorem test_witness_QueueTries :
    (∀ p ∈ [(labRegs, Instr.qstat none 5 112, qstatForm none 5 112), (labQueue 3 false [labEntry], .qstat none 5 112, qstatForm none 5 112),
      -- a pop, of an entry or of none
      (labQueue 3 false [labEntry], .qtry none 5 112 1, { qtryForm none 5 112 with srcs := [] }),
      (labQueue 2 false [], .qtry none 5 112 1, { qtryForm none 5 112 with srcs := [] }),
      -- a push
      (labQueue 1 false [], .qtry none 112 3 1, { qtryForm none 112 3 with dst := none })],
      Ready (lab p.1) p.2.1 p.2.2 (labIssue (lab p.1) p.2.1) p.1) ∧
    oneRole labRegs [0, 1] = true ∧ (∀ k u, labDrain.thread? k = some u → u.idempotent = false ∧ u.latched = []) ∧
    ((lab (labQueue 3 false [labEntry])).readyEntries (labQueue 3 false [labEntry]) ⟨3, false, false, 0, [], 0, [labEntry], 0⟩).length = 1 ∧
    (find? ((lab (labQueue 3 false [labEntry])).dropEntry 0 0).cohorts 0).isSome = true ∧
    (lab (labQueue 2 false [])).readyEntries (labQueue 2 false []) ⟨2, false, false, 0, [], 0, [], 0⟩ = [] ∧
    0 < (lab (labQueue 1 false [])).pushFree 0 0 0 ⟨1, false, false, 0, [], 0, [], 0⟩ ∧
    -- and one without a slot
    Ready labBusy (.qtry none 112 3 1) { qtryForm none 112 3 with dst := none } (labIssue labBusy (.qtry none 112 3 1)) (labQueue 5 false []) ∧
    labBusy.pushFree 0 0 0 ⟨5, false, false, 0, [], 0, [], 0⟩ = 0 := by
  refine ⟨ready_all (by decide), by decide, fun k u h => ?_, by decide, by decide, by decide, by decide, ready_of (by decide), by decide⟩
  simp only [Cohort.thread?, labDrain, labT, labRegs, labCohort, List.map_cons, List.map_nil, find?] at h
  split at h
  · cases h; decide
  · split at h
    · cases h; decide
    · cases h

/-- Commands of copy, gather and collective engines, and of the decrypting copy, with their words. -/
def labWords (opc : Nat) (l : List (Nat × Nat)) : List Word :=
  (List.range 16).map fun n => BitVec.ofNat 32 (if n = 0 then opc else findD l n 0)

def labCmd (engine opc : Nat) (l : List (Nat × Nat)) : Cmd := {
  ci := 0, engine := engine, cohort := 0, ctx := 0, world := 0, threads := [0], words := labWords opc l, key := 0, reserved := none
  state := .queued, progress := 0, parked := none, slotKey := none, plain := none, seen := []
  stale := [], serial := 0 }

/-- Scratchpad with a record at offset 64, in a cohort whose queue 112 is an input of the copy engine. -/
def labPad (sig : Bool) (l : Memory) (poison : List Nat) : State :=
  (lab (labQueue 1 sig [])).modCluster 0 fun c => { c with scratch := l, scratchPoison := poison }

/-- A copy of one byte, and a signal. -/
def labCopyBytes : Memory := [(88, 1), (92, 1)]
def labSignalBytes : Memory := [(64, 15)]

/-- The copy engine's input queue is full. -/
def labFullEngine : State := { labPad false labSignalBytes [] with cmds := (List.range 32).map fun n => (n, labCmd 0 15 []) }

theorem test_witness_CommandsPushed :
    let f := form6 none [srcWord false 8] none false false
    let ready (s : State) (sig : Bool) (i : Instr) (a : Sel) : Prop :=
      ReadyLow s i (form6 none [srcWord false a] none false false) (labIssue s i) (labQueue 1 sig [])
    -- an offset that is not aligned, a poisoned line, a record that is not valid, and for each of `cpy`, `gath` and `coll`
    (∀ i ∈ [Instr.cpy none 112 2 0 false false false false 0 false 0, .gath none 112 2 0 false false false false 0 false 0,
      .coll none 112 2 255 true true true true 4 true 15], ready (labPad false [] []) false i 2) ∧
    (labQueue 1 false []).spadCheck 7 64 false = some .alignFault ∧ (labQueue 1 false []).spadCheck 64 64 false = none ∧
    (let i := Instr.cpy none 112 8 0 false false false false 0 false 0
     ready (labPad false [] [0]) false i 8 ∧ (labPad false [] [0]).spadPoisoned (labQueue 1 false []) 64 = true ∧
     ready (labPad false [] []) false i 8 ∧ cmdOk 0 (labWords 0 []) = false ∧
     -- a copy that a signal-class binding does not take, and a signal, with room or without
     ready (labPad true labCopyBytes []) true i 8 ∧ cmdOk 0 (labWords 0 [(6, 1), (7, 1)]) = true ∧
     ready (labPad false labSignalBytes []) false i 8 ∧ cmdOk 0 (labWords 15 []) = true ∧
     0 < (labPad false labSignalBytes []).pushFree 0 0 0 ⟨1, false, false, 0, [], 0, [], 0⟩ ∧
     ready labFullEngine false i 8 ∧ labFullEngine.pushFree 0 0 0 ⟨1, false, false, 0, [], 0, [], 0⟩ = 0) ∧
    oneRole (labQueue 1 false []) [0, 1] = true := by
  refine ⟨each (b := fun i => readyBy true (labPad false [] []) i (form6 none [srcWord false 2] none false false)
      (labIssue (labPad false [] []) i) (labQueue 1 false [])) (by decide) fun _ h => readyLow_of h, by decide, by decide,
    ⟨readyLow_of (by decide), by decide, readyLow_of (by decide), by decide, readyLow_of (by decide), by decide, readyLow_of (by decide),
      by decide, by decide, readyLow_of (by decide), by decide⟩, by decide⟩

/-- A state with one command, 5. -/
def labRun (c : Cmd) : State := { lab labRegs with cmds := [(5, c)] }

/-- A decrypting copy of one byte to scratchpad, before and after its counter was accepted and its tag compared. -/
def labGcm (state : CmdState) (key : Option Digest) (plain : Option (List Byte)) : Cmd :=
  { labCmd 0 1 [(6, 1), (7, 1), (10, 4), (11, 1)] with state := state, slotKey := key, plain := plain }

theorem test_witness_CommandsRun :
    -- a record that is not valid
    cmdOk 0 (labCmd 0 0 []).words = false ∧ (labRun (labCmd 0 0 [])).canStart 5 (labCmd 0 0 []) = true ∧
    -- a copy of one byte
    (let c := labCmd 0 0 [(6, 1), (7, 1)]
     let s := labRun c
     let c' : Cmd := { c with state := .running }
     cmdOk 0 c.words = true ∧ s.canStart 5 c = true ∧ copyPiece c.words 0 = (0, 0, 1) ∧
     ∃ s1 s2, s.cmdRead c' 0 0 1 = (.done [0], s1) ∧ s1.cmdWrite c' 0 0 [0] = (.done (), s2)) ∧
    -- a decrypting copy
    (∀ st key plain, cmdOk 0 (labGcm st key plain).words = true ∧ cmdOpc (labGcm st key plain).words = 1) ∧
    (let s := labRun (labGcm .queued none none)
     s.canStart 5 (labGcm .queued none none) = true ∧ s.quarantined 0 + 1 ≤ 65536 ∧ s.sec.slots = [] ∧
     s.gcmDest (labGcm .running none none) 1 (cutSpan 0 1) = (.done (), s)) ∧
    (let s := labRun (labGcm .running (some 0) none)
     ∃ bs s1, s.cmdReads (labGcm .running (some 0) none) 0 (cutSpan 0 17) = (.done bs, s1) ∧ bs.length = 17) ∧
    (let s := labRun (labGcm .running (some 0) (some [1]))
     (cutLines 0 [1]).head? = some (0, [1]) ∧ ∃ s1, s.cmdWrite (labGcm .running (some 0) (some [1])) 1 0 [1] = (.done (), s1)) ∧
    -- a gather of one element of four bytes to scratchpad
    (let c := labCmd 1 2 [(8, 1), (9, 0x102)]
     let s := labRun c
     cmdOk 1 c.words = true ∧ s.canStart 5 c = true ∧ ∃ c' s1, s.gatherElement { c with state := .running } = (.done c', s1)) ∧
    -- a collective: of a group that is not valid, and of one of this rank alone
    (let c := labCmd 2 3 [(6, 1), (7, 3), (8, 0)]
     let s := labRun c
     let v : State := { s with fab := { s.fab with groups := [(0, 1#128 <<< 127)] } }
     cmdOk 2 c.words = true ∧ s.collRefused c = true ∧ v.collRefused c = false ∧ v.collTotal c = 1 ∧
     ∃ s1, v.collElement { c with state := .running } [[]] = (.done (), s1)) ∧
    -- a signal, and commands that have ended
    cmdOk 2 (labCmd 2 15 []).words = true ∧ (∀ st f a, ({ labCmd 0 15 [] with state := .ended st f a } : Cmd).state = .ended st f a) :=
  ⟨by decide, by decide, ⟨by decide, by decide, by decide, _, _, rfl, rfl⟩, fun _ _ _ => (by decide : cmdOk 0 (labGcm .queued none none).words = true ∧ cmdOpc (labGcm .queued none none).words = 1),
    ⟨by decide, by decide, rfl, rfl⟩, ⟨_, _, rfl, by decide⟩, ⟨by decide, _, rfl⟩, ⟨by decide, by decide, _, _, rfl⟩,
    ⟨by decide, by decide, by decide, by decide, _, rfl⟩, by decide, fun _ _ _ => rfl⟩

/-- A matrix descriptor of one element, of f16 or taper, with a block of 32; and its operation. -/
def labDesc (efmt : Nat) : MDesc := {
  aaddr := 0, baddr := 128, caddr := 256, astride := 64, bstride := 16, cstride := 128, fstride := 4, k := 32, m := 1, n := 1
  efmt := efmt, afmt := 7, promo := 0, sca := 20, scb := 24, bsela := 0, bselb := 0 }

def labOp : MatOp := {
  cohort := 0, ctx := 0, world := 0, md := 0, cv := 0, desc := labDesc 1, flags := ⟨false, false, false, 0⟩, scA := [], scB := [], krow := 0
  rowsA := [], rowsB := [], acc := [], lines := [], parked := none, started := false, result := none, serial := 0
  stale := [] }

/-- The same state, whose cluster 0 has matrix operations on its first unit. -/
def labUnit (n : Nat) (c : Cohort) : State := (lab c).modCluster 0 fun c => { c with mxu := [List.replicate n labOp, [], [], []] }

theorem test_witness_MatrixDescriptors :
    -- mdesc: 64 bytes that are a descriptor, and zeros, which are none
    (let i : Instr := .mdesc none 7 8 true
     let s := (lab labRegs).modCluster 0 fun c => { c with
       scratch := [(72, 128), (81, 1), (88, 64), (92, 16), (96, 128), (100, 4), (104, 32), (108, 1), (109, 1), (110, 1), (111, 7)] }
     let f := form6 none [baseSrc true none 8] none false false
     ReadyLow s i f (labIssue s i) labRegs ∧ ReadyLow (lab labRegs) i f (labIssue (lab labRegs) i) labRegs ∧
     (∃ v s1, s.load (labIssue s i) true 64 64 0 = (.ok v, s1) ∧ find? s1.cohorts 0 = some labRegs ∧ (parseDesc (toBytes v 64) 8).isSome = true) ∧
     ∃ s1, (lab labRegs).load (labIssue s i) true 64 64 0 = (.ok 0, s1) ∧ find? s1.cohorts 0 = some labRegs ∧ parseDesc (toBytes 0 64) 8 = none) ∧
    Ready (lab labRegs) (.mrow none 5) (form6 none [] (some (statusDst 5)) false false) (labIssue (lab labRegs) (.mrow none 5)) labRegs ∧
    -- mrow.wait: with an operation of the descriptor under way, and with none
    (∀ n ∈ [0, 1], ReadyLow (labUnit n labRegs) (.mrowWait none 96 0) (form6 none [] (some (statusDst 96)) false false)
      (labIssue (labUnit n labRegs) (.mrowWait none 96 0)) labRegs) ∧
    labRegs.pends = [] ∧ (labUnit 1 labRegs).opsDone 0 0 0 = false ∧ (labUnit 0 labRegs).opsDone 0 0 0 = true :=
  ⟨⟨readyLow_of (by decide), readyLow_of (by decide), ⟨_, _, rfl, rfl, by decide +kernel⟩, ⟨_, rfl, rfl, by decide +kernel⟩⟩, ready_of (by decide),
    each (b := fun n => readyBy true (labUnit n labRegs) (.mrowWait none 96 0) (form6 none [] (some (statusDst 96)) false false)
      (labIssue (labUnit n labRegs) (.mrowWait none 96 0)) labRegs) (by decide) fun _ => readyLow_of, rfl, by decide, by decide⟩

/-- One thread, convergence register 0, and descriptor 0. -/
def labConv (v : Conv) : Cohort := { lone labDrain with convs := [(0, v)], mds := [(0, labDesc 1)] }

/-- A round of thread 0 of which `n` have signed, of `e`, with a descriptor captured. -/
def labRound (n e : Nat) (marks : List Nat) (md : Option (Nat × MDesc)) : Conv := ⟨false, e, [0], 1, n, marks, md, ⟨false, false, false, 0⟩, none⟩

/-- Both instructions that sign go ahead. -/
def signs (s : State) (c : Cohort) : Prop :=
  Ready s (.msign none 0) (form6 none [] none false false) (labIssue s (.msign none 0)) c ∧
  Ready s (.mma none 0 0 false false false 0) (form6 none [] none false false) (labIssue s (.mma none 0 0 false false false 0)) c

def signsBy (s : State) (c : Cohort) : Bool :=
  readyBy false s (.msign none 0) (form6 none [] none false false) (labIssue s (.msign none 0)) c &&
  readyBy false s (.mma none 0 0 false false false 0) (form6 none [] none false false) (labIssue s (.mma none 0 0 false false false 0)) c

theorem signs_of {s : State} {c : Cohort} (h : signsBy s c = true) : signs s c := by
  simp only [signsBy, Bool.and_eq_true] at h
  exact ⟨ready_of h.1, ready_of h.2⟩

/-- The unit is full, and the push has waited for a tick or for as long as it may. -/
def labWaits : Cohort := { labConv (labRound 0 1 [] (some (0, labDesc 1))) with groups := [(0, ⟨0, 0, false, false, some (0, .unit 0)⟩)] }
def labStall (t : Nat) : State := { labUnit 4 labWaits with timer := t }

/-- The last signature of a round that has a descriptor with scales, of which one is not there yet. -/
def labScales : Cohort := { labConv (labRound 0 1 [] (some (0, labDesc 5))) with
  mds := [(0, labDesc 5)], pends := [(0, ⟨.load, .vreg 20 false, 0, [(0, 1)], 0⟩)] }

theorem test_witness_MatrixSigning :
    -- in an idempotent region; an inert register; a thread that has signed; another descriptor; a round left open
    (∀ c ∈ [{ lone labRegs with mds := [(0, labDesc 1)] }, { lone labDrain with mds := [(0, labDesc 1)] }, labConv (labRound 1 2 [0] none),
      labConv (labRound 1 3 [] (some (1, labDesc 1))), labConv (labRound 1 3 [] (some (0, labDesc 1))),
      -- the last signature
      labConv (labRound 0 1 [] none), labConv (labRound 0 1 [] (some (0, labDesc 1)))], signs (lab c) c ∧ find? c.mds 0 = some (labDesc 1)) ∧
    placedThread.idempotent = true ∧ (lone labDrain).conv 0 = Conv.inertOne ∧ (∀ v, (labConv v).conv 0 = v) ∧
    (∀ t ∈ [1, 1000001], signs (labStall t) labWaits) ∧
    (labStall 1).unitCan 0 0 (labRound 1 1 [] (some (0, labDesc 1))) = false ∧ (labStall 1).stallDue 0 0 = false ∧
    (labStall 1000001).stallDue 0 0 = true ∧
    -- a scale register that is empty
    signs (lab labScales) labScales ∧ (lab labScales).unitCan 0 0 (labRound 1 1 [] (some (0, labDesc 5))) = true ∧
    (lab labScales).roundCan 0 0 (labRound 1 1 [] (some (0, labDesc 5))) = false ∧
    (∀ md, (lab (labConv (labRound 0 1 [] md))).roundCan 0 0 (labRound 1 1 [] (some (0, labDesc 1))) = true) ∧
    -- mma.elect: on a full unit, with a scale register that is empty, and otherwise
    (let c : Cohort := { labElect with threads := labDrain.threads, mds := [(0, labDesc 5)] }
     let d : Cohort := { c with pends := [(0, ⟨.load, .vreg 20 false, 0, [(0, 1)], 0⟩)] }
     let i : Instr := .mmaElect none 0 true true true 4
     let f := form6 none [] none false false
     Ready (labUnit 4 c) i f (labIssue (labUnit 4 c) i) c ∧ Ready (labUnit 3 d) i f (labIssue (labUnit 3 d) i) d ∧
     Ready (labUnit 3 c) i f (labIssue (labUnit 3 c) i) c ∧ c.scalesFull 0 (labDesc 5) = true ∧ d.scalesFull 0 (labDesc 5) = false ∧
     (labUnit 3 c).selCompat = true) := by
  refine ⟨each (b := fun c => signsBy (lab c) c && find? c.mds 0 == some (labDesc 1)) (by decide) fun c h => ?_, by decide, rfl, fun _ => rfl,
    fun t ht => ?_, by decide, by decide, by decide, signs_of (by decide), by decide, by decide, fun _ => rfl,
    ready_of (by decide), ready_of (by decide), ready_of (by decide), by decide, by decide, by decide⟩
  · simp only [Bool.and_eq_true, beq_iff_eq] at h
    exact ⟨signs_of h.1, h.2⟩
  · exact each (b := fun t => signsBy (labStall t) labWaits) (by decide) (fun _ => signs_of) t ht

theorem test_witness_AccumulatorsStart :
    let c : Cohort := { labDrain with mds := [(0, labDesc 1), (1, { labDesc 1 with fstride := 2 })] }
    find? c.mds 0 = some (labDesc 1) ∧
    ReadyLow (lab c) (.maccInit none 5 0) (form6 none [] (some (statusDst 5)) false false) (labIssue (lab c) (.maccInit none 5 0)) c ∧
    (∃ s1, (lab c).tilePlaces true 0 0 [256] = (.done [(256, 0)], s1)) ∧
    -- macc.flush: a stride that does not fit, an address that is not aligned, and one that is
    (∀ i ∈ [Instr.maccFlush none 5 8 1 true false 0, .maccFlush none 5 2 0 true false 0, .maccFlush none 5 8 0 false true 4],
      ReadyLow (lab c) i (maccFlushForm none 5 (match i with | .maccFlush _ _ a _ _ _ _ => a | _ => 0) 0) (labIssue (lab c) i) c) ∧
    c.thread? 0 = some { placedThread with region := .inside 0 true 64 } ∧
    ∃ s1 s2, (lab c).flushPlaces 0 0 4 [64] = (.done [(64, 0)], s1) ∧ s1.tilePlaces false 0 0 [256] = (.done [(256, 0)], s2) := by
  intro c
  refine ⟨rfl, readyLow_of (by decide), ⟨_, rfl⟩, each (b := fun i => readyBy true (lab c) i (maccFlushForm none 5
    (match i with | .maccFlush _ _ a _ _ _ _ => a | _ => 0) 0) (labIssue (lab c) i) c) (by decide) fun _ => readyLow_of, rfl, _, _, rfl, rfl⟩

/-- A routing entry of tensor 0, of world 0, with tiles of 4,096 bytes; and a state that has it. -/
def labEnt : BitVec 128 := 1#128 <<< 111
def labNames (c : Cohort) : State := let s := lab c; { s with names := { s.names with ents := [(3, labEnt)] } }

/-- A request of queue 112. -/
def labWant (state : WantState) : Want := {
  cohort := 0, ci := 0, role := 0, q := 0, serial := 0, name := 64, off := 0, bytes := 4096, deadline := 10, state := state }

/-- Sixteen requests of the binding are under way. -/
def labWants : State :=
  let s := labNames (labQueue 7 false [])
  { s with names := { s.names with wants := (List.range 16).map fun n => (n, labWant .recorded) } }

theorem test_witness_NamedTileInstructions :
    -- nwant: to no such queue; an offset that is not aligned, or too far; a full queue; a name without an entry, and one with
    (∀ p ∈ [(lab labRegs, labRegs, Instr.nwant none 112 8 5), (labNames (labQueue 7 false []), labQueue 7 false [], .nwant none 112 8 3),
      (labNames (labQueue 7 false []), labQueue 7 false [], .nwant none 112 8 14), (labWants, labQueue 7 false [], .nwant none 112 8 5),
      (lab (labQueue 7 false []), labQueue 7 false [], .nwant none 112 8 5), (labNames (labQueue 7 false []), labQueue 7 false [], .nwant none 112 8 5)],
      ReadyLow p.1 p.2.2 (form6 none [srcOf .b64 false none 8, srcWord false (match p.2.2 with | .nwant _ _ _ b => b | _ => 0)] none false false)
        (labIssue p.1 p.2.2) p.2.1) ∧
    (labQueue 7 false []).qbind? 0 0 = some ⟨7, false, false, 0, [], 0, [], 0⟩ ∧ labWants.wantsOut 0 0 0 0 = 16 ∧
    (labNames (labQueue 7 false [])).wantsOut 0 0 0 0 < 16 ∧ ((labNames (labQueue 7 false [])).nrt? 0).map (fun e => nrtWorld e.2) = some 0 ∧
    (lab labRegs).nrt? 0 = none ∧ oneRole labRegs [0, 1] = true ∧
    -- noffer: an address that is not aligned, a name that cannot be offered, and one that can
    (let f (b : Sel) := form6 none [srcOf .b64 false none 8, srcOf .b64 false none b] (some (statusDst 5)) false false
     ReadyLow (lab labRegs) (.noffer none 5 8 8) (f 8) (labIssue (lab labRegs) (.noffer none 5 8 8)) labRegs ∧
     ReadyLow (lab labRegs) (.noffer none 5 8 12) (f 12) (labIssue (lab labRegs) (.noffer none 5 8 12)) labRegs ∧
     ReadyLow (labNames labRegs) (.noffer none 5 8 12) (f 12) (labIssue (labNames labRegs) (.noffer none 5 8 12)) labRegs) ∧
    (lab labRegs).offerable 0 64 = none ∧ (labNames labRegs).offerable 0 64 = some labEnt ∧
    (match ((labNames labRegs).offerLines (labIssue (labNames labRegs) (.noffer none 5 8 12)) 0 32).1 with
     | .done ps => ps.length == 32
     | _ => false) = true ∧
    -- nclose, of a tensor of the cohort's world and of none; nlife and mland
    (∀ s ∈ [lab labRegs, labNames labRegs],
      ReadyLow s (.nclose none 5 3) (form6 none [srcWord false 5, srcWord false 3] none false false) (labIssue s (.nclose none 5 3)) labRegs ∧
      ReadyLow s (.ncloseImm none 5 125 65535) (form6 none [srcImm false 65535 5, srcImm false 65535 125] none false false)
        (labIssue s (.ncloseImm none 5 125 65535)) labRegs) ∧
    (∃ c1, find? ((labNames labRegs).closeTensor 0 5).cohorts 0 = some c1 ∧ c1 = { labRegs with queues := c1.queues }) ∧
    ReadyLow (lab labRegs) (.nlife none 3) (form6 none [srcWord false 3] none false false) (labIssue (lab labRegs) (.nlife none 3)) labRegs ∧
    ReadyLow (lab labRegs) (.nlifeImm none 125 9) (form6 none [srcImm false 9 125] none false false) (labIssue (lab labRegs) (.nlifeImm none 125 9)) labRegs ∧
    ReadyLow (lab labRegs) (.mland none 124 5 3 7 true 15) (form6 none [srcWord false 5, srcWord false 3] (some (statusDst 124)) false false)
      (labIssue (lab labRegs) (.mland none 124 5 3 7 true 15)) labRegs ∧
    -- a mark that is raised, and one that is as high already
    (labNames labRegs).nrt? 0 = some (3, labEnt) ∧ nrtShut labEnt 0 = false ∧ nrtShut (labEnt ||| 1#128 <<< 47) 0 = true := by
  refine ⟨each (b := fun p => readyBy true p.1 p.2.2 (form6 none [srcOf .b64 false none 8, srcWord false (match p.2.2 with | .nwant _ _ _ b => b | _ => 0)]
      none false false) (labIssue p.1 p.2.2) p.2.1) (by decide) (fun _ => readyLow_of), rfl, by decide, by decide, by decide, by decide, by decide,
    ⟨readyLow_of (by decide), readyLow_of (by decide), readyLow_of (by decide)⟩, by decide, by decide, by decide +kernel, ?_, ⟨_, rfl, rfl⟩,
    readyLow_of (by decide), readyLow_of (by decide), readyLow_of (by decide), by decide, by decide, by decide⟩
  intro s hs
  simp only [List.mem_cons, List.not_mem_nil, or_false] at hs
  rcases hs with rfl | rfl <;> exact ⟨readyLow_of (by decide), readyLow_of (by decide)⟩

theorem test_witness_MessagesAndMulticasts :
    let m : Msg := ⟨0, ⟨0, 0, 0⟩, 0, 1, 2, List.replicate 32 9⟩
    let y (left : List Nat) : Mcast := ⟨0, ⟨0, 0, 0⟩, 0, 0, 3, left, [], List.replicate 32 9⟩
    let s := lab labRegs
    -- a message behind an earlier one, to a port that nothing owns, and to one that is owned
    (∀ port : Port, ∀ l ∈ [[(5, m)], [(4, m), (5, m)]],
      find? ({ s with msgs := l }.modCluster 1 fun c => { c with ports := setNth c.ports 2 port }).msgs 5 = some m) ∧
    -- a multicast copy with a place to land, without, and a send that is done
    (find? ({ s with mcasts := [(5, y [0])] }.modCluster 0 fun c => { c with landing := [(3, ⟨0, 0, 1, 0, true, 2⟩)] }).mcasts 5 = some (y [0]) ∧
     find? (({ s with mcasts := [(5, y [0])] }.modCluster 0 fun c => { c with landing := [(3, ⟨0, 0, 1, 0, true, 2⟩)] }).cluster 0).landing 3 =
       some ⟨0, 0, 1, 0, true, 2⟩ ∧ labRegs.world = 0) ∧
    (s.cluster 0).landing = [] ∧ (y []).left = [] := by
  refine ⟨fun port l hl => ?_, ⟨rfl, rfl, rfl⟩, rfl, rfl⟩
  simp only [List.mem_cons, List.not_mem_nil, or_false] at hl
  rcases hl with rfl | rfl <;> rfl

/-- A request of queue 112 in a state with its name's entry; and every way of the name's home slice asleep. -/
def labWay (st : WantState) (f : Names → Names) : State :=
  let s := labNames labRegs; { s with names := f { s.names with wants := [(5, labWant st)] } }
def labAsleep (st : WantState) : State :=
  let s := labWay st id
  { s with pwr := { s.pwr with asleep := (List.range 16).map fun w => ⟨.way (homeOf labEnt 64).1 (homeOf labEnt 64).2 w, 0, none⟩ } }

theorem test_witness_NamedTilesMove :
    let w := labWant
    let s := labWay
    let m : Merge := ⟨0, 64, 20, [0]⟩
    let t : Tile := ⟨64, [], [], 0, 0⟩
    -- at the crossbar
    ((s .issued fun n => { n with merges := [m] }).names.merges.find? (fun n => n.group == groupOf 0 && n.name == 64) = some m ∧
      (s .issued id).names.merges = [] ∧ (s .issued id).names.interests = []) ∧
    -- at the home slice: no entry; asleep; a tile; a closed iteration; past its deadline; an interest; and none
    (lab labRegs).nrt? 0 = none ∧ (∀ mg tw, (s (.waiting mg tw) id).nrt? 0 = some (3, labEnt)) ∧ nameTid (64 : DWord) = 0 ∧
    (∀ mg tw, (labAsleep (.waiting mg tw)).sliceAsleep (homeOf labEnt 64) = true ∧ (s (.waiting mg tw) id).sliceAsleep (homeOf labEnt 64) = false) ∧
    (s .issued fun n => { n with tiles := [t] }).names.tiles.find? (fun t => t.name == 64) = some t ∧
    nrtShut labEnt (nameIter 64) = false ∧ nrtShut (labEnt ||| 1#128 <<< 47) (nameIter 64) = true ∧
    (s .issued id).timer ≤ (w .issued).deadline ∧ (w .issued).deadline < ({ s .issued id with timer := 11 } : State).timer ∧
    find? (s .issued fun n => { n with interests := [(64, ⟨20, [1], []⟩)] }).names.interests (64 : DWord).toNat = some ⟨20, [1], []⟩ ∧
    (s .issued id).tableUsed (homeOf labEnt 64) < 1024 ∧
    -- a return that meets no request, and one that meets one, of a cohort that yields or of one that does not
    (∀ name : DWord, name = 64 ∨ name = 65 →
     let u := s .recorded fun n => { n with returns := [(6, ⟨name, [], [], [], [0]⟩)] }
     find? u.names.returns 6 = some ⟨name, [], [], [], [0]⟩ ∧ u.reach name [] [0] = [0] ∧
     keys (filterMap u.names.wants fun _ w => w.name == name && w.ci == 0) = if name = 64 then [5] else []) ∧
    ((find? (s .recorded id).cohorts 0).map fun c => c.yielding.isSome) = some false ∧
    ((find? ({ s .recorded id with cohorts := [(0, { labRegs with yielding := some ⟨0, 0⟩ })] } : State).cohorts 0).map
      fun c => c.yielding.isSome) = some true ∧
    -- an entry
    (let u : State := { s .recorded id with cohorts := [(0, labQueue 7 false [])] }
     find? u.names.wants 5 = some (w .recorded) ∧ find? u.cohorts 0 = some (labQueue 7 false []) ∧
     find? (labQueue 7 false []).queues 0 = some ⟨7, false, false, 0, [], 0, [], 0⟩) := by
  refine ⟨⟨rfl, rfl, rfl⟩, rfl, fun _ _ => rfl, rfl, fun mg tw => ?_, rfl, rfl, rfl, by decide, by decide, rfl, by decide, ?_, rfl, rfl, rfl, rfl, rfl⟩
  · cases mg <;> cases tw <;> exact ⟨by decide, by decide⟩
  · rintro name (rfl | rfl) <;> exact ⟨rfl, rfl, rfl⟩

/-- The state of the tests in a prologue, with its grid. -/
def labStart : Cohort := { lone labRegs with phase := .prologue }
def labGridOf (c : Cohort) : State := let s := lab c; { s with lch := { s.lch with grids := [(0, labGrid)] } }

theorem test_witness_ThreadsEnd :
    let c := lone labRegs
    Goes (labGridOf c) .exit (labIssue (labGridOf c) .exit) c ∧ (labIssue (labGridOf c) .exit).ts = [0] ∧ rising c.threads = true ∧
    (∀ p ∈ c.threads, p.1 = 0) ∧
    -- and one that leaves another thread
    (let c : Cohort := { labRegs with threads := [(0, placedThread), (1, { placedThread with lane := 1, run := .group 7 })] }
     Goes (lab c) .exit (labIssue (lab c) .exit) c ∧ (labIssue (lab c) .exit).ts = [0] ∧ rising c.threads = true ∧
     ∃ s1, (lab c).markAll c.grid c.ctx (c.marksOf (lab c) 0) = (.ok, s1) ∧ find? s1.cohorts 0 = some c) ∧
    ∃ s1, (lab c).markAll c.grid c.ctx (c.marksOf (lab c) 0) = (.ok, s1) ∧ find? s1.cohorts 0 = some c :=
  ⟨goes_of (by decide), by decide, by decide, by decide, ⟨goes_of (by decide), by decide, by decide, _, rfl, rfl⟩, _, rfl, rfl⟩

theorem test_witness_TemplatesFreeze :
    let quiet (s : State) (c : Cohort) : Prop := s.pushing 0 0 = false ∧ c.pends = []
    -- outside the prologue; with a command under way; and where nothing holds it
    Goes (lab labRegs) .freeze (labIssue (lab labRegs) .freeze) labRegs ∧
    (Goes { labGridOf labStart with cmds := [(5, labCmd 0 15 [])] } .freeze (labIssue { labGridOf labStart with cmds := [(5, labCmd 0 15 [])] } .freeze) labStart ∧
      ({ labGridOf labStart with cmds := [(5, labCmd 0 15 [])] } : State).pushing 0 0 = true) ∧
    (Goes (labGridOf labStart) .freeze (labIssue (labGridOf labStart) .freeze) labStart ∧ quiet (labGridOf labStart) labStart ∧ labStart.ewes ≠ [] ∧
      find? (labGridOf labStart).lch.grids 0 = some labGrid) ∧
    -- nested: in the prologue, where it may not be, and where it may
    (let f := form7 [src64 2] none false false
     let may : Cohort := { lone labRegs with hdr := { placedHeader with template := 2 }, levels := [⟨0, 2, none, [1, 0, 0, 0, 0, 0, 0, 0]⟩] }
     (∀ c ∈ [labStart, lone labRegs, may], Ready (lab c) (.freezeNested 2) f (labIssue (lab c) (.freezeNested 2)) c ∧
       (labIssue (lab c) (.freezeNested 2)).ts = [0] ∧ quiet (lab c) c) ∧
     may.levels.length < may.hdr.template ∧ may.levels.length = placedThread.level) := by
  refine ⟨goes_of (by decide), ⟨goes_of (by decide), by decide⟩, ⟨goes_of (by decide), ⟨by decide, rfl⟩, by decide, by decide⟩, ?_, by decide, by decide⟩
  intro c hc
  simp only [List.mem_cons, List.not_mem_nil, or_false] at hc
  rcases hc with rfl | rfl | rfl <;> exact ⟨ready_of (by decide), by decide, by decide, rfl⟩

/-- A root range of both indices, the first taken; and a bitmap in which the second is marked. -/
def labSteps : Cohort := { lone labRegs with levels := [⟨0, 2, none, [1, 0, 0, 0, 0, 0, 0, 0]⟩] }
def labMarked (c : Cohort) : State := let s := labGridOf c
  { (s.modDie 0 fun d => { d with tlb := [placedEntry] }) with mem := [(128, 2)] }

theorem test_witness_IndicesAreTaken :
    Goes (lab labStart) .next (labIssue (lab labStart) .next) labStart ∧
    (let c : Cohort := { lone labRegs with levels := [⟨4, 5, none, List.replicate 8 0⟩] }
     Goes (lab c) .next (labIssue (lab c) .next) c ∧ (labIssue (lab c) .next).ts = [0] ∧ c.phase ≠ .prologue ∧ placedThread.divs = [] ∧
     ∃ s1 s2 c2, (lab c).recordIndex c placedThread = (.ok, s1) ∧ find? s1.cohorts 0 = some c ∧ s1.takeIndex 0 0 = (some 4, s2) ∧
       find? s2.cohorts 0 = some c2) ∧
    -- indices left, and none; no grid pads them
    (∀ t, let l : Level := ⟨4, 5, none, List.replicate 8 t⟩
      ({ labRegs with levels := [l] } : Cohort).levels.getLast? = some l ∧ (lab labRegs).lch.grids = []) ∧
    -- an index that the walk passes over, and one that it does not
    ((labGridOf labSteps).passes labSteps labGrid 0 1).1 = false ∧ ((labMarked labSteps).passes labSteps labGrid 0 1).1 = true ∧
    -- a parent whose range is finished, and one whose range is not
    (∀ t ∈ [0, 5], let l : Level := ⟨4, 5, some 0, List.replicate 8 t⟩
      let c : Cohort := { labT (fun u => if u.lane = 0 then { u with run := .nested 4 } else u) with levels := [⟨0, 1, none, []⟩, l] }
      c.levels.getLast? = some l ∧ c.childDone l = decide (t = 5) ∧ ∀ p ∈ c.threads, ∀ g, p.2.run ≠ .atNext g) := by
  refine ⟨goes_of (by decide), ⟨goes_of (by decide), by decide, by decide, rfl, _, _, _, rfl, rfl, rfl, rfl⟩, fun _ => ⟨rfl, rfl⟩, by decide +kernel, by decide +kernel, ?_⟩
  simp only [List.mem_cons, List.not_mem_nil, or_false]
  rintro t (rfl | rfl) <;> refine ⟨rfl, rfl, fun p hp g => ?_⟩ <;>
    (simp only [labT, labRegs, labCohort, List.map_cons, List.map_nil, List.mem_cons, List.not_mem_nil, or_false] at hp
     rcases hp with rfl | rfl <;> simp [placedThread])

/-- The tests' context without PRIV. -/
def labUser (c : Cohort) : State := (lab c).modCtx 0 fun x => { x with priv := false }

/-- A cohort whose kernel has the region 1 of the tests at address 0. -/
def labRegion (c : Cohort) : Cohort := { c with hdr := { c.hdr with regions := [⟨8, 16, true, 64⟩, ⟨0, 8, true, 64⟩] } }

theorem test_witness_SpecialRegisters :
    -- movs: a register that any thread may read, and one that needs PRIV, without it and with it
    (∀ p ∈ [(labUser labRegs, (1 : Sel), (⟨false, false, false⟩ : Special)), (labUser labRegs, 67, ⟨false, false, true⟩), (lab labRegs, 67, ⟨false, false, true⟩)],
      special? p.2.1.toNat = some p.2.2 ∧
      Ready p.1 (.movs 5 p.2.1) (form7 [] (some (dstOf .b32 5)) (!specialSel p.2.2.wide false 5) false) (labIssue p.1 (.movs 5 p.2.1)) labRegs) ∧
    (special? 10 = some ⟨true, false, false⟩ ∧
      Ready (lab labRegs) (.movs 6 10) (form7 [] (some (dstOf .b64 6)) (!specialSel true false 6) false) (labIssue (lab labRegs) (.movs 6 10)) labRegs) ∧
    (((labUser labRegs).ctx? 0).map Ctx.priv).getD false = false ∧ (((lab labRegs).ctx? 0).map Ctx.priv).getD false = true ∧
    -- mtsr: flags; a mode with each kind of rounding field
    (let c := labCohort [(2, 12), (3, 5), (10, 4096)] []
     let f (a : Sel) := form7 [srcWord false a] none (!specialSel false true a) false
     (∀ p ∈ [((13 : Sel), (3 : Sel)), (14, 3), (14, 2)], special? p.1.toNat = some ⟨false, true, false⟩ ∧
       Ready (lab c) (.mtsr p.1 p.2) (f p.2) (labIssue (lab c) (.mtsr p.1 p.2)) c) ∧
     (rndOf (bits (arg (c.args (f 3) 0) 0) 1 3)).isSome = true ∧ rndOf (bits (arg (c.args (f 2) 0) 0) 1 3) = none) ∧
    -- LIFE_TGT, to a value and to none, and TRAPVEC, by one thread that may
    (let c := lone labRegs
     let s := lab c
     special? 65 = some ⟨false, true, true⟩ ∧ special? 66 = some ⟨true, true, true⟩ ∧
     (∀ a ∈ [(3 : Sel), 126], Ready s (.mtsr 65 a) (form7 [srcWord false a] none (!specialSel false true a) false) (labIssue s (.mtsr 65 a)) c) ∧
     Ready s (.mtsr 66 10) (form7 [src64 10] none (!specialSel true true 10) false) (labIssue s (.mtsr 66 10)) c ∧
     (labIssue s (.mtsr 65 3)).ts = [0] ∧ (labIssue s (.mtsr 66 10)).ts = [0] ∧
     arg (c.args (form7 [srcWord false 3] none false false) 0) 0 = 5 ∧ arg (c.args (form7 [srcWord false 126] none false false) 0) 0 = 0) ∧
    -- wbase: a window that fits, and one that does not
    (∀ a ∈ [(3 : Sel), 10], Ready (lab labRegs) (.wbase a) (form7 [srcWord false a] none (!sel32 a) false) (labIssue (lab labRegs) (.wbase a)) labRegs) ∧
    Ready (lab labRegs) (.wbaseImm 125 5) (form7 [srcImm false (imm32 5) 125] none (!sel32I 125) false) (labIssue (lab labRegs) (.wbaseImm 125 5)) labRegs ∧
    (∀ k ∈ [0, 1], ∃ u, labRegs.thread? k = some u ∧ arg (labRegs.args (form7 [srcWord false 3] none false false) k) 0 % 2 ^ 32 + 3 ≤
      nth labRegs.hdr.window u.role 0 ∧
      nth labRegs.hdr.window u.role 0 < arg (labRegs.args (form7 [srcWord false 10] none false false) k) 0 % 2 ^ 32 + 3) := by
  refine ⟨?_, ⟨by decide, ready_of (by decide)⟩, by decide, by decide, ?_, ?_, ?_, ready_of (by decide), ?_⟩
  · exact each (b := fun p : State × Sel × Special => special? p.2.1.toNat == some p.2.2 && readyBy false p.1 (.movs 5 p.2.1)
      (form7 [] (some (dstOf .b32 5)) (!specialSel p.2.2.wide false 5) false) (labIssue p.1 (.movs 5 p.2.1)) labRegs) (by decide) fun p h => by
        simp only [Bool.and_eq_true, beq_iff_eq] at h
        exact ⟨h.1, ready_of h.2⟩
  · refine ⟨fun p hp => ?_, by decide, by decide⟩
    simp only [List.mem_cons, List.not_mem_nil, or_false] at hp
    rcases hp with rfl | rfl | rfl <;> exact ⟨by decide, ready_of (by decide)⟩
  · refine ⟨by decide, by decide, fun a ha => ?_, ready_of (by decide), by decide, by decide, by decide, by decide⟩
    simp only [List.mem_cons, List.not_mem_nil, or_false] at ha
    rcases ha with rfl | rfl <;> exact ready_of (by decide)
  · intro a ha
    simp only [List.mem_cons, List.not_mem_nil, or_false] at ha
    rcases ha with rfl | rfl <;> exact ready_of (by decide)
  · intro k hk
    simp only [List.mem_cons, List.not_mem_nil, or_false] at hk
    rcases hk with rfl | rfl <;> exact ⟨_, rfl, by decide⟩

theorem test_witness_RegistersFreedAndRegionsEntered :
    -- rfree: of selectors that are no slots, of registers that are free to go, and of one that is empty
    (∀ p ∈ [(labRegs, Instr.rfree 96 5), (labRegs, .rfree 6 5), ({ labOwed .load .drop with pends := [] }, .rfree 5 6), (labOwed .load (.vreg 5 true), .rfree 5 6)],
      Goes (lab p.1) p.2 (labIssue (lab p.1) p.2) p.1) ∧
    isSlot 96 = false ∧ isSlot 5 = true ∧ isSlot 6 = true ∧
    (labOwed .load (.vreg 5 true)).crewEmpty 0 ((labOwed .load (.vreg 5 true)).regOf 0 5 + 1) = true ∧
    (∀ w r, ({ labOwed .load .drop with pends := [] } : Cohort).crewEmpty w r = false) ∧
    (∀ p ∈ (labOwed .load .drop).threads, ∀ g o, p.2.run ≠ .parked g o) ∧
    -- region: of an entry that is elsewhere, of one that is here, and where the cohort is giving way
    (∀ p ∈ [(labRegion labRegs, Instr.region 0), (labRegion labRegs, .region 1), ({ labRegion labRegs with yielding := some ⟨0, 0⟩ }, .region 1)],
      Goes (lab p.1) p.2 (labIssue (lab p.1) p.2) p.1) ∧
    (labRegion labRegs).yielding = none ∧ (labRegion labRegs).hdr.regions[0]? = some ⟨8, 16, true, 64⟩ ∧
    (labRegion labRegs).hdr.regions[1]? = some ⟨0, 8, true, 64⟩ ∧
    (labRegion labRegs).hdr.codeBase + BitVec.ofNat 64 0 = (labIssue (lab (labRegion labRegs)) (.region 1)).pc := by
  refine ⟨goes_all (by decide), by decide, by decide, by decide, by decide, fun _ _ => rfl, ?_, goes_all (by decide), rfl, rfl, rfl, by decide⟩
  intro p hp g o
  simp only [labOwed, labRegs, labCohort, List.mem_cons, List.not_mem_nil, or_false] at hp
  rcases hp with rfl | rfl <;> simp [placedThread]

/-- Registers for the power requests: a voltage step and a clock, a boost, kinds and durations. -/
def labPwr : Cohort := labCohort [(2, 50 + 950 * 65536), (3, 66 + 1000 * 65536), (4, 40), (5, 100), (6, 1), (7, 60), (8, 2)] []

theorem test_witness_PowerRequests :
    let f (b e : Sel) := form7 [srcWord false 126, srcWord false b, srcWord false e] (some (statusDst 9))
      (!statusSel 9 || !sel32 126 || !sel32 b || !sel32 e) false
    let s := lab labPwr
    (∀ p ∈ [(2, 5), (4, 5), (7, 5), (8, 6)], ReadyLow s (.preq 9 126 p.1 p.2) (f p.1 p.2) (labIssue s (.preq 9 126 p.1 p.2)) labPwr) ∧
    ReadyLow s (.preq 9 6 5 5) (form7 [srcWord false 6, srcWord false 5, srcWord false 5] (some (statusDst 9)) false false)
      (labIssue s (.preq 9 6 5 5)) labPwr ∧
    (∀ a ∈ [(3 : Sel), 4], ReadyLow s (.boost 9 a) (form7 [srcWord false a] (some (statusDst 9)) (!statusSel 9 || !sel32 a) false)
      (labIssue s (.boost 9 a)) labPwr) ∧
    (let v (a : Sel) := (labIssue s (.boost 9 a)).low labPwr (form7 [srcWord false a] (some (statusDst 9)) false false) 0
     65 ≤ v 3 % 2 ^ 16 ∧ v 3 % 2 ^ 16 ≤ 70 ∧ v 3 / 2 ^ 16 % 2 ^ 16 = 1000 ∧ v 4 % 2 ^ 16 < 65) := by
  refine ⟨?_, readyLow_of (by decide), ?_, by decide⟩
  · intro p hp
    simp only [List.mem_cons, List.not_mem_nil, or_false] at hp
    rcases hp with rfl | rfl | rfl | rfl <;> exact readyLow_of (by decide)
  · intro a ha
    simp only [List.mem_cons, List.not_mem_nil, or_false] at ha
    rcases ha with rfl | rfl <;> exact readyLow_of (by decide)

/-- Launch queue 0 of the tests' context. -/
def labLaunch (head : Nat) : State :=
  (lab labPwr).modQueue 0 fun q => { q with cfg := 0x80010000, head := head }

theorem test_witness_ServicesMarksAndLoads :
    let f (a : Sel) := form7 [srcWord false a, src64 10] (some (statusDst 9)) (!statusSel 9 || (!sel32 a || !sel64 10)) false
    let ready (s : State) (i : Instr) (f : Form) : Prop := ReadyLow s i f (labIssue s i) labPwr
    -- sysc: a launch on no queue, on a full queue, and on one with room; a query, of a grid and of none; and another service
    (∀ p ∈ [(lab labPwr, (126 : Sel)), (labLaunch 1, 126), (labLaunch 0, 126), (lab labPwr, 6), (labGridOf labPwr, 6), (lab labPwr, 8)],
      ready p.1 (.sysc 9 p.2 10) (f p.2)) ∧
    ready (lab labPwr) (.syscImm 9 125 10 1) (form7 [srcImm false (imm32 1) 125, src64 10] (some (statusDst 9))
      (!statusSel 9 || (!sel32I 125 || !sel64 10)) false) ∧
    (let x := labIssue (lab labPwr) (.sysc 9 126 10)
     (lab labPwr).launchCheck x 0 = (.status .refused, lab labPwr) ∧ (labLaunch 1).launchCheck x 0 = (.status .busy, labLaunch 1) ∧
     (match (labLaunch 0).launchCheck x 0 with
      | (.store 0 bytes p, s1) => p == ⟨0, 0, 0⟩ && bytes.length == 128 && find? s1.cohorts 0 == some labPwr
      | _ => false) = true) ∧
    -- halt
    (ReadyLow (labGridOf labPwr) (.halt 3) (form7 [srcWord false 3] none (!sel32 3) false) (labIssue (labGridOf labPwr) (.halt 3)) labPwr ∧
      rising (labGridOf labPwr).cohorts = true ∧ find? (labGridOf labPwr).lch.grids 0 = some labGrid ∧ labGrid.state = .running) ∧
    -- tmark, with marks to spare and with none
    (∀ n ∈ [0, 16], let s := (lab labPwr).modCluster 0 fun c => { c with marks := List.replicate n 0 }
      ready s (.tmark 3) (form7 [srcWord false 3] none (!sel32 3) false) ∧
      ready s (.tmarkImm 125 3) (form7 [srcImm false (imm32 3) 125] none (!sel32I 125) false) ∧
      ((s.cluster 0).marks.filter fun t => decide (s.timer < t + 10000)).length = n ∧ s.counter .cluTmarkDrop 0 < 2 ^ 64 - 1) ∧
    -- bload: of a length that is none, beyond the allocation, and within it
    (let c := labCohort [(2, 128), (3, 65536), (4, 5)] []
     let f (a b e : Sel) := form7 [src64 a, srcWord false b, srcWord false e] none (!sel64 a || !sel32 b || !sel32 e) false
     (∀ p ∈ [((126 : Sel), (4 : Sel)), (126, 2), (3, 2)], ReadyLow (lab c) (.bload 10 p.1 p.2 3) (f 10 p.1 p.2)
       (labIssue (lab c) (.bload 10 p.1 p.2 3)) c) ∧
     c.spadBytes < 65536 + 128 ∧ 0 + 128 ≤ c.spadBytes ∧
     ∃ ls s1, (lab c).bloadLines (labIssue (lab c) (.bload 10 126 2 3)) 0 0 (128 / 128) = (.done ls, s1) ∧ find? s1.cohorts 0 = some c) := by
  refine ⟨?_, readyLow_of (by decide), ⟨rfl, rfl, by decide +kernel⟩, ⟨readyLow_of (by decide), by decide, by decide, by decide⟩, ?_, ?_⟩
  · exact each (b := fun p : State × Sel => readyBy true p.1 (.sysc 9 p.2 10) (form7 [srcWord false p.2, src64 10] (some (statusDst 9))
      (!statusSel 9 || (!sel32 p.2 || !sel64 10)) false)
      (labIssue p.1 (.sysc 9 p.2 10)) labPwr) (by decide) fun _ => readyLow_of
  · intro n hn
    simp only [List.mem_cons, List.not_mem_nil, or_false] at hn
    rcases hn with rfl | rfl <;> exact ⟨readyLow_of (by decide), readyLow_of (by decide), by decide, by decide⟩
  · refine ⟨fun p hp => ?_, by decide, by decide, _, _, rfl, rfl⟩
    simp only [List.mem_cons, List.not_mem_nil, or_false] at hp
    rcases hp with rfl | rfl | rfl <;> exact readyLow_of (by decide)

theorem test_witness_GuardsAndHolds :
    let p : Pfx := ⟨0, false, false, 1, true, false, false, false, false, false, 0⟩
    let i : Instr := .add (some p) 5 2 3
    let s := lab labRegs
    encode i ≠ [] ∧ (s.issue? i).isSome = true ∧ i.pfx = some p ∧ p.ge = true ∧ (∀ k ∈ (labIssue s i).ts, labRegs.isHeld k = false) ∧
    (∀ k ∈ (labIssue s i).ts, ∀ u, labRegs.thread? k = some u → u.preds.getLsbD p.gp.toNat = p.gn) ∧
    -- and a thread that is held
    (let c := labOwed .load (.sreg 15 .s32)
     (lab c).issue? i ≠ none ∧ ∃ k ∈ (labIssue (lab c) i).ts, c.isHeld k = true) := by
  refine ⟨by decide, by decide, rfl, rfl, by decide, fun k hk u hu => ?_, by decide, by decide⟩
  have : ∀ k ∈ (labIssue (lab labRegs) (.add (some ⟨0, false, false, 1, true, false, false, false, false, false, 0⟩) 5 2 3)).ts,
    ∀ u ∈ labRegs.thread? k, u.preds.getLsbD 1 = false := by decide
  exact this k hk u hu

theorem test_witness_DecodeEncodeAgree :
    (let i : Instr := .addImm (some ⟨5, true, false, 0, false, false, false, false, false, false, 0⟩) 4 8 125 0x3FFFFFFF
     i.wellFormed = true ∧ encode i ≠ [] ∧ ∀ w, i ≠ .illegalOp w) ∧
    decodeWords [0x00014307] = .ok (.add none 5 6 7, 1) := by
  exact ⟨⟨by decide, by decide, fun w => by simp⟩, rfl⟩

/-- The state of the tests with the word of `add none 5 6 7` where its threads stand. -/
def labCode : State := { lab labRegs with mem := (State.reset.mem).setBytes 0 (toBytes 0x00014307 4) }

/-- What that instruction gives. -/
def labCodeNext : State :=
  match exec (.add none 5 6 7) { labCode with sel := some (0, 0) } with
  | .next t => t
  | _ => labCode

theorem test_witness_StepRunsDecoded :
    let i : Instr := .add none 5 6 7
    let s := labCode
    decodeWords [0x00014307] = .ok (i, 1) ∧
    (∀ n w, [(0x00014307 : Word)][n]? = some w → s.fetchAt 0 0 ((0 : DWord) + BitVec.ofNat 64 (4 * n)).toNat = (.word w, s)) ∧
    s.fetchInstr 0 0 0 = (.instr i [0x00014307], s) ∧ find? s.cohorts 0 = some labRegs ∧ labRegs.ci = 0 ∧ labRegs.members 0 = [0, 1] ∧ labRegs.thread? 0 = some placedThread ∧
    placedThread.pc.toNat % 4 = 0 ∧
    (∀ j ∈ [0, 1], ((labRegs.thread? j).map Thread.land).getD false = false ∧ (labRegs.thread? j).bind Thread.due = none) ∧
    exec i { s with sel := some (0, 0) } = .next labCodeNext ∧
    s.binToDraw 0 0 = none ∧ (nth (s.cluster 0).fe 0 FrontEnd.reset).left ≠ 0 ∧
    (∀ pick ∈ [none, some (0, 0)], (pick.toList.filter (s.groupsOf 0 0).contains ++
      (s.groupsOf 0 0).filter fun a => !pick.toList.contains a).head? = some (0, 0)) ∧
    movedOn s labCodeNext 0 = true ∧ s.tape = [] ∧ s.busy = [0] := by
  refine ⟨rfl, fun n w h => ?_, rfl, rfl, rfl, by decide, rfl, by decide, by decide, rfl, by decide, by decide, by decide, by decide +kernel, rfl, by decide⟩
  match n with
  | 0 => cases h; rfl
  | n + 1 => simp at h

/-- A state with the clock of cluster 0 and with island 0 changed. -/
def labClock (f : Clock → Clock) : State := State.reset.modClock 0 f
def labIsland (f : Island → Island) : State := State.reset.modIsland 0 f

theorem test_witness_ClocksAndDroop :
    let k (s : State) : Clock := (s.cluster 0).clock
    let fires (s : State) (peak : BitVec 8) : Prop := s.isCluster 0 = true ∧ (k s).drpCtl.getLsbD 31 = true ∧
      (k s).tripped = false ∧ (k s).drpCtl.toNat % 128 < peak.toNat
    let hops : State := labClock fun k => { k with hop := some 950, hopEnd := 8 }
    let stretched : State := labClock fun k => { k with str := true, stretch := 0 }
    -- the detector: without a hop, in a stretch, in a hop; and below its threshold
    (fires State.reset 41 ∧ (k State.reset).hop = none ∧ (k State.reset).str = false ∧ ¬ fires State.reset 40) ∧
    (fires stretched 41 ∧ (k stretched).hop = none ∧ (k stretched).str = true) ∧ (fires hops 41 ∧ (k hops).hop = some 950) ∧
    -- the edges
    (k (labClock fun k => { k with strDue := true, arm := .lane })).strDue = true ∧
    (k (labClock fun k => { k with strDue := true, arm := .lane })).arm = .lane ∧ (k (labClock fun k => { k with arm := .front })).arm = .front ∧
    State.reset.lanesStopped 0 = false ∧ (∀ f ∈ (State.reset.cluster 0).fe, f.fifo = []) ∧ State.reset.frontStopped 0 = false ∧
    (k stretched).stretch = 0 ∧ (k (labClock fun k => { k with halving := true, halve := 1 })).halve ≤ 1 ∧
    -- hops, downwards and upwards; and one that is overdue at the next tick but 8
    (let s (f n : Nat) : State := (labIsland fun i => { i with n := n, move := some ⟨48, f, true, false⟩ })
     ((s 950 64).island 0).move = some ⟨48, 950, true, false⟩ ∧ (k (s 950 64)).hop = none ∧ (k (s 950 64)).str = false ∧
     (k (s 950 64)).strDue = false ∧ 950 < ((s 950 64).island 0).f ∧ ((s 2300 48).island 0).f < 2300 ∧ ((s 2300 48).island 0).n = 48) ∧
    (k hops).hop.isSome = true ∧ (k hops).hopEnd < hops.timer + 9 ∧
    -- the watchdog
    (let c (n : Nat) (r : Bool) := (State.reset.modCluster 0 fun c => { c with hangCount := n, hangReported := r }).cluster 0
     ((c 1000000000 false).hangLim ≠ 0 ∧ (c 1000000000 false).hangLim.toNat ≤ (c 1000000000 false).hangCount ∧ (c 1000000000 false).hangReported = false) ∧
     (c 0 false).hangCount < (c 0 false).hangLim.toNat ∧ (c 1000000000 true).hangReported = true) ∧
    -- a bin
    (let s := (lab labRegs).modCluster 0 fun c => { c with bins := [(5, ⟨0, 0, 64, 64, false⟩)] }
     find? (s.cluster 0).bins 5 = some ⟨0, 0, 64, 64, false⟩ ∧ ∃ o, find? s.cohorts 0 = some o ∧ o.hdr.binage ≤ 64) := by
  refine ⟨by decide, by decide, by decide, by decide, by decide, by decide, by decide, by decide, by decide, by decide, by decide, by decide, by decide,
    by decide, by decide, rfl, _, rfl, by decide⟩

theorem test_witness_OperatingPoints :
    -- telemetry and voltage
    State.reset.timer % 1000000 = 0 ∧
    (∀ p ∈ [(64, (2250 : Nat)), (48, 2250)], let x := (labIsland fun i => { i with n := 56, move := some ⟨p.1, p.2, true, false⟩ }).island 0
      x.move = some ⟨p.1, p.2, true, false⟩ ∧ x.f ≤ p.2 ∧ x.n ≠ p.1) ∧
    (State.reset.island 0).move = none ∧ ((labIsland fun i => { i with move := some ⟨48, 950, true, false⟩ }).island 0).f > 950 ∧
    -- a ramp that a clamp found on its way, and a hop in progress
    (let x := (labIsland fun i => { i with n := 56, move := some ⟨64, 950, true, true⟩ }).island 0
     x.move = some ⟨64, 950, true, true⟩ ∧ x.n ≠ 64) ∧
    ((labClock fun k => { k with hop := some 950 }).cluster 0).clock.hop.isSome = true ∧
    -- an absent die; a gated island that a write gates on; and a cluster that rests
    State.reset.dieCount ≤ 4 ∧ ((labIsland fun i => { i with gate := true }).island 0).gate = true ∧
    (find? ({ State.reset with wear := { State.reset.wear with rests := [(0, (5, true))] } } : State).wear.rests 0).isSome = true ∧
    -- protective actions
    (∀ n ∈ [0, 1, 2], ((labIsland fun i => { i with thermal := n }).island 0).thermal = n) ∧
    800 ≤ (800 : BitVec 12).toInt ∧ 880 ≤ (880 : BitVec 12).toInt ∧ (760 : BitVec 12).toInt ≤ 760 ∧
    -- the end of a boost
    (∀ mv ∈ [1600, 1625], let s := labIsland fun i => { i with boost := some 0, mv := mv }
      (s.island 0).boost = some 0 ∧ 0 ≤ s.timer ∧ (s.island 0).mv = mv) ∧
    -- commands of lanes and of others, allowed or not
    (∀ e ∈ [(1600, true), (1625, false), (1175, false), (1610, false)],
      (decide (e.1 % 25 = 0 ∧ 48 ≤ e.1 / 25 ∧ e.1 / 25 ≤ 64 ∧ (State.reset.island 0).mhz ≤ fmax (e.1 / 25)) = e.2)) ∧
    (∀ e ∈ [(2250, true), (925, false), (2275, false)],
      (decide (e.1 % 25 = 0 ∧ 950 ≤ e.1 ∧ e.1 ≤ fmax ((State.reset.island 0).mv / 25)) = e.2)) ∧
    -- an answer to its requester, and one that is not its own
    (let s : State := { State.reset with pwr := { State.reset.pwr with tickets := [(5, ⟨3, 0, 1, 100, 9⟩)] } }
     find? s.pwr.tickets 5 = some ⟨3, 0, 1, 100, 9⟩ ∧ (let v : DWord := 0x50300000000; v.toNat / 2 ^ 40 = 5 ∧ v.toNat / 2 ^ 32 % 2 ^ 8 = 3) ∧
      (let v : DWord := 0x50400000000; v.toNat / 2 ^ 40 = 5 ∧ 3 ≠ v.toNat / 2 ^ 32 % 2 ^ 8)) := by
  refine ⟨by decide, by decide, by decide, by decide, by decide, by decide, by decide, by decide, by decide, by decide, by decide, by decide, by decide, by decide, by decide, by decide, by decide⟩

theorem test_witness_PowerBudget :
    let s (t opp stall : Nat) (h : Option (Nat × Option Nat)) (table : Bool) : State := { State.reset with
      timer := t, pwr := { State.reset.pwr with sumOpp := opp, sumStall := stall, hint := h, table := table } }
    (s 1 0 0 none false).timer % 1000000 ≠ 0 ∧ ({ State.reset with pwr := { State.reset.pwr with bound := some 0 } } : State).pwr.bound = some 0 ∧
    -- a boundary with a hint, the first, one with a policy table, and later ones that step up, down and not at all
    (∀ p ∈ [s 0 0 0 (some (100, some 9)) false, s 0 0 0 none false, s 1000000 10 9 none true, s 1000000 10 9 none false, s 1000000 10 0 none false,
        s 1000000 10 2 none false],
      p.timer % 1000000 = 0 ∧ p.pwr.bound ≠ some p.timer ∧ p.pwr.rsv + min 640 (max 160 (109 * p.pwr.pkgLim / 1024)) ≤ p.pwr.pkgLim) ∧
    (let peak := 3200000000 * (4 * State.reset.dieCount)
     (30 * 10 ≤ 100 * 9 ∧ 80 * peak ≤ 100 * peak) ∧ 100 * 0 ≤ 10 * 10 ∧
     (¬ 30 * 10 ≤ 100 * 2 ∧ ¬ 100 * 2 ≤ 10 * 10 ∧ ¬ 100 * peak ≤ 50 * peak)) ∧
    find? (lab labRegs).xlt.ctxs 0 = some ⟨0, 0, true, false, 0, 0, 0, true⟩ ∧ (lab labRegs).pwr.caps[3]? = some 1350 ∧ State.reset.pwr.mshare ≤ 109 ∧
    -- the rail, above its limit, just below, and well below for long or not
    (State.reset.pwr.lmem = 562 ∧ State.reset.pwr.memRate = 16 ∧ 562 < 563 ∧ 95 * 562 < 100 * 560 ∧ 100 * 500 ≤ 95 * 562) ∧
    (∀ n ∈ [0, 99], let p := { State.reset.pwr with memLow := n }; if n = 0 then p.memLow + 1 < 100 else 100 ≤ p.memLow + 1) ∧
    -- a die
    (let at_ (s : State) (k : Nat) : Island := s.island (256 * 0 + k)
     let over_ (s : State) : Bool := decide (10 * s.pwr.dieLim.getD 0 0 < ((List.range 244).map fun k => (at_ s k).tel.toNat % 2 ^ 20).sum)
     let some950 (s : State) : Bool := (List.range 128).any fun k => decide (950 < (at_ s k).ceilf)
     let hot : State := labIsland fun i => { i with tel := 13000 }
     let low : State := { hot with pwr := { hot.pwr with islands := (List.range 128).map fun k =>
       (k, { Island.reset k with ceilf := 950, tel := if k = 0 then 13000 else 0 }) } }
     over_ hot = true ∧ some950 hot = true ∧ over_ low = true ∧ some950 low = false ∧ over_ State.reset = false ∧
     (State.reset.pwr.quiet.length = 4 ∧ State.reset.pwr.halved.length = 4) ∧
     (∀ w ∈ [(12500, false), (12000, true)], let s := labIsland fun i => { i with tel := BitVec.ofNat 64 w.1 }
       over_ s = false ∧ decide (100 * ((List.range 244).map fun k => (at_ s k).tel.toNat % 2 ^ 20).sum ≤ 95 * (10 * s.pwr.dieLim.getD 0 0)) = w.2)) := by
  refine ⟨by decide, rfl, by decide, by decide, rfl, by decide, by decide, by decide, by decide, ?_⟩
  refine ⟨by decide +kernel, by decide +kernel, by decide +kernel, by decide +kernel, by decide +kernel, by decide, by decide +kernel⟩

/-- Reset with the TDI of world 1 in a state, its stream secure or not. -/
def labTdi (st : Nat) (ide : Bool) : State := { State.reset with sec := { State.reset.sec with tdis := [(1, ⟨st, ide, 1⟩)] } }

/-- A context of world 0 and one of world 1, and a SPDM requester with a session that is open for function 0. -/
def labSpdm : State := { labTdi 2 true with
  xlt := { State.reset.xlt with ctxs := [(0, ⟨0, 0, true, false, 0, 0, 0, true⟩), (1, ⟨0, 1, true, false, 0, 0, 0, true⟩)] }
  sec := { (labTdi 2 true).sec with link := true, spdm := ⟨3, [(0, 0, true), (1, 1, false)]⟩ } }

/-- A page table at 0x10000 that stands for three levels, and a page of context 0 at 0x20000 with address `labVa`. -/
def labVa : Nat := 2 ^ 39 + 2 ^ 30 + 2 ^ 21
def labLeaf : Nat := 0x200E3
def labTable : State := { State.reset with
  mem := State.reset.mem.setBytes 0x10000 (toBytes labLeaf 8 ++ toBytes 0x10001 8)
  xlt := { State.reset.xlt with migPa := 0x30000, ctxs := [(0, ⟨0x10000, 0, true, false, 0, 0, 0, true⟩)] }
  sec := { State.reset.sec with evAddr := BitVec.ofNat 64 labVa } }

theorem writePhys_plain {s : State} (h : s.lines = []) (pa : Nat) (bs : List Byte) :
    ∃ y, s.writePhys 0 pa bs = (none, y) ∧ y.lines = [] ∧ y.xlt = s.xlt ∧ y.dies = s.dies ∧ y.dieCount = s.dieCount := by
  have line (u : State) (hu : u.lines = []) (a : Nat) (b : List Byte) :
      ∃ y, u.writeLine 0 a b = (none, y) ∧ y.lines = [] ∧ y.xlt = u.xlt ∧ y.dies = u.dies ∧ y.dieCount = u.dieCount := by
    unfold State.writeLine
    split
    · refine ⟨_, rfl, ?_, ?_, ?_, ?_⟩ <;> split <;>
        simp [State.setLine, State.line, hu, findD, find?, Line.none, erase]
    · split
      · refine ⟨_, rfl, ?_, rfl, rfl, rfl⟩
        simp [State.holdLine, State.setLine, State.line, hu, findD, find?, Line.none, erase]
      · simp only [checkLine_plain hu]
        refine ⟨_, rfl, ?_, rfl, rfl, rfl⟩
        simp [State.holdLine, State.setLine, State.line, hu, findD, find?, Line.none, erase]
  unfold State.writePhys
  generalize cutLines pa bs = l
  induction l generalizing s with
  | nil => exact ⟨s, rfl, h, rfl, rfl, rfl⟩
  | cons p l ih =>
    obtain ⟨y, hy, hl, hx, hd, hc⟩ := line s h p.1 p.2
    obtain ⟨z, hz, zl, zx, zd, zc⟩ := ih hl
    exact ⟨z, by simpa [hy] using hz, zl, zx.trans hx, zd.trans hd, zc.trans hc⟩

/-- The request that is served. -/
def labEvidence : State := { labTable with sec := { labTable.sec with evReq := (0x80000000 : Word) &&& 0xFF } }

theorem ok_of {ε α : Type} {e : Except ε α} {a : α} (h : e.toOption = some a) : e = .ok a := by
  cases e <;> simp_all [Except.toOption]

theorem pair_of {α β : Type} {r : α × β} {a : α} (h : r.1 = a) : r = (a, r.2) := h ▸ rfl

theorem writable_plain {s : State} (h : s.lines = []) (pa : Nat) (bs : List Byte) : s.writable 0 pa bs = (true, s) := by
  unfold State.writable
  generalize ((cutLines pa bs).filter fun p => p.2.length != 128) = l
  induction l with
  | nil => rfl
  | cons p l ih => simpa [checkLine_plain h] using ih

theorem test_witness_WorldsAndTheHost :
    -- TDIs
    (State.reset.tdi 1).state = 0 ∧ (State.reset.tdi 1).ide = false ∧ State.reset.sec.link = false ∧ rising State.reset.xlt.ctxs = true ∧
    ((labTdi 1 true).tdi 1).state = 1 ∧ ((labTdi 1 true).tdi 1).ide = true ∧ ((labTdi 1 false).tdi 1).ide = false ∧ ((labTdi 2 true).tdi 1).state = 2 ∧
    labSpdm.sec.link = true ∧
    -- SPDM
    (State.reset.sec.spdm.stage = 0 ∧ labSpdm.sec.spdm.stage = 3 ∧ labSpdm.sec.spdm.sessions.length < 4 ∧
     labSpdm.sec.spdm.session? 1 = some (1, false) ∧ labSpdm.sec.spdm.session? 0 = some (0, true) ∧ labSpdm.sec.spdm.session? 2 = none) ∧
    -- key slots: granted for each world, and not
    (∃ x, labSpdm.ctx? 0 = some x ∧ x.live = true ∧ x.world = 0) ∧ (∃ x, labSpdm.ctx? 1 = some x ∧ x.live = true ∧ x.world = 1) ∧
    (labSpdm.sec.spdm.open? 0 = true ∧ find? labSpdm.sec.slots 5 = none ∧ (labSpdm.sec.spdm.session? 0).map Prod.fst = some 0 ∧
     labSpdm.sec.spdm.open? 1 = false ∧ ((labSpdm.tdi 1).state = 1 ∨ (labSpdm.tdi 1).state = 2)) ∧
    -- host accesses, of a line of world 0 and of one that is not the host's
    (∀ c ∈ (lab labRegs).clusters, 1 / 128 ∉ c.2.granted) ∧ State.reset.isDevice 1 = true ∧ 1 % 128 + 4 ≤ 128 ∧ (State.reset.line 0).tag = 0 ∧
    (State.reset.line 0).held = none ∧ (State.reset.line 0).poison = false ∧ State.reset.checkLine 0 0 = (.ok, State.reset) ∧
    ((State.reset.setLine 0 { Line.none with tag := 1 }).line 0).tag ≠ 0 ∧
    -- evidence: of a context that may have it, with what is read and written, and of one that may not
    (let r := labEvidence.translateHub 0 labEvidence.sec.evAddr.toNat Need.atomic
     (∃ x, labTable.ctx? 0 = some x ∧ x.live = true ∧ x.world = 0) ∧ r.1 = .ok ⟨0x20000, 0, 0⟩ ∧ r.2.worldOk 0 0 = true ∧
     (∃ nonce, r.2.readPhys 0 (0x20000 + 8) 32 = (.ok nonce, r.2)) ∧ ∀ record, r.2.writable 0 0x20000 record = (true, r.2)) ∧
    -- and one of whose lines, written in part, the check refuses
    ((State.reset.setLine 0 { Line.none with failed := true }).writable 0 0 [1]).1 = false ∧
    (let x : Ctx := ⟨0, 0, true, false, 0, 0, 0, false⟩
     ({ labTable with xlt := { labTable.xlt with ctxs := [(0, x)] } } : State).ctx? 0 = some x ∧ x.live = false) ∧
    ((0x80000000 : Word).getLsbD 31 = true ∧ (0 : Word).getLsbD 31 = false) := by
  refine ⟨rfl, rfl, rfl, rfl, rfl, rfl, rfl, rfl, rfl, by decide, ⟨_, rfl, rfl, rfl⟩, ⟨_, rfl, rfl, rfl⟩, by decide, by decide, by decide, by decide,
    rfl, rfl, rfl, by decide, by decide,
    ⟨⟨_, rfl, rfl, rfl⟩, ok_of (by decide +kernel), by decide +kernel, ⟨_, readRun_plain (by decide +kernel) _⟩, writable_plain (by decide +kernel) _⟩, by decide +kernel, ⟨rfl, rfl⟩, by decide⟩

theorem test_witness_RegisterAccesses :
    (35 < 36) ∧ State.reset.isCluster 574 = true ∧ RcReg.cluTmarkDrop ≠ RcReg.cluXfifo ∧
    -- command words
    (∀ e ∈ [((0x000000001010 : DWord), (0 : Nat)), (0x1011, 1), (0x1012, 2), (0x1014, 4), (0x1016, 6)], e.1.toNat % 2 ^ 4 = e.2 ∧ e.1.toNat / 2 ^ 12 = 1) ∧
    (∀ e ∈ [((0x001 : DWord), (1 : Nat)), (0x003, 3), (0x015, 5)], e.1.toNat % 2 ^ 4 = e.2 ∧ e.1.toNat / 2 ^ 12 = 0) ∧ (0x003 : DWord).toNat / 2 ^ 4 % 2 ^ 8 = 0 ∧
    -- BAR0: an access that is not legal, and legal ones of places without a register
    (¬ (2 : Nat) ∣ 0x0E000001 ∧ (0x0E000000 : Nat) % 4 = 0 ∧ 0x0E000000 + 4 ≤ 2 ^ 28) ∧
    (∀ off ∈ [0x01000000, 0x0E000000, 2 ^ 28 - 4], State.reset.regAt off = none) ∧
    -- retention: an array that may enter, one that sleeps, one that is being woken, and a limit of 0
    (let e : List Asleep := [⟨.bank 5 3, 100000, none⟩, ⟨.way 1 2 3, 1000000, none⟩, ⟨.bank 5 4, 100000, some 103500⟩]
     let s : State := { State.reset with timer := 1000000, pwr := { State.reset.pwr with asleep := e } }
     (∀ a ∈ [RetArray.bank 5 5, .way 3 95 15], s.isArray a = true ∧ s.sleeping a = false) ∧
     s.isArray (.bank 8 5) = false ∧ s.isArray (.way 4 95 15) = false ∧
     (nth s.pwr.retIdle (dieOf 5) 0).toNat % 2 ^ 32 = 100000 ∧ (nth s.pwr.retIdle 3 0).toNat / 2 ^ 32 = 1000000 ∧
     findD (s.cluster 5).touched 5 0 + 100000 ≤ s.timer ∧ 0 + 1000000 ≤ s.timer ∧ s.sleeping (.bank 5 3) = true ∧
     (∀ x ∈ e, s.pwr.asleep.find? (fun y => y.arr == x.arr) = some x) ∧ ¬ s.timer < 103500 ∧ State.reset.timer < 103500 ∧
     s.pwr.asleep.find? (fun y => y.arr == .bank 5 5) = none ∧
     (nth ({ State.reset.pwr with retIdle := [0, 0, 0, 0] } : Power).retIdle (dieOf 5) 0).toNat % 2 ^ 32 = 0) := by
  decide +kernel

/-- Reset with one routing entry and one group of one switch, which showed `labId`. -/
def labId : Digest := 5
def labFabric : State := { State.reset with
  mem := State.reset.mem.setBytes 0x1000 (toBytes 5 32 ++ toBytes 6 32)
  names := { State.reset.names with ents := [(3, labEnt)] }
  fab := { State.reset.fab with swref := 0x1001, groups := [(0, 1#128 <<< 127)], switches := [(0, [(labId, 6)])] } }

/-- The reference list of `labFabric`, read with anything staged, in groups and of switches. -/
theorem labFabric_reads (st : List (Reg128 × BitVec 128)) (gr : FMap (BitVec 128)) (sw : FMap (List (Digest × Digest))) :
    ({ labFabric with staging := st, fab := { labFabric.fab with groups := gr, switches := sw } } : State).swrefs =
      ([toBytes labId.toNat 32 ++ toBytes 6 32], { labFabric with staging := st, fab := { labFabric.fab with groups := gr, switches := sw } }) := by
  generalize h : ({ labFabric with staging := st, fab := { labFabric.fab with groups := gr, switches := sw } } : State) = s
  have hl : s.lines = [] := by rw [← h]; rfl
  have hw : s.fab.swref = 0x1001 := by rw [← h]; rfl
  have hm : s.mem = labFabric.mem := by rw [← h]
  have hr : s.readPhys 0 (bits s.fab.swref.toNat 12 40 * 2 ^ 12 + 64 * 0) 64 = (.ok (toBytes labId.toNat 32 ++ toBytes 6 32), s) := by
    rw [hw]
    unfold State.readPhys
    rw [readRun_plain hl, hm]
    exact congrArg (fun b => (Except.ok b, s)) (by decide +kernel)
  have hn : bits s.fab.swref.toNat 0 12 = 1 := by rw [hw]; decide
  unfold State.swrefs
  rw [hn]
  show (match s.readPhys 0 (bits s.fab.swref.toNat 12 40 * 2 ^ 12 + 64 * 0) 64 with
    | (.ok bs, s) => (([] : List (List Byte)) ++ [bs], s)
    | (.error _, s) => ([], s)) = _
  rw [hr]
  rfl

theorem test_witness_AssignmentsAndFabric :
    (∃ refs, ∀ st gr sw, ({ labFabric with staging := st, fab := { labFabric.fab with groups := gr, switches := sw } } : State).swrefs =
      (refs, { labFabric with staging := st, fab := { labFabric.fab with groups := gr, switches := sw } })) ∧
    rising labFabric.names.ents = true ∧ rising labFabric.fab.groups = true ∧ rising labFabric.fab.switches = true ∧ (0xFFFFFFFF : DWord).toNat < 2 ^ 32 ∧
    -- a switch that passes, a group and its list
    (∃ k, k < labFabric.fab.swref.toNat % 2 ^ 12 ∧
      labFabric.mem.getBytes (labFabric.fab.swref.toNat / 2 ^ 12 % 2 ^ 40 * 2 ^ 12 + 64 * k) 64 = toBytes labId.toNat 32 ++ toBytes 6 32) ∧
    (find? labFabric.fab.groups 0).isSome = true ∧ (labFabric.reg128 (.fabCgrp 0)).getLsbD 127 = true ∧
    (∃ l, find? labFabric.fab.switches 0 = some l ∧ ∃ p ∈ l, p.1 = labId) ∧
    -- an assignment that moves, with no TDI that is locked, and with one
    (let moves (s : State) (w : Word) (sp : Nat) : Bool := decide (sp < 4) &&
       decide ((s.cluster 0).spWorld.toNat / 2 ^ (4 * sp) % 16 ≠ w.toNat / 2 ^ (4 * sp) % 16) && s.crewsOn 0 sp == 0
     (moves State.reset 1 0 = true ∧ moves (labTdi 1 true) 1 0 = true ∧ (labTdi 1 true).frozenWorld 1 = true ∧
      ∀ x, State.reset.frozenWorld x = false) ∧
     (State.reset.die 0).wayMap.toNat / 2 ^ 0 % 16 ≠ (1 : DWord).toNat / 2 ^ 0 % 16) := by
  refine ⟨⟨_, labFabric_reads⟩, by decide, by decide, by decide, by decide, ⟨0, by decide, by decide⟩, by decide, by decide, ⟨_, rfl, by decide⟩, ⟨by decide, by decide, by decide,
    fun x => ?_⟩, by decide⟩
  cases x <;> rfl

theorem test_witness_WearAndRests :
    let due (t last : Nat) : State := { State.reset with timer := t, wear := { State.reset.wear with last := last } }
    -- boundaries
    ((due 1 0).timer % 1000000 ≠ 0 ∧ (due 0 0).timer = (due 0 0).wear.last ∧
     (due 1000000 0).timer % 1000000 = 0 ∧ (due 1000000 0).timer ≠ (due 1000000 0).wear.last ∧ (due 1000000 0).wear.next = none) ∧
    (0 < State.reset.dieCount ∧ (State.reset.wunit 0).state < 3 ∧ 3 ≤ (State.reset.wunit 8).state ∧
     (findD State.reset.wear.gather 0 Gather.zero).count = 0 ∧
     (∀ b ∈ [0, 2000000], (((due 1000000 0).modIsland 0 fun x => { x with boost := some b }).island 0).boost = some b)) ∧
    ({ State.reset.wear with next := some [] } : Wear).next = some [] ∧
    -- rests: of a cluster that waits for one, and one that is due or not
    (∀ st ∈ [0, 1], ((State.reset.modUnit (State.reset.clusterUnit 0) fun x => { x with state := st }).wunit (State.reset.clusterUnit 0)).state = st) ∧
    (∀ sp < 4, State.reset.crewsOn 0 sp = 0) ∧ find? State.reset.wear.rests 0 = none ∧
    (∀ t ∈ [0, 1], find? ({ State.reset.wear with rests := [(0, (t, true))] } : Wear).rests 0 = some (t, true)) ∧
    -- reports: of memory that is there, and of memory that is not
    (State.reset.isDevice 0x1000 = true ∧ State.reset.isDevice (0x1000 + 159303) = true ∧ (0x1001 : DWord).getLsbD 0 = true ∧
     (0x1001 : DWord).toNat / 2 ^ 12 % 2 ^ 40 * 2 ^ 12 = 0x1000 ∧ State.reset.isDevice (0xFFFFFFFFFF * 2 ^ 12) = false) := by
  decide

theorem test_witness_BlackBoxSparesAndResets :
    let m := State.reset.mc
    -- commits
    (m.commit = none ∧ m.owed = none ∧ ({ m with commit := some (9, 0, m.ring) } : Mc).commit = some (9, 0, m.ring)) ∧
    -- a slot that is empty, one that is not, and the ring
    (find? m.slots 3 = none ∧ find? ({ m with slots := [(3, ⟨m.ring, 9, 0, 0⟩)] } : Mc).slots 3 = some ⟨m.ring, 9, 0, 0⟩ ∧
     (0x1081 : DWord).toNat / 8 % 32 = 16 ∧ State.reset.isDevice (0x1000 + 131199) = true ∧ State.reset.isDevice (0xFFFFFFFFFF * 2 ^ 12 + 131199) = false) ∧
    -- calls of clusters and of slices, with a spare and without
    (m.spareCall.getLsbD 31 = false ∧ (0x80000000 : Word).getLsbD 30 = false ∧ (0xC0000000 : Word).getLsbD 30 = true ∧
     (State.reset.wunit (State.reset.physCluster 0 % 144)).state ≠ 4 ∧ (State.reset.wunit 8).state = 3 ∧
     ((State.reset.modUnit 8 fun x => { x with state := 0 }).wunit 8).state ≠ 3 ∧
     ((State.reset.modUnit 0 fun x => { x with state := 4 }).wunit 0).state = 4 ∧
     (State.reset.wunit (720 + State.reset.physSlice 0 5)).state ≠ 4 ∧ (State.reset.wunit (816 + 0)).state = 3 ∧ State.reset.physSlice 0 5 ≠ 96 + 0) ∧
    (let s := (List.range 4).foldl (fun (s : State) k => s.modUnit (816 + k) fun x => { x with state := 0 }) State.reset
     ∀ k < 4, (s.wunit (816 + k)).state ≠ 3) ∧
    -- a call for a die that is absent, one with DIE 3, and records that the MRAM holds
    (¬ State.reset.dieCount ≤ 3 ∧ ({ State.reset with dieCount := 1 } : State).dieCount ≤ (0xB0000005 : Word).toNat / 2 ^ 28 % 4 ∧
     (find? ({ State.reset with wear := { State.reset.wear with mram := [⟨[(3, State.reset.wunit 3)], 2, true⟩] } } : State).wear.newest.units 3).isSome = true) ∧
    -- a switch that is owed
    (let s : State := { State.reset with mc := { m with spareCall := 0x80000003 } }
     s.mc.spareCall.getLsbD 31 = true ∧ s.mc.spareCall.getLsbD 30 = false ∧ (∀ sp < 4, s.crewsOn 3 sp = 0) ∧ s.physCluster 3 % 144 ≠ 8) ∧
    -- resets, and the bytes of lines
    ((0xA5C30001 : Word).toNat / 2 ^ 16 = 0xA5C3 ∧ (0xA5C30001 : Word).getLsbD 0 = true ∧ (0xA5C30000 : Word).getLsbD 0 = false) ∧
    (let s := State.reset.setLine 1 { Line.none with tag := 3 }
     s.isDevice (128 / 128 * 128) = true ∧ (s.line 1).tag ≠ 0 ∧ (s.line 0).tag = 0 ∧ ∀ p ∈ s.lines, p.2.held = none) := by
  decide

theorem test_witness_MemoryStaysCanonical :
    State.reset.memoryOk ∧ labCode.memoryOk ∧ (∃ t, step State.reset = .next t) ∧ ∃ t, step labCode = .next t :=
  ⟨rfl, rfl, ⟨_, rfl⟩, ⟨_, rfl⟩⟩
/-- A command of the translation unit that runs. -/
def labRuns (s : State) (op ctx page : Nat) : State :=
  { s with xlt := { s.xlt with cmd := BitVec.ofNat 64 (page * 2 ^ 12 + ctx % 256 * 2 ^ 4 + op), busy := true } }


theorem test_witness_TranslationCommands :
    let s : State := { labTable with xlt := { labTable.xlt with pages := [(0, 5)] } }
    (0, 5) ∈ s.xlt.pages ∧ (0, 6) ∉ s.xlt.pages ∧ s.xlt.busy = false ∧ ({ s.xlt with busy := true } : Xlt).busy = true ∧
    -- teardown, of a live context, of one that has ended, and of none
    (∃ x, s.ctx? 0 = some x ∧ x.live = true) ∧
    (({ s with xlt := { s.xlt with ctxs := [(0, ⟨0, 0, true, false, 0, 0, 0, false⟩)] } } : State).ctx? 0).map Ctx.live = some false ∧
    (State.reset.ctx? 255 = none ∧ (labRuns State.reset 5 255 0).readCtx 255 = (none, labRuns State.reset 5 255 0)) ∧
    -- migration, of a page without a leaf and of one that has one
    (s.ctx? 0 = some ⟨0x10000, 0, true, false, 0, 0, 0, true⟩ ∧ (labRuns s 4 0 0).leafAt (0 * 4096) 3 0x20000 = (none, labRuns s 4 0 0)) ∧
    (let page := labVa / 4096
     let new := s.xlt.migPa.toNat / 4096 % 2 ^ 40 * 4096
     (labRuns s 4 0 page).leafAt (page * 4096) 3 0x10000 = (some (labLeaf, 0x10000), labRuns s 4 0 page) ∧ ptePa labLeaf = 0x20000 ∧ pteSize labLeaf = 0 ∧ new = 0x30000 ∧
     s.isDevice 0x20000 = true ∧ s.isDevice (0x20000 + 4096 - 1) = true ∧ new % 4096 = 0 ∧ s.isDevice new = true ∧ s.isDevice (new + 4096 - 1) = true ∧
     s.pinned 0x20000 4096 = false ∧ (∀ i < 32, (s.line (0x20000 / 128 + i)).held = none) ∧ s.memoryOk ∧ rising s.lines = true ∧ 0x10000 % 8 = 0 ∧ labLeaf = s.mem.read 0x10000 8 ∧
     (s.line (0x10000 / 128)).tag = 0 ∧ (s.line (0x10000 / 128)).held = none ∧ (s.line (0x10000 / 128)).failed = false ∧
     ({ s.xlt with migPa := 0x20000 } : Xlt).migPa.toNat / 4096 % 2 ^ 40 * 4096 = ptePa labLeaf) ∧
    -- completion, with a grid whose record is owed and without
    (let z : State := { s with
       xlt := { s.xlt with busy := true, cmd := 1, ctxs := [(0, ⟨0, 0, true, false, 0, 0, 0, false⟩)] }
       lch := { s.lch with grids := [(0, { labGrid with state := .finished 2 4 })] } }
     let gone (n : Nat) (x : Ctx) : Bool := !x.live && n == 0
     keys (filterMap z.xlt.ctxs gone) = [0] ∧ (z.xlt.ctxs.map Prod.fst).Nodup ∧ find? z.lch.grids 0 = some { labGrid with state := .finished 2 4 } ∧
     s.lch.grids = [] ∧
     -- an access that used an entry which an invalidation drops, and none
     s.outstanding (fun a => s.xlt.awaits.any fun r => decide (r.1 ≤ a ∧ a < r.1 + r.2)) = false ∧
     (let u : State := { s with
        xlt := { s.xlt with busy := true, cmd := 1, awaits := [(0x20000, 4096)] }
        bloads := [(0, ⟨0, 0, 0, [(0x20080, 0, 0)]⟩)] }
      u.outstanding (fun a => u.xlt.awaits.any fun r => decide (r.1 ≤ a ∧ a < r.1 + r.2)) = true)) ∧
    -- the end of a context with grids that wait and that run, and one of another context
    (∀ st ∈ [GState.waiting, .running], ∀ c ∈ [0, 1],
      find? ({ s.lch with grids := [(0, { labGrid with state := st, ctx := c })] } : Launcher).grids 0 = some { labGrid with state := st, ctx := c }) := by
  have hr : (labRuns State.reset 5 255 0).readCtx 255 = (none, labRuns State.reset 5 255 0) := by
    unfold State.readCtx State.readPhys
    rw [readRun_plain rfl]
    exact congrArg (fun c => (c, labRuns State.reset 5 255 0)) (by decide +kernel)
  have leaf (page : Nat) (t : Nat) (o : Option (Nat × Nat))
      (h : ((labRuns { labTable with xlt := { labTable.xlt with pages := [(0, 5)] } } 4 0 page).leafAt (page * 4096) 3 t).1 = o)
      (h' : ((labRuns { labTable with xlt := { labTable.xlt with pages := [(0, 5)] } } 4 0 page).leafAt (page * 4096) 3 t).2 =
        labRuns { labTable with xlt := { labTable.xlt with pages := [(0, 5)] } } 4 0 page) :
      (labRuns { labTable with xlt := { labTable.xlt with pages := [(0, 5)] } } 4 0 page).leafAt (page * 4096) 3 t =
        (o, labRuns { labTable with xlt := { labTable.xlt with pages := [(0, 5)] } } 4 0 page) := Prod.ext h h'
  refine ⟨by decide, by decide, rfl, rfl, ⟨_, rfl, rfl⟩, by decide, ⟨rfl, hr⟩, ⟨rfl, leaf _ _ _ (by decide +kernel) (by decide +kernel)⟩, ?_,
    ⟨by decide, by decide, by decide, rfl, rfl, by decide⟩, by decide⟩
  refine ⟨leaf _ _ _ (by decide +kernel) (by decide +kernel), by decide, by decide, by decide, by decide, by decide, by decide, by decide, by decide, by decide, by decide,
    rfl, rfl, by decide, by decide +kernel, rfl, rfl, rfl, by decide⟩

/-- A page of 2 MiB that the hub's TLB holds; the page has address `labSave`. -/
def labSave : Nat := 2 ^ 39 + 2 ^ 30
def labBig : State := State.modDie { State.reset with
  xlt := { State.reset.xlt with ctxs := [(0, ⟨0x10000, 0, true, false, 0, 0, 0, true⟩)] } } 0 fun d =>
    { d with tlb := [leafEntry 0 labSave 0x2000EB] }

/-- A state that translates as `labBig` does and has no marked line. -/
structure Big (s : State) : Prop where
  lines : s.lines = []
  ctxs  : s.xlt.ctxs = labBig.xlt.ctxs
  dies  : s.dies = labBig.dies
  count : s.dieCount = 4

theorem Big.translates {s : State} (h : Big s) (n : Nat) (hn : n < 2 ^ 21) :
    s.translateHub 0 (labSave + n) Need.write = (.ok ⟨0x200000 + n, 0, 0⟩, s) := by
  have big : ¬ 2 ^ 48 ≤ labSave + n := by simp only [labSave]; omega
  have at_ : (0x200000 + n) / dieBytes < s.dieCount := by rw [h.count]; simp only [dieBytes]; omega
  have low : (labSave + n) % 2 ^ 21 = n := by simp only [labSave]; omega
  have page : (labSave + n) / 2 ^ 21 = labSave / 2 ^ 21 := by simp only [labSave]; omega
  have hit : (leafEntry 0 labSave 0x2000EB).hits 0 (labSave + n) = true := by
    simp only [TlbEntry.hits, show (leafEntry 0 labSave 0x2000EB).size = 2 by decide, show pageShift 2 = 21 by decide, page]
    decide
  have hd : s.die 0 = labBig.die 0 := by simp only [State.die, h.dies]
  have ht : (s.die 0).tlb = [leafEntry 0 labSave 0x2000EB] := by rw [hd]; decide
  have hw : (s.die 0).walks = [] := by rw [hd]; decide
  have hl : s.lookupL2 0 0 (labSave + n) = (.ok (leafEntry 0 labSave 0x2000EB), s) := by
    simp [State.lookupL2, ht, hw, hit]
  simp only [State.translateHub, big, if_false, hl]
  have target : s.hasTarget (0x200000 + n) = true := by simp only [State.hasTarget, State.isDevice, decide_eq_true at_, Bool.true_or]
  have e : leafEntry 0 labSave 0x2000EB = ⟨0, labSave / 4096, 2, 0x200000, true, true, true, 0, 0⟩ := by decide
  rw [e]
  simp only [State.placeIn, show pageShift 2 = 21 by decide, low, Need.write, target]
  rfl

theorem length_freeLine (s : State) (n : Nat) : (s.freeLine n).1.length = 8 * n ∧ (s.freeLine n).2 = { s with freeCtr := (s.freeLine n).2.freeCtr } := by
  induction n generalizing s with
  | zero => exact ⟨rfl, rfl⟩
  | succ n ih =>
    have h := ih s.freeValue.2
    refine ⟨?_, ?_⟩
    · simp [State.freeLine, h.1]; omega
    · simp only [State.freeLine]
      rw [h.2]
      rfl

theorem Big.fills (n : Nat) {s : State} (h : Big s) (i : Nat) (hn : i + n ≤ 2000) : ∃ t, s.fillSlot 0 (labSave + 128 * i) n = (true, t) := by
  induction n generalizing s i with
  | zero => exact ⟨s, rfl⟩
  | succ n ih =>
    have va : (labSave + 128 * i) % 2 ^ 64 = labSave + 128 * i := Nat.mod_eq_of_lt (by simp only [labSave]; omega)
    have hf := length_freeLine s 16
    have hl : (s.freeLine 16).2.lines = [] := by rw [hf.2]; exact h.lines
    obtain ⟨y, hy, yl, yx, yd, yc⟩ := writePhys_plain hl (0x200000 + 128 * i) (s.freeLine 16).1
    have hb : Big y := ⟨yl, by rw [yx, hf.2]; exact h.ctxs, by rw [yd, hf.2]; exact h.dies, by rw [yc, hf.2]; exact h.count⟩
    obtain ⟨t, ht⟩ := ih hb (i + 1) (by omega)
    have e : s.fillLine 0 (labSave + 128 * i) = (true, y) := by
      simp only [State.fillLine, va, h.translates (128 * i) (by omega)]
      simp [State.worldOk, hy]
    refine ⟨t, ?_⟩
    simp only [State.fillSlot, e]
    exact ht

/-- A record, a header and a queue of context 0, in the page of `labTable`, which the hub's TLB holds. -/
def labCard : List Byte := toBytes (labVa + 0x100) 8 ++ toBytes 2 4 ++ toBytes 1 4 ++ toBytes 1 4 ++ toBytes 2 4 ++ toBytes 1 8 ++
  toBytes 0 32 ++ toBytes 128 8 ++ toBytes (labVa + 0x200) 8
def labHead : List Byte := toBytes 0x415A4B48 4 ++ toBytes 1 2 ++ toBytes 4 2 ++ toBytes 0x0108 4 ++ toBytes 64 4 ++ toBytes 1 4 ++ toBytes 8 4 ++
  toBytes 0 8 ++ toBytes 0xFFFFFFFF 4 ++ toBytes 0 4 ++ toBytes 0xFFFFFFFF 4 ++ toBytes 0xFFFFFFFF 4 ++ toBytes 0xFFFFFFFF 4 ++ toBytes 64 4
def labLch (clean : Bool) : State :=
  let s := labTable.modDie 0 fun d => { d with tlb := [leafEntry 0 labVa labLeaf] }
  { s with
    mem := ((s.mem.setBytes 0x20000 labCard).setBytes 0x20100 labHead).setBytes 0x20068 (if clean then [] else [1])
    lch := { s.lch with queues := [(0, ⟨BitVec.ofNat 64 labVa, 0x80040000, 1, 0⟩)] } }

/-- What the launcher reads. -/
def labGot (s : State) : List Byte :=
  match (s.launcherRead 0 (spans labVa 128)).1 with
  | .ok bs => bs
  | _ => []

theorem test_witness_LaunchesAndCohorts_accepts :
    let s := labLch true
    let lq := s.queue 0
    (State.reset.queue 0).en = false ∧ lq.en = true ∧ lq.head % lq.size ≠ lq.tail % lq.size ∧ (s.ctx? lq.ctx).isSome = true ∧ lq.ctx = 0 ∧
    (∀ clean ∈ [true, false], ∃ s1, (labLch clean).launcherRead 0 (spans (lq.base.toNat + 128 * 0) 128) = (.ok (labGot (labLch clean)), s1) ∧
      s1.lch = (labLch clean).lch ∧ s1.ctxRuns 0 = true) ∧
    ({ s with xlt := { s.xlt with ctxs := [(0, ⟨0x10000, 0, true, false, 0, 0, 0, false⟩)] } } : State).ctxRuns 0 = false ∧
    (let r := recordOf (labGot s)
     (r.clean = true ∧ r.cpl ≠ 0 ∧ r.cpl.toNat % 32 = 0 ∧ ∀ w ∈ r.waits, w = 0) ∧ r.sig = false ∧ r.header.toNat % 256 = 0 ∧ (∀ e ∈ r.shape, 1 ≤ e) ∧
      1 ≤ r.cohsz ∧ 1 ≤ r.banks ∧ r.banks ≤ 32 ∧ r.bmap ≠ 0 ∧ r.bmap.toNat % 128 = 0 ∧ r.trapa.toNat % 1024 = 0 ∧ r.save.toNat % 4096 = 0) ∧
    (recordOf (labGot (labLch false))).clean = false := by
  have go (clean : Bool) (h : ((labLch clean).launcherRead 0 (spans ((labLch true).queue 0).base.toNat 128)).1 = .ok (labGot (labLch clean)))
      (h' : ((labLch clean).launcherRead 0 (spans ((labLch true).queue 0).base.toNat 128)).2.lch = (labLch clean).lch)
      (r : ((labLch clean).launcherRead 0 (spans ((labLch true).queue 0).base.toNat 128)).2.ctxRuns 0 = true) :
      ∃ s1, (labLch clean).launcherRead 0 (spans ((labLch true).queue 0).base.toNat 128) = (.ok (labGot (labLch clean)), s1) ∧
        s1.lch = (labLch clean).lch ∧ s1.ctxRuns 0 = true := ⟨_, pair_of h, h', r⟩
  refine ⟨rfl, rfl, by decide, by decide, by decide, fun clean hc => ?_, by decide +kernel, by decide +kernel, by decide +kernel⟩
  simp only [List.mem_cons, List.not_mem_nil, or_false] at hc
  rcases hc with rfl | rfl
  · exact go true (by decide +kernel) (by decide +kernel) (by decide +kernel)
  · exact go false (by decide +kernel) (by decide +kernel) (by decide +kernel)

theorem test_witness_LaunchesAndCohorts_starts :
    let s := labLch true
    let g : Grid := { labGrid with state := .waiting, record := { labRecord with header := BitVec.ofNat 64 (labVa + 0x100) } }
    let grids (w : Nat) (y : GState) : State := { s with lch := { s.lch with
      grids := [(0, { g with record := { g.record with waits := [w, 0, 0, 0] } }), (1, { labGrid with state := y })] } }
    (∀ w ∈ [0, 1], find? (grids w .running).lch.grids 0 = some { g with record := { g.record with waits := [w, 0, 0, 0] } }) ∧ g.state = .waiting ∧
    (∀ e ∈ [0, 1], ∃ y, find? (grids 1 (.complete e 0)).lch.grids 1 = some y ∧ y.state = .complete e 0) ∧
    (∀ y, find? (grids 1 .running).lch.grids 1 = some y → ∀ e code, y.state ≠ .complete e code) ∧
    -- a header that can be read, and one that cannot
    (match (grids 0 .running).readHeader 0 0 (labVa + 0x100) with
      | (.ok h, _) => h.buckets == [] && h.crews == [1, 0, 0, 0]
      | _ => false) = true ∧
    (match (grids 0 .running).readHeader 0 0 labVa with
      | (.bad, _) => true
      | _ => false) = true ∧
    -- extents that are too many, and buckets that fit or do not
    2 ^ 32 < nth [65536, 65536, 2] 0 1 * nth [65536, 65536, 2] 1 1 * nth [65536, 65536, 2] 2 1 ∧
    (let fits (b : Bucket) : Bool := (List.range 3).all fun d =>
        decide (nth b.lo d 0 ≤ nth labRecord.shape d 0) && decide (nth labRecord.shape d 0 ≤ nth b.hi d 0)
     fits ⟨[1, 1, 1], [4, 1, 1], 0⟩ = true ∧ fits ⟨[3, 1, 1], [4, 1, 1], 0⟩ = false) := by
  refine ⟨by decide, rfl, fun e _ => ⟨_, rfl, rfl⟩, fun y h e c => ?_, by decide +kernel, by decide +kernel, by decide, by decide⟩
  cases h
  simp [labGrid]

/-- A grid of world 1 that has placed one of its two cohorts, and one that could not be placed beside another. -/
def labPlace (banks : Nat) (cs : FMap Cohort) : State :=
  let s := State.reset.modCluster 0 fun c => { c with spWorld := 1 }
  let g : Grid := { labGrid with world := 1, prio := 3, ncoh := 2, placed := 1, record := { labRecord with banks := banks } }
  { s with cohorts := cs, timer := 100, lch := { s.lch with grids := [(0, { labGrid with placed := 1 }), (5, g)] } }

/-- A cohort of grid 0 on cluster 0, placed at a tick, and one that was saved. -/
def labResident (c : Cohort) (placed : Nat) : Cohort := { c with world := 1, placed := placed }
def labSaved : Cohort := { labRegs with grid := 5, world := 1, phase := .saved, banks := [], crews := [] }

/-- A grid that has ended, whose record lies at `va`. -/
def labEnds (va : Nat) : State :=
  let s := labTable.modDie 0 fun d => { d with tlb := [leafEntry 0 labVa labLeaf] }
  { s with lch := { s.lch with grids := [(0, { labGrid with state := .finished 0 0, record := { labRecord with cpl := BitVec.ofNat 64 va } })] } }

theorem test_witness_LaunchesAndCohorts_places :
    -- a grid that is served, with a saved cohort and without, and one that is not
    (let s (cs : FMap Cohort) := labPlace 1 cs
     ∀ cs ∈ [[], [(0, labSaved)]], (s cs).nextServed = some 5 ∧ (s cs).nextServed ≠ some 0 ∧ labRecord.locpa = 0 ∧
       (let g : Grid := { labGrid with world := 1, prio := 3, ncoh := 2, placed := 1, record := { labRecord with banks := 1 } }
        find? (s cs).lch.grids 5 = some g ∧ (s cs).hintDie g = (none, s cs) ∧ (s cs).choices? g = [0] ∧ (s cs).pickCluster none none [0] = some 0 ∧
        (s cs).pickCluster none (some 0) [0] = some 0 ∧ (s cs).savedOf 5 = if cs = [] then none else some (0, labSaved))) ∧
    -- retirement: of a cohort that has ended, and of one that has not
    (let c : Cohort := { labRegs with phase := .ending, threads := [] }
     find? (lab c).cohorts 0 = some c ∧ c.phase = .ending ∧ c.threads = [] ∧ (lab c).workDone 0 = true ∧ labRegs.phase ≠ .ending) ∧
    -- completion: with a cohort left, with a record that is written, and with one that cannot be
    (let s := labEnds
     (∃ p ∈ (lab labRegs).cohorts, p.2.grid = 0) ∧ (s 0).cohorts = [] ∧ (BitVec.ofNat 64 (labVa + 0x200)).toNat % 32 = 0 ∧
     (∀ bs : List Byte, ∃ s1, (s (labVa + 0x200)).launcherWrite 0 (labVa + 0x200) 32 false (fun _ => bs) = (.ok, s1)) ∧
     ∀ bs : List Byte, ∃ s1, (s 32).launcherWrite 0 32 32 false (fun _ => bs) = (.ended, s1)) := by
  refine ⟨by decide +kernel, by decide, by decide, by decide, by decide, fun bs => ?_, fun bs => ?_⟩
  rotate_left
  · have f : (match ((labEnds 32).translateHub 0 32 Need.write).1 with
        | .error (.trap _) => true
        | _ => false) = true := by decide +kernel
    have w : (labEnds 32).launcherWaits 0 32 = false := by decide +kernel
    unfold State.launcherWrite
    rw [w]
    generalize (labEnds 32).translateHub 0 32 Need.write = r at f
    obtain ⟨x, s1⟩ := r
    match x, f with
    | .error (.trap t), _ => exact ⟨_, rfl⟩
  obtain ⟨y, hy, -⟩ := writePhys_plain (s := (labEnds (labVa + 0x200)).recall hostAgent (0x20200 / 128)) rfl 0x20200 bs
  have h : (labEnds (labVa + 0x200)).translateHub 0 (labVa + 0x200) Need.write = (.ok ⟨0x20200, 0, 0⟩, labEnds (labVa + 0x200)) := rfl
  refine ⟨y, ?_⟩
  simp only [State.launcherWrite, h, State.worldOk]
  exact congrArg (fun r : Option Trap × State => match r with
    | (some _, s) => (HubDone.ended, s.endContext 0 0x06)
    | (none, s) => (HubDone.ok, s)) hy

/-- A thread that has yielded, and the image of a cohort with two of them. -/
def labStopped : Cohort := { labT (fun u => { u with run := .stopped 0 }) with yielding := some ⟨0, 5⟩ }
def labImage (save : DWord) : State :=
  { labBig with cohorts := [(0, labStopped)], lch := { labBig.lch with grids := [(0, { labGrid with record := { labRecord with save := save } })] } }

theorem test_witness_LaunchesAndCohorts_yields :
    -- a request: of a cohort that is no victim, of the first, and of one that is not the first
    (let one := [(0, labResident labRegs 0)]
     let two := [(0, labResident labRegs 0), (1, { labResident labRegs 9 with banks := [1] })]
     (∀ p ∈ (labPlace 1 one).victims 5, p.1 ≠ 0) ∧
     (∃ p ∈ (labPlace 32 one).victims 5, p.1 = 0) ∧ (∀ p ∈ (labPlace 32 one).victims 5, (labPlace 32 one).yieldsFirst p.2 (labResident labRegs 0) = false) ∧
     (∃ p ∈ (labPlace 32 two).victims 5, (labPlace 32 two).yieldsFirst p.2 (labResident labRegs 0) = true)) ∧
    -- a drain limit that has passed, and one that has not
    (let c : Cohort := { lone labDrain with yielding := some ⟨0, 5⟩ }
     (∀ n, c.threads.filter (fun p => p.2.drainLimit.any fun m => decide (0 + m ≤ n)) =
       if 64 ≤ n then [(0, { placedThread with region := .inside 0 true 64 })] else []) ∧
     c.busyWith [0] = false ∧ ({ c with pends := [(0, ⟨.maccInit [] .f32, .drop, 0, [(0, 0)], 0⟩)] } : Cohort).busyWith [0] = true ∧
     ∀ t r m, (0, t) ∈ c.threads → t.region = .inside r true m → ¬ (0 + m ≤ 63)) ∧
    -- a save: with a thread that still runs, of threads that are quiet, with room and without
    ((∀ p ∈ labStopped.threads, p.2.run = .stopped 0) ∧ labStopped.yielding.isSome = true ∧ labStopped.threads ≠ [] ∧
     (∃ p ∈ labRegs.threads, p.2.run = .group 0) ∧ labRegs.yielding = none ∧
     (∀ v, (labImage v).workDone 0 = true ∧ (labImage v).bloads = [] ∧ find? (labImage v).cohorts 0 = some labStopped ∧
       find? (labImage v).lch.grids labStopped.grid = some { labGrid with record := { labRecord with save := v } }) ∧
     (∃ s1, (labImage (BitVec.ofNat 64 labSave)).fillSlot 0 (labSave + 0 * (1 * 16384 + 196608)) ((1 * 16384 + 196608) / 128) = (true, s1)) ∧
     ∃ s1, (labImage 0).fillSlot 0 0 ((1 * 16384 + 196608) / 128) = (false, s1)) := by
  refine ⟨by decide +kernel, ⟨fun n => ?_, by decide, by decide, fun t r m h e => ?_⟩, by decide, by decide, by decide, by decide, rfl, fun v => ⟨rfl, rfl, rfl, rfl⟩, ?_, ?_⟩
  · have e : (lone labDrain).threads = [(0, { placedThread with region := .inside 0 true 64 })] := rfl
    have d : Thread.drainLimit { placedThread with region := .inside 0 true 64 } = some 64 := rfl
    by_cases h : 64 ≤ n <;> simp [e, d, h]
  · simp only [lone, labDrain, labT, labRegs, labCohort, List.map_cons, List.take, List.mem_cons, List.not_mem_nil, or_false, Prod.mk.injEq] at h
    obtain ⟨-, rfl⟩ := h
    cases e
    decide
  · exact Big.fills 1664 (s := labImage (BitVec.ofNat 64 labSave)) ⟨rfl, rfl, rfl, rfl⟩ 0 (by decide)
  · exact ⟨_, pair_of (by decide +kernel)⟩

/-- A state with one result outstanding, and one with a matrix operation. -/
def labPend (kind : PKind) : State := lab { labRegs with pends := [(0, ⟨kind, .sreg 0 .s32, 0, [(0, 3)], 0⟩)] }
def labHeadOp (o : MatOp) : State := (lab labRegs).modCluster 0 fun c => { c with mxu := [[o], [], [], []] }

/-- A flush of one line that holds one element. -/
def labFlush : FlushOp := {
  md := 0, desc := labDesc 1, lines := [256], dests := [(512, 0)], ety := .f32, rnd := .rne, sat := false, keep := true, evt := false }

theorem test_witness_DeviceWorkForThreads_statuses :
    (∀ kind, ∃ c p, find? (labPend kind).cohorts 0 = some c ∧ find? c.pends 0 = some p ∧ p.kind = kind ∧ p.lanes = [(0, 3)]) ∧
    -- bindings that can be made, and one that cannot
    (let c : Cohort := { labRegs with pends := [(0, ⟨.known, .sreg 0 .s32, 0, [(0, 3)], 0⟩)] }
     (∀ kind ∈ [0, 1, 3, 4, 7], (match (lab c).bindCheck 0 c 0 kind 0 with
       | .ok ds => ds == []
       | .error _ => false) = true) ∧
     (match (lab c).bindCheck 0 c 0 1 3 with
       | .error e => e == .refused
       | .ok _ => false) = true) ∧
    -- accumulators: of a world that has no way, and of lines that are free to start again
    ((lab labRegs).hasWay (128 * 2 / dieBytes) 1 = false ∧ (lab labRegs).sliceFailed (128 * 2 / dieBytes) (sliceOf (128 * 2)) = false ∧
     find? ({ lab labRegs with shadows := [(2, ⟨0, 0, .f32, List.replicate 16 0, false⟩)] } : State).shadows 2 ≠ none) ∧
    -- offers: of no name, and of a name whose tile is there
    ((lab labRegs).offerable 0 64 = none ∧ (labNames labRegs).offerable 0 64 = some labEnt ∧
     (({ labNames labRegs with names := { (labNames labRegs).names with tiles := [⟨64, [], [], 0, 0⟩] } } : State).names.tiles.any fun t => t.name == 64) = true) ∧
    -- landings: of a port that another cohort has, and of one that is free
    (find? (((lab labRegs).modCluster 0 fun c => { c with landing := [(3, ⟨5, 0, 1, 0, false, 0⟩)] }).cluster 0).landing 3 = some ⟨5, 0, 1, 0, false, 0⟩ ∧
     find? ((lab labRegs).cluster 0).landing 3 = none ∧ 0 + 128 * 16 ≤ labRegs.spadBytes) ∧
    -- flushes: of a line without a shadow, and of one that has one
    (let sh : Shadow := ⟨0, 0, .f32, List.replicate 16 0, false⟩
     labFlush.lines = [256] ∧ labFlush.desc.m = 1 ∧ labFlush.desc.n = 1 ∧ labFlush.dests = [(512, 0)] ∧ labFlush.keep = true ∧
     find? ({ labPend (.flush labFlush) with shadows := [(2, sh)] } : State).shadows (256 / 128) = some sh ∧ sh.poison = false ∧
     find? (labPend (.flush labFlush)).shadows 2 = none ∧
     -- its line takes the write, and refuses it
     (∃ w, (labPend (.flush labFlush)).flushOpen labFlush = (true, w) ∧ w.shadows = (labPend (.flush labFlush)).shadows) ∧
     ∃ w, ((labPend (.flush labFlush)).setLine 4 { Line.none with tag := 3 }).flushOpen labFlush = (false, w)) :=
  ⟨fun _ => ⟨_, _, rfl, rfl, rfl, rfl⟩, by decide +kernel, by decide +kernel, by decide +kernel, by decide +kernel, by decide +kernel, by decide +kernel,
    by decide +kernel, by decide +kernel, by decide +kernel, by decide +kernel, by decide +kernel, by decide +kernel,
    ⟨_, pair_of (by decide +kernel), by decide +kernel⟩, _, pair_of (by decide +kernel)⟩

/-- A group that waits for the matrix unit of sub-partition 0, which holds four operations. -/
def labWaiting : Cohort := { labRegs with groups := [(0, ⟨0, 0, false, false, some (0, .unit 0)⟩)] }
def labPushes (t : Nat) : State :=
  { (lab labWaiting).modCluster 0 fun c => { c with mxu := [[labOp, labOp, labOp, labOp], [], [], []] } with timer := t }

theorem test_witness_DeviceWorkForThreads_units :
    -- a line of a bload, and one that fails
    (let b : Bload := ⟨0, 0, 3, [(0, 0, 0)]⟩
     let s : State := { lab labRegs with bloads := [(5, b)] }
     find? s.bloads 5 = some b ∧ find? s.cohorts b.cohort = some labRegs ∧ b.left[0]? = some (0, 0, 0) ∧ labRegs.spadRange 0 128 true = none ∧
     (match (State.recall { s with bloads := erase s.bloads 5 } b.ci 0).readPhys 0 0 128 with
       | (.ok bs, _) => bs.length == 128
       | _ => false) = true ∧
     (match ((State.recall { s with bloads := erase s.bloads 5 } b.ci 0).setLine 0 { Line.none with poison := true }).readPhys 0 0 128 with
       | (.error z, _) => z == .poison
       | _ => false) = true) ∧
    -- the limit of a push: not reached, and reached by a group that is at an instruction
    (let c := labWaiting
     let s := labPushes
     (∀ t, find? (s t).cohorts 0 = some c) ∧ (find? c.groups 0).bind Group.since = some (0, .unit 0) ∧ ((s 5).cluster 0).qstall.toNat = 1000000 ∧
     (s 1000001).pushOpen 0 c (.unit 0) = false ∧ (s 1000001).pushOpen 0 c (.unit 1) = true ∧
     c.members 0 = [0, 1] ∧ (∃ i ws s1, (s 1000001).fetchInstr 0 0 (((c.thread? 0).map Thread.pc).getD 0) = (.instr i ws, s1) ∧
       s1.stallDue 0 0 = true) ∧ c.active ⟨0, 0, 0, 0, [0, 1], 0, [0]⟩ none = [0, 1]) ∧
    -- a matrix unit: before its first row, at a row that can be read, at one that pages, at one that faults, and at its end
    (let d := labDesc 1
     let go (o : MatOp) : Bool := o.result == none && o.parked == none && decide (o.krow < o.desc.k)
     let s := labHeadOp
     let at1 : MatOp := { labOp with started := true }
     let far (va : DWord) : MatOp := { at1 with desc := { d with aaddr := va } }
     let replays (o : MatOp) : State := (s o).modCtx 0 fun x => { x with replay := true }
     (nth ((s labOp).cluster 0).mxu 0 [] = [labOp] ∧ go labOp = true ∧ labOp.started = false ∧ go { labOp with krow := 32 } = false ∧
      ∃ ps s1, (s labOp).tilePlaces true 0 labOp.ctx d.tileLines = (.done ps, s1)) ∧
     (∃ as bs s1 s2, (s at1).loadColumn 0 at1 (List.range d.m) = (.done as, s1) ∧ s1.loadRow 0 at1 = (.done bs, s2)) ∧
     (match (replays (far 0x40000000)).loadColumn 0 (far 0x40000000) (List.range d.m) with
       | (.page va l _, s1) => (s1.pageFault 0 va Need.read .matrix l 0).1
       | _ => false) = true ∧
     (match (s (far 0x1000000000000)).loadColumn 0 (far 0x1000000000000) (List.range d.m) with
       | (.trap z _, _) => z == .accessFault
       | _ => false) = true ∧
     -- partials on their way, and none
     (∃ q ∈ ({ s labOp with partials := [(5, ⟨0, 0, 0, 256, 256, .f32, 0⟩)] } : State).partials, q.2.op = labOp.serial) ∧ (s labOp).partials = []) ∧
    -- a large sum, and a NaN
    isLarge (.num false 1 1 127) = true ∧ [FVal.nan false].any FVal.isNan = true ∧
    -- partials: at no shadow, at one of another format, and at one of its own
    (let m : Partial := ⟨0, 0, 0, 256, 256, .f32, 0⟩
     let s (l : FMap Shadow) : State := { lab labRegs with partials := [(5, m)], shadows := l }
     (∀ l, find? (s l).partials 5 = some m) ∧ find? (s []).shadows (m.pa / 128) = none ∧
     ∀ f ∈ [Ety.f32, .f64], find? (s [(2, ⟨0, 0, f, List.replicate 16 0, false⟩)]).shadows (m.pa / 128) = some ⟨0, 0, f, List.replicate 16 0, false⟩) := by
  refine ⟨⟨rfl, rfl, rfl, by decide, by decide +kernel, by decide +kernel⟩, ⟨fun _ => rfl, rfl, rfl, by decide, by decide, by decide, ⟨_, _, _, rfl, by decide⟩, by decide⟩,
    ⟨⟨rfl, by decide, rfl, by decide, _, _, rfl⟩, ⟨_, _, _, _, rfl, rfl⟩, by decide +kernel, by decide +kernel, by decide, rfl⟩, by decide, rfl,
    fun _ => rfl, rfl, by decide⟩

/-! ## Single steps -/

/-- A register of a lane after an instruction, run by both threads with these registers; and what a delayed result will bring. -/
def gives (v : FMap Word) (i : Instr) (x : Sel) : Option (Nat × Nat) :=
  match exec i (lab (labCohort v [])) with
  | .next s => (find? s.cohorts 0).map fun c => ((c.plain 0 (srcWord false x)).1, (c.plain 1 (srcWord false x)).1)
  | _ => none

def owes (v : FMap Word) (i : Instr) : Option (List (Nat × Nat)) :=
  match exec i (lab (labCohort v [])) with
  | .next s => (find? s.cohorts 0).map fun c => c.pends.flatMap fun p => p.2.lanes
  | _ => none

/-- The threads after it. -/
def threadsAfter (s : State) (i : Instr) : List Thread :=
  match exec i s with
  | .next s => ((find? s.cohorts 0).map fun c => c.threads.map Prod.snd).getD []
  | _ => []

/-- A prefix with a type, and with SAT or a rounding. -/
def typed (ty : BitVec 4) (rnd : BitVec 3 := 0) (sat : Bool := false) : Option Pfx := some ⟨rnd, sat, false, 0, false, false, false, false, false, false, ty⟩

/-- R74, R75: a sum wraps, and SAT clamps it. -/
theorem test_add : gives [(2, 0x7FFFFFFF), (3, 1)] (.add none 5 2 3) 5 = some (0x80000000, 0x80000000) ∧
    gives [(2, 0x7FFFFFFF), (3, 1)] (.add (typed 3 0 true) 5 2 3) 5 = some (0x7FFFFFFF, 0x7FFFFFFF) := by decide

/-- R76: the carry goes to p7. -/
theorem test_addc : gives [(2, 0xFFFFFFFF), (3, 1)] (.addc none 5 2 3) 5 = some (0, 0) ∧
    (threadsAfter (lab (labCohort [(2, 0xFFFFFFFF), (3, 1)] [])) (.addc none 5 2 3)).map (fun u => u.preds.getLsbD 7) = [true, true] := by decide

/-- R78: -7 / 2 is -3, and its remainder -1. -/
theorem test_div : owes [(2, 0xFFFFFFF9), (3, 2)] (.div none 5 2 3) = some [(0, 0xFFFFFFFD), (1, 0xFFFFFFFD)] ∧
    owes [(2, 0xFFFFFFF9), (3, 2)] (.rem none 5 2 3) = some [(0, 0xFFFFFFFF), (1, 0xFFFFFFFF)] := by decide

/-- R79: counts of the width and more. -/
theorem test_shifts : gives [(2, 0x80000001), (3, 32)] (.shl none 5 2 3) 5 = some (0, 0) ∧
    gives [(2, 0x80000001), (3, 40)] (.sar none 5 2 3) 5 = some (0xFFFFFFFF, 0xFFFFFFFF) ∧
    gives [(2, 0x80000001), (3, 33)] (.rotl none 5 2 3) 5 = some (3, 3) := by decide

/-- R80: the index is zero-extended, and sign-extended with `.s32`. -/
theorem test_lea : gives [(2, 0), (3, 1), (8, 0xFFFFFFFF), (10, 0)] (.lea none 6 2 8 10 1) 7 = some (2, 2) ∧
    gives [(2, 0), (3, 1), (8, 0xFFFFFFFF), (10, 0)] (.lea (typed 3) 6 2 8 10 1) 7 = some (0, 0) := by decide

/-- R83: a field that reaches past the top is cut, and its sign is extended. -/
theorem test_bfe : gives [(2, 0xF0000000)] (.bfe (typed 3) 5 2 0 0 true 28 8) 5 = some (0xFFFFFFFF, 0xFFFFFFFF) ∧
    gives [(2, 0xF0000000)] (.bfe none 5 2 0 0 true 28 8) 5 = some (15, 15) := by decide

/-- R84's own example: the byte order is reversed. -/
theorem test_bshuf : gives [(2, 0x11223344), (4, 0x00010203)] (.bshuf none 5 2 3 4) 5 = some (0x44332211, 0x44332211) := by decide

/-- R85: counts of zero. -/
theorem test_counts : gives [] (.clz none 5 2) 5 = some (32, 32) ∧ gives [] (.popc none 5 2) 5 = some (0, 0) := by decide

/-- R86: a signed and an unsigned compare. -/
theorem test_cmp : let p (ty : BitVec 4) := (threadsAfter (lab (labCohort [(2, 0xFFFFFFFF), (3, 1)] [])) (.cmp (typed ty) 4 2 2 3)).map fun u => u.preds.getLsbD 4
    p 3 = [true, true] ∧ p 7 = [false, false] := by decide

/-- R89: a lane sees the lanes that hold what it holds. -/
theorem test_match : gives [] (.matchLanes none 5 126) 5 = some (1, 2) ∧ gives [] (.matchLanes none 5 2) 5 = some (3, 3) := by decide

/-- R108: a sum that cancels is +0, and -0 toward minus infinity. -/
theorem test_fadd : gives [(2, 0x3F800000), (3, 0xBF800000)] (.fadd none 5 2 3) 5 = some (0, 0) ∧
    gives [(2, 0x3F800000), (3, 0xBF800000)] (.fadd (typed 0 3) 5 2 3) 5 = some (0x80000000, 0x80000000) := by decide

/-- R109: -0 lies below +0. -/
theorem test_fmin : gives [(2, 0), (3, 0x80000000)] (.fmin none 5 2 3) 5 = some (0x80000000, 0x80000000) ∧
    gives [(2, 0), (3, 0x80000000)] (.fmax none 5 2 3) 5 = some (0, 0) := by decide

/-- R112, R113: the class of a quiet NaN, and a tie. -/
theorem test_fclass : gives [(2, 0x7FC00000)] (.fclass none 5 2) 5 = some (0x200, 0x200) := by decide
theorem test_frint : gives [(2, 0x40200000)] (.frint none 5 2) 5 = some (0x40000000, 0x40000000) := by decide

/-- R65, R120: 2^31 is out of range. -/
theorem test_cvt : gives [(2, 0x4F000000)] (.cvt none 5 2 10 3) 5 = some (0x7FFFFFFF, 0x7FFFFFFF) ∧
    gives [(2, 0x7FC00000)] (.cvt none 5 2 10 3) 5 = some (0, 0) := by decide

/-- R126's own example: 5.0 under a scale of 4, and body 0x11 back to 1.25. -/
theorem test_qscale : gives [(2, 0x40A00000), (3, 0x81)] (.qscale none 5 2 3 true 0) 5 = some (0x3FA00000, 0x3FA00000) ∧
    gives [(2, 0x3FA00000), (3, 0)] (.tenc (typed 6) 5 2 3 0) 5 = some (0x11, 0x11) := by decide
theorem test_tdec : gives [(2, 0x11)] (.tdec (typed 6) 5 2 0) 5 = some (0x3FA00000, 0x3FA00000) := by decide

/-- R13, R141: bytes are little-endian. -/
theorem test_ld : (match exec (.ld (typed 7) 5 8 9) { lab (labCohort [(8, 64)] []) with mem := State.reset.mem.setBytes 64 [1, 2, 3, 4] } with
    | .next s => (find? s.cohorts 0).map fun c => c.pends.flatMap fun p => p.2.lanes
    | _ => none) = some [(0, 0x04030201), (1, 0x04030201)] := by decide
theorem test_st : (match exec (.st (typed 7) 5 8 9) (lab (labCohort [(8, 64), (5, 0x04030201)] [])) with
    | .next s => s.mem.getBytes 64 4
    | _ => []) = [1, 2, 3, 4] := by decide

/-- R150: two lanes add to one word one after the other. -/
theorem test_atom : (match exec (.red (typed 7) 8 3 0 false) (lab labDrain) with
    | .next s => s.mem.read 64 4
    | _ => 0) = 10 := by decide

/-- R91: a branch counts words from its own address; one that is not taken goes on after its tail. -/
theorem test_bra : (threadsAfter (lab labRegs) (.bra false false 0 16)).map Thread.pc = [64, 64] ∧
    (threadsAfter (lab labRegs) (.bra true false 1 16)).map Thread.pc = [8, 8] := by decide

/-- R97: an entry of the loop stack; a count of 0 pushes none. -/
theorem test_loop : (threadsAfter (lab labRegs) (.loop 0 11 true 3)).map (fun u => (u.pc, u.loops)) = [(8, [⟨8, 52, 3⟩]), (8, [⟨8, 52, 3⟩])] ∧
    (threadsAfter (lab labRegs) (.loop 0 11 true 0)).map (fun u => (u.pc, u.loops)) = [(56, []), (56, [])] := by decide

/-- R45, R103: `trap` goes to the vector, in the handler's mode, and the frame keeps the address after it. -/
theorem test_trap : (threadsAfter (labTrap 256 labRegs) (.trap 5)).map (fun u => (u.pc, u.frames.length)) = [(256, 1), (256, 1)] := by
  decide +kernel

/-- R199: the lane number. -/
theorem test_movs : gives [] (.movs 5 1) 5 = some (0, 1) := by decide

/-- R212: a reserved rate changes nothing. -/
theorem test_clk : (match exec (.cluClkWrite 0 0x03000000) State.reset with
    | .next s => (s.cluster 0).rate
    | _ => 9) = 2 := by decide

/-- R320: 600 mV is the least a lane island takes. -/
theorem test_vset : let st (mv : Nat) := (match exec (.pwrIslVsetWrite 0 0 (BitVec.ofNat 32 mv)) State.reset with
      | .next s => some (s.island 0).status
      | _ => none)
    st 1175 = some Status.vfloor.code ∧ st 1610 = some Status.refused.code := by decide

/-- A word stored where the next instruction is fetched runs first. -/
theorem test_step : (match step (State.reset.withFetchWord 32 0x29800000) with
    | .next s => ((find? s.cohorts 0).map fun c => c.threads.map fun p => p.2.pc).getD []
    | _ => []) = [4] := by decide
end

section
/-!
PROOFS. What reset leaves (R9): the tables of `State.reset` are empty, and what is looked up in them is a default.
-/

namespace Sys2Proof.Machine

@[simp] theorem reset_cluster (ci : Nat) : State.reset.cluster ci = Cluster.reset := rfl
@[simp] theorem reset_line (n : Nat) : State.reset.line n = Line.none := rfl
@[simp] theorem reset_queue (q : Nat) : State.reset.queue q = LQueue.reset := rfl
@[simp] theorem reset_tdi (n : Nat) : State.reset.tdi n = Tdi.reset := rfl
@[simp] theorem reset_fabPort (p : Nat) : State.reset.fabPort p = FabPort.reset := rfl
@[simp] theorem reset_counter (r : RcReg) (i : Nat) : State.reset.counter r i = 0 := rfl
@[simp] theorem reset_mem_get (a : Nat) : State.reset.mem.get a = 0 := rfl

/-- Every matrix unit is idle: none of the four queues, nor a place past them, holds an operation. -/
@[simp] theorem Cluster.reset_mxu (sp : Nat) : nth Cluster.reset.mxu sp [] = [] := by
  have h : Cluster.reset.mxu = List.replicate 4 [] := rfl
  rw [nth, h, List.getElem?_replicate]
  split <;> rfl

/-- Settles O59: each part of the state is looked up in the tables of `State.reset`, which are empty, so that a default with
the Reset column's values answers. -/
theorem resetState : Obligations.ResetState := by
  refine ⟨rfl, State.reset_memoryOk, rfl, rfl, rfl, rfl, rfl, rfl, rfl, rfl, rfl, rfl, rfl, rfl, reset_mem_get, fun n => ?line,
    reset_counter, fun ci => ?cluster, fun q => ?queue, ⟨rfl, rfl, rfl, rfl, rfl, rfl⟩, fun n => ?tdi, fun p => ?port, ?wearCtl,
    ⟨rfl, rfl, rfl, rfl, rfl⟩, ⟨rfl, rfl, rfl, rfl⟩⟩
  case line =>
    rw [reset_line]
    exact ⟨rfl, rfl, rfl⟩
  case cluster =>
    rw [reset_cluster]
    exact ⟨rfl, rfl, rfl, rfl, rfl, rfl, rfl, Cluster.reset_mxu, rfl, rfl, rfl, rfl⟩
  case queue =>
    rw [reset_queue]
    exact ⟨rfl, rfl, rfl, rfl⟩
  case tdi =>
    rw [reset_tdi]
    exact ⟨rfl, rfl⟩
  case port =>
    rw [reset_fabPort]
    decide
  case wearCtl => decide

end Sys2Proof.Machine
end

section
/-!
PROOFS. The fields that a register write keeps, as bits of words (R8, R313, R347).
-/

namespace Sys2Proof.Machine

/-! ## Fields of words -/

theorem bit_toNat {n : Nat} (v : BitVec n) (k : Nat) : bit v.toNat k = v.getLsbD k := by
  rw [← BitVec.testBit_toNat, Nat.testBit_eq_decide_div_mod_eq]
  rfl

theorem bits_low (x n : Nat) : bits x 0 n = x % 2 ^ n := by
  rw [bits, Nat.pow_zero, Nat.div_one]

theorem bits_one (x k : Nat) : bits x k 1 = (bit x k).toNat := by
  rw [bits, bit, Nat.pow_one]
  rcases Nat.mod_two_eq_zero_or_one (x / 2 ^ k) with h | h <;> rw [h] <;> rfl

/-- The bits of a mask of `n` ones from bit `lo` on. -/
theorem testBit_maskOf (lo n k : Nat) : ((2 ^ n - 1) * 2 ^ lo).testBit k = decide (lo ≤ k ∧ k < lo + n) := by
  rw [Nat.testBit_mul_two_pow, Nat.testBit_two_pow_sub_one, Bool.decide_and]
  by_cases h : lo ≤ k
  · simp [h, Nat.sub_lt_iff_lt_add h, Nat.add_comm]
  · simp [h]

/-- Keeping the bits of a field is masking them. -/
theorem keepBits_eq_and (v : DWord) (lo n : Nat) : keepBits v lo n = v &&& BitVec.ofNat 64 ((2 ^ n - 1) * 2 ^ lo) := by
  apply BitVec.eq_of_getLsbD_eq
  intro k hk
  rw [keepBits, BitVec.getLsbD_and, BitVec.getLsbD_ofNat, BitVec.getLsbD_ofNat, testBit_maskOf, bits, Nat.testBit_mul_two_pow,
    Nat.testBit_mod_two_pow, Nat.testBit_div_two_pow, BitVec.testBit_toNat]
  by_cases h : lo ≤ k
  · have hn : k - lo < n ↔ k < lo + n := by omega
    simp [h, hk, hn, Bool.and_comm]
  · simp [h]

/-- Fields of two masks without a common bit add up without a carry. -/
theorem and_add_and {x y M N : DWord} (h : M &&& N = 0#64) : (x &&& M) + (y &&& N) = (x &&& M) ||| (y &&& N) := by
  apply BitVec.add_eq_or_of_and_eq_zero
  calc (x &&& M) &&& (y &&& N) = (x &&& y) &&& (M &&& N) := by ac_rfl
    _ = 0#64 := by rw [h, BitVec.and_zero]

/-- Fields of one word under two masks without a common bit are its field under both. -/
theorem and_add_and_self {x M N : DWord} (h : M &&& N = 0#64) : (x &&& M) + (x &&& N) = x &&& (M ||| N) := by
  rw [and_add_and h, BitVec.and_or_distrib_left]

/-- LOGN of a ring after a write of a word. -/
theorem newLogn_bits (old n lo hi : Nat) (locked : Bool) :
    newLogn old (bits n 0 4) lo hi locked = if locked then old else if lo ≤ n % 16 ∧ n % 16 ≤ hi then n % 16 else old := by
  cases locked with
  | true => simp [newLogn]
  | false =>
    by_cases h : lo ≤ n % 16 ∧ n % 16 ≤ hi
    · have hin : ¬ (n % 16 < lo ∨ hi < n % 16) := by omega
      simp [newLogn, bits_low, h, hin]
    · have hout : n % 16 < lo ∨ hi < n % 16 := by omega
      simp [newLogn, bits_low, h, hout]

/-! ## WEAR_CTL (R347) -/

/-- The word whose RLEN a write of `v` leaves in WEAR_CTL: a written RLEN of 0 leaves the field. -/
def rlenSource (old v : DWord) : DWord := if bits v.toNat 16 8 = 0 then old else v

/-- WEAR_CTL after a write, field by field. -/
theorem wearCtlWrite_eq_add (old v : DWord) : wearCtlWrite old v =
    keepBits v 32 8 + keepBits v 30 2 + keepBits v 24 4 + keepBits (rlenSource old v) 16 8 + keepBits v 8 8 := by
  unfold wearCtlWrite keepBits rlenSource
  simp only [BitVec.ofNat_add]
  split <;> rfl

/-- WEAR_CTL after a write: RLEN of one word beside the other fields of the word written. -/
theorem wearCtlWrite_eq_or (old v : DWord) :
    wearCtlWrite old v = (v &&& 0x000000FFCF00FF00#64) ||| (rlenSource old v &&& 0x00FF0000#64) := by
  calc wearCtlWrite old v
      = keepBits v 32 8 + keepBits v 30 2 + keepBits v 24 4 + keepBits v 8 8 + keepBits (rlenSource old v) 16 8 := by
        rw [wearCtlWrite_eq_add]
        ac_rfl
    _ = _ := by
        simp only [keepBits_eq_and]
        rw [and_add_and_self (by decide), and_add_and_self (by decide), and_add_and_self (by decide), and_add_and (by decide)]
        rfl

/-- The fields of WEAR_CTL other than RLEN are those of the word written. -/
theorem wearCtlWrite_others (old v : DWord) : wearCtlWrite old v &&& ~~~0x00FF0000#64 = v &&& 0x000000FFCF00FF00#64 := by
  rw [wearCtlWrite_eq_or, BitVec.and_or_distrib_right, BitVec.and_assoc, BitVec.and_assoc, BitVec.and_not_self]
  exact (congrArg (_ ||| ·) BitVec.and_zero).trans BitVec.or_zero

theorem wearCtlWrite_rlen (old v : DWord) : (wearCtlWrite old v).toNat / 2 ^ 16 % 2 ^ 8 =
    if v.toNat / 2 ^ 16 % 2 ^ 8 = 0 then old.toNat / 2 ^ 16 % 2 ^ 8 else v.toNat / 2 ^ 16 % 2 ^ 8 := by
  unfold wearCtlWrite bits
  rw [BitVec.toNat_ofNat]
  split <;> omega

/-! ## FAB_PORT_ALARM (R313) -/

/-- What an alarm bit is after a write, as a number: a written 1 clears it. -/
def alarmKept (p : FabPort) (v : DWord) (k : Nat) : Nat := (p.alarm.getLsbD k && !v.getLsbD k).toNat

theorem alarmKept_le (p : FabPort) (v : DWord) (k : Nat) : alarmKept p v k ≤ 1 := Bool.toNat_le _

/-- FAB_PORT_ALARM after a write, field by field. -/
theorem alarmWrite_toNat (p : FabPort) (v : DWord) : (alarmWrite p v).toNat =
    alarmKept p v 63 * 2 ^ 63 + alarmKept p v 62 * 2 ^ 62 + alarmKept p v 61 * 2 ^ 61 + (p.alarm.getLsbD 60).toNat * 2 ^ 60 +
      max 17 (v.toNat / 2 ^ 48 % 2 ^ 8) * 2 ^ 48 + min 999999 (v.toNat / 2 ^ 24 % 2 ^ 24) * 2 ^ 24 + v.toNat % 2 ^ 24 := by
  have hclear (k : Nat) : (if bit p.alarm.toNat k && !bit v.toNat k then 2 ^ k else 0) = alarmKept p v k * 2 ^ k := by
    rw [bit_toNat, bit_toNat, alarmKept]
    cases p.alarm.getLsbD k && !v.getLsbD k <;> simp
  have hdown : bits p.alarm.toNat 60 1 = (p.alarm.getLsbD 60).toNat := by
    rw [bits_one, bit_toNat]
  have h63 := alarmKept_le p v 63
  have h62 := alarmKept_le p v 62
  have h61 := alarmKept_le p v 61
  have h60 := Bool.toNat_le (p.alarm.getLsbD 60)
  unfold alarmWrite
  simp only [hclear, hdown, bits_low]
  rw [BitVec.toNat_ofNat, Nat.mod_eq_of_lt]
  · rfl
  · unfold bits
    omega

/-- The alarm bits, of which a written 1 clears its own. -/
theorem alarmWrite_alarm (p : FabPort) (v : DWord) {k : Nat} (hk : k = 61 ∨ k = 62 ∨ k = 63) :
    (alarmWrite p v).getLsbD k = (p.alarm.getLsbD k && !v.getLsbD k) := by
  have h := alarmWrite_toNat p v
  have h63 := alarmKept_le p v 63
  have h62 := alarmKept_le p v 62
  have h61 := alarmKept_le p v 61
  have h60 := Bool.toNat_le (p.alarm.getLsbD 60)
  have hbit : (alarmWrite p v).toNat / 2 ^ k % 2 = alarmKept p v k := by
    rcases hk with rfl | rfl | rfl <;> omega
  rw [← bit_toNat, bit, hbit, alarmKept]
  cases p.alarm.getLsbD k && !v.getLsbD k <;> rfl

/-- DOWN is read-only. -/
theorem alarmWrite_down (p : FabPort) (v : DWord) : (alarmWrite p v).getLsbD 60 = p.alarm.getLsbD 60 := by
  have h := alarmWrite_toNat p v
  have h60 := Bool.toNat_le (p.alarm.getLsbD 60)
  have hbit : (alarmWrite p v).toNat / 2 ^ 60 % 2 = (p.alarm.getLsbD 60).toNat := by omega
  rw [← bit_toNat, bit, hbit]
  cases p.alarm.getLsbD 60 <;> rfl

/-- The bits between DOWN and the thresholds read zero, and each threshold is the written one within its bound. -/
theorem alarmWrite_thresholds (p : FabPort) (v : DWord) :
    (alarmWrite p v).toNat / 2 ^ 56 % 2 ^ 4 = 0 ∧
      (alarmWrite p v).toNat / 2 ^ 48 % 2 ^ 8 = max 17 (v.toNat / 2 ^ 48 % 2 ^ 8) ∧
      (alarmWrite p v).toNat / 2 ^ 24 % 2 ^ 24 = min 999999 (v.toNat / 2 ^ 24 % 2 ^ 24) ∧
      (alarmWrite p v).toNat % 2 ^ 24 = v.toNat % 2 ^ 24 := by
  have h := alarmWrite_toNat p v
  refine ⟨?_, ?_, ?_, ?_⟩ <;> omega

end Sys2Proof.Machine
end

section
/-!
PROOFS. The register directory (R302) and the accesses of BAR0 (R300).
-/

namespace Sys2Proof.Machine

/-! ## The register directory (R302) -/

/-- Where every block of a concatenation has the same length, a cut at a multiple of it is a block. -/
theorem take_drop_flatMap {α β : Type} {f : α → List β} {n : Nat} {l : List α} (hf : ∀ x ∈ l, (f x).length = n) (z : List β)
    {k : Nat} (hk : k < l.length) : ((l.flatMap f ++ z).drop (n * k)).take n = f l[k] := by
  induction l generalizing k with
  | nil => exact absurd hk (Nat.not_lt_zero k)
  | cons x l ih =>
    obtain ⟨hx, hl⟩ := List.forall_mem_cons.1 hf
    rw [List.flatMap_cons, List.append_assoc]
    cases k with
    | zero => rw [Nat.mul_zero, List.drop_zero, List.take_left' hx, List.getElem_cons_zero]
    | succ k =>
      rw [Nat.mul_succ, Nat.add_comm, ← List.drop_drop, List.drop_left' hx, List.getElem_cons_succ]
      exact ih hl (Nat.lt_of_succ_lt_succ hk)

/-- The map of the registers keeps the directory's order. -/
theorem regMap_fst : regMap.map Prod.fst = allRegs := by
  have h (l : List RegRow) (placed : List (RegRow × Nat)) :
      (l.foldl (fun placed r => placed ++ [(r, r.pos.getD (r.place placed))]) placed).map Prod.fst = placed.map Prod.fst ++ l := by
    induction l generalizing placed with
    | nil => rw [List.foldl_nil, List.append_nil]
    | cons r l ih => rw [List.foldl_cons, ih, List.map_append, List.append_assoc]; rfl
  exact h allRegs []

/-- A register whose offset the specification gives is at that offset. -/
theorem regMap_pos : ∀ p ∈ regMap, ∀ o, p.1.pos = some o → p.2 = o := by
  refine foldl_keeps (fun m : List (RegRow × Nat) => ∀ p ∈ m, ∀ o, p.1.pos = some o → p.2 = o) ?_ allRegs (by simp)
  intro placed r h p hp o ho
  rcases List.mem_append.1 hp with hp | hp
  · exact h p hp o ho
  · obtain rfl := List.mem_singleton.1 hp
    rw [ho]
    rfl

theorem allRegs_name_length : ∀ r ∈ allRegs, r.name.length ≤ 24 := by decide +kernel

theorem dirEntry_eq (r : RegRow) (o : Nat) : dirEntry (r, o) = (r.name.toList.map fun ch => BitVec.ofNat 8 ch.toNat) ++
    List.replicate (24 - r.name.length) 0 ++ toBytes o 4 ++ toBytes r.width 2 ++ [0, 0] := by
  simp only [dirEntry, List.length_map, String.length_toList]
  rfl

theorem dirEntry_length {p : RegRow × Nat} (h : p.1.name.length ≤ 24) : (dirEntry p).length = 32 := by
  obtain ⟨r, o⟩ := p
  have hr : r.name.length ≤ 24 := h
  rw [dirEntry_eq]
  simp only [List.length_append, List.length_map, String.length_toList, List.length_replicate, length_toBytes, List.length_cons,
    List.length_nil]
  omega

/-- The directory has an entry of each register, with its offset. -/
theorem directory_entry {row : RegRow} (h : row ∈ allRegs) : ∃ k o : Nat, (row, o) ∈ regMap ∧ k < regMap.length ∧
    (directory.drop (32 * k)).take 32 = dirEntry (row, o) := by
  rw [← regMap_fst] at h
  obtain ⟨⟨_, o⟩, hp, rfl⟩ := List.mem_map.1 h
  obtain ⟨k, hk, he⟩ := List.getElem_of_mem hp
  have hlen : ∀ p ∈ regMap, (dirEntry p).length = 32 := fun p hp =>
    dirEntry_length (allRegs_name_length p.1 (regMap_fst ▸ List.mem_map_of_mem hp))
  exact ⟨k, o, hp, hk, by rw [directory, take_drop_flatMap hlen _ hk, he]⟩

/-! ## BAR0 (R300) -/

theorem barSize_iff (off n size : Nat) : barSize off n size = true ↔ (n = 4 ∨ n = 8) ∧ off % n = 0 ∧ off + n ≤ size := by
  simp [barSize, and_assoc]

theorem barRead_unsupported {s : State} {fn off n : Nat} (h : ¬ barSize off n (if fn = 0 then 2 ^ 28 else 2 ^ 16) = true) :
    s.barRead fn off n = s.answer false [] := if_pos (.inl (by simpa using h))

theorem barWrite_unsupported {s : State} {fn off n : Nat} (v : DWord) (env : WriteEnv)
    (h : ¬ barSize off n (if fn = 0 then 2 ^ 28 else 2 ^ 16) = true) : s.barWrite fn off n v env = s.answer false [] :=
  if_pos (.inl (by simpa using h))

/-- An access of PF0 that lies in its window is taken, whether or not the package booted. -/
theorem bar_taken {s : State} {off n : Nat} (h : barSize off n (2 ^ 28) = true) :
    ¬ ((!barSize off n (if 0 = 0 then 2 ^ 28 else 2 ^ 16)) = true ∨ 0 ≠ 0 ∧ s.mc.boot ≠ 0) := by
  rintro (hsize | ⟨hfn, -⟩)
  · rw [if_pos rfl, h] at hsize
    cases hsize
  · exact hfn rfl

/-- Where the registers lie does not depend on the reply. -/
theorem regAt_answer (s : State) (ok : Bool) (bs : List Byte) (off : Nat) : (s.answer ok bs).regAt off = s.regAt off := by
  have hblock : (s.answer ok bs).blockAt off = s.blockAt off := rfl
  have hinst (b : Block) (i : Nat) : (s.answer ok bs).instanceOf b i = s.instanceOf b i := by cases b <;> rfl
  have hpresent (r : Reg) (i : Nat) : (s.answer ok bs).regPresent r i = s.regPresent r i := rfl
  have hmc : (s.answer ok bs).mc = s.mc := rfl
  simp only [State.regAt, hblock, hinst, hpresent, hmc]

theorem barWords_four (s : State) (off : Nat) : s.barWords off 4 = [(off, 4)] := rfl

/-- A 32-bit write of PF0 where no register is does nothing but succeed. -/
theorem barWrite_no_register {s : State} {off : Nat} (v : DWord) (env : WriteEnv) (h : barSize off 4 (2 ^ 28) = true)
    (hr : s.regAt off = none) : s.barWrite 0 off 4 v env = s.answer true [] := by
  rw [State.barWrite, if_neg (bar_taken h), if_pos rfl, barWords_four, List.foldl_cons, List.foldl_nil, regAt_answer, hr]

/-- A 32-bit read of PF0 where neither a register nor the directory is gives zeros. -/
theorem barRead_no_register {s : State} {off : Nat} (h : barSize off 4 (2 ^ 28) = true) (hr : s.regAt off = none)
    (hd : off < 0x00F00000 ∨ 0x01000000 ≤ off) : s.barRead 0 off 4 = s.answer true [0, 0, 0, 0] := by
  have hpiece : s.barPiece off 4 = ([0, 0, 0, 0], s) := by
    rw [State.barPiece, if_neg (by omega), hr]
    rfl
  rw [State.barRead, if_neg (bar_taken h), if_pos rfl, barWords_four, List.foldl_cons, List.foldl_nil, hpiece]
  rfl

end Sys2Proof.Machine
end

section
/-!
PROOFS. What register writes start (R297, R298), reads of RC registers (R8), and retention (R261, R334).
-/

namespace Sys2Proof.Machine

/-! ## Registers that start something -/

/-- A write of XLT_FQ_RESP is an answer by its fields (R297). -/
theorem exec_registerWrite_xltFqResp (i : Nat) (v : DWord) (s : State) : exec (.registerWrite .xltFqResp i v) s =
    .next (s.faultAnswer (v.toNat % 2 ^ 4) (v.toNat / 2 ^ 4 % 2 ^ 8) (v.toNat / 2 ^ 12 % 2 ^ 36)) := by
  rw [← bits_low v.toNat 4]
  rfl

/-- An ACT that is neither a replay nor a decline answers nothing (R297). -/
theorem State.faultAnswer_other (s : State) {act : Nat} (h : 1 < act) (ctx page : Nat) : s.faultAnswer act ctx page = s := by
  unfold State.faultAnswer
  split
  · rfl
  · split
    · omega
    · omega
    · rfl

/-- A write of XLT_CMD is a command by its fields (R298). -/
theorem exec_registerWrite_xltCmd (i : Nat) (v : DWord) (s : State) : exec (.registerWrite .xltCmd i v) s =
    .next (s.xltCmd (v.toNat % 2 ^ 4) (v.toNat / 2 ^ 4 % 2 ^ 8) (v.toNat / 2 ^ 12)) := by
  have hpage : bits v.toNat 12 52 = v.toNat / 2 ^ 12 := by
    unfold bits
    omega
  rw [← bits_low v.toNat 4, ← hpage]
  rfl

/-- An OP with no command is only stored (R298; log entry 49). -/
theorem State.xltCmd_noCommand (s : State) {op : Nat} (h : op = 0 ∨ 5 < op) (ctx page : Nat) : s.xltCmd op ctx page =
    if s.xlt.busy then s
    else { s with xlt := { s.xlt with cmd := BitVec.ofNat 64 (page * 2 ^ 12 + ctx % 256 * 2 ^ 4 + op) } } := by
  have hop : ¬ (1 ≤ op ∧ op ≤ 5) := by omega
  unfold State.xltCmd
  simp only [if_neg hop]

/-- The fields of a command word make up the word. -/
theorem xltCmd_word (v : DWord) :
    BitVec.ofNat 64 (v.toNat / 2 ^ 12 * 2 ^ 12 + v.toNat / 2 ^ 4 % 2 ^ 8 % 256 * 2 ^ 4 + v.toNat % 2 ^ 4) = v := by
  apply BitVec.eq_of_toNat_eq
  rw [BitVec.toNat_ofNat]
  omega

/-! ## Reads of RC registers (R8) -/

/-- A read of a counter returns it and clears it. -/
theorem exec_rcRead_counter {r : RcReg} (hr : r ≠ .cluXfifo) {i : Nat} (hi : i < 2 ^ 16) (s : State) : exec (.rcRead r i) s =
    .next { s with counters := erase s.counters (rcKey r i), reply := ⟨true, false, toBytes (s.counter r i) 8⟩ } := by
  have hvalue : s.rcValue r i = s.counter r i := by
    unfold State.rcValue
    split
    · contradiction
    · exact if_pos hi
  rw [exec_rcRead (idx := i) r i, execRcRead, hvalue]
  split
  · contradiction
  · rw [if_pos hi]
    rfl

/-- A read of CLU_XFIFO returns the occupancies and their highest, and clears the latter (R215). -/
theorem exec_rcRead_xfifo {i : Nat} {s : State} (h : s.isCluster i = true) (fe : Nat → FrontEnd)
    (hfe : ∀ sp, fe sp = nth (s.cluster i).fe sp FrontEnd.reset) : exec (.rcRead .cluXfifo i) s =
    .next (({ s with reply := ⟨true, false, toBytes ((fe 0).occ + (fe 1).occ * 2 ^ 5 + (fe 2).occ * 2 ^ 10 + (fe 3).occ * 2 ^ 15 +
      (fe 0).hw * 2 ^ 20 + (fe 1).hw * 2 ^ 25 + (fe 2).hw * 2 ^ 30 + (fe 3).hw * 2 ^ 35) 8⟩ }).modCluster i fun c =>
        { c with fe := c.fe.map fun (f : FrontEnd) => { f with hw := 0 } }) := by
  have hvalue : s.rcValue .cluXfifo i = (fe 0).occ + (fe 1).occ * 2 ^ 5 + (fe 2).occ * 2 ^ 10 + (fe 3).occ * 2 ^ 15 +
      (fe 0).hw * 2 ^ 20 + (fe 1).hw * 2 ^ 25 + (fe 2).hw * 2 ^ 30 + (fe 3).hw * 2 ^ 35 := by
    have hrange : List.range 4 = [0, 1, 2, 3] := rfl
    simp only [State.rcValue, h, hrange, List.foldl_cons, List.foldl_nil, ← hfe, Bool.not_true, Bool.false_eq_true, if_false]
    omega
  rw [exec_rcRead (idx := i) .cluXfifo i, execRcRead, hvalue]
  simp only [h]
  rfl

/-! ## Retention (R261, R334) -/

/-- An array that may enter retention: one of the package's, awake, that no access has reached for its idle interval. -/
def State.mayEnter (s : State) (arr : RetArray) : Prop :=
  s.isArray arr = true ∧ s.idleInterval arr ≠ 0 ∧ s.sleeping arr = false ∧ s.lastTouch arr + s.idleInterval arr ≤ s.timer

theorem mayEnter_iff (s : State) (arr : RetArray) : s.mayEnter arr ↔
    ¬ ((!s.isArray arr) = true ∨ s.idleInterval arr = 0 ∨ s.sleeping arr = true ∨ s.timer < s.lastTouch arr + s.idleInterval arr) := by
  simp [State.mayEnter]

theorem exec_retentionEntry_enters {s : State} {arr : RetArray} (h : s.mayEnter arr) : exec (.retentionEntry arr) s =
    .next { s with pwr := { s.pwr with asleep := (s.pwr.asleep.filter fun e => e.arr != arr) ++ [⟨arr, s.timer, none⟩] } } :=
  congrArg Host.Outcome.next (if_neg ((mayEnter_iff s arr).1 h))

theorem exec_retentionEntry_stays {s : State} {arr : RetArray} (h : ¬ s.mayEnter arr) : exec (.retentionEntry arr) s = .next s :=
  congrArg Host.Outcome.next (if_pos (Decidable.not_not.1 (mt (mayEnter_iff s arr).2 h)))

/-- The state with an array awake. -/
def State.awake (s : State) (arr : RetArray) : State :=
  { s with pwr := { s.pwr with asleep := s.pwr.asleep.filter fun e => e.arr != arr } }

theorem exec_retentionExit_none {s : State} {arr : RetArray} (waited : Nat) (h : s.pwr.asleep.find? (fun e => e.arr == arr) = none) :
    exec (.retentionExit arr waited) s = .next s := by
  rw [exec_retentionExit, execRetentionExit, h]

/-- An array on its way out of retention is awake once its exit has ended. -/
theorem exec_retentionExit_woken {s : State} {arr : RetArray} {e : Asleep} {tick : Nat} (waited : Nat)
    (h : s.pwr.asleep.find? (fun e => e.arr == arr) = some e) (hw : e.wake = some tick) :
    exec (.retentionExit arr waited) s = .next (if s.timer < tick then s else s.awake arr) := by
  rw [exec_retentionExit, execRetentionExit, h]
  cases arr <;> simp only [hw] <;> rfl

/-- A bank leaves retention by an access only. -/
theorem exec_retentionExit_bank {s : State} {ci b : Nat} {e : Asleep} (waited : Nat)
    (h : s.pwr.asleep.find? (fun e => e.arr == .bank ci b) = some e) (hw : e.wake = none) :
    exec (.retentionExit (.bank ci b) waited) s = .next s := by
  rw [exec_retentionExit, execRetentionExit, h]
  simp only [hw]

/-- The longest wait for a way: for the end of its entry, then for its exit. -/
theorem retentionTicks_way (d sl way : Nat) : (retentionTicks (.way d sl way)).1 + (retentionTicks (.way d sl way)).2 = 28000 := by
  have henter : (retentionTicks (.way d sl way)).1 = 16000 := rfl
  have hexit : (retentionTicks (.way d sl way)).2 = 12000 := rfl
  omega

/-- A way leaves retention by no access that cannot have waited for it (log entry 75). -/
theorem exec_retentionExit_way_stays {s : State} {d sl way waited : Nat} {e : Asleep}
    (h : s.pwr.asleep.find? (fun e => e.arr == .way d sl way) = some e) (hw : e.wake = none) (hq : waited = 0 ∨ 28000 < waited) :
    exec (.retentionExit (.way d sl way) waited) s = .next s := by
  rw [← retentionTicks_way d sl way] at hq
  rw [exec_retentionExit, execRetentionExit, h]
  simp only [hw, if_pos hq]

/-- A way leaves retention by an access that has waited, of a cluster of the device's choice (log entry 75). -/
theorem exec_retentionExit_way_exits {s : State} {d sl way waited : Nat} {e : Asleep}
    (h : s.pwr.asleep.find? (fun e => e.arr == .way d sl way) = some e) (hw : e.wake = none) (h0 : 0 < waited) (hq : waited ≤ 28000) :
    ∃ n ci, exec (.retentionExit (.way d sl way) waited) s =
      .next (((s.choose n).2.bump .cluRetWait ci waited).awake (.way d sl way)) := by
  have hq' : ¬ (waited = 0 ∨ 28000 < waited) := by omega
  rw [← retentionTicks_way d sl way] at hq'
  rw [exec_retentionExit, execRetentionExit, h]
  simp only [hw, if_neg hq']
  exact ⟨_, _, rfl⟩

/-- A choice draws from the choices to come and changes nothing else. -/
theorem State.choose_frame (s : State) (n : Nat) :
    (s.choose n).2 = { s with choices := (s.choose n).2.choices, choiceCtr := (s.choose n).2.choiceCtr } := by
  unfold State.choose
  split
  · rfl
  · split <;> rfl

/-- A counter raised changes the counters only. -/
theorem State.bump_frame (s : State) (r : RcReg) (i n : Nat) : s.bump r i n = { s with counters := (s.bump r i n).counters } := by
  unfold State.bump
  split <;> rfl

/-- What a counter is raised to depends on the counters only. -/
theorem State.bump_counters_congr {s t : State} (h : s.counters = t.counters) (r : RcReg) (i n : Nat) :
    (s.bump r i n).counters = (t.bump r i n).counters := by
  unfold State.bump
  split
  · exact h
  · simp only [State.counter, h]

/-- What the exit of a way leaves: the array is awake, a choice is drawn, and the wait is counted. -/
theorem State.awake_bump_choose (s : State) (arr : RetArray) (n ci waited : Nat) :
    let t := ((s.choose n).2.bump .cluRetWait ci waited).awake arr
    t = { s with
      pwr := { s.pwr with asleep := s.pwr.asleep.filter fun e => e.arr != arr }
      choices := t.choices, choiceCtr := t.choiceCtr, counters := t.counters } ∧
    t.counters = (s.bump .cluRetWait ci waited).counters := by
  constructor
  · simp only [State.awake]
    rw [State.bump_frame, State.choose_frame]
  · exact State.bump_counters_congr (State.choose_counters s n) _ _ _

theorem arr_of_find {l : List Asleep} {arr : RetArray} {e : Asleep} (h : l.find? (fun e => e.arr == arr) = some e) : e.arr = arr :=
  beq_iff_eq.1 (List.find?_some (p := fun e : Asleep => e.arr == arr) h)

/-- A listed array whose exit has not begun sleeps. -/
theorem sleeping_of_find {s : State} {arr : RetArray} {e : Asleep} (h : s.pwr.asleep.find? (fun e => e.arr == arr) = some e)
    (hw : e.wake = none) : s.sleeping arr = true := by
  refine List.any_eq_true.2 ⟨e, List.mem_of_find?_eq_some h, ?_⟩
  rw [arr_of_find h, hw, beq_self_eq_true]
  rfl

/-- An access to an array in retention waits, and starts its exit (R261). -/
theorem State.reachArray_asleep {s : State} {arr : RetArray} {e : Asleep} (ci : Nat)
    (h : s.pwr.asleep.find? (fun e => e.arr == arr) = some e) (hw : e.wake = none) :
    s.reachArray ci arr = { s.bump .cluRetWait ci (e.wait s.timer) with
      pwr := { s.pwr with asleep := s.pwr.asleep.map fun r =>
        if r.arr = arr then { r with wake := some (s.timer + e.wait s.timer) } else r } } := by
  rw [State.reachArray, sleeping_of_find h hw, h]
  simp

/-- An access to a bank in retention waits for the end of the entry in progress, then for the exit, which it starts (R261). -/
theorem State.touchBank_asleep {s : State} {ci b : Nat} {e : Asleep}
    (h : s.pwr.asleep.find? (fun e => e.arr == .bank ci b) = some e) (hw : e.wake = none) :
    let wait := (e.since + 2000 - s.timer) + 1500
    (s.touchBank ci b).counters = (s.bump .cluRetWait ci wait).counters ∧
      ∀ r ∈ (s.touchBank ci b).pwr.asleep, r.arr = .bank ci b → r.wake = some (s.timer + wait) := by
  intro wait
  have hwait : e.wait s.timer = wait := by
    rw [Asleep.wait, hw, arr_of_find h]
    rfl
  have hreach := State.reachArray_asleep (s := s.modCluster ci fun c => { c with touched := insert c.touched b s.timer }) ci h hw
  rw [State.modCluster_timer, hwait] at hreach
  rw [State.touchBank, hreach]
  refine ⟨State.bump_counters_congr rfl _ _ _, fun r hr harr => ?_⟩
  obtain ⟨r, -, rfl⟩ := List.mem_map.1 hr
  split at harr
  · rename_i hr
    rw [if_pos hr]
  · contradiction

end Sys2Proof.Machine
end

section
/-!
PROOFS. Accesses of registers: the obligation of that name, from the lemmas about its parts.
-/

namespace Sys2Proof.Machine

/-- A bound from above and below, as a choice of cases. -/
theorem clamp_eq (lo hi w : Nat) (h : lo ≤ hi) : max lo (min hi w) = if w < lo then lo else if hi < w then hi else w := by
  split
  · omega
  · split <;> omega

/-- Settles O52: the writes field by field, the commands by their words, and one lemma for each read, place and array. -/
theorem registerAccesses : Obligations.RegisterAccesses := by
  intro s i v r arr waited n w page logn en x m p idle
  refine ⟨?writes, ?wearCtl, ?alarm, rfl, rfl, rfl, ?commands, ?reads, ?bar, ?directory, ?retention⟩
  case writes =>
    -- the fields, as the model cuts them out of the word
    have hw : bits v.toNat 0 16 = w := bits_low _ _
    have hslide : bits v.toNat 0 10 = n % 2 ^ 10 := bits_low _ _
    have hen : bit v.toNat 31 = en := bit_toNat v 31
    have hpage : keepBits v 12 40 = page := keepBits_eq_and v 12 40
    have hctx : keepBits v 14 38 = v &&& 0x000FFFFFFFFFC000#64 := keepBits_eq_and v 14 38
    have hev : keepBits v 12 36 = v &&& 0x0000FFFFFFFFF000#64 := keepBits_eq_and v 12 36
    have hpq : keepBits v 5 47 = v &&& 0x000FFFFFFFFFFFE0#64 := keepBits_eq_and v 5 47
    have hprot : keepBits v 4 8 = v &&& 0xFF0#64 := keepBits_eq_and v 4 8
    have hfq : newLogn x.fqLogn (bits v.toNat 0 4) 4 12 x.fqEn = if x.fqEn then x.fqLogn else logn x.fqLogn 4 12 := newLogn_bits ..
    have herr : newLogn m.errLogn (bits v.toNat 0 4) 6 14 false = logn m.errLogn 6 14 := newLogn_bits ..
    have hpqn : newLogn p.pqLogn (bits v.toNat 0 4) 4 10 p.pqEn = if p.pqEn then p.pqLogn else logn p.pqLogn 4 10 := newLogn_bits ..
    have hlim : min 6000 w = if 6000 < w then 6000 else w := by split <;> omega
    have hcap := clamp_eq 400 1350 w (by omega)
    simp only [List.forall_mem_cons]
    refine ⟨?xltCtxtBase, ?xltFqBase, ?xltFqCfg, ?xltFqHead, ?xltMigPa, ?mcErrBase, ?mcErrCfg, ?mcErrHead, ?mcEvaddr, ?mcEvstat,
      ?pwrProtStat, ?pwrPkgLim, ?pwrRsv, ?pwrCap, ?pwrSlide, ?pwrPqBase, ?pwrPqCfg, ?pwrPqHead, ?pwrRetIdle, ?wearLife, ?lchQbase,
      ?cluQstallLim, ?cluHangLim, ?readOnly, List.forall_mem_nil _⟩
    case xltFqBase | xltMigPa | mcErrBase | lchQbase => rw [← hpage]; rfl
    case xltCtxtBase => rw [← hctx]; rfl
    case mcEvaddr => rw [← hev]; rfl
    case pwrPqBase => rw [← hpq]; rfl
    case pwrProtStat => rw [← hprot]; rfl
    case xltFqCfg => rw [← hfq, ← hen]; rfl
    case mcErrCfg => rw [← herr, ← hen]; rfl
    case pwrPqCfg => rw [← hpqn, ← hen]; rfl
    case mcEvstat => rw [← hen]; rfl
    case xltFqHead | mcErrHead | pwrRsv | pwrPqHead | wearLife => rw [← hw]; rfl
    case pwrPkgLim => rw [← hlim, ← hw]; rfl
    case pwrCap => rw [← hcap, ← hw]; rfl
    case pwrSlide => rw [← hslide]; rfl
    case pwrRetIdle | cluQstallLim | cluHangLim | readOnly => rfl
  case wearCtl => exact ⟨_, rfl, wearCtlWrite_others _ v, wearCtlWrite_rlen _ v⟩
  case alarm =>
    intro hi
    exact ⟨alarmWrite (s.fabPort i) v, congrArg Host.Outcome.next (if_pos hi), fun k hk => alarmWrite_alarm _ v hk, alarmWrite_down _ v,
      alarmWrite_thresholds _ v⟩
  case commands =>
    intro ctx va op
    have hresp := exec_registerWrite_xltFqResp i v s
    have hcmd := exec_registerWrite_xltCmd i v s
    refine ⟨fun h => ?_, fun h => ?_, fun h => ?_, fun h => ?_, fun h => ?_, fun hva => ⟨fun h => ?_, fun hctx h => ?_, fun h => ?_⟩, fun h => ?_⟩
    · rw [hresp, show v.toNat % 2 ^ 4 = 0 from h]; rfl
    · rw [hresp, show v.toNat % 2 ^ 4 = 1 from h]; rfl
    · rw [hresp, State.faultAnswer_other s h]
    · rw [hcmd, show v.toNat % 2 ^ 4 = 4 from h]; rfl
    · rw [hcmd, show v.toNat % 2 ^ 4 = 2 from h]; rfl
    · rw [hcmd, show v.toNat % 2 ^ 4 = 1 from h, show v.toNat / 2 ^ 12 = 0 from hva]; rfl
    · rw [hcmd, show v.toNat % 2 ^ 4 = 3 from h, show v.toNat / 2 ^ 12 = 0 from hva, show v.toNat / 2 ^ 4 % 2 ^ 8 = 0 from hctx]; rfl
    · rw [hcmd, show v.toNat % 2 ^ 4 = 5 from h, show v.toNat / 2 ^ 12 = 0 from hva]; rfl
    · rw [hcmd, State.xltCmd_noCommand s h, xltCmd_word]
  case reads =>
    intro fe fifos
    exact ⟨fun h => exec_rcRead_xfifo h fe fun _ => rfl, fun hr hi => exec_rcRead_counter hr hi s⟩
  case bar =>
    intro fn off len env size legal
    have hlegal : barSize off len size = true ↔ legal := barSize_iff off len size
    refine ⟨rfl, rfl, fun h => ?_, fun h hfn hlen hr => ?_⟩
    · rw [← hlegal] at h
      exact ⟨barRead_unsupported h, barWrite_unsupported v env h⟩
    · subst hfn hlen
      have hsize : barSize off 4 (2 ^ 28) = true := hlegal.2 h
      exact ⟨barWrite_no_register v env hsize hr, barRead_no_register hsize hr⟩
  case directory =>
    intro row hrow
    obtain ⟨k, o, hmem, hk, he⟩ := directory_entry hrow
    have hmany : regMap.length < 2 ^ 15 := by
      rw [← List.length_map Prod.fst, regMap_fst]
      decide
    exact ⟨k, o, fun o' h => regMap_pos _ hmem o' h, Nat.lt_trans hk hmany, he.trans (dirEntry_eq row o)⟩
  case retention =>
    intro last rest enters
    have hidle : s.idleInterval arr = idle := by
      cases arr with
      | bank ci b => exact bits_low _ _
      | way d sl wy => exact Nat.mod_eq_of_lt (by omega)
    have hlast : s.lastTouch arr = last := by cases arr <;> rfl
    have henters : s.mayEnter arr ↔ enters := by rw [State.mayEnter, hidle, hlast]
    refine ⟨fun h => exec_retentionEntry_enters (henters.2 h), fun h => exec_retentionEntry_stays (mt henters.1 h), fun e he => ⟨?_, ?_, ?_⟩,
      exec_retentionExit_none waited⟩
    · exact fun tick => exec_retentionExit_woken waited he
    · rintro ci b rfl hwake
      exact ⟨exec_retentionExit_bank waited he hwake, State.touchBank_asleep he hwake⟩
    · rintro d sl wy rfl hwake
      refine ⟨exec_retentionExit_way_stays he hwake, fun h0 hq => ?_⟩
      obtain ⟨n, ci, hexit⟩ := exec_retentionExit_way_exits he hwake h0 hq
      exact ⟨_, ci, hexit, State.awake_bump_choose s _ n ci waited⟩

end Sys2Proof.Machine
end

section
/-!
PROOFS. Integer arithmetic (R47, R63, R74 to R77): the numbers of an integer type and the two reductions.
-/

namespace Sys2Proof.Machine

theorem wrapNat_cast (w : Nat) (x : Int) : (wrapNat w x : Int) = x % (2 ^ w : Nat) :=
  Int.toNat_of_nonneg (Int.emod_nonneg _ (Int.natCast_ne_zero.2 (Nat.ne_of_gt (Nat.two_pow_pos w))))

/-- Wrapping keeps the value modulo any power of two up to the width. -/
theorem wrapNat_emod {v w : Nat} (h : v ≤ w) (x : Int) : (wrapNat w x : Int) % (2 ^ v : Nat) = x % (2 ^ v : Nat) := by
  rw [wrapNat_cast, Int.emod_emod_of_dvd x (Int.natCast_dvd_natCast.2 (Nat.pow_dvd_pow 2 h))]

theorem toSigned_emod (w x : Nat) : toSigned w x % (2 ^ w : Nat) = (x % 2 ^ w : Nat) := by
  rw [toSigned]
  split
  · rw [← Int.natCast_emod, Nat.mod_mod]
  · rw [Int.sub_emod_right, ← Int.natCast_emod, Nat.mod_mod]

theorem toSigned_bounds {w : Nat} (hw : 0 < w) (x : Nat) :
    -(2 ^ (w - 1) : Nat) ≤ toSigned w x ∧ toSigned w x ≤ (2 ^ (w - 1) : Nat) - 1 := by
  have htwice : 2 ^ w = 2 * 2 ^ (w - 1) := (Nat.two_pow_pred_mul_two hw).symm.trans (Nat.mul_comm ..)
  have hlt : x % 2 ^ w < 2 ^ w := Nat.mod_lt _ (Nat.two_pow_pos w)
  rw [toSigned]
  split <;> omega

theorem Ety.width_pos (t : Ety) : 0 < t.width := by cases t <;> decide

/-- The number that bits stand for is congruent to them. -/
theorem Ety.num_emod (t : Ety) (x : Nat) : t.num x % (2 ^ t.width : Nat) = (x % 2 ^ t.width : Nat) := by
  rw [Ety.num]
  split
  · exact toSigned_emod ..
  · rw [← Int.natCast_emod, Nat.mod_mod]

theorem Ety.num_bounds (t : Ety) (x : Nat) : t.bounds.1 ≤ t.num x ∧ t.num x ≤ t.bounds.2 := by
  have hlt : x % 2 ^ t.width < 2 ^ t.width := Nat.mod_lt _ (Nat.two_pow_pos _)
  rw [Ety.num, Ety.bounds]
  split
  · exact toSigned_bounds t.width_pos x
  · dsimp only
    omega

/-- Fewer than `2 ^ width` numbers lie between the bounds of a type. -/
theorem Ety.bounds_width (t : Ety) : t.bounds.2 - t.bounds.1 < (2 ^ t.width : Nat) := by
  have htwice : 2 ^ t.width = 2 * 2 ^ (t.width - 1) := (Nat.two_pow_pred_mul_two t.width_pos).symm.trans (Nat.mul_comm ..)
  rw [Ety.bounds]
  split <;> dsimp only <;> omega

/-- Numbers with one residue differ by a multiple. -/
theorem dvd_sub_of_emod_eq {m x y : Int} (h : x % m = y % m) : m ∣ x - y :=
  Int.dvd_of_emod_eq_zero (Int.emod_eq_emod_iff_emod_sub_eq_zero.1 h)

/-- A number of the type is determined by what it is congruent to. -/
theorem Ety.num_unique {t : Ety} {x : Nat} {y : Int} (hlo : t.bounds.1 ≤ y) (hhi : y ≤ t.bounds.2)
    (h : (x : Int) % (2 ^ t.width : Nat) = y % (2 ^ t.width : Nat)) : t.num x = y := by
  obtain ⟨hl, hh⟩ := t.num_bounds x
  have hw := t.bounds_width
  have hdvd : ((2 ^ t.width : Nat) : Int) ∣ t.num x - y :=
    dvd_sub_of_emod_eq (by rw [t.num_emod, Int.natCast_emod, h])
  have hzero := Int.eq_zero_of_dvd_of_natAbs_lt_natAbs hdvd (by omega)
  omega

/-- A register that holds a value reads as the value does (R47, R49). -/
theorem Ety.num_toReg (t : Ety) (x : Nat) : t.num (t.toReg x) = t.num x := by
  obtain ⟨hlo, hhi⟩ := t.num_bounds x
  refine Ety.num_unique hlo hhi ?_
  rw [t.num_emod, Ety.toReg]
  split
  case isTrue h => rw [wrapNat_emod (Nat.le_of_lt h.2), toSigned_emod]
  case isFalse => rw [Int.natCast_emod, Int.emod_emod]

theorem Ety.num_wrap_emod (t : Ety) (x : Int) : t.num (t.wrap x) % (2 ^ t.width : Nat) = x % (2 ^ t.width : Nat) := by
  rw [t.num_emod, Int.natCast_emod, Ety.wrap, wrapNat_emod (Nat.le_refl _)]

theorem Ety.num_wrap_of_bounds {t : Ety} {x : Int} (hlo : t.bounds.1 ≤ x) (hhi : x ≤ t.bounds.2) : t.num (t.wrap x) = x :=
  Ety.num_unique hlo hhi (wrapNat_emod (Nat.le_refl _) x)

/-- Without SAT, the result is the number of the type congruent to the exact one (R74). -/
theorem num_reduce_wrap (t : Ety) (x : Int) : t.num (reduce t false x) = t.num (t.wrap x) := t.num_toReg _

/-- With SAT, the result is the number of the type nearest to the exact one (R63). -/
theorem num_reduce_sat (t : Ety) (x : Int) : t.num (reduce t true x) =
    if x < t.bounds.1 then t.bounds.1 else if t.bounds.2 < x then t.bounds.2 else x := by
  obtain ⟨hlo, hhi⟩ := t.num_bounds 0
  have hsat : t.sat x = t.wrap (if x < t.bounds.1 then t.bounds.1 else if t.bounds.2 < x then t.bounds.2 else x) := rfl
  rw [reduce, if_pos rfl, t.num_toReg, hsat]
  apply Ety.num_wrap_of_bounds <;> omega

/-- Settles O1: each instruction is a run of lanes whose values are the reduced results, and what the reductions give
is determined by its residue and the bounds of the type. -/
theorem integerArithmetic : Obligations.IntegerArithmetic := by
  refine ⟨?instructions, ?reduction⟩
  case instructions =>
    intro s p d a b c imm t A B C R S I
    refine ⟨?_, ?_, ?_, ?_, ?_, ?_, ?_, ?_, ?_, ?_, ?_, ?_, ?_, ?_, ?_, ?_⟩
    · exact .binInt (exec_add ..) fun _ _ => rfl
    · exact .binInt (exec_addImm ..) fun _ _ => rfl
    · exact .binInt (exec_sub ..) fun _ _ => rfl
    · exact .binInt (exec_subImm ..) fun _ _ => rfl
    · exact .binInt (exec_mul ..) fun _ _ => rfl
    · exact .binInt (exec_mulImm ..) fun _ _ => rfl
    · exact .binInt (exec_min ..) fun _ _ => rfl
    · exact .binInt (exec_minImm ..) fun _ _ => rfl
    · exact .binInt (exec_max ..) fun _ _ => rfl
    · exact .binInt (exec_maxImm ..) fun _ _ => rfl
    · exact .binInt (exec_mulh ..) fun _ _ => rfl
    · exact .binInt (exec_mulhImm ..) fun _ _ => rfl
    · exact .unInt (exec_neg ..) fun _ _ => rfl
    · exact .unInt (exec_abs ..) fun _ _ => rfl
    · exact .runLanes (exec_mad ..) (execMad_runs ..) fun _ _ => rfl
    · exact .runLanes (exec_madw ..) (execMadw_runs ..) fun _ _ => rfl
  case reduction =>
    intro t x _ lo hi y
    have hy : y = t.num (t.wrap x) := num_reduce_wrap t x
    have hbounds : t.bounds = (lo, hi) := by
      show t.bounds = (if t.isS then _ else _, if t.isS then _ else _)
      unfold Ety.bounds
      split <;> rfl
    obtain ⟨hlo, hhi⟩ := t.num_bounds (t.wrap x)
    have hsat := num_reduce_sat t x
    rw [hbounds] at hlo hhi hsat
    refine ⟨hy ▸ hlo, hy ▸ hhi, ?_, hsat⟩
    rw [hy]
    exact dvd_sub_of_emod_eq (t.num_wrap_emod x).symm

end Sys2Proof.Machine
end

section
/-!
PROOFS. Floating-point arithmetic (R62, R64, R106 to R116).
-/

namespace Sys2Proof.Machine

/-- A floating-point result as `fpRes` gives it traps exactly for an enabled exception (R61, R64). -/
theorem YieldsFp.runLanes {s : State} {i : Instr} {f : Form} {op : Thread → List Nat → Nat × Fl}
    {o : Host.Outcome State Fault Refusal} (h : exec i s = o) (ho : o = s.runLanes i f fun u vs => fpRes u (op u vs)) :
    YieldsFp s i f fun u vs => ⟨(op u vs).1, (op u vs).2, none⟩ :=
  .of (h.trans ho) fun _ _ => rfl

/-- Settles O7: each instruction is a run of lanes that ends in `fpRes`, or in a value without exceptions. -/
theorem floatArithmetic : Obligations.FloatArithmetic := by
  intro s p d a b c imm t m A B C out path add sub mul least most scale S I
  refine ⟨?_, ?_, ?_, ?_, ?_, ?_, ?_, ?_, ?_, ?_, ?_, ?_, ?_, ?_, ?_, ?_, ?_⟩
  · exact .runLanes (exec_fadd ..) (binFp_runs ..)
  · exact .runLanes (exec_faddImm ..) (binFp_runs ..)
  · exact .runLanes (exec_fsub ..) (binFp_runs ..)
  · exact .runLanes (exec_fsubImm ..) (binFp_runs ..)
  · exact .runLanes (exec_fmul ..) (binFp_runs ..)
  · exact .runLanes (exec_fmulImm ..) (binFp_runs ..)
  · exact .runLanes (exec_fma ..) (execFma_runs ..)
  · exact .runLanes (exec_fmin ..) (minMax_runs ..)
  · exact .runLanes (exec_fminImm ..) (minMax_runs ..)
  · exact .runLanes (exec_fmax ..) (minMax_runs ..)
  · exact .runLanes (exec_fmaxImm ..) (minMax_runs ..)
  · exact .runLanes (exec_fabs ..) (rawFp_runs ..) fun _ _ => rfl
  · exact .runLanes (exec_fneg ..) (rawFp_runs ..) fun _ _ => rfl
  · exact .runLanes (exec_fclass ..) (rawFp_runs ..) fun _ _ => rfl
  · exact .runLanes (exec_frint ..) (execFrint_runs ..)
  · exact .runLanes (exec_fscale ..) (scaleFp_runs ..)
  · exact .runLanes (exec_fscaleImm ..) (scaleFp_runs ..)

end Sys2Proof.Machine
end

section
/-!
PROOFS. Conversions (R119 to R126).
-/

namespace Sys2Proof.Machine

/-- A result that raises nothing traps nowhere. -/
theorem fpRes_noFlags (u : Thread) (v : Nat) : fpRes u (v, 0) = justVal v := by
  have h : ¬ ((0 : Fl) &&& u.enables ≠ 0) := not_not_intro BitVec.zero_and
  exact if_neg h

/-- An illegal form never goes ahead, so that nothing is said of it. -/
theorem YieldsFp.ofIllegal {s : State} {i : Instr} {f : Form} {op : Thread → List Nat → LaneRes} (h : f.illegal ≠ none) :
    YieldsFp s i f op where
  completes _ _ _ hr := absurd hr.legal h
  traps _ _ _ hr := absurd hr.legal h

/-- The words of a legal form are neither ILLEGAL_OP nor of a type that is not assigned. -/
theorem Form.ill_of_legal {f : Form} (h : f.illegal = none) : f.ill = false ∧ f.ty.isSome = true := by
  unfold Form.illegal at h
  split at h
  case isTrue => cases h
  case isFalse hill =>
    split at h
    case isTrue => cases h
    case isFalse hres =>
      simp only [Bool.or_eq_true, not_or, Bool.not_eq_true] at hill hres
      exact ⟨hill.1.1.2, by simpa using hres.1.2⟩

/-- The type of a legal floating-point form is one that the instruction accepts (R106). -/
theorem fpForm_accepts {p : Option Pfx} {d : Ety} {acc : Accept} {ok : Ety → Bool} {srcs : Ety → List Src}
    {dst : Ety → Option Dst} {res : Ety → Bool} (h : (fpForm p d acc ok srcs dst res).illegal = none) :
    ok (elemTy p d) = true := by
  obtain ⟨hill, hty⟩ := Form.ill_of_legal h
  obtain ⟨t, ht⟩ := Option.isSome_iff_exists.1 hty
  simpa [fpForm, elemTy, show fty p d = some t from ht] using hill

/-- Saturation takes the default NaN of a floating format to +0 (R63). -/
theorem satF_defaultNan {t : Ety} (ht : isFp t = true) : t.satF t.defaultNan = 0 := by
  cases t <;> revert ht <;> decide

theorem finish_defaultNan {t : Ety} (ht : isFp t = true) (sat : Bool) :
    (t.finish false sat (t.defaultNan, 0)).1 = if sat then 0 else t.defaultNan := by
  simp only [Ety.finish, satF_defaultNan ht, Bool.false_and, Bool.false_eq_true, if_false]

/-- Settles O10: each conversion is a run of lanes that ends in `fpRes`; the NaN of `qscale` (R126) is +0 under SAT for
each type that `qscale` accepts, and a form of another type is illegal. -/
theorem conversions : Obligations.Conversions := by
  intro s p d a b dt st e bsel neg imm out D S h k t unpack
  refine ⟨?_, ?_, ?_, ?_, ?_, ?_⟩
  · exact .runLanes (exec_cvt ..) (execCvt_runs ..)
  · exact .runLanes (exec_unpack ..) (unpackFp_runs ..)
  · exact .runLanes (exec_unpackImm ..) (unpackFp_runs ..)
  · exact .runLanes (exec_tdec ..) (execTdec_runs ..) fun _ _ => rfl
  · exact .runLanes (exec_tenc ..) (execTenc_runs ..)
  · by_cases hlegal : (qscaleForm p d a b).illegal = none
    case neg => exact .ofIllegal hlegal
    have ht : isFp t = true := fpForm_accepts hlegal
    refine .of ((exec_qscale ..).trans (execQscale_runs ..)) fun u vs => ?_
    dsimp only
    split
    · rw [finish_defaultNan ht, ← fpRes_noFlags u]
      rfl
    · rfl

end Sys2Proof.Machine
end

section
/-!
PROOFS. Device work for threads (R168, R180, R304, R309): a flush that its own first write takes out of accumulator state.
-/

namespace Sys2Proof.Machine

/-! ## What a status leaves of the accumulator lines (R168) -/

/-- Steps of which none changes the accumulator lines. -/
theorem shadows_foldl {α : Type} {f : State → α → State} (h : ∀ s a, (f s a).shadows = s.shadows) (l : List α) (s : State) :
    (l.foldl f s).shadows = s.shadows :=
  foldl_keeps (fun t => t.shadows = s.shadows) (fun t a ht => (h t a).trans ht) l rfl

theorem State.groupUp_shadows (s : State) (co : Nat) (ks : List Nat) : (s.groupUp co ks).shadows = s.shadows := by
  unfold State.groupUp
  split <;> rfl

theorem State.regroup_shadows (s : State) (co : Nat) (ks : List Nat) : (s.regroup co ks).shadows = s.shadows := by
  unfold State.regroup
  split
  · rfl
  · exact shadows_foldl (fun s _ => s.groupUp_shadows co _) _ s

theorem State.release_shadows (s : State) (co : Nat) (ks : List Nat) : (s.release co ks).shadows = s.shadows := by
  unfold State.release
  split
  · rfl
  · exact shadows_foldl (fun s _ => s.regroup_shadows co _) _ s

theorem State.queueOp_shadows (s : State) (co k : Nat) (ks : List Nat) (md cv : Nat) (d : MDesc) (fl : MFlags) :
    (s.queueOp co k ks md cv d fl).shadows = s.shadows := by
  unfold State.queueOp
  split
  · rfl
  · exact State.bump_shadows ..

theorem State.completeRound_shadows (s : State) (co cv : Nat) : (s.completeRound co cv).shadows = s.shadows := by
  unfold State.completeRound
  split
  · rfl
  · dsimp only
    split
    · rfl
    · split
      · rfl
      · rw [State.release_shadows, State.modCohort_shadows]
        split
        · exact State.queueOp_shadows ..
        · exact State.bump_shadows ..

theorem State.putResult_shadows (s : State) (co : Nat) (p : Pend) : (s.putResult co p).shadows = s.shadows := by
  unfold State.putResult
  split
  · refine shadows_foldl (fun s l => ?_) _ s
    dsimp only
    split <;> rfl
  · split <;> rfl
  · rfl

theorem State.putEntries_shadows (s : State) (co : Nat) (p : Pend) : (s.putEntries co p).shadows = s.shadows := by
  unfold State.putEntries
  split <;> rfl

theorem State.applyPend_shadows (s : State) (co id : Nat) : (s.applyPend co id).shadows = s.shadows := by
  refine (shadows_foldl (fun s cv => s.completeRound_shadows co cv) _ _).trans ?_
  unfold State.landPend
  split
  · rfl
  · rw [State.modCohort_shadows, State.putEntries_shadows, State.putResult_shadows]

theorem State.fillStatus_shadows (s : State) (co id v : Nat) : (s.fillStatus co id v).shadows = s.shadows := by
  unfold State.fillStatus
  split
  · rfl
  · exact shadows_foldl (fun s j => (State.applyPend_shadows _ co j).trans (State.modCohort_shadows ..)) _ s

/-! ## A flush whose first element ends its context -/

/-- A flush that no line refuses and that posts no record is performed, and its status follows (R180). -/
theorem exec_flushComplete_open {s w : State} {co id : Nat} {c : Cohort} {p : Pend} {f : FlushOp} (hc : find? s.cohorts co = some c)
    (hp : find? c.pends id = some p) (hk : p.kind = .flush f) (ho : s.flushOpen f = (true, w)) (he : f.evt = false) :
    exec (.flushComplete co id) s = .next ((w.flushTile c.ci f).2.fillStatus co id (w.flushTile c.ci f).1) := by
  simp only [exec_flushComplete, execFlushComplete, hc, hp, hk, ho, he, Bool.false_eq_true, if_false, if_true]

/-- A tile of two rows of one element, to be kept, whose elements go to the first eight bytes of line 2 of a page of world 1. -/
def staleFlush : FlushOp where
  md := 0
  desc := {
    aaddr := 0, baddr := 0, caddr := 0, astride := 0, bstride := 0, cstride := 128, fstride := 4, k := 32, m := 2, n := 1
    efmt := 1, afmt := 3, promo := 0, sca := 0, scb := 0, bsela := 0, bselb := 0 }
  keep := true
  evt := false
  ety := .f32
  rnd := .rne
  sat := false
  lines := [0, 128]
  dests := [(256, 1), (260, 1)]

def stalePend : Pend := ⟨.flush staleFlush, .sreg 0 .s32, 0, [(0, 0)], 0⟩

def staleCohort : Cohort := { placedCohort with ctx := 1, world := 1, pends := [(0, stalePend)] }

/-- The flush is outstanding in a context of world 1, which runs with its second seal key. The accumulator line of the tile's
second row is poisoned. Line 2, which receives both elements, is sealed under the first key. -/
def staleState : State := { State.reset with
  cohorts := [(0, staleCohort)]
  lines := [(2, { Line.none with tag := 1, epoch := 1 })]
  shadows := [(0, ⟨1, 1, .f32, List.replicate 16 0, false⟩), (1, ⟨1, 1, .f32, List.replicate 16 0, true⟩)]
  xlt := { State.reset.xlt with ctxs := [(1, ⟨0, 1, false, false, 0, 0, 0, true⟩)] }
  sec := { State.reset.sec with tdis := [(1, ⟨2, true, 2⟩)] } }

/-- The poisoned accumulator line is to have line 2 written in full, so that the checks before the flush pass over line 2. -/
theorem flushOpen_staleState : staleState.flushOpen staleFlush = (true, staleState) := rfl

/-- The element of the first row is a partial write of line 2, which the stale seal refuses (R309): the TDI of world 1 goes to
ERROR, its context ends, and the context's accumulator lines go with it (R278, R304). -/
theorem flushTile_staleState : find? (staleState.flushTile 0 staleFlush).2.shadows 0 = none := by decide +kernel

/-- Both lines of the tile are in accumulator state before the flush. -/
theorem shadows_staleState : ∀ pa ∈ staleFlush.lines, find? staleState.shadows (pa / 128) ≠ none := by decide

/-- After the flush, which was to keep it, the first line of the tile is out of accumulator state. -/
theorem exec_flushComplete_staleState :
    ∃ t, exec (.flushComplete 0 0) staleState = .next t ∧ find? t.shadows 0 = none := by
  refine ⟨_, exec_flushComplete_open (c := staleCohort) (p := stalePend) rfl rfl rfl flushOpen_staleState rfl, ?_⟩
  rw [State.fillStatus_shadows]
  exact flushTile_staleState

/-- An operation for the clauses about matrix units, which the refutation does not use. -/
def anyOp : MatOp where
  cohort := 0
  ctx := 0
  world := 0
  md := 0
  cv := 0
  desc := staleFlush.desc
  flags := ⟨false, false, false, 0⟩
  scA := []
  scB := []
  krow := 0
  rowsA := []
  rowsB := []
  acc := []
  lines := []
  parked := none
  started := false
  result := none
  serial := 0
  stale := []

/-- Refutes O54: its clause on flushes says that a flush with KEEP leaves every accumulator line as it was, wherever the checks
before it pass. In `staleState` they pass, since the poisoned line of the tile is to have the destination line written in full;
but the element before it is a partial write of that line, whose stale seal ends the context and with it its accumulator lines. -/
theorem not_deviceWorkForThreads : ¬ Obligations.DeviceWorkForThreads := by
  intro h
  obtain ⟨-, hflush, -⟩ := h staleState staleState staleState 0 0 0 0 0 0 staleCohort stalePend ⟨0, 0, 0, []⟩ anyOp
    ⟨0, 0, 0, 0, 0, .f32, 0⟩ ⟨0, 0, .f32, [], false⟩
  obtain ⟨-, hopen⟩ := hflush rfl rfl staleFlush rfl
  obtain ⟨v, u, hexec, -, hall⟩ := hopen staleState flushOpen_staleState rfl
  obtain ⟨-, hkept, -⟩ := hall fun n ⟨pa, hpa, hn⟩ => hn ▸ shadows_staleState pa hpa
  obtain ⟨t, ht, hlost⟩ := exec_flushComplete_staleState
  have hu : t = u.fillStatus 0 0 v := Host.Outcome.next.inj (ht.symm.trans hexec)
  rw [hu, State.fillStatus_shadows, hkept] at hlost
  exact shadows_staleState 0 (by decide) hlost

end Sys2Proof.Machine
end

section
/-!
PROOFS. Floating-point compares (R111): what a condition code gives, and `fcmp` as a run of lanes that ends in a predicate.
-/

namespace Sys2Proof.Machine

/-- The predicate of a condition code and its NV (R111): `ne` and `uno` hold of unordered sources and the other codes do not.
Any NaN raises NV under the codes that ask which source is less, and a signalling NaN under the others. -/
theorem condFp_code (cond : BitVec 4) (x y : FVal) :
    condFp cond.toNat x y =
      (let ord := !x.isNan && !y.isNan
       let o := cmpVal x y
       (if cond = 0 then ord && o == .eq else if cond = 1 then !ord || o != .eq else if cond = 2 then ord && o == .lt
          else if cond = 3 then ord && o != .gt else if cond = 4 then ord && o == .gt else if cond = 5 then ord && o != .lt
          else if cond = 6 then ord else !ord,
        if (if 2 ≤ cond.toNat ∧ cond.toNat ≤ 5 then !ord else x.isSnan || y.isSnan) = true then flNV else 0)) := by
  have hord : (!x.isNan && !y.isNan) = !(x.isNan || y.isNan) := (Bool.not_or ..).symm
  simp only [hord, Bool.not_not, ← BitVec.toNat_inj]
  unfold condFp
  dsimp only
  split
  case h_8 h0 h1 h2 h3 h4 h5 h6 =>
    simp only [imp_false] at h0 h1 h2 h3 h4 h5 h6
    have hquiet : ¬ (2 ≤ cond.toNat ∧ cond.toNat ≤ 5) := by omega
    simp [h0, h1, h2, h3, h4, h5, h6, hquiet]
  all_goals next hcode => simp [hcode]

/-- A floating-point predicate as `fpPred` gives it traps exactly for an enabled exception (R61, R64). -/
theorem YieldsFp.runPred {s : State} {i : Instr} {f : Form} {q : Nat} {op : Thread → List Nat → Bool × Fl}
    {o : Host.Outcome State Fault Refusal} (h : exec i s = o)
    (ho : o = s.runLanes i f fun u vs => fpPred u q (op u vs).1 (op u vs).2) :
    YieldsFp s i f fun u vs => ⟨0, (op u vs).2, some (q, (op u vs).1)⟩ :=
  .of (h.trans ho) fun _ _ => rfl

/-- Settles O8: both forms of `fcmp` are a run of lanes that ends in the predicate and the NV of `condFp`. -/
theorem floatCompare : Obligations.FloatCompare := by
  intro s p q cond a b imm t res
  have hres : res = fun u vs =>
      let r := condFp cond.toNat (fin t u (arg vs 0)) (fin t u (arg vs 1))
      ⟨0, r.2, some (q.toNat, r.1)⟩ := by
    funext u vs
    dsimp only
    rw [condFp_code]
    rfl
  rw [hres]
  exact ⟨.runPred (exec_fcmp ..) (cmpFp_runs ..), .runPred (exec_fcmpImm ..) (cmpFp_runs ..)⟩

end Sys2Proof.Machine
end

section
/-!
PROOFS. Packed arithmetic and dot products (R117, R118, R121).
-/

namespace Sys2Proof.Machine

/-- Settles O9: each instruction is a run of lanes that ends in `fpRes`, with the flags of both elements together. -/
theorem packedArithmetic : Obligations.PackedArithmetic := by
  intro s p d a b c el both path h g k fma dot abc
  refine ⟨?_, ?_, ?_, ?_, ?_, ?_⟩
  · exact .runLanes (exec_hadd2 ..) (packedFp_runs ..)
  · exact .runLanes (exec_hfma2 ..) (packedFp_runs ..)
  · exact .runLanes (exec_bfma2 ..) (packedFp_runs ..)
  · exact .runLanes (exec_dot2 ..) (dotFp_runs ..)
  · exact .runLanes (exec_dot4 ..) (dotFp_runs ..)
  · exact .runLanes (exec_pack ..) (execPack_runs ..)

end Sys2Proof.Machine
end

section
/-!
PROOFS. Operations across lanes (R129 to R135): what each gives a lane, from the lanes that contribute to it.
-/

namespace Sys2Proof.Machine

/-- A cross-lane instruction that gives each lane a value alone. -/
theorem CrossYields.ofVal {s : State} {i : Instr} {f : Form} {mk : Bool} {m : Sel} {val : Thread → List XLane → XLane → Nat}
    {o : Host.Outcome State Fault Refusal} (h : exec i s = o)
    (ho : o = s.crossLanes i f mk m fun u all l => justVal (val u all l)) :
    CrossYields s i f mk m fun u all l => onlyVal (val u all l) :=
  .of (h.trans ho) fun _ _ _ _ => rfl

/-! ## Reads of another lane (R132, R133) -/

/-- What a lane reads of the source lane it names: the lane's first value, and 0 where it names none or one that does not
contribute. -/
def readLane (all : List XLane) (l : XLane) (src : Option Nat) : Nat :=
  match src with
  | some n => if l.peers.contains n then laneVal all n 0 else 0
  | none => 0

theorem justVal_readLane (all : List XLane) (l : XLane) (src : Option Nat) :
    (match src with
      | some n => justVal (if l.peers.contains n then laneVal all n 0 else 0)
      | none => justVal 0) = justVal (readLane all l src) := by
  cases src <;> rfl

theorem shuffle_reads (i : Instr) (kind : Shuffle) (p : Option Pfx) (d a b c : Sel) (mk wr : Bool) (seg : BitVec 3) (ii : Bool)
    (idx : BitVec 6) (s : State) :
    shuffle i kind p d a b c mk wr seg ii idx s = s.crossLanes i (shuffleForm p d a b c mk seg ii) mk c fun _ all l =>
      justVal (readLane all l (shuffleSrc kind (segSize seg.toNat) (l.key % laneWidth)
        (if ii then idx.toNat else arg l.vals 1 % 2 ^ 32) (if ii then idx.toInt else toSigned 32 (arg l.vals 1)) wr)) := by
  simp only [← justVal_readLane]
  exact shuffle_runs ..

theorem bcast_reads (p : Option Pfx) (d a c : Sel) (mk : Bool) (lsel : BitVec 2) (lane : BitVec 5) (s : State) :
    execBcast p d a c mk lsel lane s = s.crossLanes (.bcast p d a c mk lsel lane) (bcastForm p d a c mk lsel lane) mk c
      fun _ all l => justVal (readLane all l (bcastFrom lsel lane l.peers)) := by
  simp only [← justVal_readLane]
  exact bcast_runs ..

/-! ## Votes (R134) -/

theorem votes_eq_getD (s : State) (na : Bool) (a : BitVec 3) (k : Nat) :
    s.votes na a k = ((s.sel.bind fun g => s.thread? g.1 k).map fun u => u.preds.getLsbD a.toNat != na).getD false := by
  unfold State.votes
  cases s.sel.bind fun g => s.thread? g.1 k <;> rfl

/-- What a vote gives from lanes `P`, whose predicates are `yes`, for each code of its operation. -/
theorem voteOf_code {α : Type} (op : BitVec 3) (P : List α) (key : α → Nat) (yes : α → Bool) :
    voteOf op.toNat (P.map fun q => (key q, yes q)) =
      (let Y := P.filter yes
       if op = 0 then bitsIn (Y.map key) 0 else if op = 1 then (!Y.isEmpty).toNat
        else if op = 2 then (Y.length == P.length).toNat else if op = 3 then (Y.isEmpty || Y.length == P.length).toNat
        else Y.length) := by
  have hyes : ((P.map fun q => (key q, yes q)).filter Prod.snd).map Prod.fst = (P.filter yes).map key := by
    rw [List.filter_map, List.map_map]
    rfl
  unfold voteOf
  simp only [hyes, List.isEmpty_map, List.length_map, ← BitVec.toNat_inj]
  split
  case h_5 h0 h1 h2 h3 =>
    simp only [imp_false] at h0 h1 h2 h3
    simp [h0, h1, h2, h3]
  all_goals next hcode => simp [hcode]

/-! ## Steps of a reduction (R135) -/

/-- A floating-point result that raises no enabled exception is done (R61). -/
theorem fpRes_of_untrapped {u : Thread} {r : Nat × Fl} (h : r.2 &&& u.enables = 0) : fpRes u r = .done ⟨r.1, r.2, none⟩ :=
  if_neg (not_not_intro h)

/-- On floats, `add` passes through R64; any other code is `min` or `max` (R109), whose result SAT clamps. -/
theorem reduceOp_of_isF {t : Ety} (ht : t.isF = true) (p : Option Pfx) (u : Thread) (op : BitVec 3) (x y : Nat) :
    reduceOp p u t op.toNat x y = fpRes u
      (if op = 0 then fout p t u (addVal (roundOf p u) (fin t u x) (fin t u y))
       else
        let e := minMaxFp (op == 1) t (t.flush u.ftz x) (t.flush u.ftz y)
        (if satOf p then t.satF e.1 else e.1, e.2)) := by
  have hmin : (op == 1) = (op.toNat == 1) := by
    rw [Bool.eq_iff_iff, beq_iff_eq, beq_iff_eq, ← BitVec.toNat_inj]
    rfl
  simp only [hmin, ← BitVec.toNat_inj]
  unfold reduceOp
  rw [if_pos ht]
  dsimp only
  split
  case h_1 hadd => simp [hadd, fin]
  case h_2 hother =>
    simp only [imp_false] at hother
    simp [hother]

/-- On integers and bit patterns, `add` is reduced to the type, and the other codes give one of their operands or a bitwise
combination. -/
theorem reduceOp_of_not_isF {t : Ety} (ht : ¬ t.isF = true) (p : Option Pfx) (u : Thread) (op : BitVec 3) (x y : Nat) :
    reduceOp p u t op.toNat x y = .done
      (if op = 0 then onlyVal (reduce t (satOf p) (t.num x + t.num y))
       else if op = 1 then onlyVal (reduce t false (minInt (t.num x) (t.num y)))
       else if op = 2 then onlyVal (reduce t false (maxInt (t.num x) (t.num y)))
       else onlyVal (if op = 3 then x &&& y else if op = 4 then x ||| y else x ^^^ y)) := by
  simp only [← BitVec.toNat_inj]
  unfold reduceOp
  rw [if_neg ht]
  split
  case h_6 h0 h1 h2 h3 h4 =>
    simp only [imp_false] at h0 h1 h2 h3 h4
    simp [h0, h1, h2, h3, h4, justVal, onlyVal]
  all_goals next hcode => simp [hcode, justVal, onlyVal]

/-- Settles O13: the shuffles and `bcast` read one lane, `vote` counts predicates, and `lred` combines two lanes, each over
the contributing lanes of `CrossYields`; `match` takes every active lane. -/
theorem crossLaneInstructions : Obligations.CrossLaneInstructions := by
  intro s p d a b c mk wr ii na seg op k qa idx lsel lane S U I j from? shuf F yes t N
  refine ⟨?shfl, ?shflRel, ?shflXor, ?bcast, ?vote, ?lred, ?matchLanes⟩
  case shfl => exact .ofVal (exec_shfl ..) (shuffle_reads ..)
  case shflRel => exact .ofVal (exec_shflRel ..) (shuffle_reads ..)
  case shflXor => exact .ofVal (exec_shflXor ..) (shuffle_reads ..)
  case bcast => exact .ofVal (exec_bcast ..) (bcast_reads ..)
  case vote =>
    refine .of ((exec_vote ..).trans (vote_runs ..)) fun _ all l _ => ?_
    rw [voteOf_code]
    simp only [votes_eq_getD]
    rfl
  case lred =>
    refine .of ((exec_lred ..).trans (lred_runs ..)) fun u all l hcalm => ?_
    dsimp only at hcalm ⊢
    by_cases hpeer : l.peers.contains (l.key % 32 ^^^ 32 / 2 ^ k.toNat) = true
    case neg =>
      refine (if_neg hpeer).trans ?_
      rw [if_pos (by simpa using hpeer)]
      rfl
    case pos =>
      refine (if_pos hpeer).trans ?_
      rw [if_neg (by simpa using hpeer)] at hcalm ⊢
      by_cases ht : t.isF = true
      · rw [if_pos ht] at hcalm ⊢
        exact (reduceOp_of_isF ht ..).trans (fpRes_of_untrapped hcalm)
      · rw [if_neg ht]
        exact reduceOp_of_not_isF ht ..
  case matchLanes => exact fun _ _ _ hready hr => matchLanes_completes hready hr

end Sys2Proof.Machine
end

section
/-!
PROOFS. Clocks and droop (R212, R220 to R226, R241): what an edge leaves of the droop state, what a firing and a hop change,
and that no hop outlasts its ticks.
-/

namespace Sys2Proof.Machine

/-! ## The droop registers (R220) -/

/-- A threshold as a write of DRP_CTL stores it. -/
def storedThr (n : Nat) : Nat := max 4 (min 100 n)

/-- DRP_CTL after a write: EN and THR, and zero between them. -/
def drpCtlWord (v : Word) : Word := BitVec.ofNat 32 ((v.getLsbD 31).toNat * 2 ^ 31 + storedThr (v.toNat % 128))

theorem storedThr_eq (n : Nat) : storedThr n = if n < 4 then 4 else if 100 < n then 100 else n := by
  unfold storedThr
  split
  · omega
  · split <;> omega

theorem storedThr_le (n : Nat) : storedThr n ≤ 100 := by
  unfold storedThr
  omega

theorem drpCtlWord_toNat (v : Word) : (drpCtlWord v).toNat = (v.getLsbD 31).toNat * 2 ^ 31 + storedThr (v.toNat % 128) := by
  have hen := Bool.toNat_le (v.getLsbD 31)
  have hthr := storedThr_le (v.toNat % 128)
  rw [drpCtlWord, BitVec.toNat_ofNat]
  exact Nat.mod_eq_of_lt (by omega)

theorem drpCtlWord_fields (v : Word) : (drpCtlWord v).getLsbD 31 = v.getLsbD 31 ∧ (drpCtlWord v).toNat / 2 ^ 7 % 2 ^ 24 = 0 ∧
    (drpCtlWord v).toNat % 2 ^ 7 = storedThr (v.toNat % 128) := by
  have hword := drpCtlWord_toNat v
  have hen := Bool.toNat_le (v.getLsbD 31)
  have hthr := storedThr_le (v.toNat % 128)
  refine ⟨?_, by omega, by omega⟩
  have hbit : (drpCtlWord v).toNat / 2 ^ 31 % 2 = (v.getLsbD 31).toNat := by omega
  rw [← bit_toNat, bit, hbit]
  cases v.getLsbD 31 <;> rfl

theorem exec_drpCtlWrite_eq {s : State} {ci : Nat} (h : s.isCluster ci = true) (v : Word) :
    exec (.drpCtlWrite ci v) s = .next (s.modClock ci fun k => { k with drpCtl := drpCtlWord v }) := by
  rw [exec_drpCtlWrite, execDrpCtlWrite, if_pos h, bits_low, bit_toNat]
  rfl

/-! ## A firing (R220 to R223) -/

theorem State.cluster_of_clusters {s t : State} (h : t.clusters = s.clusters) (ci : Nat) : t.cluster ci = s.cluster ci := by
  rw [State.cluster, h]
  rfl

@[simp] theorem State.clock_modClock (s : State) (ci : Nat) (f : Clock → Clock) :
    ((s.modClock ci f).cluster ci).clock = f (s.cluster ci).clock := by
  rw [State.modClock, State.cluster_modCluster]

/-- A change of a clock is known by what it makes of the clock that stands there. -/
theorem State.modClock_congr {s : State} {ci : Nat} {f g : Clock → Clock} (h : f (s.cluster ci).clock = g (s.cluster ci).clock) :
    s.modClock ci f = s.modClock ci g := by
  unfold State.modClock State.modCluster
  dsimp only
  rw [h]

/-- The detector of a cluster fires on a shortfall: it is armed, has not fired, and the shortfall is above its threshold. -/
def State.Fires (s : State) (ci : Nat) (peak : BitVec 8) : Prop :=
  s.isCluster ci = true ∧ (s.cluster ci).clock.drpCtl.getLsbD 31 = true ∧ (s.cluster ci).clock.tripped = false ∧
    (s.cluster ci).clock.drpCtl.toNat % 128 < peak.toNat

/-- What a firing enters outside its clock: the count, the event and, where no response is in progress, the start of one. That
a response starts once, and lasts until all that a firing causes is over, is the model's choice (log entry 32). -/
def State.enterFiring (s : State) (ci : Nat) (peak : BitVec 8) (hop : Bool) : State :=
  ((if (s.cluster ci).clock.responding then s else s.protEvent 1 true (dieOf ci) (laneIsland ci % 256)).bump
    .drpFires (laneIsland ci) 1).bbx 2 (dieOf ci) (clusterCode ci) 0 0xFF (evData (toBytes peak.toNat 1 ++ toBytes hop.toNat 1))

@[simp] theorem State.protEvent_clusters (s : State) (action : Nat) (start : Bool) (die isl : Nat) :
    (s.protEvent action start die isl).clusters = s.clusters := State.bbx_clusters ..

@[simp] theorem State.enterFiring_clusters (s : State) (ci : Nat) (peak : BitVec 8) (hop : Bool) :
    (s.enterFiring ci peak hop).clusters = s.clusters := by
  rw [State.enterFiring, State.bbx_clusters, State.bump_clusters]
  split
  · rfl
  · rw [State.protEvent_clusters]

theorem State.fires_iff (s : State) (ci : Nat) (peak : BitVec 8) : s.Fires ci peak ↔
    ¬ ((!s.isCluster ci) = true ∨ (!(s.cluster ci).clock.drpCtl.getLsbD 31) = true ∨ (s.cluster ci).clock.tripped = true ∨
      peak.toNat ≤ (s.cluster ci).clock.thr) := by
  have hthr : (s.cluster ci).clock.thr = (s.cluster ci).clock.drpCtl.toNat % 128 := bits_low ..
  simp [State.Fires, hthr]

theorem exec_droopFire_of_not_fires {s : State} {ci : Nat} {peak : BitVec 8} (h : ¬ s.Fires ci peak) :
    exec (.droopFire ci peak) s = .next s := by
  rw [State.fires_iff, Classical.not_not] at h
  rw [exec_droopFire, execDroopFire, if_pos h]

/-- A firing in a hop holds issue (R223). -/
theorem exec_droopFire_in_hop {s : State} {ci : Nat} {peak : BitVec 8} (h : s.Fires ci peak)
    (hhop : (s.cluster ci).clock.hop.isSome = true) : exec (.droopFire ci peak) s =
    .next (((s.enterFiring ci peak true).bump .drpHophold (laneIsland ci) 1).modClock ci fun k =>
      { k with tripped := true, peak := peak.toNat, fired := true }) := by
  rw [exec_droopFire, execDroopFire, if_neg ((s.fires_iff ..).1 h), hhop]
  rfl

/-- A firing outside a hop (R221, R222). -/
theorem exec_droopFire_outside_hop {s : State} {ci : Nat} {peak : BitVec 8} (h : s.Fires ci peak)
    (hhop : (s.cluster ci).clock.hop = none) : exec (.droopFire ci peak) s =
    .next ((s.enterFiring ci peak false).modClock ci fun k =>
      if k.str then { k with tripped := true, peak := peak.toNat, arm := .front }
      else { k with tripped := true, peak := peak.toNat, strDue := true, arm := .lane }) := by
  have hgap : (s.cluster ci).clock.hop.isSome = false := by rw [hhop]; rfl
  rw [exec_droopFire, execDroopFire, if_neg ((s.fires_iff ..).1 h), hgap]
  rfl

/-- A firing in a stretch begins none, and issue is halved from the next front-end edge on (R222). -/
theorem exec_droopFire_in_stretch {s : State} {ci : Nat} {peak : BitVec 8} (h : s.Fires ci peak)
    (hhop : (s.cluster ci).clock.hop = none) (hstr : (s.cluster ci).clock.str = true) : exec (.droopFire ci peak) s =
    .next ((s.enterFiring ci peak false).modClock ci fun k => { k with tripped := true, peak := peak.toNat, arm := .front }) := by
  rw [exec_droopFire_outside_hop h hhop]
  refine congrArg _ (State.modClock_congr (if_pos ?_))
  rwa [State.cluster_of_clusters (s.enterFiring_clusters ..)]

/-- A firing outside a stretch begins one with the next lane cycle (R221). -/
theorem exec_droopFire_outside_stretch {s : State} {ci : Nat} {peak : BitVec 8} (h : s.Fires ci peak)
    (hhop : (s.cluster ci).clock.hop = none) (hstr : (s.cluster ci).clock.str = false) : exec (.droopFire ci peak) s =
    .next ((s.enterFiring ci peak false).modClock ci fun k =>
      { k with tripped := true, peak := peak.toNat, strDue := true, arm := .lane }) := by
  rw [exec_droopFire_outside_hop h hhop]
  refine congrArg _ (State.modClock_congr (if_neg ?_))
  rw [State.cluster_of_clusters (s.enterFiring_clusters ..), hstr]
  exact Bool.false_ne_true

/-! ## What an edge leaves of a clock (R221, R222) -/

section
variable (k : Clock)

theorem Clock.laneEdge_strDue : k.laneEdge.strDue = false := by
  unfold Clock.laneEdge
  cases h : k.strDue <;> cases k.str <;> simp [h, apply_ite Clock.strDue]

theorem Clock.laneEdge_str : k.laneEdge.str = (k.strDue || k.str && decide (0 < k.stretch)) := by
  unfold Clock.laneEdge
  cases k.strDue <;> cases hs : k.str <;> simp [hs, apply_ite Clock.str]

theorem Clock.laneEdge_stretch :
    k.laneEdge.stretch = if k.strDue then 5 else if k.str then k.stretch - 1 else k.stretch := by
  unfold Clock.laneEdge
  cases k.strDue <;> cases k.str <;> simp [apply_ite Clock.stretch]

theorem Clock.laneEdge_arm : k.laneEdge.arm = if k.arm = .lane then .front else k.arm := by
  unfold Clock.laneEdge
  cases k.strDue <;> cases k.str <;> exact apply_ite Clock.arm ..

theorem Clock.frontEdge_arm : k.frontEdge.arm = if k.arm = .front then .no else k.arm := by
  unfold Clock.frontEdge
  cases k.halving <;> exact apply_ite Clock.arm ..

theorem Clock.frontEdge_halving :
    k.frontEdge.halving = (decide (k.arm = .front) || k.halving && decide (1 < k.halve)) := by
  unfold Clock.frontEdge
  cases hh : k.halving <;> by_cases ha : k.arm = .front <;> simp [hh, ha]

theorem Clock.frontEdge_halve :
    k.frontEdge.halve = if k.arm = .front then 64 else if k.halving then k.halve - 1 else k.halve := by
  unfold Clock.frontEdge
  cases hh : k.halving <;> by_cases ha : k.arm = .front <;> simp [ha]

end

/-- Of a stretch that is due, each of the first six lane edges begins a cycle, and the count falls from 5 to 0. -/
theorem Clock.repeat_laneEdge {k : Clock} (h : k.strDue = true) {n : Nat} (hn : n ≤ 5) :
    (Nat.repeat Clock.laneEdge (n + 1) k).strDue = false ∧ (Nat.repeat Clock.laneEdge (n + 1) k).str = true ∧
      (Nat.repeat Clock.laneEdge (n + 1) k).stretch = 5 - n := by
  refine ⟨Clock.laneEdge_strDue _, ?_⟩
  induction n with
  | zero =>
    change k.laneEdge.str = true ∧ k.laneEdge.stretch = 5
    simp [Clock.laneEdge_str, Clock.laneEdge_stretch, h]
  | succ n ih =>
    obtain ⟨hstr, hleft⟩ := ih (by omega)
    have hdue : (Nat.repeat Clock.laneEdge (n + 1) k).strDue = false := Clock.laneEdge_strDue _
    rw [Nat.repeat, Clock.laneEdge_str, Clock.laneEdge_stretch, hdue, hstr, hleft]
    have hmore : 0 < 5 - n := by omega
    exact ⟨decide_eq_true hmore, rfl⟩

/-- A stretch that is due lasts for the lane cycles that the next six edges begin, and the seventh ends it. -/
theorem Clock.repeat_laneEdge_str {k : Clock} (h : k.strDue = true) {n : Nat} (hn : 1 ≤ n) (hn' : n ≤ 7) :
    (Nat.repeat Clock.laneEdge n k).str = decide (n ≤ 6) := by
  obtain ⟨n, rfl⟩ := Nat.exists_eq_add_of_le' hn
  by_cases hlast : n ≤ 5
  · rw [(Clock.repeat_laneEdge h hlast).2.1, decide_eq_true (by omega)]
  · obtain rfl : n = 6 := by omega
    obtain ⟨hdue, hstr, hleft⟩ := Clock.repeat_laneEdge h (n := 5) (by omega)
    rw [Nat.repeat, Clock.laneEdge_str, hdue, hstr, hleft]
    rfl

/-- Of the 64 front-end cycles that the next edge begins, each edge counts one. -/
theorem Clock.repeat_frontEdge {k : Clock} (h : k.arm = .front) {n : Nat} (hn : n ≤ 63) :
    (Nat.repeat Clock.frontEdge (n + 1) k).arm = .no ∧ (Nat.repeat Clock.frontEdge (n + 1) k).halving = true ∧
      (Nat.repeat Clock.frontEdge (n + 1) k).halve = 64 - n := by
  induction n with
  | zero =>
    change k.frontEdge.arm = .no ∧ k.frontEdge.halving = true ∧ k.frontEdge.halve = 64
    simp [Clock.frontEdge_arm, Clock.frontEdge_halving, Clock.frontEdge_halve, h]
  | succ n ih =>
    obtain ⟨harm, hhalving, hleft⟩ := ih (by omega)
    rw [Nat.repeat, Clock.frontEdge_arm, Clock.frontEdge_halving, Clock.frontEdge_halve, harm, hhalving, hleft]
    have hmore : 1 < 64 - n := by omega
    exact ⟨rfl, decide_eq_true hmore, rfl⟩

/-- Halved issue that the next front-end edge begins lasts for 64 front-end cycles, and the edge after them ends it. -/
theorem Clock.repeat_frontEdge_halving {k : Clock} (h : k.arm = .front) {n : Nat} (hn : 1 ≤ n) (hn' : n ≤ 65) :
    (Nat.repeat Clock.frontEdge n k).halving = decide (n ≤ 64) := by
  obtain ⟨n, rfl⟩ := Nat.exists_eq_add_of_le' hn
  by_cases hlast : n ≤ 63
  · rw [(Clock.repeat_frontEdge h hlast).2.1, decide_eq_true (by omega)]
  · obtain rfl : n = 64 := by omega
    obtain ⟨harm, hhalving, hleft⟩ := Clock.repeat_frontEdge h (n := 63) (by omega)
    rw [Nat.repeat, Clock.frontEdge_halving, harm, hhalving, hleft]
    rfl

/-- Halved issue that waits for the end of a lane cycle waits through any front-end edges. -/
theorem Clock.repeat_frontEdge_arm_lane {k : Clock} (h : k.arm = .lane) (n : Nat) :
    (Nat.repeat Clock.frontEdge n k).arm = .lane := by
  induction n with
  | zero => exact h
  | succ n ih => rw [Nat.repeat, Clock.frontEdge_arm, ih, if_neg (by decide)]

/-! ## An edge of a cluster (R213, R225) -/

@[simp] theorem State.noteDroop_clusters (s : State) (ci : Nat) (was : Bool) : (s.noteDroop ci was).clusters = s.clusters := by
  unfold State.noteDroop
  split
  · rw [State.protEvent_clusters]
  · rfl

@[simp] theorem State.viewLag_clusters (s : State) (f : FrontEnd) (w : Nat × Nat) : (s.viewLag f w).2.clusters = s.clusters := by
  unfold State.viewLag
  dsimp only
  split
  · rfl
  · rw [State.choose_clusters]

theorem State.beginFront_clock (s : State) (ci sp : Nat) (w : Nat × Nat) :
    ((s.beginFront ci sp w).cluster ci).clock = (s.cluster ci).clock := by
  unfold State.beginFront
  rw [State.cluster_modCluster, State.cluster_of_clusters (s.viewLag_clusters ..)]

/-- A front-end edge changes the clock as `Clock.frontEdge` says. -/
theorem State.frontEdge_clock {s : State} {ci : Nat} (h : s.frontStopped ci = false) :
    ((s.frontEdge ci).cluster ci).clock = (s.cluster ci).clock.frontEdge := by
  rw [State.frontEdge, h, if_neg Bool.false_ne_true]
  refine foldl_keeps (fun t : State => (t.cluster ci).clock = (s.cluster ci).clock.frontEdge)
    (fun t sp ht => (t.beginFront_clock ci sp _).trans ht) _ ?_
  rw [State.cluster_of_clusters (State.noteDroop_clusters ..), State.cluster_modCluster]

/-- The FIFOs of a cluster hold nothing for the lanes. -/
def Cluster.Drained (c : Cluster) : Prop := ∀ f ∈ c.fe, f.fifo = []

theorem Cluster.Drained.nth_fifo {c : Cluster} (h : c.Drained) (sp : Nat) : (nth c.fe sp FrontEnd.reset).fifo = [] := by
  unfold nth
  cases hf : c.fe[sp]? with
  | none => rfl
  | some f => exact h f (List.mem_of_getElem? hf)

/-- From an empty FIFO the lanes take nothing. -/
theorem State.takeEntry_of_drained {s : State} {ci : Nat} (h : (s.cluster ci).Drained) (sp : Nat) (always : Bool) :
    s.takeEntry ci sp always = s.modCluster ci fun c => { c with
      fe := setNth c.fe sp { nth (s.cluster ci).fe sp FrontEnd.reset with
        fifo := [], took := (0, (nth (s.cluster ci).fe sp FrontEnd.reset).took.1) } } := by
  unfold State.takeEntry
  dsimp only
  rw [h.nth_fifo sp]
  rfl

/-- A cluster without entries for its lanes, with a clock and a count of CYCLES. -/
def Cluster.IdleAt (c : Cluster) (k : Clock) (n : Nat) : Prop := c.Drained ∧ c.clock = k ∧ c.cycles = n

theorem State.takeEntry_idleAt {s : State} {ci : Nat} {k : Clock} {n : Nat} (h : (s.cluster ci).IdleAt k n) (sp : Nat) (always : Bool) :
    ((s.takeEntry ci sp always).cluster ci).IdleAt k n := by
  obtain ⟨hdrained, hclock, hcycles⟩ := h
  rw [State.takeEntry_of_drained hdrained, State.cluster_modCluster]
  refine ⟨fun f hf => ?_, hclock, hcycles⟩
  rcases List.mem_or_eq_of_mem_set hf with hold | rfl
  · exact hdrained f hold
  · rfl

theorem State.takeEntries_idleAt {s : State} {ci : Nat} {k : Clock} {n : Nat} (h : (s.cluster ci).IdleAt k n) (always : Bool) :
    (((List.range 4).foldl (fun s sp => s.takeEntry ci sp always) s).cluster ci).IdleAt k n :=
  foldl_keeps (fun t : State => (t.cluster ci).IdleAt k n) (fun _ sp ht => State.takeEntry_idleAt ht sp always) _ h

theorem State.countLane_if_idleAt {s : State} {ci : Nat} {k : Clock} {n : Nat} {p : Prop} [Decidable p]
    (h : (s.cluster ci).IdleAt k n) : ((if p then s.countLane ci else s).cluster ci).IdleAt k n := by
  split <;> exact h

/-- A lane edge changes the clock as `Clock.laneEdge` says, and CYCLES counts it. -/
theorem State.laneEdge_idleAt {s : State} {ci : Nat} (h : s.lanesStopped ci = false) (hdrained : (s.cluster ci).Drained) (always : Bool) :
    ((s.laneEdge ci always).cluster ci).IdleAt (s.cluster ci).clock.laneEdge (((s.cluster ci).cycles + 1) % 2 ^ 64) := by
  rw [State.laneEdge, h, if_neg Bool.false_ne_true]
  dsimp only
  refine State.countLane_if_idleAt (State.takeEntries_idleAt ?_ always)
  rw [State.cluster_of_clusters (State.noteDroop_clusters ..), State.cluster_modCluster]
  exact ⟨hdrained, rfl, rfl⟩

/-! ## Hops (R222, R223) -/

theorem Island.hopDue_eq {i : Island} {m : Move} (hmove : i.move = some m) (hlocked : m.locked = true)
    (h : m.freq < i.f ∨ i.f < m.freq ∧ i.n = m.target) : i.hopDue = some m.freq := by
  simp [Island.hopDue, hmove, hlocked, h]

/-- A hop that is due begins where none is in progress and no stretch runs or is due. -/
theorem exec_clockHop_begins {s : State} {ci f : Nat} (hdue : (s.island (laneIsland ci)).hopDue = some f)
    (hci : s.isCluster ci = true) (hhop : (s.cluster ci).clock.hop = none) (hstr : (s.cluster ci).clock.str = false)
    (hstrDue : (s.cluster ci).clock.strDue = false) :
    exec (.clockHop ci) s = .next (s.modClock ci fun k => { k with hop := some f, hopEnd := s.timer + 8 }) := by
  rw [exec_clockHop, execClockHop, hdue]
  simp [hci, hhop, hstr, hstrDue]

/-- No hop begins in another one, nor where a stretch runs or is due. -/
theorem exec_clockHop_waits {s : State} {ci : Nat} (h : (s.cluster ci).clock.hop.isSome = true ∨ (s.cluster ci).clock.str = true ∨
    (s.cluster ci).clock.strDue = true) : exec (.clockHop ci) s = .next s := by
  rw [exec_clockHop, execClockHop]
  split
  · rw [if_neg]
    rintro ⟨-, hhop, hstr, hstrDue⟩
    rcases h with h | h | h
    · rw [Option.isNone_iff_eq_none.1 hhop] at h
      cases h
    · simp [h] at hstr
    · simp [h] at hstrDue
  · rfl

theorem State.endHop_of_hop {s : State} {ci f : Nat} (h : (s.cluster ci).clock.hop = some f) : s.endHop ci =
    (s.modClock ci fun k => { k.unhop with lmhz := f }).modIsland (laneIsland ci) fun i => ({ i with f := f }).settled := by
  rw [State.endHop, h]

theorem State.endHop_of_no_hop {s : State} {ci : Nat} (h : (s.cluster ci).clock.hop = none) : s.endHop ci = s := by
  rw [State.endHop, h]

theorem State.endHop_hop (s : State) (ci : Nat) : ((s.endHop ci).cluster ci).clock.hop = none := by
  cases h : (s.cluster ci).clock.hop with
  | none => rw [State.endHop_of_no_hop h, h]
  | some f =>
    rw [State.endHop_of_hop h, State.cluster_of_clusters (State.modIsland_clusters ..), State.clock_modClock]
    rfl

theorem State.endHop_cluster_ne {s : State} {ci cj : Nat} (h : cj ≠ ci) : (s.endHop ci).cluster cj = s.cluster cj := by
  cases hhop : (s.cluster ci).clock.hop with
  | none => rw [State.endHop_of_no_hop hhop]
  | some f =>
    rw [State.endHop_of_hop hhop, State.cluster_of_clusters (State.modIsland_clusters ..), State.modClock,
      State.cluster_modCluster_ne _ _ h]

/-- Ending hops begins none. -/
theorem State.endHop_keeps_no_hop {s : State} {ci : Nat} (h : (s.cluster ci).clock.hop = none) (cj : Nat) :
    ((s.endHop cj).cluster ci).clock.hop = none := by
  by_cases hij : ci = cj
  · exact hij ▸ s.endHop_hop ci
  · rwa [State.endHop_cluster_ne hij]

/-- What a step of a fold reaches and every step keeps, the fold reaches. -/
theorem foldl_reaches {σ β : Type} (P : σ → Prop) {f : σ → β → σ} {b : β} (hb : ∀ s, P (f s b))
    (h : ∀ s x, P s → P (f s x)) {l : List β} (hl : b ∈ l) (s : σ) : P (l.foldl f s) := by
  obtain ⟨before, after, rfl⟩ := List.append_of_mem hl
  rw [List.foldl_append, List.foldl_cons]
  exact foldl_keeps P h after (hb _)

theorem mem_keys_filterMap {α : Type} {m : FMap α} {p : Nat → α → Bool} {k : Nat} {v : α} (h : find? m k = some v)
    (hp : p k v = true) : k ∈ keys (filterMap m p) := by
  induction m with
  | nil => cases h
  | cons q m ih =>
    obtain ⟨j, u⟩ := q
    unfold filterMap keys at ih ⊢
    rw [find?] at h
    split at h
    case isTrue hj =>
      cases h
      subst hj
      simp [hp]
    case isFalse =>
      obtain ⟨r, hr, rfl⟩ := List.mem_map.1 (ih h)
      obtain ⟨hr, hpr⟩ := List.mem_filter.1 hr
      exact List.mem_map_of_mem (List.mem_filter.2 ⟨List.mem_cons_of_mem _ hr, hpr⟩)

/-- A cluster in a hop is not as after reset. -/
theorem State.find?_clusters_of_hop {s : State} {ci : Nat} (h : (s.cluster ci).clock.hop.isSome = true) :
    find? s.clusters ci = some (s.cluster ci) := by
  unfold State.cluster findD at h ⊢
  cases hc : find? s.clusters ci with
  | none =>
    rw [hc] at h
    cases h
  | some c => rfl

/-- A hop does not outlast its last tick. -/
theorem State.endHops_hop {s : State} {ci now : Nat} (h : (s.cluster ci).clock.hop.isSome = true)
    (hend : (s.cluster ci).clock.hopEnd < now) : ((s.endHops now).cluster ci).clock.hop = none :=
  foldl_reaches (fun t : State => (t.cluster ci).clock.hop = none) (fun t => t.endHop_hop ci)
    (fun _ cj ht => State.endHop_keeps_no_hop ht cj)
    (mem_keys_filterMap (State.find?_clusters_of_hop h) (by simp [h, hend])) s

/-- Beyond the hops that it ends, the passing of ticks changes no clock. -/
theorem State.ticks_clock (s : State) (n ci : Nat) :
    ((s.ticks n).cluster ci).clock = ((s.endHops (s.timer + n)).cluster ci).clock := by
  unfold State.ticks
  dsimp only
  split
  · rfl
  · unfold State.cluster findD
    dsimp only
    rw [find?_mapVals]
    cases find? (s.endHops (s.timer + n)).clusters ci <;> rfl

/-! ## The watchdog and the bins (R226, R241) -/

theorem exec_hangReport_reports {s : State} {ci : Nat} (hlim : (s.cluster ci).hangLim ≠ 0)
    (hcount : (s.cluster ci).hangLim.toNat ≤ (s.cluster ci).hangCount) (hnew : (s.cluster ci).hangReported = false) :
    exec (.hangReport ci) s = .next (((s.modCluster ci fun c => { c with hangReported := true }).bbx 7 (dieOf ci) (clusterCode ci)
      0 0xFF (evData (toBytes ci 4))).postError 6 0 (clusterCode ci) 0 0 0) := by
  rw [exec_hangReport, execHangReport]
  refine congrArg _ (if_neg ?_)
  rintro (hzero | hbelow | hold)
  · exact hlim hzero
  · omega
  · exact Bool.false_ne_true (hnew.symm.trans hold)

theorem exec_hangReport_silent {s : State} {ci : Nat} (h : (s.cluster ci).hangLim = 0 ∨
    (s.cluster ci).hangCount < (s.cluster ci).hangLim.toNat ∨ (s.cluster ci).hangReported = true) :
    exec (.hangReport ci) s = .next s := by
  rw [exec_hangReport, execHangReport]
  exact congrArg _ (if_pos h)

theorem exec_binAgeExpiry_ages {s : State} {ci sp n : Nat} {b : Bin} {o : Cohort} (hb : find? (s.cluster ci).bins n = some b)
    (hsp : b.sp = sp) (ho : find? s.cohorts b.cohort = some o) (hage : o.hdr.binage ≤ b.age) : exec (.binAgeExpiry ci sp n) s =
    .next (s.modCluster ci fun c => { c with bins := modify c.bins n fun b => { b with aged := true } }) := by
  have hdue : s.binDue b = true := by simp [State.binDue, ho, hage]
  rw [exec_binAgeExpiry, execBinAgeExpiry, hb]
  exact congrArg _ (if_pos ⟨hsp, hdue⟩)

/-- Settles O48: an edge's effect on the droop state by induction on the edges, and the end of a hop by the fold that ends the
hops whose last tick has come. -/
theorem clocksAndDroop : Obligations.ClocksAndDroop := by
  intro s ci sp v peak c k isl rate fires responds seen
  refine ⟨rfl, ?drpCtl, ⟨?unstretched, ?stretched, ?inHop, exec_droopFire_of_not_fires, rfl⟩,
    fun h n => Clock.repeat_laneEdge_str h, ?armLane, fun h n => Clock.repeat_frontEdge_halving h, ?laneEdge, State.frontEdge_clock,
    rfl, rfl, ?hopBegins, exec_clockHop_waits, ?hopCompletes, ?noHop, ?hopEnds, exec_hangReport_reports, exec_hangReport_silent, ?binAge⟩
  case drpCtl =>
    intro hci
    obtain ⟨hen, hres, hthr⟩ := drpCtlWord_fields v
    exact ⟨_, exec_drpCtlWrite_eq hci v, hen, hres, hthr.trans (storedThr_eq _)⟩
  case unstretched => exact fun hfires hhop hstr => exec_droopFire_outside_stretch hfires hhop hstr
  case stretched => exact fun hfires hhop hstr => exec_droopFire_in_stretch hfires hhop hstr
  case inHop =>
    intro hfires f hhop
    exact exec_droopFire_in_hop hfires (Option.isSome_of_eq_some hhop)
  case armLane =>
    intro harm
    exact ⟨by rw [Clock.laneEdge_arm, if_pos harm], Clock.repeat_frontEdge_arm_lane harm⟩
  case laneEdge =>
    intro hrun hdrained
    obtain ⟨-, hclock, hcycles⟩ := State.laneEdge_idleAt hrun hdrained false
    exact ⟨hclock, hcycles⟩
  case hopBegins =>
    intro m hmove hlocked hci hhop hstr hstrDue hway
    exact exec_clockHop_begins (Island.hopDue_eq hmove hlocked hway) hci hhop hstr hstrDue
  case hopCompletes =>
    intro f hhop
    rw [exec_hopComplete, execHopComplete, State.endHop_of_hop hhop]
    rfl
  case noHop =>
    intro hhop
    rw [exec_hopComplete, execHopComplete, State.endHop_of_no_hop hhop]
  case hopEnds =>
    intro n hhop hend
    rw [State.ticks_clock]
    exact State.endHops_hop hhop hend
  case binAge =>
    rintro n b hb hsp ⟨o, ho, hage⟩
    exact exec_binAgeExpiry_ages hb hsp ho hage

end Sys2Proof.Machine
end
